-- ==== Sys2Proof/Word.lean ====
section
/-! DEFINITION. The word types and their plainest arithmetic (R14: little-endian, R539: values that wrap). -/

namespace Sys2Proof

abbrev Byte := BitVec 8
abbrev W16 := BitVec 16
abbrev W32 := BitVec 32
abbrev W64 := BitVec 64

/-- Bits [hi:lo] of a 64-bit word, as a number. -/
def W64.field (w : W64) (hi lo : Nat) : Nat := (w.toNat >>> lo) % 2 ^ (hi - lo + 1)

/-- One bit of a word. -/
def W64.bit (w : W64) (i : Nat) : Bool := w.getLsbD i

/-- The word with bits [hi:lo] replaced by a number (taken modulo the field's width). -/
def W64.setField (w : W64) (hi lo v : Nat) : W64 :=
  let m : W64 := BitVec.ofNat 64 ((2 ^ (hi - lo + 1) - 1) * 2 ^ lo)
  (w &&& ~~~m) ||| (BitVec.ofNat 64 ((v % 2 ^ (hi - lo + 1)) * 2 ^ lo))

def W64.setBit (w : W64) (i : Nat) (b : Bool) : W64 := W64.setField w i i (if b then 1 else 0)

end Sys2Proof
end

