-- ==== Sys2Proof/Syntax.lean ====
section
/-! DEFINITION. The commands of the block: one constructor of `Instr` for each row of spec/opcode_table.json,
and the plain data that the commands carry as operands. -/

namespace Sys2Proof

/-- The agents that reach the register window and the mailboxes (R442), the debug port, and tasks (R501). -/
inductive Agent where
  | host | fwn | fws | sec | bmc
  | ccp (core : Nat)
  | jtag
  | task (secure : Bool)
  deriving DecidableEq, Repr

/-- A write access of 32 or 64 bits to the register window (R35): the upper and the lower 32 bits
are written when `hi` and `lo` are true. -/
structure Wr where
  agent : Agent
  hi    : Bool
  lo    : Bool
  val   : W64
  deriving DecidableEq, Repr

/-- An AFT frame: the header fields of R360 and the payload bytes. -/
structure Frame where
  ver     : Nat
  type    : Nat
  first   : Bool
  last    : Bool
  ord     : Bool
  coll    : Bool
  ecn     : Nat
  src     : Nat
  dst     : Nat
  chan    : Nat
  hops    : Nat
  msgId   : Nat
  psn     : Nat
  addr    : W64
  collId  : Nat
  cstep   : Nat
  lseq    : Nat
  aux     : Nat
  payload : List Byte
  deriving DecidableEq, Repr

/-- The encapsulation of a frame (R360, R375, R391, R392): the MAC addresses, the 802.1Q tag, and for UDP/IPv6 the DSCP and ECN
fields, the addresses, the UDP ports and the UDP checksum. -/
structure Encap where
  dmac  : Nat
  smac  : Nat
  vlan  : Option Nat
  udp   : Bool
  dscp  : Nat
  ecn   : Nat
  sip   : List W64
  dip   : List W64
  sport : Nat
  dport : Nat
  sum   : Nat
  deriving DecidableEq, Repr

/-- A frame on a link (R360): its encapsulation, the bytes of AFT header, payload and ICRC, whether its FCS is good, and the
codewords in it that the receiver's FEC corrected (R392). -/
structure Packet where
  enc   : Encap
  aft   : List Byte
  fcsOk : Bool
  fec   : Nat
  deriving DecidableEq, Repr

/-- What a sensor of the block reads: a sensor index (R535) and a temperature in 1/8 °C. -/
structure Reading where
  sensor : Nat
  temp   : Int
  deriving DecidableEq, Repr

/-- A bit of the DRAM devices of a channel that has come to be wrong: the channel line, the device of its sub-channel, and the
pin and beat that deliver the bit (R406). -/
structure BitError where
  line   : Nat
  device : Nat
  pin    : Nat
  beat   : Nat
  deriving DecidableEq, Repr

/-- What a scrub read of an SRAM word finds (R417). -/
inductive WordError where
  | clean | corrected | double
  deriving DecidableEq, Repr

/-- How a service request reached firmware (R449, R461). -/
inductive Via where
  | channel (c : Nat)
  | mgmt
  deriving DecidableEq, Repr

/-- The transports of the SPDM responder (R498). -/
inductive Transport where
  | doe | mctp | mgmtPort
  deriving DecidableEq, Repr

/-- The SPDM requests that the responder answers, and any other (R498). KEY_EXCHANGE and FINISH carry the
requester's root public key when the requester authenticates itself (R500). -/
inductive SpdmReq where
  | getVersion | getCapabilities | negotiateAlgorithms | getDigests
  | getCertificate (slot : Nat)
  | challenge (slot : Nat)
  | getMeasurements (index : Nat) (signed : Bool)
  | keyExchange (rootKey : List Byte)
  | finish (ok : Bool)
  | heartbeat | keyUpdate | endSession | chunkSend | chunkGet | other
  deriving DecidableEq, Repr

/-- How a time or frame source is named in a loss (R278): the TSRC code, or 7 for FRAME_IN. -/
abbrev SourceCode := Nat

/-- The event messages of IEEE 1588: Sync, and the requests and responses of the two delay mechanisms (R272). -/
inductive PtpKind where
  | sync | delay | peerDelay
  deriving DecidableEq, Repr

/-- A PTP event message: its kind and domain, and the frame rate of a Synchronization Metadata TLV that came with it (R272). -/
structure PtpMsg where
  kind   : PtpKind
  domain : Nat
  rate   : Option (Nat × Nat)
  deriving DecidableEq, Repr

/-- What a channel's training ends with (R396, R402 to R405). -/
structure TrainResult where
  kind     : Nat        -- 0 none, 1 MRDIMM, 2 RDIMM
  size     : Nat        -- 0 32 GiB, 1 64 GiB, 2 128 GiB
  width    : Nat        -- data pins of a DRAM device
  devices  : Nat        -- DRAM devices of a sub-channel
  ranks    : Nat        -- ranks of a sub-channel
  rated    : Nat        -- the data rate that the module is rated for, in MT/s
  serial   : Nat
  spdCrc   : Nat
  temp     : Int
  verified : Bool       -- a restore's settings pass the training-pattern check (R404)
  trained  : Bool       -- full training succeeds
  params   : List Byte  -- the PARAMS that full training finds (R403)
  deriving DecidableEq, Repr

/-- The kind of frame loss that a receiver of a fabric link finds (R372). -/
inductive LinkLoss where
  | fcs | fec | gap
  deriving DecidableEq, Repr

/-- The commands. Task commands name a core and a task context; their operands stand in the descriptor
that the context holds (R252, R253). A register command names its page instance and carries the write. -/
inductive Instr where
  -- task commands (R253, R320, R378)
  | nop (core ctx : Nat)
  | tileLoad (core ctx : Nat)
  | stream (core ctx : Nat)
  | vecFma (core ctx : Nat)
  | vecAdd (core ctx : Nat)
  | vecMul (core ctx : Nat)
  | vecMax (core ctx : Nat)
  | vecMin (core ctx : Nat)
  | vecConv (core ctx : Nat)
  | vecRsum (core ctx : Nat)
  | vecRmax (core ctx : Nat)
  | vecRmin (core ctx : Nat)
  | vecRsumsq (core ctx : Nat)
  | vecRecip (core ctx : Nat)
  | vecRsqrt (core ctx : Nat)
  | vecExp (core ctx : Nat)
  | vecLog (core ctx : Nat)
  | vecTanh (core ctx : Nat)
  | vecSigmoid (core ctx : Nat)
  | table (core ctx : Nat)
  | xferCopy (core ctx : Nat)
  | xferRelayout (core ctx : Nat)
  | xferGather (core ctx : Nat)
  | xferScatter (core ctx : Nat)
  | xferScatterAdd (core ctx : Nat)
  | fence (core ctx : Nat)
  | signal (core ctx : Nat)
  | wait (core ctx : Nat)
  | waitPoll (core ctx : Nat)
  | time (core ctx : Nat)
  | specBegin (core ctx : Nat)
  | specCommit (core ctx : Nat)
  | specAbort (core ctx : Nat)
  | specPoll (core ctx : Nat)
  | specWriteoutDone (core ctx : Nat)
  | collReduceScatter (core ctx : Nat)
  | collAllGather (core ctx : Nat)
  | collAllReduce (core ctx : Nat)
  | collBroadcast (core ctx : Nat)
  | collAllToAll (core ctx : Nat)
  | collExchange (core ctx : Nat)
  | updApply (core ctx : Nat)
  | updStep (core ctx : Nat)
  | updRoots (core ctx : Nat)
  | updPin (core ctx : Nat)
  | updDropout (core ctx : Nat)
  | updClaim (core ctx : Nat)
  | updRelease (core ctx : Nat)
  -- queues and tasks (R243 to R269)
  | doorbellWrite (agent : Agent) (queue : Nat) (value : W64)
  | doorbellRead (agent : Agent) (queue : Nat)
  | queueEnable (core : Nat) (w : Wr)
  | queueDisable (core : Nat) (w : Wr)
  | taskStart (queue ctx : Nat)
  | commandComplete (core ctx : Nat)
  | taskRetire (core ctx : Nat)
  -- page headers (R465 to R474)
  | dspFinit (core : Nat) (w : Wr)
  | dspHalt (core : Nat) (w : Wr)
  | updFinit (half : Nat) (w : Wr)
  | updHalt (half : Nat) (w : Wr)
  | updEnable (half : Nat) (w : Wr)
  | updScanComplete (half : Nat)
  | tblFinit (core : Nat) (w : Wr)
  | tblHalt (core : Nat) (w : Wr)
  | arrFinit (core : Nat) (w : Wr)
  | coreFinit (core : Nat) (w : Wr)
  | fabFinit (port : Nat) (w : Wr)
  | govHalt (core : Nat) (w : Wr)
  | finitDone (page : Nat)
  | errClear (page : Nat) (w : Wr)
  | cntClear (page : Nat) (w : Wr)
  | cntSelWrite (page slot : Nat) (w : Wr)
  | registerWrite (offset : Nat) (w : Wr)
  -- arrays, power duty and temperature
  | arrCtrlWrite (core : Nat) (w : Wr)
  | arrayIdleGate (core : Nat)
  | arrayRampStart (core : Nat)
  | arrayRampDone (core : Nat)
  | powerDutyUpdate (watts ampsA ampsB : Nat)
  | thermalSample (readings : List Reading)
  -- governor
  | epochTrigger (core : Nat) (w : Wr)
  | epochEnd (core : Nat)
  | govWrecTailWrite (core : Nat) (w : Wr)
  -- fetch engine, translation, far stores
  | runAheadRead (core ctx region : Nat)
  | fetCtrlWrite (core : Nat) (w : Wr)
  | watchRegionWrite (core index : Nat) (ext : Bool) (w : Wr)
  | tlbInvalidate (w : Wr)
  | tlbiDone
  | carveOutChange (w : Wr)
  | carveOutDone (half : Nat)
  | farStoreFlush (w : Wr)
  | flushDone
  -- memory modules and codes
  | patrolScrubLine (channel : Nat) (errs : List BitError)
  | sramScrubWord (store inst index : Nat) (err : WordError)
  | moduleOffline (channel : Nat) (stopped : Bool) (w : Wr)
  | memTrainingStart (w : Wr)
  | channelTrainingDone (channel : Nat) (r : TrainResult)
  | drawbarFlitReceive (dir seq : Nat) (corrected crcOk : Bool)
  | ucieKeepaliveSend (half : Nat)
  | halfIsolation (half : Nat)
  -- frame time
  | rasterLineBoundary
  | schBoundaryApply (half : Nat)
  | frameInEdge (rising : Bool) (atNs : Nat)
  | ppsInEdge (atNs : Nat)
  | ptpEventMessage (msg : PtpMsg) (port : Nat)
  | sourceLoss (src : SourceCode)
  | relockStart (src : SourceCode) (phase : Int) (sameFrame : Bool)
  | ftsTimeWrite (w : Wr)
  | ftsCtrlWrite (w : Wr)
  -- update engines
  | sliceUpdateStart (half : Nat)
  | sliceCommit (half : Nat)
  | rootJobStart (half : Nat)
  | rootJobDone (half : Nat)
  | keyRegistryClear (w : Wr)
  | tblCtrlWrite (core : Nat) (w : Wr)
  -- fabric
  | linkFailure (port : Nat)
  | linkUp (port width lanes : Nat)
  | linkRetryTimer (port : Nat)
  | fabRetrain (port : Nat) (w : Wr)
  | fabModeWrite (port : Nat) (w : Wr)
  | dataFrameSend (half dst chan : Nat)
  | aftDataReceive (port : Nat) (p : Packet)
  | aftAckReceive (port : Nat) (p : Packet)
  | aftNakReceive (port : Nat) (p : Packet)
  | aftCreditReceive (port : Nat) (p : Packet)
  | aftKeepaliveReceive (port : Nat) (p : Packet)
  | aftMgmtReceive (port : Nat) (p : Packet)
  | llrNakReceive (port : Nat) (p : Packet)
  | llrAckReceive (port : Nat) (p : Packet)
  | frameRelay (port : Nat) (p : Packet)
  | pauseFrameReceive (port : Nat)
  | ackTimer (half src : Nat)
  | retransmitTimeout (half dst psn : Nat)
  | peerSilenceTimeout (half dev : Nat)
  | keepaliveTimer (half dev : Nat)
  | rateControlWindow (half dst : Nat)
  | peerClear (half : Nat) (w : Wr)
  | routeInvalidate (w : Wr)
  -- mailboxes
  | mbxGo (agent : Agent) (chan : Nat)
  | mbxTake (agent : Agent) (chan : Nat)
  | mbxDataWrite (agent : Agent) (chan word : Nat) (w : Wr)
  | mbxCfgWrite (chan : Nat) (w : Wr)
  -- services
  | ingest (via : Via)
  | ingestComplete (slot : Nat) (status : Nat)
  | checkpoint (via : Via)
  | checkpointComplete
  | restore (via : Via)
  | queueTableQuery (via : Via)
  | queueTableMap (via : Via) (map : Bool) (va : Nat) (queue : Nat)
  | setDeviceId (via : Via) (id : Nat)
  | routeTableLoad (via : Via) (buffer count : Nat)
  | meshEntrySet (via : Via) (index : Nat) (words : List W64)
  | absentPeerClear (via : Via) (dev : Nat)
  | telemetryEnable (via : Via)
  | mgmtDatagram (port session : Nat) (secured : Bool) (words : List W64)
  | fwAliveTick
  | bar2Access (write : Bool) (offset : Nat) (len : Nat) (data : List Byte)
  | dmaTimeout (posted answered : Bool)
  | pcieLinkChange (rate width : Nat) (flit : Bool)
  -- security
  | spdmRequest (t : Transport) (session : Nat) (req : SpdmReq)
  | spdmSessionTimeout (t : Transport) (session : Nat)
  | bmcSidebandReset
  | secureBoot
  | verifyLoad
  | arbAdvance
  | ownerProvision
  | reseed
  | entropyHealthFail
  | secRandRead (agent : Agent)
  -- power and reset
  | powerOnReset
  | pwrGoodRise (group : Nat)
  | pwrEnableNext
  | seqTimeout
  | pwrGoodLoss (group : Nat)
  | powerDownStep
  | sysRstNAssert (release : Bool)
  | perstNAssert (release : Bool)
  | pcieHotReset (release : Bool)
  | devRst (w : Wr)
  | resetRelease
  | tapReset
  | halfRun (w : Wr)
  | profileSelect (w : Wr)
  | pwrLimitWrite (w : Wr)
  | sscEnWrite (w : Wr)
  | standbyEntry (w : Wr)
  | standbyExit (w : Wr)
  | pstateDone
  | thmCtrlWrite (w : Wr)
  | pmuFaultRead
  | pmuFaultClear (value : W64)
  | restart
  | avsVoltageCommand (half millivolts : Nat)
  -- trace and eclipse
  | trcMark (w : Wr)
  | traceBudgetWindow (ring : Nat)
  | traceTimeRecord
  | eclipseGo (w : Wr)
  | eclipseTimeTrigger
  | eclipseNFall
  | eclipseResume (w : Wr)
  | eclipseScan (w : Wr)
  | scanComplete
  -- JTAG
  | extest
  | samplePreload
  | idcode
  | secNonce
  | secToken (token sig : List Byte)
  | eclCtrl (value : W64)
  | memAccess (pa : Nat) (write : Bool) (value : W64)
  | eclScan
  | wrapSel (sel : Nat)
  | wrapWir (instr : Nat)
  | wrapWdr (value : W64)
  | bypass
  -- further events
  | refInEdge
  | ucieFlitReceive (half : Nat) (crcOk : Bool)
  | fcsError (port : Nat) (loss : LinkLoss)
  | caParityError (channel : Nat)
  | routeInvDone
  | pwrGoodAuxLoss
  | sysRefclkLoss
  deriving DecidableEq, Repr

end Sys2Proof
end

