-- ==== Sys2Proof/Config.lean ====
section
/-! DEFINITION. Free values: what the spec leaves open or takes from a standard that it only names. None has a body that
Lean can evaluate, so every proof holds whatever they are (log 5 to 8). -/

namespace Sys2Proof.Config

/-- The bits that a bounded vector function returns, before the bound of R103 is applied: operation and operand. -/
opaque vecFn : Nat → W32 → W32

/-- The bits of cospi (1 ulp) and pow (2 ulp) of R310, before their bounds are applied. -/
opaque cospi : W32 → W32
opaque pow : W32 → W32 → W32

/-- A byte of a carve-out that nothing has written since it grew: growth count and physical address (R199). -/
opaque carveByte : Nat → Nat → Byte

/-- A byte of workstation host memory that the device has not written (R27). -/
opaque hostByte : Nat → Byte

/-- 64 bits of the DRBG, by the number of the draw (R499). -/
opaque drbg : Nat → W64

/-- SHA-512 of a byte string, as its 64 bytes (R484). -/
opaque sha512 : List Byte → List Byte

/-- A byte string is a valid uncompressed P-521 point (R486). -/
opaque p521Point : List Byte → Bool

/-- ECDSA over P-521: key, message, signature (R485, R505). -/
opaque ecdsaVerify : List Byte → List Byte → List Byte → Bool

/-- The P-521 public key of a private key, as an uncompressed point; and an ECDSA signature with it: key, message, and the count of
free values taken, since a signature is not a function of these (R494, R495, R498). -/
opaque p521Public : Nat → List Byte
opaque ecdsaSign : Nat → List Byte → Nat → List Byte

/-- What X.509 makes of bytes: the length of the certificate area's chain and the public key of its DeviceID certificate (R488,
R496); the signed part of a certificate with a serial number, a validity and a public key, and the certificate of a signed part
and its signature (R495). -/
opaque chainLength : List Byte → Nat
opaque certificateKey : List Byte → List Byte
opaque certificateBody : List Byte → String → String → List Byte → List Byte
opaque certificateOf : List Byte → List Byte → List Byte

/-- Bytes of an SPDM response, by transport, session and draw (R498). -/
opaque spdmBytes : Nat → Nat → List Byte

/-- Decoded code value of a clip: clip bytes identify the stream; frame, x, y, component (R452, R454). -/
opaque decodedSample : List Byte → Nat → Nat → Nat → Nat → Nat

/-- Bit depth and full-range flag of a clip, whether it is one the decode engines accept with the named frames, and its
size (R452, R453). -/
opaque clipDepth : List Byte → Nat
opaque clipFullRange : List Byte → Bool
opaque clipOk : List Byte → Nat → Nat → Nat → Bool
opaque clipWidth : List Byte → Nat
opaque clipHeight : List Byte → Nat

/-- The clip has 4:2:0 chroma, not 4:2:2 (R452). -/
opaque clip420 : List Byte → Bool

/-- A namespace has logical blocks of 4,096 bytes, not 512 (R451); a byte of a drive or of the boot flash that the device has
not written (R451, R488). -/
opaque driveBlock4k : Nat → Nat → Bool
opaque driveByte : Nat → Byte
opaque flashByte : Nat → Byte

/-- An image payload of a type and a length fits its destination's instruction memory (R486). -/
opaque imageFits : Nat → Nat → Bool

/-- The digest of the security block's ROM, and the raw bits of measurement 5 over the values it reports (R497). -/
opaque romDigest : List Byte
opaque securityState : List Nat → List Byte

/-- The rank of a channel line, which belongs to the controller (R401). -/
opaque lineRank : Nat → Nat → Nat

/-- The destination MAC address of frames that stay on one link, HELLO and the LLR frames, which no rule gives. -/
opaque linkDmac : Nat

/-- The flow hash of R360 and R364 over source, destination and channel, which no rule gives. -/
opaque flowHash : Nat → Nat → Nat → Nat

/-- Values that no rule states, by the count of free values taken (unstated reads, undefined unit state). -/
opaque freeValue : Nat → W64

/-- One less than the command slots of a fetch engine, which R266 names and no rule counts. -/
opaque fetchSlots : Nat

/-- The wrapper code of WS_BYPASS, by wrapper (R559). -/
opaque wsBypass : Nat → Nat

/-- What a register word, by page and offset, and a byte, by address, of a unit read once a wrapper instruction has left its
state undefined (R562); the first argument counts the free values taken. -/
opaque undefReg : Nat → Nat → Nat → W64
opaque undefByte : Nat → Nat → Byte

/-- Bytes of the implementation state of a core in a scan image (R557). -/
opaque implSize : Nat → Nat

/-- Implementation state of a core that a scan section of TYPE 6 holds (R557). -/
opaque implState : Nat → Nat → Byte

end Sys2Proof.Config
end

