-- ==== Sys2Proof/Machine/Num.lean ====
section
/-! DEFINITION. Number formats, exact values, rounding and conversion (R45 to R72, R589), and the bounded functions of
R103 and R310. Values are exact: a finite magnitude is a fraction n / d of naturals with d > 0. -/

namespace Sys2Proof.Machine

/-- An exact value: NaN, an infinity, or a signed fraction. -/
inductive FVal where
  | nan
  | inf (neg : Bool)
  | num (neg : Bool) (n d : Nat)
  deriving DecidableEq, Repr

namespace FVal

def zero : FVal := .num false 0 1
def one : FVal := .num false 1 1

/-- m × 2^k for an integer exponent. -/
def pow2 (neg : Bool) (m : Nat) (k : Int) : FVal :=
  if 0 ≤ k then .num neg (m * 2 ^ k.toNat) 1 else .num neg m (2 ^ (-k).toNat)

def ofInt (i : Int) : FVal := .num (decide (i < 0)) i.natAbs 1

def isNan : FVal → Bool
  | .nan => true
  | _ => false

def isFinite : FVal → Bool
  | .num _ _ _ => true
  | _ => false

def isZero : FVal → Bool
  | .num _ n _ => n == 0
  | _ => false

def negate : FVal → FVal
  | .nan => .nan
  | .inf s => .inf (!s)
  | .num s n d => .num (!s) n d

def abs : FVal → FVal
  | .nan => .nan
  | .inf _ => .inf false
  | .num _ n d => .num false n d

/-- Product by R56 and R57: the sign is the exclusive-or of the signs. -/
def mul : FVal → FVal → FVal
  | .nan, _ => .nan
  | _, .nan => .nan
  | .inf s, .inf t => .inf (s != t)
  | .inf s, .num t n _ => if n = 0 then .nan else .inf (s != t)
  | .num s n _, .inf t => if n = 0 then .nan else .inf (s != t)
  | .num s n d, .num t m e => .num (s != t) (n * m) (d * e)

/-- Exact sum by R56 and R57: x + (−x) = +0, (−0) + (−0) = −0. -/
def add : FVal → FVal → FVal
  | .nan, _ => .nan
  | _, .nan => .nan
  | .inf s, .inf t => if s = t then .inf s else .nan
  | .inf s, .num _ _ _ => .inf s
  | .num _ _ _, .inf t => .inf t
  | .num s n d, .num t m e =>
    if n = 0 ∧ m = 0 then .num (s && t) 0 1
    else
      let a := n * e
      let b := m * d
      if s = t then .num s (a + b) (d * e)
      else if a = b then .num false 0 1
      else if a > b then .num s (a - b) (d * e)
      else .num t (b - a) (d * e)

def sub (x y : FVal) : FVal := add x (negate y)

/-- Exact quotient; a zero divisor gives an infinity, 0 / 0 gives NaN (R590). -/
def div : FVal → FVal → FVal
  | .nan, _ => .nan
  | _, .nan => .nan
  | .inf _, .inf _ => .nan
  | .inf s, .num t _ _ => .inf (s != t)
  | .num s _ _, .inf t => .num (s != t) 0 1
  | .num s n d, .num t m e =>
    if m = 0 then (if n = 0 then .nan else .inf (s != t)) else .num (s != t) (n * e) (d * m)

/-- x < y in the order of R58, in which −0 lies below +0; false with a NaN. -/
def lt : FVal → FVal → Bool
  | .nan, _ => false
  | _, .nan => false
  | .inf s, .inf t => s && !t
  | .inf s, .num _ _ _ => s
  | .num _ _ _, .inf t => !t
  | .num s n d, .num t m e =>
    match s, t with
    | true, false => true
    | false, true => false
    | false, false => decide (n * e < m * d)
    | true, true => decide (m * d < n * e)

/-- maximumNumber of R58. -/
def maxNum (x y : FVal) : FVal :=
  if x.isNan then y else if y.isNan then x else if lt x y then y else x

/-- minimumNumber of R58. -/
def minNum (x y : FVal) : FVal :=
  if x.isNan then y else if y.isNan then x else if lt y x then y else x

/-- ⌊log₂ (n / d)⌋ for n, d > 0. -/
def floorLog2 (n d : Nat) : Int :=
  let k : Int := (n.log2 : Int) - (d.log2 : Int)
  let le : Bool := if 0 ≤ k then decide (d * 2 ^ k.toNat ≤ n) else decide (d ≤ n * 2 ^ (-k).toNat)
  if le then k else k - 1

end FVal

/-! ### Rounding (R60 to R64) -/

/-- Rounding modes; SR carries its 16-bit draw. -/
inductive Rnd where
  | rne
  | rtz
  | sr (r : Nat)
  deriving DecidableEq, Repr

/-- A fraction n / d rounded to an integer number of units (R60, R62). -/
def roundUnits (mode : Rnd) (n d : Nat) : Nat :=
  let i := n / d
  let f := n % d
  match mode with
  | .rne => if 2 * f > d ∨ (2 * f = d ∧ i % 2 = 1) then i + 1 else i
  | .rtz => i
  | .sr r => if r < f * 65536 / d then i + 1 else i

/-- Units of 2^u in n / d, as a fraction. -/
def inUnits (n d : Nat) (u : Int) : Nat × Nat :=
  if 0 ≤ u then (n, d * 2 ^ u.toNat) else (n * 2 ^ (-u).toNat, d)

/-- A floating-point layout of R46. `nanAll`: every code with exponent all ones and a non-zero fraction is NaN (with
infinities); `nanTop`: only the code with exponent and fraction all ones is NaN; neither: no NaN. -/
structure FloatFmt where
  ebits  : Nat
  mbits  : Nat
  bias   : Nat
  nanAll : Bool
  nanTop : Bool
  deriving DecidableEq, Repr

namespace FloatFmt

def width (f : FloatFmt) : Nat := 1 + f.ebits + f.mbits

def expMax (f : FloatFmt) : Nat := 2 ^ f.ebits - 1

/-- The largest finite magnitude's code, without sign. -/
def maxCode (f : FloatFmt) : Nat :=
  if f.nanAll then f.expMax * 2 ^ f.mbits - 1
  else if f.nanTop then f.expMax * 2 ^ f.mbits + 2 ^ f.mbits - 2
  else f.expMax * 2 ^ f.mbits + 2 ^ f.mbits - 1

/-- The canonical NaN (R46), for a format that has one. -/
def nanCode (f : FloatFmt) : Nat :=
  if f.nanAll then f.expMax * 2 ^ f.mbits + 2 ^ (f.mbits - 1) else f.expMax * 2 ^ f.mbits + 2 ^ f.mbits - 1

def infCode (f : FloatFmt) (neg : Bool) : Nat :=
  (if neg then 2 ^ (f.ebits + f.mbits) else 0) + f.expMax * 2 ^ f.mbits

def hasNan (f : FloatFmt) : Bool := f.nanAll || f.nanTop

def magVal (f : FloatFmt) (neg : Bool) (e m : Nat) : FVal :=
  if e = 0 then FVal.pow2 neg m (1 - (f.bias : Int) - f.mbits)
  else FVal.pow2 neg (2 ^ f.mbits + m) ((e : Int) - f.bias - f.mbits)

/-- The value of a code (R46). -/
def decode (f : FloatFmt) (c : Nat) : FVal :=
  let neg := (c >>> (f.ebits + f.mbits)) % 2 == 1
  let e := (c >>> f.mbits) % 2 ^ f.ebits
  let m := c % 2 ^ f.mbits
  if f.nanAll && e == f.expMax then (if m = 0 then .inf neg else .nan)
  else if f.nanTop && e == f.expMax && m == 2 ^ f.mbits - 1 then .nan
  else f.magVal neg e m

/-- The magnitude n / d rounded with an unbounded exponent range above: the units and the exponent of a unit. -/
def roundMag (f : FloatFmt) (mode : Rnd) (n d : Nat) : Nat × Int :=
  let emin : Int := 1 - (f.bias : Int)
  let e := FVal.floorLog2 n d
  let u : Int := (if e < emin then emin else e) - f.mbits
  let q := inUnits n d u
  let i := roundUnits mode q.1 q.2
  if i = 2 ^ (f.mbits + 1) then (2 ^ f.mbits, u + 1) else (i, u)

/-- The code of i units of 2^u, without sign, taken as though the exponent field were wide enough. -/
def codeOf (f : FloatFmt) (i : Nat) (u : Int) : Nat :=
  if i < 2 ^ f.mbits then i
  else ((u + f.mbits + f.bias).toNat) * 2 ^ f.mbits + (i - 2 ^ f.mbits)

def withSign (f : FloatFmt) (neg : Bool) (c : Nat) : Nat := (if neg then 2 ^ (f.ebits + f.mbits) else 0) + c

/-- An arithmetic result (R55, R61, R64): overflow gives an infinity, NaN the canonical NaN. -/
def arith (f : FloatFmt) (x : FVal) : Nat :=
  match x with
  | .nan => f.nanCode
  | .inf s => f.infCode s
  | .num s n d =>
    if n = 0 then f.withSign s 0
    else
      let r := f.roundMag .rne n d
      let c := f.codeOf r.1 r.2
      if c > f.maxCode then f.infCode s else f.withSign s c

end FloatFmt

def fp32 : FloatFmt := { ebits := 8, mbits := 23, bias := 127, nanAll := true, nanTop := false }
def bf16 : FloatFmt := { ebits := 8, mbits := 7, bias := 127, nanAll := true, nanTop := false }
def fp16 : FloatFmt := { ebits := 5, mbits := 10, bias := 15, nanAll := true, nanTop := false }
def e4m3 : FloatFmt := { ebits := 4, mbits := 3, bias := 7, nanAll := false, nanTop := true }
def e5m2 : FloatFmt := { ebits := 5, mbits := 2, bias := 15, nanAll := true, nanTop := false }
def e3m2 : FloatFmt := { ebits := 3, mbits := 2, bias := 3, nanAll := false, nanTop := false }
def e2m3 : FloatFmt := { ebits := 2, mbits := 3, bias := 1, nanAll := false, nanTop := false }
def e2m1 : FloatFmt := { ebits := 2, mbits := 1, bias := 1, nanAll := false, nanTop := false }

/-! ### Format codes (R45) -/

/-- What a format code names. -/
inductive Fmt where
  | float (f : FloatFmt)
  | e8m0
  | int (n : Nat)
  | uint (n : Nat)
  | ter
  deriving DecidableEq, Repr

def Fmt.ofCode (c : Nat) : Option Fmt :=
  match c with
  | 0x00 => some (.float fp32)
  | 0x01 => some (.float bf16)
  | 0x02 => some (.float fp16)
  | 0x03 => some (.float e4m3)
  | 0x04 => some (.float e5m2)
  | 0x05 => some (.float e3m2)
  | 0x06 => some (.float e2m3)
  | 0x07 => some (.float e2m1)
  | 0x08 => some .e8m0
  | 0x1F => some (.int 16)
  | 0x20 => some (.uint 1)
  | 0x21 => some (.uint 2)
  | 0x23 => some (.uint 4)
  | 0x27 => some (.uint 8)
  | 0x2F => some (.uint 16)
  | 0x30 => some .ter
  | _ => if 0x10 ≤ c ∧ c ≤ 0x17 then some (.int (c - 0x0F)) else none

/-- Storage width in bits. -/
def Fmt.bits : Fmt → Nat
  | .float f => f.width
  | .e8m0 => 8
  | .int n => n
  | .uint n => n
  | .ter => 2

/-- Class Float of R45. -/
def Fmt.isFloat : Fmt → Bool
  | .float _ => true
  | _ => false

/-- Class Integer of R45. -/
def Fmt.isInt : Fmt → Bool
  | .int _ => true
  | .uint _ => true
  | .ter => true
  | _ => false

def intWidthClass (n : Nat) : Nat :=
  if n ≤ 1 then 1 else if n ≤ 2 then 2 else if n ≤ 4 then 4 else if n ≤ 8 then 8 else 16

/-- Compute width of R45; 0 for FP32 and E8M0, which the arrays do not take. -/
def Fmt.computeWidth : Fmt → Nat
  | .float f => if f.width = 32 then 0 else if f = bf16 then 8 else if f = fp16 then 16 else 4
  | .e8m0 => 0
  | .int n => intWidthClass n
  | .uint n => intWidthClass n
  | .ter => 2

def Fmt.codeWidth (c : Nat) : Nat := ((Fmt.ofCode c).map Fmt.bits).getD 0

def Fmt.signed : Fmt → Bool
  | .int _ => true
  | .ter => true
  | _ => false

/-- Two's complement value of n bits. -/
def signedOf (n c : Nat) : Int :=
  if n = 0 then 0 else if c % 2 ^ n < 2 ^ (n - 1) then (c % 2 ^ n : Nat) else ((c % 2 ^ n : Nat) : Int) - (2 ^ n : Nat)

/-- The code of an integer in n bits. -/
def toBits (n : Nat) (i : Int) : Nat := (i % ((2 ^ n : Nat) : Int)).toNat

/-- The value of a stored code (R46 to R50). -/
def Fmt.decode (f : Fmt) (c : Nat) : FVal :=
  match f with
  | .float f => f.decode (c % 2 ^ f.width)
  | .e8m0 => if c % 256 = 255 then .nan else FVal.pow2 false 1 (((c % 256 : Nat) : Int) - 127)
  | .int n => if n = 1 then (if c % 2 = 0 then FVal.one else .num true 1 1) else FVal.ofInt (signedOf n c)
  | .uint n => .num false (c % 2 ^ n) 1
  | .ter => FVal.ofInt (signedOf 2 c)

/-- Whether a format has a NaN encoding (R46, R50, R66). -/
def Fmt.hasNan : Fmt → Bool
  | .float f => f.hasNan
  | .e8m0 => true
  | _ => false

/-! ### Conversion (R65, R66, R589) -/

/-- How a conversion reports an element to the tally unit. -/
structure Report where
  uf     : Bool
  zero   : Bool
  sat    : Bool
  nonfin : Bool
  deriving DecidableEq, Repr

def Report.ordinary : Report := { uf := false, zero := false, sat := false, nonfin := false }
def Report.isUf : Report := { Report.ordinary with uf := true }
def Report.isZero : Report := { Report.ordinary with zero := true }
def Report.isSat : Report := { Report.ordinary with sat := true }
def Report.isNonfin : Report := { Report.ordinary with nonfin := true }
def Report.satNonfin : Report := { Report.ordinary with sat := true, nonfin := true }

def convFloat (f : FloatFmt) (mode : Rnd) (x : FVal) : Nat × Report :=
  match x with
  | .nan => if f.hasNan then (f.nanCode, .isNonfin) else (0, .isNonfin)
  | .inf s => if f.nanAll then (f.infCode s, .isNonfin) else (f.withSign s f.maxCode, .satNonfin)
  | .num s n d =>
    if n = 0 then (f.withSign s 0, .isZero)
    else
      let r := f.roundMag mode n d
      let c := f.codeOf r.1 r.2
      if c > f.maxCode then (f.withSign s f.maxCode, .isSat)
      else if c = 0 then (f.withSign s 0, .isUf)
      else (f.withSign s c, .ordinary)

def clampInt (lo hi v : Int) : Int := if v < lo then lo else if v > hi then hi else v

/-- Conversion to an integer range lo … hi, in n bits. -/
def convInt (n : Nat) (lo hi : Int) (mode : Rnd) (x : FVal) : Nat × Report :=
  match x with
  | .nan => (0, .isNonfin)
  | .inf s => (toBits n (if s then lo else hi), .satNonfin)
  | .num s m d =>
    if m = 0 then (0, .isZero)
    else
      let i := roundUnits mode m d
      if i = 0 then (0, .isUf)
      else
        let v : Int := if s then -(i : Int) else i
        let w := clampInt lo hi v
        (toBits n w, if w = v then .ordinary else .isSat)

/-- INT1 by R589. -/
def convInt1 (mode : Rnd) (x : FVal) : Nat × Report :=
  match x with
  | .nan => (0, .isNonfin)
  | .inf s => (if s then 1 else 0, .satNonfin)
  | .num s m d =>
    if m = 0 then (0, .isZero)
    else
      let i := roundUnits mode m d
      (if s then 1 else 0, if i = 0 then .isUf else if i = 1 then .ordinary else .isSat)

/-- E8M0 by R589. -/
def convE8m0 (mode : Rnd) (x : FVal) : Nat × Report :=
  match x with
  | .nan => (0xFF, .isNonfin)
  | .inf _ => (0xFE, .satNonfin)
  | .num _ n d =>
    if n = 0 then (0, .isZero)
    else
      let k := FVal.floorLog2 n d
      if k < -127 then (0, .isUf)
      else
        let q := inUnits n d k
        let up : Bool :=
          match mode with
          | .rne => decide (2 * (q.1 - q.2) > q.2 ∨ (2 * (q.1 - q.2) = q.2 ∧ (k + 127) % 2 = 1))
          | .rtz => false
          | .sr r => decide (r < (q.1 - q.2) * 65536 / q.2)
        let k' := if up then k + 1 else k
        if k' > 127 then (0xFE, .isSat) else ((k' + 127).toNat, .ordinary)

/-- The conversion of a value into a format (R65, R589). -/
def Fmt.conv (f : Fmt) (mode : Rnd) (x : FVal) : Nat × Report :=
  match f with
  | .float f => convFloat f mode x
  | .e8m0 => convE8m0 mode x
  | .int n => if n = 1 then convInt1 mode x else convInt n (-(2 ^ (n - 1) : Nat)) ((2 ^ (n - 1) : Nat) - 1) mode x
  | .uint n => convInt n 0 ((2 ^ n : Nat) - 1) mode x
  | .ter => convInt 2 (-1) 1 mode x

/-! ### FP32 and BF16 arithmetic (R56 to R58, R61, R64) -/

def dec32 (w : Nat) : FVal := fp32.decode w
def enc32 (x : FVal) : Nat := fp32.arith x
def decB (w : Nat) : FVal := bf16.decode w
def encB (x : FVal) : Nat := bf16.arith x

def fadd (a b : Nat) : Nat := enc32 (FVal.add (dec32 a) (dec32 b))
def fsub (a b : Nat) : Nat := enc32 (FVal.sub (dec32 a) (dec32 b))
def fmul (a b : Nat) : Nat := enc32 (FVal.mul (dec32 a) (dec32 b))
def fdiv (a b : Nat) : Nat := enc32 (FVal.div (dec32 a) (dec32 b))
/-- a × b + c, rounded once. -/
def ffma (a b c : Nat) : Nat := enc32 (FVal.add (FVal.mul (dec32 a) (dec32 b)) (dec32 c))
def fneg (a : Nat) : Nat := enc32 (FVal.negate (dec32 a))
def fmax (a b : Nat) : Nat := enc32 (FVal.maxNum (dec32 a) (dec32 b))
def fmin (a b : Nat) : Nat := enc32 (FVal.minNum (dec32 a) (dec32 b))
def f32One : Nat := 0x3F800000
def f32Half : Nat := 0x3F000000
/-- A count as FP32, rounded once (R310). -/
def f32OfNat (n : Nat) : Nat := enc32 (.num false n 1)
def f32Finite (a : Nat) : Bool := (dec32 a).isFinite

/-- ⌊√n⌋, bit by bit from bit `k` down. -/
def isqrtAux (n : Nat) : Nat → Nat → Nat
  | 0, r => if (r + 1) * (r + 1) ≤ n then r + 1 else r
  | k + 1, r => isqrtAux n k (if (r + 2 ^ (k + 1)) * (r + 2 ^ (k + 1)) ≤ n then r + 2 ^ (k + 1) else r)

def isqrt (n : Nat) : Nat := isqrtAux n (n.log2 / 2) 0

/-- √(n / d) as a fraction with a sticky bit, close enough that rounding it to FP32 rounds the root correctly. -/
def sqrtFrac (n d : Nat) : Nat × Nat :=
  let k := 400
  let q := n * 2 ^ (2 * k) / d
  let r := isqrt q
  let exact := r * r = q ∧ n * 2 ^ (2 * k) % d = 0
  (2 * r + (if exact then 0 else 1), 2 ^ (k + 1))

def FVal.sqrt : FVal → FVal
  | .nan => .nan
  | .inf s => if s then .nan else .inf false
  | .num s n d => if n = 0 then .num s 0 1 else if s then .nan else let r := sqrtFrac n d; .num false r.1 r.2

/-- A correctly rounded square root (R305). -/
def fsqrt (a : Nat) : Nat := enc32 (dec32 a).sqrt

/-! ### Functions with a bound (R103, R310) -/

/-- Fixed point with 128 fraction bits. -/
def fixOne : Nat := 2 ^ 128
def fixLn2 : Nat := 235865763225513294137944142764154484399
def fixPi : Nat := 1069028584064966747859680373161870783300

/-- Σ rⁱ / i! for a fixed-point r of either sign, `k` terms. -/
def expSeries (r : Int) : Nat → Nat → Int → Int → Int
  | 0, _, _, sum => sum
  | k + 1, i, term, sum =>
    let t := term * r / (fixOne : Int) / ((i + 1 : Nat) : Int)
    expSeries r k (i + 1) t (sum + t)

/-- e^x for a finite x, as a fraction close to within 2⁻¹⁰⁰. -/
def expApprox (neg : Bool) (n d : Nat) : FVal :=
  if n > 400 * d then (if neg then FVal.pow2 false 1 (-700) else FVal.pow2 false 1 700)
  else
    let x : Int := if neg then -((n * fixOne / d : Nat) : Int) else ((n * fixOne / d : Nat) : Int)
    let k : Int := (2 * x + fixLn2) / (2 * (fixLn2 : Int))
    let r := x - k * fixLn2
    let m := (expSeries r 40 0 fixOne fixOne).toNat
    FVal.pow2 false m (k - 128)

/-- Σ y^(2i+1) / (2i+1) in fixed point. -/
def atanhSeries (y2 : Nat) : Nat → Nat → Nat → Nat → Nat
  | 0, _, _, sum => sum
  | k + 1, i, pw, sum => atanhSeries y2 k (i + 2) (pw * y2 / fixOne) (sum + pw / i)

/-- ln(n / d) in signed fixed point, for n, d > 0. -/
def lnFix (n d : Nat) : Int :=
  let e := FVal.floorLog2 n d
  let q := inUnits n d e
  let y := (q.1 - q.2) * fixOne / (q.1 + q.2)
  e * fixLn2 + 2 * (atanhSeries (y * y / fixOne) 64 1 y 0 : Nat)

def ofFix (i : Int) : FVal := FVal.pow2 (decide (i < 0)) i.natAbs (-128)

/-- Σ (−1)ⁱ z^(2i) / (2i)! (start 0) or z^(2i+1) / (2i+1)! (start 1), in fixed point. -/
def cosSeries (z2 : Int) : Nat → Nat → Int → Int → Int
  | 0, _, _, sum => sum
  | k + 1, i, term, sum =>
    let t := -(term * z2 / (fixOne : Int)) / (((i + 1) * (i + 2) : Nat) : Int)
    cosSeries z2 k (i + 2) t (sum + t)

/-- cos(πf) for 0 ≤ f = n / d ≤ 1. -/
def cospiApprox (n d : Nat) : FVal :=
  let g := n * fixOne / d
  let half := fixOne / 2
  let flip := decide (g > half)
  let h := if flip then fixOne - g else g
  if h > half / 2 then
    let z : Int := ((half - h) * fixPi / fixOne : Nat)
    let v := cosSeries (z * z / fixOne) 30 1 z z
    ofFix (if flip then -v else v)
  else
    let z : Int := (h * fixPi / fixOne : Nat)
    let v := cosSeries (z * z / fixOne) 30 0 fixOne fixOne
    ofFix (if flip then -v else v)

/-- One unit in the last place of FP32 at the magnitude n / d. -/
def ulp32 (n d : Nat) : FVal :=
  if n = 0 then FVal.pow2 false 1 (-149)
  else
    let e := FVal.floorLog2 n d
    FVal.pow2 false 1 ((if e < -126 then -126 else e) - 23)

/-- A free value taken when it lies within `k` units in the last place of the exact value, else the rounded exact value
(R103, R310): every result that the bound allows, and no other. -/
def within (k : Nat) (free : W32) (x : FVal) : Nat :=
  match x, dec32 free.toNat with
  | .num s n d, .num t m e =>
    let diff := FVal.abs (FVal.sub (.num s n d) (.num t m e))
    let lim := FVal.mul (.num false k 1) (ulp32 n d)
    if FVal.lt lim diff then enc32 x else free.toNat
  | _, _ => enc32 x

def recipVal : FVal → FVal
  | .num s n d => if n = 0 then .inf s else .num s d n
  | .inf s => .num s 0 1
  | .nan => .nan

def rsqrtVal : FVal → FVal
  | .num s n d => if n = 0 then .inf s else if s then .nan else let r := sqrtFrac d n; .num false r.1 r.2
  | .inf s => if s then .nan else .num false 0 1
  | .nan => .nan

def expVal : FVal → FVal
  | .num s n d => if n = 0 then FVal.one else expApprox s n d
  | .inf s => if s then FVal.zero else .inf false
  | .nan => .nan

def logVal : FVal → FVal
  | .num s n d => if n = 0 then .inf true else if s then .nan else if n = d then FVal.zero else ofFix (lnFix n d)
  | .inf s => if s then .nan else .inf false
  | .nan => .nan

def tanhVal : FVal → FVal
  | .num s n d =>
    if n = 0 then .num s 0 1
    else if n * 4096 < d then
      let x := FVal.num s n d
      let x3 := FVal.mul x (FVal.mul x x)
      FVal.add x (FVal.add (FVal.mul x3 (.num true 1 3)) (FVal.mul (FVal.mul x3 (FVal.mul x x)) (.num false 2 15)))
    else
      let e := expApprox true (2 * n) d
      FVal.mul (.num s 1 1) (FVal.div (FVal.sub FVal.one e) (FVal.add FVal.one e))
  | .inf s => .num s 1 1
  | .nan => .nan

def sigmoidVal : FVal → FVal
  | .num s n d => if n = 0 then .num false 1 2 else FVal.div FVal.one (FVal.add FVal.one (expApprox (!s) n d))
  | .inf s => if s then FVal.zero else FVal.one
  | .nan => .nan

/-- The exact values of the bounded vector functions (R103) by VOP code, and their bounds in units in the last place. -/
def vecExact (vop : Nat) (x : FVal) : FVal :=
  match vop with
  | 0x0A => recipVal x
  | 0x0B => rsqrtVal x
  | 0x0C => expVal x
  | 0x0D => logVal x
  | 0x0E => tanhVal x
  | _ => sigmoidVal x

def vecBound (vop : Nat) : Nat := if vop = 0x0A ∨ vop = 0x0B then 1 else 2

/-- A free value as a result: a NaN result is always the canonical NaN (R55). -/
def canon32 (w : W32) : Nat := if (dec32 w.toNat).isNan then 0x7FC00000 else w.toNat

/-- The spec states no result of the function there: it has no finite exact value (log 5). -/
def vecOpen (vop : Nat) : FVal → Bool
  | .nan => false
  | .inf _ => true
  | .num s n _ =>
    match vop with
    | 0x0A => n == 0
    | 0x0B => n == 0 || s
    | 0x0D => n == 0 || s
    | _ => false

/-- A bounded vector function (R103): a fixed function of its operand, within its bound wherever the exact value is
a number, and a free value elsewhere. A NaN operand gives the canonical NaN. -/
def vecBounded (vop : Nat) (w : Nat) : Nat :=
  let free := Config.vecFn vop (BitVec.ofNat 32 w)
  let x := dec32 w
  if x.isNan then 0x7FC00000
  else if vecOpen vop x then canon32 free
  else within (vecBound vop) free (vecExact vop x)

/-- cospi of R310: exact at 0, 0.5 and 1, else within 1 ulp; a NaN argument gives NaN. -/
def fcospi (w : Nat) : Nat :=
  match dec32 w with
  | .num _ n d =>
    if n = 0 then f32One else if 2 * n = d then 0 else if n = d then 0xBF800000
    else if n > d then canon32 (Config.cospi (BitVec.ofNat 32 w))
    else within 1 (Config.cospi (BitVec.ofNat 32 w)) (cospiApprox n d)
  | _ => 0x7FC00000

/-- pow of R310 within 2 ulp where the power of the reals exists: a positive base, a zero base with a positive exponent, a negative
base with an integer exponent. For no other operands is a result stated: a free value (log 5). The sign of a zero result is that of
the base where the exponent is odd. -/
def fpow (b x : Nat) : Nat :=
  let free := Config.pow (BitVec.ofNat 32 b) (BitVec.ofNat 32 x)
  match dec32 b, dec32 x with
  | .nan, _ => 0x7FC00000
  | _, .nan => 0x7FC00000
  | .num neg n d, .num s m e =>
    let odd := m % e = 0 ∧ m / e % 2 = 1
    if n = 0 then (if m = 0 ∨ s then canon32 free else if neg ∧ odd then 0x80000000 else 0)
    else if m = 0 then f32One
    else if neg ∧ m % e ≠ 0 then canon32 free
    else
      let v := expVal (FVal.mul (ofFix (lnFix n d)) (.num s m e))
      if neg ∧ odd then
        fneg (within 2 (free ^^^ 0x80000000) v)
      else within 2 free v
  | _, _ => canon32 free

end Sys2Proof.Machine
end

