-- ==== Sys2Proof/Machine/LineCode.lean ====
section
/-! DEFINITION. The Reed-Solomon code of a DRAM line: the field, the codeword, its place on the DRAM devices, and decoding
(R406 to R408, R412). -/

namespace Sys2Proof.Machine

/-! ### GF(2⁸) with x⁸ + x⁴ + x³ + x² + 1 -/

def gfDouble (a : Nat) : Nat := if a < 128 then 2 * a else Nat.xor (2 * a) 0x11D

def gfMul (a b : Nat) : Nat :=
  (List.range 8).foldr (fun i acc => if b.testBit i then Nat.xor (gfDouble acc) a else gfDouble acc) 0

def gfPow (a : Nat) : Nat → Nat
  | 0 => 1
  | n + 1 => gfMul a (gfPow a n)

def gfInv (a : Nat) : Nat := gfPow a 254

/-- α, a root of the field's polynomial. -/
def gfAlpha : Nat := 2

/-! ### The codeword -/

/-- g(x) = Π (x − α^i), coefficients from x^16 down. -/
def rsGenerator : List Nat :=
  (List.range 16).foldl (fun g i => List.zipWith Nat.xor (g ++ [0]) (0 :: g.map (gfMul (gfPow gfAlpha i)))) [1]

/-- The check symbols of 64 data symbols: the remainder of the data times x^16 by g. -/
def rsCheck (data : List Nat) : List Nat :=
  data.foldl (fun reg b =>
    let f := Nat.xor b (reg.headD 0)
    List.zipWith Nat.xor (reg.tail ++ [0]) (rsGenerator.tail.map (gfMul f))) (List.replicate 16 0)

/-- The codeword of a line: symbols 0 to 63 are its bytes, symbols 64 to 79 the check symbols. -/
def rsEncode (line : List Byte) : List Nat :=
  let data := line.map BitVec.toNat
  data ++ rsCheck data

/-- Symbol s lies in DRAM device s / 8. -/
def symbolsOf (device : Nat) : List Nat := (List.range 8).map (fun i => 8 * device + i)

/-- The 40 bits of a sub-channel on a beat of the burst: the pins of device d are bits 4d to 4d + 3. -/
def rsBeat (word : List Nat) (beat : Nat) : Nat :=
  (List.range 10).foldl (fun v d => v + word.getD (8 * d + beat / 2) 0 / 16 ^ (beat % 2) % 16 * 16 ^ d) 0

/-- The symbol, and the bit of it, that a device drives on a pin in a beat. -/
def symbolOfPin (device pin beat : Nat) : Nat × Nat := (8 * device + beat / 2, 4 * (beat % 2) + pin)

/-- What a poisoned line's check symbols are XORed with (R412). -/
def poisonWord : List Nat := List.replicate 64 0 ++ List.replicate 16 0x96

def xorWord (a b : List Nat) : List Nat := List.zipWith Nat.xor a b

/-! ### Decoding -/

/-- The syndromes of a received word. -/
def rsSyndromes (word : List Nat) : List Nat :=
  (List.range 16).map (fun j => word.foldl (fun acc s => Nat.xor (gfMul acc (gfPow gfAlpha j)) s) 0)

/-- The locator of symbol s, coefficient of x^(79 − s). -/
def rsLocator (s : Nat) : Nat := gfPow gfAlpha (79 - s)

/-- The magnitudes at the locators that have the given syndromes S_j = Σ m_i x_i^j, if there are any: the first locator is
eliminated from every two neighbouring syndromes. -/
def rsFit : List Nat → List Nat → Option (List Nat)
  | [], s => if s.all (· == 0) then some [] else none
  | x :: xs, s =>
    (rsFit xs (List.zipWith (fun a b => Nat.xor b (gfMul x a)) s s.tail)).map (fun ms =>
      let ms := List.zipWith (fun m y => gfMul m (gfInv (Nat.xor y x))) ms xs
      ms.foldl Nat.xor (s.headD 0) :: ms)

/-- The error word with the given values at the given symbols. -/
def errorWord (symbols values : List Nat) : List Nat :=
  (List.range 80).map (fun s => match (symbols.zip values).find? (fun p => p.1 == s) with | some p => p.2 | none => 0)

/-- The sets of symbols in which a correction may lie (R407): a device, or three symbols. -/
def rsPlaces : List (List Nat) :=
  (List.range 10).map symbolsOf
    ++ (List.range 80).flatMap (fun i => (List.range i).flatMap (fun j => (List.range j).map (fun k => [k, j, i])))

/-- The apparent error pattern that the decoder finds in a received word. -/
def rsLocate (word : List Nat) : Option (List Nat) :=
  let s := rsSyndromes word
  rsPlaces.findSome? (fun p => (rsFit (p.map rsLocator) s).map (errorWord p))

/-- The symbols in error. -/
def symbolsIn (e : List Nat) : List Nat := (List.range 80).filter (fun s => e.getD s 0 != 0)

/-- The device that all of the symbols lie in, or 15. -/
def deviceOf (l : List Nat) : Nat :=
  match l with
  | [] => 15
  | s :: rest => if rest.all (fun x => x / 8 == s / 8) then s / 8 else 15

/-- What the decoder makes of a line: in order; corrected to the given data, with the mark used or not, the device (15 for more
than one) and the symbols corrected; or beyond correction. -/
inductive Decoded where
  | clean
  | corrected (marked : Bool) (device count : Nat) (data : List Byte)
  | failed
  deriving DecidableEq, Repr

/-- The decoding of a stored line whose codeword has an error word added (R407, R408). An error of at most eight symbols is the
pattern that the decoder locates: the code's distance is 17. -/
def decodeLine (mark : Option Nat) (line : List Byte) (e : List Nat) : Decoded :=
  let l := symbolsIn e
  if l.isEmpty then .clean
  else
    match mark with
    | some m =>
      let out := l.filter (fun s => s / 8 != m)
      if out.length ≤ 3 then .corrected true (if out.isEmpty then m else 15) (8 + out.length) line else .failed
    | none =>
      if l.length ≤ 8 then (if deviceOf l ≠ 15 ∨ l.length ≤ 3 then .corrected false (deviceOf l) l.length line else .failed)
      else
        let word := xorWord (rsEncode line) e
        match rsLocate word with
        | none => .failed
        | some p => .corrected false (deviceOf (symbolsIn p)) (symbolsIn p).length (((xorWord word p).take 64).map (BitVec.ofNat 8))

end Sys2Proof.Machine
end

