-- ==== Sys2Proof/Machine/KV.lean ====
section
/-! DEFINITION. Lists of key and value pairs in rising order of key, the form in which the state holds sparse data. -/

namespace Sys2Proof.Machine.KV

variable {α : Type}

/-- The value under a key, or the default. -/
def get (d : α) : List (Nat × α) → Nat → α
  | [], _ => d
  | (k', v) :: l, k => if k' = k then v else get d l k

/-- The value under a key, if listed. -/
def find? : List (Nat × α) → Nat → Option α
  | [], _ => none
  | (k', v) :: l, k => if k' = k then some v else find? l k

/-- The list with the value under the key replaced or inserted in order. -/
def set : List (Nat × α) → Nat → α → List (Nat × α)
  | [], k, v => [(k, v)]
  | (k', v') :: l, k, v =>
    if k < k' then (k, v) :: (k', v') :: l
    else if k = k' then (k, v) :: l
    else (k', v') :: set l k v

/-- The list without the key. -/
def erase : List (Nat × α) → Nat → List (Nat × α)
  | [], _ => []
  | (k', v') :: l, k => if k = k' then erase l k else (k', v') :: erase l k

/-- The keys rise strictly. -/
def sorted : List (Nat × α) → Bool
  | [] => true
  | [_] => true
  | (k, _) :: (k', v') :: l => k < k' && sorted ((k', v') :: l)

end Sys2Proof.Machine.KV
end

