-- ==== Sys2Proof/Machine/State.lean ====
section
/-! DEFINITION. The state of the block as plain data: everything the spec gives the machine, the outcomes
that stop it, and the state after reset. -/

namespace Sys2Proof.Machine

/-- Why the machine stops with a fault. -/
inductive Fault where
  /-- Raised by SYS_REFCLK_LOSS: R580 calls the device's behaviour undefined from then on, and gives no effect. Safe. -/
  | refclkUndefined
  deriving DecidableEq, Repr

/-- Why a command is refused. -/
inductive Refusal where
  /-- Raised only by an arm of `exec` that has no meaning yet. Safe. -/
  | notModelled (mnemonic : String)
  deriving DecidableEq, Repr

/-! ### Tasks, contexts and the fetch engine (R210 to R234, R243 to R269) -/

/-- A 64-byte Shuot-2 descriptor as eight words (R252). -/
structure Desc where
  w0 : W64
  w1 : W64
  w2 : W64
  w3 : W64
  w4 : W64
  w5 : W64
  w6 : W64
  w7 : W64
  deriving DecidableEq, Repr

/-- Task states of R264; FREE is the absence of a context record. -/
inductive CtxState where
  | held | ready | running | waiting | suspended | retiring
  deriving DecidableEq, Repr

/-- What a task in WAITING waits for (R264). -/
inductive WaitFor where
  | none | descriptor | condition | fence | specSlot | collective | remote | backPressure
  deriving DecidableEq, Repr

/-- A region of a task with its run-ahead cursor, and the line at which a drop stopped it (R210 to R212). -/
structure Region where
  base     : Nat
  extent   : Nat
  raDist   : Nat
  dir      : Nat
  cursor   : Option Nat
  lastLine : Option Nat
  descends : Bool
  stop     : Option Nat
  deriving DecidableEq, Repr

/-- A shadow line of a speculative task: the destination line and its 64 bytes (R226). -/
structure ShadowLine where
  line : Nat
  data : List Byte
  deriving DecidableEq, Repr

/-- States of R233. -/
inductive SpecState where
  | running | deciding | writing | committed | discarded
  deriving DecidableEq, Repr

/-- A memory operation that waits because the shadow area is full (R228): bytes of a line, a far-store atomic, or a write to the
register window. -/
inductive PendOp where
  | line (pa : Nat) (mask : List (Option Byte))
  | atomic (op pa : Nat) (value : W64)
  | window (off : Nat) (w : Wr)
  deriving DecidableEq, Repr

/-- What a speculative task keeps (R225 to R231). `atCommand` is true when the task decides at SPEC_COMMIT
and false when it decides because the shadow area is full; `excess` holds the operations that wait there from the first write
that found no room on, and `late` the status and event with which the waiting command ends after them (R228). -/
structure Spec where
  decision  : Nat
  gens      : List Nat
  readSet   : List Nat
  shadow    : List ShadowLine
  excess    : List PendOp
  late      : Option (Nat × W64)
  heldActs  : List Desc
  state     : SpecState
  atCommand : Bool
  deriving DecidableEq, Repr

/-- A deadline: its position and policy, and whether a boundary has reached it (R282 to R285). -/
structure Deadline where
  frame : Nat
  line  : Nat
  abort : Bool
  seen  : Bool
  deriving DecidableEq, Repr

/-! ### Operands of commands in progress (R112 to R118, R157 to R171, R339) -/

/-- A steering state as a command reads it (R112, R113). -/
structure Steer where
  va       : Nat
  tid      : Nat
  role     : Nat
  nblk     : Nat
  layer    : Nat
  epoch    : Nat
  scaleFmt : Nat
  ncols    : Nat
  deriving DecidableEq, Repr

/-- The envelope of a layer (R126, R127). -/
structure Envelope where
  cls     : Nat
  family  : Nat
  wMin    : Nat
  wMax    : Nat
  aMin    : Nat
  aMax    : Nat
  hyst    : Nat
  tSatHi  : Nat
  tSatLo  : Nat
  tUfHi   : Nat
  tUfLo   : Nat
  tErrHi  : Nat
  tErrLo  : Nat
  deriving DecidableEq, Repr

/-- LAYOUT of a tensor descriptor (R157). -/
inductive Layout where
  | linear | blocked | act | wt
  deriving DecidableEq, Repr

/-- A dimension with its extents on this device (R158, R160, R169). -/
structure Dim where
  stride : Nat
  g      : Nat
  padLo  : Nat
  padHi  : Nat
  shards : Nat
  shard  : Nat
  deriving DecidableEq, Repr

/-- A tensor as its descriptor gives it (R157 to R171). -/
structure Tensor where
  va        : Nat
  base      : Nat
  fmt       : Nat
  layout    : Layout
  padWrite  : Bool
  scaleBase : Nat
  scaleKind : Nat
  scaleLog2 : Nat
  scaleDim  : Nat
  steer     : Option (Steer × Envelope)
  slotLog2  : Nat
  stats     : Nat
  tid       : Nat
  padMode   : Nat
  padVal    : Nat
  pack      : Nat
  group     : Nat
  dims      : List Dim
  deriving DecidableEq, Repr

/-- Statistics of one record or block (R118), with the format of the last element and of the first one whose NaN met a format
without a NaN encoding (R66). -/
structure BlockAcc where
  elems  : Nat
  zero   : Nat
  uf     : Nat
  sat    : Nat
  nonfin : Nat
  err    : Nat
  tdrx   : Nat
  absmax : Nat
  hist   : List (Nat × Nat)
  nanOut : Option Nat
  fmt    : Nat
  deriving DecidableEq, Repr

/-- What a command's conversions have given the tally unit so far: the whole tensor, its steered blocks, and the
tensor-watch contribution (R117, R122, R553). -/
structure Tally where
  whole  : BlockAcc
  blocks : List (Nat × BlockAcc)
  digest : W64
  seen   : Nat
  deriving DecidableEq, Repr

/-- The operands of a TABLE (R339). -/
structure TableArgs where
  wFmt     : Nat
  aFmt     : Nat
  outFmt   : Nat
  outRnd   : Nat
  ascaleEn : Bool
  biasEn   : Bool
  src      : Tensor
  dst      : Tensor
  tab      : Nat
  chtab    : Nat
  ascale   : Nat
  spilled  : Bool
  deriving DecidableEq, Repr

/-- A TABLE in progress: its operands, the tiles written so far, and the statistics of their conversions (R342, R352). -/
structure TableRun where
  args  : TableArgs
  next  : Nat
  tally : Tally
  deriving DecidableEq, Repr

/-! ### Contexts and queues -/

/-- A task context that is not FREE. `table` is its TABLE whose last tiles are yet to come; `arrays` is the mask of the arrays
that its STREAM or TILE_LOAD takes (R109); `frameAt` is the frame current when its command was validated (R283); `onVec` tells
that its command is a UPD DROPOUT, which runs on the vector unit (R329); `aborting` tells that a deadline with POLICY ABORT has been reached, and
`aborted` that the task ended by it (R284, R285). -/
structure Ctx where
  queue    : Nat
  tseq     : Nat
  first    : Nat
  seq      : Nat
  state    : CtxState
  waitFor  : WaitFor
  cur      : Desc
  status   : Nat
  tag      : Nat
  event    : W64
  order    : Nat
  bound    : Option Nat
  release  : Option Nat
  deadline : Option Deadline
  regions  : List Region
  spec     : Option Spec
  specOut  : Nat
  reason   : Nat
  aborting : Bool
  aborted  : Bool
  opDone   : Bool
  table    : Option TableRun
  arrays   : Nat
  frameAt  : Nat
  onVec    : Bool
  deriving DecidableEq, Repr

/-- What the dispatcher keeps for a queue beside the queue-table entry in memory (R244 to R249, R282): the first
descriptor of the last task started or, with `scan` false, of the next task; the accepted tails with the order in which
their doorbells came; the released tasks not yet started with their bound frames and whether their deadline has been reached, and where the next unreleased task
begins (with `relScan` after the END of the task that begins there); and the descriptors of retired tasks that HEAD has
not passed. -/
structure QState where
  enabled   : Bool
  disabling : Bool
  next      : Nat
  scan      : Bool
  doorbells : List (Nat × Nat)
  released  : List (Nat × (Nat × Bool))
  relNext   : Nat
  relScan   : Bool
  freed     : List (Nat × Nat)
  deriving DecidableEq, Repr

/-- A copy in the run-ahead buffer, or with `flight` a read of one that is still in flight (R213, R214). -/
structure RaCopy where
  ctx    : Nat
  line   : Nat
  used   : Bool
  flight : Bool
  data   : List Byte
  deriving DecidableEq, Repr

/-! ### Arrays (R77, R96, R105 to R107) -/

/-- A weight buffer of an array: its tag, whether it holds the tile's sign-and-exponent plane, and the tile bytes that were
loaded (offsets within the array's part of the tile; the plane from offset 32768 on). Bytes that are zero are not listed. -/
structure Tile where
  valid : Bool
  addr  : Nat
  plane : Bool
  cells : List Host.Cell
  deriving DecidableEq, Repr

structure ArrayBuf where
  cur : Tile
  shd : Tile
  deriving DecidableEq, Repr

/-- The clock state of a core's arrays, which ramp together (R105, R106). -/
inductive RampState where
  | gated | waitingSlot | rampUp | clocked | rampDown
  deriving DecidableEq, Repr

/-! ### Governor (R129 to R143) -/

/-- A governor beside its registers; `stalled` tells that an access of it never completes (R421). -/
structure Gov where
  busy    : Bool
  held    : Bool
  idx     : Nat
  waitRec : List W64
  ended   : Bool
  epochs  : Nat
  stalled : Bool
  deriving DecidableEq, Repr

/-- Everything of a core that is not a register page. `idle` counts the cycles that its clocked arrays have had no work (R105). -/
structure Core where
  ctxs      : List (Nat × Ctx)
  ra        : List RaCopy
  arrays    : List ArrayBuf
  ramp      : RampState
  rampLeft  : Nat
  gov       : Gov
  dutyPwr   : Nat
  ccpRun    : Bool
  secureRan : Bool
  dspFinit  : Bool
  dbClock   : Nat
  idle      : Nat
  deriving DecidableEq, Repr

/-! ### Update engines (R291 to R321) -/

/-- An arrival (R299); `who` is the core and context whose command still waits for it. -/
structure Arrival where
  slice : Nat
  step  : Nat
  who   : Option (Nat × Nat)
  deriving DecidableEq, Repr

/-- The update whose copy writes are done and whose commit is due: its slice, its arrival step, and whether it takes new
roots (R307, R312). -/
structure Update where
  slice    : Nat
  step     : Nat
  newRoots : Bool
  deriving DecidableEq, Repr

/-- A root job: of a committed step (R307), or with `now` of R308; it reads factor copy `copy`. -/
structure RootJob where
  slice : Nat
  step  : Nat
  copy  : Nat
  now   : Bool
  deriving DecidableEq, Repr

/-- An update engine: the arrival queue; head and count of the spill ring; the update and the root jobs in progress;
for slices with roots not yet taken, the step they come from and whether they are computed; whether the next enable
scans; whether a verified image is installed (R491); and the arrivals that wait for the scan or for room. -/
structure Upd where
  arrivals   : List Arrival
  spillHead  : Nat
  spillCount : Nat
  current    : Option Update
  rootQueue  : List RootJob
  rootRun    : Option RootJob
  newRoots   : List (Nat × (Nat × Bool))
  needScan   : Bool
  loaded     : Bool
  waiting    : List Arrival
  deriving DecidableEq, Repr

/-! ### Fabric (R356 to R390) -/

/-- A DATA frame of this device that is not yet acknowledged, with its message's place in the round-robin of ports (R364), its
transmissions so far, the frames of its message, the task that it belongs to, and whether its peer became absent while it was
open (R371, R373). -/
structure TxFrame where
  frame  : Frame
  lane   : Nat
  count  : Nat
  frames : Nat
  core   : Nat
  ctx    : Nat
  dead   : Bool
  deriving DecidableEq, Repr

/-- Pacing toward a destination, rates in units of 1/256 of 100 Mb/s (R376). -/
structure Pace where
  rate  : Nat
  clean : Nat
  marks : Nat
  acked : Nat
  deriving DecidableEq, Repr

/-- What the device keeps for a peer: the PSN of the next DATA frame and the next message to it; its place in the round-robin of
ports (R364); the lowest PSN from it not yet accepted and the later ones that are; frames accepted and CE marks since the last
ACK; credit units to return by channel; and the pacing toward it once something was sent (R368 to R376). -/
structure Peer where
  absent : Bool
  txPsn  : Nat
  txMsg  : Nat
  lane   : Nat
  rxNext : Nat
  rxSet  : List Nat
  toAck  : Nat
  marks  : Nat
  due    : List (Nat × Nat)
  pace   : Option Pace
  deriving DecidableEq, Repr

/-- A route table entry (R363). -/
structure Route where
  dmac  : Nat
  ports : Nat
  valid : Bool
  udp   : Bool
  dip0  : W64
  dip1  : W64
  deriving DecidableEq, Repr

/-- The fields of a COLL extension (R378). -/
structure CollArgs where
  op      : Nat
  sched   : Nat
  fmt     : Nat
  acc     : Bool
  updEn   : Bool
  updHalf : Nat
  wrap    : Bool
  mesh    : Nat
  axes    : Nat
  axisX   : Nat
  axisY   : Nat
  collId  : Nat
  src     : Nat
  dst     : Nat
  count   : Nat
  root    : Nat
  chan    : Nat
  slice   : Nat
  deriving DecidableEq, Repr

/-- A collective issued to an interface (R378 to R389): its group's device IDs by rank and this member's rank; size and
rank stride of AXIS_X and AXIS_Y; the frames of the pages it holds translated; partial sums by block with the tree
levels added; the bytes received by phase, step and block; the blocks still to be received; the record of poisoned
source data; and whether an access of it never completes (R418, R421). -/
structure Coll where
  core    : Nat
  ctx     : Nat
  args    : CollArgs
  members : List Nat
  rank    : Nat
  nx      : Nat
  sx      : Nat
  ny      : Nat
  sy      : Nat
  base    : Nat
  maps    : List (Nat × Nat)
  part    : List (Nat × (Nat × List Byte))
  inbox   : List (Nat × List (Option Byte))
  need    : Nat
  bad     : Option W64
  stuck   : Bool
  deriving DecidableEq, Repr

/-- A network interface: frames not yet sent, frames not yet acknowledged, collectives begun and waiting, identifiers of
collectives that ended early, the ingress buffer, frames other than DATA that wait for a port (R364), and cached route entries. -/
structure Ni where
  txq     : List TxFrame
  unacked : List TxFrame
  colls   : List Coll
  waiting : List Coll
  ended   : List Nat
  ingress : List Frame
  ctl     : List Frame
  routes  : List (Nat × Route)
  deriving DecidableEq, Repr

/-- A fabric port beside its registers (R358, R372, R459): the place in the list of widths, failed attempts there, the
last width that came up, and link-level retry: frames sent with their LSEQ, the bytes of frames discarded since the gap that the
receiver waits at, and what the partner's HELLO told. -/
structure Port where
  attempt  : Nat
  fails    : Nat
  width    : Nat
  replay   : List (Nat × Packet)
  txLseq   : Nat
  rxLseq   : Nat
  awaiting : Bool
  skipped  : Nat
  peerMode : Option Nat
  peerLlr  : Bool
  peerDev  : Option Nat
  deriving DecidableEq, Repr

/-! ### Memory channels and far stores (R197 to R201, R394 to R424) -/

/-- What the DRAM devices store of a line that a far store holds dirty: its bytes, whether it is stored poisoned, and
whether nothing has written it since full training (R197, R405, R412). -/
structure DramLine where
  data   : List Byte
  poison : Bool
  blank  : Bool
  deriving DecidableEq, Repr

/-- A line held by a far store's cache part; the list that holds it is in order of use, latest first. -/
structure FarLine where
  line   : Nat
  dirty  : Bool
  pinned : Bool
  deriving DecidableEq, Repr

/-- A half beside its registers: its far store's lines, the interleave under which its DRAM was last brought up, the growth
counts of its carve-out's steps, the dirty lines that a flush in progress has yet to write back, whether its far store has stopped or the half is isolated, the cores whose arrays wait for a ramp
slot and the cycles since the last ramp started (at most 256, R107), the throttle step with the samples since a fall was due, and the boundaries its follower has taken and has yet to
take. -/
structure Half where
  lines     : List FarLine
  ilv       : Bool
  carveGen  : List Nat
  flush     : List Nat
  stopped   : Bool
  isolated  : Bool
  rampQueue : List Nat
  rampGap   : Nat
  coolTicks : Nat
  therm     : Nat
  schFrame  : Nat
  schLine   : Nat
  schQueue  : List (Nat × Nat)
  deriving DecidableEq, Repr

/-- A memory channel beside its registers: whether lines that nothing has written since full training read as MEM_UE (R405)
and the lines written since; by channel line, the error words that lie on stored codewords (R406, the model's own field, log 93); the device, rank and sub-channel of the last correction in one device (R409); whether a read
found it offline (R423); CA retries in a row; and the kind of its training in progress. -/
structure Channel where
  blank    : Bool
  written  : List Nat
  faults   : List (Nat × List Nat)
  lastCe   : Option (Nat × Nat × Nat)
  ueSeen   : Bool
  retries  : Nat
  restore  : Bool
  zero     : Bool
  deriving DecidableEq, Repr

/-- A direction of the drawbar: the next flit to be delivered, and the failures of that flit in a row (R420, R421). -/
structure Flits where
  expect : Nat
  fails  : Nat
  deriving DecidableEq, Repr

/-! ### Frame time (R270 to R286) -/

/-- An open CHECKPOINT or PREEMPT window (R281). -/
structure Window where
  checkpoint : Bool
  cores      : Nat
  endFrame   : Nat
  endLine    : Nat
  deriving DecidableEq, Repr

/-- The frame-time scheduler beside its registers: the fraction of station time, TCLK cycles toward the next ACLK-to-TCLK
ratio, the sources lost, FRAME_IN edges accepted with the last one's time and the period, edges missed in a row, open
windows, the last PPS_IN edge, the presence of REF_IN, the last PTP timestamp, and whether a frame's nominal end has passed. -/
structure Fts where
  frac      : Nat
  tclk      : Nat
  lost      : List Nat
  edges     : Nat
  lastEdge  : Nat
  period    : Nat
  missed    : Nat
  windows   : List Window
  ppsNs     : Nat
  refOk     : Bool
  ptpStamp  : Nat
  frameEnd  : Bool
  deriving DecidableEq, Repr

/-! ### System die: registry, services, security (R324, R449 to R461, R484 to R508) -/

/-- An entry of the key registry (R324). -/
structure KeyEntry where
  k0     : W32
  k1     : W32
  k2     : W32
  k3     : W32
  stream : Nat
  use1   : Bool
  owner  : Nat
  deriving DecidableEq, Repr

/-- An open ingest request: its words, where it came from, and whether a decode engine runs it (R455). -/
structure IngestReq where
  words : List W64
  via   : Via
  run   : Bool
  deriving DecidableEq, Repr

/-- A checkpoint in progress: its words, where it came from, and whether its NVMe writes have been allowed to begin (R456). -/
structure CkptReq where
  words  : List W64
  via    : Via
  begun  : Bool
  deriving DecidableEq, Repr

/-- An installed image (R485 to R487). -/
structure Image where
  svn     : Nat
  version : W64
  digest  : List Byte
  deriving DecidableEq, Repr

/-- The security fuses (R484), and the subsystem ID that board configuration fuses hold (R434). -/
structure Fuses where
  uds       : List Byte
  serial    : W64
  rootHash  : List (List Byte)
  revoke    : Nat
  arb       : Nat
  dbgHash   : List Byte
  ownerDbg  : List Byte
  ownerRoot : List Byte
  subsys    : W32
  deriving DecidableEq, Repr

/-- An alias certificate (R495): serial number, validity, public key, and the signature by the DeviceID key. -/
structure AliasCert where
  serial    : List Byte
  notBefore : String
  notAfter  : String
  key       : List Byte
  signature : List Byte
  deriving DecidableEq, Repr

/-- The security block beside its registers: DRBG draws so far; the running system-die image and those installed per core
and per engine (R487, R491); SPDM connections with their progress, open sessions, and key exchanges not finished with whether
the requester's root is the owner's (R498, R500); whether secure queues receive contexts and whether the DeviceID key is
withheld (R504); whether the block serves requests (R489); the worlds of the control cores (R429); whether slot 0 holds
its chain (R496); and the DeviceID private key, the alias private key and the alias certificate of this boot (R494, R495). -/
structure Sec where
  drbgCount : Nat
  sysImage  : Option Image
  ccpImages : List (Nat × Image)
  updImages : List (Nat × Image)
  conns     : List (Transport × Nat)
  sessions  : List (Transport × Nat)
  pendingKx : List (Transport × Nat × Bool)
  secureQ   : Bool
  withheld  : Bool
  booted    : Bool
  worlds    : Nat
  slot0     : Bool
  deviceKey : Option Nat
  aliasKey  : Option Nat
  aliasCert : Option AliasCert
  deriving DecidableEq, Repr

/-- What the services hold (R449 to R461): open ingests in order of arrival, each with its slot; the checkpoint in progress;
replies held until their channel is free, by channel; whether telemetry is enabled; requests that came in datagrams; and the
kind of the next host-memory access that the host link fails (true a posted write). -/
structure Services where
  ingests   : List (Nat × IngestReq)
  ckpt      : Option CkptReq
  heldOut   : List (Nat × List (List W64))
  telemetry : Bool
  mgmtReq   : List (List W64)
  dmaFail   : Option Bool
  deriving DecidableEq, Repr

/-! ### Trace, eclipse, JTAG (R542 to R562) -/

/-- A trace record as four words (R543). -/
structure TraceRec where
  ts : W64
  w1 : W64
  p0 : W64
  p1 : W64
  deriving DecidableEq, Repr

structure Ring where
  buf     : List TraceRec
  dropped : Nat
  firstTs : W64
  lastTs  : W64
  deriving DecidableEq, Repr

/-- The trace rings of the two halves, and the stamp of the last eclipse (R543 to R547, R554). -/
structure Trc where
  rings   : List Ring
  ts      : W64
  deriving DecidableEq, Repr

/-- The TAP (R559 to R562): the instruction in force, the data that the last data shift took out, the wrapper
selected with its instruction, and the units whose state a wrapper instruction left undefined. -/
structure Tap where
  ir      : Nat
  capture : List W64
  wrapper : Nat
  wir     : List (Nat × Nat)
  undef   : List Nat
  scanPos : Nat
  deriving DecidableEq, Repr

/-! ### Power and reset (R509 to R535) -/

/-- Where the always-on controller stands in a power sequence (R511, R513). -/
inductive Seq where
  | idle
  | waitGood (group : Nat)
  | waitNext (group : Nat)
  | down
  deriving DecidableEq, Repr

/-- The always-on controller beside its registers: PWR_GOOD_AUX, the enables and good inputs of the groups SYS, HALF A,
HALF B and MEM, the sequence in progress, whether the device is held in reset, the reset inputs that are low and a hot reset
in progress, THERM_TRIP_N, the sensors that read 110 °C or more at the last sample, and the set voltages of VDD_A and VDD_B. -/
structure Power where
  aux      : Bool
  enable   : List Bool
  good     : List Bool
  seq      : Seq
  inReset  : Bool
  rstLow   : Bool
  perstLow : Bool
  hotReset : Bool
  tripLow  : Bool
  hot      : List Nat
  mvA      : Nat
  mvB      : Nat
  deriving DecidableEq, Repr

/-! ### Outputs of a step -/

/-- What the device drives at its interfaces. -/
inductive Out where
  | msix (vector : Nat)
  | agentIrq (agent : Agent)
  | blockIrq (page : Nat)
  | frame (port : Nat) (p : Packet)
  | word (value : W64)
  /-- A completion to the host, with the EP bit of poisoned data (R413). -/
  | bytes (data : List Byte) (ep : Bool)
  | abort
  | pin (name : String) (level : Bool)
  | avs (half millivolts : Nat)
  | datagram (words : List W64)
  | spdm (ok : Bool) (code : Nat)
  deriving DecidableEq, Repr

/-- A translation that an engine's TLB may still hold (R207): the frame number of the 64 KiB page, and its permissions. -/
structure TlbEntry where
  frame  : Nat
  read   : Bool
  write  : Bool
  secure : Bool
  deriving DecidableEq, Repr

/-- A write that a task or a debug access makes to the register window, not yet performed. -/
structure BusWrite where
  offset : Nat
  wr     : Wr
  deriving DecidableEq, Repr

/-- The machine but for its command queue and its security fuses. `cap` is the fused SYS_CAP (R478). `regs` holds each register word that differs from its reset value under its offset in
the register window; `mem` holds every byte of the physical map that differs from what it reads unlisted;
`dram` holds what the DRAM devices store of the lines that a far store holds dirty; `poison` lists poisoned
64-byte lines and 512-bit SRAM words, by physical line number; `ptSeen` holds, by 64 KiB virtual page, the address and
value of every table entry that walks have read since the page was last invalidated (R207); `steers` holds, by tensor identifier, the
address of the steering state that a command's descriptor last named (R154, the model's own field, log 27); `lagB` tells that half B's edges lag half A's, as the last start
event fixed it (R39); `free` counts the free values
taken so far (the model's own field, no part of the spec). -/
structure Dev where
  out      : List Out
  bus      : List BusWrite
  cap      : W64
  regs     : List (Nat × W64)
  mem      : List Host.Cell
  dram     : List (Nat × DramLine)
  poison   : List Nat
  drives   : List Host.Cell
  flash    : List Host.Cell
  cores    : List (Nat × Core)
  queues   : List (Nat × QState)
  upds     : List (Nat × Upd)
  nis      : List (Nat × Ni)
  peers    : List (Nat × Peer)
  credit   : List (Nat × Nat)
  ports    : List (Nat × Port)
  halves   : List (Nat × Half)
  channels : List (Nat × Channel)
  flits    : List (Nat × Flits)
  tlbs     : List (Nat × TlbEntry)
  ptSeen   : List (Nat × List (Nat × W64))
  fts      : Fts
  keys     : List (Nat × KeyEntry)
  steers   : List (Nat × Nat)
  sec      : Sec
  svc      : Services
  trc      : Trc
  tap      : Tap
  power    : Power
  aclkA    : W64
  aclkB    : W64
  lagB     : Bool
  free     : Nat
  deriving DecidableEq, Repr

/-- The whole machine: the commands that wait, first in first out; the security fuses (R484); and all the rest. -/
structure State where
  pending : List Instr
  fuses   : Fuses
  dev     : Dev
  deriving DecidableEq, Repr

/-! ### Reset values of the parts (R15, R518) -/

def Tile.empty : Tile := { valid := false, addr := 0, plane := false, cells := [] }

def ArrayBuf.empty : ArrayBuf := { cur := Tile.empty, shd := Tile.empty }

def Gov.reset : Gov :=
  { busy := false, held := false, idx := 0, waitRec := [], ended := false, epochs := 0, stalled := false }

/-- A core after a device reset. Its power duty is 64 (R534). -/
def Core.reset : Core :=
  { ctxs := [], ra := [], arrays := List.replicate 4 ArrayBuf.empty, ramp := .gated, rampLeft := 0,
    gov := Gov.reset, dutyPwr := 64, ccpRun := false, secureRan := false, dspFinit := false, dbClock := 0,
    idle := 0 }

/-- An update engine after a device reset: the next enable scans (R317). -/
def Upd.reset : Upd :=
  { arrivals := [], spillHead := 0, spillCount := 0, current := none, rootQueue := [], rootRun := none,
    newRoots := [], needScan := true, loaded := false, waiting := [] }

def Peer.reset : Peer :=
  { absent := false, txPsn := 0, txMsg := 0, lane := 0, rxNext := 0, rxSet := [], toAck := 0, marks := 0, due := [], pace := none }

def Ni.reset : Ni :=
  { txq := [], unacked := [], colls := [], waiting := [], ended := [], ingress := [], ctl := [], routes := [] }

def Port.reset : Port :=
  { attempt := 0, fails := 0, width := 0, replay := [], txLseq := 0, rxLseq := 0, awaiting := false,
    skipped := 0, peerMode := none, peerLlr := false, peerDev := none }

def Half.reset : Half :=
  { lines := [], ilv := false, carveGen := List.replicate 16 0, flush := [], stopped := false, isolated := false, rampQueue := [],
    rampGap := 256, coolTicks := 0, therm := 0, schFrame := 0, schLine := 0, schQueue := [] }

def Channel.reset : Channel :=
  { blank := false, written := [], faults := [], lastCe := none, ueSeen := false, retries := 0, restore := false, zero := false }

def Fts.reset : Fts :=
  { frac := 0, tclk := 0, lost := [], edges := 0, lastEdge := 0, period := 0, missed := 0, windows := [], ppsNs := 0, refOk := false, ptpStamp := 0, frameEnd := false }

/-- DESIGN CHOICE (log 4): secrets and hashes all zero, nothing blown. -/
def Fuses.standard : Fuses :=
  { uds := List.replicate 32 0, serial := 0,
    rootHash := List.replicate 4 (List.replicate 64 0), revoke := 0, arb := 0,
    dbgHash := List.replicate 64 0, ownerDbg := List.replicate 64 0, ownerRoot := List.replicate 64 0,
    subsys := 0 }

def Sec.reset : Sec :=
  { drbgCount := 0, sysImage := none, ccpImages := [], updImages := [], conns := [], sessions := [], pendingKx := [],
    secureQ := true, withheld := false, booted := false, worlds := 0, slot0 := false, deviceKey := none, aliasKey := none, aliasCert := none }

def Services.reset : Services :=
  { ingests := [], ckpt := none, heldOut := [], telemetry := false, mgmtReq := [], dmaFail := none }

def Ring.reset : Ring := { buf := [], dropped := 0, firstTs := 0, lastTs := 0 }

def Trc.reset : Trc := { rings := [Ring.reset, Ring.reset], ts := 0 }

/-- IDCODE is selected at Test-Logic-Reset (R559). -/
def Tap.reset : Tap :=
  { ir := 0x02, capture := [], wrapper := 0, wir := [], undef := [], scanPos := 0 }

/-- Every rail group on and good, both reset inputs high (log 2): groups 0 SYS, 1 HALF A, 2 HALF B, 3 MEM. -/
def Power.reset : Power :=
  { aux := true, enable := List.replicate 4 true, good := List.replicate 4 true, seq := .idle, inReset := false,
    rstLow := false, perstLow := false, hotReset := false, tripLow := false, hot := [], mvA := 750, mvB := 750 }

/-- Everything but the queue and the fuses right after the first reset release: registers at their reset values, memory
with nothing listed, both halves held in reset (R515), no DRAM trained, no queue enabled. DESIGN CHOICE (log 4): the
device is a KX2-1650-S. -/
def Dev.reset : Dev :=
  { out := [], bus := [], cap := 0x00FFFFFFFFFFFF06, regs := [], mem := [], dram := [], poison := [], drives := [], flash := [],
    cores := [], queues := [], upds := [], nis := [], peers := [], credit := [], ports := [], halves := [], channels := [], flits := [], tlbs := [], ptSeen := [],
    fts := Fts.reset, keys := [], steers := [], sec := Sec.reset, svc := Services.reset,
    trc := Trc.reset, tap := Tap.reset, power := Power.reset, aclkA := 0, aclkB := 0,
    lagB := false, free := 0 }

/-- The machine right after the first reset release. -/
def State.reset : State := { pending := [], fuses := Fuses.standard, dev := Dev.reset }

end Sys2Proof.Machine
end

