-- ==== Sys2Proof/Machine/RegMap.lean ====
section
/-! DEFINITION. The register map: pages (R33, R475), and for every register word its offset, reset value, writable bits and
who may write them (R15, R465, and the register table of each chapter). -/

namespace Sys2Proof.Machine

/-- The blocks that own pages (R475). -/
inductive Blk where
  | sys | fts | sec | mbx | sch | upd | pci | uci | dbw | trc | pmu | thm
  | core | dsp | fet | arr | tdr | tbl | tly | gov | vec | fab | mem
  deriving DecidableEq, Repr

/-- TYPE of R475. -/
def Blk.type : Blk → Nat
  | .sys => 0x01 | .fts => 0x02 | .sec => 0x03 | .mbx => 0x04 | .sch => 0x05 | .upd => 0x06
  | .pci => 0x07 | .uci => 0x08 | .dbw => 0x09 | .trc => 0x0A | .pmu => 0x0B | .thm => 0x0C
  | .core => 0x10 | .dsp => 0x11 | .fet => 0x12 | .arr => 0x13 | .tdr => 0x14 | .tbl => 0x15
  | .tly => 0x16 | .gov => 0x17 | .vec => 0x18 | .fab => 0x20 | .mem => 0x21

/-- The page index of a block's instance (R475). -/
def Blk.page (b : Blk) (i : Nat) : Nat :=
  match b with
  | .sys => 0x0000 | .fts => 0x0001 | .sec => 0x0002 | .mbx => 0x0003 + i
  | .upd => 0x0100 + 0x80 * i | .sch => 0x0101 + 0x80 * i
  | .pci => 0x0006 | .uci => 0x0007 + i | .dbw => 0x0009 | .trc => 0x000A | .pmu => 0x000B | .thm => 0x000C
  | .core => 0x0200 + 0x100 * i | .dsp => 0x0201 + 0x100 * i | .fet => 0x0202 + 0x100 * i
  | .arr => 0x0203 + 0x100 * i | .tdr => 0x0204 + 0x100 * i | .tbl => 0x0205 + 0x100 * i
  | .tly => 0x0206 + 0x100 * i | .gov => 0x0207 + 0x100 * i | .vec => 0x0208 + 0x100 * i
  | .fab => 0x0A00 + 0x10 * i | .mem => 0x0B00 + 0x10 * i

def coreBlk (k : Nat) : Option Blk :=
  match k with
  | 0 => some .core | 1 => some .dsp | 2 => some .fet | 3 => some .arr | 4 => some .tdr
  | 5 => some .tbl | 6 => some .tly | 7 => some .gov | 8 => some .vec | _ => none

/-- The block and instance that own a page index; none where R475 names no page. -/
def pageBlk (p : Nat) : Option (Blk × Nat) :=
  if p < 0x100 then
    match p with
    | 0 => some (.sys, 0) | 1 => some (.fts, 0) | 2 => some (.sec, 0)
    | 3 => some (.mbx, 0) | 4 => some (.mbx, 1) | 5 => some (.mbx, 2)
    | 6 => some (.pci, 0) | 7 => some (.uci, 0) | 8 => some (.uci, 1) | 9 => some (.dbw, 0)
    | 10 => some (.trc, 0) | 11 => some (.pmu, 0) | 12 => some (.thm, 0) | _ => none
  else if p < 0x200 then
    match p with
    | 0x100 => some (.upd, 0) | 0x101 => some (.sch, 0)
    | 0x180 => some (.upd, 1) | 0x181 => some (.sch, 1) | _ => none
  else if p < 0xA00 then (coreBlk (p % 0x100)).map (fun b => (b, (p - 0x200) / 0x100))
  else if p < 0xB00 then (if p % 16 = 0 then some (.fab, (p - 0xA00) / 16) else none)
  else if p < 0xC00 then (if p % 16 = 0 then some (.mem, (p - 0xB00) / 16) else none)
  else none

/-- Who may write a register's plain fields. -/
inductive Guard where
  | anyone
  | secure
  | fws
  | none
  deriving DecidableEq, Repr

/-- A register word, or `count` of them `stride` bytes apart: the bits that a plain write sets (`rw`) and those that
a written 1 clears (`w1c`), the reset value, and who may write. Bits with a behaviour of their own stand in neither
mask: their commands write them. -/
structure RegRow where
  off    : Nat
  stride : Nat
  count  : Nat
  rw     : Nat
  w1c    : Nat
  reset  : Nat
  guard  : Guard
  deriving DecidableEq, Repr

def ones (hi lo : Nat) : Nat := (2 ^ (hi - lo + 1) - 1) * 2 ^ lo

/-- The common page header (R465). BLK_CTRL's SECURE_ONLY has a guard of its own (R469). -/
def headerRows : List RegRow :=
  [ ⟨0x010, 0, 1, 0, 0, 0, .anyone⟩,
    ⟨0x018, 0, 1, 0, 0, 0, .none⟩,
    ⟨0x020, 0, 1, 0, ones 63 0, 0, .anyone⟩,
    ⟨0x028, 0, 1, ones 63 0, 0, ones 63 0, .anyone⟩,
    ⟨0x030, 8, 5, 0, 0, 0, .none⟩,
    ⟨0x058, 0, 1, ones 1 1, 0, 0, .anyone⟩,
    ⟨0x060, 8, 8, ones 8 8, 0, 0, .anyone⟩,
    ⟨0x0A0, 8, 8, 0, 0, 0, .none⟩,
    ⟨0x0E0, 0, 1, ones 15 8, 0, 0, .anyone⟩ ]

/-- The header of a TBL page, whose interrupt bits are reserved but for CNT_SAT, which every page has (R354, R481). -/
def tblHeaderRows : List RegRow :=
  headerRows.map (fun r =>
    if r.off = 0x020 then { r with w1c := ones 63 63 }
    else if r.off = 0x028 then { r with rw := ones 63 63, reset := ones 63 63 }
    else r)

/-- The block-specific registers (R109, R155, R239, R241, R242, R287 to R290, R309, R332, R334, R354, R391 to R393,
R425 to R428, R443, R444, R463, R464, R482, R483, R507, R508, R534, R535, R563, R577). -/
def blkRows (b : Blk) : List RegRow :=
  match b with
  | .sys =>
    [ ⟨0x400, 0, 1, ones 47 17 + ones 63 63, 0, 0, .secure⟩,   -- SYS_PT_ROOT
      ⟨0x408, 0, 1, 0, 0, 0, .secure⟩,                         -- SYS_TLBI
      ⟨0x410, 0, 1, 0, 0, 0, .none⟩,                           -- SYS_TLBI_STAT
      ⟨0x420, 0, 1, 0, 0, 0, .secure⟩,                         -- SYS_FS_CTRL
      ⟨0x428, 0, 1, 0, 0, 0, .none⟩,                           -- SYS_FS_STAT
      ⟨0x430, 8, 2, ones 47 21, 0, 0, .secure⟩,                -- SYS_QT_A, SYS_QT_B
      ⟨0x440, 0, 1, ones 5 0, 0, 0, .secure⟩,                  -- SYS_MEM_CTRL
      ⟨0x448, 0, 1, 0, 0, 0, .none⟩,                           -- SYS_MEM_STAT
      ⟨0x450, 0, 1, ones 0 0 + ones 15 8, 0, 0x101, .secure⟩,  -- SYS_SRAM_SCRUB
      ⟨0x500, 0, 1, 0, 0, 0, .none⟩,                           -- SYS_RNG_STAT
      ⟨0x508, 0, 1, 0, 0, 0, .secure⟩,                         -- SYS_RNG_CLR
      ⟨0x600, 0, 1, ones 13 0 + ones 63 63, 0, 0, .secure⟩,    -- SYS_DEVID
      ⟨0x608, 0, 1, ones 28 0 + ones 47 32, 0, 0x10006000004, .secure⟩, -- SYS_FAB_CTRL
      ⟨0x610, 0, 1, ones 47 12, 0, 0, .secure⟩,                -- SYS_ROUTE_BASE
      ⟨0x618, 0, 1, 0, 0, 0, .secure⟩,                         -- SYS_ROUTE_INV
      ⟨0x620, 0, 1, ones 15 0, 0, 0xB8A5, .secure⟩,            -- SYS_FAB_UDP
      ⟨0x700, 32, 16, ones 59 0, 0, 0, .secure⟩,               -- SYS_MESH[i] sizes
      ⟨0x708, 32, 16, ones 59 0, 0, 0, .secure⟩,               -- SYS_MESH[i] coordinates
      ⟨0x710, 32, 16, ones 47 0, 0, 0, .secure⟩,               -- SYS_MESH[i] members
      ⟨0x718, 32, 16, ones 0 0, 0, 0, .secure⟩,                -- SYS_MESH[i] V
      ⟨0x900, 0, 1, ones 62 0, 0, 0, .fws⟩,                    -- SYS_FW_ALIVE
      ⟨0x908, 0, 1, ones 0 0 + ones 7 4, 0, 0, .fws⟩,          -- SYS_FW_STAT
      ⟨0x910, 0, 1, ones 15 0, 0, 0xB8A6, .fws⟩,               -- SYS_MGMT_UDP
      ⟨0xA00, 0, 1, ones 11 0, 0, 0, .secure⟩ ]                -- SYS_IO_SLEW
  | .fts =>
    [ ⟨0x100, 0, 1, 0, 0, 0, .secure⟩,                         -- FTS_CTRL
      ⟨0x108, 0, 1, ones 63 0, 0, 0x100000019, .secure⟩,       -- FTS_RATE
      ⟨0x110, 0, 1, ones 13 0, 0, 0x465, .secure⟩,             -- FTS_RASTER
      ⟨0x118, 0, 1, 0, 0, 0, .secure⟩,                         -- FTS_TIME
      ⟨0x120, 0, 1, ones 39 0, 0, 0x400000000, .secure⟩,       -- FTS_INC
      ⟨0x128, 0, 1, ones 47 0, 0, 0, .secure⟩,                 -- FTS_FRAME
      ⟨0x130, 0, 1, 0, 0, 0, .none⟩,                           -- FTS_LINE
      ⟨0x138, 0, 1, 0, 0, 0, .none⟩,                           -- FTS_STAT
      ⟨0x140, 0, 1, 0, 0, 0, .none⟩,                           -- FTS_PHASE
      ⟨0x148, 0, 1, ones 7 0, 0, 0, .secure⟩,                  -- FTS_RSV
      ⟨0x150, 0, 1, ones 8 0, 0, 127, .secure⟩,                -- FTS_PTP
      ⟨0x200, 16, 64, ones 55 0, 0, 0, .secure⟩,               -- FTS_EVT[i]
      ⟨0x208, 16, 64, ones 29 0, 0, 0, .secure⟩ ]              -- FTS_EVT[i] window end
  | .sec =>
    [ ⟨0x100, 0, 1, 0, 0, 0, .none⟩, ⟨0x108, 0, 1, 0, 0, 0, .none⟩, ⟨0x110, 0, 1, 0, 0, 0, .none⟩,
      ⟨0x118, 0, 1, 0, 0, 0, .none⟩, ⟨0x120, 0, 1, 0, 0, 0, .none⟩, ⟨0x128, 8, 4, 0, 0, 0, .none⟩,
      ⟨0x148, 0, 1, 0, 0, 0, .none⟩, ⟨0x150, 0, 1, 0, 0, 0, .none⟩ ]
  | .mbx => []
  | .sch =>
    [ ⟨0x100, 0, 1, 0, 0, 0, .none⟩, ⟨0x200, 16, 64, 0, 0, 0, .none⟩, ⟨0x208, 16, 64, 0, 0, 0, .none⟩ ]
  | .upd =>
    [ ⟨0x100, 0, 1, ones 47 12, 0, 0, .anyone⟩,                -- UPD_LT_BASE
      ⟨0x108, 0, 1, ones 16 0, 0, 0, .anyone⟩,                 -- UPD_LT_COUNT
      ⟨0x110, 0, 1, ones 47 6, 0, 0, .anyone⟩,                 -- UPD_SREC_BASE
      ⟨0x118, 0, 1, ones 47 16, 0, 0, .anyone⟩,                -- UPD_SPILL_BASE
      ⟨0x120, 0, 1, ones 47 3, 0, 0, .anyone⟩,                 -- UPD_DONE_ADDR
      ⟨0x128, 8, 4, 0, 0, 0, .none⟩,                           -- UPD_STEP, UPD_PIN, UPD_STAT, UPD_FAULT_VA
      ⟨0x148, 0, 1, 0, 1, 0, .anyone⟩,                         -- UPD_FAULT_INFO
      ⟨0x400, 64, 16, ones 5 0 + ones 63 32, 0, 0, .anyone⟩,   -- schedule descriptors
      ⟨0x408, 64, 16, ones 63 0, 0, 0, .anyone⟩,
      ⟨0x410, 64, 16, ones 63 0, 0, 0, .anyone⟩,
      ⟨0x418, 64, 16, ones 63 0, 0, 0, .anyone⟩,
      ⟨0x420, 64, 16, ones 35 0, 0, 0, .anyone⟩,
      ⟨0x428, 64, 16, ones 63 0, 0, 0, .anyone⟩ ]
  | .pci =>
    [ ⟨0x100, 0, 1, ones 47 30, 0, 0, .fws⟩, ⟨0x108, 0, 1, 0, 0, 0, .none⟩, ⟨0x110, 0, 1, 0, 0, 36, .none⟩ ]
  | .uci => [ ⟨0x100, 0, 1, 0, 0, 0, .none⟩ ]
  | .dbw => [ ⟨0x100, 0, 1, 0, 0, 0, .none⟩, ⟨0x108, 0, 1, ones 7 0, 0, 0x20, .anyone⟩ ]
  | .trc =>
    [ ⟨0x100, 0, 1, ones 0 0 + ones 8 4 + ones 15 12 + ones 31 16, 0, 0xA0, .anyone⟩, -- TRC_CTRL
      ⟨0x108, 0, 1, ones 63 0, 0, 0, .anyone⟩,                 -- TRC_KIND_EN
      ⟨0x110, 0, 1, ones 7 0, 0, 0xFF, .anyone⟩,               -- TRC_CORE_EN
      ⟨0x118, 0, 1, 0, 0, 0, .anyone⟩,                         -- TRC_MARK
      ⟨0x120, 32, 2, ones 47 12, 0, 0, .anyone⟩,               -- TRC_BASE
      ⟨0x128, 32, 2, ones 20 0, 0, 0, .anyone⟩,                -- TRC_SIZE
      ⟨0x130, 32, 2, 0, 0, 0, .none⟩,                          -- TRC_HEAD
      ⟨0x138, 32, 2, ones 31 0, 0, 0, .anyone⟩,                -- TRC_TAIL
      ⟨0x200, 16, 16, ones 15 0 + ones 63 63, 0, 0, .anyone⟩,  -- TRC_WATCH
      ⟨0x208, 16, 16, ones 47 4, 0, 0, .anyone⟩,               -- TRC_WATCH_REC
      ⟨0x300, 0, 1, ones 5 3, 0, 0, .anyone⟩,                  -- TRC_ECL_CTRL
      ⟨0x308, 0, 1, ones 63 0, 0, 0, .anyone⟩,                 -- TRC_ECL_EVT
      ⟨0x310, 0, 1, ones 63 0, 0, 0, .anyone⟩,                 -- TRC_ECL_TIME
      ⟨0x318, 0, 1, ones 47 12, 0, 0, .anyone⟩,                -- TRC_ECL_DUMP
      ⟨0x320, 0, 1, ones 15 8, 0, 0x300, .anyone⟩ ]            -- TRC_ECL_SCAN
  | .pmu =>
    [ ⟨0x100, 0, 1, 0, 0, 1, .secure⟩,                         -- PMU_CLK_CTRL
      ⟨0x108, 0, 1, 0, 0, 0, .secure⟩,                         -- PMU_PROFILE
      ⟨0x110, 0, 1, 0, 0, 0, .secure⟩,                         -- PMU_HALF_CTRL
      ⟨0x118, 0, 1, 0, ones 8 8, 0, .secure⟩,                  -- PMU_PSTATE
      ⟨0x120, 0, 1, 0, 0, 0, .secure⟩,                         -- PMU_RST_CTRL
      ⟨0x128, 0, 1, 0, 0, 1, .none⟩,                           -- PMU_RST_CAUSE
      ⟨0x130, 0, 1, 0, 0, 700, .secure⟩,                       -- PMU_PWR_LIMIT
      ⟨0x138, 0, 1, 0, 0, 0, .none⟩,                           -- PMU_PWR
      ⟨0x140, 0, 1, ones 6 0 + ones 14 8 + ones 19 16, 0, 0x44008, .secure⟩, -- PMU_DUTY_CTRL
      ⟨0x148, 0, 1, 0, 0, 0x4040404040404040, .none⟩,          -- PMU_DUTY
      ⟨0x150, 0, 1, 0, 0, 0, .secure⟩,                         -- PMU_FS_FLUSH
      ⟨0x158, 0, 1, 0, ones 7 0, 0, .secure⟩ ]                 -- PMU_FAULT
  | .thm =>
    [ ⟨0x100, 0, 1, 0, 0, 0x0369645F, .secure⟩,                -- THM_CTRL
      ⟨0x108, 0, 1, 0, 0, 0, .none⟩,                           -- THM_STAT
      ⟨0x200, 8, 136, 0, 0, 0, .none⟩ ]                        -- THM_SENSOR
  | .core => [ ⟨0x100, 0, 1, 0, 0, 0, .none⟩, ⟨0x108, 0, 1, 0, 0, 0, .none⟩ ]
  | .dsp =>
    [ ⟨0x100, 0, 1, ones 10 0 + ones 31 16, 0, 0x40040, .anyone⟩, -- DSP_CTRL
      ⟨0x108, 0, 1, ones 12 0, ones 62 62, 0, .anyone⟩,        -- DSP_QCMD
      ⟨0x110, 0, 1, 0, 0, 0x400, .none⟩,                       -- DSP_STAT
      ⟨0x400, 0, 1, ones 47 16, 0, 0, .anyone⟩,                -- DSP_SPEC_BASE
      ⟨0x408, 0, 1, ones 7 0, 0, 0, .anyone⟩,                  -- DSP_SPEC_SIZE
      ⟨0x410, 0, 1, ones 15 0, 0, 4, .anyone⟩,                 -- DSP_SPEC_POLL
      ⟨0x418, 0, 1, 0, 0, 0, .none⟩ ]                          -- DSP_SPEC_STAT
  | .fet =>
    [ ⟨0x100, 0, 1, 0, 0, 0x11, .anyone⟩,                      -- FET_CTRL
      ⟨0x108, 0, 1, 0, 0, 0, .none⟩,                           -- FET_FAULT_VA
      ⟨0x110, 0, 1, 0, 1, 0, .anyone⟩,                         -- FET_FAULT_INFO
      ⟨0x118, 0, 1, 0, 0, 0, .none⟩,                           -- FET_RA_STAT
      ⟨0x200, 16, 64, 0, 0, 0, .anyone⟩,                       -- FET_WATCH_BASE
      ⟨0x208, 16, 64, 0, 0, 0, .anyone⟩,                       -- FET_WATCH_EXT
      ⟨0x600, 8, 64, 0, 0, 0, .none⟩ ]                         -- FET_WATCH_GEN
  | .arr =>
    [ ⟨0x100, 0, 1, 0, 0, 0x100, .anyone⟩,                     -- ARR_CTRL
      ⟨0x108, 0, 1, 0, 0, 0, .none⟩, ⟨0x110, 8, 8, 0, 0, 0, .none⟩ ]
  | .tdr => []
  | .tbl => [ ⟨0x100, 0, 1, 0, 0, 0x113, .anyone⟩, ⟨0x108, 0, 1, 0, 0, 0, .none⟩ ]
  | .tly => []
  | .gov =>
    [ ⟨0x100, 0, 1, ones 0 0, 0, 0, .anyone⟩,                  -- GOV_CTRL
      ⟨0x108, 0, 1, 0, 0, 0, .anyone⟩,                         -- GOV_EPOCH
      ⟨0x110, 0, 1, 0, 0, 0, .none⟩,                           -- GOV_STAT
      ⟨0x118, 0, 1, ones 47 0, 0, 0, .anyone⟩,                 -- GOV_ENV_BASE
      ⟨0x120, 0, 1, ones 47 0, 0, 0, .anyone⟩,                 -- GOV_STATE_BASE
      ⟨0x128, 0, 1, ones 15 0, 0, 0, .anyone⟩,                 -- GOV_STATE_COUNT
      ⟨0x130, 0, 1, ones 47 0, 0, 0, .anyone⟩,                 -- GOV_WREC_BASE
      ⟨0x138, 0, 1, ones 31 0, 0, 0, .anyone⟩,                 -- GOV_WREC_SIZE
      ⟨0x140, 0, 1, 0, 0, 0, .none⟩,                           -- GOV_WREC_HEAD
      ⟨0x148, 0, 1, 0, 0, 0, .anyone⟩,                         -- GOV_WREC_TAIL
      ⟨0x150, 0, 1, ones 47 0, 0, 0, .anyone⟩ ]                -- GOV_DONE_ADDR
  | .vec => []
  | .fab =>
    [ ⟨0x100, 0, 1, ones 4 2, 0, 0x10, .anyone⟩,               -- FAB_CTRL
      ⟨0x108, 0, 1, 0, 0, 0, .none⟩,                           -- FAB_STAT
      ⟨0x110, 0, 1, ones 47 0, 0, 0, .anyone⟩,                 -- FAB_MAC
      ⟨0x118, 8, 2, ones 63 0, 0, 0, .anyone⟩,                 -- FAB_IP6
      ⟨0x800, 0, 1, ones 11 0, 0, 0x20, .anyone⟩,              -- FAB_NI_CREDIT_INIT
      ⟨0x808, 0, 1, ones 15 0, 0, 0x64, .anyone⟩,              -- FAB_NI_RTO
      ⟨0x810, 0, 1, ones 23 0 + ones 63 32, 0, 0x000A003200031810, .anyone⟩, -- FAB_NI_RC
      ⟨0x818, 0, 1, 0, 0, 0, .none⟩,                           -- FAB_NI_ABSENT
      ⟨0x820, 0, 1, 0, 0, 0, .anyone⟩,                         -- FAB_PEER_CLR
      ⟨0x828, 0, 1, 0, 0, 0, .none⟩,                           -- FAB_NI_FAULT_VA
      ⟨0x830, 0, 1, 0, 1, 0, .anyone⟩ ]                        -- FAB_NI_FAULT_INFO
  | .mem =>
    [ ⟨0x100, 0, 1, 0, 0, 0, .anyone⟩,                         -- MEM_CTRL
      ⟨0x108, 0, 1, 0, 0, 0, .none⟩,                           -- MEM_STAT
      ⟨0x110, 0, 1, 0, 0, 0, .none⟩,                           -- MEM_MODULE
      ⟨0x118, 0, 1, ones 47 12, 0, 0, .anyone⟩,                -- MEM_TREC
      ⟨0x120, 0, 1, ones 7 0, 0, 0, .anyone⟩,                  -- MEM_MARK
      ⟨0x128, 0, 1, ones 7 0, 0, 0x10, .anyone⟩,               -- MEM_ECC_CTRL
      ⟨0x130, 0, 1, ones 0 0 + ones 15 8, 0, 0x1801, .anyone⟩, -- MEM_SCRUB
      ⟨0x138, 0, 1, 0, 0, 0, .none⟩ ]                          -- MEM_SCRUB_STAT

/-- MBX0: doorbells, masks and channel configuration (R443). The doorbells have a guard of their own. -/
def mbx0Rows : List RegRow :=
  [ ⟨0x100, 16, 13, 0, ones 31 0, 0, .anyone⟩, ⟨0x108, 16, 13, ones 31 0, 0, ones 31 0, .anyone⟩,
    ⟨0x200, 8, 32, 0, 0, 0, .fws⟩, ⟨0x300, 0, 1, ones 10 0, 0, 0, .anyone⟩ ]

/-- MBX1 and MBX2: sixteen channels each (R444). -/
def mbxChanRows : List RegRow :=
  (List.range 16).map (fun c => (⟨0x100 + 128 * c, 8, 14, 0, 0, 0, .none⟩ : RegRow))

def RegRow.covers (r : RegRow) (off : Nat) : Bool :=
  if r.stride = 0 then off == r.off
  else r.off ≤ off && (off - r.off) % r.stride == 0 && (off - r.off) / r.stride < r.count

/-- The rows of a page. The registers of a network interface stand on the first FAB page of its half only (R393). -/
def rowsOf (b : Blk) (inst : Nat) : List RegRow :=
  (if b = .tbl then tblHeaderRows else headerRows) ++
    (if b = .mbx then (if inst = 0 then mbx0Rows else mbxChanRows)
     else if b = .fab ∧ inst % 8 ≠ 0 then (blkRows b).filter (fun r => r.off < 0x800)
     else blkRows b)

/-- The row of a page's register word. -/
def regRow? (page off : Nat) : Option RegRow :=
  match pageBlk page with
  | none => none
  | some (b, i) => (rowsOf b i).find? (fun r => r.covers off)

/-- The reset value of a register word (R15). EN of BLK_CTRL is 1 but on the UPD pages (R466); SECURE_ONLY is 1 on
SEC and MBX1 (R469). The words that fuses and configuration load (BLK_ID, BLK_CAP, SYS_CAP, SEC words) are read from
their source instead. -/
def regReset (page off : Nat) : W64 :=
  match pageBlk page with
  | none => 0
  | some (b, i) =>
    if off = 0x010 then
      BitVec.ofNat 64 ((if b = .upd then 0 else 1) + (if b = .sec ∨ (b = .mbx ∧ i = 1) then 8 else 0))
    else
      match (rowsOf b i).find? (fun r => r.covers off) with
      | some r => BitVec.ofNat 64 r.reset
      | none => 0

end Sys2Proof.Machine
end

