-- ==== Sys2Proof/Machine/Ops.lean ====
section
/-! DEFINITION. The named operations over the machine's parts: instances of blocks, registers, event records, counters,
trace records, memory with its far stores and codes, and translation. -/

namespace Sys2Proof.Machine

/-! ### Instances of blocks -/

def Dev.core (d : Dev) (c : Nat) : Core := KV.get Core.reset d.cores c
def Dev.modCore (d : Dev) (c : Nat) (f : Core → Core) : Dev := { d with cores := KV.set d.cores c (f (d.core c)) }
def Dev.queue? (d : Dev) (q : Nat) : Option QState := KV.find? d.queues q
def Dev.setQueue (d : Dev) (q : Nat) (x : QState) : Dev := { d with queues := KV.set d.queues q x }
def Dev.upd (d : Dev) (h : Nat) : Upd := KV.get Upd.reset d.upds h
def Dev.modUpd (d : Dev) (h : Nat) (f : Upd → Upd) : Dev := { d with upds := KV.set d.upds h (f (d.upd h)) }
def Dev.ni (d : Dev) (h : Nat) : Ni := KV.get Ni.reset d.nis h
def Dev.modNi (d : Dev) (h : Nat) (f : Ni → Ni) : Dev := { d with nis := KV.set d.nis h (f (d.ni h)) }
def Dev.port (d : Dev) (n : Nat) : Port := KV.get Port.reset d.ports n
def Dev.modPort (d : Dev) (n : Nat) (f : Port → Port) : Dev := { d with ports := KV.set d.ports n (f (d.port n)) }
def Dev.half (d : Dev) (h : Nat) : Half := KV.get Half.reset d.halves h
def Dev.modHalf (d : Dev) (h : Nat) (f : Half → Half) : Dev := { d with halves := KV.set d.halves h (f (d.half h)) }
def Dev.chan (d : Dev) (k : Nat) : Channel := KV.get Channel.reset d.channels k
def Dev.modChan (d : Dev) (k : Nat) (f : Channel → Channel) : Dev :=
  { d with channels := KV.set d.channels k (f (d.chan k)) }
def Dev.ctx? (d : Dev) (c x : Nat) : Option Ctx := KV.find? (d.core c).ctxs x
def Dev.setCtx (d : Dev) (c x : Nat) (t : Ctx) : Dev := d.modCore c (fun k => { k with ctxs := KV.set k.ctxs x t })
def Dev.freeCtx (d : Dev) (c x : Nat) : Dev := d.modCore c (fun k => { k with ctxs := KV.erase k.ctxs x })
def Dev.modCtx (d : Dev) (c x : Nat) (f : Ctx → Ctx) : Dev :=
  match d.ctx? c x with
  | none => d
  | some t => d.setCtx c x (f t)

/-- Something the device drives out of the package in this step. -/
def Dev.emit (d : Dev) (o : Out) : Dev := { d with out := d.out ++ [o] }

/-- A meaning that changes the machine but for its queue and its fuses; what the last step drove out is gone. -/
def State.lift (s : State) (f : Dev → Dev) : Host.Outcome State Fault Refusal :=
  .next { s with dev := f { s.dev with out := [] } }

/-- A free value: what no rule states. -/
def Dev.takeFree (d : Dev) : Dev × W64 := ({ d with free := d.free + 1 }, Config.freeValue d.free)

/-! ### Registers -/

def regKey (page off : Nat) : Nat := page * 4096 + off

/-- A register word as it stands. -/
def Dev.reg (d : Dev) (page off : Nat) : W64 :=
  match KV.find? d.regs (regKey page off) with
  | some v => v
  | none => regReset page off

/-- A register word set; a word at its reset value is not listed. -/
def Dev.setReg (d : Dev) (page off : Nat) (v : W64) : Dev :=
  { d with regs := if v = regReset page off then KV.erase d.regs (regKey page off)
                   else KV.set d.regs (regKey page off) v }

def Dev.regf (d : Dev) (page off hi lo : Nat) : Nat := (d.reg page off).field hi lo
def Dev.regb (d : Dev) (page off i : Nat) : Bool := (d.reg page off).bit i
def Dev.setf (d : Dev) (page off hi lo v : Nat) : Dev := d.setReg page off ((d.reg page off).setField hi lo v)
def Dev.setb (d : Dev) (page off i : Nat) (b : Bool) : Dev := d.setf page off i i (if b then 1 else 0)

def pgSys : Nat := 0
def pgFts : Nat := 1
def pgSec : Nat := 2
def pgMbx (i : Nat) : Nat := 3 + i
def pgPci : Nat := 6
def pgUci (h : Nat) : Nat := 7 + h
def pgDbw : Nat := 9
def pgTrc : Nat := 10
def pgPmu : Nat := 11
def pgThm : Nat := 12
def pgUpd (h : Nat) : Nat := 0x100 + 0x80 * h
def pgSch (h : Nat) : Nat := 0x101 + 0x80 * h
def pgCore (c : Nat) : Nat := 0x200 + 0x100 * c
def pgDsp (c : Nat) : Nat := 0x201 + 0x100 * c
def pgFet (c : Nat) : Nat := 0x202 + 0x100 * c
def pgArr (c : Nat) : Nat := 0x203 + 0x100 * c
def pgTdr (c : Nat) : Nat := 0x204 + 0x100 * c
def pgTbl (c : Nat) : Nat := 0x205 + 0x100 * c
def pgTly (c : Nat) : Nat := 0x206 + 0x100 * c
def pgGov (c : Nat) : Nat := 0x207 + 0x100 * c
def pgVec (c : Nat) : Nat := 0x208 + 0x100 * c
def pgFab (n : Nat) : Nat := 0xA00 + 0x10 * n
def pgMem (k : Nat) : Nat := 0xB00 + 0x10 * k

/-- FAB0 or FAB8, which carries the registers of the half's network interface (R393). -/
def pgNi (h : Nat) : Nat := pgFab (8 * h)

/-- The half that owns a page; none for the system die (R21, R33). -/
def pageHalf (page : Nat) : Option Nat :=
  if page < 0x100 then none
  else if page < 0x180 then some 0
  else if page < 0x200 then some 1
  else if page < 0xA00 then some ((page - 0x200) / 0x400)
  else if page < 0xB00 then some ((page - 0xA00) / 0x80)
  else some ((page - 0xB00) / 0x80)

/-! ### What is present and running -/

def Dev.halvesN (d : Dev) : Nat := d.cap.field 1 0
def Dev.halfPresent (d : Dev) (h : Nat) : Bool := h < d.halvesN && h < 2
def Dev.corePresent (d : Dev) (c : Nat) : Bool := c < 8 && d.cap.bit (8 + c)
def Dev.portPresent (d : Dev) (n : Nat) : Bool := n < 16 && d.cap.bit (16 + n)
def Dev.memPresent (d : Dev) (k : Nat) : Bool := k < 16 && d.cap.bit (32 + k)
def Dev.drawbar (d : Dev) : Bool := d.cap.bit 55

/-- A page of R475 that the fused variant has (R5, R476). -/
def Dev.present (d : Dev) (page : Nat) : Bool :=
  match pageBlk page with
  | none => false
  | some (b, i) =>
    match b with
    | .sch => d.halfPresent i
    | .upd => d.halfPresent i
    | .uci => d.halfPresent i
    | .dbw => d.drawbar
    | .fab => d.portPresent i
    | .mem => d.memPresent i
    | .core => d.corePresent i
    | .dsp => d.corePresent i
    | .fet => d.corePresent i
    | .arr => d.corePresent i
    | .tdr => d.corePresent i
    | .tbl => d.corePresent i
    | .tly => d.corePresent i
    | .gov => d.corePresent i
    | .vec => d.corePresent i
    | _ => true

/-- The device is out of reset with the system die powered (R515). -/
def Dev.up (d : Dev) : Bool :=
  !d.power.inReset && d.power.aux && d.power.seq != .down && d.power.good.getD 0 false && d.power.enable.getD 0 false

/-- The half runs: PMU_HALF_CTRL has released it (R515). -/
def Dev.running (d : Dev) (h : Nat) : Bool := d.up && d.halfPresent h && d.regb pgPmu 0x110 h

/-- The device is eclipsed: TRC_ECL_CTRL.STOPPED (R555). -/
def Dev.eclipsed (d : Dev) : Bool := d.regb pgTrc 0x300 2

/-- A core that runs or, its half isolated, ends the commands that it has issued (R523). -/
def Dev.coreStands (d : Dev) (c : Nat) : Bool := d.corePresent c && d.running (c / 4) && !d.eclipsed && !d.tap.undef.contains c

/-- A unit of the half's clocks runs: neither held, nor isolated, nor eclipsed. -/
def Dev.unitLive (d : Dev) (h : Nat) : Bool := d.running h && !(d.half h).isolated && !d.eclipsed

/-- A core that a wrapper instruction has not stopped (R562) and whose half is live. -/
def Dev.coreLive (d : Dev) (c : Nat) : Bool := d.corePresent c && d.unitLive (c / 4) && !d.tap.undef.contains c

/-- A network interface that is live. -/
def Dev.niLive (d : Dev) (h : Nat) : Bool := d.unitLive h && !d.tap.undef.contains (8 + h)

/-- The debug level (R504). -/
def Dev.dbgLevel (d : Dev) : Nat := d.regf pgSec 0x120 1 0

/-- The agent acts in the secure world (R442, R501). -/
def Dev.agentSecure (d : Dev) : Agent → Bool
  | .fws => true
  | .sec => true
  | .jtag => d.dbgLevel == 2
  | .task s => s
  | _ => false

/-! ### ACLK, error records, trace and counters -/

/-- The ACLK counter that stamps an event of a page (R39). -/
def Dev.stamp (d : Dev) (page : Nat) : W64 := if pageHalf page = some 1 then d.aclkB else d.aclkA

/-- A value added to a saturating count held in bits [62:0] with SAT in bit 63 (R536, R537). -/
def satAdd (o a : W64) : W64 :=
  let sum := o.field 62 0 + a.field 62 0
  if sum > 2 ^ 63 - 1 ∨ o.bit 63 ∨ a.bit 63 then BitVec.ofNat 64 (2 ^ 64 - 1) else BitVec.ofNat 64 sum

/-- A BLK_ISR bit set, which interrupts system-die firmware unless it is masked (R471). -/
def Dev.setIsr (d : Dev) (page bit : Nat) : Dev :=
  let d := d.setb page 0x020 bit true
  if d.regb page 0x028 bit then d else d.emit (.blockIrq page)

/-- An event record (R19). -/
def eventRecord (page code qual : Nat) : W64 :=
  match pageBlk page with
  | none => 0
  | some (b, i) => BitVec.ofNat 64 (code * 2 ^ 48 + b.type * 2 ^ 40 + i * 2 ^ 32 + qual % 2 ^ 32)

/-- Capture of a record in a page's error registers, with saturation of ERR_COUNT (R472, R473). -/
def Dev.capture (d : Dev) (page : Nat) (ev : W64) (addr : Nat) : Dev :=
  let first := d.regf page 0x030 63 48 = 0
  let d := (d.setReg page 0x040 ev).setReg page 0x048 (BitVec.ofNat 64 addr)
  let d := if first then (d.setReg page 0x030 ev).setReg page 0x038 (BitVec.ofNat 64 addr) else d
  let old := d.reg page 0x050
  let new := satAdd old 1
  let d := d.setReg page 0x050 new
  if new.bit 63 && !old.bit 63 && d.regb page 0x058 1 then d.setIsr page 63 else d

/-- The BLK_ISR bit of an event code on a page, where the block directory gives one (R481). -/
def isrOf (page code : Nat) : Option Nat :=
  match pageBlk page, code with
  | some (.sys, _), 0x0603 => some 6
  | some (.sys, _), 0x0604 => some 7
  | some (.sys, _), 0x0503 => some 8
  | some (.fts, _), 0x0402 => some 0
  | some (.mbx, _), 0x0801 => some 0
  | some (.sch, _), 0x0401 => some 0
  | some (.upd, _), 0x0501 => some 0
  | some (.upd, _), 0x0502 => some 1
  | some (.dbw, _), 0x0605 => some 0
  | some (.trc, _), 0x0701 => some 0
  | some (.core, _), 0x0603 => some 6
  | some (.core, _), 0x0604 => some 7
  | some (.dsp, _), 0x0302 => some 8
  | some (.fet, _), 0x0201 => some 0
  | some (.fet, _), 0x0202 => some 1
  | some (.fet, _), 0x0203 => some 2
  | some (.fet, _), 0x0301 => some 4
  | some (.tdr, _), 0x0104 => some 0
  | some (.tly, _), 0x0101 => some 0
  | some (.tly, _), 0x0102 => some 1
  | some (.tly, _), 0x0103 => some 2
  | some (.gov, _), 0x0105 => some 1
  | some (.mem, _), 0x0601 => some 0
  | some (.mem, _), 0x0602 => some 1
  | _, 0x0702 => some 63
  | _, _ => none

/-- A counter slot advanced by n (R474, R536). The flag tells that the slot saturated with its SAT_EN set. -/
def slotAdd (sel cnt : W64) (n : Nat) : W64 × Bool :=
  if cnt.bit 63 then (cnt, false)
  else if cnt.toNat + n ≥ 2 ^ 63 - 1 then (BitVec.ofNat 64 (2 ^ 64 - 1), sel.bit 8)
  else (BitVec.ofNat 64 (cnt.toNat + n), false)

/-- One slot of a page counts n occurrences of a selection, capturing CNT_SAT when it saturates (R474, R538). -/
def Dev.countSlot (d : Dev) (page sel n i : Nat) : Dev :=
  let s := d.reg page (0x060 + 8 * i)
  if s.field 7 0 ≠ sel ∨ d.regb page 0x0E0 (8 + i) then d
  else
    let r := slotAdd s (d.reg page (0x0A0 + 8 * i)) n
    let d := d.setReg page (0x0A0 + 8 * i) r.1
    if r.2 then (d.capture page (eventRecord page 0x0702 i) 0).setIsr page 63 else d

/-- A page counts n occurrences of a selection. -/
def Dev.count (d : Dev) (page sel n : Nat) : Dev :=
  if n = 0 ∨ sel = 0 then d else (List.range 8).foldl (fun d i => d.countSlot page sel n i) d

/-- A record for a ring, or its loss when the buffer of 512 is full or a GAP is owed (R547). -/
def Ring.push (r : Ring) (t : TraceRec) : Ring :=
  if r.dropped = 0 ∧ r.buf.length < 512 then { r with buf := r.buf ++ [t] }
  else { r with dropped := r.dropped + 1, firstTs := if r.dropped = 0 then t.ts else r.firstTs, lastTs := t.ts }

/-- The ring of a page (R542). -/
def ringOf (page : Nat) : Nat := if pageHalf page = some 1 then 1 else 0

/-- A trace record of a kind from a page, with the task context that it concerns (R543, R544). A disabled ring takes none. -/
def Dev.trace (d : Dev) (page kind : Nat) (ctx : Option Nat) (p0 p1 : W64) : Dev :=
  let r := ringOf page
  let on := d.regb pgTrc 0x100 0 && d.regb pgTrc 0x108 kind && d.regf pgTrc (0x128 + 32 * r) 20 0 != 0
  if !on then d
  else
    let ids := (eventRecord page 0 0).field 47 32
    let inst := ids % 256
    let type := ids / 256
    let c := match ctx with | some x => x * 2 ^ 24 + 2 ^ 34 | none => 0
    let t : TraceRec := { ts := d.stamp page, w1 := BitVec.ofNat 64 (kind + type * 2 ^ 8 + inst * 2 ^ 16 + c), p0 := p0, p1 := p1 }
    let ring := d.trc.rings.getD r Ring.reset
    let ring' := ring.push t
    let d := { d with trc := { d.trc with rings := d.trc.rings.set r ring' } }
    if ring'.dropped > ring.dropped then d.count pgTrc 0x02 1 else d

/-- An eclipse with its cause, unless the level is 0 or the device is eclipsed already (R554, R555). -/
def Dev.eclipse (d : Dev) (cause : Nat) : Dev :=
  if d.dbgLevel = 0 ∨ d.eclipsed then d
  else
    let d := (d.setb pgTrc 0x300 2 true).setf pgTrc 0x300 15 8 cause
    let d := d.trace pgTrc 0x38 none (BitVec.ofNat 64 cause) d.aclkA
    let d := { d with trc := { d.trc with ts := d.aclkA } }
    let d := (d.setIsr pgTrc 2).count pgTrc 0x05 1
    if d.regb pgTrc 0x300 4 then d.emit (.pin "ECLIPSE_N" false) else d

/-- An event record raised by a page: captured, its BLK_ISR bit set, traced, and matched against the eclipse triggers. -/
def Dev.raise (d : Dev) (page code qual addr : Nat) : Dev :=
  let ev := eventRecord page code qual
  let d := d.capture page ev addr
  let d := match isrOf page code with | some b => d.setIsr page b | none => d
  let d := d.trace page 0x01 none ev (BitVec.ofNat 64 addr)
  let hit := (List.range 4).any (fun j => d.regf pgTrc 0x308 (16 * j + 15) (16 * j) == code)
  if hit && code != 0 && d.regb pgTrc 0x300 3 then d.eclipse 2 else d

/-! ### Memory: the byte view -/

/-- What an unlisted byte of the physical map reads as: zero, but in carve-outs and in host memory, which the device
does not initialise (R27, R199). -/
def memDefault (pa : Nat) : Option Byte :=
  if 0x100020000000 ≤ pa ∧ pa < 0x100040000000 then none
  else if 0x800000000000 ≤ pa then none
  else some 0

/-- The canonical form: addresses rise, and no byte listed that an unlisted address reads as. -/
def Memory.wf (m : List Host.Cell) : Bool :=
  KV.sorted m && m.all (fun c => memDefault c.1 != some c.2)

def Memory.set (m : List Host.Cell) (pa : Nat) (b : Byte) : List Host.Cell :=
  if memDefault pa = some b then KV.erase m pa else KV.set m pa b

/-- Consecutive bytes set from an address on. -/
def Memory.setAll (m : List Host.Cell) (pa : Nat) : List Byte → List Host.Cell
  | [] => m
  | b :: bs => Memory.setAll (Memory.set m pa b) (pa + 1) bs

/-- A byte of the physical map. -/
def Dev.byte (d : Dev) (pa : Nat) : Byte :=
  match KV.find? d.mem pa with
  | some b => b
  | none =>
    match memDefault pa with
    | some b => b
    | none =>
      if pa < 0x100040000000 then
        Config.carveByte ((d.half (if pa < 0x100030000000 then 0 else 1)).carveGen.getD (pa % 0x10000000 / 0x1000000) 0) pa
      else Config.hostByte pa

def Dev.bytes (d : Dev) (pa n : Nat) : List Byte := (List.range n).map (fun i => d.byte (pa + i))

/-- A little-endian number from bytes (R14). -/
def leNat : List Byte → Nat
  | [] => 0
  | b :: bs => b.toNat + 256 * leNat bs

/-- n bytes of a number, lowest first (R14). -/
def leBytes : Nat → Nat → List Byte
  | 0, _ => []
  | n + 1, v => BitVec.ofNat 8 v :: leBytes n (v / 256)

/-- A big-endian number from bytes. -/
def beNat (bs : List Byte) : Nat := leNat bs.reverse

/-- n bytes of a number, highest first. -/
def beBytes (n v : Nat) : List Byte := (leBytes n v).reverse

/-- CRC-32C over bytes, a bit at a time. -/
def crcStep (c : Nat) : Nat := if c % 2 = 1 then Nat.xor (c / 2) 0x82F63B78 else c / 2
def crcByte (c : Nat) (b : Byte) : Nat := (List.range 8).foldl (fun c _ => crcStep c) (Nat.xor c b.toNat)
def crc32c (bs : List Byte) : Nat := Nat.xor (bs.foldl crcByte 0xFFFFFFFF) 0xFFFFFFFF

def Dev.word (d : Dev) (pa : Nat) : W64 := BitVec.ofNat 64 (leNat (d.bytes pa 8))

/-- Bytes put at a physical address with no further effect. -/
def Dev.put (d : Dev) (pa : Nat) (bs : List Byte) : Dev := { d with mem := Memory.setAll d.mem pa bs }

/-! ### Memory: the physical map (R27, R28) -/

inductive Space where
  | dram (h off : Nat)
  | near (c off : Nat)
  | carve (h off : Nat)
  | unbacked
  | sram
  | window (off : Nat)
  | host
  | reserved
  deriving DecidableEq, Repr

/-- Capacity of a half in bytes (SYS_MEM_STAT.SIZE_h). -/
def Dev.halfSize (d : Dev) (h : Nat) : Nat := d.regf pgSys 0x448 (31 + 16 * h) (16 + 16 * h) * 2 ^ 30

/-- All channels of the half are READY (R402). -/
def Dev.dramReady (d : Dev) (h : Nat) : Bool := d.regb pgSys 0x448 (1 + h)

/-- Carve-out steps of a half (R199). -/
def Dev.carve (d : Dev) (h : Nat) : Nat := d.regf pgSys 0x420 (3 + 4 * h) (4 * h)

/-- Where a physical address lies. DRAM that is not installed or not READY is reserved (R28, R402), and so is what
belongs to an absent half (R25). -/
def Dev.space (d : Dev) (pa : Nat) : Space :=
  if pa < 0x020000000000 then
    let h := pa / 2 ^ 40
    let o := pa % 2 ^ 40
    if d.halfPresent h ∧ d.dramReady h ∧ o < d.halfSize h then .dram h o else .reserved
  else if pa < 0x100000000000 then .reserved
  else if pa < 0x100020000000 then
    let c := (pa - 0x100000000000) / 0x4000000
    if d.corePresent c then .near c ((pa - 0x100000000000) % 0x4000000) else .reserved
  else if pa < 0x100040000000 then
    let h := (pa - 0x100020000000) / 0x10000000
    let o := (pa - 0x100020000000) % 0x10000000
    if !d.halfPresent h then .reserved
    else if o < d.carve h * 0x1000000 then .carve h o else .unbacked
  else if pa < 0x100048000000 then .sram
  else if pa < 0x100050000000 then .reserved
  else if pa < 0x100060000000 then .window (pa - 0x100050000000)
  else if pa < 0x800000000000 then .reserved
  else if pa < 0x1000000000000 then .host
  else .reserved

def nearBase (c : Nat) : Nat := 0x100000000000 + c * 0x4000000

/-- Address ranges cut at line boundaries: start and length of each part. -/
def chunksAux : Nat → Nat → Nat → List (Nat × Nat)
  | 0, _, _ => []
  | f + 1, pa, n =>
    if n = 0 then []
    else
      let m := 64 - pa % 64
      if n ≤ m then [(pa, n)] else (pa, m) :: chunksAux f (pa + m) (n - m)

def chunks (pa n : Nat) : List (Nat × Nat) := chunksAux (n / 64 + 2) pa n

/-! ### Memory: channels, far stores and poison -/

/-- The channel of a half's DRAM offset, and the byte within it (R399, R400). -/
def Dev.channelOf (d : Dev) (h o : Nat) : Nat × Nat :=
  if d.regb pgSys 0x440 (2 + h) then
    let s := d.halfSize h / 8
    (8 * h + (if s = 0 then 0 else o / s), if s = 0 then o else o % s)
  else
    let k := Nat.xor (Nat.xor ((o >>> 6) % 8) ((o >>> 15) % 8)) ((o >>> 24) % 8)
    (8 * h + k, (o >>> 9) * 64 + o % 64)

def Dev.chanOffline (d : Dev) (k : Nat) : Bool := d.regf (pgMem k) 0x108 2 0 == 4

/-- The sub-channel of a channel byte: consecutive 64-byte units alternate (R401). -/
def subOf (b : Nat) : Nat := b / 64 % 2
/-- Its rank, which belongs to the controller. -/
def rankOf (k b : Nat) : Nat := Config.lineRank k (b / 64) % 4

/-- The sub-channel and rank bits of R410 and R411 for a channel byte. -/
def placeBits (k b : Nat) : Nat := subOf b * 2 ^ 28 + rankOf k b * 2 ^ 26

/-- A set of line numbers in rising order. -/
def lineAdd : List Nat → Nat → List Nat
  | [], x => [x]
  | y :: l, x => if x < y then x :: y :: l else if x = y then y :: l else y :: lineAdd l x

def Dev.poisoned (d : Dev) (pa : Nat) : Bool := d.poison.contains (pa / 64)
def Dev.setPoison (d : Dev) (pa : Nat) : Dev := { d with poison := lineAdd d.poison (pa / 64) }
def Dev.clearPoison (d : Dev) (pa : Nat) : Dev := { d with poison := d.poison.filter (· != pa / 64) }

/-- The far-store set of a line number (R197). -/
def fsSet (line : Nat) : Nat := Nat.xor (line % 2 ^ 18) (line / 2 ^ 18 % 2 ^ 18)

/-- The line lies in its half's queue table, which is pinned in way 0 (R198). -/
def Dev.linePinned (d : Dev) (h line : Nat) : Bool :=
  line / 2 ^ 15 == (d.regf pgSys (0x430 + 8 * h) 47 21)

/-- The set holds a line of the queue table. -/
def Dev.setPinned (d : Dev) (h set : Nat) : Bool :=
  let base := d.regf pgSys (0x430 + 8 * h) 47 21 * 2 ^ 15
  (Nat.xor set (base / 2 ^ 18 % 2 ^ 18)) / 2 ^ 15 == base % 2 ^ 18 / 2 ^ 15

/-- Ways of a set that replacement may use. -/
def Dev.waysOf (d : Dev) (h set : Nat) : Nat := 16 - d.carve h - (if d.setPinned h set then 1 else 0)

/-- A dirty line reaches DRAM, whole and in order (R197); an offline channel discards it (R423). -/
def Dev.writeBack (d : Dev) (h line : Nat) : Dev :=
  let cb := d.channelOf h (line * 64 % 2 ^ 40)
  if d.chanOffline cb.1 then d
  else ({ d with dram := KV.erase d.dram line }.modChan cb.1 (fun c =>
    { c with retries := 0, faults := KV.erase c.faults (cb.2 / 64) })).count (pgMem cb.1) 0x02 1

def setDirty (l : List FarLine) (line : Nat) (dirty : Bool) : List FarLine :=
  l.map (fun f => if f.line = line then { f with dirty := dirty } else f)

/-- A line of DRAM becomes the latest used of its far store, allocated with the least recently used line of its set
evicted where the set is full (R197). The flag tells that the far store held it. -/
def Dev.touch (d : Dev) (h pa : Nat) : Dev × Bool :=
  let line := pa / 64
  let ls := (d.half h).lines
  match ls.find? (fun f => f.line == line) with
  | some f => (d.modHalf h (fun x => { x with lines := f :: ls.filter (fun g => g.line != line) }), true)
  | none =>
    let pin := d.linePinned h line
    let set := fsSet line
    let same := ls.filter (fun g => !g.pinned && fsSet g.line == set)
    let new : FarLine := { line := line, dirty := false, pinned := pin }
    if !pin && same.length ≥ d.waysOf h set then
      match same.getLast? with
      | none => (d, false)
      | some v =>
        let d := if v.dirty then d.writeBack h v.line else d
        (d.modHalf h (fun x => { x with lines := new :: ls.filter (fun g => g.line != v.line) }), false)
    else (d.modHalf h (fun x => { x with lines := new :: ls }), false)

/-- The watched regions of every core that a written line overlaps advance their write generation (R218, R219, R538). -/
def Dev.bumpGen (d : Dev) (c i : Nat) : Dev :=
  let page := pgFet c
  let old := d.reg page (0x600 + 8 * i)
  let new := satAdd old 1
  let d := d.setReg page (0x600 + 8 * i) new
  if new.bit 63 && !old.bit 63 && d.regb page 0x058 1 then
    d.raise page 0x0702 (3 * 2 ^ 28 + i) 0
  else d

def Dev.watchHits (d : Dev) (c i pa : Nat) : Bool :=
  let b := d.reg (pgFet c) (0x200 + 16 * i)
  let base := b.field 47 6
  let n := d.regf (pgFet c) (0x208 + 16 * i) 39 6
  b.bit 63 && base ≤ pa / 64 && pa / 64 < base + n

def Dev.watchWrite (d : Dev) (pa : Nat) : Dev :=
  (List.range 8).foldl (fun d c =>
    if !d.corePresent c then d
    else (List.range 64).foldl (fun d i => if d.watchHits c i pa then d.bumpGen c i else d) d) d

/-- The marked device of a rank and sub-channel. -/
def Dev.markOf (d : Dev) (k rank sub : Nat) : Option Nat :=
  let m := d.reg (pgMem k) 0x120
  if m.bit 0 && m.field 1 1 == sub && m.field 3 2 == rank then some (m.field 7 4) else none

/-- The comparison with the previous correction in one device, and the automatic mark (R409). -/
def Dev.noteCorrection (d : Dev) (k device rank sub : Nat) : Dev :=
  if device = 15 then d
  else
    let page := pgMem k
    let same := (d.chan k).lastCe == some (device, rank, sub)
    let n := if same then min 255 (d.regf page 0x128 15 8 + 1) else 1
    let d := (d.modChan k (fun c => { c with lastCe := some (device, rank, sub) })).setf page 0x128 15 8 n
    let thr := d.regf page 0x128 7 0
    if thr ≠ 0 ∧ n ≥ thr ∧ !d.regb page 0x120 0 then
      (d.setReg page 0x120 (BitVec.ofNat 64 (1 + sub * 2 + rank * 4 + device * 16 + 256))).setIsr page 3
    else d

/-- The error word on a channel byte's line, none where the codeword is in order. -/
def Dev.lineErrors (d : Dev) (k b : Nat) : List Nat := KV.get [] (d.chan k).faults (b / 64)

/-- Nothing has written the line since full training (R405). -/
def Dev.lineBlank (d : Dev) (k pa : Nat) : Bool := (d.chan k).blank && !(d.chan k).written.contains (pa / 64)

/-- The decoding of a line that is stored with errors. The check symbols of a poisoned one are wrong as well (R412). -/
def Dev.lineDecode (d : Dev) (k b pa : Nat) : Decoded :=
  let e := d.lineErrors k b
  if e.isEmpty then .clean
  else
    decodeLine (d.markOf k (rankOf k b) (subOf b)) (d.bytes (pa / 64 * 64) 64) (if d.poisoned pa then xorWord e poisonWord else e)

/-- MEM_CE: the corrected data is delivered and written back (R410). -/
def Dev.correct (d : Dev) (k b pa : Nat) (scrub marked : Bool) (device count : Nat) (data : List Byte) : Dev :=
  let page := pgMem k
  let qual := (if scrub then 2 ^ 31 else 0) + (if marked then 2 ^ 30 else 0) + placeBits k b + device * 2 ^ 22 + count * 2 ^ 18
  let d := ((d.count page 0x03 1).count page 0x04 count).count page 0x02 1
  let d := (if scrub then d.count page 0x08 1 else d).raise page 0x0601 qual (pa / 64 * 64)
  let d := (d.put (pa / 64 * 64) data).clearPoison pa
  (d.modChan k (fun c => { c with faults := KV.erase c.faults (b / 64) })).noteCorrection k device (rankOf k b) (subOf b)

/-- The effect of an uncorrectable read of a DRAM line (R411, R412, R423): MEM_UE, or for a channel already known
offline a count only. Answers the record. -/
def Dev.memUe (d : Dev) (h pa : Nat) (flags : Nat) (again : Bool) : Dev × W64 :=
  let cb := d.channelOf h (pa % 2 ^ 40)
  let page := pgMem cb.1
  let qual := flags + placeBits cb.1 cb.2
  let d := d.count page 0x05 1
  let ev := eventRecord page 0x0602 qual
  if again then (d, ev) else (d.raise page 0x0602 qual (pa / 64 * 64), ev)

/-- A line of DRAM is brought to the far store for a read or a partial write: the far store's own copy, or a read of
the channel. Answers the record of data that fails its code. -/
def Dev.fetchLine (d : Dev) (h pa : Nat) : Dev × Option W64 :=
  let cb := d.channelOf h (pa % 2 ^ 40)
  if d.chanOffline cb.1 then
    let again := (d.chan cb.1).ueSeen
    let r := d.memUe h pa (2 ^ 29) again
    (r.1.modChan cb.1 (fun c => { c with ueSeen := true }), some r.2)
  else
    let t := d.touch h pa
    let d := t.1
    let blank := d.lineBlank cb.1 pa
    if t.2 then
      if d.poisoned pa || blank then (d, some (eventRecord (pgMem cb.1) 0x0602 (2 ^ 30 + placeBits cb.1 cb.2))) else (d, none)
    else
      let d := (d.modChan cb.1 (fun c => { c with retries := 0 })).count (pgMem cb.1) 0x01 1
      if d.poisoned pa && (d.lineErrors cb.1 cb.2).isEmpty then
        let r := d.memUe h pa (2 ^ 30) false
        (r.1, some r.2)
      else if blank then
        let r := d.memUe h pa 0 false
        (r.1.setPoison pa, some r.2)
      else
        match d.lineDecode cb.1 cb.2 pa with
        | .clean => (d, none)
        | .corrected m dev n data => (d.correct cb.1 cb.2 pa false m dev n data, none)
        | .failed =>
          let r := d.memUe h pa 0 false
          (r.1.setPoison pa, some r.2)

/-- The page that raises the SRAM errors of a place, and the store code and word index of R417. -/
def Dev.sramPlace (d : Dev) (pa : Nat) : Nat × Nat :=
  match d.space pa with
  | .near c o =>
    if o < 0x2800000 then (pgCore c, o / 64)
    else if o < 0x3800000 then
      (pgCore c, 1 * 2 ^ 28 + (o - 0x2800000) / 0x400000 * 2 ^ 24 + (o - 0x2800000) % 0x400000 / 64)
    else (pgCore c, 2 * 2 ^ 28 + (o - 0x3800000) / 64)
  | .carve h o => (pgSys, (3 + h) * 2 ^ 28 + (15 - o / 0x1000000) * 2 ^ 18 + o % 0x1000000 / 64)
  | _ => (pgSys, 7 * 2 ^ 28 + pa % 0x8000000 / 64)

/-- A read within one line at its store. A poisoned SRAM word raises SRAM_UE (R417); a failed host-memory read returns poison
(R437). -/
def Dev.loadLine (d : Dev) (pa : Nat) : Dev × Option W64 :=
  match d.space pa with
  | .dram h _ => d.fetchLine h pa
  | .near _ _ | .carve _ _ | .sram =>
    if d.poisoned pa then
      let p := d.sramPlace pa
      (d.raise p.1 0x0604 p.2 0, some (eventRecord p.1 0x0604 p.2))
    else (d, none)
  | .host =>
    if d.svc.dmaFail = some false then ({ d with svc := { d.svc with dmaFail := none } }, some 0)
    else if d.poisoned pa then (d, some 0) else (d, none)
  | _ => (d, none)

/-- The value that a read of n bytes returns: zero where nothing is backed (R32, R200), and undefined in the near store of a
core that a wrapper instruction has stopped (R562). -/
def Dev.value (d : Dev) (pa n : Nat) : List Byte :=
  match d.space pa with
  | .unbacked => List.replicate n 0
  | .reserved => List.replicate n 0
  | .window _ => List.replicate n 0
  | .near c _ => if d.tap.undef.contains c then (List.range n).map (fun i => Config.undefByte d.free (pa + i)) else d.bytes pa n
  | _ => d.bytes pa n

/-- A read of physical memory, line by line: the bytes, and the record of the first line that fails its code. -/
def Dev.load (d : Dev) (pa n : Nat) : Dev × List Byte × Option W64 :=
  (chunks pa n).foldl (fun (acc : Dev × List Byte × Option W64) ch =>
    let r := acc.1.loadLine ch.1
    (r.1, acc.2.1 ++ r.1.value ch.1 ch.2, acc.2.2.or r.2)) (d, [], none)

/-- Bytes put where a mask names one. -/
def Memory.setMask (m : List Host.Cell) (pa : Nat) : List (Option Byte) → List Host.Cell
  | [] => m
  | none :: bs => Memory.setMask m (pa + 1) bs
  | some b :: bs => Memory.setMask (Memory.set m pa b) (pa + 1) bs

def Dev.putMask (d : Dev) (pa : Nat) (bs : List (Option Byte)) : Dev := { d with mem := Memory.setMask d.mem pa bs }

/-- The mask writes every byte of a line. -/
def wholeLine (bs : List (Option Byte)) : Bool := bs.length == 64 && bs.all Option.isSome

/-- A write within one line of DRAM at its far store (R197): the line becomes dirty, or with `through` goes to DRAM. DEDUCED
(log 92): where carve-out and queue table leave its set no way, no far-store line holds it, and the write goes to DRAM. -/
def Dev.storeDram (d : Dev) (h pa : Nat) (bs : List (Option Byte)) (through : Bool) : Dev :=
  if (d.half h).stopped ∨ (d.half h).isolated then d
  else
    let k := (d.channelOf h (pa % 2 ^ 40)).1
    if d.chanOffline k then d
    else
      let line := pa / 64
      let whole := wholeLine bs
      let blank := d.lineBlank k pa
      let old : DramLine := { data := d.bytes (line * 64) 64, poison := d.poisoned pa, blank := blank }
      let d := if whole then (d.touch h pa).1 else (d.fetchLine h pa).1
      let through := through || !(d.half h).lines.any (fun f => f.line == line)
      let d := if whole then d.clearPoison pa else d
      let d := if whole && (d.chan k).blank then d.modChan k (fun c => { c with written := lineAdd c.written line }) else d
      let d := if through ∨ (KV.find? d.dram line).isSome then d else { d with dram := KV.set d.dram line old }
      let d := d.putMask pa bs
      let d := if through then d.writeBack h line else d
      let d := d.modHalf h (fun x => { x with lines := setDirty x.lines line (!through) })
      d.watchWrite pa

/-- A write within one line. The register window is written by its own commands. -/
def Dev.storeLine (d : Dev) (pa : Nat) (bs : List (Option Byte)) (through : Bool) : Dev :=
  let clear := fun (d : Dev) => if wholeLine bs then d.clearPoison pa else d
  match d.space pa with
  | .dram h _ => d.storeDram h pa bs through
  | .near _ _ => (clear d).putMask pa bs
  | .sram => (clear d).putMask pa bs
  | .host =>
    if d.svc.dmaFail = some true then { d with svc := { d.svc with dmaFail := none } } else (clear d).putMask pa bs
  | .carve h _ =>
    if (d.half h).stopped ∨ (d.half h).isolated then d
    else ((clear d).putMask pa bs).watchWrite pa
  | _ => d

/-- Bytes written to physical memory, line by line. -/
def Dev.storeGen (d : Dev) (pa : Nat) (bs : List Byte) (through : Bool) : Dev :=
  ((chunks pa bs.length).foldl (fun (acc : Dev × List Byte) ch =>
    (acc.1.storeLine ch.1 ((acc.2.take ch.2).map some) through, acc.2.drop ch.2)) (d, bs)).1

/-- SECURE of a queue-table entry is written only by a secure agent (R244): the bit of a line's word 0 as it stands, where the
line lies in a half's queue table. -/
def Dev.keepSecure (d : Dev) (pa : Nat) (mask : List (Option Byte)) : List (Option Byte) :=
  match d.space pa with
  | .dram h _ =>
    if d.linePinned h (pa / 64) ∧ pa % 64 ≤ 7 then
      mask.modify (7 - pa % 64) (fun b => b.map (fun v => (v &&& 0xEF) ||| (d.byte (pa / 64 * 64 + 7) &&& 0x10)))
    else mask
  | _ => mask

/-- Bytes written line by line for an agent of a world. -/
def Dev.storeBy (d : Dev) (secure : Bool) (pa : Nat) (bs : List Byte) (through : Bool) : Dev :=
  ((chunks pa bs.length).foldl (fun (acc : Dev × List Byte) ch =>
    let mask := (acc.2.take ch.2).map some
    (acc.1.storeLine ch.1 (if secure then mask else acc.1.keepSecure ch.1 mask) through, acc.2.drop ch.2)) (d, bs)).1

def Dev.store (d : Dev) (pa : Nat) (bs : List Byte) : Dev := d.storeGen pa bs false

def Dev.storeWord (d : Dev) (pa : Nat) (v : W64) : Dev := d.store pa (leBytes 8 v.toNat)

/-- Far-store atomics on a 64-bit word of DRAM or carve-out (R201): 0 saturating add, 1 unsigned maximum, 2 wrapping
add. Not performed elsewhere (R200). -/
def Dev.isAtomic (d : Dev) (pa : Nat) : Bool :=
  match d.space pa with
  | .dram _ _ => pa % 8 == 0
  | .carve _ _ => pa % 8 == 0
  | _ => false

def atomicOp (op : Nat) (o a : W64) : W64 :=
  match op with
  | 0 => satAdd o a
  | 1 => if o.toNat < a.toNat then a else o
  | _ => o + a

def Dev.atomicBy (d : Dev) (secure : Bool) (op pa : Nat) (a : W64) : Dev :=
  if d.isAtomic pa then
    let d := (d.loadLine pa).1
    d.storeBy secure pa (leBytes 8 (atomicOp op (d.word pa) a).toNat) false
  else d

def Dev.atomic (d : Dev) (op pa : Nat) (a : W64) : Dev := d.atomicBy true op pa a

/-- The far store answers: an access to the address completes (R418, R423, R523). -/
def Dev.reaches (d : Dev) (pa : Nat) : Bool :=
  match d.space pa with
  | .dram h _ => !(d.half h).stopped && !(d.half h).isolated
  | .carve h _ => !(d.half h).stopped && !(d.half h).isolated
  | _ => true

/-- A read of the line completes and meets no failed code: its store answers, and the line is neither poisoned nor, in DRAM,
unwritten since full training or on an offline channel (R405, R412, R418, R423). -/
def Dev.lineClean (d : Dev) (pa : Nat) : Bool :=
  d.reaches pa && !d.poisoned pa &&
    (match d.space pa with
     | .dram h _ =>
       let cb := d.channelOf h (pa % 2 ^ 40)
       !d.chanOffline cb.1 && !d.lineBlank cb.1 pa
         && ((d.half h).lines.any (fun f => f.line == pa / 64) || d.lineDecode cb.1 cb.2 pa != .failed)
     | _ => true)

/-- The half that holds an address, for the stores of a half. -/
def Space.half : Space → Option Nat
  | .dram h _ => some h
  | .near c _ => some (c / 4)
  | .carve h _ => some h
  | _ => none

/-- An access from a half completes: its store answers, and it does not cross a drawbar that is down (R421). -/
def Dev.reachesFrom (d : Dev) (h pa : Nat) : Bool :=
  d.reaches pa && !(d.regb pgDbw 0x100 1 && (d.space pa).half.any (· != h))

/-! ### Translation (R202 to R207) -/

/-- A failed translation: the CAUSE code of FET_FAULT_INFO (R239). -/
abbrev XlatFail := Nat

structure Leaf where
  frame  : Nat
  read   : Bool
  write  : Bool
  secure : Bool
  deriving DecidableEq, Repr

/-- One entry of a table: valid, with its reserved fields zero (R204). -/
def ptEntry (e : W64) : Except XlatFail W64 :=
  if !e.bit 0 then .error 1
  else if e.field 7 5 ≠ 0 ∨ e.field 63 48 ≠ 0 then .error 2
  else .ok e

def leafOf (e : W64) (frame : Nat) : Leaf := { frame := frame, read := e.bit 1, write := e.bit 2, secure := e.bit 3 }

/-- The entries of the three levels that map a virtual address (R203), each from the entry of the level above. -/
def entryAddr1 (root : W64) (va : Nat) : Nat := root.field 47 17 * 2 ^ 17 + (va / 2 ^ 34 % 2 ^ 14) * 8
def entryAddr2 (e : W64) (va : Nat) : Nat := e.field 47 8 * 256 + (va / 2 ^ 21 % 2 ^ 13) * 8
def entryAddr3 (e : W64) (va : Nat) : Nat := e.field 47 8 * 256 + (va / 2 ^ 16 % 32) * 8

/-- The translation that the tables in memory give now (R203): the 64 KiB frame and its permissions. -/
def Dev.walk (d : Dev) (va : Nat) : Except XlatFail Leaf :=
  let root := d.reg pgSys 0x400
  if !root.bit 63 then .error 6
  else
    match ptEntry (d.word (entryAddr1 root va)) with
    | .error e => .error e
    | .ok e1 =>
      if e1.bit 4 ∨ e1.field 15 8 ≠ 0 then .error 2
      else
        match ptEntry (d.word (entryAddr2 e1 va)) with
        | .error e => .error e
        | .ok e2 =>
          if e2.bit 4 then
            if e2.field 20 8 ≠ 0 then .error 2
            else .ok (leafOf e2 (e2.field 47 16 + va / 2 ^ 16 % 32))
          else
            match ptEntry (d.word (entryAddr3 e2 va)) with
            | .error e => .error e
            | .ok e3 => if e3.field 15 8 ≠ 0 then .error 2 else .ok (leafOf e3 (e3.field 47 16))

/-- The permission checks of R205. -/
def leafCheck (l : Leaf) (write secure : Bool) : Except XlatFail Nat :=
  if write && !l.write then .error 4
  else if !write && !l.read then .error 3
  else if l.secure && !secure then .error 5
  else .ok l.frame

/-- The engines with a TLB: fetch engines 0–7, network interfaces 8 and 9, update engines 10 and 11, host BAR2 12. -/
def tlbKey (engine va : Nat) : Nat := engine * 2 ^ 32 + va / 2 ^ 16 % 2 ^ 32

/-- Why a translation gives no address: the cause of R239; a table line that fails its code, with its record; or a table that
never answers (R418, R421). -/
inductive XlatStop where
  | cause (c : XlatFail)
  | poison (ev : W64)
  | stall
  deriving DecidableEq, Repr

/-- The half whose walker an engine uses; none for the system die, whose accesses cross no drawbar (R23). -/
def engineHalf (engine : Nat) : Option Nat :=
  if engine < 8 then some (engine / 4) else if engine < 10 then some (engine - 8) else if engine < 12 then some (engine - 10) else none

def Dev.reachesBy (d : Dev) (h : Option Nat) (pa : Nat) : Bool := match h with | some h => d.reachesFrom h pa | none => d.reaches pa

/-- What walks have read of a page's table entries since the page was last invalidated differs from what memory holds. -/
def Dev.seenStale (d : Dev) (va : Nat) : Bool :=
  ((KV.find? d.ptSeen (va / 2 ^ 16 % 2 ^ 32)).getD []).any (fun r => d.word r.1 != r.2)

/-- A walk notes the entry that memory holds. -/
def Dev.noteEntry (d : Dev) (va pa : Nat) : Dev :=
  let page := va / 2 ^ 16 % 2 ^ 32
  let l := (KV.find? d.ptSeen page).getD []
  if l.contains (pa, d.word pa) then d else { d with ptSeen := KV.set d.ptSeen page (l ++ [(pa, d.word pa)]) }

/-- An entry that a walk reads through the far store of its half (R207). Where walks have read other values of it since the
page was last invalidated, a free value says which one this walk takes. -/
def Dev.readEntry (d : Dev) (h : Option Nat) (va pa : Nat) : Dev × Except XlatStop W64 :=
  if !d.reachesBy h pa then (d, .error .stall)
  else
    let r := d.loadLine pa
    match r.2 with
    | some ev => (r.1, .error (.poison ev))
    | none =>
      let d := r.1.noteEntry va pa
      let vs := (((KV.find? d.ptSeen (va / 2 ^ 16 % 2 ^ 32)).getD []).filter (fun x => x.1 == pa)).map (fun x => x.2)
      if vs.length ≤ 1 then (d, .ok (d.word pa))
      else
        let f := d.takeFree
        (f.1, .ok (vs.getD (f.2.toNat % vs.length) (d.word pa)))

/-- A walk by an engine's half through the far stores (R203, R207). -/
def Dev.walkThrough (d : Dev) (h : Option Nat) (va : Nat) : Dev × Except XlatStop Leaf :=
  let step := fun (r : Dev × Except XlatStop W64) (k : Dev → W64 → Dev × Except XlatStop Leaf) =>
    match r.2 with
    | .error e => (r.1, .error e)
    | .ok e =>
      match ptEntry e with
      | .error c => (r.1, .error (.cause c))
      | .ok e => k r.1 e
  let root := d.reg pgSys 0x400
  step (d.readEntry h va (entryAddr1 root va)) (fun d e1 =>
    if e1.bit 4 ∨ e1.field 15 8 ≠ 0 then (d, .error (.cause 2))
    else step (d.readEntry h va (entryAddr2 e1 va)) (fun d e2 =>
      if e2.bit 4 then
        if e2.field 20 8 ≠ 0 then (d, .error (.cause 2)) else (d, .ok (leafOf e2 (e2.field 47 16 + va / 2 ^ 16 % 32)))
      else step (d.readEntry h va (entryAddr3 e2 va)) (fun d e3 =>
        if e3.field 15 8 ≠ 0 then (d, .error (.cause 2)) else (d, .ok (leafOf e3 (e3.field 47 16))))))

def TlbEntry.leaf (t : TlbEntry) : Leaf := { frame := t.frame, read := t.read, write := t.write, secure := t.secure }

/-- Entries that an engine's TLB holds (R207); the host link's, which the spec does not size, as an interface's. -/
def tlbSize (engine : Nat) : Nat := if engine < 8 then 2048 else 1024

/-- A translation enters an engine's TLB; in a full one it takes the place of another, by a free value (R207). -/
def Dev.fillTlb (d : Dev) (engine va : Nat) (l : Leaf) : Dev :=
  let key := tlbKey engine va
  let mine := d.tlbs.filter (fun t => t.1 / 2 ^ 32 == engine && t.1 != key)
  let put := fun (d : Dev) => { d with tlbs := KV.set d.tlbs key { frame := l.frame, read := l.read, write := l.write, secure := l.secure } }
  if mine.length < tlbSize engine then put d
  else
    let f := d.takeFree
    match mine[f.2.toNat % mine.length]? with
    | none => put f.1
    | some v => put { f.1 with tlbs := KV.erase f.1.tlbs v.1 }

/-- What the access takes from its engine's TLB without a walk: the translation held. Where an entry has changed since a walk
read it, a free value says whether the access uses what is held (R207). -/
def Dev.tlbHit (d : Dev) (engine va : Nat) : Dev × Option Leaf :=
  match KV.find? d.tlbs (tlbKey engine va) with
  | none => (d, none)
  | some t =>
    if d.walk va = .ok t.leaf ∧ d.seenStale va = false then (d, some t.leaf)
    else
      let f := d.takeFree
      (f.1, if f.2.bit 0 then some t.leaf else none)

/-- Translation of one address by an engine (R202 to R207): by its TLB, or by a walk, which a fetch engine counts in TLB_MISSES
(R240). -/
def Dev.translate (d : Dev) (engine va : Nat) (write secure : Bool) : Dev × Except XlatStop Nat :=
  let check := fun (d : Dev) (l : Leaf) =>
    match leafCheck l write secure with
    | .error e => (d, .error (.cause e))
    | .ok f => (d, .ok (f * 2 ^ 16 + va % 2 ^ 16))
  if !d.regb pgSys 0x400 63 then (d, .error (.cause 6))
  else
    let hit := d.tlbHit engine va
    match hit.2 with
    | some l => check hit.1 l
    | none =>
      let d := if engine < 8 then hit.1.count (pgFet engine) 0x0B 1 else hit.1
      let w := d.walkThrough (engineHalf engine) va
      match w.2 with
      | .error e => (w.1, .error e)
      | .ok l => check (w.1.fillTlb engine va l) l

/-- Ranges cut at 64 KiB boundaries. -/
def pagesAux : Nat → Nat → Nat → List (Nat × Nat)
  | 0, _, _ => []
  | f + 1, va, n =>
    if n = 0 then []
    else
      let m := 65536 - va % 65536
      if n ≤ m then [(va, n)] else (va, m) :: pagesAux f (va + m) (n - m)

def pageChunks (va n : Nat) : List (Nat × Nat) := pagesAux (n / 65536 + 2) va n

def Dev.rangeOk (d : Dev) (pa n : Nat) (p : Space → Bool) : Bool :=
  (chunks pa n).all (fun c => p (d.space c.1))

/-- The registers that record the first translation fault: base offsets of the FAULT_VA word on the page (R206). Its bits above
[47:0] read zero (R239). -/
def Dev.noteFault (d : Dev) (page off : Nat) (va : Nat) (write : Bool) (cause ctx : Nat) : Dev :=
  if d.regb page (off + 8) 0 then d
  else
    let d := d.setReg page off (BitVec.ofNat 64 (va % 2 ^ 48))
    d.setReg page (off + 8) (BitVec.ofNat 64 (1 + (if write then 2 else 0) + cause * 4 + ctx * 32))

end Sys2Proof.Machine
end

