-- ==== Sys2Proof/Machine/Regs.lean ====
section
/-! DEFINITION. Register reads, with the fields that hardware computes, and the plain part of a register write (R15, R18,
R35, R465 to R480). -/

namespace Sys2Proof.Machine

/-- BLK_ID (R465, R475). -/
def blkId (b : Blk) (i : Nat) : W64 := BitVec.ofNat 64 (1 + i * 2 ^ 8 + b.type * 2 ^ 16)

/-- BLK_CAP (R465, R480). -/
def Dev.blkCap (d : Dev) (b : Blk) : W64 :=
  match b with
  | .fab => BitVec.ofNat 64 (8 + d.cap.field 50 49 * 2 ^ 8)
  | .mem => BitVec.ofNat 64 (8 + d.cap.field 53 51 * 2 ^ 8)
  | .dsp => BitVec.ofNat 64 (8 + 0x400 * 2 ^ 8)
  | .fet => BitVec.ofNat 64 (8 + 0x40 * 2 ^ 8)
  | _ => 8

/-- The block stands stopped by HALT at a halt point, or by EN = 0 (R466, R468). -/
def Dev.blkHalted (d : Dev) (b : Blk) (i page : Nat) : Bool :=
  match b with
  | .upd => !d.regb page 0x010 0 || (d.regb page 0x010 2 && (d.upd i).current.isNone)
  | .dsp => d.regb page 0x010 2 && !(d.core i).ctxs.any (fun x => x.2.state == .running)
  | .gov => d.regb page 0x010 2
  | .tbl => d.regb page 0x010 2
  | _ => false

/-- BLK_STAT.STOPPED (R418, R421, R423). -/
def Dev.blkStopped (d : Dev) (b : Blk) (i : Nat) : Bool :=
  match b with
  | .sys => (d.half 0).stopped || (d.half 1).stopped
  | .dbw => d.regb pgDbw 0x100 1
  | .mem => d.chanOffline i
  | _ => false

def bitsOf (l : List Bool) : Nat :=
  match l with
  | [] => 0
  | b :: l => (if b then 1 else 0) + 2 * bitsOf l

/-- The reserved slice in force: the static mask with the cores of every open PREEMPT window (R268). -/
def Dev.rsvSlice (d : Dev) : Nat :=
  d.fts.windows.foldl (fun a w => if w.checkpoint then a else Nat.lor a w.cores) (d.regf pgFts 0x148 7 0)

def Dev.inSlice (d : Dev) (c : Nat) : Bool := d.rsvSlice.testBit c

/-- The descriptor's opcode (R252). -/
def Desc.opc (t : Desc) : Nat := t.w0.field 7 0

/-- Speculative tasks of a core that have not retired, and the shadow lines they use (R241). -/
def Core.specs (k : Core) : List Spec := k.ctxs.filterMap (fun x => x.2.spec)
def Core.shadowLines (k : Core) : Nat := (k.specs.map (fun p => p.shadow.length)).sum

/-- The core's arrays are gated: no column group is enabled. Arrays that wait for their slot with their stop ramp halted are
not (`rampLeft` < 64). DESIGN CHOICE (log 78): such arrays read as CLOCKED and as RAMPING in ARR_STATE (R106, R109). -/
def Core.gatedNow (k : Core) : Bool := k.ramp == .gated || (k.ramp == .waitingSlot && k.rampLeft == 64)

/-- The fields that hardware computes of a block-specific register. -/
def Dev.liveReg (d : Dev) (b : Blk) (i page off : Nat) : W64 :=
  let v := d.reg page off
  let k := d.core i
  match b, off with
  | .sys, 0x100 => d.cap
  | .sys, 0x408 => 0
  | .sys, 0x618 => v &&& BitVec.ofNat 64 (2 ^ 63)
  | .sys, 0x500 => BitVec.ofNat 64 d.keys.length
  | .fts, 0x148 => v.setField 15 8 d.rsvSlice
  | .dsp, 0x110 =>
    BitVec.ofNat 64 (1024 - k.ctxs.length + (k.ctxs.filter (fun x => x.2.state == .suspended)).length * 2 ^ 16)
  | .dsp, 0x108 =>
    let q := i * 8192 + v.field 12 0
    v.setBit 63 ((d.queue? q).any (fun x => x.disabling) && k.ctxs.any (fun x => x.2.queue == q))
  | .dsp, 0x418 => BitVec.ofNat 64 (k.specs.length + k.shadowLines * 2 ^ 32)
  | .fet, 0x118 => BitVec.ofNat 64 (k.ra.filter (fun r => !r.flight)).length
  | .arr, 0x108 =>
    let clocked := if k.gatedNow then 0 else 15
    let ramping := if k.gatedNow ∨ k.ramp = .clocked then 0 else 15
    let busy := k.ctxs.foldl (fun a x =>
      if x.2.state == .running && (x.2.cur.opc == 1 || x.2.cur.opc == 2) then Nat.lor a (x.2.arrays % 16) else a) 0
    BitVec.ofNat 64 (clocked + busy * 2 ^ 4 + ramping * 2 ^ 8 + bitsOf (k.arrays.map (fun a => a.cur.valid)) * 2 ^ 12
      + bitsOf (k.arrays.map (fun a => a.shd.valid)) * 2 ^ 16)
  | .arr, _ =>
    if 0x110 ≤ off ∧ off < 0x130 then BitVec.ofNat 64 (k.arrays.getD ((off - 0x110) / 8) ArrayBuf.empty).cur.addr
    else if 0x130 ≤ off ∧ off < 0x150 then BitVec.ofNat 64 (k.arrays.getD ((off - 0x130) / 8) ArrayBuf.empty).shd.addr
    else v
  | .gov, 0x110 =>
    BitVec.ofNat 64 ((if k.gov.busy then 1 else 0) + (if k.gov.held then 2 else 0) + k.gov.idx % 65536 * 2 ^ 16)
  | .tbl, 0x108 =>
    if k.ctxs.any (fun x => x.2.state == .running && x.2.cur.opc == 4) then v.setBit 0 true else 0
  | .upd, 0x138 =>
    let u := d.upd i
    BitVec.ofNat 64 (u.arrivals.length + (if u.current.isSome then 1 else 0) + u.spillCount * 2 ^ 8
      + (if u.spillCount < 4096 then 0 else 2 ^ 21) + (if d.regb page 0x138 22 then 2 ^ 22 else 0)
      + (if u.rootRun.isSome then 2 ^ 23 else 0))
  | .pmu, 0x118 =>
    let run := [0, 1].all (fun h => !d.halfPresent h || d.running h)
    let gated := d.cores.all (fun c => c.2.gatedNow)
    if v.field 5 4 = 0 && run && gated then v.setField 5 4 1 else v
  | .mbx, _ =>
    if i = 0 ∨ off < 0x100 ∨ off % 128 ≠ 0x68 then v
    else
      let c := (i - 1) * 16 + (off - 0x100) / 128
      let g := d.reg (pgMbx 0) (0x200 + 8 * c)
      BitVec.ofNat 64 (g.field 7 0 + (if g.bit 15 then 256 else 0))
  | _, _ => v

/-! ### Mailbox places (R442 to R444) -/

/-- Mailbox agent codes. -/
def agentCode : Agent → Option Nat
  | .host => some 0
  | .fwn => some 1
  | .fws => some 2
  | .sec => some 3
  | .bmc => some 4
  | .ccp c => if c < 8 then some (5 + c) else none
  | .jtag => none
  | .task _ => none

/-- The page and the first register offset of a mailbox channel. -/
def mbxPage (c : Nat) : Nat := pgMbx (1 + c / 16)
def mbxBase (c : Nat) : Nat := 0x100 + 128 * (c % 16)

def Dev.mbxSender (d : Dev) (c : Nat) : Nat := d.regf (pgMbx 0) (0x200 + 8 * c) 3 0
def Dev.mbxReceiver (d : Dev) (c : Nat) : Nat := d.regf (pgMbx 0) (0x200 + 8 * c) 7 4
def Dev.mbxGoBit (d : Dev) (c : Nat) : Bool := d.regb (mbxPage c) (mbxBase c + 0x60) 0
def Dev.setGo (d : Dev) (c : Nat) (b : Bool) : Dev := d.setb (mbxPage c) (mbxBase c + 0x60) 0 b

/-- The agent may reach a mailbox register word: doorbells and masks by their agent or a secure one, channels by their
sender or receiver. -/
def Dev.mbxReach (d : Dev) (agent : Agent) (i off : Nat) : Bool :=
  if i = 0 then
    if 0x100 ≤ off ∧ off < 0x1D0 then d.agentSecure agent || agentCode agent == some ((off - 0x100) / 16) else true
  else if off < 0x100 ∨ 0x900 ≤ off then true
  else
    let c := (i - 1) * 16 + (off - 0x100) / 128
    agentCode agent == some (d.mbxSender c) || agentCode agent == some (d.mbxReceiver c)

/-- A page register of a unit that a wrapper instruction has left undefined (R562). -/
def Dev.undefWord (d : Dev) (page off : Nat) : Bool :=
  d.tap.undef.any (fun u => if u < 8 then pgCore u ≤ page && page ≤ pgVec u else page == pgNi (u - 8) && decide (0x800 ≤ off))

/-- A register word as a read finds it, without side effects (R18, R465 to R480). -/
def Dev.regRead (d : Dev) (page off : Nat) : W64 :=
  match pageBlk page with
  | none => 0
  | some (b, i) =>
    if !d.present page then 0
    else if d.undefWord page off then Config.undefReg d.free page off
    else
      match off with
      | 0x000 => blkId b i
      | 0x008 => d.blkCap b
      | 0x018 =>
        let halted := d.blkHalted b i page
        let init := d.regb page 0x010 1
        BitVec.ofNat 64 ((if halted then 0 else 1) + (if init then 2 else 0) + (if halted then 4 else 0)
          + (if d.blkStopped b i then 8 else 0))
      | _ => d.liveReg b i page off

/-- Page accesses of an agent take effect: the page is present, its half has left reset, and SECURE_ONLY lets the agent
in (R5, R469). DEDUCED (log 9): a half held in reset keeps its registers at their reset values. -/
def Dev.pageOpen (d : Dev) (agent : Agent) (page : Nat) : Bool :=
  d.present page && (d.agentSecure agent || !d.regb page 0x010 3)
    && (match pageHalf page with | none => d.up | some h => d.running h)

/-- A register word as an agent reads it. -/
def Dev.agentRead (d : Dev) (agent : Agent) (page off : Nat) : W64 :=
  if !d.pageOpen agent page then 0
  else
    match pageBlk page with
    | some (.mbx, i) => if d.mbxReach agent i off then d.regRead page off else 0
    | _ => d.regRead page off

/-- The bits of a word that an access writes (R35). -/
def wrLanes (w : Wr) : W64 :=
  BitVec.ofNat 64 ((if w.hi then 2 ^ 64 - 2 ^ 32 else 0) + (if w.lo then 2 ^ 32 - 1 else 0))

/-- The written value with the bits that the access does not reach at zero. -/
def wrBits (w : Wr) : W64 := w.val &&& wrLanes w

/-- A written bit is 1 and reached by the access. -/
def wrHit (w : Wr) (i : Nat) : Bool := (wrBits w).bit i

/-- The agent passes the register's own guard (R242, R289, R425, R463, R534). -/
def Dev.guardOk (d : Dev) (g : Guard) (agent : Agent) : Bool :=
  match g with
  | .anyone => true
  | .secure => d.agentSecure agent
  | .fws => agent == .fws
  | .none => false

/-- The page and the register let the agent's write in. -/
def Dev.mayWrite (d : Dev) (agent : Agent) (page off : Nat) : Bool :=
  d.pageOpen agent page &&
    (match regRow? page off with
     | none => false
     | some r => d.guardOk r.guard agent)

/-- The plain part of a register write (R15): RW fields take the written bits, RW1C bits clear where a 1 is written. -/
def Dev.plainWrite (d : Dev) (page off : Nat) (w : Wr) : Dev :=
  match regRow? page off with
  | none => d
  | some r =>
    let rw := BitVec.ofNat 64 r.rw &&& wrLanes w
    let c := BitVec.ofNat 64 r.w1c &&& wrBits w
    let v := d.reg page off
    d.setReg page off (((v &&& ~~~rw) ||| (w.val &&& rw)) &&& ~~~c)

/-- A field as a write leaves it: the written bits where the access reaches them, the old ones elsewhere. -/
def Dev.merged (d : Dev) (page off : Nat) (w : Wr) : W64 := (d.reg page off &&& ~~~wrLanes w) ||| wrBits w

end Sys2Proof.Machine
end

