-- ==== Sys2Proof/Machine/Access.lean ====
section
/-! DEFINITION. How a command of a task runs: its outcome, the demand reads and the writes of its task through the fetch
engine, with run-ahead copies, shadow lines and read sets (R206, R211 to R226, R413). -/

namespace Sys2Proof.Machine

/-- Why a command does not complete: it ends with a status and perhaps an event record, or its task must wait. -/
inductive Stop where
  | fail (status : Nat) (event : W64)
  | hold (w : WaitFor)
  deriving DecidableEq, Repr

def BlockAcc.zeroed : BlockAcc :=
  { elems := 0, zero := 0, uf := 0, sat := 0, nonfin := 0, err := 0, tdrx := 0, absmax := 0, hist := [],
    nanOut := none, fmt := 0 }

def Tally.zeroed : Tally := { whole := BlockAcc.zeroed, blocks := [], digest := 0, seen := 0 }

/-- Bytes that the command has written to a line of virtual memory and that have not yet left the core. -/
structure WLine where
  va   : Nat
  data : List (Option Byte)
  deriving DecidableEq, Repr

/-- A running command: the machine, the lines its operand reads have brought in, its writes in order of first write, its
tally, the first event record that it carries into the completion record, and the excess outlier rows of its passes. -/
structure Run where
  dev   : Dev
  memo  : List (Nat × List Byte)
  wbuf  : List WLine
  tally : Tally
  event : W64
  excess : List (Nat × List Nat)
  deriving DecidableEq, Repr

def Run.start (d : Dev) : Run := { dev := d, memo := [], wbuf := [], tally := Tally.zeroed, event := 0, excess := [] }

abbrev M := ExceptT Stop (StateM Run)

def fail {α : Type} (status : Nat) : M α := throw (.fail status 0)
/-- An invalid-descriptor completion (R251). -/
def invalid {α : Type} : M α := fail 0x01
def require (b : Bool) : M Unit := if b then pure () else invalid

def getDev : M Dev := do return (← get).dev
def setDev (d : Dev) : M Unit := modify (fun r => { r with dev := d })
def modDev (f : Dev → Dev) : M Unit := modify (fun r => { r with dev := f r.dev })

/-- An event that a command raises and carries into its task's completion record. -/
def raiseCarried (page code qual addr : Nat) : M Unit :=
  modify (fun r =>
    let ev := eventRecord page code qual
    { r with dev := r.dev.raise page code qual addr, event := if r.event = 0 then ev else r.event })

/-- The task for which a unit works; with `remote` its writes go to a fabric peer (R377). With `phys` system-die firmware
works, and addresses are physical (R202). -/
structure Who where
  core   : Nat
  ctx    : Nat
  secure : Bool
  remote : Bool := false
  phys   : Bool := false
  deriving DecidableEq, Repr

/-- The queue-table entry of a queue (R243). -/
def Dev.queueEntry (d : Dev) (q : Nat) : Nat :=
  let h := q / 32768
  d.regf pgSys (0x430 + 8 * h) 47 21 * 2 ^ 21 + q % 32768 * 64

def Dev.qword (d : Dev) (q i : Nat) : W64 := d.word (d.queueEntry q + 8 * i)

/-- SECURE of the queue's entry (R244). -/
def Dev.queueSecure (d : Dev) (q : Nat) : Bool := (d.qword q 0).bit 60

def Dev.whoOf (d : Dev) (core ctx : Nat) : Who :=
  { core := core, ctx := ctx, secure := match d.ctx? core ctx with | some t => d.queueSecure t.queue | none => false }

def currentCtx (w : Who) : M (Option Ctx) := do return (← getDev).ctx? w.core w.ctx

/-- The queue of a task. -/
def Dev.queueOf (d : Dev) (w : Who) : Nat :=
  match d.ctx? w.core w.ctx with
  | some t => t.queue
  | none => 0

/-- The task is speculative and still records its writes (R226). -/
def Dev.specOf (d : Dev) (w : Who) : Option Spec :=
  match d.ctx? w.core w.ctx with
  | some t => t.spec
  | none => none

/-! ### Translation for a task -/

/-- Translation of a demand access; a failure is recorded and ends the command (R206). DESIGN CHOICE (log 15): a table line that
fails its code ends the command as its data would. -/
def xlat (w : Who) (va : Nat) (write : Bool) : M Nat := do
  if w.phys then return va
  let d ← getDev
  let r := d.translate w.core va write w.secure
  match r.2 with
  | .ok pa => setDev r.1; return pa
  | .error (.cause c) =>
    let page := pgFet w.core
    setDev ((r.1.noteFault page 0x108 va write c w.ctx).setIsr page 3)
    fail 0x02
  | .error (.poison ev) => setDev r.1; throw (.fail 0x04 ev)
  | .error .stall => setDev r.1; throw (.hold .backPressure)

/-! ### Demand reads -/

def raOf (d : Dev) (w : Who) (line : Nat) : Option RaCopy :=
  (d.core w.core).ra.find? (fun r => r.ctx == w.ctx && r.line == line)

/-- A region's cursor after a demand read of a line (R211). -/
def Region.demand (r : Region) (va : Nat) : Region :=
  let line := va / 64
  if line * 64 < r.base ∨ line * 64 ≥ r.base + r.extent then r
  else
    let down : Bool := match r.lastLine with
      | some l => decide (line < l)
      | none => false
    let back : Bool := r.dir == 1 || (r.dir == 2 && down)
    { r with lastLine := some line, descends := down,
             stop := r.stop.filter (fun l => if back then decide (l < line) else decide (line < l)),
             cursor := if back then (if line = 0 then none else some (line - 1)) else some (line + 1) }

def noteDemand (w : Who) (va : Nat) : M Unit :=
  modDev (fun d => d.modCtx w.core w.ctx (fun t => { t with regions := t.regions.map (fun r => r.demand va) }))

/-- Watched regions of the core that a line read overlaps enter a speculative task's read set (R220). -/
def noteReadSet (w : Who) (pa : Nat) : M Unit :=
  modDev (fun d =>
    d.modCtx w.core w.ctx (fun t =>
      match t.spec with
      | none => t
      | some p =>
        let hits := (List.range 64).filter (fun i => d.watchHits w.core i pa)
        { t with spec := some { p with readSet := hits.foldl lineAdd p.readSet } }))

/-- A word of the register window as an agent reads it: pages with aligned 32-bit or 64-bit accesses, doorbells with
64-bit ones (R34, R35, R247). -/
def Dev.windowRead (d : Dev) (agent : Agent) (off n : Nat) : List Byte :=
  if off < 0x8000000 then
    let page := off / 4096
    if (n = 8 ∨ n = 4) ∧ off % n = 0 then
      let v := (d.agentRead agent page (off % 4096 / 8 * 8)).toNat
      leBytes n (if off % 8 = 4 then v / 2 ^ 32 else v)
    else List.replicate n 0
  else if off < 0x8080000 then
    let q := (off - 0x8000000) / 8
    if n = 8 ∧ off % 8 = 0 ∧ d.corePresent (q / 8192) ∧ (d.agentSecure agent || !d.queueSecure q) then
      leBytes 8 ((d.qword q 1).field 31 0 + (d.qword q 3).field 63 32 * 2 ^ 32)
    else List.replicate n 0
  else List.replicate n 0

/-- A read of SEC_RAND draws from the DRBG unless it is stopped (R499, R507). -/
def Dev.drawRand (d : Dev) : Dev × W64 :=
  if d.regb pgSec 0x148 1 || !d.regb pgSec 0x148 0 then (d, 0)
  else ({ d with sec := { d.sec with drbgCount := d.sec.drbgCount + 1 } }, Config.drbg d.sec.drbgCount)

/-- A read of the register window with its effect. -/
def Dev.windowLoad (d : Dev) (agent : Agent) (off n : Nat) : Dev × List Byte :=
  if off / 8 * 8 = 0x2150 ∧ (n = 8 ∨ n = 4) ∧ off % n = 0 ∧ d.pageOpen agent pgSec then
    let r := d.drawRand
    (r.1, leBytes n (if off % 8 = 4 then r.2.toNat / 2 ^ 32 else r.2.toNat))
  else (d, d.windowRead agent off n)

def mergeMask (old : List Byte) (mask : List (Option Byte)) : List Byte :=
  (old.zip mask).map (fun p => p.2.getD p.1)

/-- What a task reads from reserved space: zero from a half's DRAM that is not READY (R402); elsewhere no rule says, and the
bytes are free values (log 17). -/
def readReserved (pa n : Nat) : M (List Byte) := do
  let d ← getDev
  if pa < 0x020000000000 ∧ d.halfPresent (pa / 2 ^ 40) ∧ !d.dramReady (pa / 2 ^ 40) then return List.replicate n 0
  let words := (List.range (n / 8 + 1)).map (fun i => Config.freeValue (d.free + i))
  setDev { d with free := d.free + n / 8 + 1 }
  return (words.flatMap (fun v => leBytes 8 v.toNat)).take n

/-- Bytes as the task sees them behind the writes that wait for room (R228). -/
def Spec.overlay (p : Spec) (pa : Nat) (bs : List Byte) : List Byte :=
  p.excess.foldl (fun bs o =>
    match o with
    | .line l mask => if l / 64 = pa / 64 then mergeMask bs ((mask.drop (pa % 64)).take bs.length) else bs
    | _ => bs) bs

def Dev.overlay (d : Dev) (w : Who) (pa : Nat) (bs : List Byte) : List Byte :=
  match d.specOf w with
  | some p => p.overlay pa bs
  | none => bs

/-- The store is the core's own near store, which shadow lines leave alone (R226). -/
def Dev.ownNear (d : Dev) (w : Who) (pa : Nat) : Bool := match d.space pa with | .near c _ => c == w.core | _ => false

/-- The shadow line that a task's reads of a line return (R226). -/
def Dev.shadowOf (d : Dev) (w : Who) (pa : Nat) : Option ShadowLine :=
  if d.ownNear w pa then none else (d.specOf w).bind (fun p => p.shadow.find? (fun l => l.line == pa / 64))

/-- An access of the task's core completes, or the task waits for good (R418, R421). -/
def reach (w : Who) (pa : Nat) : M Unit := do
  let d ← getDev
  if !(if w.phys then d.reaches pa else d.reachesFrom (w.core / 4) pa) then throw (.hold .backPressure)

/-- A read of a line at its store; failed data ends the command with its record (R413). -/
def loadAt (pa n : Nat) : M (List Byte) := do
  let r := (← getDev).loadLine pa
  setDev r.1
  match r.2 with
  | some ev => throw (.fail 0x04 ev)
  | none => return r.1.value pa n

/-- A demand read that finds the task's copy uses it; a read still in flight is waited for, and answers now (R214, R216). -/
def useCopy (w : Who) (pa n : Nat) (c : RaCopy) : M (List Byte) := do
  let line := pa / 64
  modDev (fun d => (d.count (pgFet w.core) 0x02 1).count (pgFet w.core) 0x03 (if c.flight then 1 else 0))
  let bs ← if c.flight then loadAt (line * 64) 64 else pure c.data
  modDev (fun d => d.modCore w.core (fun k =>
    { k with ra := k.ra.map (fun r => if r.ctx == w.ctx && r.line == line then { r with used := true, flight := false, data := bs } else r) }))
  return (bs.drop (pa % 64)).take n

/-- A demand read of n bytes within one line at a physical address. -/
def readLine (w : Who) (va pa n : Nat) : M (List Byte) := do
  reach w pa
  let d ← getDev
  let sp := d.space pa
  let cached := match sp with | .dram _ _ => true | .carve _ _ => true | _ => false
  if cached then modDev (fun d => d.count (pgFet w.core) 0x06 1)
  noteDemand w va
  match d.shadowOf w pa with
  | some l => return d.overlay w pa ((l.data.drop (pa % 64)).take n)
  | none =>
    if cached then noteReadSet w pa
    match if cached then raOf d w (pa / 64) else none with
    | some c => return d.overlay w pa (← useCopy w pa n c)
    | none =>
      match sp with
      | .window off =>
        let r := (← getDev).windowLoad (.task w.secure) off n
        setDev r.1
        return r.2
      | .reserved => readReserved pa n
      | _ => return d.overlay w pa (← loadAt pa n)

/-- Demand reads of virtual memory, line by line. -/
def vread (w : Who) (va n : Nat) : M (List Byte) :=
  (pageChunks va n).foldlM (fun (acc : List Byte) (pc : Nat × Nat) => do
    let pa ← xlat w pc.1 false
    (chunks pa pc.2).foldlM (fun (acc : List Byte) (ch : Nat × Nat) => do
      let bs ← readLine w (pc.1 + (ch.1 - pa)) ch.1 ch.2
      return acc ++ bs) acc) []

/-- A line of an operand, brought in once for the whole command. -/
def lineOf (w : Who) (line : Nat) : M (List Byte) := do
  match KV.find? (← get).memo line with
  | some bs => return bs
  | none =>
    let bs ← vread w (line * 64) 64
    modify (fun r => { r with memo := KV.set r.memo line bs })
    return bs

/-- Bytes of an operand: each line is read once. -/
def oread (w : Who) (va n : Nat) : M (List Byte) :=
  (chunks va n).foldlM (fun (acc : List Byte) (ch : Nat × Nat) => do
    let bs ← lineOf w (ch.1 / 64)
    return acc ++ (bs.drop (ch.1 % 64)).take ch.2) []

def oreadNat (w : Who) (va n : Nat) : M Nat := do return leNat (← oread w va n)

/-- n bits from bit `bit` of the byte at `va` on (R160). -/
def oreadBits (w : Who) (va bit n : Nat) : M Nat := do
  let a := va + bit / 8
  let v ← oreadNat w a ((bit % 8 + n + 7) / 8)
  return v / 2 ^ (bit % 8) % 2 ^ n

/-- The operands read so far are no longer held, so that later reads go to memory again. -/
def dropMemo : M Unit := modify (fun r => { r with memo := [] })

/-! ### Writes -/

def emptyLine : List (Option Byte) := List.replicate 64 none

def wbufLine (b : List WLine) (line : Nat) : List (Option Byte) :=
  match b.find? (fun l => l.va == line) with
  | some l => l.data
  | none => emptyLine

def wbufPut (b : List WLine) (line off : Nat) (v : Byte) : List WLine :=
  if b.any (fun l => l.va == line) then
    b.map (fun l => if l.va = line then { l with data := l.data.set off (some v) } else l)
  else b ++ [{ va := line, data := emptyLine.set off (some v) }]

/-- A byte written to virtual memory by the command; it leaves with its line. -/
def vputByte (va : Nat) (v : Byte) : M Unit := modify (fun r => { r with wbuf := wbufPut r.wbuf (va / 64) (va % 64) v })

def vput (va : Nat) : List Byte → M Unit
  | [] => pure ()
  | b :: bs => do vputByte va b; vput (va + 1) bs

/-- A byte as the task sees it behind its own writes, without a demand read: what a partial write merges into. What a
peer's byte holds is a free value. -/
def vpeek (w : Who) (va : Nat) : M Byte := do
  let r ← get
  match (wbufLine r.wbuf (va / 64)).getD (va % 64) none with
  | some b => return b
  | none =>
    if w.remote then
      let f := r.dev.takeFree
      setDev f.1
      return f.2.setWidth 8
    match r.dev.walk va with
    | .error _ => return 0
    | .ok l =>
      let pa := l.frame * 65536 + va % 65536
      let b := match r.dev.shadowOf w pa with
        | some l => l.data.getD (pa % 64) 0
        | none => r.dev.byte pa
      return (r.dev.overlay w pa [b]).getD 0 b

/-- n bits written from bit `bit` of the byte at `va` on; the other bits of their bytes keep their values (R162). -/
def vputBits (w : Who) (va bit n v : Nat) : M Unit :=
  if bit % 8 = 0 ∧ n % 8 = 0 then vput (va + bit / 8) (leBytes (n / 8) v)
  else
    (List.range n).forM (fun i => do
      let a := va + (bit + i) / 8
      let old ← vpeek w a
      let k := (bit + i) % 8
      let m : Byte := BitVec.ofNat 8 (2 ^ k)
      vputByte a (if v.testBit i then old ||| m else old &&& ~~~m))

/-- Copies of a written line that any task of the core holds are invalidated (R215). -/
def Dev.dropCopies (d : Dev) (core line : Nat) : Dev :=
  let gone := (d.core core).ra.filter (fun r => r.line == line)
  if gone.isEmpty then d
  else
    (d.modCore core (fun k => { k with ra := k.ra.filter (fun r => r.line != line) })).count (pgFet core) 0x04
      (gone.filter (fun r => !r.used)).length

/-- Every run-ahead copy of a task is discarded (R215). -/
def Dev.dropTaskCopies (d : Dev) (core ctx : Nat) : Dev :=
  let gone := (d.core core).ra.filter (fun r => r.ctx == ctx)
  if gone.isEmpty then d
  else
    (d.modCore core (fun k => { k with ra := k.ra.filter (fun r => r.ctx != ctx) })).count (pgFet core) 0x04
      (gone.filter (fun r => !r.used)).length

/-- Lines that the shadow area of a core holds (R228). -/
def Dev.shadowRoom (d : Dev) (core : Nat) : Nat :=
  let n := d.regf (pgDsp core) 0x408 7 0 * 1024
  if n > 131072 then 131072 else n

/-- A write of the task has found no room in the shadow area, and what follows waits with it (R228). -/
def Dev.waitsRoom (d : Dev) (w : Who) : Bool := (d.specOf w).any (fun p => !p.excess.isEmpty)

/-- Operations that wait for room, after those that wait already. -/
def pend (w : Who) (ops : List PendOp) : M Unit :=
  modDev (fun d => d.modCtx w.core w.ctx (fun t => { t with spec := t.spec.map (fun p => { p with excess := p.excess ++ ops }) }))

/-- The shadow line of a destination as it is, or as a fill reads it (R226). -/
def shadowData (w : Who) (pa : Nat) : M (List Byte) := do
  match (← getDev).shadowOf w pa with
  | some l => return l.data
  | none =>
    noteReadSet w pa
    loadAt (pa / 64 * 64) 64

/-- A write of a speculative task goes to its shadow line, filled first when the write is partial (R226). A write that needs
a new line and finds the shadow area full waits with those after it, and the task decides (R228, R233). -/
def shadowWrite (w : Who) (pa : Nat) (mask : List (Option Byte)) : M Unit := do
  let d ← getDev
  let line := pa / 64
  let set := fun (f : Spec → Spec) => modDev (fun d => d.modCtx w.core w.ctx (fun t => { t with spec := t.spec.map f }))
  match d.shadowOf w pa with
  | some l =>
    let new : ShadowLine := { line := line, data := mergeMask l.data mask }
    set (fun p => { p with shadow := p.shadow.map (fun x => if x.line = line then new else x) })
  | none =>
    if (d.core w.core).shadowLines ≥ d.shadowRoom w.core then
      set (fun p => { p with excess := [.line (line * 64) mask], state := .deciding, atCommand := false })
    else
      let old ← if wholeLine mask then pure (List.replicate 64 0) else shadowData w pa
      set (fun p => { p with shadow := p.shadow ++ [{ line := line, data := mergeMask old mask }] })

/-- 64-bit and 32-bit writes to the register window, taken at the end of the command. -/
def windowWrites (secure : Bool) (off : Nat) (mask : List (Option Byte)) : List BusWrite :=
  (List.range 8).filterMap (fun i =>
    let part := (mask.drop (8 * i)).take 8
    let lo := (part.take 4).all Option.isSome
    let hi := (part.drop 4).all Option.isSome
    if !lo && !hi then none
    else some { offset := off / 64 * 64 + 8 * i + (if lo then 0 else 4),
                wr := { agent := .task secure, hi := hi, lo := lo,
                        val := BitVec.ofNat 64 (leNat (part.map (fun b => b.getD 0))) } })

/-- Bytes of one line written at the line's physical address. -/
def writeAt (w : Who) (pa : Nat) (data : List (Option Byte)) : M Unit := do
  reach w pa
  let d ← getDev
  let data := if w.secure then data else d.keepSecure pa data
  match d.space pa with
  | .window off =>
    let ws := windowWrites w.secure off data
    if d.waitsRoom w then pend w (ws.map (fun b => .window b.offset b.wr)) else setDev { d with bus := d.bus ++ ws }
  | .reserved => pure ()
  | .unbacked => pure ()
  | _ =>
    if d.waitsRoom w then pend w [.line pa data]
    else if (d.specOf w).isSome && !d.ownNear w pa then shadowWrite w pa data
    else setDev ((d.storeLine pa data false).dropCopies w.core (pa / 64))

/-- A word that the dispatcher or the tally unit reads for a task: behind its own writes, from no run-ahead copy (R229). -/
def readWord (w : Who) (va : Nat) : M W64 := do
  let pa ← xlat w va false
  reach w pa
  let d ← getDev
  let word := fun (bs : List Byte) => BitVec.ofNat 64 (leNat (d.overlay w pa bs))
  match d.shadowOf w pa with
  | some l => return word ((l.data.drop (pa % 64)).take 8)
  | none =>
    noteReadSet w pa
    match d.space pa with
    | .window off =>
      let r := (← getDev).windowLoad (.task w.secure) off 8
      setDev r.1
      return BitVec.ofNat 64 (leNat r.2)
    | .reserved => return word (← readReserved pa 8)
    | _ => return word (← loadAt pa 8)

/-- One buffered line written to its destination. -/
def writeOut (w : Who) (l : WLine) : M Unit := do
  let pa ← xlat w (l.va * 64) true
  writeAt w pa l.data

/-- All buffered lines leave in the order of their first write. -/
def flushWrites (w : Who) : M Unit := do
  let b := (← get).wbuf
  modify (fun r => { r with wbuf := [] })
  b.forM (writeOut w)

/-! ### What a task's command waits for outside its core (R222, R377, R389) -/

def sameTask (core ctx : Nat) (t : TxFrame) : Bool := t.core == core && t.ctx == ctx

/-- Nothing of the task is open at its interface. -/
def Dev.netQuiet (d : Dev) (core ctx : Nat) : Bool :=
  let x := d.ni (core / 4)
  !(x.txq ++ x.unacked).any (sameTask core ctx) && !(x.colls ++ x.waiting).any (fun c => c.core == core && c.ctx == ctx)

/-- No arrival of the task waits at an update engine. -/
def Dev.arrivalsIn (d : Dev) (c x : Nat) : Bool :=
  (List.range 2).all (fun h => !(d.upd h).waiting.any (fun a => a.who == some (c, x)))

/-- Nothing of the task is open at its interface any more: the command that it runs is done, and a FENCE or a SIGNAL that waited
for that is ready again (R222). -/
def Dev.opFinished (d : Dev) (core ctx : Nat) : Dev :=
  let net := d.netQuiet core ctx
  let upd := d.arrivalsIn core ctx
  d.modCtx core ctx (fun t =>
    let done := if t.cur.opc = 5 ∨ t.cur.opc = 6 then net else if t.cur.opc = 7 then upd else net && upd
    if !done then t
    else if t.state = .waiting ∧ t.waitFor = .fence then { t with state := .ready, waitFor := .none }
    else if t.state = .running ∧ t.spec.all (fun p => p.state == .committed) then { t with opDone := true }
    else t)

/-! ### Named addresses (R213, R228, R347) -/

/-- The ranges of a core's near store that no command may name: the run-ahead buffer, the shadow area, and for commands
other than TABLE the staging area. -/
def Dev.keptRanges (d : Dev) (c : Nat) (table : Bool) : List (Nat × Nat) :=
  let ra := min (d.regf (pgFet c) 0x100 6 1) 32 * 0x40000
  let sh := d.regf (pgDsp c) 0x408 7 0 * 0x10000
  let st := min (d.regf (pgTbl c) 0x100 9 6) 8 * 0x40000
  let base := nearBase c
  [(base + 0x2800000 - ra, ra), (d.regf (pgDsp c) 0x400 47 16 * 2 ^ 16, sh)]
    ++ (if table then [] else [(base + 0x4000000 - st, st)])

def overlaps (a n b m : Nat) : Bool := 0 < n && 0 < m && a < b + m && b < a + n

/-- A range of virtual addresses meets a kept range of a near store. -/
def Dev.namesKept (d : Dev) (va n : Nat) (table : Bool) : Bool :=
  (pageChunks va n).any (fun pc =>
    match d.walk pc.1 with
    | .error _ => false
    | .ok l =>
      let pa := l.frame * 65536 + pc.1 % 65536
      match d.space pa with
      | .near c _ => (d.keptRanges c table).any (fun k => overlaps pa pc.2 k.1 k.2)
      | _ => false)

/-- A command names a range of virtual addresses: rejected where it lies in a kept range of a near store. -/
def nameRange (va n : Nat) (table : Bool) : M Unit := do require !(← getDev).namesKept va n table

/-- Every page of a range lies in a kind of store, as the rule that names the operand requires. A page that does not
translate is left to the demand access. -/
def Dev.pagesIn (d : Dev) (va n : Nat) (p : Space → Bool) : Bool :=
  (pageChunks va n).all (fun pc =>
    match d.walk pc.1 with
    | .error _ => true
    | .ok l => p (d.space (l.frame * 65536 + pc.1 % 65536)) && p (d.space (l.frame * 65536 + pc.1 % 65536 + pc.2 - 1)))

def rangeIn (va n : Nat) (p : Space → Bool) : M Bool := do return (← getDev).pagesIn va n p

def inOwnCoreStore (w : Who) : Space → Bool
  | .near c o => c == w.core && o < 0x2800000
  | _ => false

def inCoreStore : Space → Bool
  | .near _ o => o < 0x2800000
  | _ => false

def inDram : Space → Bool
  | .dram _ _ => true
  | _ => false

def inDramOrCarve : Space → Bool
  | .dram _ _ => true
  | .carve _ _ => true
  | _ => false

/-- A physical address as the page table gives it now. -/
def Dev.physOf (d : Dev) (va : Nat) : Option Nat :=
  match d.walk va with
  | .ok l => some (l.frame * 65536 + va % 65536)
  | .error _ => none

end Sys2Proof.Machine
end

