-- ==== Sys2Proof/Machine/Flags.lean ====
section
/-! DEFINITION. The tally unit: statistics of conversions, their flush, the flags BLK_OVF, BLK_UF and BLK_NONFINITE, and
tensor watch (R111 to R125, R551 to R553). -/

namespace Sys2Proof.Machine

/-! ### Steering states and envelopes (R112, R113, R115, R126 to R128) -/

def steerOf (va : Nat) (w0 w1 w2 : W64) : Steer :=
  { va := va, tid := w0.field 15 0, role := w0.field 17 16, nblk := w0.field 63 32, layer := w1.field 15 0,
    epoch := w1.field 63 16, scaleFmt := w2.field 5 0, ncols := w2.field 63 32 }

def envelopeOf (w0 w1 w2 : W64) : Envelope :=
  { cls := w0.field 1 0, family := w0.field 2 2, wMin := w0.field 10 8, wMax := w0.field 13 11, aMin := w0.field 18 16,
    aMax := w0.field 21 19, hyst := w0.field 31 24, tSatHi := w1.field 15 0, tSatLo := w1.field 31 16,
    tUfHi := w1.field 47 32, tUfLo := w1.field 63 48, tErrHi := w2.field 15 0, tErrLo := w2.field 31 16 }

/-- R128. -/
def Envelope.invalid (e : Envelope) : Bool :=
  let low := if e.family = 1 then 2 else 0
  let codeBad := fun c => decide (c > 4 ∨ c < low)
  decide (e.wMin > e.wMax) || decide (e.aMin > e.aMax) || codeBad e.wMin || codeBad e.wMax || codeBad e.aMin
    || codeBad e.aMax || (e.cls == 0 && e.wMax > 3) || e.hyst == 0 || decide (e.tSatLo > e.tSatHi)
    || decide (e.tUfLo > e.tUfHi) || decide (e.tErrLo > e.tErrHi)

/-- The ladder of a state as format codes by width code (R115). -/
def ladder (cls family role : Nat) : List (Nat × Nat) :=
  if cls = 2 then [(4, 0x01)]
  else if family = 0 then [(0, 0x10), (1, 0x11), (2, 0x13), (3, 0x17), (4, 0x1F)]
  else if role = 2 then [(2, 0x07), (3, 0x04), (4, 0x01)]
  else [(2, 0x07), (3, 0x03), (4, 0x01)]

def onLadder (l : List (Nat × Nat)) (fmt : Nat) : Bool := l.any (fun p => p.2 == fmt)

/-- The exponent k of the bound U = 2^-k of R115, where the format has one. `grad` marks a gradient that steering carries by the
float family. DESIGN CHOICE (log 85): a float-family gradient of a Wide layer, whose ladder is BF16 alone, keeps the table's
2^-4; the exceptions of R115 for BF16 and for float gradients overlap there. -/
def uBound (fmt : Nat) (grad : Bool) : Option Nat :=
  match fmt with
  | 0x11 => some 1
  | 0x13 => some 2
  | 0x17 => some 4
  | 0x1F => some 8
  | 0x03 => some 2
  | 0x04 => if grad then some 2 else none
  | 0x01 => some (if grad then 3 else 4)
  | _ => none

/-- Offset of a block's statistics record from the steering state (R112). -/
def Steer.record (s : Steer) (bank b : Nat) : Nat :=
  let bank0 := (0x40 + 8 * s.nblk + 63) / 64 * 64
  s.va + bank0 + bank * 320 * s.nblk + 320 * b

/-! ### One element (R117 to R120) -/

/-- |x| as the FP32 pattern of ABSMAX. -/
def absBits (x : FVal) : Nat :=
  match x with
  | .num _ n d => enc32 (.num false n d)
  | _ => 0

/-- The bin of R120 for a finite non-zero magnitude times 2^shift. -/
def histBin (n d : Nat) (shift : Int) : Nat :=
  let b := FVal.floorLog2 n d + shift + 16
  if b < 0 then 0 else if b > 31 then 31 else b.toNat

/-- The error proxy of R119: the result with its scale lies further from the source than U allows. -/
def errProxy (u : Option Nat) (x y : FVal) (r : Report) : Bool :=
  match u, x with
  | some k, .num _ n d =>
    if n = 0 ∨ r.sat ∨ r.uf ∨ r.zero ∨ y.isZero then false
    else FVal.lt (FVal.mul (.num false 1 (2 ^ k)) (.num false n d)) (FVal.abs (FVal.sub y x))
  | _, _ => false

def bumpHist (h : List (Nat × Nat)) (bin : Nat) : List (Nat × Nat) := KV.set h bin (KV.get 0 h bin + 1)

/-- An element added to a record (R118): the source x, its report, the result value y with its scale, the bound U, the shift of
the histogram, and whether the converted value was a NaN that its format cannot hold (R66). ZERO and NONFIN count sources; SAT
and UF count what R65 reports, UF also a source that is not zero and comes out as one (log 80). -/
def BlockAcc.add (a : BlockAcc) (fmt : Nat) (x y : FVal) (r : Report) (u : Option Nat) (shift : Int) (nanOut : Bool) : BlockAcc :=
  let b1 := fun (c : Bool) => if c then 1 else 0
  let fin := match x with | .num .. => true | _ => false
  { elems := a.elems + 1, zero := a.zero + b1 x.isZero, uf := a.uf + b1 (r.uf || (fin && !x.isZero && r.zero)), sat := a.sat + b1 r.sat,
    nonfin := a.nonfin + b1 !fin, err := a.err + b1 (errProxy u x y r), tdrx := a.tdrx,
    absmax := max a.absmax (absBits x),
    hist := match x with
      | .num _ n d => if n = 0 then a.hist else bumpHist a.hist (histBin n d shift)
      | _ => a.hist,
    nanOut := a.nanOut.or (if nanOut then some fmt else none), fmt := fmt }

/-- The mixing function of tensor watch (R552). -/
def mix (x : W64) : W64 :=
  let x := x ^^^ (x >>> 32)
  let x := x * 0xB7E151632F4A9D5B
  let x := x ^^^ (x >>> 29)
  let x := x * 0x8C2D71E94A3F06C7
  x ^^^ (x >>> 32)

def watchHash (e : Int) (v : Nat) : W64 := mix (mix (BitVec.ofInt 64 e) ^^^ BitVec.ofNat 64 v)

/-- An element that the tally unit sees, with its block in a steered destination (R117): the source x, and the value z that
was converted, which differs from x where the destination has a scale (R590). -/
def tallyElem (fmt : Nat) (x z y : FVal) (code : Nat) (r : Report) (grad : Bool) (shift e : Int) (blk : Option Nat) : M Unit :=
  modify (fun run =>
    let f := (Fmt.ofCode fmt).getD .e8m0
    let nanOut := z.isNan && !f.hasNan
    let u := uBound fmt grad
    let t := run.tally
    let add := fun (a : BlockAcc) => a.add fmt x y r u shift nanOut
    { run with tally :=
        { whole := add t.whole,
          blocks := match blk with | some b => KV.set t.blocks b (add (KV.get BlockAcc.zeroed t.blocks b)) | none => t.blocks,
          digest := t.digest + watchHash e code, seen := t.seen + 1 } })

/-! ### The flush (R121, R122, R537, R538) -/

/-- The words of a record that a flush adds to: byte offsets and addends. -/
def BlockAcc.words (a : BlockAcc) : List (Nat × Nat) :=
  [(0x08, a.elems), (0x10, a.zero), (0x18, a.uf), (0x20, a.sat), (0x28, a.nonfin), (0x30, a.err), (0x38, a.tdrx)]
    ++ a.hist.map (fun p => (0x40 + 8 * p.1, p.2))

/-- A far-store atomic of a task at a physical address; the word before and after. DEDUCED (log 88): one of a speculative task
is a write of the task, so it works on the shadow line (R226). -/
def atomicAt (w : Who) (op pa : Nat) (v : W64) : M (W64 × W64) := do
  reach w pa
  let d ← getDev
  if (d.specOf w).isNone ∨ !d.isAtomic pa then
    setDev ((d.atomicBy w.secure op pa v).dropCopies w.core (pa / 64))
    return (d.word pa, (← getDev).word pa)
  else
    let at' := fun (l : List Byte) => BitVec.ofNat 64 (leNat (d.overlay w pa ((l.drop (pa % 64)).take 8)))
    let line ← shadowData w pa
    let old := at' line
    let new := atomicOp op old v
    if d.waitsRoom w then pend w [.atomic op pa v]
    else writeAt w (pa / 64 * 64) (emptyLine.take (pa % 64) ++ (leBytes 8 new.toNat).map some ++ emptyLine.drop (pa % 64 + 8))
    return (old, new)

/-- The same at a virtual address. -/
def vatomic (w : Who) (op va : Nat) (v : W64) : M (W64 × W64) := do
  let pa ← xlat w va true
  atomicAt w op pa v

def flushRecord (w : Who) (va : Nat) (a : BlockAcc) : M Unit := do
  let _ ← vatomic w 1 va (BitVec.ofNat 64 a.absmax)
  a.words.forM (fun p => do
    if p.2 ≠ 0 then
      let r ← vatomic w 0 (va + p.1) (BitVec.ofNat 64 p.2)
      let d ← getDev
      if r.2.bit 63 && !r.1.bit 63 && d.regb (pgTly w.core) 0x058 1 then
        modDev (fun d => d.raise (pgTly w.core) 0x0702 (2 * 2 ^ 28 + p.1) 0))
  modDev (fun d => d.count (pgTly w.core) 0x02 1)

/-- The flags of the steered blocks of a command (R123, R124) and of conversions of a NaN (R66), in the order of R472. -/
def flagsOf (t : Tally) : List Nat :=
  let ovf := t.blocks.filterMap (fun p =>
    if p.2.sat = 0 then none
    else some (0x0101 * 2 ^ 32 + (if p.2.sat + p.2.zero = p.2.elems then 2 ^ 31 else 0) + p.2.fmt * 2 ^ 24 + p.1 % 2 ^ 24))
  let uf := t.blocks.filterMap (fun p =>
    if p.2.elems = 0 ∨ p.2.zero = p.2.elems ∨ p.2.zero + p.2.uf ≠ p.2.elems then none
    else some (0x0102 * 2 ^ 32 + p.2.fmt * 2 ^ 24 + p.1 % 2 ^ 24))
  let nan := if t.blocks.isEmpty then (match t.whole.nanOut with | some f => [0x0103 * 2 ^ 32 + f * 2 ^ 24 + 0xFFFFFF] | none => [])
    else t.blocks.filterMap (fun p => p.2.nanOut.map (fun f => 0x0103 * 2 ^ 32 + f * 2 ^ 24 + p.1 % 2 ^ 24))
  (ovf ++ uf ++ nan).foldl lineAdd []

/-- Tasks of secure queues are recorded only at debug level 2 (R503, R549). -/
def Dev.mayRecord (d : Dev) (secure : Bool) : Bool := !secure || d.dbgLevel == 2

/-- A trace record that concerns a task: only for cores of TRC_CORE_EN (R544). -/
def Dev.traceTask (d : Dev) (core ctx : Nat) (secure : Bool) (page kind : Nat) (p0 p1 : W64) : Dev :=
  if d.regb pgTrc 0x110 core && d.mayRecord secure then d.trace page kind (some ctx) p0 p1 else d

/-- Tensor watch at a flush: the contribution enters the digest record of every entry that names the tensor (R553). -/
def watchFlush (w : Who) (tid : Nat) (t : Tally) : M Unit :=
  (List.range 16).forM (fun i => do
    let d ← getDev
    let e := d.reg pgTrc (0x200 + 16 * i)
    if e.bit 63 && e.field 15 0 == tid && tid != 0 && t.seen != 0 && d.mayRecord w.secure then
      let pa := d.regf pgTrc (0x208 + 16 * i) 47 4 * 16
      let _ ← atomicAt w 2 pa t.digest
      let _ ← atomicAt w 0 (pa + 8) (BitVec.ofNat 64 t.seen)
      modDev (fun d => d.traceTask w.core w.ctx w.secure (pgTly w.core) 0x30 t.digest
        (BitVec.ofNat 64 (tid + t.seen % 2 ^ 48 * 2 ^ 16))))

/-- EPOCH of a steering state now. -/
def epochNow (w : Who) (s : Steer) : M Nat := do return (← readWord w (s.va + 8)).field 63 16

/-- The command's statistics leave the tally unit (R122), and its flags are raised (R125). -/
def flushTally (w : Who) (stats tid : Nat) (steer : Option Steer) : M Unit := do
  let t := (← get).tally
  modify (fun r => { r with tally := Tally.zeroed })
  if t.seen ≠ 0 then
    modDev (fun d => ((((d.count (pgTly w.core) 0x01 t.seen).count (pgTly w.core) 0x03 t.whole.sat).count
      (pgTly w.core) 0x04 t.whole.uf).count (pgTly w.core) 0x05 t.whole.nonfin))
    if stats ≠ 0 then flushRecord w stats t.whole
    match steer with
    | none => pure ()
    | some s => do
      let bank := (← epochNow w s) % 2
      t.blocks.forM (fun p => flushRecord w (s.record bank p.1) p.2)
    watchFlush w tid t
    (flagsOf t).forM (fun q => raiseCarried (pgTly w.core) (q / 2 ^ 32) (q % 2 ^ 32) 0)

end Sys2Proof.Machine
end

