-- ==== Sys2Proof/Machine/Operands.lean ====
section
/-! DEFINITION. Operands of commands: the counter-based generator and the key registry as commands use it (R63, R322,
R323, R327), meshes (R366), and tensors: their descriptors, validation, and the reads and writes of their elements
(R157 to R182, R195, R590, R591). -/

namespace Sys2Proof.Machine

/-! ### The generator -/

def rotl32 (x : W32) (n : Nat) : W32 := (x <<< n) ||| (x >>> (32 - n))

def prngRot : List (Nat × Nat) :=
  [(7, 19), (23, 5), (11, 27), (29, 17), (3, 21), (25, 9), (15, 31), (1, 13), (19, 7), (27, 11)]

structure Quad where
  a : W32
  b : W32
  c : W32
  d : W32
  deriving DecidableEq, Repr

/-- Word j mod 5 of the key schedule. -/
def keyWord (k : Quad) (j : Nat) : W32 :=
  match j % 5 with
  | 0 => k.a
  | 1 => k.b
  | 2 => k.c
  | 3 => k.d
  | _ => k.a ^^^ k.b ^^^ k.c ^^^ k.d ^^^ 0x5A3C96E1

/-- One round of the generator. -/
def prngRound (k : Quad) (r : Nat) (x : Quad) : Quad :=
  let rt := prngRot.getD r (0, 0)
  let a := x.a + x.b
  let b := rotl32 x.b rt.1 ^^^ a
  let c := x.c + x.d
  let d := rotl32 x.d rt.2 ^^^ c
  let y : Quad := { a := a, b := d, c := c, d := b }
  if r % 2 = 1 then
    let s := (r + 1) / 2
    { a := y.a + keyWord k s, b := y.b + keyWord k (s + 1), c := y.c + keyWord k (s + 2),
      d := y.d + keyWord k (s + 3) + BitVec.ofNat 32 s }
  else y

/-- The generator of R322. -/
def prng (k c : Quad) : Quad :=
  let x : Quad := { a := c.a + k.a, b := c.b + k.b, c := c.c + k.c, d := c.d + k.d }
  (List.range 10).foldl (fun x r => prngRound k r x) x

def prngLane (x : Quad) (l : Nat) : Nat :=
  let n := x.a.toNat + x.b.toNat * 2 ^ 32 + x.c.toNat * 2 ^ 64 + x.d.toNat * 2 ^ 96
  n / 2 ^ (16 * l) % 2 ^ 16

/-- The draw for an element (R323). DESIGN CHOICE (log 84): an index below zero, which only positions written by PAD_WRITE have,
counts modulo 2^48. -/
def draw (k : KeyEntry) (id step : Nat) (index : Int) : Nat :=
  let e := (index % 2 ^ 48).toNat
  let c := k.stream * 2 ^ 112 + id % 2 ^ 16 * 2 ^ 96 + step % 2 ^ 48 * 2 ^ 48 + e / 8
  let w := fun (i : Nat) => BitVec.ofNat 32 (c / 2 ^ (32 * i))
  prngLane (prng { a := k.k0, b := k.k1, c := k.k2, d := k.k3 } { a := w 0, b := w 1, c := w 2, d := w 3 }) (e % 8)

/-- The USE 0 entry of the task's queue (R327). -/
def Dev.claimedKey (d : Dev) (w : Who) : Option KeyEntry :=
  match d.ctx? w.core w.ctx with
  | none => none
  | some t => (d.keys.find? (fun k => k.2.owner == t.queue && !k.2.use1)).map (fun k => k.2)

/-- UPD_STEP of the core's half (R323). -/
def Dev.stepOf (d : Dev) (core : Nat) : Nat := d.regf (pgUpd (core / 4)) 0x128 47 0

/-! ### Meshes -/

/-- A mesh entry: sizes and coordinates by axis, and the address of its members. -/
structure Mesh where
  sizes   : List Nat
  coords  : List Nat
  members : Nat
  deriving DecidableEq, Repr

def Dev.meshOf (d : Dev) (i : Nat) : Option Mesh :=
  let w := fun (k : Nat) => d.reg pgSys (0x700 + 32 * i + 8 * k)
  let f := fun (x : W64) => [x.field 14 0, x.field 29 15, x.field 44 30, x.field 59 45]
  let sizes := f (w 0)
  let coords := f (w 1)
  let prod := sizes.foldl (fun a s => if s = 0 then a else a * s) 1
  let ok := (sizes.zip coords).all (fun p => if p.1 = 0 then p.2 == 0 else p.2 < p.1)
  if (w 3).bit 0 && prod ≤ 16384 && ok then some { sizes := sizes, coords := coords, members := (w 2).field 47 0 } else none

/-! ### Tensors -/

def Dim.l (d : Dim) : Nat := if d.shards = 0 then 0 else (d.g + d.shards - 1) / d.shards
def Dim.v (d : Dim) : Nat := min d.l (d.g - d.shard * d.l)
/-- Stored extent. -/
def Dim.e (d : Dim) : Nat := d.padLo + d.l + d.padHi
/-- The global coordinate of a local index. -/
def Dim.gOf (d : Dim) (i : Int) : Int := (d.shard * d.l : Nat) + i

def Tensor.ndim (t : Tensor) : Nat := t.dims.length
def Tensor.dim (t : Tensor) (d : Nat) : Dim := t.dims.getD d { stride := 0, g := 0, padLo := 0, padHi := 0, shards := 1, shard := 0 }
def Tensor.ls (t : Tensor) : List Nat := t.dims.map Dim.l
def Tensor.vs (t : Tensor) : List Nat := t.dims.map Dim.v
def Tensor.gs (t : Tensor) : List Nat := t.dims.map Dim.g

/-- 64-bit words of a structure read through the fetch engine. -/
def owords (w : Who) (va n : Nat) : M (List W64) := do
  let bs ← oread w va (8 * n)
  return (List.range n).map (fun i => BitVec.ofNat 64 (leNat ((bs.drop (8 * i)).take 8)))

def wd (l : List W64) (i : Nat) : W64 := l.getD i 0

/-- The steering state that a descriptor names, and its layer's envelope as the converting core's governor has it
(R112, R114). A state that a governor is evaluating holds the command (R132). -/
def readSteer (w : Who) (va : Nat) : M (Steer × Envelope) := do
  let ws ← owords w va 3
  let s := steerOf va (wd ws 0) (wd ws 1) (wd ws 2)
  modDev (fun d => { d with steers := KV.set d.steers s.tid va })
  let d ← getDev
  let busy := (List.range 8).any (fun c =>
    let g := (d.core c).gov
    let list := d.regf (pgGov c) 0x120 47 0
    g.busy && !g.ended && (match d.physOf (list + 8 * g.idx) with
      | some p => (d.word p).field 47 0 == va
      | none => false))
  if busy then
    modDev (fun d => d.count (pgTly w.core) 0x06 1)
    throw (.hold .backPressure)
  let es ← owords w (d.regf (pgGov w.core) 0x118 47 0 + 32 * s.layer) 3
  return (s, envelopeOf (wd es 0) (wd es 1) (wd es 2))

/-- Width in bits of a ladder code. -/
def widthOfCode (c : Nat) : Nat := 2 ^ c

/-- The storage width for the checks of R161: of the format, or for a steered tensor the widest of its envelope (R126, R591). -/
def checkWidth (fmt : Nat) (steer : Option (Steer × Envelope)) : Nat :=
  match steer with
  | none => Fmt.codeWidth fmt
  | some (s, e) =>
    if e.invalid ∨ e.cls = 2 then 16
    else if e.cls = 0 then widthOfCode e.aMax
    else if e.cls = 1 then (if s.role = 2 then 8 else 4)
    else widthOfCode e.aMin

/-- Bytes that a LINEAR tensor spans from BASE on. -/
def spanBytes (dims : List Dim) (n : Nat) : Nat :=
  match dims with
  | [] => 0
  | d0 :: rest => rest.foldl (fun a d => a + (d.e - 1) * d.stride) ((d0.e * n + 7) / 8)

/-- The strides of a destination keep its stored positions apart (R161). -/
def stridesApart (n : Nat) : Nat → List Dim → Bool
  | _, [] => true
  | 0, d0 :: rest =>
    (match rest with
     | [] => true
     | d1 :: _ => decide (d1.stride ≥ (d0.e * n + 7) / 8)) && stridesApart n 1 rest
  | k + 1, d :: rest =>
    (match rest with
     | [] => true
     | d' :: _ => decide (d'.stride ≥ d.stride * d.e)) && stridesApart n (k + 2) rest

/-- Entries of the scale array along each dimension (R164). -/
def scaleExtents (t : Tensor) : List Nat :=
  (List.range t.ndim).map (fun i =>
    let l := (t.dim i).l
    if i = t.scaleDim then (l + 2 ^ t.scaleLog2 - 1) / 2 ^ t.scaleLog2 else l)

def scaleBytes (kind : Nat) : Nat := if kind = 3 then 2 else 1

/-- Local indices of a dimension that are global padding (R172). -/
def Dim.padIdx (d : Dim) : List Int :=
  ((List.range d.e).map (fun j => ((j : Nat) : Int) - d.padLo)).filter (fun i => d.gOf i < 0 || d.gOf i ≥ d.g)

/-- The coordinate that REPLICATE or REFLECT names for a position of global padding, as a local index (R174). -/
def Dim.mirror (d : Dim) (mode : Nat) (i : Int) : Int :=
  let g := d.gOf i
  let g' : Int := if mode = 2 then (if g < 0 then 0 else if g ≥ d.g then (d.g : Int) - 1 else g)
    else if g < 0 then -g - 1 else if g ≥ d.g then 2 * (d.g : Int) - g - 1 else g
  g' - (d.shard * d.l : Nat)

/-- Axis fields of a descriptor: dimension and rank (R168). -/
def axisFields (w4 : W64) : List (Nat × Nat) :=
  [(w4.field 10 8, w4.field 12 11), (w4.field 18 16, w4.field 20 19), (w4.field 26 24, w4.field 28 27),
   (w4.field 34 32, w4.field 36 35)]

/-- Shard count and shard index of a dimension (R169), or none where the ranks break R168. -/
def shardOf (m : Mesh) (axes : List (Nat × Nat)) (d : Nat) : Option (Nat × Nat) :=
  let mine := (List.range 4).filter (fun a => (axes.getD a (7, 0)).1 == d)
  let byRank := fun (r : Nat) => mine.find? (fun a => (axes.getD a (7, 0)).2 == r)
  if !(List.range mine.length).all (fun r => (byRank r).isSome) then none
  else
    some ((List.range mine.length).foldl (fun (acc : Nat × Nat) r =>
      match byRank r with
      | some a => (acc.1 * m.sizes.getD a 1, acc.2 * m.sizes.getD a 1 + m.coords.getD a 0)
      | none => acc) (1, 0))

def layoutOf (c : Nat) : Option Layout :=
  match c with
  | 0 => some .linear
  | 1 => some .blocked
  | 2 => some .act
  | 3 => some .wt
  | _ => none

/-- What a command may do with a tensor: as a destination, as a destination with PAD_WRITE, with an array-ready
layout, with its data at a fabric peer, and as an operand of TABLE, which alone may name the staging area (R347). -/
structure Role where
  dest     : Bool
  padWrite : Bool
  array    : Bool
  remote   : Bool := false
  table    : Bool := false
  deriving DecidableEq, Repr

def Role.source : Role := { dest := false, padWrite := false, array := false }
def Role.destination : Role := { dest := true, padWrite := false, array := false }
def Role.arrayReady : Role := { dest := false, padWrite := false, array := true }

/-- The data bytes of a tensor from BASE on, for the checks on where it lies; planes are checked where the class is known. -/
def Tensor.bytes (t : Tensor) (n : Nat) : Nat :=
  match t.layout with
  | .linear => spanBytes t.dims n
  | .blocked => ((t.dim 0).l + 15) / 16 * (((t.dim 1).l + 127) / 128) * 2 ^ t.slotLog2
  | .act => ((t.dim 2).g * max (t.dim 1).g 128 + 127) * 64
  | .wt => (t.dim 0).g * 131072

/-- Geometry of an ARRAY_ACT tensor: packing factor, rake rows, slots per beat (R88, R177). -/
def Tensor.packing (t : Tensor) : Nat := if t.pack = 1 then 2 else if t.pack = 2 then 4 else 1
def rakeRows (a : Nat) : Nat := max 1 (a / 4)

def Tensor.actS (t : Tensor) : Nat := max (t.dim 1).g 128
def Tensor.actBeats (t : Tensor) : Nat := (t.dim 2).g * t.actS + 127
def Tensor.actSeBase (t : Tensor) : Nat := (t.base + 64 * t.actBeats + 511) / 512 * 512

/-- Bytes of a tensor's scale array (R164, R179, R181). -/
def Tensor.scaleArrayBytes (t : Tensor) : Nat :=
  let groups := 128 / (16 * 2 ^ t.group)
  (match t.layout with
   | .act => (t.dim 2).g * (t.dim 1).g * groups
   | .wt => (t.dim 0).g * 4 * 512 * groups
   | _ => (scaleExtents t).foldl (· * ·) 1) * scaleBytes t.scaleKind

/-- All index vectors of the given extents from the given starts, dimension 0 fastest. -/
def positions : List (Int × Nat) → List (List Int)
  | [] => [[]]
  | (lo, n) :: rest =>
    (positions rest).flatMap (fun p => (List.range n).map (fun i => (lo + (i : Nat)) :: p))

/-- The scale array shares bytes with the data it scales (R165): with the stored rows of a LINEAR tensor, with the used bytes of
each block's slot (R166), and with the beats or tiles of an array-ready one. `n` is the width that the checks of R161 use;
blocks count at that width (log 87). -/
def Tensor.scaleOverlaps (t : Tensor) (n : Nat) : Bool :=
  let sb := t.scaleArrayBytes
  match t.layout with
  | .linear =>
    (positions ((t.dims.drop 1).map (fun d => (0, if d.stride = 0 then 1 else d.e)))).any (fun p =>
      overlaps (((t.dims.drop 1).zip p).foldl (fun a x => a + x.1.stride * x.2.toNat) t.base) (((t.dim 0).e * n + 7) / 8)
        t.scaleBase sb)
  | .blocked =>
    (List.range (((t.dim 0).l + 15) / 16 * (((t.dim 1).l + 127) / 128))).any (fun b =>
      overlaps (t.base + b * 2 ^ t.slotLog2) (min (256 * n) (2 ^ t.slotLog2)) t.scaleBase sb)
  | _ => overlaps t.base (t.bytes n) t.scaleBase sb

/-- The reserved bits of a descriptor's first eight words are zero (R157). -/
def descReserved (ws : List W64) : Bool :=
  (wd ws 0).field 55 54 == 0 && (wd ws 1).field 63 57 == 0 && (wd ws 2).field 63 52 == 0 && (wd ws 4).field 7 4 == 0
    && ((wd ws 4).toNat >>> 13) % 8 == 0 && ((wd ws 4).toNat >>> 21) % 8 == 0 && ((wd ws 4).toNat >>> 29) % 8 == 0
    && (wd ws 4).field 39 37 == 0 && (wd ws 4).field 63 42 == 0 && (wd ws 5).field 63 32 == 0 && (wd ws 6).field 63 4 == 0 && wd ws 7 == 0

def Layout.ready (l : Layout) : Bool := l == .act || l == .wt

/-- Dimension i of a descriptor (R159, R168 to R170): its shard by the mesh, and pads where the layout has them. -/
def descDim (ws : List W64) (layout : Layout) (mesh : Mesh) (i : Nat) : Option Dim :=
  let e := fun (k : Nat) => wd ws (8 + 4 * i + k)
  let g := (e 1).field 31 0
  let ignored := layout == .wt && i != 0
  if !((e 0).field 63 48 == 0 && (e 1).field 63 32 == 0 && (e 2).field 63 32 == 0 && e 3 == 0 && (g != 0 || ignored)) then none
  else
    (shardOf mesh (axisFields (wd ws 4)) i).map (fun sh =>
      { stride := (e 0).field 47 0, g := g, padLo := if layout.ready then 0 else (e 2).field 15 0,
        padHi := if layout.ready then 0 else (e 2).field 31 16, shards := if layout.ready then 1 else sh.1,
        shard := if layout.ready then 0 else sh.2 })

/-- Layout and dimensions of a descriptor, where its words are what a role allows (R157 to R171). -/
def descHead (d : Dev) (role : Role) (ws : List W64) : Option (Layout × List Dim) :=
  match layoutOf ((wd ws 0).field 59 56) with
  | none => none
  | some layout =>
    let ndim := (wd ws 0).field 62 60
    let axes := axisFields (wd ws 4)
    let mesh := if axes.any (fun a => a.1 != 7) then d.meshOf ((wd ws 4).field 3 0)
      else some { sizes := [0, 0, 0, 0], coords := [0, 0, 0, 0], members := 0 }
    match mesh with
    | none => none
    | some mesh =>
      let ok := descReserved ws && 1 ≤ ndim && ndim ≤ 6 && (!(wd ws 0).bit 63 || !role.dest || role.padWrite) && (!layout.ready || role.array)
        && (List.range 4).all (fun a =>
          let f := axes.getD a (7, 0)
          f.1 == 7 || (f.1 < ndim && mesh.sizes.getD a 0 != 0))
      if ok then ((List.range ndim).mapM (descDim ws layout mesh)).map (fun dims => (layout, dims)) else none

/-- The tensor that a descriptor at an address names. -/
def descTensor (va : Nat) (ws : List W64) (layout : Layout) (dims : List Dim) (steer : Option (Steer × Envelope)) : Tensor :=
  let w0 := wd ws 0
  let w1 := wd ws 1
  let w3 := wd ws 3
  { va := va, base := w0.field 47 0, fmt := w0.field 53 48, layout := layout, padWrite := w0.bit 63, scaleBase := w1.field 47 0,
    scaleKind := w1.field 49 48, scaleLog2 := w1.field 53 50, scaleDim := w1.field 56 54, steer := steer,
    slotLog2 := (wd ws 2).field 51 48, stats := w3.field 47 0, tid := w3.field 63 48, padMode := (wd ws 4).field 41 40,
    padVal := (wd ws 5).field 31 0, pack := (wd ws 6).field 1 0, group := (wd ws 6).field 3 2, dims := dims }

/-- Format and steering agree with the layout (R114, R158, R166). -/
def Tensor.kindOk (t : Tensor) (role : Role) : Bool :=
  (t.layout == .wt || (role.dest && t.steer.isSome) || (Fmt.ofCode t.fmt).isSome)
    && (t.layout == .blocked || !(t.steer.any (fun s => s.1.role == 0))) && (t.layout != .blocked || t.steer.isSome)
    && (!t.steer.isSome || t.layout == .linear || t.layout == .blocked) && t.steer.all (fun s => s.1.tid == t.tid)

/-- The scale fields are in order (R164, R165). -/
def Tensor.scalesOk (t : Tensor) : Bool :=
  t.scaleKind == 0
    || (2 ≤ t.scaleLog2 && t.scaleLog2 ≤ 9 && t.scaleDim < t.ndim && (t.scaleKind != 1 || t.scaleLog2 == 5)
      && (t.scaleKind != 2 || t.scaleLog2 == 4) && t.scaleBase % scaleBytes t.scaleKind == 0)

/-- The shape of a BLOCKED tensor (R166). -/
def Tensor.blocksOk (t : Tensor) : Bool :=
  t.layout != .blocked
    || (t.ndim == 2 && t.dims.all (fun x => x.padLo == 0 && x.padHi == 0) && (t.dim 0).l % 16 == 0 && (t.dim 1).l % 128 == 0
      && 8 ≤ t.slotLog2 && t.slotLog2 ≤ 12 && t.base % 2 ^ t.slotLog2 == 0 && t.scaleDim == 1
      && t.steer.all (fun s => (t.scaleKind == 1 && s.1.scaleFmt == 0x08) || (t.scaleKind == 3 && s.1.scaleFmt == 0x01)))

/-- The storage width that the checks of a layout use. -/
def Tensor.dataWidth (t : Tensor) : Nat := if t.layout == .linear then checkWidth t.fmt t.steer else 8

/-- Base and strides of a LINEAR tensor (R161). -/
def Tensor.stridesOk (t : Tensor) (dest : Bool) : Bool :=
  let n := t.dataWidth
  t.layout != .linear
    || ((t.dim 0).stride == 0 && (n < 8 || (t.base % (n / 8) == 0 && t.dims.all (fun x => x.stride % (n / 8) == 0)))
      && (!dest || stridesApart n 0 t.dims))

/-- The pads of a tensor and the positions that REPLICATE and REFLECT name (R170, R174). -/
def Tensor.padsOk (t : Tensor) : Bool :=
  t.dims.all (fun x => x.padLo ≤ x.l && x.padHi ≤ x.l)
    && (!(t.padMode == 2 || t.padMode == 3) || t.layout.ready
      || t.dims.all (fun x => x.padIdx.all (fun i =>
        let m := x.mirror t.padMode i
        decide (0 ≤ m) && decide (m < (x.v : Int)))))

/-- Where the parts of a tensor lie (R165, R195, R213, R228, R347, R592). -/
def Tensor.placeOk (t : Tensor) (d : Dev) (role : Role) : Bool :=
  let n := t.dataWidth
  let plane := 2 * (t.dim 0).g * t.actBeats
  (t.scaleKind == 0 || (!t.scaleOverlaps (checkWidth t.fmt t.steer) && !d.namesKept t.scaleBase t.scaleArrayBytes role.table))
    && (!t.layout.ready || (t.base % (if t.layout = .act then 512 else 4096) == 0 && d.pagesIn t.base (t.bytes n) inCoreStore))
    && (!(t.layout == .act && (Fmt.ofCode t.fmt).any Fmt.isFloat)
      || (d.pagesIn t.actSeBase plane inCoreStore && (t.scaleKind == 0 || !overlaps t.actSeBase plane t.scaleBase t.scaleArrayBytes)
        && !d.namesKept t.actSeBase plane role.table))
    && (role.remote || !d.namesKept t.base (t.bytes n) role.table)

/-- The tensor passes every check of R157 to R176 and R195 on its own fields and place. -/
def Tensor.accepted (t : Tensor) (d : Dev) (role : Role) : Bool :=
  t.kindOk role && t.scalesOk && t.blocksOk && t.stridesOk role.dest && t.padsOk && t.placeOk d role

/-- A tensor descriptor read and validated (R157 to R176, R195). -/
def tensor (w : Who) (va : Nat) (role : Role) : M Tensor := do
  require (va % 64 == 0)
  nameRange va 256 role.table
  let ws ← owords w va 32
  match descHead (← getDev) role ws with
  | none => invalid
  | some (layout, dims) => do
    let steerVa := (wd ws 2).field 47 0
    let steer ← (if steerVa = 0 then pure none else do return some (← readSteer w steerVa))
    let t := descTensor va ws layout dims steer
    require (t.accepted (← getDev) role)
    return t

/-! ### Element positions -/

/-- The valid positions of a tensor (R175). -/
def Tensor.validPositions (t : Tensor) : List (List Int) := positions (t.dims.map (fun d => (0, d.v)))

/-- The padded extent of a tensor (R172). -/
def Tensor.paddedPositions (t : Tensor) : List (List Int) := positions (t.dims.map (fun d => (-(d.padLo : Int), d.e)))

inductive PosClass where
  | valid | pad | halo | outside
  deriving DecidableEq, Repr

/-- The class of a position (R172). -/
def Tensor.classOf (t : Tensor) (p : List Int) : PosClass :=
  let dp := t.dims.zip p
  if dp.any (fun x => x.2 < -(x.1.padLo : Int) || x.2 ≥ (x.1.l + x.1.padHi : Nat)) then .outside
  else if dp.any (fun x => x.1.gOf x.2 < 0 || x.1.gOf x.2 ≥ x.1.g) then .pad
  else if dp.any (fun x => x.2 < 0 || x.2 ≥ x.1.v) then .halo
  else .valid

/-- The global flattened index of a position (R323). -/
def Tensor.flatIndex (t : Tensor) (p : List Int) : Int :=
  ((t.dims.zip p).foldr (fun x acc => x.1.gOf x.2 + x.1.g * acc) 0)

/-- The block of a position of a steered tensor: an activation or gradient tensor has one, index 0 (R111). -/
def Tensor.blockOf (t : Tensor) (p : List Int) : Nat :=
  if t.layout = .blocked ∧ t.steer.any (fun s => s.1.role == 0) then
    let n := (p.getD 0 0).toNat
    let k := (p.getD 1 0).toNat
    k / 128 * (((t.dim 0).l + 15) / 16) + n / 16
  else 0

/-- A block entry: FMT and EXP (R113). -/
def blockEntry (w : Who) (s : Steer) (b : Nat) : M (Nat × Nat) := do
  let v ← oreadNat w (s.va + 0x40 + 8 * b) 8
  return (v % 64, v / 64 % 256)

/-- The format of an element of a tensor and its block exponent. -/
def Tensor.fmtAt (t : Tensor) (w : Who) (p : List Int) : M (Nat × Nat) :=
  match t.steer with
  | none => pure (t.fmt, 127)
  | some s => blockEntry w s.1 (t.blockOf p)

/-- Address and bit of a stored element of n bits (R160, R166). -/
def Tensor.place (t : Tensor) (p : List Int) (n : Nat) : Nat × Nat :=
  match t.layout with
  | .blocked =>
    let nn := (p.getD 0 0).toNat
    let k := (p.getD 1 0).toNat
    (t.base + t.blockOf p * 2 ^ t.slotLog2, (k % 128 * 16 + nn % 16) * n)
  | _ =>
    let j := (t.dims.zip p).map (fun x => (x.1.stride, (x.2 + x.1.padLo).toNat))
    (t.base + (j.drop 1).foldl (fun a x => a + x.1 * x.2) 0, (j.getD 0 (0, 0)).2 * n)

/-- The address of the scale entry of a position (R164). -/
def Tensor.scaleAddr (t : Tensor) (p : List Int) : Nat :=
  let idx := (List.range t.ndim).map (fun i =>
    let x := (p.getD i 0).toNat
    if i = t.scaleDim then x / 2 ^ t.scaleLog2 else x)
  let k := ((scaleExtents t).zip idx).foldr (fun x acc => x.2 + x.1 * acc) 0
  t.scaleBase + k * scaleBytes t.scaleKind

/-- The value of a scale entry (R50, R51). -/
def scaleVal (kind v : Nat) : FVal :=
  match kind with
  | 1 => Fmt.decode .e8m0 v
  | 2 => e4m3.decode v
  | _ => bf16.decode v

def Tensor.scaleAt (t : Tensor) (w : Who) (p : List Int) : M FVal := do
  let v ← oreadNat w (t.scaleAddr p) (scaleBytes t.scaleKind)
  return scaleVal t.scaleKind v

/-! ### Array-ready storage (R78, R177, R178, R592) -/

/-- Significand bits of a Float-class format, hidden bit included. -/
def sigBits (f : FloatFmt) : Nat := f.mbits + 1

/-- The significand, biased exponent, sign, NaN and infinity marks of a Float-class code (R78, R592). -/
def splitFloat (f : FloatFmt) (c : Nat) : Nat × Nat :=
  let neg := c / 2 ^ (f.ebits + f.mbits) % 2
  let e := c / 2 ^ f.mbits % 2 ^ f.ebits
  let m := c % 2 ^ f.mbits
  let v := f.decode c
  let nan := v.isNan
  let inf := match v with | .inf _ => true | _ => false
  let sig := if e = 0 then m else 2 ^ f.mbits + m
  (sig, neg * 2 ^ 15 + (if nan then 2 ^ 14 else 0) + (if inf then 2 ^ 13 else 0) + e)

/-- The value that a significand and a plane entry name (R81, R592). -/
def joinFloat (f : FloatFmt) (sig entry : Nat) : FVal :=
  let neg := entry / 2 ^ 15 % 2 == 1
  if entry / 2 ^ 14 % 2 = 1 then .nan
  else if entry / 2 ^ 13 % 2 = 1 then .inf neg
  else
    let e := entry % 256
    FVal.pow2 neg sig ((if e = 0 then 1 else (e : Int)) - f.bias - f.mbits)

/-- The value of an operand from its slices (R78): `n` is the compute width that holds it, `v` the slices together. -/
def sliceVal (f : Fmt) (n v entry : Nat) : FVal :=
  match f with
  | .float g => joinFloat g v entry
  | .int 1 => if n ≤ 1 then f.decode v else FVal.ofInt (signedOf n v)
  | _ => if f.signed then FVal.ofInt (signedOf n v) else .num false (v % 2 ^ n) 1

/-- The slices of a code, extended to n bits (R78, R163). -/
def codeSlices (f : Fmt) (n c : Nat) : Nat :=
  match f with
  | .float g => (splitFloat g c).1
  | .int 1 => if n ≤ 1 then c % 2 else if c % 2 = 0 then 1 else 2 ^ n - 1
  | .int k => toBits n (signedOf k c)
  | .ter => toBits n (signedOf 2 c)
  | .uint k => c % 2 ^ k
  | .e8m0 => c % 256

/-- The sign-and-exponent entry of a code. -/
def codeEntry (f : Fmt) (c : Nat) : Nat :=
  match f with
  | .float g => (splitFloat g c).2
  | _ => 0

/-- The nibble slot of row r of a chain position: byte address and bit offset (R177). -/
def Tensor.actNibble (t : Tensor) (q r : Nat) : Nat × Nat := (t.base + 64 * (q + r) + r / 2, r % 2 * 4)

/-- The plane entry's address of element k at chain position q (R592). -/
def Tensor.actEntry (t : Tensor) (q k rho : Nat) : Nat := t.actSeBase + 2 * (t.dim 0).g * (q + rho * k) + 2 * k

/-- Element (k, m, j) of an ARRAY_ACT tensor as a value, without its scale. -/
def Tensor.actElem (t : Tensor) (w : Who) (k m j : Nat) : M FVal := do
  match Fmt.ofCode t.fmt with
  | none => invalid
  | some f =>
    let a := f.computeWidth
    let p := t.packing
    let rho := rakeRows a
    let q := j * t.actS + m
    let v ← (if p > 1 then do
        let x := t.actNibble q (k / p)
        oreadBits w x.1 (x.2 + k % p * (4 / p)) (4 / p)
      else
        (List.range rho).foldlM (fun (acc : Nat) (i : Nat) => do
          let x := t.actNibble q (rho * k + i)
          let s ← oreadBits w x.1 x.2 4
          return acc + s * 16 ^ i) 0)
    let entry ← (if f.isFloat then oreadNat w (t.actEntry q k rho) 2 else pure 0)
    return sliceVal f (if p > 1 then 4 / p else 4 * rho) v entry

/-- The activation scale of group g (R179). -/
def Tensor.actScale (t : Tensor) (w : Who) (m j g ng : Nat) : M FVal := do
  if t.scaleKind = 0 then return FVal.one
  else
    let n := scaleBytes t.scaleKind
    return scaleVal t.scaleKind (← oreadNat w (t.scaleBase + ((j * (t.dim 1).g + m) * ng + g) * n) n)

/-! ### Reading and writing elements -/

/-- What a read of a position gives: a value, and whether it is a synthesised constant that the tally does not see. -/
structure Elem where
  val   : FVal
  const : Bool
  deriving DecidableEq, Repr

/-- A stored element in memory, with its scale where the position is valid (R164, R590). -/
def Tensor.stored (t : Tensor) (w : Who) (p : List Int) : M FVal := do
  if t.layout = .act then
    let k := (p.getD 0 0).toNat
    let m := (p.getD 1 0).toNat
    let j := (p.getD 2 0).toNat
    let v ← t.actElem w k m j
    if t.scaleKind = 0 then return v
    else
      let rho := match Fmt.ofCode t.fmt with | some f => rakeRows f.computeWidth | none => 1
      let rows := 16 * 2 ^ t.group
      let s ← t.actScale w m j (k * rho / t.packing / rows) (128 / rows)
      return FVal.mul v s
  else
    let fe ← t.fmtAt w p
    match Fmt.ofCode fe.1 with
    | none => invalid
    | some f =>
      let n := f.bits
      let pl := t.place p n
      let c ← oreadBits w pl.1 pl.2 n
      let v := f.decode c
      if t.scaleKind ≠ 0 ∧ t.classOf p = .valid then return FVal.mul v (← t.scaleAt w p) else return v

/-- The stored bits of an element. -/
def Tensor.storedBits (t : Tensor) (w : Who) (p : List Int) : M Nat := do
  let fe ← t.fmtAt w p
  let n := Fmt.codeWidth fe.1
  let pl := t.place p n
  oreadBits w pl.1 pl.2 n

/-- The constant of ZERO or CONST (R174). -/
def Tensor.padConst (t : Tensor) : FVal := if t.padMode = 1 then dec32 t.padVal else FVal.zero

/-- A position read through the descriptor (R173): memory at valid and halo positions, a synthesised value at global
padding. -/
def Tensor.read (t : Tensor) (w : Who) (p : List Int) : M Elem := do
  if t.classOf p = .pad then
    modDev (fun d => d.count (pgFet w.core) 0x17 1)
    if t.padMode = 2 ∨ t.padMode = 3 then
      let p' := (t.dims.zip p).map (fun x => if x.1.gOf x.2 < 0 || x.1.gOf x.2 ≥ x.1.g then x.1.mirror t.padMode x.2 else x.2)
      return { val := ← t.stored w p', const := false }
    else return { val := t.padConst, const := true }
  else return { val := ← t.stored w p, const := false }

/-- The rounding of an element: SR draws from the claimed key (R63, R323). -/
def rndOf (w : Who) (rnd tid : Nat) (e : Int) : M Rnd := do
  if rnd = 2 then
    let d ← getDev
    match d.claimedKey w with
    | some k => return .sr (draw k tid (d.stepOf w.core) e)
    | none => invalid
  else if rnd = 1 then return .rtz
  else return .rne

/-- A rounding field is valid, and SR has its key where the command converts (R60, R63). `elems` bounds the elements of the
consumer (R323). -/
def Dev.roundingOk (d : Dev) (w : Who) (rnd elems : Nat) (converts : Bool) : Bool :=
  rnd != 3 && (rnd != 2 || !converts || ((d.claimedKey w).isSome && elems < 2 ^ 48))

def checkRnd (w : Who) (rnd elems : Nat) (converts : Bool := true) : M Unit := do
  require ((← getDev).roundingOk w rnd elems converts)

/-- 2^(E − 127) as a scale entry (R114). -/
def expScaleCode (scaleFmt e : Nat) : Nat := if scaleFmt = 0x08 then e else bf16.arith (FVal.pow2 false 1 ((e : Int) - 127))

/-- The scale entries that cover a block are written with the block's exponent (R114). DESIGN CHOICE (log 86): where SCALE_KIND
of a LINEAR destination does not match the state's SCALE_FMT, which R166 demands of BLOCKED only, the entry has the size of
SCALE_KIND and holds the low bytes of the SCALE_FMT code. -/
def Tensor.writeBlockScales (t : Tensor) (s : Steer) (b e : Nat) : M Unit := do
  if t.scaleKind = 0 then pure ()
  else
    let ps := if t.layout = .blocked then
        let cols := ((t.dim 0).l + 15) / 16
        let n0 := b % cols * 16
        let k0 := b / cols * 128
        positions [((n0 : Nat), min 16 ((t.dim 0).l - n0)), ((k0 : Nat), min 128 ((t.dim 1).l - k0))]
      else positions (t.dims.map (fun d => (0, d.l)))
    let addrs := (ps.map (fun p => t.scaleAddr p)).foldl lineAdd []
    addrs.forM (fun a => vput a (leBytes (scaleBytes t.scaleKind) (expScaleCode s.scaleFmt e)))

/-- The conversion of a value into a position of a destination (R65, R114, R590), seen by the tally unit unless it is a
synthesised constant. `scales` lists the blocks whose scale entries this command has written. -/
def Tensor.write (t : Tensor) (w : Who) (p : List Int) (x : Elem) (rnd : Nat) (e : Int) : M Unit := do
  let fe ← t.fmtAt w p
  match t.steer with
  | some s => do
    let l := ladder s.2.cls s.2.family s.1.role
    if s.1.role = 3 ∨ !onLadder l fe.1 then invalid
    let f := (Fmt.ofCode fe.1).getD .e8m0
    if t.layout = .linear ∧ f.bits > checkWidth t.fmt t.steer then invalid
    if t.layout = .blocked ∧ 256 * f.bits > 2 ^ t.slotLog2 then invalid
    let b := t.blockOf p
    let mode ← (if x.const then pure Rnd.rne else rndOf w rnd t.tid e)
    let first := KV.find? (← get).tally.blocks b
    let shift : Int := 127 - (fe.2 : Int)
    let z := FVal.mul x.val (FVal.pow2 false 1 shift)
    let r := f.conv mode z
    if first.isNone then t.writeBlockScales s.1 b fe.2
    let pl := t.place p f.bits
    vputBits w pl.1 pl.2 f.bits r.1
    if !x.const then
      tallyElem fe.1 x.val z (FVal.mul (f.decode r.1) (FVal.pow2 false 1 (-shift))) r.1 r.2 (s.1.role == 2 && s.2.family == 1 && s.2.cls != 2) shift (t.flatIndex p) (some b)
  | none => do
    let f := (Fmt.ofCode t.fmt).getD .e8m0
    let mode ← (if x.const then pure Rnd.rne else rndOf w rnd t.tid e)
    let scaled := t.scaleKind ≠ 0 ∧ t.classOf p = .valid
    let s ← (if scaled then t.scaleAt w p else pure FVal.one)
    let z := if scaled then FVal.div x.val s else x.val
    let r := f.conv mode z
    let pl := t.place p f.bits
    vputBits w pl.1 pl.2 f.bits r.1
    if !x.const then
      let y := if scaled then FVal.mul (f.decode r.1) s else f.decode r.1
      tallyElem t.fmt x.val z y r.1 r.2 false 0 (t.flatIndex p) none

/-- The tally of a command with this destination leaves the unit. -/
def Tensor.flush (t : Tensor) (w : Who) : M Unit := flushTally w t.stats t.tid (t.steer.map (fun s => s.1))

/-- Stored bits put at a position. -/
def Tensor.putBits (t : Tensor) (w : Who) (p : List Int) (v : Nat) : M Unit := do
  let fe ← t.fmtAt w p
  let n := Fmt.codeWidth fe.1
  let pl := t.place p n
  vputBits w pl.1 pl.2 n v

/-- The tensor lies wholly in the issuing core's core store. -/
def Tensor.inOwnStore (t : Tensor) (d : Dev) (w : Who) : Bool :=
  d.pagesIn t.base (t.bytes (checkWidth t.fmt t.steer)) (inOwnCoreStore w)

def Tensor.ownStore (t : Tensor) (w : Who) : M Bool := do return t.inOwnStore (← getDev) w

/-- An action with its failure kept as a value, so that what follows still takes place. -/
def attempt (a : M Unit) : M (Option Stop) := tryCatch (do a; return none) (fun e => return some e)

/-- The body of a command that writes one destination: its writes and its statistics leave the core also when it ends early. -/
def withDest (w : Who) (t : Tensor) (body : M Unit) : M Unit := do
  let e1 ← attempt body
  let e2 ← attempt (flushWrites w)
  let e3 ← attempt (t.flush w)
  match (e1.or e2).or e3 with
  | some e => throw e
  | none => pure ()

/-! ### Alignment (R186) -/

/-- The run lengths of a LINEAR tensor's transfer blocks: how many dimensions merge, from dimension 0 up. -/
def mergedDims (n : Nat) : Nat → List Dim → Nat
  | _, [] => 0
  | _, [_] => 1
  | i, d :: d' :: rest =>
    let want := if i = 0 then (d.e * n + 7) / 8 else d.stride * d.e
    if d'.stride = want then 1 + mergedDims n (i + 1) (d' :: rest) else 1

/-- The misaligned transfer blocks of a tensor, and their bytes (R186). A steered tensor's blocks have the width of their FMT
(R591, R166), and a repeated dimension is not read again (R161). -/
def Tensor.misaligned (t : Tensor) (w : Who) : M (Nat × Nat) := do
  match t.layout with
  | .linear =>
    let fe ← t.fmtAt w []
    let n := Fmt.codeWidth fe.1
    let m := mergedDims n 0 t.dims
    let run := spanBytes (t.dims.take m) n
    let outer := (positions ((t.dims.drop m).map (fun d => (0, if d.stride = 0 then 1 else d.e)))).map (fun p =>
      ((t.dims.drop m).zip p).foldl (fun a x => a + x.1.stride * x.2.toNat) t.base)
    let bad := outer.filter (fun a => a % 512 != 0)
    return (bad.length, bad.length * run)
  | .blocked =>
    let cols := ((t.dim 0).l + 15) / 16
    let bad := (List.range (cols * (((t.dim 1).l + 127) / 128))).filter (fun b => (t.base + b * 2 ^ t.slotLog2) % 512 != 0)
    let sizes ← bad.mapM (fun b => do
      let fe ← t.fmtAt w [(b % cols * 16 : Nat), (b / cols * 128 : Nat)]
      return 256 * Fmt.codeWidth fe.1)
    return (bad.length, sizes.sum)
  | _ => return (0, 0)

/-- DESC_MISALIGN of a command's operand, at its completion (R186). -/
def reportMisalign (w : Who) (operand : Nat) (mis : Nat × Nat) : M Unit := do
  if mis.1 ≠ 0 then
    modDev (fun d => (((d.count (pgFet w.core) 0x10 mis.1).count (pgFet w.core) 0x11 mis.2).raise (pgFet w.core) 0x0203
      (operand * 2 ^ 31 + min mis.1 0xFFFFFF) 0))

end Sys2Proof.Machine
end

