-- ==== Sys2Proof/Machine/Vec.lean ====
section
/-! DEFINITION. The vector unit (R103, R104, R256, R329). -/

namespace Sys2Proof.Machine

/-- ARG of a descriptor (R252): bits [hi:lo] of word 0. -/
def Desc.arg (t : Desc) (hi lo : Nat) : Nat := t.w0.field hi lo

/-- Reserved bits [15:10] of word 0 are zero (R252). -/
def Desc.headOk (t : Desc) : Bool := t.w0.field 15 10 == 0

/-- The operand words after the first are zero, where a command uses only that (R253). -/
def Desc.oneWord (t : Desc) : Bool := t.w2 == 0 && t.w3 == 0 && t.w4 == 0 && t.w5 == 0 && t.w6 == 0

/-- An operand word that holds an address in [47:0] and nothing else. -/
def addrWord (v : W64) : M Nat := do
  require (v.field 63 48 == 0)
  return v.field 47 0

/-- VEC operands: a source is a tensor or the broadcast scalar. -/
structure VecArgs where
  vop    : Nat
  rnd    : Nat
  a      : Option Tensor
  b      : Option Tensor
  c      : Option Tensor
  dst    : Tensor
  scalar : Nat
  deriving DecidableEq, Repr

/-- Sources that an operation takes (R103, R256). -/
def vopSources (vop : Nat) : Nat := if vop = 0 then 3 else if vop ≤ 4 then 2 else 1

def isReduction (vop : Nat) : Bool := 6 ≤ vop && vop ≤ 9

/-- A format that the vector unit computes with (R52). The format field of a steered destination is ignored (R114). -/
def vecFmt (t : Tensor) (dest : Bool) : Bool := (dest && t.steer.isSome) || t.fmt == 0x00 || t.fmt == 0x01

/-- Every valid position of the destination is a position of the source's padded extent. -/
def covers (src dst : Tensor) : Bool :=
  src.ndim == dst.ndim && (src.dims.zip dst.dims).all (fun x => x.2.v ≤ x.1.l + x.1.padHi)

/-- The destination of a reduction has one element per position of the other dimensions (R256). -/
def reducedShape (a dst : Tensor) : Bool :=
  (dst.ndim == a.ndim && (dst.dim 0).v ≤ 1 && (dst.dims.drop 1).map Dim.v == (a.dims.drop 1).map Dim.v)
    || (dst.ndim + 1 == a.ndim && dst.dims.map Dim.v == (a.dims.drop 1).map Dim.v)

/-- The operand words that an operation does not take are zero (R256). -/
def vecWords (t : Desc) : Bool :=
  let n := vopSources (t.arg 39 32)
  t.arg 39 32 ≤ 0x0F && (2 ≤ n || t.w2 == 0) && (3 ≤ n || t.w3 == 0) && t.w5.field 63 32 == 0 && t.w6 == 0

/-- A VEC command with its tensors. -/
def vecArgs (t : Desc) (a b c : Option Tensor) (dst : Tensor) : VecArgs :=
  { vop := t.arg 39 32, rnd := t.arg 41 40, a := a, b := b, c := c, dst := dst, scalar := t.w5.field 31 0 }

def vecSource (w : Who) (v : W64) : M (Option Tensor) := do
  let va ← addrWord v
  if va = 0 then return none
  else
    let t ← tensor w va Role.source
    require (← t.ownStore w)
    return some t

/-- The operands of a VEC command agree with its operation (R52, R60, R63, R256). -/
def VecArgs.accepted (v : VecArgs) (d : Dev) (w : Who) : Bool :=
  let srcs := [v.a, v.b, v.c].filterMap id
  (if v.vop = 5 then d.roundingOk w v.rnd (v.dst.gs.foldl (· * ·) 1) true && srcs.all (fun s => s.fmt != 0x08)
    else srcs.all (fun s => vecFmt s false) && vecFmt v.dst true)
  && (if isReduction v.vop then v.a.any (fun s => reducedShape s v.dst) else srcs.all (fun s => covers s v.dst))

/-- Validation of a VEC command (R256, R259). -/
def parseVec (w : Who) (t : Desc) : M VecArgs := do
  require (vecWords t)
  let a ← vecSource w t.w1
  let b ← vecSource w t.w2
  let c ← vecSource w t.w3
  let dst ← tensor w (← addrWord t.w4) Role.destination
  require (← dst.ownStore w)
  let v := vecArgs t a b c dst
  require (v.accepted (← getDev) w)
  return v

/-- A source element, or the scalar. -/
def vecElem (w : Who) (s : Option Tensor) (scalar : Nat) (p : List Int) : M Elem :=
  match s with
  | some t => t.read w p
  | none => pure { val := dec32 scalar, const := false }

/-- The element-wise operations on FP32 patterns (R103). -/
def vecApply (vop a b c : Nat) : Nat :=
  match vop with
  | 0x00 => ffma a b c
  | 0x01 => fadd a b
  | 0x02 => fmul a b
  | 0x03 => fmax a b
  | 0x04 => fmin a b
  | _ => vecBounded vop a

/-- One level of the pairwise tree: lanes 2i and 2i + 1 combine, and a lane alone passes up (R104). -/
def treeLevel (f : Nat → Nat → Nat) : List Nat → List Nat
  | x :: y :: r => f x y :: treeLevel f r
  | l => l

/-- The tree result of one vector of at most 1,024 lanes: ten levels. -/
def treeResult (f : Nat → Nat → Nat) (l : List Nat) : Option Nat :=
  ((List.range 10).foldl (fun l _ => treeLevel f l) l).head?

/-- Runs of 1,024 elements. -/
def runsOf : Nat → List Nat → List (List Nat)
  | 0, _ => []
  | k + 1, l => if l.isEmpty then [] else l.take 1024 :: runsOf k (l.drop 1024)

/-- A vector reduction (R104): none where there is no element. -/
def reduce (f : Nat → Nat → Nat) (l : List Nat) : Option Nat :=
  (runsOf (l.length / 1024 + 1) l).foldl (fun acc v =>
    match acc, treeResult f v with
    | none, r => r
    | some a, none => some a
    | some a, some r => some (f a r)) none

def reduceOp (vop : Nat) : Nat → Nat → Nat :=
  match vop with
  | 0x07 => fmax
  | 0x08 => fmin
  | _ => fadd

/-- Every operand is BF16, so the command uses BF16 lanes (R256). -/
def VecArgs.lanes16 (v : VecArgs) : Bool :=
  let srcs := match vopSources v.vop with
    | 3 => [v.a, v.b, v.c]
    | 2 => [v.a, v.b]
    | _ => [v.a]
  srcs.all (fun s => match s with | some t => t.fmt == 0x01 && t.steer.isNone | none => false)
    && v.dst.fmt == 0x01 && v.dst.steer.isNone

/-- An arithmetic result stored. BF16 lanes round it once to BF16 (R103); FP32 lanes give FP32, which a BF16 destination takes by
a conversion with RNE, so that a finite overflow saturates (R65). DESIGN CHOICE (log 79): the rounding of a BF16 lane belongs to
its arithmetic, so a finite overflow there gives an infinity, which a destination with scales or blocks then converts. -/
def vecStore (w : Who) (v : VecArgs) (p : List Int) (r : Nat) : M Unit :=
  let x := if v.lanes16 then decB (encB (dec32 r)) else dec32 r
  if v.dst.steer.isNone && v.dst.scaleKind == 0 then
    v.dst.putBits w p (if v.lanes16 then encB x else ((Fmt.ofCode v.dst.fmt).getD .e8m0 |>.conv .rne x).1)
  else v.dst.write w p { val := x, const := true } 0 0

/-- The FP32 pattern of an element's value. -/
def Elem.bits (e : Elem) : Nat := enc32 e.val

/-- The effect of a VEC command (R103, R104, R256). DESIGN CHOICE (log 79): RSUMSQ rounds each square to FP32 before the tree, as
the product of R64 that it is. -/
def vecBody (w : Who) (v : VecArgs) : M Unit :=
  withDest w v.dst (do
    let ps := v.dst.validPositions
    ps.forM (fun p => do
      if isReduction v.vop then
        match v.a with
        | none => pure ()
        | some a => do
          let rest := if v.dst.ndim = a.ndim then p.drop 1 else p
          let xs ← (List.range (a.dim 0).v).mapM (fun i => do
            let e ← a.read w ((i : Nat) :: rest)
            return if v.vop = 0x09 then fmul e.bits e.bits else e.bits)
          match reduce (reduceOp v.vop) xs with
          | some r => vecStore w v p r
          | none => do
            let f := (← getDev).takeFree
            setDev f.1
            vecStore w v p (canon32 (f.2.setWidth 32))
      else if v.vop = 5 then do
        let x ← vecElem w v.a v.scalar p
        v.dst.write w p x v.rnd (v.dst.flatIndex p)
      else do
        let a ← vecElem w v.a v.scalar p
        let b ← if vopSources v.vop ≥ 2 then vecElem w v.b v.scalar p else pure a
        let c ← if vopSources v.vop ≥ 3 then vecElem w v.c v.scalar p else pure a
        vecStore w v p (vecApply v.vop a.bits b.bits c.bits))
    modDev (fun d => (d.count (pgVec w.core) 0x01 1).count (pgVec w.core) 0x02 ps.length))

/-- VEC with a given VOP. -/
def vecCmd (w : Who) (t : Desc) : M Unit := do vecBody w (← parseVec w t)

end Sys2Proof.Machine
end

