-- ==== Sys2Proof/Machine/Panels.lean ====
section
/-! DEFINITION. The STREAM extension, panel maps, tile geometry, and the reads and writes of the array-ready layouts
(R78 to R96, R177 to R182, R254, R255, R592). -/

namespace Sys2Proof.Machine

/-- The parameters of a STREAM (R89, R152, R254). -/
structure StreamExt where
  aFmt      : Nat
  op        : Nat
  red       : Nat
  arrays    : Nat
  accInit   : Nat
  out       : Nat
  outFmt    : Nat
  outRnd    : Nat
  group     : Nat
  scaleA    : Nat
  scaleW    : Nat
  biasEn    : Bool
  p         : Nat
  m         : Nat
  kLast     : Nat
  accRow    : Nat
  pmapStride : Nat
  unifFmt   : Nat
  outCh     : List Nat
  chtab     : Nat
  pmap      : Nat
  tdrEn     : Bool
  rc        : Nat
  corrPass  : Nat
  olistStride : Nat
  steerTid  : Nat
  redBase   : Nat
  olist     : Nat
  tdrW      : Nat
  tdrAct    : Nat
  tdrActStride : Nat
  z         : Nat
  deriving DecidableEq, Repr

/-- The words of an extension have zero in their reserved bits (R254). -/
def streamReserved (ws : List W64) : Bool :=
  (wd ws 0).field 63 51 == 0 && (wd ws 1).field 63 27 == 0 && (wd ws 5).field 31 30 == 0
    && [3, 4, 6, 7, 8, 10].all (fun i => (wd ws i).field 63 48 == 0) && (wd ws 9).field 63 32 == 0
    && [11, 12, 13, 14, 15].all (fun i => wd ws i == 0)

/-- The parameters that an extension's words give (R254). -/
def streamExtOf (ws : List W64) : StreamExt :=
  let a := wd ws 0
  let b := wd ws 1
  let t := wd ws 5
  { aFmt := a.field 5 0, op := a.field 8 6, red := a.field 10 9, arrays := a.field 14 11, accInit := a.field 15 15,
    out := a.field 16 16, outFmt := a.field 22 17, outRnd := a.field 24 23, group := a.field 26 25,
    scaleA := a.field 28 27, scaleW := a.field 30 29, biasEn := a.bit 31, p := a.field 39 32 + 1, m := a.field 50 40 + 1,
    kLast := b.field 8 0 + 1, accRow := b.field 19 9, pmapStride := b.field 20 20 * 256, unifFmt := b.field 26 21,
    outCh := (List.range 4).map (fun i => (wd ws 2).field (16 * i + 15) (16 * i)), chtab := (wd ws 3).field 47 0,
    pmap := (wd ws 4).field 47 0, tdrEn := t.bit 0, rc := t.field 4 1, corrPass := t.field 12 5,
    olistStride := t.field 13 13 * 64, steerTid := t.field 29 14, redBase := t.field 63 32, olist := (wd ws 6).field 47 0,
    tdrW := (wd ws 7).field 47 0, tdrAct := (wd ws 8).field 47 0, tdrActStride := (wd ws 9).field 31 0,
    z := (wd ws 10).field 47 0 }

/-- The extension read and its reserved bits checked (R254). -/
def readStreamExt (w : Who) (va : Nat) : M StreamExt := do
  require (va % 64 == 0)
  nameRange va 128 false
  let ws ← owords w va 16
  require (streamReserved ws)
  return streamExtOf ws

/-! ### Panels (R84 to R87, R255) -/

/-- A panel map entry (R85). -/
structure Panel where
  fmt    : Nat
  enLo   : Bool
  enHi   : Bool
  slotLo : Nat
  slotHi : Nat
  resv   : Nat
  deriving DecidableEq, Repr

def panelOf (v : Nat) : Panel :=
  { fmt := v % 64, enLo := v.testBit 6, enHi := v.testBit 7, slotLo := v / 2 ^ 8 % 64, slotHi := v / 2 ^ 14 % 64,
    resv := v / 2 ^ 20 }

/-- Panel n of the uniform panel map (R255). -/
def uniformPanel (fmt n : Nat) : Panel :=
  let cw := match Fmt.ofCode fmt with | some f => f.computeWidth | none => 0
  if cw ≤ 4 then { fmt := fmt, enLo := true, enHi := true, slotLo := 4 * n, slotHi := 4 * n + 2, resv := 0 }
  else if cw = 8 then { fmt := fmt, enLo := true, enHi := false, slotLo := 2 * n, slotHi := 0, resv := 0 }
  else { fmt := fmt, enLo := true, enHi := false, slotLo := n, slotHi := 0, resv := 0 }

/-- An enabled half of a panel: its format, its first rake with the count of rakes, and its first slot. -/
structure PHalf where
  panel : Nat
  fmt   : Nat
  rake0 : Nat
  rakes : Nat
  slot0 : Nat
  deriving DecidableEq, Repr

def fmtWidth (fmt : Nat) : Nat := match Fmt.ofCode fmt with | some f => f.computeWidth | none => 0

/-- Rakes of a whole panel (R84). -/
def panelRakes (cw : Nat) : Nat := if cw ≤ 4 then 32 else if cw = 8 then 16 else 8

/-- The enabled halves of a panel. -/
def Panel.halves (p : Panel) (n : Nat) : List PHalf :=
  let cw := fmtWidth p.fmt
  let lo := if p.enLo then [{ panel := n, fmt := p.fmt, rake0 := 0, rakes := if cw ≤ 4 then 16 else panelRakes cw, slot0 := 8 * p.slotLo : PHalf }] else []
  let hi := if p.enHi then [{ panel := n, fmt := p.fmt, rake0 := 16, rakes := 16, slot0 := 8 * p.slotHi : PHalf }] else []
  lo ++ hi

/-- The panel map of array i in pass j. -/
def readPanels (w : Who) (x : StreamExt) (i j : Nat) : M (List Panel) := do
  if x.pmap = 0 then return (List.range 16).map (fun n => uniformPanel x.unifFmt n)
  else
    let base := x.pmap + j * x.pmapStride + i * 64
    (List.range 16).mapM (fun n => do return panelOf (← oreadNat w (base + 4 * n) 4))

/-- PMAP names records of 256 bytes in a core store, for a count of passes (R86, R89, R183). -/
def StreamExt.pmapOk (x : StreamExt) (d : Dev) (passes : Nat) : Bool :=
  let n := (passes - 1) * x.pmapStride + 256
  x.pmap == 0 || (x.pmap % 256 == 0 && !d.namesKept x.pmap n false && d.pagesIn x.pmap n inCoreStore)

def halvesOf (ps : List Panel) : List PHalf := ((List.range 16).zip ps).flatMap (fun x => x.2.halves x.1)

def slotsClash (a b : PHalf) : Bool := a.slot0 < b.slot0 + b.rakes && b.slot0 < a.slot0 + a.rakes

def pairwiseApart : List PHalf → Bool
  | [] => true
  | a :: l => l.all (fun b => !slotsClash a b) && pairwiseApart l

/-- Formats that a MAC pass takes together (R52, R53). -/
def pairOk (a b : Nat) : Bool :=
  match Fmt.ofCode a, Fmt.ofCode b with
  | some f, some g => (f.isFloat && g.isFloat && a != 0 && b != 0) || (f.isInt && g.isInt)
  | _, _ => false

/-- The entries of one array taking part in a pass (R87). -/
def panelsOk (aFmt : Nat) (ps : List Panel) : Bool :=
  let hs := halvesOf ps
  ps.all (fun p =>
    p.resv == 0 && (!(p.enLo || p.enHi) || (pairOk aFmt p.fmt && p.fmt != 0x08))
      && (!p.enHi || fmtWidth p.fmt ≤ 4))
    && hs.all (fun h => h.slot0 + h.rakes ≤ 512) && pairwiseApart hs && !hs.isEmpty

def taking (arrays : Nat) : List Nat := (List.range 4).filter (fun i => arrays.testBit i)

/-- An array's own packing factor for a pass (R82); MAC only packs (R101). -/
def ownPack (a op : Nat) (hs : List PHalf) : Nat :=
  let wmax := hs.foldl (fun m h => max m (fmtWidth h.fmt)) 0
  if op ≠ 0 ∨ a ≥ 4 ∨ wmax ≥ 4 then 1 else 4 / max 1 (max a wmax)

/-- Columns of a rake (R79). -/
def rakeCols (fmt : Nat) : Nat := max 1 (fmtWidth fmt / 4)

/-! ### Weight tiles (R180, R592) -/

def tileBytes : Nat := 131072

/-- Offset of array i's part of tile j. -/
def tilePart (base j i : Nat) : Nat := base + j * tileBytes + i * 32768

/-- The plane entry of the top row r and leftmost column c of a rake. -/
def wtEntryAddr (base p j i r c : Nat) : Nat := base + p * tileBytes + ((j * 4 + i) * 128 + r) * 1024 + 2 * c

/-- The sign-and-exponent plane of a Float-class ARRAY_WT tensor lies in a core store, apart from the tensor's scales (R165, R195,
R592). -/
def Tensor.wtPlaneOk (t : Tensor) (d : Dev) : Bool :=
  let base := t.base + (t.dim 0).g * tileBytes
  let n := (t.dim 0).g * 524288
  d.pagesIn base n inCoreStore && (t.scaleKind == 0 || !overlaps base n t.scaleBase t.scaleArrayBytes) && !d.namesKept base n false

/-- The weight scale entry for slot s of array i in pass j, group g (R181). -/
def wtScaleAddr (t : Tensor) (j i s g ng : Nat) : Nat :=
  t.scaleBase + (((j * 4 + i) * 512 + s) * ng + g) * scaleBytes t.scaleKind

/-- The station group of reduction element k (R93, R94). -/
def groupOf (k p rho group : Nat) : Nat := (if p > 1 then k / p else rho * k) / (16 * 2 ^ group)

def groupsN (group : Nat) : Nat := 128 / (16 * 2 ^ group)

/-! ### RELAYOUT into array-ready layouts (R185) -/

/-- A source position for the array-ready layouts: indices along the two source dimensions, with PERM. -/
def srcPos (swap : Bool) (d0 d1 : Nat) : List Int := if swap then [(d1 : Int), (d0 : Int)] else [(d0 : Int), (d1 : Int)]

/-- The position lies in the source's padded extent; indices here count from zero. -/
def inPadded (t : Tensor) (p : List Int) : Bool := t.classOf p != .outside

/-- A source element converted to a format through the tally unit, for an array-ready destination. -/
def convReady (w : Who) (dst src : Tensor) (p : List Int) (fmt rnd : Nat) (scale : FVal) : M Nat := do
  let f := (Fmt.ofCode fmt).getD .e8m0
  let x ← src.read w p
  let e := src.flatIndex p
  let mode ← (if x.const then pure Rnd.rne else rndOf w rnd dst.tid e)
  let z := FVal.div x.val scale
  let r := f.conv mode z
  if !x.const then tallyElem fmt x.val z (FVal.mul (f.decode r.1) scale) r.1 r.2 false 0 e none
  return r.1

def vzero (va n : Nat) : M Unit := vput va (List.replicate n 0)

/-- RELAYOUT into an ARRAY_ACT tensor (R177, R178, R185, R592). -/
def relayAct (w : Who) (src dst : Tensor) (swap : Bool) (redBase rnd : Nat) : M Unit := do
  match Fmt.ofCode dst.fmt with
  | none => invalid
  | some f =>
    let a := f.computeWidth
    require (a != 0)
    let pk := dst.packing
    let rho := rakeRows a
    let kN := (dst.dim 0).g
    let mN := (dst.dim 1).g
    let pN := (dst.dim 2).g
    let ng := groupsN dst.group
    vzero dst.base (64 * dst.actBeats)
    if f.isFloat then vzero dst.actSeBase (2 * kN * dst.actBeats)
    (List.range pN).forM (fun j => (List.range mN).forM (fun m => (List.range kN).forM (fun k => do
      let p := srcPos swap (redBase + j * kN + k) m
      if inPadded src p then do
        let s ← dst.actScale w m j (groupOf k pk rho dst.group) ng
        let c ← convReady w dst src p dst.fmt rnd s
        let q := j * dst.actS + m
        if pk > 1 then
          let x := dst.actNibble q (k / pk)
          vputBits w x.1 (x.2 + k % pk * (4 / pk)) (4 / pk) (codeSlices f (4 / pk) c)
        else
          let v := codeSlices f (4 * rho) c
          (List.range rho).forM (fun i =>
            let x := dst.actNibble q (rho * k + i)
            vputBits w x.1 x.2 4 (v / 16 ^ i % 16))
        if f.isFloat then vput (dst.actEntry q k rho) (leBytes 2 (codeEntry f c)))))

/-- One weight written into a tile: its slices in every row of its rake, and its plane entry. -/
def putWeight (w : Who) (dst : Tensor) (j i k pk rho col : Nat) (fmt : Nat) (c : Nat) : M Unit := do
  let f := (Fmt.ofCode fmt).getD .e8m0
  let part := tilePart dst.base j i
  if pk > 1 then
    let r := k / pk
    vputBits w (part + r * 256 + col / 2) (col % 2 * 4 + k % pk * (4 / pk)) (4 / pk) (codeSlices f (4 / pk) c)
  else
    let cw := rakeCols fmt
    let v := codeSlices f (4 * cw) c
    (List.range rho).forM (fun i' => (List.range cw).forM (fun u =>
      vputBits w (part + (rho * k + i') * 256 + (col + u) / 2) ((col + u) % 2 * 4) 4 (v / 16 ^ u % 16)))
    if f.isFloat then vput (wtEntryAddr dst.base (dst.dim 0).g j i (rho * k) col) (leBytes 2 (codeEntry f c))

/-- RELAYOUT into an ARRAY_WT tensor by the panel maps of a STREAM extension (R180, R185, R592). -/
def relayWt (w : Who) (src dst : Tensor) (swap : Bool) (redBase rnd : Nat) (x : StreamExt) : M Unit := do
  match Fmt.ofCode x.aFmt with
  | none => invalid
  | some fa =>
    let a := fa.computeWidth
    let pk := dst.packing
    let rho := rakeRows a
    let kN := 128 * pk / rho
    let ng := groupsN dst.group
    (List.range (dst.dim 0).g).forM (fun j => do
      let maps ← (taking x.arrays).mapM (fun i => do return (i, halvesOf (← readPanels w x i j)))
      -- a BLOCKED source must hold every covered block in the panel's format
      if src.layout = .blocked then
        maps.forM (fun ih => ih.2.forM (fun h => (List.range h.rakes).forM (fun u => (List.range kN).forM (fun k => do
          let p := srcPos swap (x.outCh.getD ih.1 0 + h.slot0 + u) (redBase + j * kN + k)
          if inPadded src p then
            let fe ← src.fmtAt w p
            if fe.1 ≠ h.fmt then invalid))))
      maps.forM (fun ih => do
        vzero (tilePart dst.base j ih.1) 32768
        if fa.isFloat then vzero (wtEntryAddr dst.base (dst.dim 0).g j ih.1 0 0) 131072
        ih.2.forM (fun h => (List.range h.rakes).forM (fun u => (List.range kN).forM (fun k => do
          let slot := h.slot0 + u
          let p := srcPos swap (x.outCh.getD ih.1 0 + slot) (redBase + j * kN + k)
          if inPadded src p then
            let s ← (if dst.scaleKind = 0 then pure FVal.one else do
              let v ← oreadNat w (wtScaleAddr dst j ih.1 slot (groupOf k pk rho dst.group) ng) (scaleBytes dst.scaleKind)
              pure (scaleVal dst.scaleKind v))
            let c ← convReady w dst src p h.fmt rnd s
            putWeight w dst j ih.1 k pk rho (32 * h.panel + (h.rake0 + u) * rakeCols h.fmt) h.fmt c)))))

end Sys2Proof.Machine
end

