-- ==== Sys2Proof/Machine/Xfer.lean ====
section
/-! DEFINITION. The work of an XFER command: validation and the five modes (R176, R183 to R195, R253, R377). -/

namespace Sys2Proof.Machine

structure XferArgs where
  mode    : Nat
  rnd     : Nat
  range   : Nat
  permEn  : Bool
  perm    : List Nat
  src     : Tensor
  dst     : Tensor
  list    : Nat
  listN   : Nat
  blk     : List Nat
  redBase : Nat
  ext     : Option StreamExt
  peer    : Nat
  remote  : Bool
  deriving DecidableEq, Repr

/-! ### Validation -/

/-- The source dimension that destination dimension d takes (R183). -/
def XferArgs.permOf (x : XferArgs) (d : Nat) : Nat := if x.permEn then x.perm.getD d 0 else d

/-- PERM is a permutation of the first n dimensions, with zero beyond (R184, R185). -/
def permOk (perm : List Nat) (n : Nat) : Bool :=
  (List.range n).all (fun i => (perm.take n).contains i) && (perm.drop n).all (fun p => p == 0)

/-- The local indices of a dimension that a command writes: valid, or with PAD_WRITE the padded extent. -/
def writeRange (t : Tensor) (d : Dim) : Int × Nat := if t.padWrite then (-(d.padLo : Int), d.e) else (0, d.v)

/-- Positions that a command writes (R175, R176). -/
def Tensor.writable (t : Tensor) : List (List Int) := positions (t.dims.map (writeRange t))

/-- Every written index of a dimension lies within the source dimension's padded extent. -/
def idxWithin (t : Tensor) (d s : Dim) : Bool :=
  let r := writeRange t d
  r.2 == 0 || (decide (-(s.padLo : Int) ≤ r.1) && decide (r.1 + (r.2 : Nat) ≤ ((s.l + s.padHi : Nat) : Int)))

/-- Every position that a command writes has its source index within the source's padded extent (R184); where it writes none,
no index lies outside. `src` gives the source dimension of each destination dimension. -/
def sourceCovers (dst : Tensor) (src : Nat → Dim) : Bool :=
  dst.dims.any (fun d => (writeRange dst d).2 == 0) || (List.range dst.ndim).all (fun i => idxWithin dst (dst.dim i) (src i))

/-- Halo positions of a dimension below and above its shard. -/
def Dim.haloCount (d : Dim) : Nat × Nat :=
  let idx := (List.range d.e).map (fun j => ((j : Nat) : Int) - d.padLo)
  let halo := idx.filter (fun i => decide (0 ≤ d.gOf i) && decide (d.gOf i < d.g) && (decide (i < 0) || decide (i ≥ (d.v : Int))))
  ((halo.filter (fun i => decide (i < 0))).length, (halo.filter (fun i => decide (0 ≤ i))).length)

/-- Some index of a dimension's padded extent is no global padding. -/
def Dim.anyReal (d : Dim) : Bool := decide (d.padIdx.length < d.e)

/-- The dimensions of a tensor that hold a halo position, with their counts. Where another dimension makes every position global
padding, no position is halo (R172). -/
def Tensor.haloDims (t : Tensor) : List (Nat × Nat × Nat) :=
  if !t.dims.all Dim.anyReal then []
  else ((List.range t.ndim).map (fun i => (i, (t.dim i).haloCount))).filter (fun x => x.2.1 + x.2.2 != 0)

/-- DESC_PAD_OVERLAP (R176): the first dimension and side that hold a halo position reject the command. -/
def padOverlap (w : Who) (t : Tensor) : M Unit := do
  match t.haloDims with
  | [] => pure ()
  | (i, lo, hi) :: _ => do
    let q := if lo ≠ 0 then lo % 2 ^ 28 else 2 ^ 31 + hi % 2 ^ 28
    raiseCarried (pgFet w.core) 0x0202 (q + i * 2 ^ 28) 0
    invalid

/-- The command converts elements: RELAYOUT and SCATTER_ADD always, the other list modes where formats differ or a scale applies
(R184, R188, R190, R590). -/
def XferArgs.converts (x : XferArgs) : Bool :=
  x.mode == 1 || x.mode == 4 || (2 ≤ x.mode && (x.src.fmt != x.dst.fmt || x.src.scaleKind != 0 || x.dst.scaleKind != 0))

/-- A gather or scatter operand (R187). -/
def listOperand (t : Tensor) : Bool := t.ndim ≤ 4 && t.layout == .linear && t.steer.isNone && !t.padWrite

/-- Blocks of a tensor along each dimension (R188). -/
def gridOf (t : Tensor) (blk : List Nat) : List Nat :=
  (List.range t.ndim).map (fun i => ((t.dim i).v + blk.getD i 1 - 1) / blk.getD i 1)

/-- Formats that SCATTER_ADD writes (R190). -/
def addFmt (code : Nat) : Bool :=
  code ≤ 2 || (match Fmt.ofCode code with | some f => f.isInt && (f.bits == 8 || f.bits == 16) | none => false)

/-- The formats that the elements of two tensors now have agree, block by block. -/
def sameFormats (w : Who) (a b : Tensor) : M Bool := do
  if a.steer.isNone ∧ b.steer.isNone then return a.fmt == b.fmt
  else
    (b.validPositions).allM (fun p => do return (← a.fmtAt w p).1 == (← b.fmtAt w p).1)

/-- The fields of an XFER that its descriptor's words decide (R183, R377). -/
def xferFields (t : Desc) : Bool :=
  t.arg 34 32 ≤ 4 && t.arg 38 37 != 3 && !t.w6.bit 63 && (!t.w6.bit 62 || t.arg 34 32 ≤ 1)

/-- What an XFER does with its operands (R170, R183, R185, R377). -/
def xferSource (t : Desc) : Role := { dest := false, padWrite := false, array := t.arg 34 32 == 1 }
def xferDest (t : Desc) : Role :=
  { dest := true, padWrite := t.arg 34 32 ≤ 1, array := t.arg 34 32 == 1 && !t.w6.bit 62, remote := t.w6.bit 62 }

def XferArgs.ready (x : XferArgs) : Bool := x.dst.layout.ready

/-- The arguments of an XFER between two tensors (R183). -/
def xferArgs (t : Desc) (src dst : Tensor) : XferArgs :=
  { mode := t.arg 34 32, rnd := t.arg 36 35, range := t.arg 38 37, permEn := t.w0.bit 39,
    perm := (List.range 6).map (fun d => t.arg (40 + 3 * d + 2) (40 + 3 * d)), src := src, dst := dst, list := t.w3.field 47 0,
    listN := t.w4.field 23 0 + 1, blk := (List.range 4).map (fun d => t.w5.field (16 * d + 15) (16 * d) + 1),
    redBase := t.w4.field 63 32, ext := none, peer := t.w6.field 61 48, remote := t.w6.bit 62 }

/-- Operand words that a mode does not use are zero, and a peer's destination is LINEAR (R183, R377). -/
def XferArgs.wordsOk (x : XferArgs) (t : Desc) : Bool :=
  x.src.layout != .wt && (t.w6.field 47 0 == 0 || (x.mode == 1 && x.dst.layout == .wt)) && (!x.remote || x.dst.layout == .linear)
    && (2 ≤ x.mode || (t.w3 == 0 && t.w5 == 0 && t.w4.field 31 0 == 0 && (x.redBase == 0 || x.ready)))
    && (x.mode ≤ 1 || (t.w3.field 63 48 == 0 && t.w4.field 31 24 == 0))

/-- COPY (R184). -/
def XferArgs.copyOk (x : XferArgs) : Bool :=
  !x.permEn && x.src.layout == x.dst.layout && x.src.ls == x.dst.ls && x.src.scaleKind == x.dst.scaleKind
    && x.src.scaleLog2 == x.dst.scaleLog2 && x.src.scaleDim == x.dst.scaleDim
    && (x.src.fmt == x.dst.fmt || x.src.steer.isSome || x.dst.steer.isSome) && sourceCovers x.dst x.src.dim

/-- RELAYOUT (R184, R185). -/
def XferArgs.relayOk (x : XferArgs) : Bool :=
  if !x.ready then
    x.src.ndim == x.dst.ndim && (!x.permEn || permOk x.perm x.dst.ndim) && sourceCovers x.dst (fun d => x.src.dim (x.permOf d))
  else
    x.src.ndim == 2 && x.src.layout != .act && x.dst.pack != 3 && (!x.permEn || permOk x.perm 2)
      && (if x.dst.layout = .act then
          let a := ((Fmt.ofCode x.dst.fmt).getD .e8m0).computeWidth
          x.dst.ndim == 3 && a != 0 && x.dst.packing * a ≤ max 4 a && (x.dst.dim 0).g == 128 * x.dst.packing / rakeRows a
        else x.redBase % 128 == 0)

/-- GATHER, SCATTER and SCATTER_ADD (R187 to R191). -/
def XferArgs.listOk (x : XferArgs) (d : Dev) : Bool :=
  listOperand x.src && listOperand x.dst && x.src.ndim == x.dst.ndim && x.list % 16 == 0 && !d.namesKept x.list (16 * x.listN) false
    && (gridOf (if x.mode = 2 then x.dst else x.src) x.blk).foldl (· * ·) 1 ≥ x.listN && (x.mode != 4 || addFmt x.dst.fmt)
    && !(x.mode == 2 && x.range == 2 && x.dst.fmt == 0x10)

/-- The operands of an XFER agree with its mode (R52, R60, R63, R183 to R191); no conversion takes E8M0 as its source. -/
def XferArgs.accepted (x : XferArgs) (d : Dev) (w : Who) : Bool :=
  !(x.converts && x.src.steer.isNone && x.src.fmt == 0x08)
    && d.roundingOk w x.rnd ((if x.ready then x.src.gs else x.dst.gs).foldl (· * ·) 1) x.converts
    && (if x.mode = 0 then x.copyOk else if x.mode = 1 then x.relayOk else x.listOk d)

/-- The panel maps of a RELAYOUT into weight tiles (R183, R185). -/
def relayExt (w : Who) (va : Nat) (dst : Tensor) : M StreamExt := do
  let e ← readStreamExt w va
  let d ← getDev
  require (e.pmapOk d (dst.dim 0).g && (!(Fmt.ofCode e.aFmt).any Fmt.isFloat || dst.wtPlaneOk d))
  (List.range (dst.dim 0).g).forM (fun j => (taking e.arrays).forM (fun i => do
    require (panelsOk e.aFmt (← readPanels w e i j))))
  return e

/-- Validation of an XFER (R183 to R191, R195, R377). -/
def parseXfer (w : Who) (t : Desc) : M XferArgs := do
  require (xferFields t)
  let src ← tensor w (← addrWord t.w1) (xferSource t)
  let dst ← tensor w (← addrWord t.w2) (xferDest t)
  let x := xferArgs t src dst
  require (x.wordsOk t)
  if x.mode ≤ 1 ∧ dst.padWrite ∧ !x.ready then padOverlap w dst
  require (x.accepted (← getDev) w)
  if x.mode = 0 then require (← sameFormats w src dst)
  if x.mode = 1 ∧ dst.layout = .wt then return { x with ext := some (← relayExt w (t.w6.field 47 0) dst) }
  else return x

/-! ### COPY and RELAYOUT -/

/-- The stored bits of a source position, or the value of a constant that R173 synthesises. -/
def copyOne (w : Who) (x : XferArgs) (p : List Int) : M Unit := do
  if x.src.classOf p = .pad then do
    if x.src.padMode = 2 ∨ x.src.padMode = 3 then
      modDev (fun d => d.count (pgFet w.core) 0x17 1)
      let p' := (x.src.dims.zip p).map (fun y => if y.1.gOf y.2 < 0 || y.1.gOf y.2 ≥ y.1.g then y.1.mirror x.src.padMode y.2 else y.2)
      x.dst.putBits w p (← x.src.storedBits w p')
    else x.dst.write w p (← x.src.read w p) 0 0
  else x.dst.putBits w p (← x.src.storedBits w p)

/-- The source index of a destination index after PERM (R184). -/
def XferArgs.srcIndex (x : XferArgs) (p : List Int) : List Int :=
  (List.range x.src.ndim).map (fun s =>
    match (List.range x.dst.ndim).find? (fun d => x.permOf d == s) with
    | some d => p.getD d 0
    | none => 0)

def relayOne (w : Who) (x : XferArgs) (p : List Int) : M Unit := do
  let e ← x.src.read w (x.srcIndex p)
  x.dst.write w p e x.rnd (x.dst.flatIndex p)

/-! ### Lists (R187 to R192) -/

/-- Coordinates of entry e. -/
def coordsOf (w : Who) (x : XferArgs) (e : Nat) : M (List Int) := do
  (List.range 4).mapM (fun i => do
    let v ← oreadNat w (x.list + 16 * e + 4 * i) 4
    return signedOf 32 v)

/-- Block e of a grid, dimension 0 fastest. -/
def blockCoords (grid : List Nat) (e : Nat) : List Int :=
  match grid with
  | [] => []
  | g :: rest => ((if g = 0 then 0 else e % g : Nat) : Int) :: blockCoords rest (if g = 0 then 0 else e / g)

/-- What RANGE makes of an entry: its block, or none where it is zero-filled or skipped (R191). -/
inductive Entry where
  | block (c : List Int) (clamped : Bool)
  | zero
  | bad (dim : Nat) (above : Bool)
  deriving DecidableEq, Repr

def entryOf (grid : List Nat) (range : Nat) (cs : List Int) : Entry :=
  let n := (List.range 4).map (fun i => grid.getD i 1)
  let inRange := fun (i : Nat) => decide (0 ≤ cs.getD i 0) && decide (cs.getD i 0 < ((n.getD i 1 : Nat) : Int))
  match (List.range 4).find? (fun i => !inRange i) with
  | none => .block cs false
  | some d =>
    if range = 0 then .bad d (decide (0 ≤ cs.getD d 0))
    else if range = 1 ∧ n.all (· != 0) then
      .block ((List.range 4).map (fun i => clampInt 0 (((n.getD i 1 : Nat) : Int) - 1) (cs.getD i 0))) true
    else .zero

/-- Index offsets within a block. -/
def blockOffsets (ndim : Nat) (blk : List Nat) : List (List Int) :=
  positions ((List.range ndim).map (fun i => ((0 : Int), blk.getD i 1)))

def atBlock (blk : List Nat) (c o : List Int) : List Int :=
  (List.range o.length).map (fun i => c.getD i 0 * ((blk.getD i 1 : Nat) : Int) + o.getD i 0)

def isValid (t : Tensor) (p : List Int) : Bool := (t.dims.zip p).all (fun x => decide (0 ≤ x.2) && decide (x.2 < (x.1.v : Int)))

/-- A source element of a block: the value of R173 within the padded extent; beyond it +0 in a gather (R189), and for a
scatter, where no rule states the value, a free value. -/
def blockElem (w : Who) (x : XferArgs) (p : List Int) : M Elem := do
  if x.src.classOf p != .outside then x.src.read w p
  else if x.mode = 2 then return { val := FVal.zero, const := true }
  else
    let f := (← getDev).takeFree
    setDev f.1
    return { val := dec32 (canon32 (f.2.setWidth 32)), const := false }

/-- One element moved: stored bits where the formats agree and no scale applies, a conversion elsewhere (R188, R590). A command
that converts no stored element rounds what it synthesises to nearest, and draws nothing (R63). -/
def moveElem (w : Who) (x : XferArgs) (p q : List Int) : M Unit := do
  if x.src.fmt = x.dst.fmt ∧ x.src.scaleKind = 0 ∧ x.dst.scaleKind = 0 ∧ (x.src.classOf p = .valid ∨ x.src.classOf p = .halo) then
    x.dst.putBits w q (← x.src.storedBits w p)
  else x.dst.write w q (← blockElem w x p) (if x.converts then x.rnd else 0) (x.dst.flatIndex q)

/-- n bits of a destination behind this command's own writes. -/
def peekBits (w : Who) (va bit n : Nat) : M Nat := do
  let a := va + bit / 8
  let bs ← (List.range ((bit % 8 + n + 7) / 8)).mapM (fun i => do
    let line ← lineOf w ((a + i) / 64)
    match (wbufLine (← get).wbuf ((a + i) / 64)).getD ((a + i) % 64) none with
    | some b => return b
    | none => return line.getD ((a + i) % 64) 0)
  return leNat bs / 2 ^ (bit % 8) % 2 ^ n

/-- One element added (R190). -/
def addElem (w : Who) (x : XferArgs) (p q : List Int) : M Unit := do
  match Fmt.ofCode x.dst.fmt with
  | none => invalid
  | some f =>
    let s ← blockElem w x p
    let pl := x.dst.place q f.bits
    let old := f.decode (← peekBits w pl.1 pl.2 f.bits)
    let d ← (if x.dst.scaleKind ≠ 0 then do return FVal.mul old (← x.dst.scaleAt w q) else pure old)
    let sum := FVal.add d s.val
    let r := if f.isFloat then dec32 (enc32 sum) else sum
    x.dst.write w q { val := r, const := false } x.rnd (x.dst.flatIndex q)

/-- GATHER serves an entry without a new read when fewer than 4,096 distinct blocks were named since the entry that
read its block (R190). The list holds the blocks named so far, latest first, with the mark of a read. -/
def coalesced (hist : List (List Int × Bool)) (c : List Int) : Bool :=
  let since := hist.takeWhile (fun h => !(h.2 && h.1 == c))
  since.length < hist.length && (since.map (fun h => h.1)).eraseDups.length < 4096

/-- Start addresses and lengths in bytes of the runs of a block of a LINEAR tensor (R186). -/
def blockRuns (t : Tensor) (blk : List Nat) (c : List Int) : List (Nat × Nat) :=
  let n := Fmt.codeWidth t.fmt
  let ext := (List.range t.ndim).map (fun i =>
    min (blk.getD i 1) ((t.dim i).v - (c.getD i 0).toNat * blk.getD i 1))
  let m := (List.range (t.ndim - 1)).foldl (fun m i =>
    if m = i + 1 ∧ ext.getD i 0 = (t.dim i).e ∧
        (t.dim (i + 1)).stride = (if i = 0 then ((t.dim i).e * n + 7) / 8 else (t.dim i).stride * (t.dim i).e)
    then m + 1 else m) 1
  let len := (if m = 1 then (ext.getD 0 0 * n + 7) / 8 else (t.dim (m - 1)).stride * ext.getD (m - 1) 0)
  (positions ((List.range t.ndim).map (fun i => ((0 : Int), if i < m then 1 else ext.getD i 0)))).map (fun o =>
    let p := t.place (atBlock blk c o) n
    (p.1 + p.2 / 8, len))

def misalignedRuns (l : List (Nat × Nat)) : Nat × Nat :=
  let bad := l.filter (fun r => r.1 % 512 != 0)
  (bad.length, (bad.map (fun r => r.2)).sum)

/-- What the entries applied so far leave: the blocks named, the runs of both operands that moved, and an entry that ended the
list. -/
structure ListState where
  hist : List (List Int × Bool)
  runs : List (Nat × Nat) × List (Nat × Nat)
  stop : Option Stop
  deriving DecidableEq, Repr

def ListState.moved (st : ListState) (src dst : List (Nat × Nat)) : ListState :=
  { st with runs := (st.runs.1 ++ src, st.runs.2 ++ dst) }

/-- One entry of a list (R188 to R192), after an entry that is out of range under FAULT no more. -/
def listEntry (w : Who) (x : XferArgs) (st : ListState) (e : Nat) : M ListState := do
  if st.stop.isSome then return st
  let target := if x.mode = 2 then x.src else x.dst
  let other := if x.mode = 2 then x.dst else x.src
  let cs ← coordsOf w x e
  let mine := blockCoords (gridOf other x.blk) e
  let offs := blockOffsets target.ndim x.blk
  let page := pgFet w.core
  match entryOf (gridOf target x.blk) x.range cs with
  | .bad d above => do
    raiseCarried page 0x0201 (d * 2 ^ 30 + (if above then 2 ^ 29 else 0) + e) 0
    return { st with stop := some (.fail 0x03 0) }
  | .zero => do
    modDev (fun d => d.count page 0x16 1)
    if x.mode = 2 then
      modDev (fun d => d.count page 0x12 1)
      offs.forM (fun o => do
        let q := atBlock x.blk mine o
        if isValid x.dst q then x.dst.putBits w q 0)
      return st.moved [] (blockRuns x.dst x.blk mine)
    else return st
  | .block c clamped => do
    let same := x.mode == 2 && coalesced st.hist c
    modDev (fun d => ((d.count page 0x15 (if clamped then 1 else 0)).count page (if x.mode = 2 then 0x12 else 0x14) 1).count page 0x13
      (if same then 1 else 0))
    offs.forM (fun o => do
      let a := atBlock x.blk c o
      let b := atBlock x.blk mine o
      let p := if x.mode = 2 then a else b
      let q := if x.mode = 2 then b else a
      if isValid x.dst q then
        if x.mode = 4 then addElem w x p q else moveElem w x p q)
    let rt := blockRuns target x.blk c
    let ro := blockRuns other x.blk mine
    let st := { st with hist := (c, !same) :: st.hist }
    return if x.mode = 2 then st.moved (if same then [] else rt) ro else st.moved ro rt

/-- The work of a validated XFER, up to its writes leaving the core. -/
def xferBody (w : Who) (x : XferArgs) : M Unit := do
  if x.mode = 0 then
    x.dst.writable.forM (copyOne w x)
    reportMisalign w 0 (← x.src.misaligned w)
    reportMisalign w 1 (← x.dst.misaligned w)
  else if x.mode = 1 then
    match x.dst.layout with
    | .act => relayAct w x.src x.dst (x.permEn && x.perm.getD 0 0 == 1) x.redBase x.rnd
    | .wt =>
      match x.ext with
      | some e => relayWt w x.src x.dst (x.permEn && x.perm.getD 0 0 == 1) x.redBase x.rnd e
      | none => invalid
    | _ => x.dst.writable.forM (relayOne w x)
    reportMisalign w 0 (← x.src.misaligned w)
    reportMisalign w 1 (← x.dst.misaligned w)
  else do
    let st ← (List.range x.listN).foldlM (listEntry w x) { hist := [], runs := ([], []), stop := none }
    reportMisalign w 0 (misalignedRuns st.runs.1)
    reportMisalign w 1 (misalignedRuns st.runs.2)
    match st.stop with
    | some e => throw e
    | none => pure ()

/-- An XFER whose destination lies on this device. -/
def xferLocal (w : Who) (x : XferArgs) : M Unit := withDest w x.dst (xferBody w x)

end Sys2Proof.Machine
end

