-- ==== Sys2Proof/Machine/Arrays.lean ====
section
/-! DEFINITION. The arrays and the tender: weight buffers, TILE_LOAD and STREAM (R66 to R72, R77 to R102, R146 to R154,
R180 to R182, R254, R255, R593). -/

namespace Sys2Proof.Machine

/-! ### Weight buffers (R95, R96) -/

def Tile.byte (t : Tile) (o : Nat) : Nat := (KV.get (0 : Byte) t.cells o).toNat

/-- The nibble of the cell at row r and column c. -/
def Tile.nibble (t : Tile) (r c : Nat) : Nat := t.byte (r * 256 + c / 2) / (if c % 2 = 1 then 16 else 1) % 16

/-- The sign-and-exponent entry of row r and column c. -/
def Tile.entry (t : Tile) (r c : Nat) : Nat := t.byte (32768 + r * 1024 + 2 * c) + 256 * t.byte (32768 + r * 1024 + 2 * c + 1)

def Dev.buf (d : Dev) (c i : Nat) : ArrayBuf := (d.core c).arrays.getD i ArrayBuf.empty
def Dev.setBuf (d : Dev) (c i : Nat) (b : ArrayBuf) : Dev := d.modCore c (fun k => { k with arrays := k.arrays.set i b })

/-- The bytes of a range that are not zero, under their offsets. -/
def listed (off : Nat) (bs : List Byte) : List Host.Cell :=
  (((List.range bs.length).zip bs).filter (fun x => x.2 != 0)).map (fun x => (off + x.1, x.2))

/-- The column of an array that a byte of a tile belongs to: two columns share a nibble byte. -/
def tileCol (o : Nat) : Nat := if o < 32768 then o % 256 * 2 else (o - 32768) % 1024 / 2

/-- The columns of the enabled halves of an array's panels (R84, R85). -/
def enabledCols (hs : List PHalf) (col : Nat) : Bool :=
  hs.any (fun h => 32 * h.panel + h.rake0 * rakeCols h.fmt ≤ col && col < 32 * h.panel + (h.rake0 + h.rakes) * rakeCols h.fmt)

/-- A tile's cells after a load: enabled columns hold the new bytes, and no weights are loaded into the others (R85). -/
def mergeCells (cols : Nat → Bool) (old new : List Host.Cell) : List Host.Cell :=
  (old.filter (fun c => !cols (tileCol c.1))).foldl (fun l c => KV.set l c.1 c.2) (new.filter (fun c => cols (tileCol c.1)))

/-- Address and length of the sign-and-exponent plane of array i's part of tile j (R592). -/
def planePart (wt : Tensor) (j i : Nat) : Nat := wtEntryAddr wt.base (wt.dim 0).g j i 0 0

/-- Every line of a range can be read by the task: it translates with permission, and its data is intact. -/
def Dev.canRead (d : Dev) (w : Who) (va n : Nat) : Bool :=
  (pageChunks va n).all (fun pc =>
    match d.walk pc.1 with
    | .error _ => false
    | .ok l =>
      match leafCheck l false w.secure with
      | .error _ => false
      | .ok f => (chunks (f * 65536 + pc.1 % 65536) pc.2).all (fun ch => d.lineClean ch.1 && d.reachesFrom (w.core / 4) ch.1))

/-- A load into the shadow buffer of array i: its valid bit clears with the first row, its tag is set with the last (R96). The
columns that take no weights keep what they hold (R85). `plane` tells whether the plane of R592 is loaded too. -/
def loadShadow (w : Who) (wt : Tensor) (j i pa : Nat) (cols : Nat → Bool) (plane : Bool) : M Unit := do
  modDev (fun d => d.setBuf w.core i { d.buf w.core i with shd := { (d.buf w.core i).shd with valid := false } })
  let nib ← oread w (tilePart wt.base j i) 32768
  let pl ← (if plane then oread w (planePart wt j i) 131072 else pure [])
  let old := ((← getDev).buf w.core i).shd.cells
  let t : Tile := { valid := true, addr := pa, plane := plane, cells := mergeCells cols old (listed 0 nib ++ listed 32768 pl) }
  modDev (fun d => d.setBuf w.core i { d.buf w.core i with shd := t })

/-- The plane of a tile that a TILE_LOAD left without it is read when a Float-class pass first uses the tile (log 12). -/
def needPlane (w : Who) (wt : Tensor) (j i : Nat) (cols : Nat → Bool) : M Unit := do
  let b := (← getDev).buf w.core i
  if b.cur.plane then pure ()
  else do
    let pl ← oread w (planePart wt j i) 131072
    let cells := mergeCells cols b.cur.cells (b.cur.cells.filter (fun c => decide (c.1 < 32768)) ++ listed 32768 pl)
    modDev (fun d => d.setBuf w.core i { d.buf w.core i with cur := { b.cur with plane := true, cells := cells } })

/-- The two buffers of array i exchange roles. -/
def swapBuf (w : Who) (i : Nat) : M Unit :=
  modDev (fun d => let b := d.buf w.core i; d.setBuf w.core i { cur := b.shd, shd := b.cur })

/-- The physical address of tile j. -/
def tilePa (w : Who) (wt : Tensor) (j : Nat) : M Nat := xlat w (wt.base + j * tileBytes) false

/-! ### TILE_LOAD (R95, R593) -/

structure TileArgs where
  arrays : Nat
  pass   : Nat
  wt     : Tensor
  deriving DecidableEq, Repr

def parseTileLoad (w : Who) (t : Desc) : M TileArgs := do
  require t.oneWord
  let arrays := t.arg 35 32
  let pass := t.arg 43 36
  let wt ← tensor w (← addrWord t.w1) Role.arrayReady
  require (wt.layout == .wt && arrays != 0 && pass < (wt.dim 0).g)
  return { arrays := arrays, pass := pass, wt := wt }

/-- The arrays that the task's command takes (R109). -/
def takeArrays (w : Who) (arrays : Nat) : M Unit := modDev (fun d => d.modCtx w.core w.ctx (fun t => { t with arrays := arrays }))

/-- A TILE_LOAD has no panel map and no format: it loads every column, and the plane where it can be read (log 12). -/
def tileLoadBody (w : Who) (a : TileArgs) : M Unit := do
  takeArrays w a.arrays
  let pa ← tilePa w a.wt a.pass
  (taking a.arrays).forM (fun i => do
    let plane := (← getDev).canRead w (planePart a.wt a.pass i) 131072
    loadShadow w a.wt a.pass i pa (fun _ => true) plane)

/-! ### STREAM: validation -/

structure StreamArgs where
  x   : StreamExt
  act : Tensor
  wt  : Tensor
  dst : Option Tensor
  pk  : Nat
  deriving DecidableEq, Repr

def StreamArgs.rho (a : StreamArgs) : Nat := rakeRows (fmtWidth a.x.aFmt)
/-- K of R88. -/
def StreamArgs.k (a : StreamArgs) : Nat := 128 * a.pk / a.rho

/-- Compute width with every width below 4 counted as 4 (R101). -/
def cellWidth (fmt : Nat) : Nat := max 4 (fmtWidth fmt)

/-- Formats of the distance and comparison operations (R101). -/
def opFormats (op a w : Nat) : Bool :=
  match Fmt.ofCode a, Fmt.ofCode w with
  | some f, some g =>
    let cw := cellWidth a
    cw == cellWidth w &&
      (match op with
       | 1 => f.isInt && g.isInt && cw ≤ 8
       | 2 => f.isInt && g.isInt && cw == 4
       | 3 => f.isInt && g.isInt && cw ≤ 8
       | _ => ((f.isInt && g.isInt) || (f.isFloat && g.isFloat)) && cw ≤ 8 && f.computeWidth != 0 && g.computeWidth != 0)
  | _, _ => false

/-- The halves of every array taking part in pass j. -/
def passHalves (w : Who) (x : StreamExt) (j : Nat) : M (List (Nat × List PHalf)) :=
  (taking x.arrays).mapM (fun i => do return (i, halvesOf (← readPanels w x i j)))

/-- The packing factor of a pass (R83). -/
def passPack (x : StreamExt) (hs : List (Nat × List PHalf)) : Nat :=
  hs.foldl (fun m h => min m (ownPack (fmtWidth x.aFmt) x.op h.2)) 4

/-- The block length of an operand's scales agrees with the group length (R94). -/
def scaleOk (t : Tensor) (kind len : Nat) : Bool :=
  t.scaleKind == kind && (kind == 0 || (2 ^ t.scaleLog2 == len && (kind != 1 || len == 32) && (kind != 2 || len == 16)))

/-- Every output slot that the enabled rakes of a pass write, by array. -/
def slotsOf (hs : List (Nat × List PHalf)) : List (Nat × Nat) :=
  hs.flatMap (fun ih => ih.2.flatMap (fun h => (List.range h.rakes).map (fun u => (ih.1, h.slot0 + u))))

/-- The sign-and-exponent planes of Float-class operands lie in a core store like the rest of them (R195, R592). -/
def planesOk (d : Dev) (act wt : Tensor) (aFmt : Nat) : Bool :=
  let n := 2 * (act.dim 0).g * act.actBeats
  !(Fmt.ofCode aFmt).any Fmt.isFloat
    || (d.pagesIn act.actSeBase n inCoreStore && !d.namesKept act.actSeBase n false && wt.wtPlaneOk d)

/-- The panel maps of every pass: of each array taking part, its panels. -/
def readMaps (w : Who) (x : StreamExt) : M (List (List (List Panel))) :=
  (List.range x.p).mapM (fun j => (taking x.arrays).mapM (fun i => readPanels w x i j))

/-- The enabled halves of the arrays in a pass. -/
def mapHalves (x : StreamExt) (maps : List (List Panel)) : List (Nat × List PHalf) := (taking x.arrays).zip (maps.map halvesOf)

/-- A STREAM with the panel maps of its passes. DESIGN CHOICE (log 81): where FMT of the ARRAY_ACT descriptor differs from A_FMT
the passes compute with A_FMT; no rule demands that they agree. -/
def streamArgs (x : StreamExt) (act wt : Tensor) (dst : Option Tensor) (maps : List (List (List Panel))) : StreamArgs :=
  { x := x, act := { act with fmt := x.aFmt }, wt := wt, dst := dst, pk := passPack x (mapHalves x (maps.getD 0 [])) }

/-- The parameters alone (R89, R100). -/
def StreamExt.fieldsOk (x : StreamExt) (act wt : Tensor) (dst : Option Tensor) : Bool :=
  x.op ≤ 5 && x.red ≤ 2 && (x.op != 0 || x.red == 0) && x.arrays != 0 && x.accRow + x.m ≤ 2048 && x.outRnd != 3
    && act.layout == .act && wt.layout == .wt && act.ndim == 3 && (dst.any (fun t => t.steer.isSome) || (Fmt.ofCode x.outFmt).isSome)

/-- The panel maps of the passes (R53, R82, R83, R87, R101). -/
def StreamArgs.mapsOk (s : StreamArgs) (maps : List (List (List Panel))) : Bool :=
  maps.all (fun ms => ms.all (panelsOk s.x.aFmt)
    && (s.x.op == 0 || ms.all (fun ps => ps.all (fun p => !(p.enLo || p.enHi) || opFormats s.x.op s.x.aFmt p.fmt)))
    && passPack s.x (mapHalves s.x ms) == s.pk)

/-- The geometry of the operands (R88, R94, R152, R177, R180). -/
def StreamArgs.shapeOk (s : StreamArgs) : Bool :=
  let x := s.x
  let len := 16 * 2 ^ x.group * s.pk / s.rho
  x.kLast ≤ s.k && (s.act.dim 0).g == s.k && (s.act.dim 1).g == x.m && (s.act.dim 2).g == x.p
    && s.act.pack == (if s.pk = 4 then 2 else if s.pk = 2 then 1 else 0) && x.p ≤ (s.wt.dim 0).g
    && s.act.group == x.group && s.wt.group == x.group && scaleOk s.act x.scaleA len && scaleOk s.wt x.scaleW len
    && (x.op == 0 || (x.scaleA == 0 && x.scaleW == 0 && !x.tdrEn))

/-- The first tile is held by every array taking part. -/
def StreamArgs.tileHeld (s : StreamArgs) (d : Dev) (w : Who) : Bool :=
  (taking s.x.arrays).all (fun i =>
    let b := d.buf w.core i
    (d.physOf s.wt.base).any (fun p => (b.cur.valid && b.cur.addr == p) || (b.shd.valid && b.shd.addr == p)))

/-- The issue estimate (R91). -/
def StreamArgs.inTime (s : StreamArgs) (d : Dev) (w : Who) : Bool :=
  (if s.tileHeld d w then 0 else 128) + s.x.p * max s.x.m 128 + 160 ≤ 65536

/-- The channels that the last pass writes: lowest and highest. -/
def StreamArgs.channels (s : StreamArgs) (maps : List (List (List Panel))) : Nat × Nat :=
  let chans := (slotsOf (mapHalves s.x (maps.getD (s.x.p - 1) []))).map (fun is => s.x.outCh.getD is.1 0 + is.2)
  (chans.foldl min 0x20000, chans.foldl max 0)

/-- The output stage (R100). -/
def StreamArgs.outOk (s : StreamArgs) (d : Dev) (w : Who) (maps : List (List (List Panel))) : Bool :=
  let x := s.x
  (x.chtab == 0 || d.pagesIn x.chtab 8 inCoreStore)
    && s.dst.all (fun t =>
      t.layout == .linear && t.ndim == 2 && !t.padWrite && t.inOwnStore d w && (t.steer.isSome || x.outFmt == t.fmt)
        && d.roundingOk w x.outRnd (t.gs.foldl (· * ·) 1) true
        && (x.chtab == 0
          || (let ch := s.channels maps
              !d.namesKept (x.chtab + 8 * ch.1) (8 * (ch.2 + 1 - ch.1)) false
                && d.pagesIn (x.chtab + 8 * ch.1) (8 * (ch.2 + 1 - ch.1)) inCoreStore)))

/-- The tender's parameters (R152). -/
def StreamArgs.tenderOk (s : StreamArgs) (d : Dev) : Bool :=
  let x := s.x
  !x.tdrEn
    || (x.rc ≤ 8 && x.corrPass < x.p && x.olist % 64 == 0 && x.tdrW % 4096 == 0 && x.tdrAct % 2 == 0
      && x.tdrActStride % 64 == 0 && x.z % 16 == 0 && x.redBase % 128 == 0
      && (x.olist == 0 || !d.namesKept x.olist ((x.p - 1) * x.olistStride + 64) false)
      && !d.namesKept x.tdrW (x.p * 32768) false
      && !d.namesKept x.tdrAct ((x.m - 1) * x.tdrActStride + 2 * x.p * s.k) false
      && (x.rc == 0 || !d.namesKept x.z ((x.m - 1) * 16 + 2 * x.rc) false))

/-- A STREAM passes the checks of R87 to R101, R152 and R182. -/
def StreamArgs.accepted (s : StreamArgs) (d : Dev) (w : Who) (maps : List (List (List Panel))) : Bool :=
  s.mapsOk maps && s.shapeOk && planesOk d s.act s.wt s.x.aFmt && s.inTime d w && s.outOk d w maps && s.tenderOk d

/-- Validation of a STREAM whose extension and descriptors are at hand (R87 to R101, R152, R182). -/
def checkStream (w : Who) (x : StreamExt) (act wt : Tensor) (dst : Option Tensor) : M StreamArgs := do
  require (x.fieldsOk act wt dst && x.pmapOk (← getDev) x.p)
  let maps ← readMaps w x
  let s := streamArgs x act wt dst maps
  require (s.accepted (← getDev) w maps)
  if x.tdrEn ∧ x.olist ≠ 0 then
    (List.range x.p).forM (fun j => do
      require ((← oreadNat w (x.olist + j * x.olistStride) 2) ≤ 31))
  return s

/-- The destination of a STREAM, where it has one (R89, R100). -/
def streamDest (w : Who) (out : Nat) (v : W64) : M (Option Tensor) := do
  if out = 1 then return some (← tensor w (← addrWord v) Role.destination)
  else do
    require (v == 0)
    return none

def parseStream (w : Who) (t : Desc) : M StreamArgs := do
  require (t.w5 == 0 && t.w6 == 0)
  let x ← readStreamExt w (← addrWord t.w1)
  let act ← tensor w (← addrWord t.w2) Role.arrayReady
  let wt ← tensor w (← addrWord t.w3) Role.arrayReady
  let dst ← streamDest w x.out t.w4
  checkStream w x act wt dst

/-! ### STREAM: one product (R78 to R82) -/

/-- Activation element k of vector m in pass j: its slices together, and its plane entry. -/
def actRaw (w : Who) (s : StreamArgs) (j m k : Nat) : M (Nat × Nat) := do
  let q := j * s.act.actS + m
  let v ← (if s.pk > 1 then do
      let x := s.act.actNibble q (k / s.pk)
      oreadBits w x.1 (x.2 + k % s.pk * (4 / s.pk)) (4 / s.pk)
    else
      (List.range s.rho).foldlM (fun (acc : Nat) (i : Nat) => do
        let x := s.act.actNibble q (s.rho * k + i)
        return acc + (← oreadBits w x.1 x.2 4) * 16 ^ i) 0)
  let f := (Fmt.ofCode s.x.aFmt).getD .e8m0
  let entry ← (if f.isFloat then oreadNat w (s.act.actEntry q k s.rho) 2 else pure 0)
  return (v, entry)

/-- An integer operand from n bits of slices (R78). -/
def sliceInt (f : Fmt) (n v : Nat) : Int :=
  match f with
  | .int 1 => if n ≤ 1 then (if v % 2 = 0 then 1 else -1) else signedOf n v
  | _ => if f.signed then signedOf n v else ((v % 2 ^ n : Nat) : Int)

/-- Slice i of an activation of ρ slices: the top slice of a signed format is signed. -/
def actSlice (f : Fmt) (rho v i : Nat) : Int :=
  let x := v / 16 ^ i % 16
  if f.signed && i + 1 == rho then signedOf 4 x else ((x : Nat) : Int)

/-- The weight that rake row i of element k holds, as the slices of its columns together. -/
def rakeWord (t : Tile) (rho cw k col i : Nat) : Nat :=
  (List.range cw).foldl (fun acc u => acc + t.nibble (rho * k + i) (col + u) * 16 ^ u) 0

/-- A weight packed below 4 bits. -/
def packedWord (t : Tile) (pk k col : Nat) : Nat := t.nibble (k / pk) col / 2 ^ (k % pk * (4 / pk)) % 2 ^ (4 / pk)

/-- The exact product of one rake (R79 to R82). -/
def macProduct (fa fw : Fmt) (pk rho : Nat) (t : Tile) (k col cw : Nat) (av : Nat × Nat) : FVal :=
  match fa, fw with
  | .float ga, .float gw =>
    let sig := (List.range rho).foldl (fun acc i => acc + av.1 / 16 ^ i % 16 * 16 ^ i * rakeWord t rho cw k col i) 0
    let ew := t.entry (rho * k) col
    let a := joinFloat ga av.1 av.2
    let b := joinFloat gw (rakeWord t rho cw k col 0) ew
    if a.isFinite && b.isFinite then
      let ea := if av.2 % 256 = 0 then 1 else av.2 % 256
      let eb := if ew % 256 = 0 then 1 else ew % 256
      FVal.pow2 ((av.2 / 2 ^ 15 % 2 == 1) != (ew / 2 ^ 15 % 2 == 1)) sig
        ((ea : Int) - ga.bias - ga.mbits + (eb : Int) - gw.bias - gw.mbits)
    else FVal.mul a b
  | _, _ =>
    if pk > 1 then FVal.ofInt (sliceInt fa (4 / pk) av.1 * sliceInt fw (4 / pk) (packedWord t pk k col))
    else
      FVal.ofInt ((List.range rho).foldl (fun acc i =>
        acc + actSlice fa rho av.1 i * (16 ^ i : Nat) * sliceInt fw (4 * cw) (rakeWord t rho cw k col i)) 0)

/-- The cell results of the distance and comparison operations (R59, R101). -/
def cellOp (op : Nat) (a w : FVal) : FVal :=
  let bit := fun (b : Bool) => if b then FVal.one else FVal.zero
  let neg := fun (x : FVal) => match x with | .num s _ _ => s | .inf s => s | .nan => false
  let gt := FVal.lt w a || (a.isZero && w.isZero && !neg a && neg w)
  let eq := !a.isNan && !w.isNan && !FVal.lt a w && !FVal.lt w a && (!a.isZero || neg a == neg w)
  match op with
  | 1 => FVal.abs (FVal.sub a w)
  | 2 => let x := FVal.sub a w; FVal.mul x x
  | 3 => FVal.add a w
  | 4 => bit eq
  | _ => bit (gt && !a.isNan && !w.isNan)

/-- The pass takes the exact path (R67). -/
def exactPath (a w : Nat) : Bool :=
  match Fmt.ofCode a, Fmt.ofCode w with
  | some f, some g => (f.isInt && g.isInt) || !([0x01, 0x02, 0x04].contains a || [0x01, 0x02, 0x04].contains w)
  | _, _ => false

/-- The group sum of a MAC pass (R67 to R70). -/
def groupSum (exact : Bool) (ps : List FVal) : FVal :=
  if exact then
    let s := ps.foldl FVal.add FVal.zero
    if s.isZero then FVal.zero else s
  else dec32 (ps.foldl (fun acc p => fadd acc (enc32 p)) 0)

/-- What a station makes of the accumulator with a MAC group (R71). -/
def stationMac (acc : Nat) (g sw sa : FVal) : Nat :=
  let t := FVal.mul (FVal.mul g sw) sa
  enc32 (FVal.add (dec32 acc) (if t.isZero && g.isZero then FVal.zero else t))

/-- Exact reduction of a group's cell results (R102). -/
def groupReduce (red : Nat) : List FVal → FVal
  | [] => FVal.zero
  | x :: xs => xs.foldl (fun acc y => if red = 0 then FVal.add acc y else if red = 1 then FVal.maxNum acc y else FVal.minNum acc y) x

def stationOp (red acc : Nat) (g : FVal) : Nat :=
  if red = 0 then fadd acc (enc32 g) else if red = 1 then fmax acc (enc32 g) else fmin acc (enc32 g)

/-! ### STREAM: accumulators (R99) -/

def accAddr (core i row slot : Nat) : Nat := nearBase core + 0x2800000 + i * 0x400000 + (row * 512 + slot) * 4

def accRead (w : Who) (i row slot : Nat) : M Nat := do
  let r := (← getDev).load (accAddr w.core i row slot) 4
  setDev r.1
  match r.2.2 with
  | some ev => throw (.fail 0x04 ev)
  | none => return leNat r.2.1

def accWrite (w : Who) (i row slot v : Nat) : M Unit :=
  modDev (fun d => d.store (accAddr w.core i row slot) (leBytes 4 v))

/-- The start value of an accumulator (R89, R102). -/
def accStart (w : Who) (s : StreamArgs) (j i row slot : Nat) : M Nat := do
  if j = 0 ∧ s.x.accInit = 0 then
    return if s.x.red = 1 then 0xFF800000 else if s.x.red = 2 then 0x7F800000 else 0
  else accRead w i row slot

/-! ### STREAM: the tender (R146 to R154) -/

inductive TRow where
  | corr (t : Nat)
  | outlier (k : Nat)
  deriving DecidableEq, Repr

structure PassTender where
  rows    : List TRow
  excess  : List Nat
  ignored : Nat
  deriving DecidableEq, Repr

/-- Valid entries of an outlier list in order, and how many are ignored (R148). -/
def outliers (limit : Nat) (l : List Nat) : List Nat × Nat :=
  l.foldl (fun acc k => if k ≥ limit ∨ acc.1.contains k then (acc.1, acc.2 + 1) else (acc.1 ++ [k], acc.2)) ([], 0)

/-- The tender rows of pass j (R147). -/
def passTender (w : Who) (s : StreamArgs) (j : Nat) : M PassTender := do
  if !s.x.tdrEn then return { rows := [], excess := [], ignored := 0 }
  let rc := if j = s.x.corrPass then s.x.rc else 0
  let limit := if j + 1 = s.x.p then min s.k s.x.kLast else s.k
  let l ← (if s.x.olist = 0 then pure [] else do
    let a := s.x.olist + j * s.x.olistStride
    let n ← oreadNat w a 2
    (List.range (min n 31)).mapM (fun i => oreadNat w (a + 2 + 2 * i) 2))
  let o := outliers limit l
  let corr := (List.range rc).map TRow.corr
  return { rows := corr ++ (o.1.take (8 - rc)).map TRow.outlier, excess := o.1.drop (8 - rc), ignored := o.2 }

/-- The activation of a tender row for vector m (R150). -/
def tenderAct (w : Who) (s : StreamArgs) (j m : Nat) : TRow → M FVal
  | .corr t => do return decB (← oreadNat w (s.x.z + m * 16 + 2 * t) 2)
  | .outlier k => do return decB (← oreadNat w (s.x.tdrAct + m * s.x.tdrActStride + 2 * (j * s.k + k)) 2)

/-- One column's accumulator with the tender rows added in order (R151). -/
def tenderAdd (w : Who) (s : StreamArgs) (j i slot : Nat) (xs : List FVal) (acc : Nat) : M Nat :=
  ((List.range xs.length).zip xs).foldlM (fun (acc : Nat) (tx : Nat × FVal) => do
    let wv := decB (← oreadNat w (s.x.tdrW + j * 32768 + tx.1 * 4096 + 2 * (512 * i + slot)) 2)
    return fadd acc (enc32 (FVal.mul tx.2 wv))) acc

/-- The steering state at an address, where it has the tensor identifier. -/
def Dev.stateAt (d : Dev) (tid va : Nat) : Option Steer :=
  match d.physOf va, d.physOf (va + 8), d.physOf (va + 16) with
  | some p0, some p1, some p2 =>
    let st := steerOf va (d.word p0) (d.word p1) (d.word p2)
    if st.tid = tid then some st else none
  | _, _, _ => none

/-- The steering state with a tensor identifier: the one that a governor of the device lists, else the one that a command's
descriptor last named, which no governor need list (R116, R154, log 27). -/
def Dev.findState (d : Dev) (tid : Nat) : Option Steer :=
  ((List.range 8).findSome? (fun c =>
    if !d.corePresent c then none
    else
      (List.range (d.regf (pgGov c) 0x128 15 0)).findSome? (fun i =>
        (d.physOf (d.regf (pgGov c) 0x120 47 0 + 8 * i)).bind (fun p => d.stateAt tid ((d.word p).field 47 0))))).or
    ((KV.find? d.steers tid).bind (d.stateAt tid))

/-- The blocks that an excess index of a pass charges; channels at or beyond the state's columns lie in no block (R111, R154). -/
def chargedBlocks (s : StreamArgs) (st : Steer) (hs : List (Nat × List PHalf)) (j k : Nat) : List Nat :=
  let row := (s.x.redBase + j * s.k + k) / 128
  let cols := ((slotsOf hs).map (fun is => (s.x.outCh.getD is.1 0 + is.2) / 16)).foldl lineAdd []
  ((cols.filter (fun c => c < st.ncols)).map (fun c => row * st.ncols + c)).filter (fun b => b < st.nblk)

/-- Excess charges by block reach the state's current bank (R122, R154). -/
def chargeExcess (w : Who) (st : Steer) (charges : List (Nat × Nat)) : M Unit := do
  let bank := (← epochNow w st) % 2
  charges.forM (fun p => flushRecord w (st.record bank p.1) { BlockAcc.zeroed with tdrx := p.2 })

/-- TDR_OVF and the charges of a STREAM's excess rows (R153, R154). -/
def reportExcess (w : Who) (s : StreamArgs) (ex : List (Nat × List Nat)) : M Unit := do
  let total := (ex.map (fun p => p.2.length)).sum
  match ex.find? (fun p => !p.2.isEmpty) with
  | none => pure ()
  | some p => do
    modDev (fun d => d.count (pgTdr w.core) 0x03 total)
    raiseCarried (pgTdr w.core) 0x0104 (p.1 * 2 ^ 24 + min p.2.length 255 * 2 ^ 16 + min total 0xFFFF) 0
    match (← getDev).findState s.x.steerTid, s.x.steerTid with
    | some st, _ + 1 => do
      let charges ← ex.foldlM (fun (acc : List (Nat × Nat)) (jp : Nat × List Nat) => do
        let hs ← passHalves w s.x jp.1
        return (jp.2.flatMap (fun k => chargedBlocks s st hs jp.1 k)).foldl (fun a b => KV.set a b (KV.get 0 a b + 1)) acc) []
      chargeExcess w st charges
    | _, _ => pure ()

/-! ### STREAM: passes -/

/-- Bring the tile of pass j into the current buffers (R95, R96). -/
def bringTile (w : Who) (s : StreamArgs) (j : Nat) (hs : List (Nat × List PHalf)) : M Unit := do
  let pa ← tilePa w s.wt j
  let float := (Fmt.ofCode s.x.aFmt).any Fmt.isFloat
  hs.forM (fun ih => do
    let i := ih.1
    let cols := enabledCols ih.2
    let b := (← getDev).buf w.core i
    if j = 0 ∧ b.cur.valid ∧ b.cur.addr = pa then pure ()
    else if j = 0 ∧ b.shd.valid ∧ b.shd.addr = pa then swapBuf w i
    else do
      loadShadow w s.wt j i pa cols float
      swapBuf w i
    if float then needPlane w s.wt j i cols)

/-- One output column of one vector in a pass, before the tender (R71, R102). -/
def columnPass (w : Who) (s : StreamArgs) (j m i : Nat) (h : PHalf) (u : Nat) (acts : List (Nat × Nat)) (valid : Nat)
    (replaced : List Nat) (start : Nat) : M Nat := do
  let fa := (Fmt.ofCode s.x.aFmt).getD .e8m0
  let fw := (Fmt.ofCode h.fmt).getD .e8m0
  let tile := ((← getDev).buf w.core i).cur
  let cw := rakeCols h.fmt
  let col := 32 * h.panel + (h.rake0 + u) * cw
  let slot := h.slot0 + u
  let ng := groupsN s.x.group
  let exact := exactPath s.x.aFmt h.fmt
  (List.range ng).foldlM (fun (acc : Nat) (g : Nat) => do
    let ks := (List.range valid).filter (fun k => groupOf k s.pk s.rho s.x.group == g)
    if ks.isEmpty then return acc
    else if s.x.op = 0 then
      let ps := (ks.filter (fun k => !replaced.contains k)).map (fun k =>
        macProduct fa fw s.pk s.rho tile k col cw (acts.getD k (0, 0)))
      let sa ← s.act.actScale w m j g ng
      let sw ← (if s.wt.scaleKind = 0 then pure FVal.one else do
        return scaleVal s.wt.scaleKind (← oreadNat w (wtScaleAddr s.wt j i slot g ng) (scaleBytes s.wt.scaleKind)))
      return stationMac acc (groupSum exact ps) sw sa
    else
      let rs := ks.map (fun k =>
        let a := acts.getD k (0, 0)
        cellOp s.x.op (sliceVal fa (4 * s.rho) a.1 a.2)
          (sliceVal fw (4 * cw) (rakeWord tile s.rho cw k col 0) (tile.entry (s.rho * k) col)))
      return stationOp s.x.red acc (groupReduce s.x.red rs)) start

/-- The output stage for one channel of one vector (R100). DESIGN CHOICE (log 82): an output outside the destination's valid
extent is computed but neither converted nor seen by the tally unit. -/
def outputOne (w : Who) (s : StreamArgs) (m i slot acc : Nat) : M Unit := do
  match s.dst with
  | none => pure ()
  | some t => do
    let n := s.x.outCh.getD i 0 + slot
    let mul ← (if s.x.chtab = 0 then pure f32One else oreadNat w (s.x.chtab + 8 * n) 4)
    let bias ← (if s.x.chtab = 0 ∨ !s.x.biasEn then pure 0 else oreadNat w (s.x.chtab + 8 * n + 4) 4)
    let v := dec32 (ffma acc mul bias)
    let p : List Int := [((n : Nat) : Int), ((m : Nat) : Int)]
    if isValid t p then t.write w p { val := v, const := false } s.x.outRnd (t.flatIndex p)

/-- Pass j over every vector. -/
def streamPass (w : Who) (s : StreamArgs) (j : Nat) : M Unit := do
  let hs ← passHalves w s.x j
  bringTile w s j hs
  let td ← passTender w s j
  modify (fun r => { r with excess := r.excess ++ [(j, td.excess)] })
  let lastPass := j + 1 == s.x.p
  let valid := if lastPass then min s.k s.x.kLast else s.k
  let replaced := td.rows.filterMap (fun r => match r with | .outlier k => some k | .corr _ => none)
  (List.range s.x.m).forM (fun m => do
    let acts ← (List.range valid).mapM (fun k => actRaw w s j m k)
    let xs ← td.rows.mapM (tenderAct w s j m)
    hs.forM (fun ih => ih.2.forM (fun h => (List.range h.rakes).forM (fun u => do
      let slot := h.slot0 + u
      let row := s.x.accRow + m
      let start ← accStart w s j ih.1 row slot
      let a ← columnPass w s j m ih.1 h u acts valid replaced start
      let a ← tenderAdd w s j ih.1 slot xs a
      if lastPass && s.x.out == 1 then outputOne w s m ih.1 slot a
      else accWrite w ih.1 row slot a))))
  let own := hs.filter (fun h => ownPack (fmtWidth s.x.aFmt) s.x.op h.2 > s.pk)
  let corr := (td.rows.filter (fun r => match r with | .corr _ => true | _ => false)).length
  modDev (fun d => (((((d.count (pgArr w.core) 0x01 hs.length).count (pgArr w.core) 0x04 own.length).count (pgTdr w.core) 0x01
    (td.rows.length - corr)).count (pgTdr w.core) 0x02 corr).count (pgTdr w.core) 0x04 td.ignored))

/-- The work of a validated STREAM. DEDUCED (log 83): one that a fault ends early reports and charges the excess rows of the
passes that it began (R153, R154). -/
def streamBody (w : Who) (s : StreamArgs) : M Unit := do
  takeArrays w s.x.arrays
  let body : M Unit := do
    match ← attempt ((List.range s.x.p).forM (streamPass w s)) with
    | some (.hold h) => throw (.hold h)
    | e => do
      reportExcess w s (← get).excess
      match e with
      | some f => throw f
      | none => pure ()
  match s.dst with
  | some t => withDest w t body
  | none => body

end Sys2Proof.Machine
end

