-- ==== Sys2Proof/Machine/Update.lean ====
section
/-! DEFINITION. The update engines: the rule, inverse roots, schedules, arrivals, the layer-update transaction, FINIT and
the scan (R291 to R319, R330). -/

namespace Sys2Proof.Machine

/-! ### FP32 matrices (R305, R306) -/

abbrev Mat := List (List Nat)

def matAt (m : Mat) (i j : Nat) : Nat := (m.getD i []).getD j 0
def matOf (r c : Nat) (f : Nat → Nat → Nat) : Mat := (List.range r).map (fun i => (List.range c).map (fun j => f i j))
def matCols (m : Mat) : Nat := (m.getD 0 []).length
def transpose (m : Mat) : Mat := matOf (matCols m) m.length (fun i j => matAt m j i)
def mapMat (f : Nat → Nat) (m : Mat) : Mat := m.map (fun r => r.map f)
def zipMat (f : Nat → Nat → Nat) (a b : Mat) : Mat := (a.zip b).map (fun r => (r.1.zip r.2).map (fun x => f x.1 x.2))

/-- RNE to BF16, as an FP32 pattern. -/
def bfHi (x : Nat) : Nat := encB (dec32 x) * 65536
/-- The low part of SPLIT3. -/
def bfLo (x : Nat) : Nat := encB (FVal.sub (dec32 x) (dec32 (bfHi x))) * 65536

/-- One element of a matrix product (R306). -/
def mmElem (prec : Nat) (a b : List Nat) : Nat :=
  (a.zip b).foldl (fun acc x =>
    let hh := fmul (bfHi x.1) (bfHi x.2)
    if prec = 0 then fadd acc hh
    else fadd (fadd (fadd acc (fmul (bfLo x.1) (bfHi x.2))) (fmul (bfHi x.1) (bfLo x.2))) hh) 0

def mm (a b : Mat) (prec : Nat) : Mat :=
  let bt := transpose b
  a.map (fun r => bt.map (fun c => mmElem prec r c))

/-- The Frobenius norm (R305). -/
def frob (m : Mat) : Nat := fsqrt (m.flatten.foldl (fun acc x => ffma x x acc) 0)

def rootP (p z : Nat) : Nat := if p = 4 then fsqrt (fsqrt z) else fsqrt z

def fZero (x : Nat) : Bool := (dec32 x).isZero

/-- The inverse root of a factor and its residual (R305). -/
def invRoot (a : Mat) (p eps iters : Nat) : Mat × Nat :=
  let n := a.length
  if a.all (fun r => r.all fZero) then
    (if fZero eps then matOf n n (fun _ _ => 0)
     else matOf n n (fun i j => if i = j then fdiv f32One (rootP p eps) else 0), 0)
  else
    let a := matOf n n (fun i j => if i = j then fadd (matAt a i j) eps else matAt a i j)
    let z := fdiv (f32OfNat (1 + p)) (fmul (f32OfNat 2) (frob a))
    let c1 := fdiv (f32OfNat (p + 1)) (f32OfNat p)
    let c2 := fneg (fdiv f32One (f32OfNat p))
    let r0 := rootP p z
    let step := fun (s : Mat × Mat) =>
      let t := matOf n n (fun i j => if i = j then ffma c2 (matAt s.2 i j) c1 else fmul c2 (matAt s.2 i j))
      let x := mm s.1 t 1
      let m := if p = 2 then mm t (mm t s.2 1) 1 else let v := mm t t 1; mm v (mm v s.2 1) 1
      (x, m)
    let s := (List.range (iters + 1)).foldl (fun s _ => step s) (matOf n n (fun i j => if i = j then r0 else 0), mapMat (fmul z) a)
    (s.1, frob (matOf n n (fun i j => if i = j then fsub (matAt s.2 i j) f32One else matAt s.2 i j)))

/-! ### Schedules (R309, R310) -/

structure Sched where
  warm      : Nat
  decay     : Nat
  lamFollow : Bool
  tW        : Nat
  etaPeak   : Nat
  etaStart  : Nat
  etaMin    : Nat
  gamma     : Nat
  tD        : Nat
  s         : Nat
  t0        : Nat
  tMult     : Nat
  mu        : Nat
  lambda0   : Nat
  deriving DecidableEq, Repr

def Dev.sched (d : Dev) (h i : Nat) : Sched :=
  let w := fun (k : Nat) => d.reg (pgUpd h) (0x400 + 64 * i + 8 * k)
  let z := fun (x : Nat) => if x = 0 then 1 else x
  { warm := if (w 0).field 1 0 = 3 then 0 else (w 0).field 1 0,
    decay := if (w 0).field 4 2 ≥ 6 then 0 else (w 0).field 4 2, lamFollow := (w 0).bit 5, tW := (w 0).field 63 32,
    etaPeak := (w 1).field 31 0, etaStart := (w 1).field 63 32, etaMin := (w 2).field 31 0, gamma := (w 2).field 63 32,
    tD := (w 3).field 31 0, s := z ((w 3).field 63 32), t0 := (w 4).field 31 0, tMult := z ((w 4).field 35 32),
    mu := (w 5).field 31 0, lambda0 := (w 5).field 63 32 }

/-- Restarts: the time since the last one and the period in force. -/
def restart : Nat → Nat → Nat → Nat → Nat × Nat
  | 0, tau, per, _ => (tau, per)
  | n + 1, tau, per, k => if tau ≥ per then restart n (tau - per) (per * k) k else (tau, per)

/-- η, μ and λ of an arrival step (R310). -/
def schedule (c : Sched) (t : Nat) : Nat × Nat × Nat :=
  let eta :=
    if t < c.tW ∧ c.warm ≠ 0 then
      let f := fdiv (f32OfNat (t + 1)) (f32OfNat c.tW)
      if c.warm = 1 then fmul c.etaPeak f else fmul c.etaStart (fpow (fdiv c.etaPeak c.etaStart) f)
    else
      let tau := if c.warm ≠ 0 then t - c.tW else t
      let tp := if c.t0 = 0 then (tau, c.tD) else if c.tMult = 1 then (tau % c.t0, c.t0) else restart 64 tau c.t0 c.tMult
      let f := fmin (fdiv (f32OfNat tp.1) (f32OfNat (max tp.2 1))) f32One
      let span := fsub c.etaPeak c.etaMin
      match c.decay with
      | 1 => ffma span (fsub f32One f) c.etaMin
      | 2 => ffma span (fmul (fadd f32One (fcospi f)) f32Half) c.etaMin
      | 3 => fmax (fmul c.etaPeak (fpow c.gamma (f32OfNat tp.1))) c.etaMin
      | 4 => fmax (fmul c.etaPeak (fpow c.gamma (f32OfNat (tp.1 / c.s)))) c.etaMin
      | 5 => fmul c.etaPeak (enc32 (rsqrtVal (dec32 (fadd f32One (fdiv (f32OfNat tp.1) (f32OfNat c.s))))))
      | _ => c.etaPeak
  (eta, c.mu, if c.lamFollow then fmul c.lambda0 (fdiv eta c.etaPeak) else c.lambda0)

/-! ### The engine's accesses (R297, R313, R319, R413) -/

/-- Why an engine's work ends early: a translation or area fault, poisoned control data, a value that is not finite, or a
store that does not answer. -/
inductive UStop where
  | fault (va : Nat) (write : Bool) (cause : Nat)
  | poison (va : Nat)
  | nonfinite
  | stall
  deriving DecidableEq, Repr

abbrev UM := ExceptT UStop (StateM Dev)

def inNear : Space → Bool
  | .near _ _ => true
  | _ => false

/-- The engine's translation; with `area` the place must be DRAM or a carve-out (R297), and no access of the engine reaches a near
store (R29). DEDUCED (log 57): the bus error of R29 ends the slice as an area outside DRAM does, with cause 7. -/
def uxlat (h va : Nat) (write area : Bool) : UM Nat := do
  let r := (← get).translate (10 + h) va write false
  set r.1
  match r.2 with
  | .error (.cause c) => throw (.fault va write c)
  | .error (.poison _) => throw (.poison va)
  | .error .stall => throw .stall
  | .ok pa =>
    if (if area then !inDramOrCarve (r.1.space pa) else inNear (r.1.space pa)) then throw (.fault va write 7)
    if !r.1.reachesFrom h pa then throw .stall
    return pa

/-- A number of n bytes within one line; none where the line is poisoned. -/
def uread (h va n : Nat) (area : Bool) : UM (Option Nat) := do
  let pa ← uxlat h va false area
  let r := (← get).load pa n
  set r.1
  return match r.2.2 with | some _ => none | none => some (leNat r.2.1)

/-- A control word: poison ends the slice. -/
def uword (h va : Nat) (area : Bool) : UM W64 := do
  match ← uread h va 8 area with
  | some v => return BitVec.ofNat 64 v
  | none => throw (.poison va)

/-- A write, write-through at the far store (R313). -/
def uwrite (h va : Nat) (bs : List Byte) (area : Bool) : UM Unit := do
  let pa ← uxlat h va true area
  modify (fun d => d.storeBy false pa bs true)

/-- An FP32 element: the canonical NaN where its line is poisoned (R413). -/
def uelem (h va : Nat) : UM Nat := do return (← uread h va 4 true).getD 0x7FC00000
def uelem16 (h va : Nat) : UM (Option Nat) := uread h va 2 true

def umat (r c : Nat) (f : Nat → Nat → UM Nat) : UM Mat :=
  (List.range r).mapM (fun i => (List.range c).mapM (fun j => f i j))

/-! ### Slice table entries (R294 to R298) -/

structure Slice where
  hi     : Nat × Nat
  lo     : Nat × Nat
  mom    : Nat × Nat
  fac    : Nat × Nat
  root   : Nat × Nat
  grad   : Nat
  gfmt   : Nat
  ver    : Nat
  rows   : Nat
  cols   : Nat
  pbr    : Nat
  pbc    : Nat
  sched  : Nat
  p      : Nat
  nest   : Bool
  prec   : Nat
  n      : Nat
  delay  : Nat
  iters  : Nat
  eps    : Nat
  beta2  : Nat
  valid  : Bool
  deriving DecidableEq, Repr

def pick (c : Nat) (p : Nat × Nat) : Nat := if c = 0 then p.1 else p.2

def sliceOf (ws : List W64) : Slice :=
  let a := fun (i : Nat) => (wd ws i).field 47 0
  let s := wd ws 12
  let c := wd ws 13
  let rows := s.field 23 0
  let cols := s.field 47 24
  let pbr := 128 * 2 ^ s.field 49 48
  let pbc := 128 * 2 ^ s.field 51 50
  let n := c.field 31 16
  let delay := c.field 35 32
  let eps := (wd ws 14).field 31 0
  let beta2 := (wd ws 14).field 63 32
  let gfmt := (wd ws 10).field 53 48
  let resv := (List.range 10).all (fun i => (wd ws i).field 63 48 == 0) && (wd ws 10).field 63 54 == 0
    && (wd ws 11).field 63 48 == 0 && s.field 63 52 == 0 && c.field 15 7 == 0 && c.field 63 41 == 0 && wd ws 15 == 0
  let aligned := (List.range 11).all (fun i => a i % 64 == 0) && a 11 % 8 == 0
  let e := dec32 eps
  let b := dec32 beta2
  let nums := e.isFinite && !FVal.lt e FVal.zero && b.isFinite && !FVal.lt b FVal.zero && !FVal.lt FVal.one b
  { hi := (a 0, a 1), lo := (a 2, a 3), mom := (a 4, a 5), fac := (a 6, a 7), root := (a 8, a 9), grad := a 10, gfmt := gfmt,
    ver := a 11, rows := rows, cols := cols, pbr := pbr, pbc := pbc, sched := c.field 3 0, p := if c.bit 4 then 4 else 2,
    nest := c.bit 5, prec := if c.bit 6 then 1 else 0, n := n, delay := delay, iters := c.field 40 36, eps := eps,
    beta2 := beta2,
    valid := resv && gfmt ≤ 1 && aligned && rows != 0 && cols != 0 && rows % pbr == 0 && cols % pbc == 0 && n != 0
      && delay != 0 && delay ≤ n && nums }

def Dev.sliceAddr (d : Dev) (h i : Nat) : Nat := d.regf (pgUpd h) 0x100 47 12 * 4096 + 128 * i
def Dev.srecAddr (d : Dev) (h i : Nat) : Nat := d.regf (pgUpd h) 0x110 47 6 * 64 + 8 * i

/-- The entry of a slice, read whole; an invalid one faults with cause 7 (R297). -/
def readSlice (h i : Nat) : UM Slice := do
  let va := (← get).sliceAddr h i
  let ws ← (List.range 16).mapM (fun k => uword h (va + 8 * k) false)
  let s := sliceOf ws
  if !s.valid then throw (.fault va false 7)
  return s

/-- A step is later than another, modulo 2^48 (R300). -/
def stepLater (a b : Nat) : Bool :=
  let d := (a + 2 ^ 48 - b % 2 ^ 48) % 2 ^ 48
  d != 0 && d < 2 ^ 47

/-- A step is not earlier than another. -/
def stepGe (a b : Nat) : Bool := (a + 2 ^ 48 - b % 2 ^ 48) % 2 ^ 48 < 2 ^ 47

/-! ### Ends of a slice (R312 step 5, R314, R318, R319) -/

/-- The first fault is recorded and BLK_ISR bit 2 set (R319). -/
def Dev.updFault (d : Dev) (h slice va : Nat) (write : Bool) (cause : Nat) (poison : Bool) : Dev :=
  let page := pgUpd h
  let d := d.setIsr page 2
  if d.regb page 0x148 0 then d
  else
    (d.setReg page 0x140 (BitVec.ofNat 64 (va % 2 ^ 48))).setReg page 0x148
      (BitVec.ofNat 64 (1 + (if write then 2 else 0) + cause * 4 + slice % 2 ^ 16 * 32 + (if poison then 2 ^ 21 else 0)))

def Dev.updStop (d : Dev) (h slice : Nat) : UStop → Dev
  | .fault va w c => d.updFault h slice va w c false
  | .poison va => d.updFault h slice va false 0 true
  | _ => d

def runU {α : Type} (d : Dev) (a : UM α) : Except UStop α × Dev := (a.run).run d

/-- A step-record entry written; a failure is recorded. -/
def Dev.srecWrite (d : Dev) (h slice state step : Nat) : Dev :=
  let r := runU d (do uwrite h ((← get).srecAddr h slice) (leBytes 8 (state + step % 2 ^ 48 * 2 ^ 16)) false)
  match r.1 with
  | .ok _ => r.2
  | .error e => r.2.updStop h slice e

/-- Step 5 of R312. -/
def Dev.doneAdd (d : Dev) (h slice : Nat) : Dev :=
  let r := runU d (do
    let va := (← get).regf (pgUpd h) 0x120 47 3 * 8
    let pa ← uxlat h va true false
    modify (fun d => d.atomic 2 pa 1))
  match r.1 with
  | .ok _ => r.2
  | .error e => r.2.updStop h slice e

/-- The slice ends as FAULT (R319). -/
def Dev.endFault (d : Dev) (h slice step : Nat) (e : UStop) : Dev :=
  (((d.updStop h slice e).srecWrite h slice 5 step).count (pgUpd h) 0x03 1).doneAdd h slice

/-- The slice ends as SKIPPED (R318). -/
def Dev.endSkipped (d : Dev) (h slice step : Nat) : Dev :=
  (((d.srecWrite h slice 6 step).count (pgUpd h) 0x04 1).setIsr (pgUpd h) 3).doneAdd h slice

/-! ### Arrivals (R299 to R303) -/

/-- Slices in the arrival queue, the one being updated included. -/
def Upd.inflight (u : Upd) : Nat := u.arrivals.length + (if u.current.isSome then 1 else 0)

/-- Arrivals wait for the scan of R317. -/
def Dev.scanning (d : Dev) (h : Nat) : Bool := d.regb (pgUpd h) 0x138 22

/-- Once no arrival of the command waits any more, the command's slices have arrived. -/
def Dev.arrivalDone (d : Dev) (h : Nat) (who : Option (Nat × Nat)) : Dev :=
  match who with
  | none => d
  | some (c, x) => if (d.upd h).waiting.any (fun a => a.who == who) then d else d.opFinished c x

/-- A slice's version step is not behind the arrival: a duplicate (R300). -/
def isDuplicate (h slice step : Nat) : UM Bool := do
  let e ← uword h ((← get).sliceAddr h slice + 0x58) false
  let v ← uword h (e.field 47 0) true
  return !stepLater step (v.field 63 16)

/-- An arrival enters the arrival queue, or the spill ring where the queue is full (R301, R302). -/
def Dev.enqueue (d : Dev) (h : Nat) (a : Arrival) : Option Dev :=
  let page := pgUpd h
  let u := d.upd h
  if u.inflight < 64 ∧ u.spillCount = 0 then
    some ((d.modUpd h (fun u => { u with arrivals := u.arrivals ++ [{ a with who := none }] })).srecWrite h a.slice 1 a.step)
  else
    let va := d.regf page 0x118 47 16 * 65536 + (u.spillHead + u.spillCount) % 4096 * 16
    let r := runU d (uwrite h va (leBytes 8 a.slice ++ leBytes 8 a.step) true)
    match r.1 with
    | .error .stall => none
    | .error e => some (r.2.endFault h a.slice a.step e)
    | .ok _ =>
      let d := r.2.count page 0x05 1
      let d := if u.spillCount = 0 then d.raise page 0x0502 (a.slice * 2 ^ 16) 0 else d
      some ((d.modUpd h (fun u => { u with spillCount := u.spillCount + 1 })).srecWrite h a.slice 1 a.step)

/-- One arrival that the engine takes now: queued, spilled, a duplicate, or ended where its control data cannot be read (R319).
None where an access of it never completes (R418, R421). -/
def Dev.placeArrival (d : Dev) (h : Nat) (a : Arrival) : Option Dev :=
  let r := runU d (isDuplicate h a.slice a.step)
  match r.1 with
  | .ok true => some (r.2.count (pgUpd h) 0x0A 1)
  | .ok false => r.2.enqueue h a
  | .error .stall => none
  | .error e => some (r.2.endFault h a.slice a.step e)

/-- The engine can take an arrival now. -/
def Dev.arrivalRoom (d : Dev) (h : Nat) : Bool := !d.scanning h && (d.upd h).spillCount < 4096

/-- A slice arrives, or waits for the scan or for room. -/
def Dev.arrive (d : Dev) (h : Nat) (a : Arrival) : Dev :=
  let waits := d.modUpd h (fun u => { u with waiting := u.waiting ++ [a] })
  if d.arrivalRoom h && (d.upd h).waiting.isEmpty then (d.placeArrival h a).getD waits else waits

/-- The oldest spilled arrival enters the arrival queue. DESIGN CHOICE (log 91): one whose ring entry cannot be read leaves the ring,
and the fault is recorded for slice 0, since nothing names its slice. -/
def Dev.unspill (d : Dev) (h : Nat) : Dev :=
  let u := d.upd h
  if u.spillCount = 0 ∨ u.inflight ≥ 64 then d
  else
    let va := d.regf (pgUpd h) 0x118 47 16 * 65536 + u.spillHead % 4096 * 16
    let r := runU d (do
      let s ← uword h va true
      let t ← uword h (va + 8) true
      return (s.field 15 0, t.field 47 0))
    let e := r.2.modUpd h (fun u => { u with spillHead := (u.spillHead + 1) % 4096, spillCount := u.spillCount - 1 })
    match r.1 with
    | .ok st => e.modUpd h (fun u => { u with arrivals := u.arrivals ++ [{ slice := st.1, step := st.2, who := none }] })
    | .error .stall => d
    | .error c => e.updStop h 0 c

/-- Waiting arrivals enter while there is room. -/
def drainWaiting : Nat → Dev → Nat → Dev
  | 0, d, _ => d
  | n + 1, d, h =>
    match (d.upd h).waiting with
    | [] => d
    | a :: rest =>
      if d.arrivalRoom h then
        match (d.modUpd h (fun u => { u with waiting := rest })).placeArrival h a with
        | some d => drainWaiting n (d.arrivalDone h a.who) h
        | none => d
      else d

/-- The queue fills from the spill queue first, then from waiting arrivals (R301). -/
def Dev.refill (d : Dev) (h : Nat) : Dev :=
  let d := (List.range 64).foldl (fun d _ => d.unspill h) d
  drainWaiting ((d.upd h).waiting.length + 1) d h

/-! ### One update (R304, R307, R312, R330) -/

def Dev.updLive (d : Dev) (h : Nat) : Bool := d.niLive h

/-- The engine is enabled, loaded with firmware and not halted or re-initialising. -/
def Dev.updReady (d : Dev) (h : Nat) : Bool :=
  d.updLive h && (d.upd h).loaded && d.regb (pgUpd h) 0x010 0 && !d.regb (pgUpd h) 0x010 1 && !d.regb (pgUpd h) 0x010 2
    && !d.scanning h

/-- UPD_PIN holds the update back (R330). -/
def Dev.pinned (d : Dev) (h step : Nat) : Bool :=
  d.regb (pgUpd h) 0x130 63 && stepGe step ((d.regf (pgUpd h) 0x130 47 0 + 2) % 2 ^ 48)

def Upd.jobs (u : Upd) : List RootJob := u.rootQueue ++ u.rootRun.toList

/-- The update takes new roots, and whether they are computed (R307). -/
def Upd.rootsFor (u : Upd) (slice step delay : Nat) : Option Bool :=
  match KV.find? u.newRoots slice with
  | some (t, ready) => if stepGe step ((t + delay) % 2 ^ 48) then some ready else none
  | none => none

/-- What holds the arrival at the head back, judged by its entry and version word as memory holds them. -/
def Dev.updHeld (d : Dev) (h : Nat) (a : Arrival) : Bool :=
  let u := d.upd h
  let r := (runU d (do
    let s ← readSlice h a.slice
    let v ← uword h s.ver true
    return (s, v))).1
  d.pinned h a.step || u.jobs.any (fun j => j.now && j.slice == a.slice)
    || (match r with
        | .ok (s, v) => u.rootsFor a.slice a.step s.delay == some false
            || u.jobs.any (fun j => j.slice == a.slice && j.copy != (if v.bit 0 then 1 else 0))
        | .error .stall => true
        | .error _ => false)

/-- The engine can begin the next queued slice. -/
def Dev.canStart (d : Dev) (h : Nat) : Bool :=
  let u := d.upd h
  d.updReady h && u.current.isNone &&
    (match u.arrivals with
     | [] => false
     | a :: _ => !d.updHeld h a)

def finiteMat (m : Mat) : Bool := m.all (fun r => r.all f32Finite)
def needFinite (b : Bool) : UM Unit := if b then pure () else throw .nonfinite

/-- Offset of a block in a factor or root area (R298). -/
def facOff (s : Slice) (b : Nat) : Nat := b * (s.pbr * s.pbr + s.pbc * s.pbc) * 4
def rootOff (s : Slice) (b : Nat) : Nat := b * ((s.pbr * s.pbr + s.pbc * s.pbc) * 4 + 64)

/-- The element (k, n) of a slice. -/
def elemIdx (s : Slice) (k n : Nat) : Nat := k * s.cols + n

def readSquare (h base n : Nat) : UM Mat := umat n n (fun i j => uelem h (base + (i * n + j) * 4))
def writeSquare (h base : Nat) (m : Mat) : UM Unit :=
  ((List.range m.flatten.length).zip m.flatten).forM (fun x => uwrite h (base + 4 * x.1) (leBytes 4 x.2) true)

/-- The rule for one preconditioner block (R304). -/
def updateBlock (h : Nat) (s : Slice) (sc : Nat × Nat × Nat) (sel q b : Nat) : UM Unit := do
  let bc := s.cols / s.pbc
  let r0 := b / bc * s.pbr
  let c0 := b % bc * s.pbc
  let g ← umat s.pbr s.pbc (fun i j => do
    let e := elemIdx s (r0 + i) (c0 + j)
    if s.gfmt = 0 then uelem h (s.grad + 4 * e)
    else return match ← uelem16 h (s.grad + 2 * e) with | some v => v * 65536 | none => 0x7FC00000)
  needFinite (finiteMat g)
  let w ← umat s.pbr s.pbc (fun i j => do
    let e := elemIdx s (r0 + i) (c0 + j)
    let hi ← uelem16 h (pick sel s.hi + 2 * e)
    let lo ← uelem16 h (pick sel s.lo + 2 * e)
    return match hi, lo with | some a, some b => a * 65536 + b | _, _ => 0x7FC00000)
  let mom ← umat s.pbr s.pbc (fun i j => uelem h (pick sel s.mom + 4 * elemIdx s (r0 + i) (c0 + j)))
  let fo := pick sel s.fac + facOff s b
  let fl ← readSquare h fo s.pbr
  let fr ← readSquare h (fo + s.pbr * s.pbr * 4) s.pbc
  let ro := pick q s.root + rootOff s b
  let rl ← readSquare h ro s.pbr
  let rr ← readSquare h (ro + s.pbr * s.pbr * 4) s.pbc
  let gt := transpose g
  let fl' := zipMat (fun a b => ffma s.beta2 a b) fl (mm g gt s.prec)
  let fr' := zipMat (fun a b => ffma s.beta2 a b) fr (mm gt g s.prec)
  let p := mm (mm rl g s.prec) rr s.prec
  let m := zipMat (fun a b => ffma sc.2.1 a b) mom p
  let dd := if s.nest then zipMat (fun a b => ffma sc.2.1 a b) m p else m
  let u := zipMat (fun a b => ffma sc.2.2 a b) w dd
  let w' := zipMat (fun a b => ffma (fneg sc.1) a b) u w
  needFinite (finiteMat p && finiteMat m && finiteMat u && finiteMat w' && finiteMat fl' && finiteMat fr')
  let o := 1 - sel
  (List.range s.pbr).forM (fun i => (List.range s.pbc).forM (fun j => do
    let e := elemIdx s (r0 + i) (c0 + j)
    let v := matAt w' i j
    uwrite h (pick o s.hi + 2 * e) (leBytes 2 (v / 65536)) true
    uwrite h (pick o s.lo + 2 * e) (leBytes 2 (v % 65536)) true
    uwrite h (pick o s.mom + 4 * e) (leBytes 4 (matAt m i j)) true))
  let fo' := pick o s.fac + facOff s b
  writeSquare h fo' fl'
  writeSquare h (fo' + s.pbr * s.pbr * 4) fr'

def blocksOf (s : Slice) : Nat := s.rows / s.pbr * (s.cols / s.pbc)

/-- Steps 1 and 2 of R312; answers whether the update takes new roots. -/
def updateSlice (h : Nat) (a : Arrival) : UM Bool := do
  let _ ← uword h ((← get).srecAddr h a.slice) false
  uwrite h ((← get).srecAddr h a.slice) (leBytes 8 (2 + a.step % 2 ^ 48 * 2 ^ 16)) false
  let s ← readSlice h a.slice
  let v ← uword h s.ver true
  let sel := if v.bit 0 then 1 else 0
  let rsel := if v.bit 1 then 1 else 0
  let new := (((← get).upd h).rootsFor a.slice a.step s.delay).isSome
  let sc := schedule ((← get).sched h s.sched) a.step
  (List.range (blocksOf s)).forM (updateBlock h s sc sel (if new then 1 - rsel else rsel))
  return new

/-- SLICE_UPDATE_START (R301, R304, R312). -/
def sliceUpdateStart (d : Dev) (h : Nat) : Dev :=
  if !d.canStart h then d
  else
    match (d.upd h).arrivals with
    | [] => d
    | a :: rest =>
      let d1 := d.modUpd h (fun u => { u with arrivals := rest })
      let r := runU d1 (updateSlice h a)
      match r.1 with
      | .ok new => r.2.modUpd h (fun u => { u with current := some { slice := a.slice, step := a.step, newRoots := new } })
      | .error .stall => d
      | .error .nonfinite => (r.2.endSkipped h a.slice a.step).refill h
      | .error e => (r.2.endFault h a.slice a.step e).refill h

/-- Step 3 of R312: the commit, with RSEL by R307; answers the entry and SEL as committed. -/
def commitWord (h : Nat) (c : Update) : UM (Slice × Nat) := do
  let s ← readSlice h c.slice
  let v ← uword h s.ver true
  let sel := if v.bit 0 then 0 else 1
  let rsel := if c.newRoots then (if v.bit 1 then 0 else 1) else (if v.bit 1 then 1 else 0)
  uwrite h s.ver (leBytes 8 (sel + 2 * rsel + c.step % 2 ^ 48 * 2 ^ 16)) true
  return (s, sel)

/-- SLICE_COMMIT (R307, R312). -/
def sliceCommit (d : Dev) (h : Nat) : Dev :=
  match (d.upd h).current with
  | none => d
  | some c =>
    if !d.updLive h || !(d.upd h).loaded then d
    else
      let r := runU d (commitWord h c)
      match r.1 with
      | .error .stall => d
      | .error e => ((r.2.modUpd h (fun u => { u with current := none })).endFault h c.slice c.step e).refill h
      | .ok (s, sel) =>
        let d := ((r.2.srecWrite h c.slice 3 c.step).count (pgUpd h) 0x01 1).doneAdd h c.slice
        let d := d.modUpd h (fun u =>
          let nr := if c.newRoots then KV.erase u.newRoots c.slice else u.newRoots
          let due := c.step % s.n = 0
          { u with current := none,
                   newRoots := if due then KV.set nr c.slice (c.step, false) else nr,
                   rootQueue := if due then u.rootQueue ++ [{ slice := c.slice, step := c.step, copy := sel, now := false }] else u.rootQueue })
        d.refill h

/-! ### Root jobs (R305, R307, R308) -/

/-- ROOT_JOB_START: no update has work for the multiply array. -/
def rootJobStart (d : Dev) (h : Nat) : Dev :=
  let u := d.upd h
  match u.rootQueue with
  | [] => d
  | j :: rest =>
    if !d.updReady h || u.rootRun.isSome || u.current.isSome || d.canStart h then d
    else d.modUpd h (fun u => { u with rootQueue := rest, rootRun := some j })

/-- The roots of one block, written to the other root copy with their trailer (R298). -/
def rootBlock (h : Nat) (s : Slice) (j : RootJob) (o b : Nat) : UM Unit := do
  let fo := pick j.copy s.fac + facOff s b
  let l ← readSquare h fo s.pbr
  let r ← readSquare h (fo + s.pbr * s.pbr * 4) s.pbc
  let rl := invRoot l s.p s.eps s.iters
  let rr := invRoot r s.p s.eps s.iters
  let ro := pick o s.root + rootOff s b
  writeSquare h ro rl.1
  writeSquare h (ro + s.pbr * s.pbr * 4) rr.1
  let tr := ro + (s.pbr * s.pbr + s.pbc * s.pbc) * 4
  uwrite h tr (leBytes 8 (rl.2 + rr.2 * 2 ^ 32)) true
  uwrite h (tr + 8) (leBytes 8 (j.step % 2 ^ 48)) true
  (List.range 6).forM (fun i => uwrite h (tr + 16 + 8 * i) (leBytes 8 0) true)

def rootSlice (h : Nat) (j : RootJob) : UM Unit := do
  let s ← readSlice h j.slice
  let v ← uword h s.ver true
  let rsel := if v.bit 1 then 1 else 0
  let j := if j.now then { j with copy := if v.bit 0 then 1 else 0, step := v.field 63 16 } else j
  (List.range (blocksOf s)).forM (rootBlock h s j (1 - rsel))
  if j.now then uwrite h s.ver (leBytes 8 ((v.setBit 1 (!v.bit 1)).toNat)) true

/-- ROOT_JOB_DONE. -/
def rootJobDone (d : Dev) (h : Nat) : Dev :=
  match (d.upd h).rootRun with
  | none => d
  | some j =>
    if !d.updReady h then d
    else
      let r := runU d (rootSlice h j)
      match r.1 with
      | .error .stall => d
      | .error e =>
        (r.2.modUpd h (fun u => { u with rootRun := none, newRoots := if j.now then u.newRoots else KV.erase u.newRoots j.slice })).endFault
          h j.slice j.step e
      | .ok _ =>
        (r.2.modUpd h (fun u =>
          { u with rootRun := none,
                   newRoots := if j.now then u.newRoots
                     else match KV.find? u.newRoots j.slice with
                       | some (t, _) => if t = j.step then KV.set u.newRoots j.slice (t, true) else u.newRoots
                       | none => u.newRoots })).count (pgUpd h) 0x07 1

/-! ### The check of open entries (R315 to R317) -/

/-- The check of one entry; `add` performs step 5 of R312 for a slice so ended (R315). -/
def checkEntry (add : Bool) (d : Dev) (h i : Nat) : Dev :=
  let r := runU d (do
    let e ← uword h ((← get).srecAddr h i) false
    if e.field 2 0 = 1 ∨ e.field 2 0 = 2 then
      let va := (← get).sliceAddr h i
      let ws ← (List.range 16).mapM (fun k => uword h (va + 8 * k) false)
      let v ← uword h (sliceOf ws).ver false
      return some (e, v)
    else return none)
  match r.1 with
  | .error e => r.2.updStop h i e
  | .ok none => r.2
  | .ok (some (e, v)) =>
    let step := e.field 63 16
    let d := if v.field 63 16 = step then (r.2.srecWrite h i 3 step).count (pgUpd h) 0x01 1
      else ((r.2.srecWrite h i 4 step).count (pgUpd h) 0x02 1).raise (pgUpd h) 0x0501 (i * 2 ^ 16 + step % 2 ^ 16) 0
    if add then d.doneAdd h i else d

def checkAll (add : Bool) (d : Dev) (h : Nat) : Dev :=
  (List.range (d.regf (pgUpd h) 0x108 16 0)).foldl (fun d i => checkEntry add d h i) d

/-- FINIT of the engine: its queues are discarded and open entries resolved (R315). -/
def updFinitWork (d : Dev) (h : Nat) : Dev :=
  let d := d.modUpd h (fun u => { u with arrivals := [], spillHead := 0, spillCount := 0, current := none, rootQueue := [],
                                           rootRun := none, newRoots := [] })
  checkAll true d h

/-- EN from 0 to 1 after a reset begins the scan (R317, R466). -/
def updEnableWork (d : Dev) (h : Nat) : Dev :=
  if (d.upd h).needScan then (d.setb (pgUpd h) 0x138 22 true).modUpd h (fun u => { u with needScan := false }) else d

/-- UPD_SCAN_COMPLETE (R317). -/
def updScanComplete (d : Dev) (h : Nat) : Dev :=
  if !d.scanning h || !d.updLive h then d
  else
    let d := (checkAll false d h).setb (pgUpd h) 0x138 22 false
    (d.setIsr (pgUpd h) 4).refill h

def execUpdScanComplete (half : Nat) (s : State) : Host.Outcome State Fault Refusal := s.lift (fun d => updScanComplete d half)
def execSliceUpdateStart (half : Nat) (s : State) : Host.Outcome State Fault Refusal := s.lift (fun d => sliceUpdateStart d half)
def execSliceCommit (half : Nat) (s : State) : Host.Outcome State Fault Refusal := s.lift (fun d => sliceCommit d half)
def execRootJobStart (half : Nat) (s : State) : Host.Outcome State Fault Refusal := s.lift (fun d => rootJobStart d half)
def execRootJobDone (half : Nat) (s : State) : Host.Outcome State Fault Refusal := s.lift (fun d => rootJobDone d half)

end Sys2Proof.Machine
end

