-- ==== Sys2Proof/Machine/UpdCmd.lean ====
section
/-! DEFINITION. The work of the UPD commands, and the key registry (R320 to R329). -/

namespace Sys2Proof.Machine

structure UpdArgs where
  op     : Nat
  half   : Nat
  stepEn : Bool
  count  : Nat
  first  : Nat
  step   : Nat
  en     : Bool
  src    : Option Tensor
  dst    : Option Tensor
  handle : Nat
  layer  : Nat
  drop   : Nat
  scale  : Nat
  key    : KeyEntry
  result : Nat
  deriving DecidableEq, Repr

/-- Bits of a word outside the listed fields are zero. -/
def onlyBits (w : W64) (fields : List (Nat × Nat)) : Bool :=
  (fields.foldl (fun w f => W64.setField w f.1 f.2 0) w) == 0

def zeroFrom (ws : List W64) (i : Nat) : Bool := (ws.drop i).all (· == 0)

/-- The tensors of a DROPOUT (R329). -/
def dropoutTensors (w : Who) (a b : Nat) : M (Tensor × Tensor) := do
  let src ← tensor w a Role.source
  let dst ← tensor w b Role.destination
  require (← src.ownStore w)
  require (← dst.ownStore w)
  require (src.ndim == dst.ndim && src.gs == dst.gs && src.ls == dst.ls && src.fmt != 0x08)
  require (dst.gs.foldl (· * ·) 1 < 2 ^ 48)
  return (src, dst)

/-- The arguments of a UPD that its structure's words give (R320). -/
def updArgsOf (ws : List W64) (queue : Nat) : UpdArgs :=
  let h := wd ws 0
  let w1 := wd ws 1
  let w2 := wd ws 2
  let w3 := wd ws 3
  let w4 := wd ws 4
  { op := h.field 3 0, half := h.field 4 4, stepEn := h.bit 5, count := h.field 31 16 + 1, first := h.field 47 32,
    step := w1.field 47 0, en := w1.bit 63, src := none, dst := none, handle := w3.field 9 0, layer := w3.field 31 16,
    drop := w4.field 15 0, scale := w4.field 63 32,
    key := { k0 := BitVec.ofNat 32 (w1.field 31 0), k1 := BitVec.ofNat 32 (w1.field 63 32), k2 := BitVec.ofNat 32 (w2.field 31 0),
             k3 := BitVec.ofNat 32 (w2.field 63 32), stream := w3.field 15 0, use1 := w3.bit 16, owner := queue },
    result := w4.field 47 0 }

/-- The arguments of a DROPOUT with its tensors. -/
def UpdArgs.tensors (a : UpdArgs) (src dst : Option Tensor) : UpdArgs := { a with src := src, dst := dst }

/-- The words of a UPD's structure are in order for its operation, and it names what exists (R320, R321, R325, R328, R329). -/
def updOk (d : Dev) (ws : List W64) (a : UpdArgs) (spec : Bool) : Bool :=
  let h := wd ws 0
  let w1 := wd ws 1
  let w3 := wd ws 3
  let w4 := wd ws 4
  (!spec || a.op ≤ 3) &&
    (match a.op with
     | 0 =>
       onlyBits h [(3, 0), (4, 4), (5, 5), (31, 16), (47, 32)] && (if a.stepEn then w1.field 63 48 == 0 else w1 == 0)
         && zeroFrom ws 2 && d.halfPresent a.half && a.first + a.count ≤ d.regf (pgUpd a.half) 0x108 16 0
     | 1 => onlyBits h [(3, 0)] && w1.field 63 48 == 0 && zeroFrom ws 2
     | 2 =>
       onlyBits h [(3, 0), (4, 4), (31, 16), (47, 32)] && w1 == 0 && zeroFrom ws 2 && d.halfPresent a.half
         && a.first + a.count ≤ d.regf (pgUpd a.half) 0x108 16 0
     | 3 => onlyBits h [(3, 0)] && w1.field 62 48 == 0 && zeroFrom ws 2
     | 4 =>
       onlyBits h [(3, 0)] && onlyBits w3 [(9, 0), (31, 16)] && onlyBits w4 [(15, 0), (63, 32)] && zeroFrom ws 5
         && (KV.find? d.keys a.handle).any (fun k => k.use1)
     | 5 => onlyBits h [(3, 0)] && w3.field 63 17 == 0 && w4.field 63 48 == 0 && zeroFrom ws 5 && !d.namesKept a.result 8 false
     | 6 =>
       onlyBits h [(3, 0)] && w1 == 0 && wd ws 2 == 0 && w3.field 63 10 == 0 && zeroFrom ws 4
         && (KV.find? d.keys a.handle).any (fun k => k.owner == a.key.owner)
     | _ => false)

/-- Validation of a UPD (R320, R321, R328, R329). -/
def parseUpd (w : Who) (t : Desc) : M UpdArgs := do
  require t.oneWord
  let va ← addrWord t.w1
  require (va % 64 == 0)
  nameRange va 64 false
  let ws ← owords w va 8
  let d ← getDev
  let a := updArgsOf ws (d.queueOf w)
  require (updOk d ws a (d.specOf w).isSome)
  if a.op = 4 then do
    let st ← dropoutTensors w (← addrWord (wd ws 1)) (← addrWord (wd ws 2))
    return a.tensors (some st.1) (some st.2)
  else return a

/-- The halves present. -/
def Dev.halfList (d : Dev) : List Nat := (List.range 2).filter d.halfPresent

/-- APPLY (R299, R320): the slices arrive, some perhaps later. -/
def updApply (w : Who) (a : UpdArgs) : M Bool := do
  modDev (fun d =>
    let step := if a.stepEn then a.step else d.regf (pgUpd a.half) 0x128 47 0
    (List.range a.count).foldl (fun d i => d.arrive a.half { slice := a.first + i, step := step, who := some (w.core, w.ctx) }) d)
  return !((← getDev).upd a.half).waiting.any (fun x => x.who == some (w.core, w.ctx))

def updSetStep (a : UpdArgs) : M Unit :=
  modDev (fun d => d.halfList.foldl (fun d h => d.setf (pgUpd h) 0x128 47 0 a.step) d)

def updSetPin (a : UpdArgs) : M Unit :=
  modDev (fun d => d.halfList.foldl (fun d h => (d.setf (pgUpd h) 0x130 47 0 a.step).setb (pgUpd h) 0x130 63 a.en) d)

/-- ROOTS (R308). -/
def updRoots (a : UpdArgs) : M Unit :=
  modDev (fun d => d.modUpd a.half (fun u =>
    { u with rootQueue := u.rootQueue ++ (List.range a.count).map (fun i => { slice := a.first + i, step := 0, copy := 0, now := true }) }))

/-- DROPOUT (R329). -/
def updDropout (w : Who) (a : UpdArgs) : M Unit := do
  match a.src, a.dst, KV.find? (← getDev).keys a.handle with
  | some src, some dst, some k =>
    withDest w dst (do
      let ps := dst.validPositions
      ps.forM (fun p => do
        let x ← src.read w p
        let r := draw k a.layer ((← getDev).stepOf w.core) (dst.flatIndex p)
        let y := if r ≥ a.drop then dec32 (enc32 (FVal.mul x.val (dec32 a.scale))) else FVal.zero
        dst.write w p { val := y, const := false } 0 0)
      modDev (fun d => (d.count (pgVec w.core) 0x01 1).count (pgVec w.core) 0x02 ps.length))
  | _, _, _ => invalid

/-- The lowest handle that is free. -/
def freeHandle (keys : List (Nat × KeyEntry)) : Option Nat := (List.range 1024).find? (fun h => (KV.find? keys h).isNone)

/-- Why a claim is refused, with the conflicting handle (R325). -/
def claimRefusal (keys : List (Nat × KeyEntry)) (k : KeyEntry) : Option (Nat × Nat) :=
  match keys.find? (fun x => x.2.k0 == k.k0 && x.2.k1 == k.k1 && x.2.k2 == k.k2 && x.2.k3 == k.k3 && x.2.stream == k.stream) with
  | some x => some (0, x.1)
  | none =>
    match keys.find? (fun x => !k.use1 && !x.2.use1 && x.2.owner == k.owner) with
    | some x => some (1, x.1)
    | none => if (freeHandle keys).isNone then some (2, 0) else none

/-- CLAIM (R325, R326). -/
def updClaim (w : Who) (a : UpdArgs) : M Unit := do
  let keys := (← getDev).keys
  match claimRefusal keys a.key, freeHandle keys with
  | none, some h => do
    modDev (fun d => { d with keys := KV.set d.keys h a.key })
    vput a.result (leBytes 8 h)
  | some (r, h), _ => do
    raiseCarried pgSys 0x0503 (r * 2 ^ 30 + h) 0
    vput a.result (leBytes 8 (2 ^ 63 + r * 2 ^ 61 + h))
  | none, none => pure ()
  flushWrites w

/-- RELEASE (R328). -/
def updRelease (a : UpdArgs) : M Unit := modDev (fun d => { d with keys := KV.erase d.keys a.handle })

/-- The work of a validated UPD; the answer tells whether it is complete. -/
def updBody (w : Who) (a : UpdArgs) : M Bool := do
  match a.op with
  | 0 => updApply w a
  | 1 => do updSetStep a; return true
  | 2 => do updRoots a; return true
  | 3 => do updSetPin a; return true
  | 4 => do updDropout w a; return true
  | 5 => do updClaim w a; return true
  | _ => do updRelease a; return true

/-- SYS_RNG_CLR written by a secure agent (R324). -/
def keyClear (d : Dev) (wr : Wr) : Dev :=
  if d.mayWrite wr.agent pgSys 0x508 && wrHit wr 0 then { d with keys := [] } else d

def execKeyRegistryClear (w : Wr) (s : State) : Host.Outcome State Fault Refusal := s.lift (fun d => keyClear d w)

end Sys2Proof.Machine
end

