-- ==== Sys2Proof/Machine/Wire.lean ====
section
/-! DEFINITION. Frames on a link: the AFT header, the ICRC and the UDP checksum as bytes (R14, R360, R372). -/

namespace Sys2Proof

open Machine

/-- Bits as a number, the first one least. -/
def flagBits (l : List Bool) : Nat := l.foldr (fun b n => b.toNat + 2 * n) 0

/-- The 36 bytes of the AFT header, in network byte order (R14, R360). -/
def Frame.header (f : Frame) : List Byte :=
  beBytes 1 (f.ver * 16 + f.type) ++ beBytes 1 (f.ecn % 4 * 4 + 16 * flagBits [f.coll, f.ord, f.last, f.first])
    ++ beBytes 2 f.src ++ beBytes 2 f.dst ++ beBytes 1 f.chan ++ beBytes 1 (f.hops * 16) ++ beBytes 4 f.msgId ++ beBytes 4 f.psn
    ++ beBytes 8 f.addr.toNat ++ beBytes 4 f.collId ++ beBytes 2 f.cstep ++ beBytes 2 f.payload.length ++ beBytes 2 f.lseq
    ++ beBytes 2 f.aux

/-- Bytes put over others from a place on. -/
def patch (bs : List Byte) (i : Nat) (new : List Byte) : List Byte := bs.take i ++ new ++ bs.drop (i + new.length)

/-- Bits of one byte replaced: those of the mask by those of the value. -/
def patchBits (bs : List Byte) (i : Nat) (mask v : Byte) : List Byte := patch bs i [(bs.getD i 0 &&& ~~~mask) ||| (v &&& mask)]

/-- The fields of the header that change on the way: ECN, HOPS and LSEQ. -/
def putEcn (bs : List Byte) (ecn : Nat) : List Byte := patchBits bs 1 0x0C (BitVec.ofNat 8 (ecn * 4))
def putHops (bs : List Byte) (hops : Nat) : List Byte := patchBits bs 7 0xF0 (BitVec.ofNat 8 (hops * 16))
def putLseq (bs : List Byte) (lseq : Nat) : List Byte := patch bs 32 (beBytes 2 lseq)

/-- The ICRC of header and payload, taken with HOPS, ECN and LSEQ zero (R360). -/
def icrc (bs : List Byte) : Nat := crc32c (putLseq (putHops (putEcn bs 0) 0) 0)

/-- A frame's bytes from the header to the ICRC. DESIGN CHOICE (log 95): the ICRC is in network byte order too. -/
def Frame.aft (f : Frame) : List Byte :=
  let bs := f.header ++ f.payload
  bs ++ beBytes 4 (icrc bs)

/-- The 16 bytes of an IPv6 address held in two words in network byte order: the first byte of a word at its lowest address. -/
def ip6Bytes (l : List W64) : List Byte := l.flatMap (fun w => leBytes 8 w.toNat)

/-- 16-bit big-endian words of a byte string; an odd one ends with zero. -/
def words16 : List Byte → List Nat
  | [] => []
  | [a] => [a.toNat * 256]
  | a :: b :: bs => (a.toNat * 256 + b.toNat) :: words16 bs

/-- The UDP checksum over IPv6's pseudo-header, the UDP header and the AFT bytes, by the standard that R360 names (log 95). -/
def udpSum (e : Encap) (aft : List Byte) : Nat :=
  let n := 8 + aft.length
  let ws := words16 (ip6Bytes e.sip ++ ip6Bytes e.dip ++ beBytes 4 n ++ beBytes 4 17 ++ beBytes 2 e.sport ++ beBytes 2 e.dport
    ++ beBytes 2 n ++ aft)
  let s := 0xFFFF - ws.foldl (fun s w => (s + w) % 0x10000 + (s + w) / 0x10000) 0
  if s = 0 then 0xFFFF else s

/-- AFT bytes in an encapsulation, with its checksum (R360). -/
def packetOf (e : Encap) (aft : List Byte) (fcsOk : Bool) : Packet :=
  { enc := { e with sum := if e.udp then udpSum e aft else 0 }, aft := aft, fcsOk := fcsOk, fec := 0 }

/-- The header fields and the payload of a received frame; none where the bytes are too few for the header, its LEN and an ICRC. -/
def Packet.frame? (p : Packet) : Option Frame :=
  let at' := fun (i n : Nat) => beNat ((p.aft.drop i).take n)
  let len := at' 30 2
  if p.aft.length < 40 + len then none
  else
    let b1 := at' 1 1
    some { ver := at' 0 1 / 16, type := at' 0 1 % 16, first := b1.testBit 7, last := b1.testBit 6, ord := b1.testBit 5,
           coll := b1.testBit 4, ecn := b1 / 4 % 4, src := at' 2 2 % 2 ^ 14, dst := at' 4 2 % 2 ^ 14, chan := at' 6 1,
           hops := at' 7 1 / 16, msgId := at' 8 4, psn := at' 12 4, addr := BitVec.ofNat 64 (at' 16 8), collId := at' 24 4,
           cstep := at' 28 2, lseq := at' 32 2, aux := at' 34 2, payload := (p.aft.drop 36).take len }

/-- The ICRC of a received frame is good, and so is its UDP checksum (R360). -/
def Packet.icrcOk (p : Packet) (f : Frame) : Bool :=
  let n := 36 + f.payload.length
  icrc (p.aft.take n) == beNat ((p.aft.drop n).take 4)

def Packet.sumOk (p : Packet) : Bool := !p.enc.udp || p.enc.sum == udpSum p.enc p.aft

/-- The ECN codepoint of a frame: in the IPv6 header where it has one, else in the AFT header (R375). -/
def Packet.ecn (p : Packet) (f : Frame) : Nat := if p.enc.udp then p.enc.ecn else f.ecn

/-- VER or TYPE is not one of R360's. -/
def Frame.foreign (f : Frame) : Bool := f.ver != 2 || f.type == 4 || decide (f.type > 8)

/-- Frames that never leave their link (R372). -/
def Frame.isLlr (f : Frame) : Bool := f.ver == 2 && (f.type == 7 || f.type == 8)

end Sys2Proof
end

