-- ==== Sys2Proof/Machine/Link.lean ====
section
/-! DEFINITION. Fabric ports, routes and the sending of frames (R356 to R366, R371 to R376, R391 to R393, R459, R545). -/

namespace Sys2Proof.Machine

/-! ### Peers and flows -/

def Dev.peer (d : Dev) (i : Nat) : Peer := KV.get Peer.reset d.peers i
def Dev.modPeer (d : Dev) (i : Nat) (f : Peer → Peer) : Dev := { d with peers := KV.set d.peers i (f (d.peer i)) }

/-- The key of a flow to a device on a channel. -/
def flowKey (dst chan : Nat) : Nat := dst * 256 + chan

/-- Credit of a flow: FAB_NI_CREDIT_INIT units when it is first used (R374). -/
def Dev.flowCredit (d : Dev) (h dst chan : Nat) : Nat :=
  KV.get (d.regf (pgNi h) 0x800 11 0) d.credit (flowKey dst chan)

def Dev.setCredit (d : Dev) (dst chan n : Nat) : Dev := { d with credit := KV.set d.credit (flowKey dst chan) n }

/-- SYS_DEVID: the device's ID and whether it is valid (R362). -/
def Dev.devId (d : Dev) : Nat := d.regf pgSys 0x600 13 0
def Dev.devIdValid (d : Dev) : Bool := d.regb pgSys 0x600 63

/-- The largest payload the device sends (R361). -/
def Dev.maxSeg (d : Dev) : Nat :=
  match d.regf pgSys 0x608 2 1 with
  | 0 => 1024
  | 1 => 2048
  | _ => 4096

/-! ### Ports -/

/-- FAB_STAT.STATE: 0 DISABLED, 1 TRAINING, 2 UP, 3 DOWN. -/
def Dev.portState (d : Dev) (n : Nat) : Nat := d.regf (pgFab n) 0x108 1 0
/-- A port runs with its half, in an eclipse too (R541); an isolated half sends nothing (R523). -/
def Dev.portLive (d : Dev) (n : Nat) : Bool := d.portPresent n && d.running (n / 8) && !(d.half (n / 8)).isolated
def Dev.portUp (d : Dev) (n : Nat) : Bool := d.portLive n && d.portState n == 2
def Dev.llrOn (d : Dev) (n : Nat) : Bool := d.regb (pgFab n) 0x108 9

/-- The data rate of a port in units of 100 Mb/s (R356). -/
def Dev.portRate (d : Dev) (n : Nat) : Nat :=
  d.regf (pgFab n) 0x108 4 2 * (if d.regf (pgFab n) 0x100 1 0 = 1 then 2000 else 1000)

/-! ### Routes (R363, R364) -/

def routeWords (w0 w1 w2 w3 : W64) : Route :=
  { dmac := w0.field 47 0, ports := w0.field 63 48, valid := w1.bit 0, udp := w1.bit 1, dip0 := w2, dip1 := w3 }

/-- Bytes that an interface reads of a half's DRAM, with the record of the first line that fails its code (R413); none where a
store never answers (R418, R421). -/
def Dev.niBytes (d : Dev) (h pa n : Nat) : Dev × Option (List Byte × Option W64) :=
  if (chunks pa n).all (fun c => d.reachesFrom h c.1) then
    let r := d.load pa n
    (r.1, some r.2)
  else (d, none)

/-- Where the route entry of a device lies (R363). -/
def Dev.routeAddr (d : Dev) (dst : Nat) : Nat := d.regf pgSys 0x610 47 12 * 4096 + 32 * dst

/-- The route entry of a device as it lies in memory. -/
def Dev.routeMem (d : Dev) (dst : Nat) : Route :=
  let a := d.routeAddr dst
  routeWords (d.word a) (d.word (a + 8)) (d.word (a + 16)) (d.word (a + 24))

/-- An interface reads a route entry into its cache. DESIGN CHOICE (log 96): an entry that cannot be read has V = 0. -/
def Dev.routeFetch (d : Dev) (h dst : Nat) : Dev × Route :=
  let r := d.niBytes h (d.routeAddr dst) 32
  match r.2 with
  | some (bs, none) =>
    let w := fun (i : Nat) => BitVec.ofNat 64 (leNat ((bs.drop (8 * i)).take 8))
    let e := routeWords (w 0) (w 1) (w 2) (w 3)
    (r.1.modNi h (fun x => { x with routes := KV.set x.routes dst e }), e)
  | _ => (r.1, { dmac := 0, ports := 0, valid := false, udp := false, dip0 := 0, dip1 := 0 })

/-- The entry that an interface uses. Where its cache may hold an older one, a free value says which. -/
def Dev.route (d : Dev) (h dst : Nat) : Dev × Route :=
  match KV.find? (d.ni h).routes dst with
  | none => d.routeFetch h dst
  | some old =>
    if old = d.routeMem dst then (d, old)
    else
      let f := d.takeFree
      if f.2.bit 0 then (f.1, old) else f.1.routeFetch h dst

/-- The UP ports of a route. -/
def Dev.upPorts (d : Dev) (r : Route) : List Nat :=
  if r.valid then (List.range 16).filter (fun n => r.ports.testBit n && d.portUp n) else []

/-- The UP ports of a route that the interface reaches: those of the other half across the drawbar (R364). -/
def Dev.routePorts (d : Dev) (h : Nat) (r : Route) : List Nat :=
  (d.upPorts r).filter (fun n => n / 8 == h || !d.regb pgDbw 0x100 1)

/-- The 802.1Q tag that the device puts on its frames (R391). -/
def Dev.vlanTag (d : Dev) : Option Nat :=
  if d.regb pgSys 0x608 3 then some (d.regf pgSys 0x608 18 16 * 2 ^ 13 + d.regf pgSys 0x608 15 4) else none

/-- The encapsulation by a route (R360, R375). -/
def Dev.encap (d : Dev) (n : Nat) (r : Route) (f : Frame) : Encap :=
  { dmac := r.dmac, smac := d.regf (pgFab n) 0x110 47 0, vlan := d.vlanTag, udp := r.udp,
    dscp := if r.udp then d.regf pgSys 0x608 24 19 else 0, ecn := if r.udp then f.ecn else 0,
    sip := if r.udp then [d.reg (pgFab n) 0x118, d.reg (pgFab n) 0x120] else [], dip := if r.udp then [r.dip0, r.dip1] else [],
    sport := if r.udp then 0xC000 + Config.flowHash f.src f.dst f.chan % 0x4000 else 0,
    dport := if r.udp then d.regf pgSys 0x620 15 0 else 0, sum := 0 }

/-- The encapsulation of a frame that stays on its link. DESIGN CHOICE (log 96): Ethernet II, to a MAC address that no rule gives. -/
def Dev.linkEncap (d : Dev) (n : Nat) : Encap :=
  { dmac := Config.linkDmac, smac := d.regf (pgFab n) 0x110 47 0, vlan := d.vlanTag, udp := false, dscp := 0, ecn := 0,
    sip := [], dip := [], sport := 0, dport := 0, sum := 0 }

/-! ### Sending on a port (R372) -/

/-- The frames that fit the 512 KiB replay buffer, the latest first to stay. -/
def trimReplay : List (Nat × Packet) → List (Nat × Packet)
  | [] => []
  | f :: l => if ((f :: l).map (fun x => x.2.aft.length)).sum ≤ 524288 then f :: l else trimReplay l

/-- AFT bytes leave on a port; with link-level retry they take the next LSEQ and stay in the replay buffer, and without it, as the
model has it (log 96), they carry LSEQ 0. -/
def Dev.sendOn (d : Dev) (n : Nat) (enc : Encap) (aft : List Byte) (fcsOk : Bool) : Dev :=
  let d := d.count (pgFab n) 0x01 1
  if d.llrOn n then
    let seq := (d.port n).txLseq
    let p := packetOf enc (putLseq aft seq) fcsOk
    (d.modPort n (fun x => { x with txLseq := (seq + 1) % 65536, replay := trimReplay (x.replay ++ [(seq, p)]) })).emit (.frame n p)
  else d.emit (.frame n (packetOf enc (putLseq aft 0) fcsOk))

/-- A frame with the header fields that every frame of the device carries (R360, R375). -/
def Dev.blankFrame (d : Dev) (type dst : Nat) : Frame :=
  { ver := 2, type := type, first := false, last := false, ord := false, coll := false, ecn := 2,
    src := if d.devIdValid then d.devId else 0, dst := dst, chan := 0, hops := d.regf pgSys 0x608 28 25, msgId := 0, psn := 0,
    addr := 0, collId := 0, cstep := 0, lseq := 0, aux := 0, payload := [] }

/-- A frame that never leaves its link and takes no place in the count of LSEQ. -/
def Dev.sendLlr (d : Dev) (n type lseq : Nat) : Dev :=
  (d.count (pgFab n) 0x01 1).emit (.frame n (packetOf (d.linkEncap n) ({ d.blankFrame type 0 with lseq := lseq } : Frame).aft true))

/-- What chooses a frame's port: the flow for an ordered one, else its message's place in the round-robin (R364). -/
def pickOf (f : Frame) (lane : Nat) : Nat := if f.ord then Config.flowHash f.src f.dst f.chan else lane

/-- A frame to a device by its route, from an interface, on the port that `pick` chooses. The flag tells that a port took it
(R364). -/
def Dev.sendTo (d : Dev) (h pick : Nat) (f : Frame) : Dev × Bool :=
  let r := d.route h f.dst
  let ps := r.1.routePorts h r.2
  match ps[pick % ps.length]? with
  | none => (r.1, false)
  | some n => (r.1.sendOn n (r.1.encap n r.2 f) f.aft true, true)

/-- The next place of a destination's frames in the round-robin of ports (R364). -/
def Dev.nextLane (d : Dev) (dst : Nat) : Dev × Nat :=
  (d.modPeer dst (fun p => { p with lane := p.lane + 1 }), (d.peer dst).lane)

/-- A frame other than DATA to a device: discarded where the peer is absent (R373), and where no port takes it, or the device has
no ID (R362), it waits for one. -/
def Dev.sendCtl (d : Dev) (h : Nat) (f : Frame) : Dev :=
  if (d.peer f.dst).absent then d
  else
    let wait := fun (d : Dev) => d.modNi h (fun x => { x with ctl := x.ctl ++ [f] })
    if !d.devIdValid then wait d
    else
      let l := d.nextLane f.dst
      let r := l.1.sendTo h l.2 f
      if r.2 then r.1 else wait r.1

/-- Frames that waited for a port are tried again, in their order. -/
def Dev.drainCtl (d : Dev) : Dev :=
  (List.range 2).foldl (fun d h =>
    if d.niLive h then
      let l := (d.ni h).ctl
      l.foldl (fun d f => d.sendCtl h { f with src := d.devId }) (d.modNi h (fun x => { x with ctl := [] }))
    else d) d

/-! ### Messages (R360, R361, R367) -/

/-- Payloads of a message in segments. -/
def segmentsAux (seg : Nat) : Nat → List Byte → List (List Byte)
  | 0, _ => []
  | n + 1, bs => if bs.length ≤ seg then [bs] else bs.take seg :: segmentsAux seg n (bs.drop seg)

def segments (seg : Nat) (bs : List Byte) : List (List Byte) := segmentsAux seg (bs.length / seg + 1) bs

/-- What a message is for: the task, its destination and channel, and the collective's header fields. -/
structure MsgHead where
  core   : Nat
  ctx    : Nat
  dst    : Nat
  chan   : Nat
  coll   : Bool
  collId : Nat
  cstep  : Nat
  deriving DecidableEq, Repr

/-- The frames of a message: byte k of the payload goes to ADDR + k. -/
def Dev.messageFrames (d : Dev) (m : MsgHead) (addr : Nat) (bs : List Byte) : List TxFrame :=
  let seg := d.maxSeg
  let parts := segments seg bs
  let id := (d.peer m.dst).txMsg
  let lane := (d.peer m.dst).lane
  ((List.range parts.length).zip parts).map (fun ip =>
    { frame := { d.blankFrame 0 m.dst with
                   first := ip.1 == 0, last := ip.1 + 1 == parts.length, ord := decide (m.chan ≥ 128), coll := m.coll,
                   chan := m.chan, msgId := id, addr := BitVec.ofNat 64 (addr + seg * ip.1), collId := m.collId,
                   cstep := m.cstep, payload := ip.2 },
      lane := lane, count := 0, frames := parts.length, core := m.core, ctx := m.ctx, dead := (d.peer m.dst).absent })

/-- A message joins the interface's queue. -/
def Dev.queueMessage (d : Dev) (m : MsgHead) (addr : Nat) (bs : List Byte) : Dev :=
  let fs := d.messageFrames m addr bs
  (d.modNi (m.core / 4) (fun x => { x with txq := x.txq ++ fs })).modPeer m.dst
    (fun p => { p with txMsg := (p.txMsg + 1) % 2 ^ 32, lane := if m.chan < 128 then p.lane + 1 else p.lane })

/-- The task in a context is of a secure queue. -/
def Dev.taskSecure (d : Dev) (core ctx : Nat) : Bool := (d.ctx? core ctx).any (fun t => d.queueSecure t.queue)

/-- An AFT trace record, only for messages that TRC_CTRL.AFT_SAMPLE takes (R545). -/
def Dev.traceAft (d : Dev) (h kind : Nat) (f : Frame) (peer frames : Nat) : Dev :=
  if f.msgId % 2 ^ d.regf pgTrc 0x100 15 12 = 0 then
    d.trace (pgNi h) kind none (BitVec.ofNat 64 (f.msgId + peer * 2 ^ 32 + f.chan * 2 ^ 48))
      (BitVec.ofNat 64 (f.collId + f.cstep * 2 ^ 32 + min frames 0xFFFF * 2 ^ 48))
  else d

/-- The interface's operations with a peer are open: frames not acknowledged, or a COLL that includes it (R373). -/
def Dev.openWith (d : Dev) (h dst : Nat) : Bool :=
  let x := d.ni h
  (x.txq ++ x.unacked).any (fun t => t.frame.dst == dst && !t.dead) || x.colls.any (fun c => c.members.contains dst)

/-- A peer becomes absent: frames to it are discarded and the operations that they belong to do not complete (R373). -/
def Dev.makeAbsent (d : Dev) (h dst : Nat) : Dev :=
  let kill := fun (l : List TxFrame) => l.map (fun t => if t.frame.dst = dst then { t with dead := true } else t)
  let d := (List.range 2).foldl (fun d h => d.modNi h (fun x => { x with txq := kill x.txq, unacked := kill x.unacked })) d
  let d := d.modPeer dst (fun p => { p with absent := true })
  (d.setReg (pgNi h) 0x818 (BitVec.ofNat 64 dst)).setIsr (pgNi h) 8

/-! ### Pacing (R376) -/

/-- The route entry that the interfaces last read of a device, or what lies in memory. -/
def Dev.routeSeen (d : Dev) (dst : Nat) : Route :=
  ((KV.find? (d.ni 0).routes dst).or (KV.find? (d.ni 1).routes dst)).getD (d.routeMem dst)

/-- The line rate to a destination, in units of 1/256 of 100 Mb/s. -/
def Dev.lineRate (d : Dev) (dst : Nat) : Nat := ((d.upPorts (d.routeSeen dst)).map d.portRate).sum * 256

/-- Pacing toward a destination: r starts at the line rate. DESIGN CHOICE (log 96): both interfaces of the device share it. -/
def Dev.paceOf (d : Dev) (dst : Nat) : Pace :=
  (d.peer dst).pace.getD { rate := d.lineRate dst, clean := 0, marks := 0, acked := 0 }

def Dev.setPace (d : Dev) (dst : Nat) (p : Pace) : Dev := d.modPeer dst (fun x => { x with pace := some p })

/-- A port changed state: every destination's rate is clamped to its line rate. -/
def Dev.clampPaces (d : Dev) : Dev :=
  d.peers.foldl (fun d x => match x.2.pace with
    | none => d
    | some p => d.setPace x.1 { p with rate := min p.rate (d.lineRate x.1) }) d

/-- The rate after a window in which frames were acknowledged. -/
def nextPace (p : Pace) (line hi lo ai rmin : Nat) : Pace × Bool :=
  let zero : Pace := { p with marks := 0, acked := 0 }
  if p.acked = 0 then ({ zero with rate := min p.rate line }, false)
  else if p.marks * 256 > hi * p.acked then
    let cut := max ((p.acked - p.marks) * 2) p.acked
    ({ zero with rate := min (max (p.rate * cut / (2 * p.acked)) (rmin * 256)) line, clean := 0 }, true)
  else if p.marks * 256 > lo * p.acked then ({ zero with rate := min p.rate line, clean := 0 }, false)
  else
    let c := p.clean + 1
    ({ zero with rate := min (p.rate + ai * 256 * min (1 + c / 4) 8) line, clean := c }, false)

def rateWindow (d : Dev) (h dst : Nat) : Dev :=
  if !d.niLive h ∨ (d.peer dst).pace.isNone then d
  else
    let f := fun (hi lo : Nat) => d.regf (pgNi h) 0x810 hi lo
    let r := nextPace (d.paceOf dst) (d.lineRate dst) (f 15 8) (f 23 16) (f 47 32) (f 63 48)
    (d.setPace dst r.1).count (pgNi h) 0x24 (if r.2 then 1 else 0)

/-! ### Link states (R356 to R358) -/

/-- Widths in the order that training tries them: lanes and lane mask. -/
def widthList : List (Nat × Nat) := [(4, 15), (2, 3), (2, 12), (1, 1), (1, 2), (1, 4), (1, 8)]

def Dev.minWidth (d : Dev) (n : Nat) : Nat :=
  match d.regf (pgFab n) 0x100 3 2 with
  | 0 => 1
  | 1 => 2
  | _ => 4

/-- The state of a port with its lanes in use, which only an UP port has. -/
def Dev.setPortState (d : Dev) (n state lanes mask : Nat) : Dev :=
  (d.setReg (pgFab n) 0x108 (BitVec.ofNat 64 (state + lanes * 4 + mask * 32))).clampPaces

/-- Link-level retry ends with the link. -/
def Port.downed (p : Port) : Port :=
  { p with replay := [], txLseq := 0, rxLseq := 0, awaiting := false, skipped := 0, peerMode := none, peerLlr := false, peerDev := none }

/-- Training starts at a place of the width list. -/
def Dev.train (d : Dev) (n attempt : Nat) : Dev :=
  (d.modPort n (fun p => { p.downed with attempt := attempt, fails := 0 })).setPortState n 1 0 0

def Dev.modeEnabled (d : Dev) (mode : Nat) : Bool := mode == 0 || (mode ≤ 2 && d.cap.bit (48 + mode))

/-- The place in the width list of the lanes in use. -/
def widthIndex (mask : Nat) : Nat := widthList.findIdx (fun x => x.2 == mask)

/-- The next width to try, not below MIN_WIDTH. -/
def Dev.nextWidth (d : Dev) (n attempt : Nat) : Option Nat :=
  (List.range 7).find? (fun i => i > attempt && decide ((widthList.getD i (0, 0)).1 ≥ d.minWidth n))

/-- A link fails, or an attempt of a training port does (R358). -/
def linkFailure (d : Dev) (n : Nat) : Dev :=
  if !d.portLive n then d
  else
    match d.portState n with
    | 2 => (d.train n (widthIndex (d.regf (pgFab n) 0x108 8 5))).setIsr (pgFab n) 0
    | 1 =>
      let p := d.port n
      if p.fails = 0 then d.modPort n (fun p => { p with fails := 1 })
      else
        match d.nextWidth n p.attempt with
        | some i => d.modPort n (fun p => { p with attempt := i, fails := 0 })
        | none => (d.modPort n (fun p => { p with fails := 0 })).setPortState n 3 0 0
    | _ => d

/-- HELLO on a port (R459). DESIGN CHOICE (log 42): the payload's device ID and serial number are little-endian. -/
def Dev.sendHello (d : Dev) (n : Nat) : Dev :=
  let mode := d.regf (pgFab n) 0x100 1 0
  let llr := if d.regb (pgFab n) 0x100 4 then 1 else 0
  let id := if d.devIdValid then d.devId else 0xFFFF
  let body := leBytes 1 0 ++ leBytes 1 mode ++ leBytes 1 llr ++ leBytes 1 0 ++ leBytes 2 id ++ leBytes 2 0
    ++ leBytes 8 (d.reg pgSec 0x118).toNat
  d.sendOn n (d.linkEncap n) ({ d.blankFrame 6 0 with first := true, last := true, payload := body } : Frame).aft true

/-- Training succeeds at the width that the port tries, or at a narrower one when that attempt and those before the other failed
(R357, R358); firmware sends HELLO, and frames that waited for a port leave. -/
def linkUp (d : Dev) (n width lanes : Nat) : Dev :=
  if d.portLive n && d.portState n == 1 && widthList.contains (width, lanes) && decide (width ≥ d.minWidth n)
      && decide (widthIndex lanes ≥ (d.port n).attempt) then
    let old := (d.port n).width
    let d := (d.modPort n (fun p => { p with width := width, attempt := widthIndex lanes, fails := 0 })).setPortState n 2 width lanes
    let d := d.setIsr (pgFab n) 2
    let d := if old ≠ 0 ∧ old ≠ width then d.setIsr (pgFab n) 1 else d
    (if d.unitLive (n / 8) then d.sendHello n else d).drainCtl
  else d

/-- A DOWN port starts again at width 4. -/
def linkRetry (d : Dev) (n : Nat) : Dev := if d.portLive n && d.portState n == 3 then d.train n 0 else d

/-- A write of RETRAIN. -/
def fabRetrain (d : Dev) (n : Nat) (w : Wr) : Dev :=
  if wrHit w 5 && d.regf (pgFab n) 0x100 1 0 != 0 then d.train n 0 else d

/-- A write of MODE: an enabled mode other than the present one starts training in it, 0 disables the port. -/
def fabMode (d : Dev) (n : Nat) (w : Wr) : Dev :=
  let m := (d.merged (pgFab n) 0x100 w).field 1 0
  if !d.modeEnabled m ∨ m = d.regf (pgFab n) 0x100 1 0 then d
  else
    let d := d.setf (pgFab n) 0x100 1 0 m
    if m = 0 then (d.modPort n (fun p => p.downed)).setPortState n 0 0 0 else d.train n 0

/-- A write to FAB_CTRL (R392). -/
def fabCtrlWrite (d : Dev) (n : Nat) (w : Wr) : Dev :=
  if d.portPresent n && d.mayWrite w.agent (pgFab n) 0x100 then fabRetrain (fabMode (d.plainWrite (pgFab n) 0x100 w) n w) n w
  else d

/-- HELLO on every UP port, when SYS_DEVID.VALID becomes 1 (R459). -/
def Dev.helloAll (d : Dev) : Dev := (List.range 16).foldl (fun d n => if d.portUp n && d.unitLive (n / 8) then d.sendHello n else d) d

/-- A write of SYS_ROUTE_INV loads DEV and ALL, and with GO drops what they name from the route caches (R15, R363, R391). -/
def routeInv (d : Dev) (w : Wr) : Dev :=
  if !d.mayWrite w.agent pgSys 0x618 || d.regb pgSys 0x618 63 then d
  else
    let v := d.merged pgSys 0x618 w
    let d := d.setReg pgSys 0x618 (BitVec.ofNat 64 (v.field 13 0 + (if v.bit 15 then 2 ^ 15 else 0)))
    if wrHit w 63 then d.setb pgSys 0x618 63 true else d

/-- The interfaces finish dropping the entries, and GO clears. DEV and ALL are write-only. -/
def routeInvDone (d : Dev) : Dev :=
  if d.up && d.regb pgSys 0x618 63 then
    let dev := d.regf pgSys 0x618 13 0
    let all := d.regb pgSys 0x618 15
    let d := (List.range 2).foldl (fun d h =>
      d.modNi h (fun x => { x with routes := if all then [] else KV.erase x.routes dev })) d
    d.setb pgSys 0x618 63 false
  else d

/-- A write of FAB_PEER_CLR ends a peer's absence and resets the pair's PSN state (R373). -/
def peerClear (d : Dev) (h : Nat) (w : Wr) : Dev :=
  if h < 2 && d.mayWrite w.agent (pgNi h) 0x820 && w.lo then
    let dev := (wrBits w).field 13 0
    d.modPeer dev (fun p => { p with absent := false, txPsn := 0, rxNext := 0, rxSet := [], toAck := 0, marks := 0 })
  else d

def execLinkFailure (port : Nat) (s : State) : Host.Outcome State Fault Refusal := s.lift (fun d => linkFailure d port)
def execLinkUp (port width lanes : Nat) (s : State) : Host.Outcome State Fault Refusal := s.lift (fun d => linkUp d port width lanes)
def execLinkRetryTimer (port : Nat) (s : State) : Host.Outcome State Fault Refusal := s.lift (fun d => linkRetry d port)
def execFabRetrain (port : Nat) (w : Wr) (s : State) : Host.Outcome State Fault Refusal := s.lift (fun d => fabCtrlWrite d port w)
def execFabModeWrite (port : Nat) (w : Wr) (s : State) : Host.Outcome State Fault Refusal :=
  s.lift (fun d => fabCtrlWrite d port w)
def execRateControlWindow (half dst : Nat) (s : State) : Host.Outcome State Fault Refusal := s.lift (fun d => rateWindow d half dst)
def execPeerClear (half : Nat) (w : Wr) (s : State) : Host.Outcome State Fault Refusal := s.lift (fun d => peerClear d half w)
def execRouteInvalidate (w : Wr) (s : State) : Host.Outcome State Fault Refusal := s.lift (fun d => routeInv d w)
def execRouteInvDone (s : State) : Host.Outcome State Fault Refusal := s.lift routeInvDone

end Sys2Proof.Machine
end

