-- ==== Sys2Proof/Machine/Coll.lean ====
section
/-! DEFINITION. Collectives: validation of a COLL, and what the network interface does for one, block by block (R378 to
R390, R413, R519). -/

namespace Sys2Proof.Machine

/-! ### Validation (R378, R381, R390) -/

/-- The task's queue holds Shuot-1 descriptors (R244). -/
def Dev.kx1 (d : Dev) (w : Who) : Bool :=
  match d.ctx? w.core w.ctx with
  | some t => (d.qword t.queue 0).bit 53
  | none => false

def collArgsOf (ws : List W64) : CollArgs :=
  let h := wd ws 0
  let f := fun (hi lo : Nat) => h.field hi lo
  { op := f 3 0, sched := f 5 4, fmt := f 11 6, acc := h.bit 12, updEn := h.bit 13, updHalf := f 14 14, wrap := h.bit 15,
    mesh := f 19 16, axes := f 23 20, axisX := f 25 24, axisY := f 27 26, collId := f 63 32, src := (wd ws 1).field 47 0,
    dst := (wd ws 2).field 47 0, count := (wd ws 3).field 39 0, root := (wd ws 4).field 13 0, chan := (wd ws 4).field 23 16,
    slice := (wd ws 4).field 47 32 }

/-- Axes of a mask in rising order. -/
def axesOf (mask : Nat) : List Nat := (List.range 4).filter (fun a => mask.testBit a)

/-- Size of a group (R379). -/
def groupSize (m : Mesh) (axes : Nat) : Nat := (axesOf axes).foldl (fun n a => n * m.sizes.getD a 1) 1

/-- The KX1 form of R390 as a COLL. -/
def kx1Coll (d : Dev) (ws : List W64) : CollArgs :=
  let h := wd ws 0
  let sizes := match d.meshOf 0 with | some m => m.sizes | none => []
  { op := match h.field 1 0 with | 0 => 2 | 1 => 0 | 2 => 1 | _ => 6,
    sched := 0, fmt := h.field 7 2, acc := false, updEn := false, updHalf := 0, wrap := false, mesh := 0,
    axes := bitsOf (sizes.map (fun s => s != 0)), axisX := 0, axisY := 0, collId := h.field 63 32, src := (wd ws 1).field 47 0,
    dst := (wd ws 2).field 47 0, count := (wd ws 3).field 39 0, root := 0, chan := 0, slice := 0 }

/-- The checks of R380 and R381 on the fields. -/
def collOk (d : Dev) (a : CollArgs) : Bool :=
  let width := Fmt.codeWidth a.fmt
  match d.meshOf a.mesh with
  | none => false
  | some m =>
    a.op ≤ 5 && a.sched != 3 && (width == 8 || width == 16 || width == 32)
      && (!(a.op == 0 || a.op == 2) || a.fmt ≤ 1)
      && (!a.acc || (a.fmt == 1 && (a.op == 0 || a.op == 2)))
      && (a.sched != 1 || a.op == 0 || a.op == 2 || a.op == 3)
      && (a.sched != 2 || (a.op == 2 && a.axisX != a.axisY && axesOf a.axes == (List.range 4).filter (fun i => i == a.axisX || i == a.axisY)))
      && a.axes != 0 && (axesOf a.axes).all (fun i => m.sizes.getD i 0 != 0)
      && a.root < groupSize m a.axes && (!a.updEn || (a.op == 0 && d.halfPresent a.updHalf))
      && (a.op != 5 || (axesOf a.axes).contains a.axisX) && a.count != 0 && a.src % 64 == 0 && (a.updEn || a.dst % 64 == 0)

/-- The reserved bits of a COLL's structure are zero (R378). -/
def collReserved (ws : List W64) : Bool :=
  (wd ws 0).field 31 28 == 0 && (wd ws 1).field 63 48 == 0 && (wd ws 2).field 63 48 == 0 && (wd ws 3).field 63 40 == 0
    && (wd ws 4).field 15 14 == 0 && (wd ws 4).field 31 24 == 0 && (wd ws 4).field 63 48 == 0 && zeroFrom ws 5

/-- Validation of a COLL. -/
def parseColl (w : Who) (t : Desc) : M CollArgs := do
  require t.oneWord
  let va ← addrWord t.w1
  let old := (← getDev).kx1 w
  require (old || va % 64 == 0)
  let n := if old then 4 else 8
  nameRange va (8 * n) false
  let ws ← owords w va n
  let d ← getDev
  let a := if old then kx1Coll d ws else collArgsOf ws
  require ((old || collReserved ws) && collOk d a)
  return a

/-! ### A collective in progress -/

/-- The machine with a collective taken out of its interface; `landed` tells that the last byte of the slice that the collective
feeds has been performed (R383). -/
structure CRun where
  dev    : Dev
  coll   : Coll
  landed : Bool

def Coll.half (c : Coll) : Nat := c.core / 4
def Coll.n (c : Coll) : Nat := c.members.length
/-- Bytes of an element and of a block as they lie in memory. -/
def Coll.width (c : Coll) : Nat := Fmt.codeWidth c.args.fmt / 8
def Coll.blockBytes (c : Coll) : Nat := c.args.count * c.width
/-- Bytes of an element of a partial sum as it travels (R388). -/
def Coll.partWidth (c : Coll) : Nat := if c.args.acc then 4 else c.width

def splitElems (w n : Nat) (bs : List Byte) : List Nat := (List.range n).map (fun i => leNat ((bs.drop (i * w)).take w))
def joinElems (w : Nat) (l : List Nat) : List Byte := l.flatMap (leBytes w)

/-- A block as a partial sum carries it: with ACC, BF16 widens exactly to FP32. -/
def Coll.widen (c : Coll) (bs : List Byte) : List Byte :=
  if c.args.acc then joinElems 4 ((splitElems 2 c.args.count bs).map (fun x => enc32 (decB x))) else bs

/-- The sum of two partials: one rounding into the carried format (R388). -/
def Coll.addParts (c : Coll) (a b : List Byte) : List Byte :=
  let w := c.partWidth
  let add := fun (x y : Nat) => if w = 4 then fadd x y else encB (FVal.add (decB x) (decB y))
  joinElems w (((splitElems w c.args.count a).zip (splitElems w c.args.count b)).map (fun p => add p.1 p.2))

/-- A final sum as it is written. -/
def Coll.final (c : Coll) (bs : List Byte) : List Byte :=
  if c.args.acc then joinElems 2 ((splitElems 4 c.args.count bs).map (fun x => ((Fmt.float bf16).conv .rne (dec32 x)).1)) else bs

/-- The physical address of a held page's byte. -/
def Coll.phys (c : Coll) (va : Nat) : Nat := KV.get 0 c.maps (va / 65536) * 65536 + va % 65536

/-- Every page of a block that the collective holds answers its interface (R418, R421). -/
def CRun.reaches (r : CRun) (va : Nat) : Bool :=
  (pageChunks va r.coll.blockBytes).all (fun ch => r.dev.reachesFrom r.coll.half (r.coll.phys ch.1))

/-- Block j of the source; poison ends the collective (R413), and a store that never answers holds it for good. -/
def CRun.source (r : CRun) (j : Nat) : CRun × List Byte :=
  let c := r.coll
  let va := c.args.src + j * c.blockBytes
  if c.stuck || !r.reaches va then ({ r with coll := { c with stuck := true } }, List.replicate c.blockBytes 0)
  else
    (pageChunks va c.blockBytes).foldl (fun (acc : CRun × List Byte) ch =>
      let x := acc.1.dev.load (acc.1.coll.phys ch.1) ch.2
      ({ acc.1 with dev := x.1, coll := { acc.1.coll with bad := acc.1.coll.bad.or x.2.2 } }, acc.2 ++ x.2.1)) (r, [])

/-- Block j of the source as a partial. -/
def CRun.carried (r : CRun) (j : Nat) : CRun × List Byte :=
  let x := r.source j
  (x.1, r.coll.widen x.2)

/-- Bytes written to block j of the destination, write-through for an update engine's slice (R519). -/
def CRun.put (r : CRun) (j : Nat) (bs : List Byte) : CRun :=
  let c := r.coll
  if c.bad.isSome || c.stuck then r
  else if !r.reaches (c.base + j * c.blockBytes) then { r with coll := { c with stuck := true } }
  else
    let x := (pageChunks (c.base + j * c.blockBytes) c.blockBytes).foldl (fun (acc : Dev × List Byte) ch =>
      (acc.1.storeBy false (c.phys ch.1) (acc.2.take ch.2) c.args.updEn, acc.2.drop ch.2)) (r.dev, bs)
    { r with dev := x.1, landed := r.landed || c.args.updEn }

/-- A block sent to a rank with its phase, step and block index (R385). -/
def CRun.send (r : CRun) (rank phase step blk : Nat) (bs : List Byte) : CRun :=
  let c := r.coll
  if c.bad.isSome || c.stuck then r
  else
    let m : MsgHead :=
      { core := c.core, ctx := c.ctx, dst := c.members.getD rank 0, chan := c.args.chan, coll := true, collId := c.args.collId,
        cstep := phase * 2 ^ 14 + step }
    { r with dev := r.dev.queueMessage m (blk * 2 ^ 44) bs }

/-- The number of trailing zero bits of a rank, at most 14. -/
def lowLevel (r : Nat) : Nat := ((List.range 14).find? (fun l => r.testBit l)).getD 14

/-- Levels at which a rank adds another's sum (R386), or hands the blocks down. -/
def treeLevels (n r : Nat) : List Nat := (List.range 14).filter (fun l => r % 2 ^ (l + 1) == 0 && decide (r + 2 ^ l < n))

/-- Levels at which a rank of a tree BROADCAST, counted from the root, sends on. -/
def castLevels (n r : Nat) : List Nat := (List.range 14).filter (fun l => decide (r < 2 ^ l) && decide (r + 2 ^ l < n))

/-- A finished block goes to the ranks below in the tree. -/
def CRun.down (r : CRun) (blk : Nat) (bs : List Byte) : CRun :=
  let c := r.coll
  (treeLevels c.n c.rank).reverse.foldl (fun r l => r.send (c.rank + 2 ^ l) 1 l blk bs) r

/-- What follows when every level of a block has been added at this rank. -/
def CRun.treeNext (r : CRun) (blk : Nat) : CRun :=
  let c := r.coll
  let p := KV.get (0, []) c.part blk
  if p.1 < (treeLevels c.n c.rank).length then r
  else if c.rank ≠ 0 then r.send (c.rank - 2 ^ lowLevel c.rank) 0 (lowLevel c.rank) blk p.2
  else
    let f := c.final p.2
    if c.args.op = 2 then (r.put blk f).down blk f
    else if blk = 0 then r.put 0 f
    else r.send blk 1 0 blk f

/-- The rank a number of places on along the ring. -/
def ringRank (n r k : Nat) : Nat := (r + k) % n

/-- Coordinate of this member on AXIS_X and on AXIS_Y. -/
def Coll.cx (c : Coll) : Nat := c.rank / c.sx % c.nx
def Coll.cy (c : Coll) : Nat := c.rank / c.sy % c.ny
/-- The rank of the next member along AXIS_X and along AXIS_Y. -/
def Coll.nextX (c : Coll) : Nat := c.rank - c.cx * c.sx + (c.cx + 1) % c.nx * c.sx
def Coll.nextY (c : Coll) : Nat := c.rank - c.cy * c.sy + (c.cy + 1) % c.ny * c.sy

/-- A block of this member's part known in full, which phase 4 of R387 passes along AXIS_X. -/
def CRun.known (r : CRun) (blk : Nat) (bs : List Byte) : CRun :=
  let c := r.coll
  let r := r.put blk bs
  if c.nx > 1 then r.send c.nextX 3 0 blk bs else r

/-- The final sum of this member's own block in the two-dimensional schedule. -/
def CRun.ownFinal (r : CRun) (s : List Byte) : CRun :=
  let c := r.coll
  let blk := c.cx * c.ny + c.cy
  let f := c.final s
  let r := r.known blk f
  if c.ny > 1 then r.send c.nextY 2 0 blk f else r

/-- The AXIS_X sum of a block of this member's part: it opens the ring along AXIS_Y where that starts here. -/
def CRun.partSum (r : CRun) (blk : Nat) (s : List Byte) : CRun :=
  let c := r.coll
  let r := { r with coll := { c with part := KV.set c.part blk (0, s) } }
  if c.ny = 1 then r.ownFinal s
  else if blk % c.ny = (c.cy + c.ny - 1) % c.ny then r.send c.nextY 1 0 blk s
  else r

/-- A block received whole takes effect, or none where what it needs is not there yet. -/
def CRun.take (r : CRun) (phase step blk : Nat) (bs : List Byte) : Option CRun :=
  let c := r.coll
  let n := c.n
  let a := c.args
  let next := ringRank n c.rank 1
  if a.op = 0 ∨ a.op = 2 then
    if a.sched = 1 then
      if phase = 0 then
        let p := KV.get (0, []) c.part blk
        if p.1 = step then
          some (({ r with coll := { c with part := KV.set c.part blk (step + 1, c.addParts p.2 bs) } } : CRun).treeNext blk)
        else none
      else if a.op = 0 then some (r.put 0 bs)
      else some ((r.put blk bs).down blk bs)
    else if a.sched = 2 then
      match phase with
      | 0 =>
        let l := r.carried blk
        let s := c.addParts bs l.2
        if step + 2 < c.nx then some (l.1.send c.nextX 0 (step + 1) blk s) else some (l.1.partSum blk s)
      | 1 =>
        match KV.find? c.part blk with
        | none => none
        | some p =>
          let s := c.addParts bs p.2
          if step + 2 < c.ny then some (r.send c.nextY 1 (step + 1) blk s) else some (r.ownFinal s)
      | 2 =>
        let r := r.known blk bs
        some (if step + 2 < c.ny then r.send c.nextY 2 (step + 1) blk bs else r)
      | _ =>
        let r := r.put blk bs
        some (if step + 2 < c.nx then r.send c.nextX 3 (step + 1) blk bs else r)
    else if phase = 0 then
      let l := r.carried blk
      let s := c.addParts bs l.2
      if step + 2 < n then some (l.1.send next 0 (step + 1) blk s)
      else
        let f := c.final s
        if a.op = 0 then some (l.1.put 0 f) else some ((l.1.put blk f).send next 1 0 blk f)
    else
      let r := r.put blk bs
      some (if step + 2 < n then r.send next 1 (step + 1) blk bs else r)
  else if a.op = 3 then
    let r' := (c.rank + n - a.root) % n
    let r := r.put 0 bs
    if a.sched = 1 then some ((castLevels n r').foldl (fun r l => r.send ((c.rank + 2 ^ l) % n) 1 l 0 bs) r)
    else some (if r' + 1 < n then r.send next 0 r' 0 bs else r)
  else some (r.put blk bs)

/-- Neighbours of this member along AXIS_X: lower and upper (R380). -/
def Coll.neighbours (c : Coll) : Option Nat × Option Nat :=
  let at' := fun (x : Nat) => c.rank - c.cx * c.sx + x * c.sx
  let lo := if c.cx > 0 then some (at' (c.cx - 1)) else if c.args.wrap then some (at' (c.nx - 1)) else none
  let hi := if c.cx + 1 < c.nx then some (at' (c.cx + 1)) else if c.args.wrap then some (at' 0) else none
  (lo, hi)

/-- A block of EXCHANGE goes to a neighbour, or to this member's own destination. -/
def CRun.exchange (r : CRun) (dest : Option Nat) (blk slot : Nat) : CRun :=
  match dest with
  | none => r
  | some q =>
    let x := r.source blk
    if q = r.coll.rank then x.1.put slot x.2 else x.1.send q 0 0 slot x.2

/-- What a member sends and writes when its collective begins. -/
def CRun.begin (r : CRun) : CRun :=
  let c := r.coll
  let n := c.n
  let a := c.args
  match a.op with
  | 1 =>
    let x := r.source 0
    ((List.range n).filter (fun q => q != c.rank)).foldl (fun r q => r.send q 0 0 c.rank x.2) (x.1.put c.rank x.2)
  | 4 =>
    (List.range n).foldl (fun r q =>
      let x := r.source q
      if q = c.rank then x.1.put q x.2 else x.1.send q 0 0 c.rank x.2) r
  | 5 =>
    let nb := c.neighbours
    (r.exchange nb.1 0 1).exchange nb.2 1 0
  | 3 =>
    if c.rank ≠ a.root then r
    else
      let x := r.source 0
      let r := x.1.put 0 x.2
      if a.sched = 1 then (castLevels n 0).foldl (fun r l => r.send ((c.rank + 2 ^ l) % n) 1 l 0 x.2) r
      else if n > 1 then r.send (ringRank n c.rank 1) 0 0 0 x.2 else r
  | _ =>
    if a.sched = 1 then
      (List.range n).foldl (fun r j =>
        let x := r.carried j
        ({ x.1 with coll := { x.1.coll with part := KV.set x.1.coll.part j (0, x.2) } } : CRun).treeNext j) r
    else if a.sched = 2 then
      if c.nx > 1 then
        (List.range c.ny).foldl (fun r i =>
          let blk := (c.cx + c.nx - 1) % c.nx * c.ny + i
          let x := r.carried blk
          x.1.send c.nextX 0 0 blk x.2) r
      else
        (List.range c.ny).foldl (fun r i =>
          let x := r.carried i
          x.1.partSum i x.2) r
    else if n > 1 then
      let x := r.carried ((c.rank + n - 1) % n)
      x.1.send (ringRank n c.rank 1) 0 0 ((c.rank + n - 1) % n) x.2
    else
      let x := r.source 0
      x.1.put 0 x.2

/-- Blocks that a member receives in all. -/
def Coll.receives (c : Coll) : Nat :=
  let n := c.n
  let a := c.args
  match a.op with
  | 1 => n - 1
  | 4 => n - 1
  | 5 => ([c.neighbours.1, c.neighbours.2].filter (fun q => q.any (· != c.rank))).length
  | 3 => if c.rank = a.root then 0 else 1
  | _ =>
    if a.sched = 1 then
      (treeLevels n c.rank).length * n + (if c.rank = 0 then 0 else if a.op = 0 then 1 else n)
    else if a.sched = 2 then 2 * ((c.nx - 1) * c.ny) + 2 * (c.ny - 1)
    else if a.op = 0 then n - 1 else 2 * (n - 1)

/-! ### Ends -/

/-- Everything of a task leaves its interface; frames that come for its collectives are discarded (R269). -/
def Dev.netDrop (d : Dev) (core ctx : Nat) : Dev :=
  d.modNi (core / 4) (fun x =>
    let mine := fun (c : Coll) => c.core == core && c.ctx == ctx
    let ids := ((x.colls ++ x.waiting).filter mine).map (fun c => c.args.collId)
    { x with txq := x.txq.filter (fun t => !sameTask core ctx t), unacked := x.unacked.filter (fun t => !sameTask core ctx t),
             colls := x.colls.filter (fun c => !mine c), waiting := x.waiting.filter (fun c => !mine c),
             ended := ids.foldl lineAdd x.ended,
             ingress := x.ingress.filter (fun f => !(f.coll && ids.contains f.collId)) })

/-- A task's command ends with a status and an event record. -/
def Dev.endCommand (d : Dev) (core ctx status : Nat) (ev : W64) : Dev :=
  d.modCtx core ctx (fun t =>
    { t with opDone := true, status := if t.status = 0 then status else t.status, event := if t.event = 0 then ev else t.event })

def Dev.collEnd (d : Dev) (core ctx status : Nat) (ev : W64) : Dev := (d.netDrop core ctx).endCommand core ctx status ev

/-- A collective with nothing more to receive and every frame acknowledged is complete (R389). -/
def Dev.collCheck (d : Dev) (core ctx : Nat) : Dev :=
  let h := core / 4
  let x := d.ni h
  if (x.txq ++ x.unacked).any (sameTask core ctx) ∨ x.waiting.any (fun c => c.core == core && c.ctx == ctx) then d
  else
    match x.colls.find? (fun c => c.core == core && c.ctx == ctx) with
    | none => d.opFinished core ctx
    | some c =>
      if c.need ≠ 0 ∨ c.stuck then d
      else
        ((d.modNi h (fun x => { x with colls := x.colls.filter (fun c => !(c.core == core && c.ctx == ctx)) })).count (pgNi h) 0x27 1).opFinished
          core ctx

/-! ### The beginning (R379, R382 to R384) -/

/-- A collective issued and not begun. -/
def Coll.open (core ctx : Nat) (a : CollArgs) (stuck : Bool) : Coll :=
  { core := core, ctx := ctx, args := a, members := [], rank := 0, nx := 1, sx := 1, ny := 1, sy := 1, base := 0, maps := [],
    part := [], inbox := [], need := 0, bad := none, stuck := stuck }

/-- Why a collective takes no part (R382, R383): a status with its record, a translation that gives no address, or an access
that never completes. -/
inductive CollEnd where
  | status (st : Nat) (ev : W64)
  | xlat (va : Nat) (e : XlatStop)
  | stuck

/-- Bytes that an interface reads of a half's DRAM: UNCORRECTABLE where they fail their code (R413). -/
def Dev.niRead (d : Dev) (h pa n : Nat) : Dev × Except CollEnd (List Byte) :=
  let r := d.niBytes h pa n
  (r.1, match r.2 with
    | none => .error .stuck
    | some (_, some ev) => .error (.status 0x04 ev)
    | some (bs, none) => .ok bs)

/-- Device IDs of the mesh's members at the given positions. -/
def Dev.niMembers (d : Dev) (h base : Nat) : List Nat → Dev × Except CollEnd (List Nat)
  | [] => (d, .ok [])
  | p :: rest =>
    let r := d.niRead h (base + 2 * p) 2
    match r.2 with
    | .error e => (r.1, .error e)
    | .ok bs =>
      let t := r.1.niMembers h base rest
      (t.1, match t.2 with | .error e => .error e | .ok l => .ok (leNat bs % 2 ^ 14 :: l))

/-- The mesh positions of a group's devices by rank, this member's rank, and the size and rank stride of two axes (R366, R379). -/
def collGroup (m : Mesh) (a : CollArgs) : List Nat × Nat × List (Nat × Nat) :=
  let axes := axesOf a.axes
  let size := fun (i : Nat) => m.sizes.getD i 1
  let stride := fun (i : Nat) => (axes.filter (fun j => j > i)).foldl (fun s j => s * size j) 1
  let coord := fun (k i : Nat) => if axes.contains i then k / stride i % size i else m.coords.getD i 0
  let pos := fun (k : Nat) => (List.range 4).foldl (fun p i => if m.sizes.getD i 0 = 0 then p else p * size i + coord k i) 0
  let rank := axes.foldl (fun r i => r * size i + m.coords.getD i 0) 0
  let axis := fun (i : Nat) => if axes.contains i then (size i, stride i) else (1, 1)
  ((List.range (groupSize m a.axes)).map pos, rank, [axis a.axisX, axis a.axisY])

/-- Blocks of the source and of the destination (R380). -/
def bufferBlocks (op n : Nat) (root : Bool) : Nat × Nat :=
  match op with
  | 0 => (n, 1)
  | 1 => (1, n)
  | 2 => (n, n)
  | 3 => (if root then 1 else 0, 1)
  | 4 => (n, n)
  | _ => (2, 2)

/-- Pages of a buffer translated and added to those held; the answer names the page that fails with its cause, or cause 0
for a page outside DRAM and the carve-outs. -/
def Dev.holdPages (d : Dev) (h va n : Nat) (write : Bool) (maps : List (Nat × Nat)) : Dev × Except (Nat × XlatStop) (List (Nat × Nat)) :=
  (pageChunks va n).foldl (fun (acc : Dev × Except (Nat × XlatStop) (List (Nat × Nat))) ch =>
    match acc.2 with
    | .error e => (acc.1, .error e)
    | .ok l =>
      let r := acc.1.translate (8 + h) ch.1 write false
      match r.2 with
      | .error c => (r.1, .error (ch.1, c))
      | .ok pa =>
        if inDramOrCarve (r.1.space pa) then (r.1, .ok (KV.set l (ch.1 / 65536) (pa / 65536))) else (r.1, .error (ch.1, .cause 0))) (d, .ok maps)

/-- A translation fault of the interface (R382). -/
def Dev.niFault (d : Dev) (h va cause : Nat) : Dev :=
  let page := pgNi h
  let d := d.setIsr page 9
  if d.regb page 0x830 0 then d
  else (d.setReg page 0x828 (BitVec.ofNat 64 va)).setReg page 0x830 (BitVec.ofNat 64 (1 + cause * 4))

/-- GRAD of the named slice, with the checks of R383: how the collective ends where one fails. -/
def Dev.collGrad (d : Dev) (h : Nat) (a : CollArgs) : Dev × Except CollEnd Nat :=
  if a.slice ≥ d.regf (pgUpd a.updHalf) 0x108 16 0 then (d, .error (.status 0x01 0))
  else
    let va := d.sliceAddr a.updHalf a.slice
    let t := d.translate (8 + h) va false false
    match t.2 with
    | .error e => (t.1, .error (.xlat va e))
    | .ok pa =>
      let r := t.1.niRead h pa 128
      match r.2 with
      | .error e => (r.1, .error e)
      | .ok bs =>
        let s := sliceOf ((List.range 16).map (fun i => BitVec.ofNat 64 (leNat ((bs.drop (8 * i)).take 8))))
        if a.count ≠ s.rows * s.cols ∨ a.fmt ≠ s.gfmt then (r.1, .error (.status 0x01 0)) else (r.1, .ok s.grad)

/-- A received block of the collective counted. -/
def CRun.counted (r : CRun) : CRun := { r with coll := { r.coll with need := r.coll.need - 1 } }

/-- The collective written back to its interface; poison and arrivals at an update engine take effect. -/
def CRun.store (r : CRun) : Dev :=
  let c := r.coll
  let d := r.dev.modNi c.half (fun x =>
    { x with colls := x.colls.map (fun y => if y.core = c.core ∧ y.ctx = c.ctx then c else y) })
  match c.bad with
  | some ev => d.collEnd c.core c.ctx 0x04 ev
  | none =>
    let d := if r.landed then
        d.arrive c.args.updHalf { slice := c.args.slice, step := d.regf (pgUpd c.args.updHalf) 0x128 47 0, who := none }
      else d
    d.collCheck c.core c.ctx

/-- A collective that takes no part ends its command (R382, R383), or where an access never completes stays open. -/
def Dev.collRefuse (d : Dev) (core ctx : Nat) (a : CollArgs) (e : CollEnd) : Dev :=
  let h := core / 4
  match e with
  | .status st ev => d.collEnd core ctx st ev
  | .xlat va (.cause c) => (d.niFault h va c).collEnd core ctx 0x02 0
  | .xlat _ (.poison ev) => d.collEnd core ctx 0x04 ev
  | _ => d.modNi h (fun x => { x with colls := x.colls ++ [Coll.open core ctx a true] })

/-- A collective begins: its group, its translations and its first blocks. -/
def Dev.collBegin (d : Dev) (core ctx : Nat) (a : CollArgs) : Dev :=
  let h := core / 4
  match d.meshOf a.mesh with
  | none => d.collEnd core ctx 0x01 0
  | some m =>
    let g := collGroup m a
    let n := g.1.length
    let x := g.2.2.getD 0 (1, 1)
    let y := g.2.2.getD 1 (1, 1)
    let ids := d.niMembers h m.members g.1
    let gr : Dev × Except CollEnd (List Nat × Nat) :=
      match ids.2 with
      | .error e => (ids.1, .error e)
      | .ok l =>
        if a.updEn then
          let t := ids.1.collGrad h a
          (t.1, match t.2 with | .error e => .error e | .ok v => .ok (l, v))
        else (ids.1, .ok (l, a.dst))
    match gr.2 with
    | .error e => gr.1.collRefuse core ctx a e
    | .ok (members, base) =>
      let bytes := a.count * (Fmt.codeWidth a.fmt / 8)
      let bb := bufferBlocks a.op n (decide (g.2.1 = a.root))
      let s := gr.1.holdPages h a.src (bb.1 * bytes) false []
      let t : Dev × Except (Nat × XlatStop) (List (Nat × Nat)) := match s.2 with
        | .error e => (s.1, .error e)
        | .ok l => s.1.holdPages h base (bb.2 * bytes) true l
      match t.2 with
      | .error (va, e) => if e = .cause 0 then t.1.collEnd core ctx 0x01 0 else t.1.collRefuse core ctx a (.xlat va e)
      | .ok maps =>
        let c : Coll :=
          { core := core, ctx := ctx, args := a, members := members, rank := g.2.1, nx := x.1, sx := x.2, ny := y.1, sy := y.2,
            base := base, maps := maps, part := [], inbox := [], need := 0, bad := none, stuck := false }
        let c := { c with need := c.receives }
        let d := t.1.modNi h (fun x => { x with colls := x.colls ++ [c], ended := x.ended.filter (· != a.collId) })
        (CRun.begin { dev := d, coll := c, landed := false }).store

/-- Waiting collectives begin while fewer than 64 run (R384). -/
def startColls : Nat → Dev → Nat → Dev
  | 0, d, _ => d
  | k + 1, d, h =>
    match (d.ni h).waiting with
    | [] => d
    | c :: rest =>
      if (d.ni h).colls.length ≥ 64 then d
      else startColls k ((d.modNi h (fun x => { x with waiting := rest })).collBegin c.core c.ctx c.args) h

def Dev.startColls (d : Dev) (h : Nat) : Dev := Machine.startColls (d.ni h).waiting.length d h

/-- A COLL is issued to the interface of its core's half. -/
def Dev.issueColl (d : Dev) (core ctx : Nat) (a : CollArgs) : Dev :=
  let c := Coll.open core ctx a false
  (d.modNi (core / 4) (fun x => { x with waiting := x.waiting ++ [c] })).startColls (core / 4)

/-! ### Received blocks -/

/-- The bytes that a block has as it travels in a phase. -/
def Coll.travelBytes (c : Coll) (phase : Nat) : Nat :=
  let isPart := (c.args.op = 0 ∨ c.args.op = 2) ∧ (phase = 0 ∨ (phase = 1 ∧ c.args.sched = 2))
  if isPart then c.args.count * c.partWidth else c.blockBytes

/-- A received block gives elements of this member's slice at an update engine (R374). -/
def Coll.feedsSlice (c : Coll) (cstep : Nat) : Bool :=
  c.args.updEn && (if c.args.sched = 1 then cstep / 2 ^ 14 == 1 || c.rank == 0 else cstep % 2 ^ 14 + 2 ≥ c.n)

def fillBytes (buf : List (Option Byte)) (off : Nat) (bs : List Byte) : List (Option Byte) :=
  ((List.range bs.length).zip bs).foldl (fun b ib => b.set (off + ib.1) (some ib.2)) buf

/-- A frame's bytes put into its collective's block. -/
def Coll.receive (c : Coll) (f : Frame) : Coll :=
  let blk := f.addr.field 57 44
  let key := f.cstep * 2 ^ 14 + blk
  let buf := KV.get (List.replicate (c.travelBytes (f.cstep / 2 ^ 14)) none) c.inbox key
  { c with inbox := KV.set c.inbox key (fillBytes buf (f.addr.field 43 0) f.payload) }

/-- Complete blocks take effect while one can. -/
def pump : Nat → CRun → CRun
  | 0, r => r
  | k + 1, r =>
    let next := r.coll.inbox.findSome? (fun e =>
      if e.2.all Option.isSome then
        let cs := e.1 / 2 ^ 14
        let r' : CRun := { r with coll := { r.coll with inbox := KV.erase r.coll.inbox e.1 } }
        r'.take (cs / 2 ^ 14) (cs % 2 ^ 14) (e.1 % 2 ^ 14) (e.2.map (fun b => b.getD 0))
      else none)
    match next with
    | none => r
    | some r' => pump k r'.counted

/-- A frame performed for a collective of an interface. -/
def Dev.collFrame (d : Dev) (c : Coll) (f : Frame) : Dev :=
  let c := c.receive f
  ((pump c.inbox.length { dev := d, coll := c, landed := false }).store).startColls c.half

/-- The collective that a frame belongs to, at either interface. -/
def Dev.collFor (d : Dev) (f : Frame) : Option Coll :=
  (List.range 2).findSome? (fun h => (d.ni h).colls.find? (fun c => c.args.collId == f.collId && c.members.contains f.src))

end Sys2Proof.Machine
end

