-- ==== Sys2Proof/Machine/Net.lean ====
section
/-! DEFINITION. Delivery: what the network interfaces do with received frames, their timers, and the sending of DATA frames
(R359, R360, R365, R367 to R377, R384, R459). -/

namespace Sys2Proof.Machine

/-! ### Sending -/

/-- Pacing toward a destination begins with the first frame sent to it (R376). -/
def Dev.startPace (d : Dev) (dst : Nat) : Dev := if (d.peer dst).pace.isNone then d.setPace dst (d.paceOf dst) else d

/-- The first queued frame of a flow leaves with the next PSN, when the flow has credit and a port takes it. -/
def dataSend (d : Dev) (h dst chan : Nat) : Dev :=
  let mine := fun (t : TxFrame) => t.frame.dst == dst && t.frame.chan == chan && !t.dead
  match (d.ni h).txq.find? mine with
  | none => d
  | some t =>
    let credit := d.flowCredit h dst chan
    if !d.niLive h ∨ !d.devIdValid ∨ (d.peer dst).absent ∨ credit = 0 then d
    else
      let f := { t.frame with psn := (d.peer dst).txPsn, src := d.devId }
      let r := d.sendTo h (pickOf f t.lane) f
      if !r.2 then r.1
      else
        let d := r.1.modNi h (fun x => { x with txq := x.txq.erase t, unacked := x.unacked ++ [{ t with frame := f, count := 1 }] })
        let d := (d.modPeer dst (fun p => { p with txPsn := (p.txPsn + 1) % 2 ^ 32 })).setCredit dst chan (credit - 1)
        let d := d.startPace dst
        if f.first && d.mayRecord (d.taskSecure t.core t.ctx) then d.traceAft h 0x10 f dst t.frames else d

/-- An unacknowledged frame is sent again, or its peer is absent after 8 transmissions (R371, R373). Any port of the route may take
it, and a free value says which; with none UP, or without an ID, it waits (R362, R364). -/
def retransmit (d : Dev) (h dst psn : Nat) : Dev :=
  match (d.ni h).unacked.find? (fun t => t.frame.dst == dst && t.frame.psn == psn && !t.dead) with
  | none => d
  | some t =>
    if !d.niLive h then d
    else if t.count ≥ 8 then d.makeAbsent h dst
    else if !d.devIdValid then d
    else
      let q := d.takeFree
      let r := q.1.sendTo h q.2.toNat t.frame
      if !r.2 then r.1
      else
        (r.1.modNi h (fun x => { x with unacked := x.unacked.map (fun u => if u = t then { u with count := u.count + 1 } else u) })).count
          (pgNi h) 0x20 1

/-- Nothing has come from a peer with an open operation for 4 ms. -/
def peerSilence (d : Dev) (h dev : Nat) : Dev := if d.niLive h && d.openWith h dev && !(d.peer dev).absent then d.makeAbsent h dev else d

/-- The device has sent a peer with an open operation nothing else for 1 ms. -/
def keepalive (d : Dev) (h dev : Nat) : Dev :=
  if d.niLive h && d.devIdValid && d.openWith h dev && !(d.peer dev).absent then d.sendCtl h (d.blankFrame 5 dev) else d

/-! ### Acknowledgement (R368, R369, R374, R375) -/

/-- The bitmap of accepted PSNs that follow the cumulative one: bit i is the PSN after next by i. -/
def ackBitmap (p : Peer) : Nat :=
  p.rxSet.foldl (fun b q =>
    let i := (q + 2 ^ 32 - p.rxNext) % 2 ^ 32
    if i < 64 then Nat.lor b (2 ^ i) else b) 0

/-- Credit due on a channel goes back in a CREDIT frame. -/
def Dev.sendCredit (d : Dev) (h src : Nat) (cu : Nat × Nat) : Dev :=
  d.sendCtl h { d.blankFrame 3 src with chan := cu.1, aux := cu.2 }

/-- An ACK with the marks since the last one; it returns the credit of one channel, and CREDIT frames that of the others. -/
def Dev.sendAck (d : Dev) (h src : Nat) : Dev :=
  let p := d.peer src
  let first := p.due.head?.getD (0, 0)
  let d := d.sendCtl h { d.blankFrame 1 src with
    chan := first.1, psn := (p.rxNext + 2 ^ 32 - 1) % 2 ^ 32, aux := first.2,
    payload := beBytes 8 (ackBitmap p) ++ beBytes 2 (min p.marks 0xFFFF) }
  (p.due.drop 1).foldl (fun d cu => d.sendCredit h src cu) (d.modPeer src (fun p => { p with toAck := 0, marks := 0, due := [] }))

def Dev.sendNak (d : Dev) (h : Nat) (f : Frame) (reason : Nat) : Dev :=
  d.sendCtl h { d.blankFrame 2 f.src with chan := f.chan, psn := f.psn, aux := reason }

/-- 2 µs after the first unacknowledged frame. -/
def ackTimer (d : Dev) (h src : Nat) : Dev := if d.niLive h && d.devIdValid && (d.peer src).toAck != 0 then d.sendAck h src else d

/-- A PSN accepted; the lowest one not accepted moves up. -/
def advanceRx : Nat → Nat → List Nat → Nat × List Nat
  | 0, nxt, l => (nxt, l)
  | k + 1, nxt, l => if l.contains nxt then advanceRx k ((nxt + 1) % 2 ^ 32) (l.filter (· != nxt)) else (nxt, l)

def Peer.accept (p : Peer) (psn : Nat) (ce : Bool) : Peer :=
  let l := lineAdd p.rxSet psn
  let r := advanceRx l.length p.rxNext l
  { p with rxNext := r.1, rxSet := r.2, toAck := p.toAck + 1, marks := if ce then p.marks + 1 else p.marks }

def Dev.creditDue (d : Dev) (f : Frame) : Dev :=
  d.modPeer f.src (fun p => { p with due := KV.set p.due f.chan (KV.get 0 p.due f.chan + 1) })

/-! ### Performing a DATA frame (R367, R370, R374, R377, R384) -/

inductive Perform where
  | done
  | hold
  | fault
  | retry
  deriving DecidableEq, Repr

/-- Where a remote write may land: DRAM, a carve-out window or host memory (R29, R196). -/
def farPlace : Space → Bool
  | .dram _ _ => true
  | .carve _ _ => true
  | .unbacked => true
  | .host => true
  | _ => false

/-- A remote write translates as a non-secure access and is performed at the far store. -/
def Dev.remoteWrite (d : Dev) (h : Nat) (f : Frame) : Dev × Perform :=
  let pages := pageChunks (f.addr.field 47 0) f.payload.length
  let r := pages.foldl (fun (acc : Dev × Except Perform (List (Nat × Nat))) ch =>
    match acc.2 with
    | .error e => (acc.1, .error e)
    | .ok l =>
      let t := acc.1.translate (8 + h) ch.1 true false
      match t.2 with
      | .error .stall => (t.1, .error .retry)
      | .error _ => (t.1, .error .fault)
      | .ok pa =>
        if t.1.rangeOk pa ch.2 farPlace then (t.1, .ok (l ++ [(pa, ch.2)])) else (t.1, .error .fault)) (d, .ok [])
  match r.2 with
  | .error p => (r.1, p)
  | .ok l =>
    if l.all (fun p => r.1.reachesFrom h p.1) then
      ((l.foldl (fun (acc : Dev × List Byte) p => (acc.1.storeBy false p.1 (acc.2.take p.2) false, acc.2.drop p.2)) (r.1, f.payload)).1, .done)
    else (r.1, .retry)

/-- Frames in the ingress buffers of both halves. -/
def Dev.heldFrames (d : Dev) : List Frame := (d.ni 0).ingress ++ (d.ni 1).ingress

/-- An ordered frame is behind a PSN that is still missing, or behind a held frame of its flow at either half (R367). -/
def Dev.outOfTurn (d : Dev) (f : Frame) : Bool :=
  let ahead := fun (q : Nat) => (q + 2 ^ 32 - (d.peer f.src).rxNext) % 2 ^ 32
  let behind := fun (g : Frame) => (f.psn + 2 ^ 32 - g.psn) % 2 ^ 32
  f.ord && ((ahead f.psn != 0 && ahead f.psn < 2 ^ 31)
    || d.heldFrames.any (fun g => g.src == f.src && g.chan == f.chan && behind g != 0 && behind g < 2 ^ 31))

def Dev.perform (d : Dev) (h : Nat) (f : Frame) : Dev × Perform :=
  if d.outOfTurn f then (d, .hold)
  else if !f.coll then d.remoteWrite h f
  else
    match d.collFor f with
    | none => (d, .hold)
    | some c =>
      if c.feedsSlice f.cstep && !d.arrivalRoom c.args.updHalf then (d, .hold) else (d.collFrame c f, .done)

/-- A held frame that can be performed now leaves the ingress buffer, and its credit goes back. -/
def Dev.drainOne (d : Dev) (h : Nat) : Dev :=
  let held := (d.ni h).ingress
  let next := held.findSome? (fun f =>
    let r := d.perform h f
    match r.2 with
    | .hold => none
    | .retry => none
    | _ => some (r.1, f))
  match next with
  | none => d
  | some (d', f) => ((d'.modNi h (fun x => { x with ingress := x.ingress.erase f })).sendCredit h f.src (f.chan, 1))

def Dev.drainIngress (d : Dev) : Dev :=
  (List.range d.heldFrames.length).foldl (fun d _ =>
    (List.range 2).foldl (fun d h => if d.niLive h then d.drainOne h else d) d) d

def ingressBytes (l : List Frame) : Nat := (l.map (fun f => f.payload.length)).sum

/-- What acceptance of a frame leaves: its PSN, the trace of its message, and an ACK when 16 are due. -/
def Dev.acceptFrame (d : Dev) (h : Nat) (f : Frame) : Dev :=
  let ce := f.ecn == 3
  let d := (d.modPeer f.src (fun p => p.accept f.psn ce)).count (pgNi h) 0x25 (if ce then 1 else 0)
  let d := if f.first then
      let r := d.takeFree
      let frames := if f.last then 1 else r.2.field 15 0
      r.1.traceAft h 0x11 f f.src frames
    else d
  if (d.peer f.src).toAck ≥ 16 then d.sendAck h f.src else d

/-- A DATA frame addressed to this device (R368 to R370). -/
def dataIn (d : Dev) (h : Nat) (f : Frame) : Dev :=
  let p := d.peer f.src
  let ahead := (f.psn + 2 ^ 32 - p.rxNext) % 2 ^ 32
  if f.coll && ((d.ni 0).ended ++ (d.ni 1).ended).contains f.collId && (d.collFor f).isNone then d
  else if ahead ≥ 2 ^ 31 ∨ p.rxSet.contains f.psn then (d.count (pgNi h) 0x21 1).sendAck h f.src
  else if ahead ≥ 4096 then d
  else
    let r := d.perform h f
    match r.2 with
    | .done => ((r.1.acceptFrame h f).creditDue f).drainIngress
    | .fault => r.1.sendNak h f 2
    | .retry => r.1
    | .hold =>
      if ingressBytes (d.ni h).ingress + f.payload.length > 8388608 then
        ((d.count (pgNi h) 0x22 1).setIsr (pgNi h) 10).sendNak h f 1
      else ((d.modNi h (fun x => { x with ingress := x.ingress ++ [f] })).acceptFrame h f).drainIngress

/-! ### ACK, NAK, CREDIT -/

/-- The PSN is acknowledged by a cumulative PSN and its bitmap. -/
def ackedBy (cum map psn : Nat) : Bool :=
  let back := (cum + 2 ^ 32 - psn) % 2 ^ 32
  let fwd := (psn + 2 ^ 32 - cum) % 2 ^ 32
  back < 2 ^ 31 || (1 ≤ fwd && fwd ≤ 64 && map.testBit (fwd - 1))

def Dev.addCredit (d : Dev) (h dst chan n : Nat) : Dev :=
  if n = 0 then d else d.setCredit dst chan (d.flowCredit h dst chan + n)

/-- Frames acknowledged at one interface leave it, and what they complete is complete. -/
def Dev.ackAt (d : Dev) (src cum map : Nat) (h : Nat) : Dev :=
  let hit := fun (t : TxFrame) => t.frame.dst == src && !t.dead && ackedBy cum map t.frame.psn
  let gone := (d.ni h).unacked.filter hit
  gone.foldl (fun d t => d.collCheck t.core t.ctx)
    (d.modNi h (fun x => { x with unacked := x.unacked.filter (fun t => !hit t) }))

/-- The frames that an ACK acknowledges for the first time, at both interfaces. -/
def Dev.newlyAcked (d : Dev) (src cum map : Nat) : Nat :=
  (((d.ni 0).unacked ++ (d.ni 1).unacked).filter (fun t => t.frame.dst == src && !t.dead && ackedBy cum map t.frame.psn)).length

/-- An ACK (R369, R374 to R376): credit, the marks and the frames acknowledged in the window, and what is complete. -/
def ackIn (d : Dev) (h : Nat) (f : Frame) : Dev :=
  let map := beNat (f.payload.take 8)
  let marks := beNat ((f.payload.drop 8).take 2)
  let d := (d.addCredit h f.src f.chan f.aux).count (pgNi h) 0x26 marks
  let pc := d.paceOf f.src
  let d := d.setPace f.src { pc with acked := pc.acked + d.newlyAcked f.src f.psn map, marks := pc.marks + marks }
  let d := (List.range 2).foldl (fun d h => (d.ackAt f.src f.psn map h).startColls h) d
  d.drainIngress

def nakIn (d : Dev) (f : Frame) : Dev :=
  let hit := fun (t : TxFrame) => t.frame.dst == f.src && t.frame.psn == f.psn && !t.dead
  (List.range 2).foldl (fun d h =>
    match (d.ni h).unacked.find? hit with
    | none => d
    | some t =>
      if f.aux = 1 then
        d.modNi h (fun x => { x with unacked := x.unacked.map (fun u => if hit u then { u with count := 0 } else u) })
      else if f.aux = 2 ∧ !t.frame.coll then d.collEnd t.core t.ctx 0x02 0
      else d) d

def creditIn (d : Dev) (h : Nat) (f : Frame) : Dev := d.addCredit h f.src f.chan f.aux

/-! ### Relay (R365) -/

/-- A relayed frame leaves with its HOPS, LSEQ and ECN rewritten, and with a bad FCS where its own failed. -/
def relay (d : Dev) (n : Nat) (p : Packet) (f : Frame) : Dev :=
  let drop := d.count (pgFab n) 0x07 1
  if !d.niLive (n / 8) then d
  else if p.enc.udp ∨ !d.regb pgSys 0x608 0 ∨ f.hops = 0 then drop
  else
    let r := d.route (n / 8) f.dst
    let ps := (r.1.routePorts (n / 8) r.2).filter (· != n)
    match ps[Config.flowHash f.src f.dst f.chan % ps.length]? with
    | none => r.1.count (pgFab n) 0x07 1
    | some m =>
      -- whether the egress queue is over SYS_FAB_CTRL.ECN_KB is not in the state
      let q := r.1.takeFree
      let ecn := if (f.ecn = 1 ∨ f.ecn = 2) ∧ q.2.bit 0 then 3 else f.ecn
      (q.1.count (pgFab n) 0x06 1).sendOn m (q.1.encap m r.2 { f with ecn := ecn }) (putEcn (putHops p.aft (f.hops - 1)) ecn) p.fcsOk

/-! ### Reception on a port (R360, R362, R372) -/

/-- The receiver starts to wait for a replay and reports the LSEQ that it expects. -/
def Dev.askReplay (d : Dev) (n : Nat) : Dev :=
  (d.modPort n (fun p => { p with awaiting := true, skipped := 0 })).sendLlr n 8 (d.port n).rxLseq

/-- A frame of the given length takes its LSEQ on the link: the next one goes on, an earlier one is a duplicate, and at a gap a
replay is asked for and later frames are discarded until it comes. DESIGN CHOICE (log 97): when more bytes than a replay buffer
holds have been discarded, the gap can no longer be replayed, and the next frame goes on; and a free value says when the receiver
sends LLR_ACK, which no rule states. -/
def llrIn (d : Dev) (n lseq bytes : Nat) : Dev × Bool :=
  let p := d.port n
  if lseq = p.rxLseq ∨ (p.awaiting ∧ p.skipped > 524288 ∧ (p.rxLseq + 65536 - lseq) % 65536 ≥ 32768) then
    let d := d.modPort n (fun p => { p with rxLseq := (lseq + 1) % 65536, awaiting := false, skipped := 0 })
    let q := d.takeFree
    (if q.2.bit 0 then q.1.sendLlr n 7 (d.port n).rxLseq else q.1, true)
  else if (p.rxLseq + 65536 - lseq) % 65536 < 32768 then (d, false)
  else if p.awaiting then (d.modPort n (fun p => { p with skipped := p.skipped + bytes }), false)
  else (d.askReplay n, false)

/-- A frame on its link: without link-level retry each goes on; with it, in its turn, and one that fails its FCS makes the receiver
ask for a replay, though relay of one in turn has begun by then (R365). -/
def Dev.linkTurn (d : Dev) (n : Nat) (p : Packet) (f : Frame) : Dev × Bool :=
  if !d.llrOn n then (d, true)
  else if p.fcsOk then llrIn d n f.lseq p.aft.length
  else (d.askReplay n, !(d.port n).awaiting && f.lseq == (d.port n).rxLseq)

/-- A frame that R360 discards and counts. One that fails its FCS and is for another device has its ICRC not checked, since its
relay has begun. -/
def Dev.badFrame (d : Dev) (p : Packet) (f : Frame) : Bool :=
  f.foreign || !p.sumOk || (!p.icrcOk f && (p.fcsOk || f.dst == d.devId || f.type == 6))

/-- A frame arrives at a port: counted, checked, and taken in its turn on the link. The frame that goes on is answered; bytes that
hold no whole frame have no good ICRC. -/
def receive (d : Dev) (n : Nat) (p : Packet) : Dev × Option Frame :=
  if !d.portUp n then (d, none)
  else
    let d := (d.count (pgFab n) 0x02 1).count (pgFab n) 0x03 p.fec
    match p.frame? with
    | none => ((if d.llrOn n && !p.fcsOk then d.askReplay n else d).count (pgFab n) 0x09 1, none)
    | some f =>
      let d := d.count (pgFab n) 0x0A (if p.ecn f = 3 then 1 else 0)
      let t := if f.isLlr then (d, p.fcsOk) else d.linkTurn n p f
      if !t.2 then (t.1, none)
      else if t.1.badFrame p f then (t.1.count (pgFab n) 0x09 1, none)
      else (t.1, some f)

/-- A frame of a transport type for this device's interface: other devices' frames are relayed, and a device without an ID
takes none; frames from an absent peer are discarded. -/
def aftIn (d : Dev) (n type : Nat) (p : Packet) (act : Dev → Frame → Dev) : Dev :=
  match p.frame? with
  | none => (receive d n p).1
  | some g =>
    if g.type ≠ type then d
    else
      let r := receive d n p
      match r.2 with
      | none => r.1
      | some f =>
        if !r.1.devIdValid then r.1
        else if f.dst ≠ r.1.devId then relay r.1 n p f
        else if !p.fcsOk ∨ (r.1.peer f.src).absent ∨ !r.1.niLive (n / 8) then r.1
        else act r.1 { f with ecn := p.ecn f }

/-- An MGMT frame: HELLO tells the partner's mode, LLR_EN and identity (R459). -/
def mgmtIn (d : Dev) (n : Nat) (f : Frame) : Dev :=
  let b := fun (i k : Nat) => leNat ((f.payload.drop i).take k)
  if f.payload.length < 16 ∨ b 0 1 ≠ 0 then d
  else
    let id := b 4 2
    let d := d.modPort n (fun p => { p with
      peerMode := some (b 1 1), peerLlr := b 2 1 % 2 == 1, peerDev := if id = 0xFFFF then none else some id })
    if b 1 1 = d.regf (pgFab n) 0x100 1 0 ∧ b 2 1 % 2 = 1 ∧ d.regb (pgFab n) 0x100 4 ∧ !d.llrOn n then
      (d.modPort n (fun p => { p with txLseq := 0, rxLseq := 0, replay := [], awaiting := false, skipped := 0 })).setb (pgFab n) 0x108 9 true
    else d

/-- A frame that stays on its link, of a type, received with a good FCS. -/
def linkIn (d : Dev) (n type : Nat) (p : Packet) (act : Dev → Frame → Dev) : Dev :=
  match p.frame? with
  | none => (receive d n p).1
  | some g =>
    if g.type ≠ type then d
    else
      let r := receive d n p
      match r.2 with
      | none => r.1
      | some f => if p.fcsOk then act r.1 f else r.1

/-- LLR_NAK: the link replays from the expected LSEQ in order, if the buffer still holds it. -/
def llrNak (d : Dev) (n : Nat) (f : Frame) : Dev :=
  let rest := (d.port n).replay.dropWhile (fun g => g.1 != f.lseq)
  if !d.llrOn n ∨ rest.isEmpty then d
  else rest.foldl (fun d g => (d.count (pgFab n) 0x01 1).emit (.frame n g.2))
    ((d.modPort n (fun p => { p with replay := rest })).count (pgFab n) 0x05 1)

/-- LLR_ACK: frames before the LSEQ leave the replay buffer. -/
def llrAck (d : Dev) (n : Nat) (f : Frame) : Dev :=
  d.modPort n (fun p => { p with replay := p.replay.filter (fun g => (g.1 + 65536 - f.lseq) % 65536 < 32768) })

/-- A frame addressed to another device (R365). -/
def frameRelay (d : Dev) (n : Nat) (p : Packet) : Dev :=
  let r := receive d n p
  match r.2 with
  | none => r.1
  | some f => if f.type != 6 && !f.isLlr && r.1.devIdValid && f.dst != r.1.devId then relay r.1 n p f else r.1

/-- A frame lost on a link: with link-level retry the receiver reports the LSEQ it expects (R372). -/
def linkLoss (d : Dev) (n : Nat) (loss : LinkLoss) : Dev :=
  if !d.portUp n then d
  else
    let d := d.count (pgFab n) 0x04 (if loss = .fec then 1 else 0)
    if d.llrOn n then d.askReplay n else d

def pauseIn (d : Dev) (n : Nat) : Dev := if d.portUp n then d.count (pgFab n) 0x08 1 else d

/-! ### Remote XFER (R377) -/

/-- Runs of consecutive bytes of a command's writes. -/
def writeRuns (l : List (Nat × Byte)) : List (Nat × List Byte) :=
  (l.foldl (fun (acc : List (Nat × List Byte)) (x : Nat × Byte) =>
    match acc with
    | (a, bs) :: rest => if a + bs.length = x.1 then (a, bs ++ [x.2]) :: rest else (x.1, [x.2]) :: acc
    | [] => [(x.1, [x.2])]) []).reverse

def lineBytes (l : WLine) : List (Nat × Byte) :=
  ((List.range 64).zip l.data).filterMap (fun x => x.2.map (fun b => (l.va * 64 + x.1, b)))

/-- The writes of a command become messages to a peer, one for each run of consecutive bytes. -/
def sendWrites (w : Who) (peer : Nat) : M Unit := do
  let b := (← get).wbuf
  modify (fun r => { r with wbuf := [] })
  let sorted := b.foldl (fun (acc : List (Nat × WLine)) l => KV.set acc l.va l) []
  let runs := writeRuns (sorted.flatMap (fun x => lineBytes x.2))
  modDev (fun d => runs.foldl (fun d r =>
    d.queueMessage { core := w.core, ctx := w.ctx, dst := peer, chan := 0, coll := false, collId := 0, cstep := 0 } r.1 r.2) d)

/-- A remote XFER: its work with the writes sent to the peer; complete when all is acknowledged. -/
def xferRemote (w : Who) (x : XferArgs) : M Bool := do
  let w := { w with remote := true }
  let e1 ← attempt (xferBody w x)
  match e1 with
  | some e => do
    modify (fun r => { r with wbuf := [] })
    x.dst.flush w
    throw e
  | none => do
    sendWrites w x.peer
    x.dst.flush w
    return (← getDev).netQuiet w.core w.ctx

def execDataFrameSend (half dst chan : Nat) (s : State) : Host.Outcome State Fault Refusal := s.lift (fun d => dataSend d half dst chan)
def execAftDataReceive (port : Nat) (p : Packet) (s : State) : Host.Outcome State Fault Refusal :=
  s.lift (fun d => aftIn d port 0 p (fun d f => dataIn d (port / 8) f))
def execAftAckReceive (port : Nat) (p : Packet) (s : State) : Host.Outcome State Fault Refusal :=
  s.lift (fun d => aftIn d port 1 p (fun d f => ackIn d (port / 8) f))
def execAftNakReceive (port : Nat) (p : Packet) (s : State) : Host.Outcome State Fault Refusal :=
  s.lift (fun d => aftIn d port 2 p nakIn)
def execAftCreditReceive (port : Nat) (p : Packet) (s : State) : Host.Outcome State Fault Refusal :=
  s.lift (fun d => aftIn d port 3 p (fun d f => creditIn d (port / 8) f))
def execAftKeepaliveReceive (port : Nat) (p : Packet) (s : State) : Host.Outcome State Fault Refusal :=
  s.lift (fun d => aftIn d port 5 p (fun d _ => d))
def execAftMgmtReceive (port : Nat) (p : Packet) (s : State) : Host.Outcome State Fault Refusal :=
  s.lift (fun d => linkIn d port 6 p (fun d f => mgmtIn d port f))
def execLlrNakReceive (port : Nat) (p : Packet) (s : State) : Host.Outcome State Fault Refusal :=
  s.lift (fun d => linkIn d port 8 p (fun d f => llrNak d port f))
def execLlrAckReceive (port : Nat) (p : Packet) (s : State) : Host.Outcome State Fault Refusal :=
  s.lift (fun d => linkIn d port 7 p (fun d f => llrAck d port f))
def execFrameRelay (port : Nat) (p : Packet) (s : State) : Host.Outcome State Fault Refusal :=
  s.lift (fun d => frameRelay d port p)
def execPauseFrameReceive (port : Nat) (s : State) : Host.Outcome State Fault Refusal := s.lift (fun d => pauseIn d port)
def execAckTimer (half src : Nat) (s : State) : Host.Outcome State Fault Refusal := s.lift (fun d => ackTimer d half src)
def execRetransmitTimeout (half dst psn : Nat) (s : State) : Host.Outcome State Fault Refusal := s.lift (fun d => retransmit d half dst psn)
def execPeerSilenceTimeout (half dev : Nat) (s : State) : Host.Outcome State Fault Refusal := s.lift (fun d => peerSilence d half dev)
def execKeepaliveTimer (half dev : Nat) (s : State) : Host.Outcome State Fault Refusal := s.lift (fun d => keepalive d half dev)
def execFcsError (port : Nat) (loss : LinkLoss) (s : State) : Host.Outcome State Fault Refusal := s.lift (fun d => linkLoss d port loss)

end Sys2Proof.Machine
end

