-- ==== Sys2Proof/Machine/Table.lean ====
section
/-! DEFINITION. The table engine (R335 to R355). -/

namespace Sys2Proof.Machine

/-- Weight planes of a table-mode format (R335). -/
def planesOf (fmt : Nat) : Nat := if fmt = 0x10 then 1 else if fmt = 0x11 then 2 else if fmt = 0x13 then 4 else 0

def TableArgs.planes (a : TableArgs) : Nat := planesOf a.wFmt
def TableArgs.k (a : TableArgs) : Nat := (a.src.dim 0).l
def TableArgs.m (a : TableArgs) : Nat := (a.src.dim 1).l
def TableArgs.n (a : TableArgs) : Nat := (a.dst.dim 0).l
def TableArgs.runs (a : TableArgs) : Nat := (a.k + 127) / 128
/-- Bytes of a run record (R338). -/
def recordBytes (b : Nat) : Nat := 512 + 32768 * b

/-- Bytes of a core's staging area (R347). -/
def Dev.stageBytes (d : Dev) (c : Nat) : Nat := min (d.regf (pgTbl c) 0x100 9 6) 8 * 0x40000

/-- The words of a TABLE's extension in order (R339): reserved bits zero, the planes of the engine's configuration, and formats
that it takes (R52, R335). -/
def tableFields (d : Dev) (core : Nat) (ws : List W64) : Bool :=
  let h := wd ws 0
  h.field 63 22 == 0 && [1, 2, 3, 4, 5].all (fun i => (wd ws i).field 63 48 == 0) && wd ws 6 == 0 && wd ws 7 == 0
    && planesOf (h.field 5 0) != 0 && d.regf (pgTbl core) 0x100 5 0 == h.field 5 0 && (h.field 11 6 == 0x17 || h.field 11 6 == 0x27)
    && (Fmt.ofCode (h.field 17 12)).isSome && h.field 17 12 != 0x08

/-- A TABLE of an extension between two tensors (R339). DESIGN CHOICE (log 26): where the FMT of SRC or DST and the extension's
A_FMT or OUT_FMT differ, the extension's counts; the bits of SRC are read as A_FMT. -/
def tableArgs (ws : List W64) (src dst : Tensor) (resident : Bool) : TableArgs :=
  let h := wd ws 0
  { wFmt := h.field 5 0, aFmt := h.field 11 6, outFmt := h.field 17 12, outRnd := h.field 19 18, ascaleEn := h.bit 20,
    biasEn := h.bit 21, src := { src with fmt := h.field 11 6 }, dst := { dst with fmt := h.field 17 12 }, tab := (wd ws 2).toNat,
    chtab := (wd ws 4).toNat, ascale := (wd ws 5).toNat, spilled := !resident }

/-- Bytes of the run records. -/
def TableArgs.tabBytes (a : TableArgs) : Nat := (a.n + 63) / 64 * a.runs * recordBytes a.planes

/-- The tables lie in the core's table area (R338, R347). -/
def Dev.tabResident (d : Dev) (w : Who) (tab bytes : Nat) : Bool :=
  let stage := d.stageBytes w.core
  d.pagesIn tab bytes (fun s => match s with
    | .near c o => c == w.core && 0x3800000 ≤ o && o < 0x4000000 - stage
    | _ => false)

/-- The operands of a TABLE (R52, R335, R340, R341, R347): their formats as their descriptors give them, their shapes, and where they
lie. -/
def TableArgs.accepted (a : TableArgs) (d : Dev) (w : Who) (srcFmt : Nat) : Bool :=
  let b := a.planes
  (srcFmt == 0x17 || srcFmt == 0x27) && a.src.layout == .linear && a.src.ndim == 2 && a.src.steer.isNone && a.src.scaleKind == 0
    && a.src.inOwnStore d w && a.dst.layout == .linear && a.dst.ndim == 2 && a.dst.steer.isNone && !a.dst.padWrite
    && d.roundingOk w a.outRnd (a.dst.gs.foldl (· * ·) 1) true
    && a.k ≤ 1048576 && a.n ≤ 65536 && (a.dst.dim 1).l == a.m && a.m ≤ 65536 && a.tab % 512 == 0
    && (!a.spilled || (d.pagesIn a.tab a.tabBytes inDramOrCarve && d.stageBytes w.core / recordBytes b ≥ 4))
    && (a.n + 63) / 64 * ((a.m + 31) / 32) * (8 * a.runs * 32 * b * (if a.spilled then 4 else 1) + 4) ≤ 1048576
    && (!a.ascaleEn || a.ascale % 4 == 0) && (a.chtab == 0 || !d.namesKept a.chtab (8 * a.n) true)
    && (!a.ascaleEn || !d.namesKept a.ascale (4 * a.m) true)

/-- Validation of a TABLE (R52, R335, R339 to R341). -/
def parseTable (w : Who) (t : Desc) : M TableArgs := do
  require t.oneWord
  let va ← addrWord t.w1
  require (va % 64 == 0)
  nameRange va 64 true
  let ws ← owords w va 8
  require (tableFields (← getDev) w.core ws)
  let src ← tensor w (wd ws 1).toNat { Role.source with table := true }
  let dst ← tensor w (wd ws 3).toNat { Role.destination with table := true }
  let d ← getDev
  let a := tableArgs ws src dst true
  let a := tableArgs ws src dst (d.tabResident w a.tab a.tabBytes)
  require (a.accepted d w src.fmt)
  return a

/-- The byte of an activation (R340): stored, or synthesised by R173. -/
def activation (w : Who) (a : TableArgs) (k m : Nat) : M Nat := do
  if k ≥ a.k then return 0
  else
    let e ← a.src.read w [((k : Nat) : Int), ((m : Nat) : Int)]
    return (((Fmt.ofCode a.aFmt).getD .e8m0).conv .rne e.val).1

/-- T_b[x] read from the eight stored entries (R336). -/
def tableEntry (entries : List Nat) (x : Nat) : Int :=
  if x < 8 then signedOf 16 (entries.getD x 0) else -signedOf 16 (entries.getD ((15 - x) % 8) 0)

/-- The plane weight ω_b. -/
def planeWeight (b i : Nat) : Int := if b = 1 then 1 else if i + 1 = b then -((2 ^ i : Nat) : Int) else ((2 ^ i : Nat) : Int)

/-- The weight α_j of an activation plane (R343). -/
def planeAlpha (aFmt j : Nat) : Int := if aFmt = 0x17 ∧ j = 7 then -128 else ((2 ^ j : Nat) : Int)

/-- The address of a run record. -/
def TableArgs.record (a : TableArgs) (cb r : Nat) : Nat := a.tab + (cb * a.runs + r) * recordBytes a.planes

/-- One run record copied into the staging area, in the order of use (R347, log 14). -/
def stageRecord (w : Who) (a : TableArgs) (seq cb r : Nat) : M Unit := do
  if a.spilled then
    let bs ← oread w (a.record cb r) (recordBytes a.planes)
    modDev (fun d =>
      let stage := d.stageBytes w.core
      let slots := stage / recordBytes a.planes
      d.store (nearBase w.core + 0x4000000 - stage + seq % slots * recordBytes a.planes) bs)

/-- One activation plane of a run against one channel: the exact term p of R343. -/
def planeRun (w : Who) (a : TableArgs) (cb r c : Nat) (bits : List Bool) : M Int := do
  let b := a.planes
  let base := a.record cb r
  let s ← (List.range 32).foldlM (fun (acc : Int) (q : Nat) => do
    let x := bitsOf ((bits.drop (4 * q)).take 4)
    (List.range b).foldlM (fun (acc : Int) (i : Nat) => do
      let bs ← oread w (base + 512 + (q * b + i) * 1024 + 16 * c) 16
      let es := (List.range 8).map (fun e => leNat ((bs.drop (2 * e)).take 2))
      return acc + planeWeight b i * tableEntry es x) acc) 0
  let sum ← oreadNat w (base + 4 * c) 4
  return (s + signedOf 32 sum) / 2


/-- The activation planes of a vector in a run that are not all zero: index and bits. -/
def livePlanes (acts : List Nat) : List (Nat × List Bool) :=
  ((List.range 8).map (fun j => (j, acts.map (fun v => v.testBit j)))).filter (fun p => p.2.any id)

/-- The output conversion of one value (R346). -/
def tableOut (w : Who) (a : TableArgs) (m n : Nat) (acc : Int) : M Unit := do
  let p : List Int := [((n : Nat) : Int), ((m : Nat) : Int)]
  let y := enc32 (FVal.ofInt (signedOf 48 (toBits 48 acc)))
  let y ← (if a.ascaleEn then do return fmul y (← oreadNat w (a.ascale + 4 * m) 4) else pure y)
  let mul ← (if a.chtab = 0 then pure f32One else oreadNat w (a.chtab + 8 * n) 4)
  let bias ← (if a.chtab = 0 ∨ !a.biasEn then pure 0 else oreadNat w (a.chtab + 8 * n + 4) 4)
  if isValid a.dst p then
    a.dst.write w p { val := dec32 (ffma y mul bias), const := false } a.outRnd (a.dst.flatIndex p)

/-- One tile: channel block cb against vectors 32g to 32g + 31 (R342 to R346). -/
def tableTile (w : Who) (a : TableArgs) (seq cb g : Nat) : M Unit := do
  (List.range a.runs).forM (fun r => stageRecord w a (seq * a.runs + r) cb r)
  let lanes := (List.range 32).filter (fun l => 32 * g + l < a.m)
  let counts ← lanes.mapM (fun l => do
    let m := 32 * g + l
    let planes ← (List.range a.runs).mapM (fun r => do
      let acts ← (List.range 128).mapM (fun i => activation w a (128 * r + i) m)
      return livePlanes acts)
    (List.range (min 64 (a.n - 64 * cb))).forM (fun c => do
      let acc ← ((List.range a.runs).zip planes).foldlM (fun (acc : Int) (rp : Nat × List (Nat × List Bool)) =>
        rp.2.foldlM (fun (acc : Int) (jp : Nat × List Bool) => do
          return acc + planeAlpha a.aFmt jp.1 * (← planeRun w a cb rp.1 c jp.2)) acc) 0
      tableOut w a m (64 * cb + c) acc)
    return planes.map List.length)
  let perLane := counts.map List.sum
  let done := perLane.sum
  let b := a.planes
  let maxOf := fun (l : List Nat) => l.foldl max 0
  let skew := if a.spilled then
      ((List.range a.runs).map (fun r =>
        let xs := counts.map (fun l => l.getD r 0)
        128 * b * (32 * maxOf xs - xs.sum))).sum
    else 32 * b * (32 * maxOf perLane - done)
  let page := pgTbl w.core
  modDev (fun d => ((((d.count page 0x02 1).count page 0x03 (done * 32 * b * 64)).count page 0x04 done).count page 0x05
    (lanes.length * a.runs * 8 - done)).count page 0x06 skew)

def TableArgs.groups (a : TableArgs) : Nat := (a.m + 31) / 32
def TableArgs.tiles (a : TableArgs) : Nat := (a.n + 63) / 64 * a.groups

/-- The tiles from number `lo` up to `hi`, channel blocks as the outer order (R342). -/
def tableTiles (w : Who) (a : TableArgs) (lo hi : Nat) : M Unit :=
  (List.range (hi - lo)).forM (fun i => tableTile w a (lo + i) ((lo + i) / a.groups) ((lo + i) % a.groups))

/-- Tiles of a TABLE from `lo` on, with the last of them its end: its statistics leave the unit. -/
def tableRun (w : Who) (a : TableArgs) (lo hi : Nat) : M Unit :=
  if hi < a.tiles then do
    match ← attempt (do tableTiles w a lo hi; flushWrites w) with
    | some e => withDest w a.dst (throw e)
    | none => do
      let tally := (← get).tally
      modify (fun r => { r with tally := Tally.zeroed })
      modDev (fun d => d.modCtx w.core w.ctx (fun k => { k with table := some { args := a, next := hi, tally := tally } }))
  else withDest w a.dst (tableTiles w a lo hi)

/-- The work of a validated TABLE: a free number of its tiles now, the others at its completion, so that HALT and FINIT find it at
any tile boundary (R352, R468, log 26). Answers whether it is complete. -/
def tableBody (w : Who) (a : TableArgs) : M Bool := do
  modDev (fun d => d.setb (pgTbl w.core) 0x108 1 a.spilled)
  let f := (← getDev).takeFree
  setDev f.1
  let n := f.2.toNat % (a.tiles + 1)
  tableRun w a 0 n
  return n == a.tiles

/-- The tiles that are left, or where FINIT has ended the TABLE only the statistics of those written. -/
def tableRest (w : Who) (r : TableRun) (ended : Bool) : M Unit := do
  modify (fun x => { x with tally := r.tally })
  modDev (fun d => d.modCtx w.core w.ctx (fun k => { k with table := none }))
  if ended then withDest w r.args.dst (pure ()) else tableRun w r.args r.next r.args.tiles

end Sys2Proof.Machine
end

