-- ==== Sys2Proof/Machine/Task.lean ====
section
/-! DEFINITION. Queues, tasks and the dispatcher: queue-table entries, doorbells, starting and retiring tasks, fetching and
validating commands, preemption, speculation, and deadlines of tasks (R225 to R234, R243 to R269, R282 to R286). -/

namespace Sys2Proof.Machine

/-! ### Queue-table entries (R243, R244) -/

def Dev.qField (d : Dev) (q i hi lo : Nat) : Nat := (d.qword q i).field hi lo
def Dev.qHead (d : Dev) (q : Nat) : Nat := d.qField q 1 31 0
def Dev.qTail (d : Dev) (q : Nat) : Nat := d.qField q 1 63 32
def Dev.qClass (d : Dev) (q : Nat) : Nat := d.qField q 0 55 54
def Dev.qRing (d : Dev) (q : Nat) : Nat := 2 ^ d.qField q 0 52 48

/-- A hardware-owned half of a word of the entry. -/
def Dev.setQField (d : Dev) (q i hi lo v : Nat) : Dev := d.storeWord (d.queueEntry q + 8 * i) ((d.qword q i).setField hi lo v)

/-- Sequence number s lies below t, compared modulo 2^32 (R246). -/
def seqBelow (s t : Nat) : Bool :=
  let x := (t + 2 ^ 32 - s % 2 ^ 32) % 2 ^ 32
  1 ≤ x && x < 2 ^ 31

def seqNext (s : Nat) : Nat := (s + 1) % 2 ^ 32

/-- The descriptor with a sequence number as it lies in the ring, with the record of poisoned memory (R246, R261). -/
def Dev.ringDesc (d : Dev) (q s : Nat) : Dev × Desc × Option W64 :=
  let kx1 := (d.qword q 0).bit 53
  let size := if kx1 then 32 else 64
  let r := d.load (d.qField q 0 47 0 + s % d.qRing q * size) size
  let w := fun (i : Nat) => BitVec.ofNat 64 (leNat ((r.2.1.drop (8 * i)).take 8))
  let hi := fun (i : Nat) => if kx1 then 0 else w i
  (r.1, { w0 := w 0, w1 := w 1, w2 := w 2, w3 := w 3, w4 := hi 4, w5 := hi 5, w6 := hi 6, w7 := hi 7 }, r.2.2)

/-- The descriptor and the queue's entry can be reached from the core (R418, R421). -/
def Dev.ringReaches (d : Dev) (c q s : Nat) : Bool :=
  let size := if (d.qword q 0).bit 53 then 32 else 64
  d.reachesFrom (c / 4) (d.queueEntry q) && d.reachesFrom (c / 4) (d.qField q 0 47 0 + s % d.qRing q * size)

/-- The first descriptor with END at or after s and below TAIL (R248). -/
def Dev.findEnd (d : Dev) (q s : Nat) : Option Nat :=
  ((List.range (d.qRing q)).map (fun i => (s + i) % 2 ^ 32)).find? (fun x =>
    seqBelow x (d.qTail q) && (d.ringDesc q x).2.1.w0.bit 8) |>.filter (fun e =>
    ((List.range ((e + 2 ^ 32 - s) % 2 ^ 32)).all (fun i => seqBelow ((s + i) % 2 ^ 32) (d.qTail q))))

/-- The first descriptor of the queue's next task, where it is known. -/
def Dev.nextTask (d : Dev) (q : Nat) : Option Nat :=
  match d.queue? q with
  | none => none
  | some x => if x.scan then (d.findEnd q x.next).map seqNext else some x.next

/-! ### Order among tasks (R266) -/

def classRank (c : Nat) : Nat := [0, 3, 1, 2].getD c 3

/-- Training and service tasks (R265, R268). -/
def isBackground (c : Nat) : Bool := c == 1 || c == 3

/-- Class, priority and order of the first doorbell: the smaller comes first. -/
def keyBefore (a b : Nat × Nat × Nat) : Bool :=
  a.1 < b.1 || (a.1 == b.1 && (a.2.1 < b.2.1 || (a.2.1 == b.2.1 && a.2.2 < b.2.2)))

def Dev.orderKey (d : Dev) (q order : Nat) : Nat × Nat × Nat := (classRank (d.qClass q), 15 - d.qField q 0 59 56, order)

/-- The order of the doorbell that brought a descriptor below TAIL. -/
def QState.orderOf (x : QState) (s : Nat) : Nat := ((x.doorbells.find? (fun b => seqBelow s b.1)).map (fun b => b.2)).getD 0

def Core.ofQueue (k : Core) (q : Nat) : List (Nat × Ctx) := k.ctxs.filter (fun x => x.2.queue == q)

/-! ### Frame time at a half's follower -/

def Dev.rasterLines (d : Dev) : Nat := d.regf pgFts 0x110 13 0
def Dev.ftsRun (d : Dev) : Bool := d.regb pgFts 0x100 6
/-- A position: raster lines modulo 2^62. -/
def Dev.posOf (d : Dev) (frame line : Nat) : Nat := (frame * d.rasterLines + line) % 2 ^ 62
/-- A position has been reached, compared modulo 2^62. -/
def posReached (at' now : Nat) : Bool := (now + 2 ^ 62 - at') % 2 ^ 62 < 2 ^ 61
/-- The position that the follower of a half last took (R282 to R285). -/
def Dev.schPos (d : Dev) (h : Nat) : Nat := d.posOf (d.half h).schFrame (d.half h).schLine

/-- The scheduler runs: RUN, an accepted rate and a raster (R273). -/
def Dev.ftsActive (d : Dev) : Bool := d.up && d.ftsRun && !d.regb pgFts 0x138 3 && d.rasterLines != 0
def Dev.acquiring (d : Dev) : Bool := d.regb pgFts 0x138 5
/-- Releases take place and deadlines are evaluated (R273, R277, R286). -/
def Dev.ftsLive (d : Dev) : Bool := d.ftsActive && !d.acquiring

def Dev.deadlineReached (d : Dev) (c : Nat) (t : Ctx) : Bool :=
  d.ftsLive && t.deadline.any (fun x => posReached (d.posOf x.frame x.line) (d.schPos (c / 4)))

/-! ### Validation (R251 to R263, R210) -/

def unusedFrom (t : Desc) (i : Nat) : Bool := ([t.w1, t.w2, t.w3, t.w4, t.w5, t.w6].drop i).all (· == 0)

/-- The regions that a descriptor loads (R210, R252). -/
def parseRegions (w : Who) (t : Desc) : M (List Region) := do
  let va ← addrWord t.w7
  require (va % 16 == 0)
  nameRange va 1024 false
  let ws ← owords w va 128
  (List.range 64).mapM (fun i => do
    let a := wd ws (2 * i)
    let b := wd ws (2 * i + 1)
    let base := a.field 47 0
    let ext := b.field 39 0
    require (a.field 63 48 == 0 && b.field 63 50 == 0 && b.field 49 48 != 3 && base % 64 == 0 && ext % 64 == 0)
    return { base := base, extent := ext, raDist := b.field 47 40, dir := b.field 49 48, cursor := none, lastLine := none,
             descends := false, stop := none })

/-- The extension that a MATMUL stands for (R262). -/
def matmulExt (t : Desc) (act wt : Tensor) : StreamExt :=
  let aFmt := t.arg 37 32
  let wFmt := t.arg 43 38
  let per := 16 * panelRakes (fmtWidth wFmt)
  let x : StreamExt :=
    { aFmt := aFmt, op := 0, red := 0, arrays := 15, accInit := t.arg 46 46, out := t.arg 47 47, outFmt := t.arg 53 48, outRnd := 0,
      group := t.arg 45 44, scaleA := act.scaleKind, scaleW := wt.scaleKind, biasEn := false, p := (wt.dim 0).g, m := (act.dim 1).g,
      kLast := 1, accRow := 0, pmapStride := 0, unifFmt := wFmt, outCh := (List.range 4).map (fun i => i * per), chtab := 0, pmap := 0,
      tdrEn := false, rc := 0, corrPass := 0, olistStride := 0, steerTid := 0, redBase := 0, olist := 0, tdrW := 0, tdrAct := 0,
      tdrActStride := 0, z := 0 }
  let hs := (List.range 4).map (fun i => (i, halvesOf ((List.range 16).map (fun n => uniformPanel wFmt n))))
  { x with kLast := 128 * passPack x hs / rakeRows (fmtWidth aFmt) }

/-- The tiles and vectors of a MATMUL (R262). -/
def matmulOk (act wt : Tensor) : Bool := 1 ≤ (wt.dim 0).g && (wt.dim 0).g ≤ 256 && 1 ≤ (act.dim 1).g && (act.dim 1).g ≤ 2048

/-- MATMUL as a STREAM (R262). -/
def parseMatmul (w : Who) (t : Desc) : M StreamArgs := do
  let act ← tensor w (← addrWord t.w1) Role.arrayReady
  let wt ← tensor w (← addrWord t.w2) Role.arrayReady
  let dst ← streamDest w (t.arg 47 47) t.w3
  require (matmulOk act wt)
  checkStream w (matmulExt t act wt) act wt dst

/-- A STREAM in either form. -/
def parseStreamCmd (w : Who) (t : Desc) : M StreamArgs := do
  if (← getDev).kx1 w then parseMatmul w t else parseStream w t

structure SignalArgs where
  scope : Nat
  sop   : Nat
  va    : Nat
  value : W64
  deriving DecidableEq, Repr

def parseSignal (w : Who) (t : Desc) : M SignalArgs := do
  require (unusedFrom t 2)
  let va ← addrWord t.w1
  require (va % 8 == 0)
  nameRange va 8 false
  let _ := w
  return { scope := t.arg 33 32, sop := t.arg 35 34, va := va, value := t.w2 }

structure WaitArgs where
  cond  : Nat
  watch : Nat
  va    : Nat
  value : W64
  mask  : W64
  deriving DecidableEq, Repr

def parseWait (w : Who) (t : Desc) : M WaitArgs := do
  require (unusedFrom t 3)
  let cond := t.arg 34 32
  require (cond ≤ 4)
  let va ← (if cond ≤ 2 then addrWord t.w1 else pure 0)
  require (va % 8 == 0)
  if cond ≤ 2 then nameRange va 8 false
  let _ := w
  return { cond := cond, watch := t.arg 40 35, va := va, value := t.w2, mask := t.w3 }

/-- The task began with SPEC_BEGIN: it is speculative, or has committed early (R225, R228). -/
def Ctx.began (t : Ctx) : Bool := t.spec.isSome || t.specOut == 1

/-- TIME stands first in its task, or second after SPEC_BEGIN (R259). -/
def timePlace (t : Ctx) : Bool := t.seq == t.first || (t.seq == seqNext t.first && t.began)

def parseTime (w : Who) (t : Desc) : M Unit := do
  require (unusedFrom t 2)
  match ← currentCtx w with
  | some c => require (timePlace c)
  | none => invalid

/-- The core has a shadow area in its core store, apart from the run-ahead buffer (R228). -/
def Dev.shadowOk (d : Dev) (c : Nat) : Bool :=
  let base := d.regf (pgDsp c) 0x400 47 16 * 65536
  let size := d.regf (pgDsp c) 0x408 7 0 * 65536
  let near := nearBase c
  let ra := min (d.regf (pgFet c) 0x100 6 1) 32 * 0x40000
  size != 0 && near ≤ base && base + size ≤ near + 0x2800000 && !overlaps base size (near + 0x2800000 - ra) ra

/-- A task may begin to speculate with this decision word: with its first command, where the word and the shadow area lie as they
must (R225, R228). -/
def Dev.mayBegin (d : Dev) (w : Who) (va : Nat) : Bool :=
  va % 8 == 0 && d.shadowOk w.core && (d.ctx? w.core w.ctx).any (fun c => c.seq == c.first && c.spec.isNone) && !d.namesKept va 8 false
    && d.pagesIn va 8 (fun s => inDramOrCarve s || inOwnCoreStore w s)

/-- SPEC_BEGIN (R225, R228): the decision word. The task does not end with it. -/
def parseSpecBegin (w : Who) (t : Desc) : M Nat := do
  require (unusedFrom t 1 && !t.w0.bit 8)
  let va ← addrWord t.w1
  require ((← getDev).mayBegin w va)
  return va

/-- SPEC_COMMIT and SPEC_ABORT end a task that began with SPEC_BEGIN (R225, R228). -/
def parseSpecEnd (w : Who) (t : Desc) : M Unit := do
  require (unusedFrom t 0 && t.w0.bit 8)
  match ← currentCtx w with
  | some c => require c.began
  | none => invalid

/-- Validation of the command that a task has reached (R259). -/
def validate (w : Who) (t : Desc) : M Unit := do
  require t.headOk
  let ctx ← currentCtx w
  let spec := ctx.any (fun c => c.spec.isSome)
  require (!ctx.any Ctx.began || !t.w0.bit 8 || t.opc == 13 || t.opc == 14)
  if t.w0.bit 9 then
    require (!(← getDev).kx1 w)
    let _ ← parseRegions w t
  match t.opc with
  | 0 => require (unusedFrom t 0)
  | 1 => do let _ ← parseTileLoad w t
  | 2 => do let _ ← parseStreamCmd w t
  | 3 => do let _ ← parseVec w t
  | 4 => do let _ ← parseTable w t
  | 5 => do let _ ← parseXfer w t
  | 6 => if spec then invalid else do let _ ← parseColl w t
  | 7 => do let _ ← parseUpd w t
  | 8 => require (unusedFrom t 0)
  | 9 => do let _ ← parseSignal w t
  | 10 => do let _ ← parseWait w t
  | 11 => parseTime w t
  | 12 => do let _ ← parseSpecBegin w t
  | 13 => parseSpecEnd w t
  | 14 => parseSpecEnd w t
  | _ => invalid

/-- A Shuot-1 descriptor in its Shuot-2 form (R261); MATMUL and REDUCE keep their operands, which their own rules read. -/
def fromKx1 (t : Desc) : Option Desc :=
  if t.w0.bit 9 then none
  else
    match t.opc with
    | 1 => some t
    | 2 => some t
    | 3 => some { t with w3 := 0, w4 := t.w3 }
    | 5 => if t.arg 34 32 ≤ 1 then some t else none
    | 6 => some t
    | 8 => some t
    | 9 => some t
    | 10 => if t.arg 34 32 ≤ 2 then some t else none
    | _ => none

/-! ### Ends of tasks -/

/-- A speculative task is discarded: its shadow lines and held actions are dropped (R231). -/
def Dev.discard (d : Dev) (c x reason : Nat) : Dev :=
  match d.ctx? c x with
  | none => d
  | some t =>
    match t.spec with
    | none => d
    | some p =>
      if p.state = .discarded ∨ p.state = .committed ∨ p.state = .writing then d
      else
        (d.setCtx c x { t with spec := some { p with shadow := [], excess := [], late := none, heldActs := [], state := .discarded }, specOut := 2,
                               reason := reason, status := 7 }).count (pgDsp c) 0x22 1

/-- A task ends with its status and goes to write its completion record (R251). -/
def Dev.toRetiring (d : Dev) (c x : Nat) : Dev :=
  match d.ctx? c x with
  | none => d
  | some t =>
    let d := if t.status = 1 then (d.count (pgDsp c) 0x04 1).setIsr (pgDsp c) 1 else d
    let d := if t.status ≠ 0 then d.discard c x 3 else d
    let d := d.modCtx c x (fun t => { t with state := .retiring, waitFor := .none })
    if (d.ctx? c x).any (fun t => t.status != 0) then d.setIsr (pgDsp c) 2 else d

/-- A task at a boundary ends with a status and, where it is speculative, a discard reason. -/
def Dev.endTask (d : Dev) (c x status reason : Nat) : Dev :=
  let d := d.modCtx c x (fun t => { t with status := if t.status = 0 then status else t.status })
  ((d.discard c x reason).toRetiring c x)

/-- A task whose speculation is being written out, or is over, keeps its outcome. -/
def Ctx.settled (t : Ctx) : Bool := t.spec.any (fun p => p.state == .writing || p.state == .committed)

/-- A task ends by its deadline's POLICY ABORT (R284, R285). -/
def Dev.abortTask (d : Dev) (c x : Nat) : Dev :=
  (d.modCtx c x (fun t => { t with aborted := t.aborted || (t.status == 0 && !t.settled) })).endTask c x 5 3

/-! ### Fetching the next command -/

/-- The command is a UPD DROPOUT, by the OP of its extension. -/
def Dev.isDropout (d : Dev) (w : Who) (t : Desc) : Bool :=
  t.opc == 7 && (match ((parseUpd w t).run).run (Run.start d) with
    | (.ok a, _) => a.op == 4
    | _ => false)

/-- The task's next descriptor is fetched and validated, or the task waits for it below TAIL, or for good where the ring's store
never answers (R248, R259, R421). -/
def Dev.fetchNext (d : Dev) (c x : Nat) : Dev :=
  match d.ctx? c x with
  | none => d
  | some t =>
    if !seqBelow t.seq (d.qTail t.queue) ∨ !d.ringReaches c t.queue t.seq then
      d.setCtx c x { t with state := .waiting, waitFor := .descriptor }
    else
      let r := d.ringDesc t.queue t.seq
      let d := r.1
      let kx1 := (d.qword t.queue 0).bit 53
      match r.2.2 with
      | some ev => (d.setCtx c x { t with status := 4, event := if t.event = 0 then ev else t.event }).toRetiring c x
      | none =>
        let d := if kx1 then d.count (pgDsp c) 0x07 1 else d
        match if kx1 then fromKx1 r.2.1 else some r.2.1 with
        | none => (d.setCtx c x { t with status := 1 }).toRetiring c x
        | some cmd =>
          let d := d.setCtx c x { t with cur := cmd, state := .ready, waitFor := .none, opDone := false,
                                         frameAt := (d.half (c / 4)).schFrame, onVec := false }
          let v := ((validate (d.whoOf c x) cmd).run).run (Run.start d)
          match v.1 with
          | .error (.fail st ev) =>
            let ev := if v.2.event = 0 then ev else v.2.event
            (v.2.dev.modCtx c x (fun t => { t with status := st, event := if t.event = 0 then ev else t.event })).toRetiring c x
          | _ => d.modCtx c x (fun t => { t with onVec := d.isDropout (d.whoOf c x) cmd })

/-! ### Units and preemption (R266 to R268) -/

/-- The unit of an opcode: 0 the arrays, 1 the vector unit, 2 the table engine, 3 the fetch engine's command slots. DEDUCED
(log 89): an XFER, a COLL and a UPD want a slot. -/
def unitOf (opc : Nat) : Option Nat :=
  if opc = 1 ∨ opc = 2 then some 0 else if opc = 3 then some 1 else if opc = 4 then some 2
  else if opc = 5 ∨ opc = 6 ∨ opc = 7 then some 3 else none

/-- The unit of the task's command; a UPD DROPOUT runs on the vector unit (R329). -/
def Ctx.unit (t : Ctx) : Option Nat := if t.onVec then some 1 else unitOf t.cur.opc

def Ctx.wants (t : Ctx) (u : Nat) : Bool := t.unit == some u

/-- The task's command is issued and not complete. -/
def Ctx.runs (t : Ctx) : Bool := t.state == .running

/-- Other tasks of the core that want a unit. -/
def Dev.rivals (d : Dev) (c x u : Nat) : List Ctx := (((d.core c).ctxs.filter (fun y => y.1 != x && y.2.wants u)).map (fun y => y.2))

/-- A running command of another task keeps the unit from the task's. A command slot is free while fewer XFERs run than the
fetch engine has slots: a COLL that runs is the network interface's (R384), a UPD the update engine's. A TILE_LOAD waits for no
STREAM, whose last pass has begun when it issues (R97). -/
def Dev.unitTaken (d : Dev) (c x u : Nat) (t : Ctx) : Bool :=
  let on := ((d.rivals c x u).filter Ctx.runs).filter (fun y => !(t.cur.opc == 1 && y.cur.opc == 2))
  if u = 3 then Config.fetchSlots + 1 ≤ (on.filter (fun y => y.cur.opc == 5)).length else !on.isEmpty

/-- A higher class holds the unit or has a command ready for it (R267). -/
def Dev.outclassed (d : Dev) (c x : Nat) (t : Ctx) : Bool :=
  match t.unit with
  | none => false
  | some u =>
    (d.rivals c x u).any (fun y => (y.state == .ready && !y.opDone || (y.runs && d.unitTaken c x u t))
      && classRank (d.qClass y.queue) < classRank (d.qClass t.queue))

def Dev.sliceHolds (d : Dev) (c : Nat) (t : Ctx) : Bool := d.inSlice c && isBackground (d.qClass t.queue)

/-- One context takes its place between READY and SUSPENDED. A task that decides on its speculation is suspended where it stands,
and goes on deciding (R233). -/
def Dev.settleOne (d : Dev) (c x : Nat) : Dev :=
  match d.ctx? c x with
  | none => d
  | some t =>
    let slice := d.sliceHolds c t
    let lower := d.outclassed c x t
    let decides := t.spec.any (fun p => p.state == .deciding)
    if (t.state = .ready ∨ (t.state = .running ∧ decides)) ∧ (slice ∨ lower) then
      let d := d.setCtx c x { t with state := .suspended }
      if slice then d
      else
        (d.count (pgDsp c) 0x05 1).traceTask c x (d.queueSecure t.queue) (pgDsp c) 0x05
          (BitVec.ofNat 64 (t.queue + t.tseq * 2 ^ 32)) 0
    else if t.state = .suspended ∧ !slice ∧ !lower then d.setCtx c x { t with state := if decides then .running else .ready }
    else d

/-- Preemption at a command boundary of a core. -/
def Dev.settle (d : Dev) (c : Nat) : Dev := (d.core c).ctxs.foldl (fun d x => d.settleOne c x.1) d

/-- The unit is free for the task, and no other task that is ready for it comes before this one (R266). -/
def Dev.picked (d : Dev) (c x : Nat) (t : Ctx) : Bool :=
  match t.unit with
  | none => true
  | some u =>
    let me := d.orderKey t.queue t.order
    !d.unitTaken c x u t && (d.rivals c x u).all (fun y => y.state != .ready || y.opDone || !keyBefore (d.orderKey y.queue y.order) me)

/-! ### Doorbells (R34, R246, R247) -/

/-- The half of the queue runs and the agent may reach its doorbell. -/
def Dev.doorbellOpen (d : Dev) (agent : Agent) (q : Nat) : Bool :=
  q < 65536 && d.corePresent (q / 8192) && d.running (q / 32768) && (d.agentSecure agent || !d.queueSecure q)

def Dev.wakeWaiting (d : Dev) (c q : Nat) : Dev :=
  ((d.core c).ofQueue q).foldl (fun d x =>
    if x.2.state = .waiting ∧ x.2.waitFor = .descriptor ∧ seqBelow x.2.seq (d.qTail q) then d.fetchNext c x.1 else d) d

def doorbell (d : Dev) (agent : Agent) (q : Nat) (value : W64) : Dev :=
  if !d.doorbellOpen agent q then d
  else
    let c := q / 8192
    let new := value.field 31 0
    let behind := (new + 2 ^ 32 - d.qTail q) % 2 ^ 32 ≥ 2 ^ 31
    let tooFar := (new + 2 ^ 32 - d.qHead q) % 2 ^ 32 > d.qRing q
    match d.queue? q with
    | some x =>
      if !x.enabled ∨ behind ∨ tooFar then (d.count (pgDsp c) 0x03 1).setIsr (pgDsp c) 0
      else
        let d := (d.setQField q 1 63 32 new).count (pgDsp c) 0x02 1
        let d := d.setQueue q { x with doorbells := x.doorbells ++ [(new, (d.core c).dbClock)] }
        ((d.modCore c (fun k => { k with dbClock := k.dbClock + 1 })).wakeWaiting c q).settle c
    | none => (d.count (pgDsp c) 0x03 1).setIsr (pgDsp c) 0

def doorbellValue (d : Dev) (agent : Agent) (q : Nat) : W64 :=
  if d.doorbellOpen agent q then BitVec.ofNat 64 (d.qHead q + d.qField q 3 63 32 * 2 ^ 32) else 0

/-! ### Enabling and disabling a queue (R245) -/

/-- The entry passes the checks of ENABLE; Shuot-1 needs a device that has it (R479). -/
def Dev.entryOk (d : Dev) (q : Nat) : Bool :=
  let f := fun (i hi lo : Nat) => d.qField q i hi lo
  f 0 63 62 == 0 && f 2 63 53 == 0 && f 4 15 12 == 0 && f 4 63 27 == 0 && f 5 63 62 == 0 && f 6 63 16 == 0 && d.qword q 7 == 0
    && (f 0 53 53 == 0 || d.cap.bit 54) && 4 ≤ f 0 52 48 && f 0 52 48 ≤ 16 && 4 ≤ f 2 52 48 && f 2 52 48 ≤ 16
    && f 5 32 17 < f 5 16 1 && f 5 46 33 < d.rasterLines && f 5 60 47 < d.rasterLines && !(f 0 53 53 == 1 && f 5 0 0 == 1)

def QState.start : QState :=
  { enabled := true, disabling := false, next := 0, scan := false, doorbells := [], released := [], relNext := 0, relScan := false, freed := [] }

def queueEnable (d : Dev) (c q : Nat) : Dev :=
  let held := !((d.core c).ofQueue q).isEmpty
  if (d.queue? q).any (fun x => x.enabled) ∨ held ∨ (d.core c).dspFinit then d
  else if !d.entryOk q then d.setb (pgDsp c) 0x108 62 true
  else ((d.storeWord (d.queueEntry q + 8) 0).storeWord (d.queueEntry q + 24) 0).setQueue q QState.start

def queueDisable (d : Dev) (q : Nat) : Dev :=
  match d.queue? q with
  | some x => if x.enabled then d.setQueue q { x with enabled := false, disabling := true } else d
  | none => d

/-- A write to DSP_QCMD (R245, R288). -/
def qcmdWrite (d : Dev) (c : Nat) (w : Wr) : Dev :=
  let q := c * 8192 + (d.merged (pgDsp c) 0x108 w).field 12 0
  if !d.mayWrite w.agent (pgDsp c) 0x108 ∨ (d.queueSecure q && !d.agentSecure w.agent) then d
  else
    let d := d.plainWrite (pgDsp c) 0x108 w
    match (wrBits w).field 14 13 with
    | 1 => queueEnable d c q
    | 2 => queueDisable d q
    | _ => d

/-! ### Starting a task (R265, R268, R282) -/

/-- The release that a frame-bound queue's task has: its bound frame, and whether its deadline has been reached. -/
def QState.releaseOf (x : QState) (s : Nat) : Option (Nat × Bool) := (x.released.find? (fun r => r.1 == s)).map (fun r => r.2)

/-- The deadline that a bound frame gives a frame-bound queue's task (R282). -/
def Dev.boundDeadline (d : Dev) (q frame : Nat) : Deadline :=
  { frame := frame + d.qField q 6 15 0, line := d.qField q 5 60 47, abort := (d.qword q 5).bit 61, seen := false }

/-- The queue's next task may take a context: its first descriptor. Debug level 1 gives secure queues none (R504). -/
def Dev.startable (d : Dev) (q : Nat) : Option Nat :=
  let c := q / 8192
  let k := d.core c
  match d.queue? q, d.nextTask q with
  | some x, some s =>
    let held := (k.ofQueue q).length
    let max := let m := d.qField q 4 10 0; if m = 0 then 1024 else m
    let free := 1024 - k.ctxs.length
    let bg := isBackground (d.qClass q)
    let fb := (d.qword q 5).bit 0
    let ok := x.enabled && seqBelow s (d.qTail q) && decide (held < max) && (!(d.qword q 0).bit 61 || held == 0)
      && (!d.queueSecure q || d.sec.secureQ)
      && (!fb || (x.releaseOf s).isSome) && decide (free ≥ 1)
      && (!bg || (decide (free > d.regf (pgDsp c) 0x100 10 0) && !d.inSlice c))
    if ok then some s else none
  | _, _ => none

/-- No startable queue of the core comes before this one. -/
def Dev.queuePicked (d : Dev) (q s : Nat) : Bool :=
  let c := q / 8192
  let me := d.orderKey q (((d.queue? q).map (fun x => x.orderOf s)).getD 0)
  d.queues.all (fun y => y.1 / 8192 != c || y.1 == q ||
    (match d.startable y.1 with
     | none => true
     | some s' => !keyBefore (d.orderKey y.1 (y.2.orderOf s')) me))

/-- HEAD passes the run of free descriptors that begins at it (R249). -/
def advanceHead : Nat → Nat → List (Nat × Nat) → Nat × List (Nat × Nat)
  | 0, h, l => (h, l)
  | n + 1, h, l =>
    match l.find? (fun f => f.1 == h) with
    | none => (h, l)
    | some f => advanceHead n ((h + f.2) % 2 ^ 32) (l.erase f)

def Dev.freeRange (d : Dev) (q s n : Nat) : Dev :=
  match d.queue? q with
  | none => d
  | some x =>
    let l := if n = 0 then x.freed else x.freed ++ [(s, n)]
    let r := advanceHead l.length (d.qHead q) l
    (d.setQueue q { x with freed := r.2 }).setQField q 1 31 0 r.1

/-- Descriptors of a task that retired before its END came are free once the END is found. -/
def Dev.freeOrphan (d : Dev) (q s : Nat) : Dev :=
  match d.queue? q with
  | none => d
  | some x =>
    if x.scan && !((d.core (q / 8192)).ofQueue q).any (fun y => y.2.first == x.next) then
      d.freeRange q x.next ((s + 2 ^ 32 - x.next) % 2 ^ 32)
    else d

def taskStart (d : Dev) (q x : Nat) : Dev :=
  let c := q / 8192
  if !d.coreLive c ∨ (d.core c).dspFinit ∨ x ≥ 1024 ∨ (d.ctx? c x).isSome then d
  else
    match d.startable q, d.queue? q with
    | some s, some qs =>
      if !d.queuePicked q s then d
      else
        let d := d.freeOrphan q s
        let qs := (d.queue? q).getD qs
        let rel := if (d.qword q 5).bit 0 then qs.releaseOf s else none
        let bound := rel.map (fun r => r.1)
        let tseq := d.qField q 3 31 0
        let dl := rel.map (fun r => { d.boundDeadline q r.1 with seen := r.2 })
        let late := dl.any (fun x => x.seen && x.abort)
        let t : Ctx :=
          { queue := q, tseq := tseq, first := s, seq := s, state := .ready, waitFor := .none,
            cur := { w0 := 0, w1 := 0, w2 := 0, w3 := 0, w4 := 0, w5 := 0, w6 := 0, w7 := 0 }, status := 0, tag := 0, event := 0,
            order := qs.orderOf s, bound := bound, release := none, deadline := dl, regions := [], spec := none, specOut := 0,
            reason := 0, aborting := late, aborted := false, opDone := false, table := none, arrays := 0, frameAt := (d.half (c / 4)).schFrame,
            onVec := false }
        let d := d.setQueue q { qs with next := s, scan := true, released := qs.released.filter (fun r => r.1 != s),
                                         doorbells := qs.doorbells.filter (fun b => seqBelow s b.1) }
        let d := d.setQField q 3 31 0 (seqNext tseq)
        let d := d.modCore c (fun k => { k with secureRan := k.secureRan || d.queueSecure q })
        let d := d.setCtx c x t
        (if late then d.abortTask c x else d.fetchNext c x).settle c
    | _, _ => d

/-! ### Completion of a command (R248, R260, R264, R283, R284) -/

def Dev.traceCmd (d : Dev) (c x kind : Nat) (t : Ctx) (p1 : W64) : Dev :=
  d.traceTask c x (d.queueSecure t.queue) (pgDsp c) kind
    (BitVec.ofNat 64 (t.queue + t.cur.w0.field 31 16 * 2 ^ 16 + t.cur.opc * 2 ^ 32)) p1

/-- The task goes to its next command, or waits for its release position first (R283). -/
def Dev.proceed (d : Dev) (c x : Nat) : Dev :=
  match d.ctx? c x with
  | none => d
  | some t =>
    let t := { t with seq := seqNext t.seq, opDone := false }
    match t.release with
    | none => (d.setCtx c x t).fetchNext c x
    | some r =>
      if d.ftsLive && posReached r (d.schPos (c / 4)) then (d.setCtx c x { t with release := none }).fetchNext c x
      else d.setCtx c x { t with state := .held }

/-- The release position that holds the task (R283). -/
def Dev.heldBack (d : Dev) (c : Nat) (t : Ctx) : Bool := t.release.any (fun r => !(d.ftsLive && posReached r (d.schPos (c / 4))))

/-- A write of the task's command waits for room in the shadow area (R228). -/
def Ctx.waitsRoom (t : Ctx) : Bool := t.spec.any (fun p => !p.excess.isEmpty)

def commandComplete (d : Dev) (c x : Nat) : Dev :=
  match d.ctx? c x with
  | none => d
  | some t =>
    let stopped := (d.half (c / 4)).isolated
    if !(d.coreLive c || (stopped && d.coreStands c)) ∨ !(t.state = .running ∨ t.state = .ready) ∨ !t.opDone ∨ t.waitsRoom then d
    else
      let d := d.traceCmd c x 0x03 t (BitVec.ofNat 64 t.status)
      let d := if t.cur.opc = 4 ∧ t.status = 0 then d.count (pgTbl c) 0x01 1 else d
      let d :=
        -- a task of an isolated half stops at this boundary (R523)
        if stopped then d.setCtx c x { t with state := .ready, opDone := false } else
        if t.status ≠ 0 ∨ t.settled then d.toRetiring c x
        else if (d.core c).dspFinit then d.endTask c x 6 4
        else if t.aborting then d.abortTask c x
        else if t.cur.w0.bit 8 then (if d.heldBack c t then d.setCtx c x { t with state := .held } else d.toRetiring c x)
        else d.proceed c x
      d.settle c

/-! ### Retirement (R215, R249, R250, R285) -/

/-- Lines late, and whether the task is late. -/
def Dev.linesLate (d : Dev) (c : Nat) (t : Ctx) : Option Nat :=
  match t.deadline with
  | none => none
  | some x =>
    let now := d.schPos (c / 4)
    let dl := d.posOf x.frame x.line
    if d.ftsLive ∧ posReached dl now then some (min ((now + 2 ^ 62 - dl) % 2 ^ 62 + 1) 0x7FFFFFFF) else none

/-- DL_MISS with its miss-log entry (R285, R290). -/
def Dev.reportMiss (d : Dev) (c x : Nat) (t : Ctx) (late : Nat) : Dev :=
  let page := pgSch (c / 4)
  let ab := if t.aborted then 1 else 0
  let i := d.regf page 0x100 5 0
  let dl := t.deadline.getD { frame := 0, line := 0, abort := false, seen := false }
  let d := d.setReg page (0x200 + 16 * i) (BitVec.ofNat 64 (dl.frame % 2 ^ 48 + dl.line * 2 ^ 48 + ab * 2 ^ 62 + 2 ^ 63))
  let d := d.setReg page (0x208 + 16 * i) (BitVec.ofNat 64 (t.queue + x * 2 ^ 16 + late * 2 ^ 32))
  let d := (d.setf page 0x100 5 0 (i + 1)).count page 0x03 1
  (d.count page 0x04 ab).raise page 0x0401 (ab * 2 ^ 31 + late) 0

/-- Descriptors of a task from its first on; where its END is not below TAIL, those that are. -/
def Dev.taskRange (d : Dev) (q first : Nat) : Nat × Bool :=
  match d.findEnd q first with
  | some e => ((e + 1 + 2 ^ 32 - first) % 2 ^ 32, true)
  | none => ((d.qTail q + 2 ^ 32 - first) % 2 ^ 32, false)

def Dev.freeTask (d : Dev) (q first : Nat) : Dev :=
  let r := d.taskRange q first
  let d := d.freeRange q first r.1
  match d.queue? q with
  | none => d
  | some x =>
    let past := (first + r.1) % 2 ^ 32
    let x := if x.next = first ∧ x.scan then { x with next := past, scan := !r.2 } else x
    let x := if x.relNext = first ∧ x.relScan then { x with relNext := past, relScan := !r.2 } else x
    d.setQueue q x

/-- A SPEC_BEGIN that waits for one of the 64 places is ready again when a speculative task has retired (R225). -/
def Dev.wakeSpec (d : Dev) (c : Nat) : Dev :=
  (d.core c).ctxs.foldl (fun d y =>
    if y.2.state = .waiting ∧ y.2.waitFor = .specSlot then d.setCtx c y.1 { y.2 with state := .ready, waitFor := .none } else d) d

/-- The four words of a completion record. -/
def completionRecord (d : Dev) (c x : Nat) (t : Ctx) (late : Option Nat) : List W64 :=
  [BitVec.ofNat 64 (t.tseq + t.tag * 2 ^ 32 + t.status * 2 ^ 48 + (if late.isSome then 2 ^ 56 else 0) + t.specOut * 2 ^ 57
     + t.reason * 2 ^ 59),
   t.event, BitVec.ofNat 64 (late.getD 0 + x * 2 ^ 32), d.stamp (pgDsp c)]

/-- What the task wrote has been performed (R224), and its record and its queue's entry can be written (R418, R421). -/
def Dev.mayRetire (d : Dev) (c x : Nat) (t : Ctx) : Bool :=
  d.netQuiet c x && d.reachesFrom (c / 4) (d.queueEntry t.queue)
    && d.reachesFrom (c / 4) (d.qField t.queue 2 47 0 + t.tseq % 2 ^ d.qField t.queue 2 52 48 * 32)

def taskRetire (d : Dev) (c x : Nat) : Dev :=
  match d.ctx? c x with
  | none => d
  | some t =>
    if !d.coreLive c ∨ t.state ≠ .retiring ∨ !d.mayRetire c x t then d
    else
      let late := d.linesLate c t
      let d := match late with | some n => d.reportMiss c x t n | none => d
      let miss := eventRecord (pgSch (c / 4)) 0x0401 ((if t.aborted then 2 ^ 31 else 0) + late.getD 0)
      let t := if late.isSome ∧ t.event = 0 then { t with event := miss } else t
      let rec' := completionRecord d c x t late
      let q := t.queue
      let d := d.store (d.qField q 2 47 0 + t.tseq % 2 ^ d.qField q 2 52 48 * 32) (rec'.flatMap (fun v => leBytes 8 v.toNat))
      let d := d.traceTask c x (d.queueSecure q) (pgDsp c) 0x04 (rec'.getD 0 0) (rec'.getD 2 0)
      let d := (d.count (pgDsp c) 0x01 1).setQField q 3 63 32 (seqNext (d.qField q 3 63 32))
      let d := (d.freeTask q t.first).dropTaskCopies c x
      let d := d.freeCtx c x
      let d := if (d.qword q 4).bit 11 then d.emit (.msix (d.qField q 4 26 16)) else d
      (if t.spec.isSome then d.wakeSpec c else d).settle c

/-! ### FINIT of the dispatcher (R234, R269) -/

/-- A running command that FINIT ends: a COLL or a remote XFER. -/
def Ctx.onFabric (t : Ctx) : Bool := t.cur.opc == 6 || (t.cur.opc == 5 && t.cur.w6.bit 62)

def Dev.finitTask (d : Dev) (c x : Nat) : Dev :=
  match d.ctx? c x with
  | none => d
  | some t =>
    if t.state = .retiring then d.netDrop c x
    else if t.settled then d
    else if t.state = .running ∧ t.spec.any (fun p => p.state == .deciding) then d.endTask c x 6 4
    else if t.state = .running ∧ t.onFabric ∧ !t.opDone then (d.netDrop c x).endTask c x 6 4
    else if t.state = .running then d
    else (d.netDrop c x).endTask c x 6 4

def dspFinitStart (d : Dev) (c : Nat) : Dev :=
  let d := d.queues.foldl (fun d y => if y.1 / 8192 = c then d.setQueue y.1 { y.2 with enabled := false } else d) d
  let d := d.modCore c (fun k => { k with dspFinit := true })
  (d.core c).ctxs.foldl (fun d y => d.finitTask c y.1) d

/-- Re-initialisation ends when no context is held: each queue's HEAD takes its TAIL and TDONE its TSEQ. -/
def dspFinitEnd (d : Dev) (c : Nat) : Dev :=
  if !(d.core c).dspFinit ∨ !(d.core c).ctxs.isEmpty then d
  else
    let d := d.queues.foldl (fun d y =>
      if y.1 / 8192 = c then
        (((d.setQField y.1 1 31 0 (d.qTail y.1)).setQField y.1 3 63 32 (d.qField y.1 3 31 0)).setQueue y.1
          { QState.start with enabled := false, next := d.qTail y.1, relNext := d.qTail y.1 })
      else d) d
    (d.modCore c (fun k => { k with dspFinit := false })).setb (pgDsp c) 0x010 1 false

/-! ### Speculation (R225 to R233) -/

/-- Regions of the read set whose generation has moved since SPEC_BEGIN (R230). -/
def Dev.staleRegions (d : Dev) (c : Nat) (p : Spec) : List Nat :=
  p.readSet.filter (fun i => (d.reg (pgFet c) (0x600 + 8 * i)).toNat != p.gens.getD i 0)

/-- Shadow lines reach their destinations in the order of their first write (R230, stage 1). -/
def Dev.writeShadow (d : Dev) (c : Nat) (p : Spec) : Dev :=
  p.shadow.foldl (fun d l => (d.store (l.line * 64) l.data).dropCopies c l.line) d

/-- Every shadow line's destination answers the core (R418, R421). -/
def Dev.shadowReaches (d : Dev) (c : Nat) (p : Spec) : Bool := p.shadow.all (fun l => d.reachesFrom (c / 4) (l.line * 64))

/-- The decision word has been read: PENDING keeps the task deciding, COMMIT compares and writes out, DISCARD discards. -/
def Dev.decideSpec (d : Dev) (c x : Nat) (word : W64) : Dev :=
  match d.ctx? c x with
  | none => d
  | some t =>
    match t.spec with
    | none => d
    | some p =>
      let done := fun (d : Dev) (reason : Nat) =>
        let d := d.discard c x reason
        if p.atCommand then d.modCtx c x (fun t => { t with opDone := true }) else (d.toRetiring c x).settle c
      match word.field 1 0 with
      | 0 => d
      | 1 =>
        match d.staleRegions c p with
        | [] =>
          if d.shadowReaches c p then (d.writeShadow c p).modCtx c x (fun t => { t with spec := some { p with state := .writing } }) else d
        | i :: l =>
          let qual := i * 2 ^ 24 + (l.length + 1) * 2 ^ 16 + x
          let d := (d.count (pgDsp c) 0x23 1).raise (pgDsp c) 0x0302 qual 0
          done (d.modCtx c x (fun t => { t with event := if t.event = 0 then eventRecord (pgDsp c) 0x0302 qual else t.event })) 2
      | _ => done d 0

/-- A deciding task reads its decision word (R229). A fault discards it. -/
def Dev.pollDecision (d : Dev) (c x : Nat) : Dev :=
  match d.ctx? c x with
  | none => d
  | some t =>
    match t.spec with
    | none => d
    | some p =>
      if p.state ≠ .deciding ∨ t.state = .suspended then d
      else
        let r := ((readWord (d.whoOf c x) p.decision).run).run (Run.start d)
        match r.1 with
        | .ok v => r.2.dev.decideSpec c x v
        | .error (.hold _) => d
        | .error (.fail _ ev) =>
          let d := r.2.dev.modCtx c x (fun t => { t with event := if t.event = 0 then ev else t.event })
          let d := d.discard c x 3
          if p.atCommand then d.modCtx c x (fun t => { t with opDone := true }) else (d.toRetiring c x).settle c

def specPoll (d : Dev) (c x : Nat) : Dev := if d.coreLive c then d.pollDecision c x else d

/-! ### Deadlines and releases at a raster-line boundary (R282 to R286) -/

/-- A task's deadline is looked at: MISS_SEEN once, and POLICY ABORT. -/
def Dev.checkDeadline (d : Dev) (h c x : Nat) : Dev :=
  match d.ctx? c x with
  | none => d
  | some t =>
    if !d.deadlineReached c t then d
    else
      match t.deadline with
      | none => d
      | some dl =>
        let ends := t.aborting || (dl.abort && t.state != .retiring)
        let d := if dl.seen then d
          else (d.setIsr (pgSch h) 1).setCtx c x { t with deadline := some { dl with seen := true }, aborting := ends }
        if !ends ∨ t.state = .running ∨ t.state = .retiring ∨ t.settled ∨ !d.coreLive c then d else d.abortTask c x

/-- A HELD task whose release position has come goes on (R283). -/
def Dev.checkRelease (d : Dev) (c x : Nat) : Dev :=
  match d.ctx? c x with
  | none => d
  | some t =>
    if t.state = .held ∧ !d.heldBack c t ∧ d.coreLive c then
      let d := d.setCtx c x { t with release := none }
      if t.opDone then d.toRetiring c x else d.fetchNext c x
    else d

/-- The deadlines of a queue's released tasks that have no context are looked at (R282, R284). -/
def Dev.checkReleased (d : Dev) (h q : Nat) : Dev :=
  match d.queue? q with
  | none => d
  | some x =>
    let due := fun (r : Nat × (Nat × Bool)) =>
      !r.2.2 && d.ftsLive && (let dl := d.boundDeadline q r.2.1; posReached (d.posOf dl.frame dl.line) (d.schPos h))
    if x.released.any due then
      (d.setIsr (pgSch h) 1).setQueue q
        { x with released := x.released.map (fun r => if due r then (r.1, (r.2.1, true)) else r) }
    else d

/-- The first descriptor of the oldest task of a queue that has not been released, below TAIL (R282). -/
def Dev.unreleased (d : Dev) (q : Nat) (x : QState) : Option Nat :=
  let s := if x.relScan then (d.findEnd q x.relNext).map seqNext else some x.relNext
  s.filter (fun s => seqBelow s (d.qTail q))

/-- A frame-bound queue releases one task at REL_LINE of a bound frame. -/
def Dev.releaseQueue (d : Dev) (q : Nat) (frame line : Nat) : Dev :=
  let e := d.qword q 5
  let every := e.field 16 1
  match d.queue? q with
  | none => d
  | some x =>
    if !x.enabled ∨ !e.bit 0 ∨ every = 0 ∨ frame % every ≠ e.field 32 17 ∨ line ≠ e.field 46 33 then d
    else
      match d.unreleased q x with
      | none => d.count (pgSch (q / 32768)) 0x02 1
      | some s =>
        (d.setQueue q { x with released := x.released ++ [(s, (frame, false))], relNext := s, relScan := true }).count (pgSch (q / 32768)) 0x01 1

end Sys2Proof.Machine
end

