-- ==== Sys2Proof/Machine/Fetch.lean ====
section
/-! DEFINITION. The fetch engine's run-ahead and watched regions, and the clocking of the arrays (R105 to R109, R210 to R219,
R228, R239). -/

namespace Sys2Proof.Machine

/-! ### Run-ahead (R211 to R216) -/

/-- The lines that a region's run-ahead may read now, nearest first. -/
def Region.ahead (r : Region) : List Nat :=
  match r.cursor with
  | none => []
  | some c =>
    let back : Bool := r.dir == 1 || (r.dir == 2 && r.descends)
    let ls := (List.range (r.raDist * 64)).filterMap (fun i => if back then (if i ≤ c then some (c - i) else none) else some (c + i))
    (ls.takeWhile (fun l => r.stop != some l)).filter (fun l => decide (r.base ≤ l * 64) && decide (l * 64 < r.base + r.extent))

/-- A range of the register window that no page and no doorbell takes (R31, R32, R33). -/
def Dev.windowReserved (d : Dev) (off : Nat) : Bool :=
  if off < 0x8000000 then !d.present (off / 4096) else !(off < 0x8080000 && d.corePresent ((off - 0x8000000) / 0x10000))

/-- The place is one at which run-ahead is dropped (R212). -/
def Dev.dropsRunAhead (d : Dev) : Space → Bool
  | .near _ _ => true
  | .unbacked => true
  | .reserved => true
  | .window off => d.windowReserved off
  | _ => false

def Dev.setRegion (d : Dev) (c x i : Nat) (f : Region → Region) : Dev :=
  d.modCtx c x (fun t => { t with regions := t.regions.modify i f })

/-- A dropped run-ahead read: PF_DROP_PERM, and the region stops there. -/
def Dev.dropRunAhead (d : Dev) (c x i line : Nat) : Dev :=
  ((d.setRegion c x i (fun r => { r with stop := some line })).count (pgFet c) 0x05 1).raise (pgFet c) 0x0301
    (x * 2 ^ 22 + i * 2 ^ 16) (line * 64)

/-- A copy enters the buffer; the oldest line leaves a full one (R213, R216). -/
def Dev.addCopy (d : Dev) (c : Nat) (r : RaCopy) : Dev :=
  let room := min (d.regf (pgFet c) 0x100 6 1) 32 * 4096
  let old := (d.core c).ra
  if room = 0 then d
  else if old.length < room then d.modCore c (fun k => { k with ra := k.ra ++ [r] })
  else
    (d.modCore c (fun k => { k with ra := k.ra.drop 1 ++ [r] })).count (pgFet c) 0x04 (if (old.head?).any (fun o => !o.used) then 1 else 0)

/-- The first line of a region's window that the task does not hold is read. A free value says whether the far store answers at
once or only when a demand read waits for the copy (R214, log 14). -/
def runAhead (d : Dev) (c x i : Nat) : Dev :=
  match d.ctx? c x with
  | none => d
  | some t =>
    match t.regions[i]? with
    | none => d
    | some r =>
      let w := d.whoOf c x
      let held := fun (l : Nat) => (d.physOf (l * 64)).any (fun pa => (d.core c).ra.any (fun y => y.ctx == x && y.line == pa / 64))
      if !d.coreLive c ∨ !d.regb (pgFet c) 0x100 0 ∨ d.regf (pgFet c) 0x100 6 1 = 0 then d
      else
        match r.ahead.find? (fun l => !held l) with
        | none => d
        | some line =>
          let tr := d.translate c (line * 64) false w.secure
          match tr.2 with
          | .error (.cause _) => tr.1.dropRunAhead c x i line
          | .error _ => tr.1.setRegion c x i (fun r => { r with stop := some line })
          | .ok pa =>
            let sp := tr.1.space pa
            if tr.1.dropsRunAhead sp then tr.1.dropRunAhead c x i line
            else if !inDramOrCarve sp ∨ !tr.1.reachesFrom (c / 4) pa then tr.1.setRegion c x i (fun r => { r with stop := some line })
            else
              let d := tr.1.count (pgFet c) 0x01 1
              let d := d.modCtx c x (fun t => { t with spec := t.spec.map (fun p =>
                { p with readSet := ((List.range 64).filter (fun k => d.watchHits c k pa)).foldl lineAdd p.readSet }) })
              let f := d.takeFree
              if f.2.bit 0 then f.1.addCopy c { ctx := x, line := pa / 64, used := false, flight := true, data := [] }
              else
                let l := f.1.loadLine pa
                match l.2 with
                | some _ => l.1.setRegion c x i (fun r => { r with stop := some line })
                | none => l.1.addCopy c { ctx := x, line := pa / 64, used := false, flight := false, data := l.1.value (pa / 64 * 64) 64 }

/-- Every copy of a core leaves the buffer. -/
def Dev.dropAllCopies (d : Dev) (c : Nat) : Dev :=
  (d.modCore c (fun k => { k with ra := [] })).count (pgFet c) 0x04 (((d.core c).ra.filter (fun r => !r.used)).length)

/-- A RA_SIZE under which the run-ahead buffer overlaps the shadow area (R228). -/
def Dev.raOverlaps (d : Dev) (c size : Nat) : Bool :=
  let base := d.regf (pgDsp c) 0x400 47 16 * 65536
  let ra := min size 32 * 0x40000
  overlaps base (d.regf (pgDsp c) 0x408 7 0 * 65536) (nearBase c + 0x2800000 - ra) ra

/-- A write to FET_CTRL (R228, R239). -/
def fetCtrl (d : Dev) (c : Nat) (w : Wr) : Dev :=
  if !d.mayWrite w.agent (pgFet c) 0x100 then d
  else
    let v := d.merged (pgFet c) 0x100 w
    let d := d.setb (pgFet c) 0x100 0 (v.bit 0)
    let size := v.field 6 1
    if size = d.regf (pgFet c) 0x100 6 1 ∨ (!(d.core c).specs.isEmpty && d.raOverlaps c size) then d
    else (d.setf (pgFet c) 0x100 6 1 size).dropAllCopies c

/-! ### Watched regions (R219, R239) -/

def watchWriteReg (d : Dev) (c i : Nat) (ext : Bool) (w : Wr) : Dev :=
  let off := (if ext then 0x208 else 0x200) + 16 * i
  if i ≥ 64 ∨ !d.mayWrite w.agent (pgFet c) off then d
  else
    let v := d.merged (pgFet c) off w
    let keep := if ext then v.field 39 6 * 64 else v.field 47 6 * 64 + (if v.bit 63 then 2 ^ 63 else 0)
    (d.setReg (pgFet c) off (BitVec.ofNat 64 keep)).bumpGen c i

/-! ### Ramps of the arrays (R105 to R107) -/

/-- The arrays of a core ask for a ramp start: gated ones, and those in their stop ramp, which halts where it stands (R106):
`rampLeft` holds the cycles that enabling the disabled column groups takes, 64 for gated arrays. -/
def Dev.requestRamp (d : Dev) (c : Nat) : Dev :=
  match (d.core c).ramp with
  | .gated => (d.modCore c (fun k => { k with ramp := .waitingSlot, rampLeft := 64 })).modHalf (c / 4) (fun h => { h with rampQueue := h.rampQueue ++ [c] })
  | .rampDown =>
    (d.modCore c (fun k => { k with ramp := .waitingSlot, rampLeft := (64 - k.rampLeft) / 8 * 8 })).modHalf (c / 4)
      (fun h => { h with rampQueue := h.rampQueue ++ [c] })
  | _ => d

def arrCtrl (d : Dev) (c : Nat) (w : Wr) : Dev :=
  if !d.mayWrite w.agent (pgArr c) 0x100 then d
  else
    let v := d.merged (pgArr c) 0x100 w
    let d := d.setReg (pgArr c) 0x100 (BitVec.ofNat 64 (v.field 0 0 + v.field 19 4 * 16))
    if v.bit 0 then d.requestRamp c else d

/-- The core's arrays have a command running. -/
def Core.arraysBusy (k : Core) : Bool := k.ctxs.any (fun x => x.2.state == .running && x.2.wants 0 && !x.2.opDone)

def Core.arraysWanted (k : Core) : Bool := k.ctxs.any (fun x => (x.2.state == .ready || x.2.state == .running) && x.2.wants 0)

/-- The idle cycles after which clocked arrays gate: IDLE_GATE × 64, where 0 acts as 1 (R105, R109). -/
def Dev.idleLimit (d : Dev) (c : Nat) : Nat := max 1 (d.regf (pgArr c) 0x100 19 4) * 64

/-- The idle time of R105 has passed. -/
def arrayIdle (d : Dev) (c : Nat) : Dev :=
  let k := d.core c
  if d.coreLive c && k.ramp == .clocked && !k.arraysWanted && !d.regb (pgArr c) 0x100 0 && d.idleLimit c ≤ k.idle then
    d.modCore c (fun k => { k with ramp := .rampDown, rampLeft := 64 })
  else d

/-- The first core of its half's requests starts its ramp, once 256 cycles have passed since the half's last ramp start (R107). -/
def rampStart (d : Dev) (c : Nat) : Dev :=
  let h := d.half (c / 4)
  if d.coreLive c && (d.core c).ramp == .waitingSlot && h.rampQueue.head? == some c && 256 ≤ h.rampGap then
    (d.modCore c (fun k => { k with ramp := .rampUp })).modHalf (c / 4)
      (fun h => { h with rampQueue := h.rampQueue.drop 1, rampGap := 0 })
  else d

/-- All eight column groups of the core's arrays are enabled (R106). -/
def rampDone (d : Dev) (c : Nat) : Dev :=
  if d.coreLive c && (d.core c).ramp == .rampUp && (d.core c).rampLeft == 0 then
    d.modCore c (fun k => { k with ramp := .clocked, idle := 0 })
  else d

/-- A ramp, or the idle time of clocked arrays, advances by one cycle (R105, R106). -/
def Dev.rampTick (d : Dev) (c : Nat) : Dev :=
  match (d.core c).ramp with
  | .rampDown =>
    if (d.core c).rampLeft ≤ 1 then d.modCore c (fun k => { k with ramp := .gated, rampLeft := 0 })
    else d.modCore c (fun k => { k with rampLeft := k.rampLeft - 1 })
  | .rampUp => d.modCore c (fun k => { k with rampLeft := k.rampLeft - 1 })
  | .clocked => d.modCore c (fun k => { k with idle := if k.arraysWanted then 0 else k.idle + 1 })
  | _ => d

def execRunAheadRead (core ctx region : Nat) (s : State) : Host.Outcome State Fault Refusal := s.lift (fun d => runAhead d core ctx region)
def execFetCtrlWrite (core : Nat) (w : Wr) (s : State) : Host.Outcome State Fault Refusal := s.lift (fun d => fetCtrl d core w)
def execWatchRegionWrite (core index : Nat) (ext : Bool) (w : Wr) (s : State) : Host.Outcome State Fault Refusal :=
  s.lift (fun d => watchWriteReg d core index ext w)
def execArrCtrlWrite (core : Nat) (w : Wr) (s : State) : Host.Outcome State Fault Refusal := s.lift (fun d => arrCtrl d core w)
def execArrayIdleGate (core : Nat) (s : State) : Host.Outcome State Fault Refusal := s.lift (fun d => arrayIdle d core)
def execArrayRampStart (core : Nat) (s : State) : Host.Outcome State Fault Refusal := s.lift (fun d => rampStart d core)
def execArrayRampDone (core : Nat) (s : State) : Host.Outcome State Fault Refusal := s.lift (fun d => rampDone d core)
def execQueueEnable (core : Nat) (w : Wr) (s : State) : Host.Outcome State Fault Refusal := s.lift (fun d => qcmdWrite d core w)
def execQueueDisable (core : Nat) (w : Wr) (s : State) : Host.Outcome State Fault Refusal := s.lift (fun d => qcmdWrite d core w)
def execDoorbellWrite (agent : Agent) (queue : Nat) (value : W64) (s : State) : Host.Outcome State Fault Refusal :=
  s.lift (fun d => doorbell d agent queue value)
def execDoorbellRead (agent : Agent) (queue : Nat) (s : State) : Host.Outcome State Fault Refusal :=
  s.lift (fun d => d.emit (.word (doorbellValue d agent queue)))
def execTaskStart (queue ctx : Nat) (s : State) : Host.Outcome State Fault Refusal := s.lift (fun d => taskStart d queue ctx)
def execTaskRetire (core ctx : Nat) (s : State) : Host.Outcome State Fault Refusal := s.lift (fun d => taskRetire d core ctx)
def execSpecPoll (core ctx : Nat) (s : State) : Host.Outcome State Fault Refusal := s.lift (fun d => specPoll d core ctx)

end Sys2Proof.Machine
end

