-- ==== Sys2Proof/Machine/Governor.lean ====
section
/-! DEFINITION. The precision governor: epochs, the decision table and the width record (R129 to R145). -/

namespace Sys2Proof.Machine

/-! ### The decision table (R126, R134 to R140) -/

structure BlockEntry where
  fmt  : Nat
  exp  : Nat
  hcnt : Nat
  deriving DecidableEq, Repr

def entryOfWord (v : W64) : BlockEntry := { fmt := v.field 5 0, exp := v.field 13 6, hcnt := v.field 21 14 }

/-- The entry's word, with its reserved bits as they were. -/
def BlockEntry.word (b : BlockEntry) (old : W64) : W64 :=
  ((old.setField 5 0 b.fmt).setField 13 6 b.exp).setField 21 14 b.hcnt

structure Stats where
  absmax : Nat
  elems  : Nat
  zero   : Nat
  uf     : Nat
  sat    : Nat
  nonfin : Nat
  err    : Nat
  tdrx   : Nat
  deriving DecidableEq, Repr

/-- A counter with SAT set counts as its maximum (R135). -/
def countOf (v : W64) : Nat := if v.bit 63 then 2 ^ 63 - 1 else v.toNat

def statsOf (ws : List W64) : Stats :=
  { absmax := (wd ws 0).field 31 0, elems := countOf (wd ws 1), zero := countOf (wd ws 2), uf := countOf (wd ws 3),
    sat := countOf (wd ws 4), nonfin := countOf (wd ws 5), err := countOf (wd ws 6), tdrx := countOf (wd ws 7) }

/-- What an epoch decides for a block. -/
structure Decision where
  entry    : BlockEntry
  widen    : Bool
  narrow   : Bool
  steps    : Nat × Nat
  ovf      : Bool
  satAll   : Bool
  uf       : Bool
  tdr      : Bool
  env      : Bool
  edgeUp   : Bool
  edgeDown : Bool
  expLimit : Bool
  frozen   : Bool
  deriving DecidableEq, Repr

/-- The allowed width codes of a state (R126). -/
def allowed (e : Envelope) (role : Nat) : Nat × Nat :=
  match e.cls with
  | 0 => if role = 0 then (e.wMin, e.wMax) else (e.aMin, e.aMax)
  | 1 => if role = 2 then (3, 3) else (2, 2)
  | 2 => (4, 4)
  | _ => if role = 0 then (e.wMin, e.wMin) else (e.aMin, e.aMin)

/-- ΔE of a width code to the next wider one (R115). -/
def deltaE (family role c : Nat) : Int :=
  if family = 0 then (match c with | 1 => 2 | 2 => 4 | 3 => 8 | _ => 0)
  else match c with
    | 2 => if role = 2 then 13 else 6
    | _ => 0

def fmtOfCode (l : List (Nat × Nat)) (c : Nat) : Nat := KV.get 0 l c
def codeOfFmt (l : List (Nat × Nat)) (fmt : Nat) : Option Nat := (l.find? (fun p => p.2 == fmt)).map (fun p => p.1)

/-- The width code that replaces a format off the ladder: the narrowest ladder width not below its own, else 4 (R134). -/
def nearestCode (l : List (Nat × Nat)) (fmt : Nat) : Nat :=
  match l.find? (fun p => Fmt.codeWidth p.2 ≥ Fmt.codeWidth fmt) with
  | some p => p.1
  | none => 4

/-- The change of E along the steps from one code to another: down for widening, up for narrowing. -/
def stepsE (family role a b : Nat) : Int :=
  if a ≤ b then -(((List.range (b - a)).map (fun i => deltaE family role (a + i))).sum)
  else ((List.range (a - b)).map (fun i => deltaE family role (b + i))).sum

/-- S > T as shares of R135. -/
def shareAbove (count t elems : Nat) : Bool := count * 65536 > t * elems

/-- The largest finite magnitude of a format. -/
def maxFinite (fmt : Nat) : FVal :=
  match Fmt.ofCode fmt with
  | some (.float f) => f.decode f.maxCode
  | some (.int n) => if n = 1 then FVal.one else .num false (2 ^ (n - 1) - 1) 1
  | _ => FVal.one

/-- d of the full-saturation term (R137). -/
def fullSatD (fmt e absmax : Nat) : Nat :=
  let x := dec32 absmax
  let fits := fun (d : Nat) => !FVal.lt (FVal.mul (maxFinite fmt) (FVal.pow2 false 1 ((e : Int) + (d : Int) - 127))) x
  (((List.range 512).map (· + 1)).find? fits).getD 512

/-- The decision for one block (R134 to R138). -/
def decide1 (env : Envelope) (role : Nat) (b : BlockEntry) (s : Stats) : Decision :=
  let l := ladder env.cls env.family role
  let none' : Decision :=
    { entry := b, widen := false, narrow := false, steps := (0, 0), ovf := false, satAll := false, uf := false,
      tdr := s.tdrx != 0, env := false, edgeUp := false, edgeDown := false, expLimit := false, frozen := false }
  if env.cls = 2 then
    if b.fmt = 0x01 ∧ b.exp = 127 then none'
    else { none' with entry := { fmt := 0x01, exp := 127, hcnt := 0 }, env := true }
  else
    let rng := allowed env role
    let code0 := codeOfFmt l b.fmt
    let code := code0.getD (nearestCode l b.fmt)
    let target := if code < rng.1 then rng.1 else if code > rng.2 then rng.2 else code
    let clamped := code0.isNone || target != code
    let idle := !clamped && s.elems == 0
    let frozen := !clamped && !idle && s.nonfin > 0
    let bad := shareAbove s.sat env.tSatHi s.elems || shareAbove s.uf env.tUfHi s.elems
      || shareAbove s.err env.tErrHi s.elems || s.tdrx > 0
    let quiet := !shareAbove s.sat env.tSatLo s.elems && !shareAbove s.uf env.tUfLo s.elems
      && !shareAbove s.err env.tErrLo s.elems
    let act := !clamped && !idle && !frozen
    let widen := act && bad && target < rng.2
    let edgeUp := act && bad && !(target < rng.2)
    let due := act && !bad && quiet && b.hcnt + 1 ≥ env.hyst
    let narrow := due && target > rng.1
    let edgeDown := due && !(target > rng.1) && env.cls == 0
    let hcnt := if idle then b.hcnt else if act && !bad && quiet && !due then b.hcnt + 1 else 0
    let code' := if widen then target + 1 else if narrow then target - 1 else target
    let terms := !idle && !frozen
    let ovf := terms && s.sat > 0 && s.sat + s.zero < s.elems
    let satAll := terms && s.sat > 0 && s.sat + s.zero == s.elems
    let uf := terms && s.uf > 0 && s.uf + s.zero == s.elems
    let de : Int := (if ovf then 1 else 0) + (if satAll then (fullSatD b.fmt b.exp s.absmax : Int) else 0)
      + (if uf then -1 else 0) + stepsE env.family role code target + stepsE env.family role target code'
    let e : Int := (b.exp : Int) + de
    let up := (if code < target then target - code else 0) + (if widen then 1 else 0)
    let down := (if target < code then code - target else 0) + (if narrow then 1 else 0)
    { entry := { fmt := fmtOfCode l code', exp := (clampInt 0 254 e).toNat, hcnt := hcnt }, widen := widen, narrow := narrow,
      steps := (up, down), ovf := ovf, satAll := satAll, uf := uf, tdr := s.tdrx != 0, env := clamped, edgeUp := edgeUp,
      edgeDown := edgeDown, expLimit := decide (e < 0) || decide (e > 254), frozen := frozen }

def Decision.edge (d : Decision) : Bool := d.edgeUp || d.edgeDown || d.expLimit

/-- The block enters the width record (R141). -/
def Decision.recorded (d : Decision) (old : BlockEntry) : Bool :=
  d.entry.fmt != old.fmt || d.entry.exp != old.exp || d.env || d.edge || d.frozen

/-- A width record entry (R141). -/
def Decision.word (d : Decision) (block : Nat) : W64 :=
  BitVec.ofNat 64 (block % 2 ^ 24 + d.entry.fmt * 2 ^ 24 + d.entry.exp * 2 ^ 30
    + bitsOf [d.widen, d.narrow, d.ovf, d.satAll, d.uf, d.tdr, d.env, d.edgeUp, d.edgeDown, d.expLimit, d.frozen] * 2 ^ 38)

/-- The reason of GOV_EDGE for a block (R139). -/
def Decision.reason (d : Decision) : Nat := if d.edgeUp then 1 else if d.edgeDown then 2 else 3

/-! ### The governor's memory accesses -/

def Dev.modGov (d : Dev) (core : Nat) (f : Gov → Gov) : Dev := d.modCore core (fun k => { k with gov := f k.gov })

/-- An access of the governor that never completes (R418, R421): the epoch goes no further. -/
def Dev.govStall (d : Dev) (core : Nat) : Dev := d.modGov core (fun g => { g with stalled := true })

/-- A word that a governor reads through its core's fetch engine (log 13). -/
def Dev.govRead (d : Dev) (core va : Nat) : Dev × Option W64 :=
  let t := d.translate core va false false
  match t.2 with
  | .error (.cause c) => ((t.1.noteFault (pgFet core) 0x108 va false c 0).setIsr (pgFet core) 3, none)
  | .error (.poison _) => (t.1, none)
  | .error .stall => (t.1.govStall core, none)
  | .ok pa =>
    if !t.1.reachesFrom (core / 4) pa then (t.1.govStall core, none)
    else
      let r := t.1.load pa 8
      match r.2.2 with
      | some _ => (r.1, none)
      | none => (r.1, some (BitVec.ofNat 64 (leNat r.2.1)))

def Dev.govReads (d : Dev) (core va n : Nat) : Dev × Option (List W64) :=
  (List.range n).foldl (fun (acc : Dev × Option (List W64)) i =>
    match acc.2 with
    | none => acc
    | some ws =>
      let r := acc.1.govRead core (va + 8 * i)
      (r.1, r.2.map (fun v => ws ++ [v]))) (d, some [])

def Dev.govWrite (d : Dev) (core va : Nat) (v : W64) : Dev :=
  let t := d.translate core va true false
  match t.2 with
  | .error (.cause c) => (t.1.noteFault (pgFet core) 0x108 va true c 0).setIsr (pgFet core) 3
  | .error (.poison _) => t.1
  | .error .stall => t.1.govStall core
  | .ok pa => if !t.1.reachesFrom (core / 4) pa then t.1.govStall core else (t.1.storeWord pa v).dropCopies core (pa / 64)

def Dev.govWrites (d : Dev) (core va : Nat) (ws : List W64) : Dev :=
  ((List.range ws.length).zip ws).foldl (fun d x => d.govWrite core (va + 8 * x.1) x.2) d

/-! ### One steering state (R130) -/

structure Sweep where
  dev     : Dev
  entries : List W64
  first   : Option (Nat × Nat)
  nEdge   : Nat
  nWiden  : Nat
  nNarrow : Nat
  nExp    : Nat
  nFrozen : Nat
  ups     : Nat
  downs   : Nat
  deriving DecidableEq, Repr

def b2n (b : Bool) : Nat := if b then 1 else 0

/-- Step 3 of R130 for block b. -/
def evalBlock (core : Nat) (st : Steer) (env : Envelope) (bank : Nat) (acc : Sweep) (b : Nat) : Sweep :=
  let r := acc.dev.govRead core (st.va + 0x40 + 8 * b)
  let q := r.1.govReads core (st.record bank b) 8
  match r.2, q.2 with
  | some ew, some ws =>
    let old := entryOfWord ew
    let dec := decide1 env st.role old (statsOf ws)
    let d := if dec.entry = old then q.1 else q.1.govWrite core (st.va + 0x40 + 8 * b) (dec.entry.word ew)
    { dev := d, entries := if dec.recorded old then acc.entries ++ [dec.word b] else acc.entries,
      first := if dec.edge then acc.first.or (some (b, dec.reason)) else acc.first,
      nEdge := acc.nEdge + b2n dec.edge, nWiden := acc.nWiden + b2n dec.widen, nNarrow := acc.nNarrow + b2n dec.narrow,
      nExp := acc.nExp + b2n (dec.entry.fmt == old.fmt && dec.entry.exp != old.exp), nFrozen := acc.nFrozen + b2n dec.frozen,
      ups := acc.ups + dec.steps.1, downs := acc.downs + dec.steps.2 }
  | _, _ => { acc with dev := q.1 }

/-- The header of a width record and its entries (R141, R143). -/
def recordWords (epoch tid : Nat) (s : Sweep) (trunc : Bool) : List W64 :=
  [ BitVec.ofNat 64 (epoch % 2 ^ 48 + tid * 2 ^ 48),
    BitVec.ofNat 64 ((if trunc then 0 else s.entries.length) + s.nEdge % 2 ^ 24 * 2 ^ 32 + b2n trunc * 2 ^ 56),
    BitVec.ofNat 64 (s.nWiden % 2 ^ 32 + s.nNarrow % 2 ^ 32 * 2 ^ 32),
    BitVec.ofNat 64 (s.nExp % 2 ^ 32 + s.nFrozen % 2 ^ 32 * 2 ^ 32) ] ++ (if trunc then [] else s.entries)

/-- GOV_EDGE (R128, R139). -/
def Dev.govEdge (d : Dev) (core reason index : Nat) : Dev := d.raise (pgGov core) 0x0105 (reason * 2 ^ 30 + index % 2 ^ 24) 0

/-- Steps 1 to 3 for the state at an address; answers the record to write, none where the state cannot be read. -/
def evalState (d : Dev) (core va : Nat) : Dev × Option (List W64) :=
  let h := d.govReads core va 3
  match h.2 with
  | none => (h.1, none)
  | some ws =>
    let st := steerOf va (wd ws 0) (wd ws 1) (wd ws 2)
    let e := h.1.govReads core (h.1.regf (pgGov core) 0x118 47 0 + 32 * st.layer) 3
    match e.2 with
    | none => (e.1, none)
    | some es =>
      let env := envelopeOf (wd es 0) (wd es 1) (wd es 2)
      let epoch := (st.epoch + 1) % 2 ^ 48
      let d := e.1.govWrite core (va + 8) ((wd ws 1).setField 63 16 epoch)
      let s0 : Sweep := { dev := d, entries := [], first := none, nEdge := 0, nWiden := 0, nNarrow := 0, nExp := 0,
                          nFrozen := 0, ups := 0, downs := 0 }
      let size := d.regf (pgGov core) 0x138 31 0
      if env.invalid ∨ st.role = 3 then
        (d.govEdge core 0 0xFFFFFF, some (recordWords epoch st.tid s0 (decide (40 > size))))
      else
        let s := (List.range st.nblk).foldl (evalBlock core st env (st.epoch % 2)) s0
        let page := pgGov core
        let d := (((s.dev.count page 0x02 st.nblk).count page 0x03 s.ups).count page 0x04 s.downs).count page 0x05 s.nEdge
        let d := match s.first with
          | some f => d.govEdge core f.2 f.1
          | none => d
        (d, some (recordWords epoch st.tid s (decide (40 + 8 * s.entries.length > size))))

/-- Step 5: the closed bank becomes zero. -/
def zeroBank (d : Dev) (core va : Nat) : Dev :=
  let h := d.govReads core va 3
  match h.2 with
  | none => h.1
  | some ws =>
    let st := steerOf va (wd ws 0) (wd ws 1) (wd ws 2)
    h.1.govWrites core (st.record ((st.epoch + 1) % 2) 0) (List.replicate (40 * st.nblk) 0)

/-! ### The width-record ring (R141, R142) -/

def ringFree (size head tail : Nat) : Nat := if head ≥ tail then size - (head - tail) else tail - head

/-- A record put into the ring, after a filler where it would wrap; none where the ring lacks room. The flag tells
whether a filler alone was written. -/
def putRecord (d : Dev) (core : Nat) (ws : List W64) : Dev × Bool :=
  let page := pgGov core
  let size := d.regf page 0x138 31 0
  let tail := d.regf page 0x148 31 0
  let base := d.regf page 0x130 47 0
  let len := 8 * ws.length
  let head := d.regf page 0x140 31 0
  let rest := size - head
  let fill := decide (head + len > size ∧ head < size)
  let d' := if fill && rest + 8 ≤ ringFree size head tail then
      (d.govWrites core (base + head) (List.replicate (if rest ≥ 32 then 4 else rest / 8) 0)).setf page 0x140 31 0 0
    else d
  let head' := d'.regf page 0x140 31 0
  if head' + len ≤ size ∧ len + 8 ≤ ringFree size head' tail then
    ((d'.govWrites core (base + head') ws).setf page 0x140 31 0 (if head' + len = size then 0 else head' + len), true)
  else (d', false)

/-! ### The epoch (R129 to R133, R468) -/

/-- The address of state i of the list. -/
def listAddr (d : Dev) (core i : Nat) : Dev × Option Nat :=
  let r := d.govRead core (d.regf (pgGov core) 0x120 47 0 + 8 * i)
  (r.1, r.2.map (fun v => v.field 47 0))

/-- The governor works on until the epoch's last state is done, a record waits for room, or HALT stops it. -/
def govRun : Nat → Dev → Nat → Dev
  | 0, d, _ => d
  | n + 1, d, core =>
    let g := (d.core core).gov
    if !g.busy || g.ended || g.stalled then d
    else if !g.waitRec.isEmpty then
      let r := putRecord d core g.waitRec
      if r.2 then
        let d := if (wd g.waitRec 1).bit 56 then r.1.setIsr (pgGov core) 3 else r.1
        let a := listAddr d core g.idx
        let d := match a.2 with | some va => zeroBank a.1 core va | none => a.1
        govRun n (d.modGov core (fun g => { g with waitRec := [], idx := g.idx + 1 })) core
      else r.1.setIsr (pgGov core) 2
    else if g.idx ≥ d.regf (pgGov core) 0x128 15 0 then d.modGov core (fun g => { g with ended := true })
    else if d.regb (pgGov core) 0x010 2 then d
    else
      let a := listAddr d core g.idx
      match a.2 with
      | none => govRun n (a.1.modGov core (fun g => { g with idx := g.idx + 1 })) core
      | some va =>
        let e := evalState a.1 core va
        match e.2 with
        | none => govRun n (e.1.modGov core (fun g => { g with idx := g.idx + 1 })) core
        | some ws => govRun n (e.1.modGov core (fun g => { g with waitRec := ws })) core

def govFuel (d : Dev) (core : Nat) : Nat := 2 * d.regf (pgGov core) 0x128 15 0 + 3

/-- The governor goes on where it stands. -/
def govResume (d : Dev) (core : Nat) : Dev := if d.coreLive core then govRun (govFuel d core) d core else d

/-- An epoch begins. -/
def govStart (d : Dev) (core : Nat) : Dev :=
  govResume (d.modGov core (fun g => { g with busy := true, idx := 0, waitRec := [], ended := false })) core

/-- A trigger (R129, R133): it begins an epoch, is held while one runs, or is merged. -/
def govTrigger (d : Dev) (core : Nat) : Dev :=
  if !d.coreLive core then d
  else
    let g := (d.core core).gov
    if !g.busy then govStart d core
    else if !g.held then d.modGov core (fun g => { g with held := true })
    else d.count (pgGov core) 0x08 1

/-- The end of an epoch (R130, R133). -/
def govEnd (d : Dev) (core : Nat) : Dev :=
  let g := (d.core core).gov
  if !d.coreLive core || !g.busy || !g.ended then d
  else
    let n := g.epochs + 1
    let d := d.govWrite core (d.regf (pgGov core) 0x150 47 0) (BitVec.ofNat 64 n)
    let d := d.modGov core (fun g => { g with busy := false, ended := false, epochs := n, idx := 0 })
    let d := (d.setIsr (pgGov core) 0).count (pgGov core) 0x01 1
    if g.held then govStart (d.modGov core (fun g => { g with held := false })) core else d

/-- GOV_EPOCH written. -/
def epochWrite (d : Dev) (core : Nat) (w : Wr) : Dev :=
  if d.mayWrite w.agent (pgGov core) 0x108 && wrHit w 0 then govTrigger d core else d

/-- GOV_WREC_TAIL written: a waiting governor resumes (R142). -/
def tailWrite (d : Dev) (core : Nat) (w : Wr) : Dev :=
  if d.mayWrite w.agent (pgGov core) 0x148 then
    govResume (d.setf (pgGov core) 0x148 31 0 ((d.merged (pgGov core) 0x148 w).field 31 0)) core
  else d

def execEpochTrigger (core : Nat) (w : Wr) (s : State) : Host.Outcome State Fault Refusal := s.lift (fun d => epochWrite d core w)
def execEpochEnd (core : Nat) (s : State) : Host.Outcome State Fault Refusal := s.lift (fun d => govEnd d core)
def execGovWrecTailWrite (core : Nat) (w : Wr) (s : State) : Host.Outcome State Fault Refusal := s.lift (fun d => tailWrite d core w)

end Sys2Proof.Machine
end

