-- ==== Sys2Proof/Machine/Time.lean ====
section
/-! DEFINITION. The frame-time scheduler: station time, sources, the raster, holdover and relock, scheduled events, and the
followers of the halves (R42, R270 to R286, R289, R582). -/

namespace Sys2Proof.Machine

/-! ### Rates and lengths (R273) -/

def okRates : List (Nat × Nat) :=
  [(24000, 1001), (24, 1), (25, 1), (30000, 1001), (30, 1), (48000, 1001), (48, 1), (50, 1), (60000, 1001), (60, 1), (100, 1),
   (120000, 1001), (120, 1)]

def Dev.ftsNum (d : Dev) : Nat := d.regf pgFts 0x108 31 0
def Dev.ftsDen (d : Dev) : Nat := d.regf pgFts 0x108 63 32
def Dev.ftsFrame (d : Dev) : Nat := d.regf pgFts 0x128 47 0
def Dev.ftsLine (d : Dev) : Nat := d.regf pgFts 0x130 13 0
def Dev.ftsTime (d : Dev) : Nat := (d.reg pgFts 0x118).toNat
def Dev.fsrc (d : Dev) : Bool := d.regb pgFts 0x100 3
def Dev.slewing (d : Dev) : Bool := d.regb pgFts 0x138 2

/-- The nominal frame period in ns, rounded down. -/
def Dev.framePeriod (d : Dev) : Nat := if d.ftsNum = 0 then 0 else d.ftsDen * 10 ^ 9 / d.ftsNum

/-- The length of a raster line in ns: of the measured period once two edges have been accepted (R276, R277). -/
def Dev.lineLength (d : Dev) : Nat :=
  (if d.fsrc && d.fts.edges ≥ 2 then d.fts.period else d.framePeriod) / max 1 d.rasterLines

def Dev.modFts (d : Dev) (f : Fts → Fts) : Dev := { d with fts := f d.fts }

/-- FTS_STAT.LOCKED, which no rule defines: a free value. -/
def Dev.freshLocked (d : Dev) : Dev :=
  let r := d.takeFree
  r.1.setb pgFts 0x138 0 (r.2.bit 0)

/-! ### Followers (R275, R282 to R286) -/

/-- A follower takes a boundary: FRAME record, releases, HELD tasks and deadlines. Releases and deadlines run on in an eclipse, in
which the dispatchers stand (R555). -/
def Dev.applyBoundary (d : Dev) (h frame line : Nat) : Dev :=
  let d := d.modHalf h (fun x => { x with schFrame := frame, schLine := line })
  if !d.running h ∨ (d.half h).isolated ∨ !d.ftsLive then d
  else
    let d := if line = 0 then d.trace (pgSch h) 0x20 none (BitVec.ofNat 64 frame) 0 else d
    let d := d.queues.foldl (fun d y => if y.1 / 32768 = h then (d.releaseQueue y.1 frame line).checkReleased h y.1 else d) d
    (List.range 4).foldl (fun d i =>
      let c := 4 * h + i
      let d := (d.core c).ctxs.foldl (fun d y => (d.checkDeadline h c y.1).checkRelease c y.1) d
      if d.coreLive c then d.settle c else d) d

/-- The next boundary that FTS has sent to a follower takes effect there. -/
def schApply (d : Dev) (h : Nat) : Dev :=
  match (d.half h).schQueue with
  | [] => d
  | (f, l) :: rest => (d.modHalf h (fun x => { x with schQueue := rest })).applyBoundary h f l

/-- FTS sends a boundary to both followers. -/
def Dev.sendBoundary (d : Dev) : Dev :=
  (List.range 2).foldl (fun d h =>
    if d.running h then d.modHalf h (fun x => { x with schQueue := x.schQueue ++ [(d.ftsFrame, d.ftsLine)] }) else d) d

/-! ### Scheduled events (R129, R268, R281) -/

def Dev.settleAll (d : Dev) : Dev := (List.range 8).foldl (fun d c => d.settle c) d

/-- A window opens; one whose end is not later than its start closes at once. A checkpoint that waits for one begins (R456). -/
def Dev.openWindow (d : Dev) (check : Bool) (cores endFrame endLine : Nat) : Dev :=
  let begun := { d.svc with ckpt := d.svc.ckpt.map (fun (k : CkptReq) => { k with begun := true }) }
  let d := if check then { d with svc := begun }.setIsr pgFts 3 else d
  let now := d.posOf d.ftsFrame d.ftsLine
  if posReached (d.posOf endFrame endLine) now then d
  else (d.modFts (fun f => { f with windows := f.windows ++ [{ checkpoint := check, cores := cores, endFrame := endFrame, endLine := endLine }] })).settleAll

def Dev.fireEvent (d : Dev) (i : Nat) : Dev :=
  let a := d.reg pgFts (0x200 + 16 * i)
  let b := d.reg pgFts (0x208 + 16 * i)
  let every := max 1 (a.field 39 24)
  let cores := a.field 9 2
  if a.field 1 0 = 0 ∨ a.field 23 10 ≠ d.ftsLine ∨ d.ftsFrame % every ≠ a.field 55 40 then d
  else
    match a.field 1 0 with
    | 1 =>
      (List.range 8).foldl (fun d c =>
        if cores.testBit c && d.coreLive c && d.regb (pgGov c) 0x100 0 then govTrigger d c else d) d
    | 2 => d.openWindow true 0 (d.ftsFrame + b.field 29 14) (b.field 13 0)
    | _ => d.openWindow false cores (d.ftsFrame + b.field 29 14) (b.field 13 0)

/-- Windows whose end has come close. -/
def Dev.closeWindows (d : Dev) : Dev :=
  let ends := fun (w : Window) => w.endFrame % 2 ^ 48 == d.ftsFrame && w.endLine == d.ftsLine
  let gone := d.fts.windows.filter ends
  if gone.isEmpty then d
  else
    let d := d.modFts (fun f => { f with windows := f.windows.filter (fun w => !ends w) })
    (if gone.any (fun w => w.checkpoint) then d.setIsr pgFts 3 else d).settleAll

def Dev.boundaryEvents (d : Dev) : Dev := (List.range 64).foldl (fun d i => d.fireEvent i) d.closeWindows

/-! ### The raster (R273, R274, R276, R277, R280) -/

/-- One frame's slew: at most one raster line, until the phase is below one TCLK cycle (R280). -/
def Dev.slewStep (d : Dev) : Dev :=
  if !d.slewing then d
  else
    let phase := (d.reg pgFts 0x140).toInt
    let line : Int := (d.lineLength : Nat)
    let step := clampInt (-line) line phase
    let rest := phase - step
    let d := (d.setReg pgFts 0x140 (BitVec.ofInt 64 rest)).count pgFts 0x04 1
    let d := d.modFts (fun f => { f with lastEdge := ((f.lastEdge : Int) - step).toNat })
    if -4 < rest ∧ rest < 4 then (d.setb pgFts 0x138 2 false).setIsr pgFts 2 else d

/-- A frame starts. -/
def Dev.startFrame (d : Dev) (advance : Bool) : Dev :=
  let d := if advance then d.setf pgFts 0x128 47 0 (d.ftsFrame + 1) else d
  let d := (d.setf pgFts 0x130 13 0 0).count pgFts 0x01 1
  (d.modFts (fun f => { f with frameEnd := false })).freshLocked

/-- FRAME_IN starts frames: selected, present, and the raster not being slewed to it. -/
def Dev.edgeDriven (d : Dev) : Bool := d.fsrc && !d.fts.lost.contains 7 && !d.slewing

def Dev.tsrc (d : Dev) : Nat := d.regf pgFts 0x100 2 0

/-- The source is in use; FRAME_IN is lost only when two expected edges in a row have not been accepted (R278). -/
def Dev.sourceUsed (d : Dev) (src : Nat) : Bool :=
  (src == d.tsrc && 1 ≤ src && src ≤ 4) || (src == 7 && d.fsrc && d.ftsLive && d.fts.missed ≥ 2)

def sourceLoss (d : Dev) (src : Nat) : Dev :=
  if !d.up ∨ !d.sourceUsed src ∨ d.fts.lost.contains src then d
  else
    let d := d.modFts (fun f => { f with lost := lineAdd f.lost src, refOk := if src = 3 ∨ src = 4 then false else f.refOk })
    (((d.setb pgFts 0x138 1 true).count pgFts 0x03 1).raise pgFts 0x0402 (src * 2 ^ 29) 0).freshLocked

/-- FTS reaches a raster-line boundary. The last line of a frame that FRAME_IN starts lasts until its edge, at most one line
longer; a frame whose edge is missed then starts without it. -/
def rasterBoundary (d : Dev) : Dev :=
  if !d.ftsActive ∨ d.acquiring then d
  else if d.ftsLine + 1 < d.rasterLines then ((d.setf pgFts 0x130 13 0 (d.ftsLine + 1)).sendBoundary).boundaryEvents
  else if d.edgeDriven && !d.fts.frameEnd then d.modFts (fun f => { f with frameEnd := true })
  else
    let d := if d.edgeDriven then sourceLoss (d.modFts (fun f => { f with missed := f.missed + 1 })) 7 else d
    let d := if d.fsrc then d.modFts (fun f => { f with lastEdge := f.lastEdge + (if f.edges ≥ 2 then f.period else d.framePeriod) }) else d
    (((d.startFrame true).slewStep).sendBoundary).boundaryEvents

/-- Both followers act on an accepted FRAME_IN edge themselves (R42, R275). -/
def Dev.edgeBoundary (d : Dev) : Dev :=
  let d := (List.range 2).foldl (fun d h => if d.running h then d.applyBoundary h d.ftsFrame 0 else d) d
  d.boundaryEvents

/-- A filtered FRAME_IN edge (R276, R277). An accepted one aligns the raster with its reference, which ends a slew (R280). -/
def frameInEdge (d : Dev) (rising : Bool) (at' : Nat) : Dev :=
  if !d.ftsActive ∨ !d.fsrc ∨ rising = d.regb pgFts 0x100 5 then d
  else if d.acquiring then
    let d := (d.setb pgFts 0x138 5 false).modFts (fun f => { f with edges := 1, lastEdge := at', period := 0, missed := 0 })
    (d.startFrame false).edgeBoundary
  else
    let expect := d.fts.lastEdge + (if d.fts.edges ≥ 2 then d.fts.period else d.framePeriod)
    let off := if at' ≥ expect then at' - expect else expect - at'
    if off > d.lineLength then d.count pgFts 0x02 1
    else
      let d := d.modFts (fun f => { f with edges := f.edges + 1, period := at' - f.lastEdge, lastEdge := at', missed := 0 })
      let d := if d.slewing then ((d.setb pgFts 0x138 2 false).setReg pgFts 0x140 0).setIsr pgFts 2 else d
      (d.startFrame true).edgeBoundary

/-! ### Sources (R271, R272, R278 to R280, R582) -/

/-- FTS_INC as the discipline of a hardware source leaves it: within 200 ppm of 4 ns, otherwise free. -/
def Dev.discipline (d : Dev) : Dev :=
  if d.regb pgFts 0x138 1 then d
  else
    let r := d.takeFree
    r.1.setReg pgFts 0x120 (BitVec.ofNat 64 (0x400000000 - 3435973 + r.2.toNat % (2 * 3435973 + 1)))

/-- A PPS_IN edge: stamped, and with TSRC 2 it disciplines station time. -/
def ppsIn (d : Dev) (at' : Nat) : Dev :=
  if !d.up then d
  else
    let d := d.modFts (fun f => { f with ppsNs := at' })
    if d.tsrc = 2 then d.discipline else d

/-- A REF_IN edge: with TSRC 3 or 4 it disciplines the frequency and restarts the loss watch. -/
def refIn (d : Dev) : Dev :=
  if !d.up then d
  else
    let d := d.modFts (fun f => { f with refOk := true })
    if d.tsrc = 3 ∨ d.tsrc = 4 then d.discipline else d

/-- The PTP client takes part in the exchange: its domain, and the delay mechanism that FTS_PTP.P2P selects. -/
def Dev.ptpTakes (d : Dev) (m : PtpMsg) : Bool :=
  m.domain == d.regf pgFts 0x150 7 0 &&
    (match m.kind with
     | .sync => true
     | .delay => !d.regb pgFts 0x150 8
     | .peerDelay => d.regb pgFts 0x150 8)

/-- A PTP event message is timestamped at the MAC (R272). With TSRC 1 the client's servo disciplines FTS_INC, and with RATE_PTP the
rate of a Synchronization Metadata TLV enters FTS_RATE while RUN is 0 (R273). -/
def ptpEvent (d : Dev) (m : PtpMsg) (port : Nat) : Dev :=
  if !d.up ∨ port ≥ 2 then d
  else
    let d := d.modFts (fun f => { f with ptpStamp := d.ftsTime })
    if !d.ptpTakes m then d
    else
      let d := if d.tsrc = 1 then d.discipline else d
      match m.rate with
      | some r =>
        if d.regb pgFts 0x100 4 && !d.ftsRun then
          (d.setReg pgFts 0x108 (BitVec.ofNat 64 (r.1 % 2 ^ 32 + r.2 % 2 ^ 32 * 2 ^ 32))).setb pgFts 0x138 3 (!okRates.contains (r.1 % 2 ^ 32, r.2 % 2 ^ 32))
        else d
      | none => d

/-- A source that has come back (R280). For PTP firmware first steps station time to the master's, a free value (log 90). -/
def relock (d : Dev) (src : Nat) (phase : Int) (same : Bool) : Dev :=
  if !d.up ∨ !d.fts.lost.contains src then d
  else
    let d := d.modFts (fun f => { f with lost := f.lost.filter (· != src), missed := 0 })
    let d := if d.fts.lost.isEmpty then d.setb pgFts 0x138 1 false else d
    let d := if src = 1 then (let f := d.takeFree; (f.1.setReg pgFts 0x118 f.2).modFts (fun x => { x with frac := 0 })) else d
    let d := ((d.setb pgFts 0x138 2 true).setReg pgFts 0x140 (BitVec.ofInt 64 phase)).setIsr pgFts 1
    let d := if same then d else d.setb pgFts 0x138 4 true
    let d := d.freshLocked
    if -4 < phase ∧ phase < 4 then (d.setb pgFts 0x138 2 false).setIsr pgFts 2 else d

/-! ### Register writes (R270, R271, R273, R274, R277, R289) -/

def ftsTimeWrite (d : Dev) (w : Wr) : Dev :=
  if d.mayWrite w.agent pgFts 0x118 then (d.setReg pgFts 0x118 (d.merged pgFts 0x118 w)).modFts (fun f => { f with frac := 0 }) else d

/-- RUN is set with an accepted rate: the computed raster takes its place by station time (R274), and FRAME_IN begins acquisition (R277). -/
def Dev.startRaster (d : Dev) : Dev :=
  if !d.ftsActive then d
  else if d.fsrc then
    ((d.setb pgFts 0x138 5 true).setf pgFts 0x130 13 0 0).modFts (fun f => { f with edges := 0, missed := 0, frameEnd := false })
  else if d.ftsDen = 0 ∨ d.rasterLines = 0 then d
  else
    let n := d.ftsTime * d.ftsNum
    let unit := d.ftsDen * 10 ^ 9
    let d := d.setf pgFts 0x128 47 0 (n / unit)
    let d := d.setf pgFts 0x130 13 0 (n % unit * d.rasterLines / unit)
    (List.range 2).foldl (fun d h => d.modHalf h (fun x => { x with schFrame := d.ftsFrame, schLine := d.ftsLine, schQueue := [] })) d

def ftsCtrlWrite (d : Dev) (w : Wr) : Dev :=
  if !d.mayWrite w.agent pgFts 0x100 then d
  else
    let v := d.merged pgFts 0x100 w
    let ran := d.ftsRun
    let t := v.field 2 0
    let d := if t ≤ 4 then
        let d := (d.setf pgFts 0x100 2 0 t).setb pgFts 0x138 6 false
        let d := d.modFts (fun f => { f with lost := f.lost.filter (fun s => s == 7 || s == t) })
        if d.fts.lost.isEmpty then d.setb pgFts 0x138 1 false else d
      else d.setb pgFts 0x138 6 true
    let d := if ran then d else d.setf pgFts 0x100 3 3 (v.field 3 3)
    let d := d.setf pgFts 0x100 6 4 (v.field 6 4)
    if !ran && v.bit 6 then d.startRaster
    else if ran && !v.bit 6 then
      (d.setb pgFts 0x138 5 false).modFts (fun f => { f with lost := f.lost.filter (· != 7) })
    else d

/-- FTS_RATE, FTS_RASTER and FTS_FRAME take writes only while RUN is 0; FTS_INC is frozen in holdover. -/
def ftsPlain (d : Dev) (off : Nat) (w : Wr) : Dev :=
  if !d.mayWrite w.agent pgFts off then d
  else if (off = 0x108 ∨ off = 0x110 ∨ off = 0x128) ∧ d.ftsRun then d
  else if off = 0x120 ∧ d.regb pgFts 0x138 1 then d
  else
    let d := d.plainWrite pgFts off w
    if off = 0x108 then d.setb pgFts 0x138 3 (!okRates.contains (d.ftsNum, d.ftsDen))
    else if off = 0x148 then d.settleAll
    else d

/-- Station time advances by FTS_INC, one TCLK cycle (R270). -/
def Dev.timeTick (d : Dev) : Dev :=
  let sum := d.fts.frac + d.regf pgFts 0x120 39 0
  (d.setReg pgFts 0x118 (BitVec.ofNat 64 (d.ftsTime + sum / 2 ^ 32))).modFts (fun f => { f with frac := sum % 2 ^ 32 })

def execRasterLineBoundary (s : State) : Host.Outcome State Fault Refusal := s.lift rasterBoundary
def execSchBoundaryApply (half : Nat) (s : State) : Host.Outcome State Fault Refusal := s.lift (fun d => schApply d half)
def execFrameInEdge (rising : Bool) (atNs : Nat) (s : State) : Host.Outcome State Fault Refusal := s.lift (fun d => frameInEdge d rising atNs)
def execPpsInEdge (atNs : Nat) (s : State) : Host.Outcome State Fault Refusal := s.lift (fun d => ppsIn d atNs)
def execPtpEventMessage (msg : PtpMsg) (port : Nat) (s : State) : Host.Outcome State Fault Refusal := s.lift (fun d => ptpEvent d msg port)
def execSourceLoss (src : SourceCode) (s : State) : Host.Outcome State Fault Refusal := s.lift (fun d => sourceLoss d src)
def execRelockStart (src : SourceCode) (phase : Int) (sameFrame : Bool) (s : State) : Host.Outcome State Fault Refusal :=
  s.lift (fun d => relock d src phase sameFrame)
def execFtsTimeWrite (w : Wr) (s : State) : Host.Outcome State Fault Refusal := s.lift (fun d => ftsTimeWrite d w)
def execFtsCtrlWrite (w : Wr) (s : State) : Host.Outcome State Fault Refusal := s.lift (fun d => ftsCtrlWrite d w)
def execRefInEdge (s : State) : Host.Outcome State Fault Refusal := s.lift refIn

end Sys2Proof.Machine
end

