-- ==== Sys2Proof/Machine/Header.lean ====
section
/-! DEFINITION. The common page header: enable, re-initialise and halt, error records and counter slots, and the control
register of the table engine (R354, R448, R462, R465 to R474). -/

namespace Sys2Proof.Machine

/-! ### Resets of a mailbox receiver (R448) -/

/-- GO of every channel whose receiver is an agent clears. -/
def Dev.clearGoFor (d : Dev) (agent : Nat) : Dev :=
  (List.range 32).foldl (fun d c => if d.mbxReceiver c = agent ∧ d.mbxGoBit c then d.setGo c false else d) d

/-! ### BLK_CTRL (R466 to R470) -/

/-- The core control processor restarts from its verified image. -/
def Dev.ccpRestart (d : Dev) (c : Nat) : Dev :=
  (d.clearGoFor (5 + c)).modCore c (fun k => { k with ccpRun := (KV.find? d.sec.ccpImages c).isSome })

def Core.tableBusy (k : Core) : Bool := k.ctxs.any (fun x => x.2.state == .running && x.2.cur.opc == 4)

/-- A running TABLE ends ABORTED, with the tiles that it has written (R352). -/
def Dev.tblAbort (d : Dev) (c : Nat) : Dev :=
  (d.core c).ctxs.foldl (fun d y =>
    if y.2.state = .running ∧ y.2.cur.opc = 4 ∧ y.2.status = 0 then d.setCtx c y.1 { y.2 with status := 6 } else d) d

/-- What re-initialisation does at its start. -/
def Dev.finitStart (d : Dev) (b : Blk) (i : Nat) : Dev :=
  match b with
  | .dsp => dspFinitStart d i
  | .upd => updFinitWork d i
  | .tbl => d.tblAbort i
  | .core => d.ccpRestart i
  | .fab => if d.portState i = 0 then d.modPort i (fun p => p.downed) else d.train i 0
  | _ => d

def hasFinit (b : Blk) : Bool := [Blk.dsp, .upd, .tbl, .arr, .core, .fab].contains b
def hasHalt (b : Blk) : Bool := [Blk.dsp, .upd, .gov, .tbl].contains b

/-- SECURE_ONLY can be written, by a secure agent (R469). -/
def hasSecureOnly (b : Blk) : Bool := !([Blk.sec, .mbx, .sys].contains b)

/-- A write to BLK_CTRL. -/
def blkCtrl (d : Dev) (page : Nat) (w : Wr) : Dev :=
  if !d.mayWrite w.agent page 0x010 then d
  else
    match pageBlk page with
    | none => d
    | some (b, i) =>
      let v := d.merged page 0x010 w
      let d := if hasSecureOnly b && d.agentSecure w.agent then d.setb page 0x010 3 (v.bit 3) else d
      let wasHalted := d.regb page 0x010 2
      let d := if hasHalt b then d.setb page 0x010 2 (v.bit 2) else d
      let wasOn := d.regb page 0x010 0
      let d := if b = .upd then
          let d := d.setb page 0x010 0 (v.bit 0)
          if v.bit 0 && !wasOn then updEnableWork d i else d
        else d
      let d := if b = .gov && wasHalted && !v.bit 2 then govResume d i else d
      if hasFinit b && wrHit w 1 && !d.regb page 0x010 1 then (d.setb page 0x010 1 true).finitStart b i else d

/-- The same for a block's instance. -/
def blkCtrlOf (d : Dev) (b : Blk) (i : Nat) (w : Wr) : Dev := if pageBlk (b.page i) = some (b, i) then blkCtrl d (b.page i) w else d

/-- Both tag valid bits of every array of a core clear (R467). -/
def Dev.clearTags (d : Dev) (c : Nat) : Dev :=
  d.modCore c (fun k => { k with arrays := k.arrays.map (fun a =>
    { cur := { a.cur with valid := false }, shd := { a.shd with valid := false } }) })

/-- Re-initialisation of a function ends. -/
def finitDone (d : Dev) (page : Nat) : Dev :=
  match pageBlk page with
  | none => d
  | some (b, i) =>
    if !hasFinit b || !d.present page || !((pageHalf page).any d.running) || !d.regb page 0x010 1 then d
    else
      match b with
      | .dsp => dspFinitEnd d i
      | .upd => (d.setb page 0x010 1 false).refill i
      | .tbl => if (d.core i).tableBusy then d else d.setb page 0x010 1 false
      | .arr => if (d.core i).arraysBusy then d else (d.clearTags i).setb page 0x010 1 false
      | _ => d.setb page 0x010 1 false

/-! ### Error records and counters (R472 to R474) -/

/-- A write to ERR_CTRL. -/
def errCtrl (d : Dev) (page : Nat) (w : Wr) : Dev :=
  if !d.mayWrite w.agent page 0x058 then d
  else
    let d := d.plainWrite page 0x058 w
    if wrHit w 0 then [0x030, 0x038, 0x040, 0x048, 0x050].foldl (fun d o => d.setReg page o 0) d else d

/-- A write to CNT_CTRL. -/
def cntCtrl (d : Dev) (page : Nat) (w : Wr) : Dev :=
  if !d.mayWrite w.agent page 0x0E0 then d
  else
    let d := d.plainWrite page 0x0E0 w
    (List.range 8).foldl (fun d i => if wrHit w i then d.setReg page (0x0A0 + 8 * i) 0 else d) d

/-- A write to CNT_SEL of a slot. -/
def cntSel (d : Dev) (page i : Nat) (w : Wr) : Dev :=
  let off := 0x060 + 8 * i
  if i ≥ 8 || !d.mayWrite w.agent page off then d
  else
    let old := d.regf page off 7 0
    let v := d.merged page off w
    let d := (d.plainWrite page off w).setf page off 7 0 (v.field 7 0)
    if v.field 7 0 = old then d else d.setReg page (0x0A0 + 8 * i) 0

/-! ### TBL_CTRL (R335, R354) -/

/-- A write to TBL_CTRL takes effect only while no TABLE runs, and to W_FMT only with a width of R335. -/
def tblCtrl (d : Dev) (c : Nat) (w : Wr) : Dev :=
  if c ≥ 8 || !d.mayWrite w.agent (pgTbl c) 0x100 || (d.core c).tableBusy then d
  else
    let v := d.merged (pgTbl c) 0x100 w
    let fmt := if planesOf (v.field 5 0) = 0 then d.regf (pgTbl c) 0x100 5 0 else v.field 5 0
    d.setReg (pgTbl c) 0x100 (BitVec.ofNat 64 (fmt + v.field 9 6 * 64))

def execDspFinit (core : Nat) (w : Wr) (s : State) : Host.Outcome State Fault Refusal := s.lift (fun d => blkCtrlOf d .dsp core w)
def execDspHalt (core : Nat) (w : Wr) (s : State) : Host.Outcome State Fault Refusal := s.lift (fun d => blkCtrlOf d .dsp core w)
def execUpdFinit (half : Nat) (w : Wr) (s : State) : Host.Outcome State Fault Refusal := s.lift (fun d => blkCtrlOf d .upd half w)
def execUpdHalt (half : Nat) (w : Wr) (s : State) : Host.Outcome State Fault Refusal := s.lift (fun d => blkCtrlOf d .upd half w)
def execUpdEnable (half : Nat) (w : Wr) (s : State) : Host.Outcome State Fault Refusal := s.lift (fun d => blkCtrlOf d .upd half w)
def execTblFinit (core : Nat) (w : Wr) (s : State) : Host.Outcome State Fault Refusal := s.lift (fun d => blkCtrlOf d .tbl core w)
def execTblHalt (core : Nat) (w : Wr) (s : State) : Host.Outcome State Fault Refusal := s.lift (fun d => blkCtrlOf d .tbl core w)
def execArrFinit (core : Nat) (w : Wr) (s : State) : Host.Outcome State Fault Refusal := s.lift (fun d => blkCtrlOf d .arr core w)
def execCoreFinit (core : Nat) (w : Wr) (s : State) : Host.Outcome State Fault Refusal := s.lift (fun d => blkCtrlOf d .core core w)
def execFabFinit (port : Nat) (w : Wr) (s : State) : Host.Outcome State Fault Refusal := s.lift (fun d => blkCtrlOf d .fab port w)
def execGovHalt (core : Nat) (w : Wr) (s : State) : Host.Outcome State Fault Refusal := s.lift (fun d => blkCtrlOf d .gov core w)
def execFinitDone (page : Nat) (s : State) : Host.Outcome State Fault Refusal := s.lift (fun d => finitDone d page)
def execErrClear (page : Nat) (w : Wr) (s : State) : Host.Outcome State Fault Refusal := s.lift (fun d => errCtrl d page w)
def execCntClear (page : Nat) (w : Wr) (s : State) : Host.Outcome State Fault Refusal := s.lift (fun d => cntCtrl d page w)
def execCntSelWrite (page slot : Nat) (w : Wr) (s : State) : Host.Outcome State Fault Refusal := s.lift (fun d => cntSel d page slot w)
def execTblCtrlWrite (core : Nat) (w : Wr) (s : State) : Host.Outcome State Fault Refusal := s.lift (fun d => tblCtrl d core w)

end Sys2Proof.Machine
end

