-- ==== Sys2Proof/Machine/Memory.lean ====
section
/-! DEFINITION. Memory modules, codes, scrubbing, training, the drawbar and UCIe links, far-store flushes and carve-outs,
and the invalidation of translations (R199, R207, R394 to R428, R520, R523). -/

namespace Sys2Proof.Machine

/-! ### Invalidation (R207, R242) -/

/-- A virtual page number lies in the range that SYS_TLBI names. -/
def inTlbi (v : W64) (page : Nat) : Bool :=
  match v.field 49 48 with
  | 0 => true
  | 1 => page == v.field 47 16
  | 2 => page / 32 == v.field 47 21
  | _ => false

/-- A write to SYS_TLBI loads VA and SIZE, and with GO starts the invalidation of what they name (R15, R242). -/
def tlbInvalidate (d : Dev) (w : Wr) : Dev :=
  if !d.mayWrite w.agent pgSys 0x408 || d.regb pgSys 0x410 0 then d
  else
    let v := d.merged pgSys 0x408 w
    let d := d.setReg pgSys 0x408 (v.setBit 63 false)
    if wrHit w 63 && v.field 49 48 ≠ 3 then d.setb pgSys 0x410 0 true else d

/-- A collective holds a translation of the range. -/
def Dev.collHolds (d : Dev) (v : W64) : Bool :=
  d.nis.any (fun n => n.2.colls.any (fun c => c.maps.any (fun m => inTlbi v m.1)))

/-- No translation of the range is left, and no access that used one. -/
def tlbiDone (d : Dev) : Dev :=
  let v := d.reg pgSys 0x408
  if !d.up || !d.regb pgSys 0x410 0 || d.collHolds v then d
  else
    let d := { d with tlbs := d.tlbs.filter (fun t => !inTlbi v (t.1 % 2 ^ 32)), ptSeen := d.ptSeen.filter (fun p => !inTlbi v p.1) }
    d.setb pgSys 0x410 0 false

/-! ### Lines of a far store -/

/-- Dirty lines of a far store that pass a test reach DRAM and stay there clean. -/
def Dev.clean (d : Dev) (h : Nat) (p : Nat → Bool) : Dev :=
  let go := (d.half h).lines.filter (fun f => f.dirty && p f.line)
  let d := go.foldl (fun d f => d.writeBack h f.line) d
  d.modHalf h (fun x => { x with lines := x.lines.map (fun f => if p f.line then { f with dirty := false } else f) })

/-- Some of a list, as free values choose. -/
def Dev.someOf (d : Dev) (l : List Nat) : Dev × List Nat :=
  l.foldl (fun acc x => let r := acc.1.takeFree; (r.1, if r.2.bit 0 then acc.2 ++ [x] else acc.2)) (d, [])

/-- A flush of a far store starts (R520): some dirty lines reach DRAM at once, the others by its end. -/
def Dev.flushStart (d : Dev) (h : Nat) : Dev :=
  let dirty := ((d.half h).lines.filter (fun f => f.dirty)).map (fun f => f.line)
  let r := d.someOf dirty
  let d := r.1.clean h (fun l => r.2.contains l)
  d.modHalf h (fun x => { x with flush := dirty.filter (fun l => !r.2.contains l) })

/-- The flush ends; lines made dirty meanwhile are written back or not. -/
def Dev.flushEnd (d : Dev) (h : Nat) : Dev :=
  let due := (d.half h).flush
  let late := ((d.half h).lines.filter (fun f => f.dirty && !due.contains f.line)).map (fun f => f.line)
  let r := d.someOf late
  (r.1.clean h (fun l => due.contains l || r.2.contains l)).modHalf h (fun x => { x with flush := [] })

def Dev.eachHalf (d : Dev) (f : Dev → Nat → Dev) : Dev := (List.range 2).foldl (fun d h => if d.running h then f d h else d) d

/-- A write to PMU_FS_FLUSH. -/
def fsFlush (d : Dev) (w : Wr) : Dev :=
  if !d.mayWrite w.agent pgPmu 0x150 || !wrHit w 0 || d.regb pgPmu 0x150 1 then d
  else (d.setb pgPmu 0x150 1 true).eachHalf Dev.flushStart

def flushDone (d : Dev) : Dev :=
  if d.up && d.regb pgPmu 0x150 1 then (d.eachHalf Dev.flushEnd).setb pgPmu 0x150 1 false else d

/-! ### Carve-outs (R199) -/

/-- Lines that leave the cache when a carve-out takes ways: at most that many of a set, and as many as no longer fit. Which
way a line is in is not architectural, so free values choose. Lines come least recently used first. -/
def leaving (d : Dev) (h take : Nat) (ways : Nat → Nat) : List FarLine → List (Nat × Nat) → Dev × List Nat
  | [], _ => (d, [])
  | f :: rest, left =>
    let set := fsSet f.line
    let gone := KV.get 0 left set
    let here := (rest.filter (fun g => !g.pinned && fsSet g.line == set)).length + 1
    let kept := ((d.half h).lines.filter (fun g => !g.pinned && fsSet g.line == set)).length - here - gone
    let must := kept + here > ways set
    let r := d.takeFree
    if !f.pinned && gone < take && (must || r.2.bit 0) then
      let t := leaving r.1 h take ways rest (KV.set left set (gone + 1))
      (t.1, f.line :: t.2)
    else leaving r.1 h take ways rest left

/-- The carve-out steps from a to b hold nothing: what is there is undefined until it is written. -/
def Dev.loseCarve (d : Dev) (h a b : Nat) : Dev :=
  let lo := 0x100020000000 + h * 0x10000000 + a * 0x1000000
  let hi := 0x100020000000 + h * 0x10000000 + b * 0x1000000
  let d := { d with mem := d.mem.filter (fun c => c.1 < lo || hi ≤ c.1), poison := d.poison.filter (fun l => l * 64 < lo || hi ≤ l * 64) }
  (List.range 16).foldl (fun d i =>
    if a ≤ i ∧ i < b then
      let g := d.free
      { d with free := d.free + 1 }.modHalf h (fun x => { x with carveGen := x.carveGen.set i (g + 1) })
    else d) d

/-- A collective has a page in the steps from a to b of a carve-out. -/
def Dev.carveInUse (d : Dev) (h a b : Nat) : Bool :=
  let lo := 0x100020000000 + h * 0x10000000 + a * 0x1000000
  let hi := 0x100020000000 + h * 0x10000000 + b * 0x1000000
  d.nis.any (fun n => n.2.colls.any (fun c => c.maps.any (fun m => lo ≤ m.2 * 65536 && m.2 * 65536 < hi)))

/-- The steps of one half change. -/
def Dev.setCarve (d : Dev) (h n : Nat) : Dev :=
  let old := d.carve h
  if !d.halfPresent h ∨ d.regb pgSys 0x428 h ∨ n = old then d
  else if n < old then
    if d.carveInUse h n old then d
    else (d.setf pgSys 0x420 (3 + 4 * h) (4 * h) n).loseCarve h n old
  else
    let after := d.setf pgSys 0x420 (3 + 4 * h) (4 * h) n
    let r := leaving d h (n - old) (fun s => after.waysOf h s) (d.half h).lines.reverse []
    let d := r.1.clean h (fun l => r.2.contains l)
    let d := d.modHalf h (fun x => { x with lines := x.lines.filter (fun f => !r.2.contains f.line) })
    ((d.setf pgSys 0x420 (3 + 4 * h) (4 * h) n).loseCarve h old n).setb pgSys 0x428 h true

/-- A write to SYS_FS_CTRL. -/
def carveChange (d : Dev) (w : Wr) : Dev :=
  if !d.mayWrite w.agent pgSys 0x420 then d
  else
    let v := d.merged pgSys 0x420 w
    (d.setCarve 0 (v.field 3 0)).setCarve 1 (v.field 7 4)

def carveDone (d : Dev) (h : Nat) : Dev := if d.up && h < 2 then d.setb pgSys 0x428 h false else d

/-! ### Channels -/

def Dev.chanState (d : Dev) (k : Nat) : Nat := d.regf (pgMem k) 0x108 2 0
def Dev.chanLive (d : Dev) (k : Nat) : Bool := d.memPresent k && d.running (k / 8)

/-- Where a half's DRAM offset lies: channel of the half and byte, under an interleave and a module capacity (R399, R400). -/
def placeOf (ilv : Bool) (cap o : Nat) : Nat × Nat :=
  if ilv then (o / max 1 cap, o % max 1 cap)
  else (Nat.xor (Nat.xor (o / 64 % 8) (o / 2 ^ 15 % 8)) (o / 2 ^ 24 % 8), o / 512 * 64 + o % 64)

/-- The half's DRAM offset of a channel byte. -/
def offsetOf (ilv : Bool) (cap k b : Nat) : Nat :=
  if ilv then k * cap + b
  else
    let q := b / 64
    q * 512 + Nat.xor (Nat.xor k (q / 64 % 8)) (q / 2 ^ 15 % 8) * 64 + b % 64

/-- The physical address of a channel byte. -/
def Dev.chanAddr (d : Dev) (k b : Nat) : Nat :=
  k / 8 * 2 ^ 40 + offsetOf (d.regb pgSys 0x440 (2 + k / 8)) (d.halfSize (k / 8) / 8) (k % 8) b

/-! ### Patrol scrub (R414, R415) -/

/-- Bits of stored codewords come to be wrong, those of a line together; a bit that changes twice is in order again. -/
def Dev.strike (d : Dev) (k : Nat) (errs : List BitError) : Dev :=
  errs.foldl (fun d e =>
    let p := symbolOfPin e.device e.pin e.beat
    d.modChan k (fun c =>
      let w := xorWord (KV.get (List.replicate 80 0) c.faults e.line) (errorWord [p.1] [2 ^ p.2])
      { c with faults := if symbolsIn w = [] then KV.erase c.faults e.line else KV.set c.faults e.line w })) d

/-- The patrol reads a line that the far store does not hold: written back corrected, or poisoned (R411, R414, R415). -/
def Dev.patrolRead (d : Dev) (k pa : Nat) : Dev :=
  let page := pgMem k
  let b := (d.channelOf (k / 8) (pa % 2 ^ 40)).2
  let d := d.count page 0x01 1
  let ue := fun (d : Dev) => ((d.count page 0x05 1).raise page 0x0602 (2 ^ 31 + placeBits k b) pa).setPoison pa
  if d.poisoned pa && (d.lineErrors k b).isEmpty then d.count page 0x06 1
  else if d.lineBlank k pa then ue d
  else
    match d.lineDecode k b pa with
    | .clean => d
    | .corrected m dev n data => d.correct k b pa true m dev n data
    | .failed => (ue d).modChan k (fun c => { c with faults := KV.erase c.faults (b / 64) })

/-- The patrol takes the channel's next line (R414, R415). DESIGN CHOICE (log 93): the errors that have come upon stored lines of the
channel since its last patrol step enter with this command, and every later read of those lines meets them. -/
def patrolScrub (d : Dev) (k : Nat) (errs : List BitError) : Dev :=
  let d := if k < 16 then d.strike k errs else d
  let page := pgMem k
  let h := k / 8
  if !d.chanLive k || d.chanState k != 2 || !d.dramReady h || !d.regb page 0x130 0 || (d.half h).isolated || d.eclipsed then d
  else
    let line := d.regf page 0x138 31 0
    let pa := d.chanAddr k (line * 64)
    let held := (d.half h).lines.any (fun f => f.line == pa / 64)
    let d := if held then (d.writeBack h (pa / 64)).modHalf h (fun x => { x with lines := setDirty x.lines (pa / 64) false })
      else d.patrolRead k pa
    let d := d.count page 0x07 1
    if line + 1 ≥ d.halfSize h / 8 / 64 then (d.setReg page 0x138 0).count page 0x09 1
    else d.setReg page 0x138 (BitVec.ofNat 64 (line + 1))

/-! ### SRAM scrub (R416 to R419) -/

/-- Who raises the errors of a store, and the half that the store belongs to. -/
def sramPage (store inst : Nat) : Nat × Option Nat :=
  match store with
  | 0 => (pgCore inst, some (inst / 4))
  | 1 => (pgCore (inst / 4), some (inst / 16))
  | 2 => (pgCore inst, some (inst / 4))
  | 3 => (pgSys, some 0)
  | 4 => (pgSys, some 1)
  | 5 => (pgSys, some 0)
  | 6 => (pgSys, some 1)
  | _ => (pgSys, none)

/-- A double error poisons the word: of a far store's cache part, the line in that place, which free values choose. -/
def Dev.sramPoison (d : Dev) (store inst i : Nat) : Dev :=
  match store with
  | 0 => d.setPoison (nearBase inst + i * 64)
  | 1 => d.setPoison (nearBase (inst / 4) + 0x2800000 + inst % 4 * 0x400000 + i * 64)
  | 2 => d.setPoison (nearBase inst + 0x3800000 + i * 64)
  | 5 => d.modHalf 0 (fun x => { x with stopped := true })
  | 6 => d.modHalf 1 (fun x => { x with stopped := true })
  | 7 => d.setPoison (0x100040000000 + i * 64)
  | _ =>
    let h := store - 3
    let way := i / 2 ^ 18
    if 15 - way < d.carve h then d.setPoison (0x100020000000 + h * 0x10000000 + (15 - way) * 0x1000000 + i % 2 ^ 18 * 64)
    else
      let set := i % 2 ^ 18
      let here := (d.half h).lines.filter (fun f => fsSet f.line == set)
      let r := d.takeFree
      match here[r.2.toNat % 16]? with
      | some f => r.1.setPoison (f.line * 64)
      | none => r.1

/-- Words of a store. -/
def sramWords (store : Nat) : Nat :=
  match store with
  | 0 => 0x2800000 / 64
  | 1 => 0x400000 / 64
  | 2 => 0x800000 / 64
  | 7 => 0x8000000 / 64
  | _ => 2 ^ 22

/-- The scrub reads a word of a store. For the accumulator stores `inst` is 4 × core + array. -/
def sramScrub (d : Dev) (store inst i : Nat) (e : WordError) : Dev :=
  let p := sramPage store inst
  let live := d.up && store ≤ 7 && (p.2.all d.running) && d.present p.1 && i < sramWords store && (store ≥ 3 || inst < (if store = 1 then 32 else 8))
  if !live || !d.regb pgSys 0x450 0 then d
  else
    let qual := store * 2 ^ 28 + (if store = 1 then inst % 4 * 2 ^ 24 else 0) + i
    match e with
    | .clean => d
    | .corrected => d.raise p.1 0x0603 qual 0
    | .double => (d.raise p.1 0x0604 qual 0).sramPoison store inst i

/-! ### Loss of a module (R423) -/

def Dev.setOffline (d : Dev) (k : Nat) : Dev :=
  ((d.setb (pgMem k) 0x100 0 true).setf (pgMem k) 0x108 2 0 4).setIsr (pgMem k) 2

/-- The module stops answering, or a write to MEM_CTRL. -/
def moduleOffline (d : Dev) (k : Nat) (stopped : Bool) (w : Wr) : Dev :=
  if !d.chanLive k || d.chanOffline k then d
  else if stopped || (d.mayWrite w.agent (pgMem k) 0x100 && wrHit w 0) then d.setOffline k
  else d

/-- A command fails its CA parity check: it is retried, and after eight retries that fail the channel goes offline. -/
def caParity (d : Dev) (k : Nat) : Dev :=
  if !d.chanLive k || d.chanOffline k then d
  else if (d.chan k).retries ≥ 8 then (d.modChan k (fun c => { c with retries := 0 })).setOffline k
  else (d.modChan k (fun c => { c with retries := c.retries + 1 })).count (pgMem k) 0x0A 1

/-! ### Training (R396, R397, R402 to R405) -/

/-- The rate code is enabled (R395, R479). -/
def Dev.rateEnabled (d : Dev) (r : Nat) : Bool := r ≤ 2 && d.cap.bit (51 + r)

/-- A write to SYS_MEM_CTRL. -/
def memCtrl (d : Dev) (w : Wr) : Dev :=
  if !d.mayWrite w.agent pgSys 0x440 then d
  else
    let v := d.merged pgSys 0x440 w
    let busy := d.regb pgSys 0x448 0
    let d := if !busy && !d.dramReady 0 && !d.dramReady 1 && d.rateEnabled (v.field 1 0) then d.setf pgSys 0x440 1 0 (v.field 1 0) else d
    let d := (List.range 2).foldl (fun d h =>
      if d.halfPresent h && !d.dramReady h then d.setb pgSys 0x440 (2 + h) (v.bit (2 + h)) else d) d
    let d := (d.setb pgSys 0x440 4 (v.bit 4)).setb pgSys 0x440 5 (v.bit 5)
    let go := (List.range 16).filter (fun k => d.chanLive k && !d.chanOffline k)
    if !wrHit w 8 || busy || go.isEmpty then d
    else
      let d := go.foldl (fun d k =>
        ((d.setf (pgMem k) 0x108 3 0 1).modChan k (fun c => { c with restore := v.bit 4, zero := v.bit 5 })).setf pgSys 0x448
          (1 + k / 8) (1 + k / 8) 0) d
      (d.setf pgSys 0x448 4 3 0).setb pgSys 0x448 0 true

/-- The training record of a channel lies in system-die SRAM. -/
def Dev.trecAddr (d : Dev) (k : Nat) : Option Nat :=
  let a := d.regf (pgMem k) 0x118 47 12 * 4096
  if d.space a = .sram then some a else none

/-- The kind that a rate needs (R395). -/
def kindOf (rate : Nat) : Nat := if rate = 2 then 2 else 1

def signedByte (x : Nat) : Int := if x < 128 then x else (x : Int) - 256

/-- The restore of a channel is accepted (R404). -/
def Dev.restoreOk (d : Dev) (k : Nat) (r : TrainResult) : Bool :=
  match d.trecAddr k with
  | none => false
  | some a =>
    let w0 := d.word a
    let w1 := d.word (a + 8)
    let dt := r.temp - signedByte (w0.field 63 56)
    w1.field 63 32 == 1 && w1.field 31 0 == crc32c (d.bytes (a + 16) 4080) && w0.field 31 0 == r.serial % 2 ^ 32
      && w0.field 47 32 == r.spdCrc % 2 ^ 16 && w0.field 49 48 == d.regf pgSys 0x440 1 0 && (-15 ≤ dt : Bool) && (dt ≤ 15 : Bool)
      && r.verified

/-- The record that full training writes (R403). -/
def Dev.writeTrec (d : Dev) (k : Nat) (r : TrainResult) : Dev :=
  match d.trecAddr k with
  | none => d
  | some a =>
    let params := (r.params ++ List.replicate 4080 0).take 4080
    let w0 := r.serial % 2 ^ 32 + r.spdCrc % 2 ^ 16 * 2 ^ 32 + d.regf pgSys 0x440 1 0 * 2 ^ 48 + (r.temp % 256).toNat * 2 ^ 56
    d.store a (leBytes 8 w0 ++ leBytes 8 (crc32c params + 2 ^ 32) ++ params)

/-- Full training loses the channel's contents (R405), which lie under the interleave of the last bring-up; what the far store
holds of it goes too. -/
def Dev.loseChannel (d : Dev) (k cap : Nat) (zero : Bool) : Dev :=
  let h := k / 8
  let ilv := (d.half h).ilv
  let mine := fun (pa : Nat) => pa / 2 ^ 40 == h && (placeOf ilv cap (pa % 2 ^ 40)).1 == k % 8
  let d := { d with mem := d.mem.filter (fun c => !mine c.1), dram := d.dram.filter (fun c => !mine (c.1 * 64)),
                    poison := d.poison.filter (fun l => !mine (l * 64)) }
  let d := d.modHalf h (fun x => { x with lines := x.lines.filter (fun f => !mine (f.line * 64)) })
  d.modChan k (fun c => { c with blank := !zero, written := [], faults := [], lastCe := none })

/-- Contents kept under one interleave show at other addresses under the other. -/
def Dev.moveContents (d : Dev) (h cap : Nat) (old new : Bool) : Dev :=
  let at' := fun (pa : Nat) =>
    if pa / 2 ^ 40 = h ∧ pa % 2 ^ 40 < 8 * cap then
      let p := placeOf old cap (pa % 2 ^ 40)
      h * 2 ^ 40 + offsetOf new cap p.1 p.2
    else pa
  let lines := fun (l : List Nat) => (l.map (fun x => at' (x * 64) / 64)).foldl lineAdd []
  let d := { d with mem := d.mem.foldl (fun m c => Memory.set m (at' c.1) c.2) [], poison := lines d.poison }
  (List.range 8).foldl (fun d i => d.modChan (8 * h + i) (fun c => { c with written := lines c.written })) d

/-- When the last channel of a half ends its training, the half comes up or fails (R397, R402). -/
def Dev.bringUp (d : Dev) (h : Nat) : Dev :=
  let ks := (List.range 8).map (fun i => 8 * h + i)
  let size := d.regf (pgMem (8 * h)) 0x108 7 6
  let d :=
    if ks.any (fun k => d.chanState k == 1) then d
    else if ks.all (fun k => d.memPresent k && d.chanState k == 2 && d.regf (pgMem k) 0x108 7 6 == size) then
      let new := d.regb pgSys 0x440 (2 + h)
      let old := (d.half h).ilv
      let d := if old = new then d else d.moveContents h (2 ^ size * 2 ^ 35) old new
      let d := d.modHalf h (fun x => { x with ilv := new })
      (d.setf pgSys 0x448 (31 + 16 * h) (16 + 16 * h) (256 * 2 ^ size)).setb pgSys 0x448 (1 + h) true
    else d.setb pgSys 0x448 (3 + h) true
  if (List.range 16).any (fun k => d.memPresent k && d.chanState k == 1) then d else d.setb pgSys 0x448 0 false

/-- The module is built as R396 asks: x4 devices, ten to a sub-channel, and the ranks of its kind. -/
def moduleFits (r : TrainResult) : Bool :=
  r.width == 4 && r.devices == 10 && (if r.kind = 2 then r.ranks == 1 || r.ranks == 2 else r.ranks == 2 || r.ranks == 4)

/-- The data rate of a RATE code in MT/s (R395). -/
def rateOf (code : Nat) : Nat := if code = 0 then 12800 else if code = 1 then 8800 else 6400

/-- The module is of the kind that the selected rate needs and is rated for it: one rated for more may run at less (R395, R396). -/
def moduleRateFits (r : TrainResult) (code : Nat) : Bool := r.kind == kindOf code && decide (rateOf code ≤ r.rated)

/-- A channel's training ends. -/
def trainingDone (d : Dev) (k : Nat) (r : TrainResult) : Dev :=
  if !d.chanLive k || d.chanState k != 1 then d
  else
    let page := pgMem k
    let c := d.chan k
    let d := d.setReg page 0x110 (BitVec.ofNat 64 (r.serial % 2 ^ 32 + r.spdCrc % 2 ^ 16 * 2 ^ 32))
    let stat := fun (d : Dev) (state : Nat) (restored : Bool) =>
      d.setReg page 0x108 (BitVec.ofNat 64 (state + (if restored then 8 else 0) + r.kind % 4 * 16 + r.size % 4 * 64))
    let d :=
      if r.kind = 0 then d.setReg page 0x108 0
      else if !moduleFits r || !moduleRateFits r (d.regf pgSys 0x440 1 0) || r.size > 2 then (stat d 3 false).setIsr page 5
      else if c.restore && d.restoreOk k r then (stat d 2 true).setIsr page 4
      else if !r.trained then (stat d 3 false).setIsr page 4
      else (stat ((d.loseChannel k (2 ^ r.size * 2 ^ 35) c.zero).writeTrec k r) 2 false).setIsr page 4
    d.bringUp (k / 8)

/-! ### Drawbar and UCIe (R420 to R422, R523) -/

/-- A drawbar flit arrives; direction 0 is from A to B. -/
def drawbarFlit (d : Dev) (dir seq : Nat) (corrected crcOk : Bool) : Dev :=
  if !d.up || dir > 1 || !d.regb pgDbw 0x100 0 || d.regb pgDbw 0x100 1 then d
  else
    let x := KV.get { expect := 0, fails := 0 } d.flits dir
    let set := fun (d : Dev) (y : Flits) => { d with flits := KV.set d.flits dir y }
    let d := d.count pgDbw 0x03 (if corrected then 1 else 0)
    if seq % 2 ^ 16 ≠ x.expect then d
    else if crcOk then (set d { expect := (x.expect + 1) % 2 ^ 16, fails := 0 }).count pgDbw (1 + dir) 1
    else
      let limit := max 1 (d.regf pgDbw 0x108 7 0)
      if x.fails ≥ limit then
        (((set d { x with fails := 0 }).setReg pgDbw 0x100 2).raise pgDbw 0x0605 (dir * 2 ^ 31 + 2 ^ 30 + x.expect) 0).setIsr pgDbw 1
      else ((set d { x with fails := x.fails + 1 }).count pgDbw 0x04 1).raise pgDbw 0x0605 (dir * 2 ^ 31 + x.expect) 0

def Dev.uciUp (d : Dev) (h : Nat) : Bool := d.up && d.halfPresent h && d.regb (pgUci h) 0x100 0

def keepaliveSend (d : Dev) (h : Nat) : Dev := if d.uciUp h then d.count (pgUci h) 0x03 1 else d

def ucieFlit (d : Dev) (h : Nat) (ok : Bool) : Dev :=
  if !d.uciUp h then d
  else if ok then d.count (pgUci h) 0x04 1
  else (d.count (pgUci h) 0x01 1).count (pgUci h) 0x02 1

/-- A half isolates itself (R523). Whether the link itself was declared down is a free value. -/
def isolate (d : Dev) (h : Nat) : Dev :=
  if !d.running h || (d.half h).isolated then d
  else
    let d := match (d.upd h).current with
      | none => d
      | some c => checkEntry true (d.modUpd h (fun u => { u with current := none })) h c.slice
    let d := (d.clean h (fun _ => true)).modHalf h (fun x => { x with isolated := true })
    let r := d.takeFree
    (r.1.setb (pgUci h) 0x100 0 (r.2.bit 0)).setb pgPmu 0x158 (5 + h) true

def execTlbInvalidate (w : Wr) (s : State) : Host.Outcome State Fault Refusal := s.lift (fun d => tlbInvalidate d w)
def execTlbiDone (s : State) : Host.Outcome State Fault Refusal := s.lift tlbiDone
def execCarveOutChange (w : Wr) (s : State) : Host.Outcome State Fault Refusal := s.lift (fun d => carveChange d w)
def execCarveOutDone (half : Nat) (s : State) : Host.Outcome State Fault Refusal := s.lift (fun d => carveDone d half)
def execFarStoreFlush (w : Wr) (s : State) : Host.Outcome State Fault Refusal := s.lift (fun d => fsFlush d w)
def execFlushDone (s : State) : Host.Outcome State Fault Refusal := s.lift flushDone
def execPatrolScrubLine (channel : Nat) (errs : List BitError) (s : State) : Host.Outcome State Fault Refusal :=
  s.lift (fun d => patrolScrub d channel errs)
def execSramScrubWord (store inst index : Nat) (err : WordError) (s : State) : Host.Outcome State Fault Refusal :=
  s.lift (fun d => sramScrub d store inst index err)
def execModuleOffline (channel : Nat) (stopped : Bool) (w : Wr) (s : State) : Host.Outcome State Fault Refusal :=
  s.lift (fun d => moduleOffline d channel stopped w)
def execMemTrainingStart (w : Wr) (s : State) : Host.Outcome State Fault Refusal := s.lift (fun d => memCtrl d w)
def execChannelTrainingDone (channel : Nat) (r : TrainResult) (s : State) : Host.Outcome State Fault Refusal :=
  s.lift (fun d => trainingDone d channel r)
def execDrawbarFlitReceive (dir seq : Nat) (corrected crcOk : Bool) (s : State) : Host.Outcome State Fault Refusal :=
  s.lift (fun d => drawbarFlit d dir seq corrected crcOk)
def execUcieKeepaliveSend (half : Nat) (s : State) : Host.Outcome State Fault Refusal := s.lift (fun d => keepaliveSend d half)
def execUcieFlitReceive (half : Nat) (crcOk : Bool) (s : State) : Host.Outcome State Fault Refusal := s.lift (fun d => ucieFlit d half crcOk)
def execHalfIsolation (half : Nat) (s : State) : Host.Outcome State Fault Refusal := s.lift (fun d => isolate d half)
def execCaParityError (channel : Nat) (s : State) : Host.Outcome State Fault Refusal := s.lift (fun d => caParity d channel)

end Sys2Proof.Machine
end

