-- ==== Sys2Proof/Machine/Power.lean ====
section
/-! DEFINITION. The always-on controller: rails and power sequences, resets, power states and profiles, issue-duty limiting
and the thermal throttle (R38, R39, R509 to R535, R580). -/

namespace Sys2Proof.Machine

/-! ### What resets lose (R516 to R518) -/

/-- The DRAM devices' own contents: what far stores hold dirty is gone (R517, R518). -/
def Dev.dramAsStored (d : Dev) : Dev :=
  let d := d.dram.foldl (fun d x =>
    let pa := x.1 * 64
    let k := (d.channelOf (pa / 2 ^ 40) (pa % 2 ^ 40)).1
    let d := d.put pa x.2.data
    let d := if x.2.poison then d.setPoison pa else d.clearPoison pa
    if x.2.blank then d.modChan k (fun c => { c with written := c.written.filter (· != x.1) }) else d) d
  { d with dram := [] }

/-- Registers that every reset but a power-on reset keeps, and those that fuses load (R484, R518). -/
def keptRegs : List Nat := [regKey pgPmu 0x128, regKey pgPmu 0x158, regKey pgSec 0x108, regKey pgSec 0x118]

/-- The physical address is in DRAM, or in host memory, which the device's resets do not touch. -/
def outlivesReset (dram : Bool) (pa : Nat) : Bool := (dram && pa < 0x020000000000) || 0x800000000000 ≤ pa

/-- What of a channel its DRAM devices hold. -/
def Channel.kept (c : Channel) : Channel := { Channel.reset with blank := c.blank, written := c.written, faults := c.faults }

/-- The device as a reset leaves it, with DRAM kept or not. -/
def Dev.wiped (d : Dev) (dram : Bool) : Dev :=
  let d := d.dramAsStored
  { Dev.reset with
    out := d.out, cap := d.cap, regs := d.regs.filter (fun r => keptRegs.contains r.1),
    mem := d.mem.filter (fun c => outlivesReset dram c.1),
    poison := d.poison.filter (fun l => outlivesReset dram (l * 64)),
    drives := d.drives, flash := d.flash,
    halves := if dram then d.halves.map (fun x => (x.1, { Half.reset with ilv := x.2.ilv })) else [],
    channels := if dram then d.channels.map (fun x => (x.1, x.2.kept)) else [],
    tap := { d.tap with undef := [] },
    power := { d.power with inReset := true, hot := [] },
    sec := { Sec.reset with drbgCount := d.sec.drbgCount },
    free := d.free }

/-- A device reset with its cause (R514 to R516). -/
def Dev.deviceReset (d : Dev) (cause : Nat) : Dev := (d.setReg pgPmu 0x128 (BitVec.ofNat 64 cause)).wiped true

/-! ### Rails (R509 to R513) -/

/-- The group exists: HALF B only where the half is present. -/
def Dev.groupPresent (d : Dev) (g : Nat) : Bool := g < 4 && (g != 2 || d.halfPresent 1)

def Dev.enableOf (d : Dev) (g : Nat) : Bool := d.power.enable.getD g false
def Dev.goodOf (d : Dev) (g : Nat) : Bool := d.power.good.getD g false

def enableName (g : Nat) : String := ["PWR_EN_SYS", "PWR_EN_A", "PWR_EN_B", "PWR_EN_MEM"].getD g ""

def Dev.setEnable (d : Dev) (g : Nat) (b : Bool) : Dev :=
  let p := { d.power with enable := d.power.enable.set g b, good := if b then d.power.good else d.power.good.set g false,
                          mvA := if g = 1 then 750 else d.power.mvA, mvB := if g = 2 then 750 else d.power.mvB }
  { d with power := p }.emit (.pin (enableName g) b)

def Dev.setSeq (d : Dev) (s : Seq) : Dev := { d with power := { d.power with seq := s } }

/-- The next group to be raised. -/
def Dev.nextGroup (d : Dev) : Option Nat := [0, 1, 2, 3].find? (fun g => d.groupPresent g && !d.enableOf g)

def Dev.raiseNext (d : Dev) : Dev :=
  match d.nextGroup with
  | none => d.setSeq .idle
  | some g => (d.setEnable g true).setSeq (.waitGood g)

/-- No fault holds the device Off (R522). -/
def Dev.noPowerFault (d : Dev) : Bool := (d.reg pgPmu 0x158).field 4 0 = 0 && !d.regb pgPmu 0x158 7

/-- The device powers down (R513): its state is lost, and the enables fall one by one. -/
def Dev.powerDown (d : Dev) : Dev := (d.wiped false).setSeq .down

/-- PWR_GOOD_AUX rises (R511). -/
def powerOn (d : Dev) : Dev :=
  if d.power.aux then d
  else
    let d := (d.wiped false)
    let d := (d.setReg pgPmu 0x128 1).setReg pgPmu 0x158 0
    let d := { d with power := { d.power with aux := true, enable := List.replicate 4 false, good := List.replicate 4 false,
                                              tripLow := false, hotReset := false } }
    d.raiseNext

/-- PWR_GOOD_AUX falls: everything loses its power. -/
def auxLoss (d : Dev) : Dev :=
  if !d.power.aux then d
  else
    let d := d.wiped false
    let d := (d.setReg pgPmu 0x128 1).setReg pgPmu 0x158 0
    { d with power := { d.power with aux := false, enable := List.replicate 4 false, good := List.replicate 4 false, seq := .idle,
                                     tripLow := false, hotReset := false } }

def Dev.pstate (d : Dev) : Nat := d.regf pgPmu 0x118 5 4

/-- Both ACLK counters start from zero (R39). -/
def Dev.startAclk (d : Dev) : Dev :=
  let r := d.takeFree
  { r.1 with aclkA := 0, aclkB := 0, lagB := r.2.bit 0 }

/-- A group's good input rises. -/
def goodRise (d : Dev) (g : Nat) : Dev :=
  if !d.power.aux || !d.groupPresent g || !d.enableOf g || d.goodOf g then d
  else
    let d := { d with power := { d.power with good := d.power.good.set g true } }
    if d.power.seq ≠ .waitGood g then d
    else if d.nextGroup.isSome then d.setSeq (.waitNext g)
    else
      let d := d.setSeq .idle
      if d.pstate = 3 ∧ (g = 1 ∨ g = 2) then d.startAclk else d

def enableNext (d : Dev) : Dev :=
  match d.power.seq with
  | .waitNext _ => d.raiseNext
  | _ => d

def seqTimeout (d : Dev) : Dev :=
  match d.power.seq with
  | .waitGood _ => (d.setb pgPmu 0x158 7 true).powerDown
  | _ => d

/-- An enabled group's good input is low for more than 10 µs (R513). -/
def goodLoss (d : Dev) (g : Nat) : Dev :=
  if !d.power.aux || !d.groupPresent g || !d.enableOf g || !d.goodOf g || d.power.seq == .down then d
  else
    let d := { d with power := { d.power with good := d.power.good.set g false } }
    (d.setb pgPmu 0x158 (1 + g) true).powerDown

/-- The next enable of a power-down falls: MEM, HALF B, HALF A, SYS. -/
def downStep (d : Dev) : Dev :=
  if d.power.seq ≠ .down then d
  else
    match [3, 2, 1, 0].find? d.enableOf with
    | none => d.setSeq .idle
    | some g =>
      let d := d.setEnable g false
      if g = 0 then d.setSeq .idle else d

/-- BMC message RESTART (R522). -/
def restartSeq (d : Dev) : Dev :=
  if d.power.aux && d.reg pgPmu 0x158 == 0 && d.power.seq == .idle && !d.enableOf 0 then (d.setReg pgPmu 0x128 6).raiseNext else d

/-! ### Reset inputs (R514, R515) -/

/-- The system die has its power, so that a reset reaches the device. -/
def Dev.sysOn (d : Dev) : Bool := d.power.aux && d.enableOf 0 && d.goodOf 0 && d.power.seq != .down

/-- A low level on SYS_RST_N or PERST_N, or its end. -/
def sysRst (d : Dev) (release : Bool) : Dev :=
  let d' := { d with power := { d.power with rstLow := !release } }
  if !release && d.sysOn && !d.power.rstLow then d'.deviceReset 2 else d'

def perst (d : Dev) (release : Bool) : Dev :=
  let d' := { d with power := { d.power with perstLow := !release } }
  if !release && d.sysOn && !d.power.perstLow then d'.deviceReset 3 else d'

/-- A hot reset or link disable from the host, which needs a running endpoint. -/
def hotReset (d : Dev) (release : Bool) : Dev :=
  if release then { d with power := { d.power with hotReset := false } }
  else if !d.up then d
  else { d with power := { d.power with hotReset := true } }.deviceReset 4

def devRst (d : Dev) (w : Wr) : Dev := if d.mayWrite w.agent pgPmu 0x120 && wrHit w 0 then d.deviceReset 5 else d

/-- The device leaves its reset, which also ends a standby. -/
def resetRelease (d : Dev) : Dev :=
  let p := d.power
  if !p.inReset || p.rstLow || p.perstLow || p.hotReset || !d.sysOn || !d.noPowerFault then d
  else
    let d := { d with power := { p with inReset := false } }.startAclk
    if p.seq = .idle ∧ d.nextGroup.isSome then d.raiseNext else d

/-- A write to PMU_HALF_CTRL releases halves (R515); a half without its rails stays in reset. -/
def Dev.runHalf (d : Dev) (h : Nat) : Dev :=
  if !d.halfPresent h || d.regb pgPmu 0x110 h || !d.enableOf (1 + h) || !d.goodOf (1 + h) then d
  else
    let d := (d.setb pgPmu 0x110 h true).setb (pgUci h) 0x100 0 true
    let d := d.modHalf h (fun x => { x with schFrame := d.ftsFrame, schLine := d.ftsLine })
    if d.drawbar && d.regb pgPmu 0x110 0 && d.regb pgPmu 0x110 1 then d.setReg pgDbw 0x100 1 else d

def halfRun (d : Dev) (w : Wr) : Dev :=
  if !d.mayWrite w.agent pgPmu 0x110 then d
  else
    let d := if wrHit w 0 then d.runHalf 0 else d
    if wrHit w 1 then d.runHalf 1 else d

/-! ### Profiles and limits (R38, R527, R528) -/

def Dev.halvesHeld (d : Dev) : Bool := !d.regb pgPmu 0x110 0 && !d.regb pgPmu 0x110 1
def Dev.studio (d : Dev) : Bool := d.regb pgPmu 0x108 8
def Dev.profileLimit (d : Dev) : Nat := if d.studio then 1100 else 700
def Dev.ampLimit (d : Dev) : Nat := if d.studio then 720 else 460

def profileSelect (d : Dev) (w : Wr) : Dev :=
  if !d.mayWrite w.agent pgPmu 0x108 || !d.halvesHeld then d
  else
    let sel := (d.merged pgPmu 0x108 w).bit 0
    let old := d.studio
    let new := sel && d.cap.field 3 2 == 1
    let d := d.setReg pgPmu 0x108 (BitVec.ofNat 64 ((if sel then 1 else 0) + (if new then 256 else 0)))
    if new = old then d else d.setReg pgPmu 0x130 (BitVec.ofNat 64 d.profileLimit)

def pwrLimit (d : Dev) (w : Wr) : Dev :=
  if !d.mayWrite w.agent pgPmu 0x130 then d
  else d.setReg pgPmu 0x130 (BitVec.ofNat 64 (max 300 (min d.profileLimit ((d.merged pgPmu 0x130 w).field 15 0))))

def sscEn (d : Dev) (w : Wr) : Dev :=
  if !d.mayWrite w.agent pgPmu 0x100 || !d.halvesHeld then d else d.setb pgPmu 0x100 0 ((d.merged pgPmu 0x100 w).bit 0)

/-! ### Standby (R526) -/

/-- Standby is refused while a queue is enabled, a context is held or an update engine works. -/
def Dev.standbyOk (d : Dev) : Bool :=
  d.queues.all (fun q => !q.2.enabled) && d.cores.all (fun c => c.2.ctxs.isEmpty)
    && (List.range 2).all (fun h => !d.halfPresent h || (!d.regb (pgUpd h) 0x010 0 && (d.upd h).inflight == 0))

/-- A write to PMU_PSTATE. -/
def pstateWrite (d : Dev) (w : Wr) : Dev :=
  if !d.mayWrite w.agent pgPmu 0x118 then d
  else
    let v := d.merged pgPmu 0x118 w
    let d := d.plainWrite pgPmu 0x118 w
    let old := d.regb pgPmu 0x118 0
    if d.pstate = 0 && !old && v.bit 0 then
      if !d.standbyOk then (d.setb pgPmu 0x118 8 true).setIsr pgPmu 2
      else ((d.setb pgPmu 0x118 0 true).setf pgPmu 0x118 5 4 3).eachHalf Dev.flushStart
    else if d.pstate = 2 && old && !v.bit 0 then ((d.setb pgPmu 0x118 0 false).setf pgPmu 0x118 5 4 3).raiseNext
    else d

/-- A core, queue, page or store belongs to a half. -/
def inHalf (h pa : Nat) : Bool :=
  (0x100000000000 + h * 0x10000000 ≤ pa && pa < 0x100010000000 + h * 0x10000000)
    || (0x100020000000 + h * 0x10000000 ≤ pa && pa < 0x100030000000 + h * 0x10000000)

/-- What a half holds is lost as in a device reset; its DRAM keeps its contents. -/
def Dev.wipeHalf (d : Dev) (h : Nat) : Dev :=
  let mineK := fun (k : Nat) => k / 8 == h
  let d := { d with
    regs := d.regs.filter (fun r => pageHalf (r.1 / 4096) != some h),
    mem := d.mem.filter (fun c => !inHalf h c.1), poison := d.poison.filter (fun l => !inHalf h (l * 64)),
    cores := d.cores.filter (fun c => c.1 / 4 != h), queues := d.queues.filter (fun q => q.1 / 32768 != h),
    upds := KV.erase d.upds h, nis := KV.erase d.nis h, ports := d.ports.filter (fun p => p.1 / 8 != h),
    channels := d.channels.map (fun (x : Nat × Channel) => if mineK x.1 then (x.1, x.2.kept) else x),
    tlbs := d.tlbs.filter (fun t => let e := t.1 / 2 ^ 32; !(e == 8 + h || e == 10 + h || (e < 8 && e / 4 == h))) }
  let d := { d with sec := { d.sec with ccpImages := d.sec.ccpImages.filter (fun x => x.1 / 4 != h), updImages := KV.erase d.sec.updImages h } }
  let d := d.loseCarve h 0 16
  let d := d.modHalf h (fun x => { Half.reset with ilv := x.ilv, carveGen := x.carveGen })
  (((d.setb pgPmu 0x110 h false).setb (pgUci h) 0x100 0 false).setReg pgDbw 0x100 0).setf pgSys 0x448 (1 + h) (1 + h) 0

/-- A change of power state completes (R526). -/
def pstateDone (d : Dev) : Dev :=
  if !d.up || d.pstate ≠ 3 then d
  else if d.regb pgPmu 0x118 0 then
    let d := d.eachHalf (fun d h => d.clean h (fun _ => true))
    let d := (List.range 2).foldl (fun d h => if d.halfPresent h then d.wipeHalf h else d) d
    let d := { d with peers := [], credit := [], flits := [] }
    let d := if d.halfPresent 1 then d.setEnable 2 false else d
    (((d.setEnable 1 false).setf pgPmu 0x118 5 4 2).setIsr pgPmu 1)
  else if d.power.seq ≠ .idle || !d.goodOf 1 || (d.halfPresent 1 && !d.goodOf 2) then d
  else (d.setf pgPmu 0x118 5 4 0).setIsr pgPmu 1

/-! ### Issue duty (R529, R530) -/

def clampDuty (x : Nat) : Nat := max 1 (min 64 x)

/-- The comparison of R530 over some cores: the power duties by core. -/
def stepDuty (p limit dmin floor s : Nat) (rsv : Nat → Bool) (cores : List Nat) (old : Nat → Nat) (c : Nat) : Nat :=
  let free := cores.filter (fun c => !rsv c)
  let held := cores.filter rsv
  if p > limit then
    if free.any (fun c => old c > dmin) then (if rsv c then old c else max (old c - s) dmin)
    else if rsv c then max (old c - s) floor else old c
  else if p * 100 < limit * 97 then
    if held.any (fun c => old c < 64) then (if rsv c then min (old c + s) 64 else old c)
    else if rsv c then old c else min (old c + s) 64
  else old c

/-- The thermal cap of a throttle step (R532). -/
def thermalCap (step : Nat) : Nat := [64, 48, 32, 16].getD step 16

/-- PMU_DUTY shows the duty in force of every present core. -/
def Dev.showDuty (d : Dev) : Dev :=
  (List.range 8).foldl (fun d c =>
    if d.corePresent c then d.setf pgPmu 0x148 (8 * c + 6) (8 * c) (min (d.core c).dutyPwr (thermalCap (d.half (c / 4)).therm)) else d) d

/-- The averages of a millisecond are compared with the limits; of the two results the lower is taken. -/
def dutyUpdate (d : Dev) (watts ampsA ampsB : Nat) : Dev :=
  if !d.up then d
  else
    -- ENERGY_MJ grows by what the energy counters measured, which the averages do not give (log 99)
    let e := d.takeFree
    let d := e.1.count pgPmu 0x02 (e.2.field 15 0)
    let d := d.setReg pgPmu 0x138 (BitVec.ofNat 64 (watts % 65536 + ampsA % 65536 * 2 ^ 16 + ampsB % 65536 * 2 ^ 32))
    let cores := (List.range 8).filter d.corePresent
    let ctl := d.reg pgPmu 0x140
    let dmin := clampDuty (ctl.field 6 0)
    let floor := clampDuty (ctl.field 14 8)
    let s := max 1 (ctl.field 19 16)
    let old := fun (c : Nat) => (d.core c).dutyPwr
    let new := fun (c : Nat) =>
      let amps := if c < 4 then ampsA else ampsB
      min (stepDuty watts (d.regf pgPmu 0x130 15 0) dmin floor s d.inSlice cores old c)
        (stepDuty amps d.ampLimit dmin floor s d.inSlice (cores.filter (fun x => x / 4 == c / 4)) old c)
    let down := (cores.filter (fun c => new c < old c)).length
    let up := (cores.filter (fun c => new c > old c)).length
    let below := cores.any (fun c => old c == 64 && new c < 64)
    let d' := cores.foldl (fun x c => if new c = old c then x else x.modCore c (fun k => { k with dutyPwr := new c })) d
    let d' := (d'.count pgPmu 0x03 down).count pgPmu 0x04 up
    (if below then d'.setIsr pgPmu 0 else d').showDuty

/-! ### Thermal throttle and trip (R531 to R533, R535) -/

/-- The half whose sensor it is; none for the system die. -/
def sensorHalf (i : Nat) : Option Nat := if i < 64 then some 0 else if i < 128 then some 1 else none

def Dev.sensorPresent (d : Dev) (i : Nat) : Bool := i < 136 && ((sensorHalf i).all d.halfPresent)

/-- A reading within −40 to +150 °C. -/
def inRange (r : Reading) : Bool := (-320 ≤ r.temp : Bool) && (r.temp ≤ 1200 : Bool)

def Dev.takeReading (d : Dev) (r : Reading) : Dev :=
  let off := 0x200 + 8 * r.sensor
  let was := d.regb pgThm off 16
  let d := d.setReg pgThm off (BitVec.ofNat 64 ((r.temp % 65536).toNat + (if inRange r then 65536 else 0)))
  if was && !(inRange r) then d.setIsr pgThm 2 else d

/-- The hottest reading of a list. -/
def hottest (l : List Reading) : Option Reading :=
  l.foldl (fun a r => match a with | none => some r | some b => if b.temp < r.temp then some r else a) none

/-- The threshold of a step, in 1/8 °C. -/
def Dev.threshold (d : Dev) (step : Nat) : Int := ((d.regf pgThm 0x100 (8 * step - 1) (8 * step - 8) : Nat) : Int) * 8
def Dev.hyst (d : Dev) : Int := ((d.regf pgThm 0x100 31 24 : Nat) : Int) * 8

/-- The throttle step that a temperature calls for. -/
def Dev.calledStep (d : Dev) (t : Int) : Nat :=
  if t ≥ d.threshold 3 then 3 else if t ≥ d.threshold 2 then 2 else if t ≥ d.threshold 1 then 1 else 0

/-- One half follows a sample: it rises at once, and falls by one after 500 samples below the exit level. -/
def Dev.throttle (d : Dev) (l : List Reading) (h : Nat) : Dev :=
  let x := d.half h
  let bad := (l.filter (fun r => sensorHalf r.sensor == some h && !(inRange r))).length
  let mine := l.filter (fun r => inRange r && (sensorHalf r.sensor == some h || sensorHalf r.sensor == none))
  let called := if bad > 8 then 3 else match hottest mine with | some r => d.calledStep r.temp | none => 0
  let below := match hottest mine with | some r => decide (r.temp < d.threshold x.therm - d.hyst) | none => false
  let put := fun (step ticks : Nat) => (d.modHalf h (fun y => { y with therm := step, coolTicks := ticks })).setf pgThm 0x108 (1 + 2 * h) (2 * h) step
  if called > x.therm then (put called 0).setIsr pgThm 0
  else if x.therm = 0 ∨ bad > 8 then put x.therm 0
  else if !below then put x.therm 0
  else if x.coolTicks + 1 ≥ 500 then (put (x.therm - 1) 0).setIsr pgThm 1
  else put x.therm (x.coolTicks + 1)

/-- Every sensor is sampled. -/
def thermalSample (d : Dev) (readings : List Reading) : Dev :=
  if !d.up then d
  else
    let l := readings.filter (fun r => d.sensorPresent r.sensor)
    let d := l.foldl (fun d r => d.takeReading r) d
    let d := match hottest (l.filter (fun r => inRange r)) with
      | some r => (d.setf pgThm 0x108 31 16 (r.temp % 65536).toNat).setf pgThm 0x108 39 32 r.sensor
      | none => d
    let d := (List.range 2).foldl (fun d h => if d.halfPresent h then d.throttle l h else d) d
    let d := d.showDuty
    let hot := (l.filter (fun r => inRange r && (r.temp ≥ 880 : Bool))).map (fun r => r.sensor)
    let trip := hot.any (fun i => d.power.hot.contains i)
    let d := { d with power := { d.power with hot := hot } }
    if trip then
      let d := (d.setb pgPmu 0x158 0 true).emit (.pin "THERM_TRIP_N" false)
      { d with power := { d.power with tripLow := true } }.powerDown
    else d

def thmCtrl (d : Dev) (w : Wr) : Dev :=
  if !d.mayWrite w.agent pgThm 0x100 then d
  else
    let v := d.merged pgThm 0x100 w
    let t := fun (i : Nat) => v.field (8 * i + 7) (8 * i)
    if t 0 < t 1 ∧ t 1 < t 2 ∧ t 2 < 110 ∧ 1 ≤ t 3 ∧ t 3 ≤ 10 then d.setReg pgThm 0x100 (BitVec.ofNat 64 (v.field 31 0)) else d

/-! ### The board management controller (R522), and the core voltages (R512) -/

/-- PMU_FAULT bits written 1 clear; THERM_TRIP_N rises with TRIP. -/
def Dev.clearFault (d : Dev) (v : W64) : Dev :=
  let d := d.setReg pgPmu 0x158 (d.reg pgPmu 0x158 &&& ~~~v)
  if d.power.tripLow && !d.regb pgPmu 0x158 0 then
    { d with power := { d.power with tripLow := false } }.emit (.pin "THERM_TRIP_N" true)
  else d

def faultRead (d : Dev) : Dev :=
  if d.power.aux then (d.emit (.word (d.reg pgPmu 0x158))).emit (.word (d.reg pgPmu 0x128)) else d

def faultClear (d : Dev) (v : W64) : Dev := if d.power.aux then d.clearFault v else d

/-- A secure agent's write to PMU_FAULT. -/
def faultWrite (d : Dev) (w : Wr) : Dev := if d.mayWrite w.agent pgPmu 0x158 then d.clearFault (wrBits w) else d

/-- The device commands a core voltage within 0.60 to 0.90 V. -/
def avsCommand (d : Dev) (h mv : Nat) : Dev :=
  if !d.up || !d.halfPresent h || !d.goodOf (1 + h) || mv < 600 || mv > 900 then d
  else
    let p := if h = 0 then { d.power with mvA := mv } else { d.power with mvB := mv }
    { d with power := p }.emit (.avs h mv)

/-- TRST_N low resets the TAP (R514, R559). What a wrapper instruction left undefined stays so until a device reset. -/
def tapReset (d : Dev) : Dev := { d with tap := { Tap.reset with undef := d.tap.undef } }

def execPowerDutyUpdate (watts ampsA ampsB : Nat) (s : State) : Host.Outcome State Fault Refusal := s.lift (fun d => dutyUpdate d watts ampsA ampsB)
def execThermalSample (readings : List Reading) (s : State) : Host.Outcome State Fault Refusal := s.lift (fun d => thermalSample d readings)
def execPowerOnReset (s : State) : Host.Outcome State Fault Refusal := s.lift powerOn
def execPwrGoodRise (group : Nat) (s : State) : Host.Outcome State Fault Refusal := s.lift (fun d => goodRise d group)
def execPwrEnableNext (s : State) : Host.Outcome State Fault Refusal := s.lift enableNext
def execSeqTimeout (s : State) : Host.Outcome State Fault Refusal := s.lift seqTimeout
def execPwrGoodLoss (group : Nat) (s : State) : Host.Outcome State Fault Refusal := s.lift (fun d => goodLoss d group)
def execPowerDownStep (s : State) : Host.Outcome State Fault Refusal := s.lift downStep
def execSysRstNAssert (release : Bool) (s : State) : Host.Outcome State Fault Refusal := s.lift (fun d => sysRst d release)
def execPerstNAssert (release : Bool) (s : State) : Host.Outcome State Fault Refusal := s.lift (fun d => perst d release)
def execPcieHotReset (release : Bool) (s : State) : Host.Outcome State Fault Refusal := s.lift (fun d => hotReset d release)
def execDevRst (w : Wr) (s : State) : Host.Outcome State Fault Refusal := s.lift (fun d => devRst d w)
def execResetRelease (s : State) : Host.Outcome State Fault Refusal := s.lift resetRelease
def execTapReset (s : State) : Host.Outcome State Fault Refusal := s.lift tapReset
def execHalfRun (w : Wr) (s : State) : Host.Outcome State Fault Refusal := s.lift (fun d => halfRun d w)
def execProfileSelect (w : Wr) (s : State) : Host.Outcome State Fault Refusal := s.lift (fun d => profileSelect d w)
def execPwrLimitWrite (w : Wr) (s : State) : Host.Outcome State Fault Refusal := s.lift (fun d => pwrLimit d w)
def execSscEnWrite (w : Wr) (s : State) : Host.Outcome State Fault Refusal := s.lift (fun d => sscEn d w)
def execStandbyEntry (w : Wr) (s : State) : Host.Outcome State Fault Refusal := s.lift (fun d => pstateWrite d w)
def execStandbyExit (w : Wr) (s : State) : Host.Outcome State Fault Refusal := s.lift (fun d => pstateWrite d w)
def execPstateDone (s : State) : Host.Outcome State Fault Refusal := s.lift pstateDone
def execThmCtrlWrite (w : Wr) (s : State) : Host.Outcome State Fault Refusal := s.lift (fun d => thmCtrl d w)
def execPmuFaultRead (s : State) : Host.Outcome State Fault Refusal := s.lift faultRead
def execPmuFaultClear (value : W64) (s : State) : Host.Outcome State Fault Refusal := s.lift (fun d => faultClear d value)
def execRestart (s : State) : Host.Outcome State Fault Refusal := s.lift restartSeq
def execAvsVoltageCommand (half millivolts : Nat) (s : State) : Host.Outcome State Fault Refusal := s.lift (fun d => avsCommand d half millivolts)
def execPwrGoodAuxLoss (s : State) : Host.Outcome State Fault Refusal := s.lift auxLoss

/-- SYS_REFCLK leaves its limits. While the SYS group is on, R580 gives the device no behaviour until the next power-on
reset. -/
def execSysRefclkLoss (s : State) : Host.Outcome State Fault Refusal :=
  if s.dev.power.aux && s.dev.enableOf 0 then .fault .refclkUndefined else s.lift id

end Sys2Proof.Machine
end

