-- ==== Sys2Proof/Machine/Mailbox.lean ====
section
/-! DEFINITION. Mailboxes: doorbells and masks, channel configuration, messages, and the replies of firmware (R438, R441 to
R450). -/

namespace Sys2Proof.Machine

/-! ### Doorbells (R438, R443) -/

/-- The agent of a code. -/
def agentOf (code : Nat) : Agent :=
  match code with
  | 0 => .host
  | 1 => .fwn
  | 2 => .fws
  | 3 => .sec
  | 4 => .bmc
  | n => .ccp (n - 5)

/-- The interrupt of an agent with an unmasked doorbell bit. -/
def Dev.mbxIrq (d : Dev) (a : Nat) : Dev :=
  if d.reg (pgMbx 0) (0x100 + 16 * a) &&& ~~~ d.reg (pgMbx 0) (0x108 + 16 * a) = 0 then d
  else if a = 0 then d.emit (.msix (d.regf (pgMbx 0) 0x300 10 0))
  else d.emit (.agentIrq (agentOf a))

/-- A write to MBX_DB (with `mask` false) or MBX_DBM of agent a. -/
def mbxBell (d : Dev) (a : Nat) (mask : Bool) (w : Wr) : Dev :=
  let off := 0x100 + 16 * a + (if mask then 8 else 0)
  if !d.mayWrite w.agent (pgMbx 0) off || !d.mbxReach w.agent 0 off then d
  else
    let d := d.plainWrite (pgMbx 0) off w
    if mask then d.mbxIrq a else d

/-! ### Messages (R444 to R447) -/

/-- GO posts a message: SEQ advances and the receiver's doorbell bit sets. -/
def Dev.mbxPost (d : Dev) (c : Nat) : Dev :=
  let page := mbxPage c
  let off := mbxBase c + 0x60
  let a := d.mbxReceiver c
  let d := ((d.setGo c true).setf page off 23 16 (d.regf page off 23 16 + 1)).count page 0x01 1
  (d.setb (pgMbx 0) (0x100 + 16 * a) (d.regf (pgMbx 0) (0x200 + 8 * c) 12 8) true).mbxIrq a

/-- The agent reaches the channel's page as its sender, or as its receiver. -/
def Dev.mbxMay (d : Dev) (agent : Agent) (c code : Nat) : Bool :=
  c < 32 && d.pageOpen agent (mbxPage c) && agentCode agent == some code

/-- A GO write. -/
def mbxGo (d : Dev) (agent : Agent) (c : Nat) : Dev :=
  if !d.mbxMay agent c (d.mbxSender c) then d
  else if d.mbxGoBit c then (d.count (mbxPage c) 0x04 1).raise (mbxPage c) 0x0801 (d.mbxSender c * 4096 + c) 0
  else if d.regb (pgMbx 0) (0x200 + 8 * c) 15 then d.mbxPost c
  else d

/-- A write of data word `i`, or with `i` = 12 of LEN in MBX_CTRL. -/
def mbxData (d : Dev) (agent : Agent) (c i : Nat) (w : Wr) : Dev :=
  if !d.mbxMay agent c (d.mbxSender c) || i > 12 then d
  else if d.mbxGoBit c then d.count (mbxPage c) 0x03 1
  else
    let off := mbxBase c + 8 * i
    let v := d.merged (mbxPage c) off w
    if i = 12 then d.setf (mbxPage c) off 11 8 (v.field 11 8) else d.setReg (mbxPage c) off v

/-- Firmware puts words into a channel that it sends on, and sets GO. -/
def Dev.fwMessage (d : Dev) (c : Nat) (words : List W64) : Dev :=
  let page := mbxPage c
  let d := (List.range words.length).foldl (fun d i => d.setReg page (mbxBase c + 8 * i) (words.getD i 0)) d
  let d := d.setf page (mbxBase c + 0x60) 11 8 words.length
  if d.regb (pgMbx 0) (0x200 + 8 * c) 15 then d.mbxPost c else d

/-- A reply goes out, or is held in order while the channel has GO set (R450). -/
def Dev.fwPost (d : Dev) (c : Nat) (words : List W64) : Dev :=
  if d.mbxGoBit c then
    { d with svc := { d.svc with heldOut := KV.set d.svc.heldOut c (KV.get [] d.svc.heldOut c ++ [words]) } }
  else d.fwMessage c words

/-- The next reply that is held for a channel goes out. -/
def Dev.fwNext (d : Dev) (c : Nat) : Dev :=
  match KV.get [] d.svc.heldOut c with
  | [] => d
  | r :: rest =>
    { d with svc := { d.svc with heldOut := if rest.isEmpty then KV.erase d.svc.heldOut c else KV.set d.svc.heldOut c rest } }.fwMessage c r

/-- A message ends: GO clears. -/
def Dev.mbxEnd (d : Dev) (c : Nat) : Dev := (((d.setGo c false).count (mbxPage c) 0x02 1)).fwNext c

/-- A TAKE write. -/
def mbxTake (d : Dev) (agent : Agent) (c : Nat) : Dev :=
  if !d.mbxMay agent c (d.mbxReceiver c) || !d.mbxGoBit c then d else d.mbxEnd c

/-- A write to MBX_CTRL: TAKE first, then LEN and GO. -/
def mbxCtrl (d : Dev) (agent : Agent) (c : Nat) (w : Wr) : Dev :=
  let took := wrHit w 1 && d.mbxMay agent c (d.mbxReceiver c)
  let d := if wrHit w 1 then mbxTake d agent c else d
  if !w.lo then d
  else if wrHit w 0 then
    let d := if d.mbxGoBit c then d else mbxData d agent c 12 w
    mbxGo d agent c
  else if took && !(d.mbxSender c == d.mbxReceiver c) then d
  else mbxData d agent c 12 w

/-! ### Configuration (R443) -/

/-- The agents that a channel may name. -/
def mbxNames (c a : Nat) : Bool := if c < 16 then a == 2 || a == 3 else a ≤ 1 || (4 ≤ a && a ≤ 12)

/-- A write to MBX_CFG. -/
def mbxCfg (d : Dev) (c : Nat) (w : Wr) : Dev :=
  let off := 0x200 + 8 * c
  if c ≥ 32 || !d.mayWrite w.agent (pgMbx 0) off || d.mbxGoBit c then d
  else
    let v := d.merged (pgMbx 0) off w
    if mbxNames c (v.field 3 0) && mbxNames c (v.field 7 4) then d.setReg (pgMbx 0) off (v &&& 0x9FFF) else d

def execMbxGo (agent : Agent) (chan : Nat) (s : State) : Host.Outcome State Fault Refusal := s.lift (fun d => mbxGo d agent chan)
def execMbxTake (agent : Agent) (chan : Nat) (s : State) : Host.Outcome State Fault Refusal := s.lift (fun d => mbxTake d agent chan)
def execMbxDataWrite (agent : Agent) (chan word : Nat) (w : Wr) (s : State) : Host.Outcome State Fault Refusal :=
  s.lift (fun d => mbxData d agent chan word w)
def execMbxCfgWrite (chan : Nat) (w : Wr) (s : State) : Host.Outcome State Fault Refusal := s.lift (fun d => mbxCfg d chan w)

end Sys2Proof.Machine
end

