-- ==== Sys2Proof/Machine/Services.lean ====
section
/-! DEFINITION. The services of system-die firmware: requests and replies, ingest, checkpoint and restore, fabric, queue and
telemetry services, and the host link (R429 to R440, R449 to R464). -/

namespace Sys2Proof.Machine

/-! ### Requests and replies (R449, R450, R461) -/

/-- Firmware serves requests (R431, R440). -/
def Dev.serving (d : Dev) : Bool := d.up && d.sec.booted && d.regb pgSys 0x908 0

/-- The message of a channel: its twelve words, zero from LEN on. -/
def Dev.mbxWords (d : Dev) (c : Nat) : List W64 :=
  let len := min 12 (d.regf (mbxPage c) (mbxBase c + 0x60) 11 8)
  (List.range 12).map (fun i => if i < len then d.reg (mbxPage c) (mbxBase c + 8 * i) else 0)

def isRequest (service op : Nat) (ws : List W64) : Bool := (wd ws 0).field 7 0 == service && (wd ws 0).field 15 8 == op

/-- The request that waits next on its way in, if it is for this service and operation: channel 18 goes before 16. -/
def Dev.takeRequest (d : Dev) (via : Via) (service op : Nat) : Option (Dev × List W64) :=
  if !d.serving then none
  else
    match via with
    | .channel c =>
      let ws := d.mbxWords c
      let first := c = 18 ∨ c = 20 ∨ (c = 16 ∧ d.mbxGoBit 18 = false)
      if first ∧ d.mbxGoBit c ∧ isRequest service op ws then some (d.mbxEnd c, ws) else none
    | .mgmt =>
      match d.svc.mgmtReq with
      | ws :: rest =>
        if isRequest service op ws then some ({ d with svc := { d.svc with mgmtReq := rest } }, ws) else none
      | [] => none

/-- A reply with the request's header and a status. -/
def replyWords (ws : List W64) (status : Nat) (data : List W64) : List W64 :=
  BitVec.ofNat 64 ((wd ws 0).field 31 0 + status * 2 ^ 32) :: data

def Dev.reply (d : Dev) (via : Via) (ws : List W64) (status : Nat) (data : List W64) : Dev :=
  let r := replyWords ws status data
  match via with
  | .channel c => d.fwPost (c + 1) r
  | .mgmt => d.emit (.datagram (r ++ List.replicate (12 - r.length) 0))

/-- How the work of a request ends: with a status and reply words, or not, where an access of it never completes. -/
abbrev Answer := Option (Nat × List W64)

/-- A request is served: it is taken, and its answer goes out. -/
def Dev.serve (d : Dev) (via : Via) (service op : Nat) (work : Dev → List W64 → Dev × Answer) : Dev :=
  match d.takeRequest via service op with
  | none => d
  | some (d, ws) =>
    let r := work d ws
    match r.2 with
    | some a => r.1.reply via ws a.1 a.2
    | none => r.1

/-! ### Firmware's reads and writes of memory (R29, R202, R430) -/

/-- A request that ends early: its status, and an event record; or nothing, where an access of it never completes (R418, R523). -/
abbrev SM := ExceptT (Option (Nat × W64)) (StateM Dev)

def ends {α : Type} (status : Nat) : SM α := throw (some (status, 0))
def needs (b : Bool) (status : Nat) : SM Unit := if b then pure () else ends status

/-- What firmware and the decode engines may name: everything but near stores, whose bus error ends the request BAD_REQUEST, and
the register window (R29, log 57). Reserved ranges read zero and ignore writes (R32), as does the unbacked part of a carve-out
window (R200). -/
def fwReach : Space → Bool
  | .near _ _ => false
  | .window _ => false
  | _ => true

/-- Every access of a range over the UCIe link of the half that owns it completes (R23, R523). -/
def Dev.rangeReaches (d : Dev) (pa n : Nat) : Bool := (chunks pa n).all (fun c => d.reaches c.1)

/-- An access of firmware or a decode engine to a range. -/
def access (pa n : Nat) : SM Unit := do
  let d ← get
  needs (d.rangeOk pa n fwReach) 1
  if !d.rangeReaches pa n then throw none

/-- A physical read. -/
def pread (pa n : Nat) : SM (List Byte) := do
  access pa n
  let r := (← get).load pa n
  set r.1
  match r.2.2 with
  | some ev => throw (some (3, ev))
  | none => return r.2.1

def pword (pa : Nat) : SM W64 := do return BitVec.ofNat 64 (leNat (← pread pa 8))

/-- A read through the page table, for the areas that a slice table names. -/
def sread (va n : Nat) : SM (List Byte) :=
  (pageChunks va n).foldlM (fun (acc : List Byte) (pc : Nat × Nat) => do
    match (← get).physOf pc.1 with
    | none => ends 1
    | some pa => return acc ++ (← pread pa pc.2)) []

def sword (va : Nat) : SM W64 := do return BitVec.ofNat 64 (leNat (← sread va 8))

def swrite (va : Nat) (bs : List Byte) : SM Unit := do
  let _ ← (pageChunks va bs.length).foldlM (fun (rest : List Byte) (pc : Nat × Nat) => do
    match (← get).physOf pc.1 with
    | none => ends 1
    | some pa =>
      access pa pc.2
      modify (fun d => d.store pa (rest.take pc.2))
      return rest.drop pc.2) bs

def runS (d : Dev) (a : SM (List W64)) : Dev × Answer :=
  let r := (a.run).run d
  match r.1 with
  | .ok ws => (r.2, some (0, ws))
  | .error (some (st, ev)) => (r.2, some (st, [0, ev]))
  | .error none => (r.2, none)

/-- The wrapping add to a DONE word; 0 names none (R453). -/
def Dev.doneWord (d : Dev) (w : W64) : Dev := if w.field 47 0 = 0 then d else d.atomic 2 (w.field 47 0) 1

/-- The store of a DONE word answers. -/
def Dev.doneReaches (d : Dev) (w : W64) : Bool := w.field 47 0 == 0 || d.reaches (w.field 47 0)

/-! ### Drives (R451) -/

/-- Logical block size of a namespace. -/
def blockSize (port nsid : Nat) : Nat := if Config.driveBlock4k port nsid then 4096 else 512

/-- A byte of a drive: port, namespace and byte address. -/
def driveKey (port nsid a : Nat) : Nat := (port * 2 ^ 32 + nsid) * 2 ^ 80 + a

def Dev.driveByte (d : Dev) (port nsid a : Nat) : Byte :=
  match KV.find? d.drives (driveKey port nsid a) with
  | some b => b
  | none => Config.driveByte (driveKey port nsid a)

def Dev.driveBytes (d : Dev) (port nsid a n : Nat) : List Byte := (List.range n).map (fun i => d.driveByte port nsid (a + i))

def driveAll (l : List Host.Cell) (k : Nat) : List Byte → List Host.Cell
  | [] => l
  | b :: bs => driveAll (KV.set l k b) (k + 1) bs

def Dev.driveWrite (d : Dev) (port nsid a : Nat) (bs : List Byte) : Dev := { d with drives := driveAll d.drives (driveKey port nsid a) bs }

/-! ### Ingest (R452 to R455) -/

structure IngestArgs where
  clip   : List Byte
  cont   : Nat
  first  : Nat
  frames : Nat
  x      : Nat
  y      : Nat
  w      : Nat
  h      : Nat
  stride : Nat
  colour : Nat
  dst    : Tensor
  scales : List W64
  deriving DecidableEq, Repr

/-- The bytes that an extent list names. -/
def extentBytes (port nsid : Nat) (ext n : Nat) : SM (List Byte) := do
  needs ((← get).rangeOk ext (16 * n) inDram) 1
  (List.range n).foldlM (fun (acc : List Byte) (i : Nat) => do
    let lba ← pword (ext + 16 * i)
    let cnt ← pword (ext + 16 * i + 8)
    needs (cnt.field 63 32 == 0) 1
    let bs := blockSize port nsid
    return acc ++ (← get).driveBytes port nsid (lba.toNat * bs) (cnt.toNat * bs)) []

/-- A tensor descriptor at a physical address, as firmware reads it: its addresses are physical too (R202). -/
def physTensor (pa : Nat) : SM Tensor := do
  access pa 256
  let d ← get
  let root := d.reg pgSys 0x400
  let who : Who := { core := 8, ctx := 0, secure := false, phys := true }
  let r := ((tensor who pa Role.destination).run).run (Run.start (d.setReg pgSys 0x400 0))
  set (r.2.dev.setReg pgSys 0x400 root)
  match r.1 with
  | .ok t => return t
  | .error (.fail 0x04 ev) => throw (some (3, ev))
  | .error (.hold _) => throw none
  | .error _ => ends 1

/-- An ingest request read and checked. -/
def parseIngest (ws : List W64) : SM IngestArgs := do
  let f := fun (i hi lo : Nat) => (wd ws i).field hi lo
  let clip ← extentBytes (f 2 0 0) (f 2 63 32) (f 1 47 0) (f 1 63 48)
  let stride := max 1 (f 5 7 0)
  let a : IngestArgs :=
    { clip := clip, cont := f 3 3 0, first := f 3 31 8, frames := f 3 63 32, x := f 4 15 0, y := f 4 31 16, w := f 4 47 32,
      h := f 4 63 48, stride := stride, colour := f 5 9 8, dst := ← physTensor (f 6 47 0), scales := [wd ws 7, wd ws 8, wd ws 9] }
  let t := a.dst
  needs (a.cont ≤ 2 && a.colour != 3 && Config.clipOk clip a.cont a.first a.frames
    && a.x + a.w ≤ Config.clipWidth clip && a.y + a.h ≤ Config.clipHeight clip) 1
  needs (t.layout == .linear && t.steer.isNone && t.scaleKind == 0 && (t.fmt == 0x00 || t.fmt == 0x01 || t.fmt == 0x02)
    && t.gs == [3, a.w, a.h, (a.frames + stride - 1) / stride]) 1
  needs ((← get).rangeOk t.base (t.bytes (widthOfFmt t.fmt)) fwReach) 1
  return a
where
  widthOfFmt (fmt : Nat) : Nat := Fmt.codeWidth fmt

/-- FP32 from an exact ratio. -/
def ratio32 (n d : Nat) : Nat := enc32 (FVal.div (.num false n 1) (.num false d 1))

/-- Luma and chroma code values at a luma position, chroma repeated (R454). -/
def codeAt (a : IngestArgs) (frame x y comp : Nat) : Nat :=
  if comp = 0 then Config.decodedSample a.clip frame x y 0
  else Config.decodedSample a.clip frame (x / 2) (if Config.clip420 a.clip then y / 2 else y) comp

/-- Y', or Cb' and Cr', in FP32. -/
def primeOf (a : IngestArgs) (code comp : Nat) : Nat :=
  let b := Config.clipDepth a.clip
  let c := f32OfNat code
  if Config.clipFullRange a.clip then
    let top := f32OfNat (2 ^ b - 1)
    if comp = 0 then fdiv c top else fdiv (fsub c (f32OfNat (2 ^ (b - 1)))) top
  else
    let k := 2 ^ (b - 8)
    if comp = 0 then fdiv (fsub c (f32OfNat (16 * k))) (f32OfNat (219 * k))
    else fdiv (fsub c (f32OfNat (128 * k))) (f32OfNat (224 * k))

/-- The value of channel c before SCALE and OFFSET: R, G, B by BT.709 or BT.2020, or the code value. -/
def colourOf (a : IngestArgs) (frame x y c : Nat) : Nat :=
  if a.colour = 0 then f32OfNat (codeAt a frame x y c)
  else
    let kr := if a.colour = 1 then 2126 else 2627
    let kb := if a.colour = 1 then 722 else 593
    let kg := 10000 - kr - kb
    let yp := primeOf a (codeAt a frame x y 0) 0
    let cb := primeOf a (codeAt a frame x y 1) 1
    let cr := primeOf a (codeAt a frame x y 2) 2
    let ca := ratio32 (2 * (10000 - kr)) 10000
    let cd := ratio32 (2 * (10000 - kb)) 10000
    let gb := ratio32 (2 * kb * (10000 - kb)) (10000 * kg)
    let gr := ratio32 (2 * kr * (10000 - kr)) (10000 * kg)
    match c with
    | 0 => ffma ca cr yp
    | 1 => ffma (fneg gr) cr (ffma (fneg gb) cb yp)
    | _ => ffma cd cb yp

/-- One kept frame is written at the valid positions of the shard (R175, R454). -/
def writeFrame (a : IngestArgs) (d : Dev) (p : List Int) : Dev :=
  let g := fun (i : Nat) => ((a.dst.dim i).gOf (p.getD i 0)).toNat
  let v := colourOf a (a.first + g 3 * a.stride) (a.x + g 1) (a.y + g 2) (g 0)
  let s := wd a.scales (g 0)
  let r := ffma v (s.field 31 0) (s.field 63 32)
  match Fmt.ofCode a.dst.fmt with
  | none => d
  | some f =>
    let code := (f.conv .rne (dec32 r)).1
    d.store (a.dst.place p f.bits).1 (leBytes (f.bits / 8) code)

/-- The first n kept frames are written. -/
def writeFrames (a : IngestArgs) (d : Dev) (n : Nat) : Dev :=
  (a.dst.validPositions.filter (fun p => ((a.dst.dim 3).gOf (p.getD 3 0)).toNat < n)).foldl (writeFrame a) d

/-- The lowest slot that is free, of sixteen. -/
def freeSlot (l : List (Nat × IngestReq)) : Option Nat := (List.range 16).find? (fun i => !l.any (fun x => x.1 == i))

/-- Requests in order of arrival take the decode engines that are free. -/
def startIngests : Nat → List (Nat × IngestReq) → List (Nat × IngestReq)
  | _, [] => []
  | left, (i, r) :: rest =>
    if r.run then (i, r) :: startIngests left rest
    else if left = 0 then (i, r) :: startIngests 0 rest
    else (i, { r with run := true }) :: startIngests (left - 1) rest

def Dev.runIngests (d : Dev) : Dev :=
  let l := d.svc.ingests
  { d with svc := { d.svc with ingests := startIngests (4 - (l.filter (fun x => x.2.run)).length) l } }

/-- An ingest request is opened, or refused at once. -/
def ingestOpen (d : Dev) (via : Via) : Dev :=
  match d.takeRequest via 1 1 with
  | none => d
  | some (d, ws) =>
    match freeSlot d.svc.ingests with
    | none => d.reply via ws 2 [0, 0]
    | some i =>
      let r := (parseIngest ws).run.run d
      match r.1 with
      | .error (some (st, ev)) => r.2.reply via ws st [0, ev]
      | .error none => r.2
      | .ok _ =>
        let d := r.2
        let q : IngestReq := { words := ws, via := via, run := false }
        { d with svc := { d.svc with ingests := d.svc.ingests ++ [(i, q)] } }.runIngests

/-- The record of the poisoned word that stopped a decode engine (R430): MEM_UE of a channel, or SRAM_UE of a far store or the
system die; free values choose where, for which rule R20 gives the codes. -/
def Dev.decodePoison (d : Dev) : Dev × W64 :=
  let f := d.takeFree
  let n := f.2.toNat
  (f.1, if n % 2 = 0 then eventRecord (pgMem (n / 2 % 16)) 0x0602 (n / 32 % 2 ^ 31 / 2 ^ 26 * 2 ^ 26)
    else eventRecord pgSys 0x0604 ((3 + n / 2 % 5) * 2 ^ 28 + n / 16 % 2 ^ 22))

/-- A running ingest ends with a status: OK, UNCORRECTABLE or MEDIA_ERROR. In the last two a free value says how many of
its frames were written. One with an access that never completes does not end. -/
def ingestComplete (d : Dev) (slot status : Nat) : Dev :=
  match d.svc.ingests.find? (fun x => x.1 == slot) with
  | none => d
  | some (_, q) =>
    if !d.serving || !q.run || !(status == 0 || status == 3 || status == 4) then d
    else
      let d0 := d
      let d := { d with svc := { d.svc with ingests := d.svc.ingests.filter (fun x => x.1 != slot) } }
      let r := (parseIngest q.words).run.run d
      let done := fun (d : Dev) (st frames : Nat) (ev : W64) =>
        ((d.doneWord (wd q.words 10)).reply q.via q.words st [BitVec.ofNat 64 frames, if st = 0 then 0 else ev]).runIngests
      if !d0.doneReaches (wd q.words 10) then d0
      else match r.1 with
      | .error none => d0
      | .error (some (st, ev)) => done r.2 st 0 ev
      | .ok a =>
        let total := (a.frames + a.stride - 1) / a.stride
        if !r.2.rangeReaches a.dst.base (a.dst.bytes (Fmt.codeWidth a.dst.fmt)) then d0
        else if status = 0 then done (writeFrames a r.2 total) 0 total 0
        else
          let f := r.2.takeFree
          let n := f.2.toNat % (total + 1)
          let g := if status = 3 then f.1.decodePoison else (f.1, 0)
          done (writeFrames a g.1 n) status n g.2

/-! ### Checkpoint and restore (R456 to R458) -/

def Dev.engines (d : Dev) : List Nat := (List.range 2).filter d.halfPresent

/-- Whole units of 4 KiB. -/
def pad4k (bs : List Byte) : List Byte := bs ++ List.replicate ((4096 - bs.length % 4096) % 4096) 0

def le4k (l : List (Nat × Nat)) : List Byte := pad4k (l.flatMap (fun x => leBytes x.1 x.2))

/-- The five areas of a slice: copies 0 and 1 and their bytes. The fifth goes by RSEL. -/
def Slice.areas (s : Slice) : List ((Nat × Nat) × Nat) :=
  let n := s.rows * s.cols
  let k := (s.pbr * s.pbr + s.pbc * s.pbc) * 4
  [(s.hi, 2 * n), (s.lo, 2 * n), (s.mom, 4 * n), (s.fac, blocksOf s * k), (s.root, blocksOf s * (k + 64))]

/-- Bytes of a slice record. -/
def Slice.recordBytes (s : Slice) : Nat := 4096 + (s.areas.map (fun a => (a.2 + 4095) / 4096 * 4096)).sum

/-- A slice-table entry as firmware reads it. -/
def fwEntry (h i : Nat) : SM (List W64) := do
  let va := (← get).sliceAddr h i
  (List.range 16).mapM (fun k => sword (va + 8 * k))

def fwSlice (h i : Nat) : SM Slice := do
  let s := sliceOf (← fwEntry h i)
  needs s.valid 1
  return s

/-- The record of a slice at step P: its first unit, then the areas of the copy that R330 names, and the roots of RSEL. -/
def sliceRecord (p h i : Nat) : SM (List Byte) := do
  let ws ← fwEntry h i
  let s ← fwSlice h i
  let v ← sword s.ver
  let step := v.field 63 16
  let sel := v.field 0 0
  let rsel := v.field 1 1
  needs (step == p || step == (p + 1) % 2 ^ 48) 1
  let copy := if step = p then sel else 1 - sel
  let saved := ws.set 11 (BitVec.ofNat 64 (rsel * 2))
  let head := leBytes 4 i ++ leBytes 4 h ++ List.replicate 56 0 ++ saved.flatMap (fun w => leBytes 8 w.toNat)
  let parts ← (List.range 5).mapM (fun k => do
    let a := s.areas.getD k ((0, 0), 0)
    return pad4k (← sread (pick (if k = 4 then rsel else copy) a.1) a.2))
  return pad4k head ++ parts.flatten

/-- Slices of an engine. -/
def Dev.sliceCount (d : Dev) (h : Nat) : Nat := if d.halfPresent h then d.regf (pgUpd h) 0x108 16 0 else 0

/-- CRC-32C (Castagnoli) as R457 names it. -/
def imageCrc (bs : List Byte) : Nat := crc32c bs

/-- The image's header unit. -/
def imageHeader (dev p na nb : Nat) (rest : List Byte) : List Byte :=
  le4k [(4, 1), (2, dev), (2, 0), (8, p), (4, na), (4, nb), (4, imageCrc rest)]

/-- The schedule descriptors of both engines. -/
def Dev.schedUnit (d : Dev) : List Byte :=
  pad4k ((List.range 2).flatMap (fun h => (List.range 128).flatMap (fun i =>
    leBytes 8 (if d.halfPresent h then (d.reg (pgUpd h) (0x400 + 8 * i)).toNat else 0))))

/-- The whole image of step P. -/
def checkpointImage (p : Nat) : SM (List Byte) := do
  let d ← get
  let recs ← d.engines.mapM (fun h => do
    return (← (List.range (d.sliceCount h)).mapM (fun i => sliceRecord p h i)).flatten)
  let rest := d.schedUnit ++ recs.flatten
  return imageHeader (d.regf pgSys 0x600 13 0) p (d.sliceCount 0) (d.sliceCount 1) rest ++ rest

/-- The size of the image. -/
def imageBytes : SM Nat := do
  let d ← get
  let l ← d.engines.mapM (fun h => do
    return (← (List.range (d.sliceCount h)).mapM (fun i => do return (← fwSlice h i).recordBytes)).sum)
  return 8192 + l.sum

/-- Every update engine is pinned at step P. -/
def Dev.allPinned (d : Dev) (p : Nat) : Bool :=
  d.engines.all (fun h => d.regb (pgUpd h) 0x130 63 && d.regf (pgUpd h) 0x130 47 0 == p)

/-- What a request names on a drive. -/
def drivePlace (ws : List W64) : Nat × Nat × Nat × Nat :=
  ((wd ws 1).field 0 0, (wd ws 1).field 63 32, (wd ws 2).toNat, (wd ws 3).toNat)

def checkpointOpen (d : Dev) (via : Via) : Dev :=
  if d.svc.ckpt.isSome then d
  else
    match d.takeRequest via 2 1 with
    | none => d
    | some (d, ws) =>
      let r := (do
        let d ← get
        needs (d.allPinned ((wd ws 4).field 47 0)) 5
        let pl := drivePlace ws
        let n ← imageBytes
        needs (n ≤ pl.2.2.2 * blockSize pl.1 pl.2.1) 1 : SM Unit).run.run d
      match r.1 with
      | .error (some (st, ev)) => r.2.reply via ws st [0, ev]
      | .error none => r.2
      | .ok _ =>
        let d := r.2
        let open' := !(wd ws 5).bit 0 || d.fts.windows.any (fun w => w.checkpoint)
        { d with svc := { d.svc with ckpt := some { words := ws, via := via, begun := open' } } }

/-- An NVMe command may fail, as a free value says; another then says how much was written. -/
def driveFails (d : Dev) : Dev × Bool :=
  let r := d.takeFree
  (r.1, r.2.bit 0)

/-- The image is written, DONE is advanced and the reply goes out. -/
def checkpointDone (d : Dev) : Dev :=
  match d.svc.ckpt with
  | none => d
  | some k =>
    if !d.serving || !k.begun then d
    else
      let d0 := d
      let d := { d with svc := { d.svc with ckpt := none } }
      let pl := drivePlace k.words
      let r := (checkpointImage ((wd k.words 4).field 47 0)).run.run d
      let done := fun (d : Dev) (st : Nat) (ev : W64) => (d.doneWord (wd k.words 6)).reply k.via k.words st (if st = 0 then [] else [0, ev])
      if !d0.doneReaches (wd k.words 6) then d0
      else match r.1 with
      | .error none => d0
      | .error (some (st, ev)) => done r.2 st ev
      | .ok img =>
        let bs := blockSize pl.1 pl.2.1
        let f := driveFails r.2
        if f.2 then
          let g := f.1.takeFree
          done (g.1.driveWrite pl.1 pl.2.1 (pl.2.2.1 * bs) (img.take (g.2.toNat % (img.length + 1) / bs * bs))) 4 0
        else done (f.1.driveWrite pl.1 pl.2.1 (pl.2.2.1 * bs) img) 0 0

/-- A slice's saved shape equals the current entry's. -/
def sameShape (a b : Slice) : Bool := a.rows == b.rows && a.cols == b.cols && a.pbr == b.pbr && a.pbc == b.pbc

/-- Where each slice record of an image lies, by the current entries: engine, slice and offset. -/
def recordPlaces (h : Nat) : Nat → Nat → Nat → SM (List (Nat × Nat × Nat) × Nat)
  | 0, _, off => pure ([], off)
  | n + 1, i, off => do
    let s ← fwSlice h i
    let r ← recordPlaces h n (i + 1) (off + s.recordBytes)
    return ((h, i, off) :: r.1, r.2)

/-- One slice of an image goes to copy 0 of every area and root copy 0 (R458). -/
def restoreSlice (img : List Byte) (p h i off : Nat) : SM Unit := do
  let s ← fwSlice h i
  let _ ← s.areas.foldlM (fun (o : Nat) (a : (Nat × Nat) × Nat) => do
    swrite a.1.1 ((img.drop o).take a.2)
    return o + (a.2 + 4095) / 4096 * 4096) (off + 4096)
  swrite s.ver (leBytes 8 (p * 2 ^ 16))
  let va := (← get).srecAddr h i
  let old ← sword va
  swrite va (leBytes 8 ((old.setField 3 0 0).toNat))

/-- A restore: the checks, then every slice. -/
def restoreWork (ws : List W64) : SM (List W64) := do
  let d ← get
  needs (d.engines.all (fun h => !d.regb (pgUpd h) 0x010 0)) 5
  let pl := drivePlace ws
  let bs := blockSize pl.1 pl.2.1
  let at0 := pl.2.2.1 * bs
  let head := d.driveBytes pl.1 pl.2.1 at0 32
  let f := fun (o n : Nat) => leNat ((head.drop o).take n)
  let na := f 16 4
  let nb := f 20 4
  needs (f 0 4 == 1 && na ≤ d.sliceCount 0 && nb ≤ d.sliceCount 1) 1
  let a ← recordPlaces 0 na 0 8192
  let b ← recordPlaces 1 nb 0 a.2
  needs (b.2 ≤ pl.2.2.2 * bs) 1
  let img := d.driveBytes pl.1 pl.2.1 at0 b.2
  needs (imageCrc (img.drop 4096) == f 24 4) 1
  let places := a.1 ++ b.1
  places.forM (fun x => do
    let ws := (List.range 16).map (fun k => BitVec.ofNat 64 (leNat ((img.drop (x.2.2 + 64 + 8 * k)).take 8)))
    needs (sameShape (sliceOf ws) (← fwSlice x.1 x.2.1)) 1)
  let fl := driveFails (← get)
  set fl.1
  if fl.2 then ends 4
  places.forM (fun x => restoreSlice img (f 8 6) x.1 x.2.1 x.2.2)
  return []

def restoreServe (d : Dev) (via : Via) : Dev :=
  match d.takeRequest via 3 1 with
  | none => d
  | some (d, ws) =>
    let r := runS d (restoreWork ws)
    match r.2 with
    | none => r.1
    | some a =>
      if a.1 = 1 ∨ a.1 = 5 then r.1.reply via ws a.1 a.2
      else if !r.1.doneReaches (wd ws 6) then r.1
      else (r.1.doneWord (wd ws 6)).reply via ws a.1 a.2

/-! ### Fabric management (R459) -/

/-- SYS_DEVID takes a value; HELLO goes out on every UP port when VALID becomes 1. -/
def Dev.putDevId (d : Dev) (v : W64) : Dev :=
  let was := d.regb pgSys 0x600 63
  let d := d.setReg pgSys 0x600 v
  if v.bit 63 && !was then d.helloAll else d

def setDeviceId (d : Dev) (via : Via) (id : Nat) : Dev :=
  d.serve via 5 1 (fun d _ => if id < 2 ^ 14 then (d.putDevId (BitVec.ofNat 64 (id + 2 ^ 63)), some (0, [])) else (d, some (1, [])))

/-- A write of the service to a register, in the secure world. -/
def fwWrite (v : W64) : Wr := { agent := .fws, hi := true, lo := true, val := v }

def routeTableLoad (d : Dev) (via : Via) (buffer count : Nat) : Dev :=
  d.serve via 5 2 (fun d _ =>
    let base := d.regf pgSys 0x610 47 12 * 4096
    runS d (do
      needs (count ≤ 16384 && d.rangeOk buffer (32 * count) inDram && d.rangeOk base (32 * count) fwReach) 1
      let bs ← pread buffer (32 * count)
      access base (32 * count)
      modify (fun d => routeInv (d.store base bs) (fwWrite (BitVec.ofNat 64 (2 ^ 63 + 2 ^ 15))))
      return []))

def meshEntrySet (d : Dev) (via : Via) (index : Nat) (words : List W64) : Dev :=
  d.serve via 5 3 (fun d _ =>
    if index < 16 ∧ words.length = 4 then
      ((List.range 4).foldl (fun d k => d.plainWrite pgSys (0x700 + 32 * index + 8 * k) (fwWrite (wd words k))) d, some (0, []))
    else (d, some (1, [])))

def absentPeerClear (d : Dev) (via : Via) (dev : Nat) : Dev :=
  d.serve via 5 4 (fun d _ =>
    if dev < 2 ^ 14 then
      (d.engines.foldl (fun d h => peerClear d h (fwWrite (BitVec.ofNat 64 dev))) d, some (0, []))
    else (d, some (1, [])))

/-! ### Queue management (R460) -/

def queueTableQuery (d : Dev) (via : Via) : Dev :=
  d.serve via 4 1 (fun d _ => (d, some (0, [d.reg pgSys 0x430, d.reg pgSys 0x438, d.reg pgPci 0x100])))

/-- The address of the last-level entry of a virtual address; BAD_REQUEST where the tables above it do not exist. -/
def tableEntryOf (va : Nat) : SM Nat := do
  let root := (← get).reg pgSys 0x400
  needs (root.bit 63) 1
  match ptEntry (← pword (entryAddr1 root va)) with
  | .error _ => ends 1
  | .ok e1 =>
    needs (!e1.bit 4) 1
    match ptEntry (← pword (entryAddr2 e1 va)) with
    | .error _ => ends 1
    | .ok e2 =>
      needs (!e2.bit 4) 1
      return entryAddr3 e2 va

/-- The 64 KiB page of a queue's table entry is mapped or unmapped at an address of the BAR2 view, and its translations are
dropped. -/
def queueTableMap (d : Dev) (via : Via) (map : Bool) (va queue : Nat) : Dev :=
  d.serve via 4 2 (fun d _ => runS d (do
    let base := (d.reg pgPci 0x100).toNat
    needs (decide (va % 65536 = 0 ∧ base ≤ va ∧ va < base + 2 ^ d.regf pgPci 0x110 5 0 ∧ queue < 65536)
      && d.corePresent (queue / 8192)) 1
    let a ← tableEntryOf va
    let page := d.queueEntry queue / 65536 * 65536
    access a 8
    modify (fun d =>
      let d := d.storeWord a (if map then BitVec.ofNat 64 (page + 7) else 0)
      { d with tlbs := d.tlbs.filter (fun t => t.1 % 2 ^ 32 != va / 65536), ptSeen := KV.erase d.ptSeen (va / 65536) })
    return []))

/-! ### Telemetry, management ports and the firmware's heartbeat (R431, R460, R461) -/

def telemetryEnable (d : Dev) (via : Via) : Dev :=
  d.serve via 6 1 (fun d _ => ({ d with svc := { d.svc with telemetry := true } }, some (0, [])))

/-- A datagram with a service request, within a secured session. -/
def mgmtDatagram (d : Dev) (port session : Nat) (secured : Bool) (words : List W64) : Dev :=
  if d.up && d.sec.booted && decide (port < 2) && secured && d.sec.sessions.contains (.mgmtPort, session) && words.length == 12 then
    { d with svc := { d.svc with mgmtReq := d.svc.mgmtReq ++ [words] } }
  else d

/-- The event records that pages have captured, first and last (R471). -/
def Dev.capturedEvents (d : Dev) : List W64 :=
  (d.regs.filter (fun r => (r.1 % 4096 == 0x030 || r.1 % 4096 == 0x038) && r.2 != 0)).map (fun r => r.2)

/-- A millisecond passes for serving firmware (R431). With telemetry on it may post a notice with block events that it forwards,
as free values say (R460). -/
def fwAliveTick (d : Dev) : Dev :=
  if !d.serving then d
  else
    let d := d.setReg pgSys 0x900 (BitVec.ofNat 64 ((d.regf pgSys 0x900 62 0 + 1) % 2 ^ 63))
    let evs := d.capturedEvents
    if !d.svc.telemetry || evs.isEmpty then d
    else
      let r := d.takeFree
      if !r.2.bit 0 then r.1
      else
        let n := 1 + r.2.field 7 4 % 11
        let ws := (List.range n).map (fun i => evs.getD ((Config.freeValue (r.1.free + i)).toNat % evs.length) 0)
        { r.1 with free := r.1.free + n }.fwPost 19 (BitVec.ofNat 64 6 :: ws)

/-! ### The host link (R434 to R440, R464) -/

/-- BAR2's size in bytes. -/
def Dev.bar2Size (d : Dev) : Nat := 2 ^ d.regf pgPci 0x110 5 0

def Dev.bar2Fault (d : Dev) : Dev := (d.setIsr pgPci 0).count pgPci 0x03 1

/-- Where a BAR2 access may land: DRAM, and a carve-out window, whose unbacked part reads zero and ignores writes (R200, R436). -/
def bar2Place : Space → Bool
  | .dram _ _ => true
  | .carve _ _ => true
  | .unbacked => true
  | _ => false

/-- The physical parts of a BAR2 access; none where a translation fails or a part lies outside DRAM and the carve-outs. -/
def bar2Parts (write : Bool) : List (Nat × Nat) → Dev → Dev × Option (List (Nat × Nat))
  | [], d => (d, some [])
  | (va, n) :: rest, d =>
    let r := d.translate 12 va write false
    match r.2 with
    | .error _ => (r.1, none)
    | .ok pa =>
      if r.1.rangeOk pa n bar2Place then
        let t := bar2Parts write rest r.1
        (t.1, t.2.map (fun l => (pa, n) :: l))
      else (r.1, none)

def bar2Access (d : Dev) (write : Bool) (offset len : Nat) (data : List Byte) : Dev :=
  let n := if write then data.length else len
  if !d.up || offset + n > d.bar2Size then d
  else if !d.serving then (if write then d else d.emit (.bytes (List.replicate n 0xFF) false))
  else
    let d := d.count pgPci (if write then 0x02 else 0x01) 1
    let r := bar2Parts write (pageChunks ((d.reg pgPci 0x100).toNat + offset) n) d
    match r.2 with
    | none => if write then r.1.bar2Fault else r.1.bar2Fault.emit .abort
    | some parts =>
      if !(parts.all (fun p => r.1.reaches p.1)) then r.1
      else if write then
        (parts.foldl (fun (acc : Dev × List Byte) p => (acc.1.storeBy false p.1 (acc.2.take p.2) false, acc.2.drop p.2)) (r.1, data)).1
      else
        let t := parts.foldl (fun (acc : Dev × List Byte × Bool) p =>
          let x := acc.1.load p.1 p.2
          (x.1, acc.2.1 ++ x.2.1, acc.2.2 || x.2.2.isSome)) (r.1, [], false)
        let d := if t.2.2 then t.1.count pgPci 0x06 1 else t.1
        d.emit (.bytes t.2.1 t.2.2)

/-- A request to host memory fails; the device's next access of its kind to host memory is the one. -/
def dmaTimeout (d : Dev) (posted answered : Bool) : Dev :=
  if !d.up then d
  else
    let d := { d with svc := { d.svc with dmaFail := some posted } }
    if posted then d.setIsr pgPci 1 else d.count pgPci (if answered then 0x05 else 0x04) 1

def linkWidths : List Nat := [1, 2, 4, 8, 16]

/-- The link comes up or changes its rate or width, or with rate 0 goes down. -/
def pcieLink (d : Dev) (rate width : Nat) (flit : Bool) : Dev :=
  let okRate := rate ≤ 6 ∧ (rate ≠ 6 ∨ d.cap.bit 48 = true)
  let okWidth := if rate = 0 then width = 0 else width ∈ linkWidths
  if d.up ∧ okRate ∧ okWidth ∧ (rate ≠ 6 ∨ flit = true) ∧ (rate ≠ 0 ∨ flit = false) then
    (d.setReg pgPci 0x108 (BitVec.ofNat 64 (rate + width * 8 + (if flit then 256 else 0)))).setIsr pgPci 2
  else d

/-- The PCI vendor ID, the device ID of the variant and the revision ID of silicon A1 (R6). -/
def pciVendor : Nat := 0x1F3C
def Dev.pciDevice (d : Dev) : Nat := if d.halfPresent 1 then 0x0A52 else 0x0A51
def pciRevision : Nat := 0xA1

/-- The 32-bit words of the endpoint's configuration space whose contents the spec gives: the identifiers, with the class code
and the subsystem IDs (R6, R434). PRESUMED (log 98): their places are those of the PCI standard. No command reads them. -/
def pciConfig (f : Fuses) (d : Dev) (off : Nat) : Option W32 :=
  match off with
  | 0x00 => some (BitVec.ofNat 32 (d.pciDevice * 2 ^ 16 + pciVendor))
  | 0x08 => some (BitVec.ofNat 32 (0x120000 * 2 ^ 8 + pciRevision))
  | 0x2C => some f.subsys
  | _ => none

/-- A reset on the sideband port ends messages to the BMC (R448). -/
def bmcReset (d : Dev) : Dev := if d.up then d.clearGoFor 4 else d

def execIngest (via : Via) (s : State) : Host.Outcome State Fault Refusal := s.lift (fun d => ingestOpen d via)
def execIngestComplete (slot status : Nat) (s : State) : Host.Outcome State Fault Refusal := s.lift (fun d => ingestComplete d slot status)
def execCheckpoint (via : Via) (s : State) : Host.Outcome State Fault Refusal := s.lift (fun d => checkpointOpen d via)
def execCheckpointComplete (s : State) : Host.Outcome State Fault Refusal := s.lift checkpointDone
def execRestore (via : Via) (s : State) : Host.Outcome State Fault Refusal := s.lift (fun d => restoreServe d via)
def execQueueTableQuery (via : Via) (s : State) : Host.Outcome State Fault Refusal := s.lift (fun d => queueTableQuery d via)
def execQueueTableMap (via : Via) (map : Bool) (va queue : Nat) (s : State) : Host.Outcome State Fault Refusal :=
  s.lift (fun d => queueTableMap d via map va queue)
def execSetDeviceId (via : Via) (id : Nat) (s : State) : Host.Outcome State Fault Refusal := s.lift (fun d => setDeviceId d via id)
def execRouteTableLoad (via : Via) (buffer count : Nat) (s : State) : Host.Outcome State Fault Refusal :=
  s.lift (fun d => routeTableLoad d via buffer count)
def execMeshEntrySet (via : Via) (index : Nat) (words : List W64) (s : State) : Host.Outcome State Fault Refusal :=
  s.lift (fun d => meshEntrySet d via index words)
def execAbsentPeerClear (via : Via) (dev : Nat) (s : State) : Host.Outcome State Fault Refusal := s.lift (fun d => absentPeerClear d via dev)
def execTelemetryEnable (via : Via) (s : State) : Host.Outcome State Fault Refusal := s.lift (fun d => telemetryEnable d via)
def execMgmtDatagram (port session : Nat) (secured : Bool) (words : List W64) (s : State) : Host.Outcome State Fault Refusal :=
  s.lift (fun d => mgmtDatagram d port session secured words)
def execFwAliveTick (s : State) : Host.Outcome State Fault Refusal := s.lift fwAliveTick
def execBar2Access (write : Bool) (offset len : Nat) (data : List Byte) (s : State) : Host.Outcome State Fault Refusal :=
  s.lift (fun d => bar2Access d write offset len data)
def execDmaTimeout (posted answered : Bool) (s : State) : Host.Outcome State Fault Refusal := s.lift (fun d => dmaTimeout d posted answered)
def execPcieLinkChange (rate width : Nat) (flit : Bool) (s : State) : Host.Outcome State Fault Refusal :=
  s.lift (fun d => pcieLink d rate width flit)
def execBmcSidebandReset (s : State) : Host.Outcome State Fault Refusal := s.lift bmcReset

end Sys2Proof.Machine
end

