-- ==== Sys2Proof/Machine/Security.lean ====
section
/-! DEFINITION. The security block: verified boot and images, its requests, the entropy source, the SPDM responder, and the
debug level (R484 to R508). -/

namespace Sys2Proof.Machine

/-- A meaning that reads the security fuses. -/
def State.liftF (s : State) (f : Dev → Fuses → Dev) : Host.Outcome State Fault Refusal :=
  .next { s with dev := f { s.dev with out := [] } s.fuses }

/-- A meaning that may blow security fuses. -/
def State.liftBlow (s : State) (f : Dev → Fuses → Dev × Fuses) : Host.Outcome State Fault Refusal :=
  let r := f { s.dev with out := [] } s.fuses
  .next { s with dev := r.1, fuses := r.2 }

/-! ### Entropy (R499) -/

/-- The DRBG runs. -/
def Dev.drbgOk (d : Dev) : Bool := d.regb pgSec 0x148 0 && !d.regb pgSec 0x148 1

/-- The start-up tests have passed. -/
def Dev.entropyStart (d : Dev) : Dev := d.setReg pgSec 0x148 1

/-- A health test fails. -/
def entropyFail (d : Dev) : Dev :=
  if d.up then ((d.setReg pgSec 0x148 2).setIsr pgSec 1).count pgSec 0x06 1 else d

/-- A new nonce from the DRBG, unless it is stopped (R506). -/
def Dev.newNonce (d : Dev) : Dev :=
  if d.drbgOk then
    (List.range 4).foldl (fun d i => let r := d.drawRand; r.1.setReg pgSec (0x128 + 8 * i) r.2) d
  else d

/-- A read of SEC_RAND. -/
def secRand (d : Dev) (agent : Agent) : Dev :=
  if !d.up then d
  else
    let r := d.windowLoad agent 0x2150 8
    r.1.emit (.word (BitVec.ofNat 64 (leNat r.2)))

/-! ### Images (R485 to R487) -/

/-- The checks of an image in order; the first that fails gives the error code. `rd` reads bytes of the image. -/
def checkImage (f : Fuses) (rd : Nat → Nat → List Byte) (type : Nat) (fits : Nat → Bool) : Except Nat Image :=
  let h := rd 0 512
  let part := fun (o k : Nat) => (h.drop o).take k
  let n := fun (o k : Nat) => leNat (part o k)
  let zeros := fun (o k : Nat) => (part o k).all (· == 0)
  let len := n 0x10 4
  let key := n 6 1 % 4
  let pub := part 0x80 133
  let pay := rd 512 len
  if !(n 0 4 == 1 && n 4 1 == type && n 6 2 / 4 == 0 && zeros 0x18 0x28 && zeros 0x105 0x3B && zeros 0x1C4 0x3C && fits len
      && decide (n 0x14 4 < len)) then .error 1
  else if f.revoke.testBit key then .error 2
  else if !(Config.sha512 pub == f.rootHash.getD key [] && Config.p521Point pub) then .error 3
  else if !Config.ecdsaVerify pub (part 0 0x140) (part 0x140 132) then .error 4
  else if !(decide (f.arb ≤ n 5 1) && decide (n 5 1 ≤ 64)) then .error 5
  else if !(Config.sha512 pay == part 0x40 64) then .error 6
  else .ok { svn := n 5 1, version := BitVec.ofNat 64 (n 8 8), digest := part 0x40 64 }

/-- A verification is counted; a refused image sets ERROR and BLK_ISR bit 0 (R487). -/
def Dev.noteVerify (d : Dev) (r : Except Nat Image) : Dev :=
  let d := d.count pgSec 0x01 1
  match r with
  | .ok _ => d
  | .error e => ((d.setf pgSec 0x100 15 8 e).setIsr pgSec 0).count pgSec 0x02 1

/-- A byte of the boot flash (R488). -/
def Dev.flashByte (d : Dev) (a : Nat) : Byte := (KV.find? d.flash a).getD (Config.flashByte a)

def Dev.flashBytes (d : Dev) (base o n : Nat) : List Byte := (List.range n).map (fun i => d.flashByte (base + o + i))

/-- The lowest SVN of a list, 0 for none. -/
def lowestSvn (l : List (Nat × Image)) : Nat :=
  match l with
  | [] => 0
  | x :: rest => rest.foldl (fun a y => min a y.2.svn) x.2.svn

/-- SEC_SVN as the images stand (R497, R507). -/
def Dev.showSvn (d : Dev) : Dev :=
  d.setReg pgSec 0x110 (BitVec.ofNat 64 ((d.sec.sysImage.map (fun i => i.svn)).getD 0 + lowestSvn d.sec.ccpImages * 256
    + lowestSvn d.sec.updImages * 65536))

/-! ### Keys and the alias certificate (R494, R495) -/

/-- HMAC with SHA-512, whose blocks are 128 bytes. -/
def hmac512 (key msg : List Byte) : List Byte :=
  let k := if key.length > 128 then Config.sha512 key else key
  let k := k ++ List.replicate (128 - k.length) 0
  Config.sha512 (k.map (· ^^^ 0x5C) ++ Config.sha512 (k.map (· ^^^ 0x36) ++ msg))

/-- The first 66 bytes of HKDF-SHA-512. -/
def hkdf66 (ikm salt info : List Byte) : List Byte :=
  let prk := hmac512 salt ikm
  let t1 := hmac512 prk (info ++ [1])
  let t2 := hmac512 prk (t1 ++ info ++ [2])
  (t1 ++ t2).take 66

/-- The order of P-521. PRESUMED (log 94): from the standard that R494 names. -/
def p521Order : Nat :=
  0x1fffffffffffffffffffffffffffffffffffffffffffffffffffffffffffffffffa51868783bf2f966b7fcc0148f709a5d03bb5c9b8899c47aebb6fb71e91386409

def ascii (s : String) : List Byte := s.toList.map (fun c => BitVec.ofNat 8 c.toNat)

/-- The first candidate of the sequence that is a private key: the info ends in the byte i, and the top 7 of the 528 bits are
cleared. -/
def deriveKey (ikm salt info : List Byte) : Option Nat :=
  (List.range 256).findSome? (fun i =>
    let v := beNat (hkdf66 ikm salt (info ++ [BitVec.ofNat 8 i])) % 2 ^ 521
    if 1 ≤ v ∧ v < p521Order then some v else none)

/-- The DeviceID key (R494). -/
def deviceKeyOf (uds : List Byte) : Option Nat := deriveKey uds (List.replicate 64 0) (ascii "KX2 device id")

/-- The alias key of a DeviceID key and the measurements 1 and 2 (R495). -/
def aliasKeyOf (d : Nat) (m1 m2 : List Byte) : Option Nat := deriveKey (beBytes 66 d) (m1 ++ m2) (ascii "KX2 alias")

/-- The certificate of an alias key (R495): the serial number is 20 bytes of the public key's digest with the top bit cleared. The
signature takes its nonce from the count of free values. -/
def aliasCertOf (device key n : Nat) : AliasCert :=
  let pub := Config.p521Public key
  let digest := (Config.sha512 pub).take 20
  let serial := match digest with | b :: rest => (b &&& 0x7F) :: rest | [] => []
  let start := "20240101000000Z"
  let stop := "99991231235959Z"
  { serial := serial, notBefore := start, notAfter := stop, key := pub,
    signature := Config.ecdsaSign device (Config.certificateBody serial start stop pub) n }

/-- The certificate's bytes. -/
def AliasCert.bytes (c : AliasCert) : List Byte :=
  Config.certificateOf (Config.certificateBody c.serial c.notBefore c.notAfter c.key) c.signature

/-- The alias key and certificate of this boot. -/
def Dev.issueAlias (d : Dev) (img : Image) : Dev :=
  let key := d.sec.deviceKey.bind (fun k => aliasKeyOf k Config.romDigest img.digest)
  let cert := match d.sec.deviceKey, key with | some k, some a => some (aliasCertOf k a d.free) | _, _ => none
  { d with sec := { d.sec with aliasKey := key, aliasCert := cert }, free := d.free + 1 }

/-! ### Boot (R449, R489, R490, R496) -/

/-- The channels that firmware configures: channel, sender, receiver and doorbell bit. -/
def bootChannels : List (Nat × Nat × Nat × Nat) :=
  [(0, 2, 3, 0), (1, 3, 2, 0), (16, 0, 1, 0), (17, 1, 0, 0), (18, 0, 1, 1), (19, 1, 0, 1), (20, 4, 1, 2), (21, 1, 4, 0),
   (22, 5, 1, 8), (23, 6, 1, 9), (24, 7, 1, 10), (25, 8, 1, 11), (26, 9, 1, 12), (27, 10, 1, 13), (28, 11, 1, 14), (29, 12, 1, 15)]

def Dev.bootConfig (d : Dev) : Dev :=
  bootChannels.foldl (fun d x =>
    d.setReg (pgMbx 0) (0x200 + 8 * x.1) (BitVec.ofNat 64 (x.2.1 + x.2.2.1 * 16 + x.2.2.2 * 256 + 2 ^ 15))) d

/-- The certificate area of the boot flash (R488). -/
def Dev.certArea (d : Dev) : List Byte := d.flashBytes 0x7FF0000 0 0x10000

/-- The chain of slot 0: the certificates of the area, then the alias certificate (R496). -/
def Dev.slotChain (d : Dev) : List Byte :=
  d.certArea.take (Config.chainLength d.certArea) ++ ((d.sec.aliasCert.map AliasCert.bytes).getD [])

/-- The accepted image runs: the control cores are released into their worlds, which the header's configuration gives in a
form that no rule states, and the block serves requests. -/
def Dev.bootWith (d : Dev) (img : Image) : Dev :=
  let r := (d.issueAlias img).takeFree
  let d := r.1
  let ok := d.sec.deviceKey.any (fun k => Config.certificateKey d.certArea == Config.p521Public k)
  let d := { d with sec := { d.sec with sysImage := some img, worlds := r.2.field 15 0, booted := true, slot0 := ok } }
  let d := if ok then d else d.setIsr pgSec 0
  (d.showSvn.setf pgSec 0x100 3 0 6).bootConfig

/-- The security block's boot, once after each reset. -/
def secureBoot (d : Dev) (f : Fuses) : Dev :=
  if !d.up || d.regf pgSec 0x100 3 0 ≠ 0 then d
  else
    let d := if d.regb pgSec 0x148 1 then d else d.entropyStart
    let d := (d.newNonce.setReg pgSec 0x118 f.serial).setReg pgSec 0x108 (BitVec.ofNat 64 f.arb)
    let d := ({ d with sec := { d.sec with deviceKey := deviceKeyOf f.uds } }).setf pgSec 0x100 3 0 3
    let d := d.setf pgSys 0xA00 11 10 3  -- SYS_IO_SLEW.XSPI, once the first 4 KiB of the flash are read (R578)
    let fits := fun (n : Nat) => decide (512 + n ≤ 0x2000000)
    let a := checkImage f (d.flashBytes 0) 1 fits
    let d := d.noteVerify a
    match a with
    | .ok img => d.bootWith img
    | .error _ =>
      let d := d.setb pgSec 0x100 4 true
      let b := checkImage f (d.flashBytes 0x2000000) 1 fits
      let d := d.noteVerify b
      match b with
      | .ok img => d.bootWith img
      | .error _ => d.setf pgSys 0x908 7 4 0xF

/-! ### Requests on channel 0 (R491 to R493) -/

/-- The request that waits on channel 0, if it is this operation, taken. -/
def Dev.secRequest (d : Dev) (op : Nat) : Option (Dev × List W64) :=
  let ws := d.mbxWords 0
  if d.up && d.sec.booted && d.mbxGoBit 0 && isRequest 0x20 op ws then some (d.mbxEnd 0, ws) else none

def Dev.secReply (d : Dev) (ws : List W64) (status : Nat) (data : List W64) : Dev := d.fwPost 1 (replyWords ws status data)

/-- An image goes to a core's control processor, which runs it. -/
def Dev.loadCcp (d : Dev) (img : Image) (c : Nat) : Dev :=
  let d := { d with sec := { d.sec with ccpImages := KV.set d.sec.ccpImages c img } }
  let d := (d.setReg (pgCore c) 0x100 (BitVec.ofNat 64 (3 + img.svn * 256))).setReg (pgCore c) 0x108 img.version
  d.modCore c (fun k => { k with ccpRun := true })

/-- An image goes to an update engine, which it holds in reset meanwhile: work in progress ends as by FINIT. -/
def Dev.loadUpd (d : Dev) (img : Image) (h : Nat) : Dev :=
  let d := { d with sec := { d.sec with updImages := KV.set d.sec.updImages h img } }
  let busy := (d.upd h).current.isSome || (d.upd h).rootRun.isSome
  let d := if busy then updFinitWork d h else d
  d.modUpd h (fun u => { u with loaded := true })

/-- Destinations that a mask names for a TYPE. -/
def loadTargets (mask : Nat) : List Nat := (List.range 16).filter (fun i => mask.testBit i)

def Dev.targetOk (d : Dev) (type i : Nat) : Bool :=
  if type = 2 then d.corePresent i && d.running (i / 4) else d.halfPresent i && d.running i

def verifyLoad (d : Dev) (f : Fuses) : Dev :=
  match d.secRequest 1 with
  | none => d
  | some (d, ws) =>
    let flash := (wd ws 1).bit 63
    let addr := (wd ws 1).field 62 0
    let type := (wd ws 2).field 7 0
    let dests := loadTargets ((wd ws 2).field 23 8)
    let dram := fun (n : Nat) => d.rangeOk addr n inDram
    if !(type == 2 || type == 3) || !(dests.all (d.targetOk type)) || (!flash && !dram 512) then d.secReply ws 1 []
    else
      let len := if flash then 0 else leNat (d.bytes (addr + 0x10) 4)
      let r := if flash then (d, ([] : List Byte), none) else d.load addr (512 + len)
      if !flash && !dram (512 + len) then d.secReply ws 1 []
      else if !flash && !d.rangeReaches addr (512 + len) then d
      else
        match r.2.2 with
        | some ev => r.1.secReply ws 3 [0, ev]
        | none =>
          let d := r.1
          let rd := fun (o n : Nat) => if flash then d.flashBytes addr o n else d.bytes (addr + o) n
          let c := checkImage f rd type (Config.imageFits type)
          let d := d.noteVerify c
          match c with
          | .error e => d.secReply ws 0 [BitVec.ofNat 64 e]
          | .ok img =>
            let d := dests.foldl (fun d i => if type = 2 then d.loadCcp img i else d.loadUpd img i) d
            d.showSvn.secReply ws 0 [0]

/-- The SVNs of all running images. -/
def Dev.runningSvns (d : Dev) : List Nat :=
  d.sec.sysImage.toList.map (fun i => i.svn) ++ d.sec.ccpImages.map (fun x => x.2.svn) ++ d.sec.updImages.map (fun x => x.2.svn)

def arbAdvance (d : Dev) (f : Fuses) : Dev × Fuses :=
  match d.secRequest 2 with
  | none => (d, f)
  | some (d, ws) =>
    let t := (wd ws 1).field 6 0
    if d.runningSvns.any (fun n => decide (n < t)) || decide (t ≤ f.arb) || decide (64 < t) then (d.secReply ws 5 [], f)
    else
      let d := (d.setReg pgSec 0x108 (BitVec.ofNat 64 t)).setIsr pgSec 2
      (d.secReply ws 0 [], { f with arb := t })

/-- A hash that has not been blown. -/
def unblown (h : List Byte) : Bool := h.all (· == 0)

def ownerProvision (d : Dev) (f : Fuses) : Dev × Fuses :=
  match d.secRequest 3 with
  | none => (d, f)
  | some (d, ws) =>
    let which := (wd ws 1).toNat
    let r := (pread ((wd ws 2).field 47 0) 133).run.run d
    match r.1 with
    | .error (some (st, _)) => (r.2.secReply ws st [], f)
    | .error none => (r.2, f)
    | .ok key =>
      let d := r.2
      if which > 1 || !Config.p521Point key then (d.secReply ws 1 [], f)
      else if !unblown (if which = 0 then f.ownerDbg else f.ownerRoot) then (d.secReply ws 5 [], f)
      else
        let h := Config.sha512 key
        (d.secReply ws 0 [], if which = 0 then { f with ownerDbg := h } else { f with ownerRoot := h })

def reseed (d : Dev) : Dev :=
  match d.secRequest 4 with
  | none => d
  | some (d, ws) => d.entropyStart.secReply ws 0 []

/-! ### SPDM (R497 to R500) -/

/-- ERROR codes of SPDM. -/
def spdmInvalid : Nat := 0x01
def spdmUnexpected : Nat := 0x04
def spdmUnspecified : Nat := 0x05
def spdmUnsupported : Nat := 0x07
def spdmLimit : Nat := 0x0A

def Dev.conn (d : Dev) (t : Transport) : Nat := ((d.sec.conns.find? (fun x => x.1 == t)).map (fun x => x.2)).getD 0
def Dev.setConn (d : Dev) (t : Transport) (n : Nat) : Dev :=
  { d with sec := { d.sec with conns := (t, n) :: d.sec.conns.filter (fun x => x.1 != t) } }

def transportCode : Transport → Nat
  | .doe => 0
  | .mctp => 1
  | .mgmtPort => 2

def Dev.spdmError (d : Dev) (code : Nat) : Dev := d.emit (.spdm false code)

/-- A response, whose bytes the standard gives but for what R497 names. -/
def Dev.spdmOk (d : Dev) (t : Transport) (body : List Byte) : Dev :=
  let b := if body.isEmpty then Config.spdmBytes (transportCode t) d.free else body
  { (d.emit (.spdm true 0)).emit (.bytes b false) with free := d.free + 1 }

/-- A response that the alias key signs (R498). -/
def Dev.spdmSigned (d : Dev) (t : Transport) (body : List Byte) : Dev :=
  let b := if body.isEmpty then Config.spdmBytes (transportCode t) d.free else body
  d.spdmOk t (b ++ ((d.sec.aliasKey.map (fun k => Config.ecdsaSign k b d.free)).getD []))

/-- Measurement blocks (R497). -/
def Dev.measurement (d : Dev) (f : Fuses) (index : Nat) : Option (List Byte) :=
  let zero := List.replicate 64 (0 : Byte)
  let low := fun (l : List (Nat × Image)) => l.head?.map (fun x => x.2)
  let ver := fun (i : Option Image) => leBytes 8 ((i.map (fun x => x.version.toNat)).getD 0)
  match index with
  | 1 => some Config.romDigest
  | 2 => some ((d.sec.sysImage.map (fun i => i.digest)).getD zero)
  | 3 => some (((low d.sec.ccpImages).map (fun i => i.digest)).getD zero)
  | 4 => some (((low d.sec.updImages).map (fun i => i.digest)).getD zero)
  | 5 => some (Config.securityState [d.cap.toNat, f.arb, (d.reg pgSec 0x110).toNat, (d.reg pgSec 0x120).toNat, f.revoke,
      d.regf pgSec 0x100 4 4, if unblown f.ownerDbg then 0 else 1, if unblown f.ownerRoot then 0 else 1])
  | 6 => some (ver d.sec.sysImage ++ ver (low d.sec.ccpImages) ++ ver (low d.sec.updImages))
  | _ => none

/-- The alias key signs, which it does not at debug level 2, and random bits are to be had. -/
def Dev.canSign (d : Dev) : Bool := d.drbgOk && !d.sec.withheld

def Dev.spdmSessions (d : Dev) (t : Transport) : Nat := (d.sec.sessions.filter (fun x => x.1 == t)).length

/-- The requester's root is the owner's, where the transport asks for mutual authentication. -/
def rootOk (f : Fuses) (t : Transport) (key : List Byte) : Bool :=
  t != .mgmtPort || (!unblown f.ownerRoot && Config.sha512 key == f.ownerRoot)

def Dev.closeSession (d : Dev) (t : Transport) (s : Nat) : Dev :=
  { d with sec := { d.sec with sessions := d.sec.sessions.filter (fun x => x != (t, s)) } }

/-- One request of a transport. Session 0 stands for none. -/
def spdm (d : Dev) (f : Fuses) (t : Transport) (session : Nat) (req : SpdmReq) : Dev :=
  if !d.up || !d.sec.booted then d
  else
    let d := d.count pgSec 0x03 1
    let inSession := d.sec.sessions.contains (t, session)
    let ready := d.conn t ≥ 3
    let plainOk := t != .mgmtPort || session == 0
    match req with
    | .getVersion => (d.setConn t 1).spdmOk t []
    | .getCapabilities => if d.conn t < 1 then d.spdmError spdmUnexpected else (d.setConn t (max 2 (d.conn t))).spdmOk t []
    | .negotiateAlgorithms => if d.conn t < 2 then d.spdmError spdmUnexpected else (d.setConn t 3).spdmOk t []
    | .getDigests =>
      if !ready then d.spdmError spdmUnexpected else d.spdmOk t (if d.sec.slot0 then Config.sha512 d.slotChain else [])
    | .getCertificate slot =>
      if !ready then d.spdmError spdmUnexpected
      else if slot = 0 ∧ d.sec.slot0 then d.spdmOk t d.slotChain else d.spdmError spdmInvalid
    | .challenge slot =>
      if !ready then d.spdmError spdmUnexpected
      else if !d.canSign then d.spdmError spdmUnspecified
      else if slot = 0 ∧ d.sec.slot0 then d.spdmSigned t [] else d.spdmError spdmInvalid
    | .getMeasurements index signed =>
      if !ready then d.spdmError spdmUnexpected
      else if signed && !d.canSign then d.spdmError spdmUnspecified
      else if index = 0 then d.spdmOk t []
      else
        let all := ((List.range 6).map (fun i => (d.measurement f (i + 1)).getD [])).flatten
        match (if index = 0xFF then some all else d.measurement f index) with
        | some bs => if signed then d.spdmSigned t bs else d.spdmOk t bs
        | none => d.spdmError spdmInvalid
    | .keyExchange key =>
      if !ready || !plainOk then d.spdmError spdmUnexpected
      else if !d.canSign then d.spdmError spdmUnspecified
      else if t = .mgmtPort ∧ unblown f.ownerRoot then d.spdmError spdmUnspecified
      else if d.spdmSessions t ≥ 4 then d.spdmError spdmLimit
      else
        let id := ((List.range 5).map (· + 1)).find? (fun i => !d.sec.sessions.contains (t, i))
        let pend := (t, id.getD 1, rootOk f t key)
        { d with sec := { d.sec with pendingKx := pend :: d.sec.pendingKx.filter (fun x => x.1 != t) } }.spdmSigned t []
    | .finish ok =>
      match d.sec.pendingKx.find? (fun x => x.1 == t) with
      | none => d.spdmError spdmUnexpected
      | some p =>
        let d := { d with sec := { d.sec with pendingKx := d.sec.pendingKx.filter (fun x => x.1 != t) } }
        if ok && p.2.2 && d.spdmSessions t < 4 then
          ({ d with sec := { d.sec with sessions := d.sec.sessions ++ [(t, p.2.1)] } }.count pgSec 0x04 1).spdmOk t []
        else d.spdmError spdmUnspecified
    | .heartbeat => if inSession then d.spdmOk t [] else d.spdmError spdmUnexpected
    | .keyUpdate => if inSession then d.spdmOk t [] else d.spdmError spdmUnexpected
    | .endSession => if inSession then (d.closeSession t session).spdmOk t [] else d.spdmError spdmUnexpected
    | .chunkSend => if ready then d.spdmOk t [] else d.spdmError spdmUnexpected
    | .chunkGet => if ready then d.spdmOk t [] else d.spdmError spdmUnexpected
    | .other => d.spdmError spdmUnsupported

/-- Two heartbeat periods pass without a message. -/
def spdmTimeout (d : Dev) (t : Transport) (s : Nat) : Dev := if d.up then d.closeSession t s else d

/-! ### Debug tokens (R504 to R506) -/

/-- The reason for which a token is refused, or the level and key that it grants. The checks come in the order of R507's
reasons. -/
def tokenCheck (d : Dev) (f : Fuses) (token sig : List Byte) : Except Nat (Nat × Bool) :=
  let part := fun (o k : Nat) => (token.drop o).take k
  let w0 := leNat (part 0 8)
  let level := w0 / 2 ^ 32 % 4
  let owner := w0 / 2 ^ 34 % 2 == 1
  let pub := part 0x30 133
  let hash := if owner then f.ownerDbg else f.dbgHash
  let nonce := (List.range 4).flatMap (fun i => leBytes 8 (d.reg pgSec (0x128 + 8 * i)).toNat)
  if !d.drbgOk then .error 6
  else if !(token.length == 192 && w0 % 2 ^ 32 == 1 && w0 / 2 ^ 35 == 0 && sig.length == 132 && (level == 1 || level == 2) && (part 0xB5 11).all (· == 0)) then .error 1
  else if !(Config.sha512 pub == hash && (!owner || !unblown hash)) then .error 2
  else if (level == 2 && owner) || decide (level ≤ d.dbgLevel) then .error 3
  else if leNat (part 8 8) ≠ (d.reg pgSec 0x118).toNat then .error 4
  else if part 0x10 32 ≠ nonce then .error 5
  else if !Config.ecdsaVerify pub (part 0 0x30) sig then .error 6
  else .ok (level, owner)

/-- A token is accepted or refused, and a new nonce is drawn. -/
def secToken (d : Dev) (f : Fuses) (token sig : List Byte) : Dev :=
  if !d.up then d
  else
    let d :=
      match tokenCheck d f token sig with
      | .error e => ((d.setf pgSec 0x120 7 4 e).setIsr pgSec 4).count pgSec 0x05 1
      | .ok (level, owner) =>
        let d := d.setf pgSec 0x120 1 0 level
        let d := if owner then d.setb pgSec 0x120 2 true else d
        let d := d.setIsr pgSec 3
        if level = 1 then { d with sec := { d.sec with secureQ := false } }
        else { d with sec := { d.sec with secureQ := true, withheld := true, slot0 := false } }
    d.newNonce

def execSecureBoot (s : State) : Host.Outcome State Fault Refusal := s.liftF secureBoot
def execVerifyLoad (s : State) : Host.Outcome State Fault Refusal := s.liftF verifyLoad
def execArbAdvance (s : State) : Host.Outcome State Fault Refusal := s.liftBlow arbAdvance
def execOwnerProvision (s : State) : Host.Outcome State Fault Refusal := s.liftBlow ownerProvision
def execReseed (s : State) : Host.Outcome State Fault Refusal := s.lift reseed
def execEntropyHealthFail (s : State) : Host.Outcome State Fault Refusal := s.lift entropyFail
def execSecRandRead (agent : Agent) (s : State) : Host.Outcome State Fault Refusal := s.lift (fun d => secRand d agent)
def execSpdmRequest (t : Transport) (session : Nat) (req : SpdmReq) (s : State) : Host.Outcome State Fault Refusal :=
  s.liftF (fun d f => spdm d f t session req)
def execSpdmSessionTimeout (t : Transport) (session : Nat) (s : State) : Host.Outcome State Fault Refusal :=
  s.lift (fun d => spdmTimeout d t session)

end Sys2Proof.Machine
end

