-- ==== Sys2Proof/Machine/Trace.lean ====
section
/-! DEFINITION. Trace rings, the eclipse and its scan, and the JTAG instructions but MEM_ACCESS (R542 to R564). -/

namespace Sys2Proof.Machine

/-! ### Trace records (R544) -/

/-- A write of TRC_MARK. -/
def trcMark (d : Dev) (w : Wr) : Dev :=
  if d.mayWrite w.agent pgTrc 0x118 then d.trace pgTrc 0x22 none (wrBits w) 0 else d

/-- FTS writes a TIME record. -/
def traceTime (d : Dev) : Dev :=
  if d.up && d.regf pgTrc 0x100 31 16 != 0 then
    d.trace pgFts 0x21 none (d.reg pgFts 0x118) (BitVec.ofNat 64 (d.ftsFrame + d.ftsLine * 2 ^ 48))
  else d

/-! ### Rings in DRAM (R542, R546, R547) -/

/-- Records of a window: the share BW of a half's DRAM peak. -/
def Dev.traceBudget (d : Dev) : Nat :=
  let bw := max 1 (min 30 (d.regf pgTrc 0x100 8 4))
  let rate := [12800, 8800, 6400].getD (d.regf pgSys 0x440 1 0) 0
  bw * rate * 64 * 1024 / (1250 * 32000)

def Dev.ringBase (d : Dev) (r : Nat) : Nat := d.regf pgTrc (0x120 + 32 * r) 47 12 * 4096
def Dev.ringBytes (d : Dev) (r : Nat) : Nat := d.regf pgTrc (0x128 + 32 * r) 20 0 * 4096
def Dev.ringHead (d : Dev) (r : Nat) : Nat := d.regf pgTrc (0x130 + 32 * r) 31 0
def Dev.ringTail (d : Dev) (r : Nat) : Nat := d.regf pgTrc (0x138 + 32 * r) 31 0

/-- Records for which a ring has room. -/
def Dev.ringRoom (d : Dev) (r : Nat) : Nat :=
  let n := d.ringBytes r
  if n = 0 then 0 else (d.ringTail r % n + n + n - 32 - d.ringHead r % n) % n / 32

/-- The ring lies in the DRAM of its own half. -/
def Dev.ringOk (d : Dev) (r : Nat) : Bool :=
  let n := d.ringBytes r
  let mine := fun (pa : Nat) => match d.space pa with | .dram h _ => h == r | _ => false
  n != 0 && mine (d.ringBase r) && mine (d.ringBase r + n - 1) && !(d.half r).stopped && !(d.half r).isolated

/-- One record goes to a ring, and HEAD passes it. -/
def Dev.ringPut (d : Dev) (r : Nat) (t : TraceRec) : Dev :=
  let n := d.ringBytes r
  let h := d.ringHead r
  let d := d.store (d.ringBase r + h % n) ([t.ts, t.w1, t.p0, t.p1].flatMap (fun v => leBytes 8 v.toNat))
  (d.setf pgTrc (0x130 + 32 * r) 31 0 ((h + 32) % n)).count pgTrc 0x01 1

def Dev.ringAt (d : Dev) (r : Nat) : Ring := d.trc.rings.getD r Ring.reset
def Dev.setRing (d : Dev) (r : Nat) (x : Ring) : Dev := { d with trc := { d.trc with rings := d.trc.rings.set r x } }

/-- The GAP that is owed goes first. -/
def Dev.ringGap (d : Dev) (r : Nat) : Dev :=
  let x := d.ringAt r
  let n := x.dropped
  let gap : TraceRec := { ts := x.firstTs, w1 := BitVec.ofNat 64 (0x3F + Blk.trc.type * 2 ^ 8),
                          p0 := BitVec.ofNat 64 (min n 0xFFFFFFFF), p1 := x.lastTs }
  let d := (d.setRing r { x with dropped := 0, firstTs := 0, lastTs := 0 }).ringPut r gap
  (d.count pgTrc 0x03 1).raise pgTrc 0x0701 (r * 2 ^ 31 + min n 0x7FFFFFFF) 0

/-- Buffered records of this window: written while the ring has room, dropped after. -/
def ringDrain (r : Nat) : Nat → Dev → Dev
  | 0, d => d
  | n + 1, d =>
    let x := d.ringAt r
    match x.buf with
    | [] => d
    | t :: rest =>
      if d.ringRoom r ≠ 0 then ringDrain r n ((d.setRing r { x with buf := rest }).ringPut r t)
      else
        let x := { x with buf := rest, dropped := x.dropped + 1, firstTs := if x.dropped = 0 then t.ts else x.firstTs, lastTs := t.ts }
        ringDrain r n ((d.setRing r x).count pgTrc 0x02 1)

/-- A window of 1,024 cycles of a ring. -/
def traceWindow (d : Dev) (r : Nat) : Dev :=
  if !d.up || r ≥ 2 || !d.halfPresent r || !d.ringOk r then d
  else
    let b := d.traceBudget
    let gap := (d.ringAt r).dropped ≠ 0 ∧ d.ringRoom r ≠ 0 ∧ b ≠ 0
    let d := if gap then d.ringGap r else d
    let d := ringDrain r (if gap then b - 1 else b) d
    let n := d.ringBytes r
    if (n - 32 - d.ringRoom r * 32) * 4 > (n - 32) * 3 then d.setIsr pgTrc 1 else d

/-! ### The eclipse (R554 to R557) -/

/-- A write to TRC_ECL_CTRL; GO triggers only for a secure agent or through JTAG. -/
def eclCtrl (d : Dev) (w : Wr) : Dev :=
  if d.dbgLevel = 0 || !d.mayWrite w.agent pgTrc 0x300 then d
  else
    let was := d.eclipsed
    let low := was && d.regb pgTrc 0x300 4
    let d := d.plainWrite pgTrc 0x300 w
    let d := if wrHit w 0 && (w.agent == .jtag || d.agentSecure w.agent) then d.eclipse 1 else d
    if wrHit w 1 && was then
      let d := d.setb pgTrc 0x300 2 false
      if low then d.emit (.pin "ECLIPSE_N" true) else d
    else d

/-- A write to TRC_ECL_EVT or TRC_ECL_TIME, or to a scan register. -/
def eclPlain (d : Dev) (off : Nat) (w : Wr) : Dev :=
  if d.dbgLevel = 0 || !d.mayWrite w.agent pgTrc off then d else d.plainWrite pgTrc off w

def eclTime (d : Dev) : Dev :=
  if d.up && d.regb pgTrc 0x300 3 && d.reg pgTrc 0x310 != 0 && d.aclkA == d.reg pgTrc 0x310 then d.eclipse 3 else d

def eclFall (d : Dev) : Dev := if d.up && d.regb pgTrc 0x300 5 then d.eclipse 4 else d

/-- A write to TRC_ECL_SCAN. -/
def eclScanWrite (d : Dev) (w : Wr) : Dev :=
  if d.dbgLevel = 0 || !d.mayWrite w.agent pgTrc 0x320 then d
  else
    let d := d.plainWrite pgTrc 0x320 w
    if wrHit w 0 && d.eclipsed && !d.regb pgTrc 0x320 1 then (d.setb pgTrc 0x320 1 true).setf pgTrc 0x320 63 32 0 else d

/-! ### The scan image (R557, R558) -/

def stateCode : CtxState → Nat
  | .held => 1
  | .ready => 2
  | .running => 3
  | .waiting => 4
  | .suspended => 5
  | .retiring => 6

def specCode : SpecState → Nat
  | .running => 0
  | .deciding => 1
  | .writing => 2
  | .committed => 3
  | .discarded => 4

/-- The four words of a context. -/
def ctxRecord (d : Dev) (t : Ctx) : List Nat :=
  [stateCode t.state + (if t.spec.isSome then 8 else 0) + ((t.spec.map (fun p => specCode p.state)).getD 0) * 16
     + t.queue * 2 ^ 16 + t.tseq * 2 ^ 32,
   t.seq + t.cur.opc * 2 ^ 32 + t.cur.w0.field 31 16 * 2 ^ 40,
   (t.deadline.map (fun x => d.posOf x.frame x.line)).getD 0, 0]

/-- All 1,024 contexts of a core. At debug level 1 those of secure queues read zero. -/
def Dev.scanCtxs (d : Dev) (c : Nat) : List Byte :=
  (List.range 1024).flatMap (fun x =>
    let ws := match d.ctx? c x with
      | some t => if d.queueSecure t.queue && d.dbgLevel != 2 then [0, 0, 0, 0] else ctxRecord d t
      | none => [0, 0, 0, 0]
    ws.flatMap (leBytes 8))

/-- Part of a core's near store; hidden at level 1 once the core has run a secure task. -/
def Dev.scanNear (d : Dev) (c o n : Nat) : List Byte :=
  if (d.core c).secureRan && d.dbgLevel != 2 then List.replicate n 0 else d.value (nearBase c + o) n

/-- A register page, read without side effects. -/
def Dev.scanPage (d : Dev) (page : Nat) : List Byte :=
  if d.regb page 0x010 3 && d.dbgLevel != 2 then List.replicate 4096 0
  else (List.range 512).flatMap (fun i => leBytes 8 (d.regRead page (8 * i)).toNat)

/-- A section with its header. -/
def scanSection (type inst : Nat) (bs : List Byte) : List Byte :=
  leBytes 8 (type + inst * 256 + bs.length * 2 ^ 32) ++ leBytes 8 0 ++ bs

/-- The sections of a TYPE. -/
def Dev.scanType (d : Dev) (type : Nat) : List (List Byte) :=
  let cores := (List.range 8).filter d.corePresent
  match type with
  | 1 => [scanSection 1 0 (((List.range 0x1000).filter d.present).flatMap d.scanPage)]
  | 2 => cores.map (fun c => scanSection 2 c (d.scanCtxs c))
  | 3 => cores.map (fun c => scanSection 3 c (d.scanNear c 0 0x2800000))
  | 4 => cores.map (fun c => scanSection 4 c (d.scanNear c 0x2800000 0x1000000))
  | 5 => cores.map (fun c => scanSection 5 c (d.scanNear c 0x3800000 0x800000))
  | 6 => cores.map (fun c => scanSection 6 c ((List.range (Config.implSize c % (2 ^ 20 + 1))).map (Config.implState c)))
  | _ => []

def idcodeValue : Nat := 0x1A522C7F

/-- The whole image. -/
def Dev.scanImage (d : Dev) : List Byte :=
  let sect := d.regf pgTrc 0x320 15 8
  let secs := ((List.range 6).filter (fun t => sect.testBit t)).flatMap (fun t => d.scanType (t + 1))
  leBytes 4 1 ++ leBytes 4 idcodeValue ++ leBytes 2 (d.regf pgSys 0x600 13 0) ++ leBytes 1 (d.regf pgTrc 0x300 15 8) ++ leBytes 5 0
    ++ leBytes 8 d.trc.ts.toNat ++ leBytes 8 secs.length ++ leBytes 32 0 ++ secs.flatten

/-- The copy is done. -/
def scanDone (d : Dev) : Dev :=
  if !d.up || !d.regb pgTrc 0x320 1 then d
  else
    let img := d.scanImage
    let d := d.store (d.regf pgTrc 0x318 47 12 * 4096) img
    (((d.setb pgTrc 0x320 1 false).setf pgTrc 0x320 63 32 (img.length / 2 ^ 20)).setIsr pgTrc 3)

/-! ### JTAG (R559, R560, R562) -/

/-- The TAP takes an instruction with the data that Capture-DR loads; one above the debug level acts as BYPASS. -/
def Dev.tapIr (d : Dev) (code level : Nat) (capture : List W64) : Dev × Bool :=
  if d.dbgLevel < level then ({ d with tap := { d.tap with ir := 0xFF, capture := [0] } }, false)
  else ({ d with tap := { d.tap with ir := code, capture := capture } }, true)

/-- The data register is shifted out. -/
def Dev.tapOut (d : Dev) : Dev := d.tap.capture.foldl (fun d v => d.emit (.word v)) d

/-- The boundary scan, whose cells Polvenan's BSDL file describes. -/
def boundary (d : Dev) (code : Nat) : Dev :=
  let r := d.takeFree
  (r.1.tapIr code 0 [r.2]).1.tapOut

def jtagIdcode (d : Dev) : Dev := (d.tapIr 0x02 0 [BitVec.ofNat 64 idcodeValue]).1.tapOut
def jtagBypass (d : Dev) : Dev := (d.tapIr 0xFF 0 [0]).1.tapOut

def jtagNonce (d : Dev) : Dev :=
  (d.tapIr 0x10 0 ((List.range 4).map (fun i => d.reg pgSec (0x128 + 8 * i)))).1.tapOut

/-- The two shifts of a token: the first takes out BUSY, LEVEL and LAST_REJECT. -/
def jtagToken (d : Dev) (f : Fuses) (token sig : List Byte) : Dev :=
  let stat := BitVec.ofNat 64 (d.dbgLevel * 2 + d.regf pgSec 0x120 7 4 * 16)
  secToken (d.tapIr 0x11 0 [stat]).1.tapOut f token sig

def jtagEcl (d : Dev) (value : W64) : Dev :=
  let r := d.tapIr 0x20 1 [d.reg pgTrc 0x300]
  if r.2 && d.up then eclCtrl r.1.tapOut { agent := .jtag, hi := true, lo := true, val := value } else r.1.tapOut

/-- The next 64 bits of the scan image; selecting the instruction anew starts it over. -/
def jtagScan (d : Dev) : Dev :=
  let pos := if d.tap.ir = 0x22 then d.tap.scanPos else 0
  let word := if d.eclipsed then BitVec.ofNat 64 (leNat ((d.scanImage.drop (8 * pos)).take 8)) else 0
  let r := d.tapIr 0x22 1 [word]
  (if r.2 then { r.1 with tap := { r.1.tap with scanPos := if d.eclipsed then pos + 1 else 0 } } else r.1).tapOut

/-- The wrapper addressed. -/
def jtagWrapSel (d : Dev) (sel : Nat) : Dev :=
  let r := d.tapIr 0x30 1 [BitVec.ofNat 64 d.tap.wrapper]
  (if r.2 then { r.1 with tap := { r.1.tap with wrapper := sel % 256 } } else r.1).tapOut

def Dev.wirOf (d : Dev) : Nat := KV.get (Config.wsBypass d.tap.wrapper) d.tap.wir d.tap.wrapper

/-- The wrapper's instruction register: an instruction other than WS_BYPASS stops its unit. -/
def jtagWir (d : Dev) (instr : Nat) : Dev :=
  let w := d.tap.wrapper
  let plain := instr = Config.wsBypass w
  let r := d.tapIr 0x31 (if plain then 1 else 2) [BitVec.ofNat 64 d.wirOf]
  if !r.2 then r.1.tapOut
  else
    let t := { r.1.tap with wir := KV.set r.1.tap.wir w instr,
                            undef := if plain ∨ w ≥ 10 ∨ r.1.tap.undef.contains w then r.1.tap.undef else r.1.tap.undef ++ [w] }
    { r.1 with tap := t, free := r.1.free + 1 }.tapOut

/-- The wrapper's data register: one bit for WS_BYPASS, else what no rule describes. -/
def jtagWdr (d : Dev) (value : W64) : Dev :=
  let plain := d.wirOf = Config.wsBypass d.tap.wrapper
  let r := d.takeFree
  let _ := value
  if plain then (d.tapIr 0x32 1 [0]).1.tapOut else (r.1.tapIr 0x32 2 [r.2]).1.tapOut

/-- The TAP runs while the always-on supply is good. -/
def onTap (d : Dev) (f : Dev → Dev) : Dev := if d.power.aux then f d else d

def execTrcMark (w : Wr) (s : State) : Host.Outcome State Fault Refusal := s.lift (fun d => trcMark d w)
def execTraceBudgetWindow (ring : Nat) (s : State) : Host.Outcome State Fault Refusal := s.lift (fun d => traceWindow d ring)
def execTraceTimeRecord (s : State) : Host.Outcome State Fault Refusal := s.lift traceTime
def execEclipseGo (w : Wr) (s : State) : Host.Outcome State Fault Refusal := s.lift (fun d => eclCtrl d w)
def execEclipseTimeTrigger (s : State) : Host.Outcome State Fault Refusal := s.lift eclTime
def execEclipseNFall (s : State) : Host.Outcome State Fault Refusal := s.lift eclFall
def execEclipseResume (w : Wr) (s : State) : Host.Outcome State Fault Refusal := s.lift (fun d => eclCtrl d w)
def execEclipseScan (w : Wr) (s : State) : Host.Outcome State Fault Refusal := s.lift (fun d => eclScanWrite d w)
def execScanComplete (s : State) : Host.Outcome State Fault Refusal := s.lift scanDone
def execExtest (s : State) : Host.Outcome State Fault Refusal := s.lift (fun d => onTap d (fun d => boundary d 0x00))
def execSamplePreload (s : State) : Host.Outcome State Fault Refusal := s.lift (fun d => onTap d (fun d => boundary d 0x01))
def execIdcode (s : State) : Host.Outcome State Fault Refusal := s.lift (fun d => onTap d jtagIdcode)
def execSecNonce (s : State) : Host.Outcome State Fault Refusal := s.lift (fun d => onTap d jtagNonce)
def execSecToken (token sig : List Byte) (s : State) : Host.Outcome State Fault Refusal :=
  s.liftF (fun d f => onTap d (fun d => jtagToken d f token sig))
def execEclCtrl (value : W64) (s : State) : Host.Outcome State Fault Refusal := s.lift (fun d => onTap d (fun d => jtagEcl d value))
def execEclScan (s : State) : Host.Outcome State Fault Refusal := s.lift (fun d => onTap d jtagScan)
def execWrapSel (sel : Nat) (s : State) : Host.Outcome State Fault Refusal := s.lift (fun d => onTap d (fun d => jtagWrapSel d sel))
def execWrapWir (instr : Nat) (s : State) : Host.Outcome State Fault Refusal := s.lift (fun d => onTap d (fun d => jtagWir d instr))
def execWrapWdr (value : W64) (s : State) : Host.Outcome State Fault Refusal := s.lift (fun d => onTap d (fun d => jtagWdr d value))
def execBypass (s : State) : Host.Outcome State Fault Refusal := s.lift (fun d => onTap d jtagBypass)

end Sys2Proof.Machine
end

