-- ==== Sys2Proof/Machine/RegBus.lean ====
section
/-! DEFINITION. The register window as a target of writes: every register word with its behaviour, the doorbell area, the
writes that tasks make to the window, and the JTAG access to memory (R31 to R35, R465 to R471, R561). -/

namespace Sys2Proof.Machine

/-! ### Register words with a behaviour of their own -/

/-- A write to BLK_IMR: the page interrupts if a bit that stands in BLK_ISR is no longer masked (R471). -/
def imrWrite (d : Dev) (page : Nat) (w : Wr) : Dev :=
  if !d.mayWrite w.agent page 0x028 then d
  else
    let d := d.plainWrite page 0x028 w
    if d.reg page 0x020 &&& ~~~ d.reg page 0x028 = 0 then d else d.emit (.blockIrq page)

/-- A word whose fields are all plain. -/
def plainReg (d : Dev) (page off : Nat) (w : Wr) : Dev := if d.mayWrite w.agent page off then d.plainWrite page off w else d

/-- A queue-table base (R287). The lines of the table are pinned in the far store (R198). -/
def qtWrite (d : Dev) (h : Nat) (w : Wr) : Dev :=
  let off := 0x430 + 8 * h
  if !d.halfPresent h || !d.mayWrite w.agent pgSys off || d.queues.any (fun q => q.1 / 32768 == h && q.2.enabled) then d
  else
    let d := d.plainWrite pgSys off w
    d.modHalf h (fun x => { x with lines := x.lines.map (fun f => { f with pinned := d.linePinned h f.line }) })

def devIdWrite (d : Dev) (w : Wr) : Dev :=
  if d.mayWrite w.agent pgSys 0x600 then d.putDevId ((d.plainWrite pgSys 0x600 w).reg pgSys 0x600) else d

def sysReg (d : Dev) (off : Nat) (w : Wr) : Dev :=
  match off with
  | 0x408 => tlbInvalidate d w
  | 0x420 => carveChange d w
  | 0x430 => qtWrite d 0 w
  | 0x438 => qtWrite d 1 w
  | 0x440 => memCtrl d w
  | 0x508 => keyClear d w
  | 0x600 => devIdWrite d w
  | 0x618 => routeInv d w
  | _ => plainReg d pgSys off w

def ftsReg (d : Dev) (off : Nat) (w : Wr) : Dev :=
  match off with
  | 0x100 => ftsCtrlWrite d w
  | 0x118 => ftsTimeWrite d w
  | _ => ftsPlain d off w

/-- MBX0, and the channels of MBX1 and MBX2. -/
def mbxReg (d : Dev) (i off : Nat) (w : Wr) : Dev :=
  if i = 0 then
    if off < 0x1D0 then mbxBell d ((off - 0x100) / 16) (off % 16 == 8) w
    else if off < 0x300 then mbxCfg d ((off - 0x200) / 8) w
    else plainReg d (pgMbx 0) off w
  else
    let c := (i - 1) * 16 + (off - 0x100) / 128
    let o := off % 128
    if 0x900 ≤ off then d
    else if o < 0x60 then mbxData d w.agent c (o / 8) w
    else if o = 0x60 then mbxCtrl d w.agent c w
    else d

/-- Ring 1 is absent on a device of one half (R563). -/
def trcReg (d : Dev) (off : Nat) (w : Wr) : Dev :=
  match off with
  | 0x118 => trcMark d w
  | 0x300 => eclCtrl d w
  | 0x308 => eclPlain d off w
  | 0x310 => eclPlain d off w
  | 0x318 => eclPlain d off w
  | 0x320 => eclScanWrite d w
  | _ => if 0x140 ≤ off ∧ off < 0x160 ∧ !d.halfPresent 1 then d else plainReg d pgTrc off w

def pmuReg (d : Dev) (off : Nat) (w : Wr) : Dev :=
  match off with
  | 0x100 => sscEn d w
  | 0x108 => profileSelect d w
  | 0x110 => halfRun d w
  | 0x118 => pstateWrite d w
  | 0x120 => devRst d w
  | 0x130 => pwrLimit d w
  | 0x150 => fsFlush d w
  | 0x158 => faultWrite d w
  | _ => plainReg d pgPmu off w

/-- The shadow area stays while a speculative task is held (R228). -/
def dspReg (d : Dev) (c off : Nat) (w : Wr) : Dev :=
  match off with
  | 0x108 => qcmdWrite d c w
  | 0x400 => if (d.core c).specs.isEmpty then plainReg d (pgDsp c) off w else d
  | 0x408 => if (d.core c).specs.isEmpty then plainReg d (pgDsp c) off w else d
  | _ => plainReg d (pgDsp c) off w

def fetReg (d : Dev) (c off : Nat) (w : Wr) : Dev :=
  if off = 0x100 then fetCtrl d c w
  else if 0x200 ≤ off ∧ off < 0x600 then watchWriteReg d c ((off - 0x200) / 16) (off % 16 == 8) w
  else plainReg d (pgFet c) off w

def govReg (d : Dev) (c off : Nat) (w : Wr) : Dev :=
  match off with
  | 0x108 => epochWrite d c w
  | 0x148 => tailWrite d c w
  | _ => plainReg d (pgGov c) off w

def fabReg (d : Dev) (n off : Nat) (w : Wr) : Dev :=
  match off with
  | 0x100 => fabCtrlWrite d n w
  | 0x820 => if n % 8 = 0 then peerClear d (n / 8) w else d
  | _ => plainReg d (pgFab n) off w

/-- A write to MEM_MARK clears AUTO (R426). -/
def memReg (d : Dev) (k off : Nat) (w : Wr) : Dev :=
  match off with
  | 0x100 => moduleOffline d k false w
  | 0x120 => if d.mayWrite w.agent (pgMem k) 0x120 then (d.plainWrite (pgMem k) 0x120 w).setb (pgMem k) 0x120 8 false else d
  | _ => plainReg d (pgMem k) off w

/-- A block-specific register word. -/
def blkReg (d : Dev) (b : Blk) (i page off : Nat) (w : Wr) : Dev :=
  match b with
  | .sys => sysReg d off w
  | .fts => ftsReg d off w
  | .mbx => mbxReg d i off w
  | .trc => trcReg d off w
  | .pmu => pmuReg d off w
  | .thm => if off = 0x100 then thmCtrl d w else d
  | .dsp => dspReg d i off w
  | .fet => fetReg d i off w
  | .arr => if off = 0x100 then arrCtrl d i w else d
  | .tbl => if off = 0x100 then tblCtrl d i w else d
  | .gov => govReg d i off w
  | .fab => fabReg d i off w
  | .mem => memReg d i off w
  | .upd => plainReg d page off w
  | .pci => plainReg d page off w
  | .dbw => plainReg d page off w
  | _ => d

/-- A word of the page header. -/
def headerReg (d : Dev) (page off : Nat) (w : Wr) : Dev :=
  if off = 0x010 then blkCtrl d page w
  else if off = 0x028 then imrWrite d page w
  else if off = 0x058 then errCtrl d page w
  else if 0x060 ≤ off ∧ off < 0x0A0 then cntSel d page ((off - 0x060) / 8) w
  else if off = 0x0E0 then cntCtrl d page w
  else plainReg d page off w

/-- A write to a register word of a page. -/
def pageWrite (d : Dev) (page off : Nat) (w : Wr) : Dev :=
  match pageBlk page with
  | none => d
  | some (b, i) => if !d.present page then d else if off < 0x100 then headerReg d page off w else blkReg d b i page off w

/-- The access is naturally aligned: 64 bits, or 32 bits in the lower or the upper half of a word (R35). -/
def wrAligned (w : Wr) (off : Nat) : Bool := if w.lo then off % 8 == 0 else w.hi && off % 8 == 4

/-- A write to the register window at its byte offset: pages take naturally aligned 32-bit and 64-bit accesses, doorbells
64-bit ones, and any other access is ignored (R34, R35). -/
def windowWrite (d : Dev) (off : Nat) (w : Wr) : Dev :=
  if !wrAligned w off then d
  else
    if off < 0x8000000 then pageWrite d (off / 4096) (off % 4096 / 8 * 8) w
    else if off < 0x8080000 && w.hi && w.lo then doorbell d w.agent ((off - 0x8000000) / 8) w.val
    else d

/-- The writes to the window that a command has left are performed in order. -/
def Dev.drainBus (d : Dev) : Dev :=
  d.bus.foldl (fun d b => windowWrite d b.offset b.wr) { d with bus := [] }

/-! ### JTAG access to memory (R501, R561) -/

/-- The access that its agent may make: not a near store, nothing reserved, no closed page. -/
def Dev.jtagMay (d : Dev) (pa : Nat) : Bool :=
  pa % 8 == 0 && d.up &&
    (match d.space pa with
     | .reserved => false
     | .near _ _ => false
     | .window off => if off < 0x8000000 then d.pageOpen .jtag (off / 4096) else true
     | _ => d.reaches pa)

/-- One access: DONE, ERROR and the read data. -/
def jtagMem (d : Dev) (pa : Nat) (write : Bool) (value : W64) : Dev :=
  let r := d.tapIr 0x21 1 (if d.tap.ir = 0x21 then d.tap.capture else [0, 0])
  if !r.2 then r.1.tapOut
  else
    let d := r.1.tapOut
    let done := fun (d : Dev) (err : Bool) (v : W64) =>
      { d with tap := { d.tap with capture := [if err then 3 else 1, v] } }
    if !d.jtagMay pa then done d true 0
    else
      match d.space pa with
      | .window off =>
        if write then done (windowWrite d off { agent := .jtag, hi := true, lo := true, val := value }) false 0
        else
          let x := d.windowLoad .jtag off 8
          done x.1 false (BitVec.ofNat 64 (leNat x.2))
      | _ =>
        if write then done (d.storeBy (d.agentSecure .jtag) pa (leBytes 8 value.toNat) false) false 0
        else
          let x := d.load pa 8
          done x.1 x.2.2.isSome (BitVec.ofNat 64 (leNat x.2.1))

def execRegisterWrite (offset : Nat) (w : Wr) (s : State) : Host.Outcome State Fault Refusal := s.lift (fun d => windowWrite d offset w)
def execMemAccess (pa : Nat) (write : Bool) (value : W64) (s : State) : Host.Outcome State Fault Refusal :=
  s.lift (fun d => onTap d (fun d => jtagMem d pa write value))

end Sys2Proof.Machine
end

