-- ==== Sys2Proof/Machine/UnitCmd.lean ====
section
/-! DEFINITION. The commands of tasks: issue to a unit, the work of each opcode, and the commit of speculative tasks
(R210, R225 to R234, R252 to R260, R266 to R269, R283). -/

namespace Sys2Proof.Machine

/-! ### Issue -/

/-- The unit of the command takes commands: not halted, not under re-initialisation, the arrays clocked. -/
def Dev.unitReady (d : Dev) (c : Nat) (t : Ctx) : Bool :=
  match t.unit with
  | some 0 => (d.core c).ramp == .clocked && !d.regb (pgArr c) 0x010 1
  | some 2 => !d.regb (pgTbl c) 0x010 2 && !d.regb (pgTbl c) 0x010 1
  | _ => true

/-- The dispatcher picks this task's command: it is READY and nothing comes before it (R266 to R269, R468). -/
def Dev.mayIssue (d : Dev) (c x : Nat) (t : Ctx) : Bool :=
  d.coreLive c && !d.regb (pgDsp c) 0x010 2 && !(d.core c).dspFinit && t.state == .ready && !t.opDone && d.picked c x t && !d.outclassed c x t
    && !d.sliceHolds c t

/-- A doorbell write that a speculative task holds (R227): its place in the window, its value, and the task's world with the
halves of the word that it writes. -/
def heldDoorbell (b : BusWrite) (secure : Bool) : Desc :=
  { w0 := 0xFF, w1 := BitVec.ofNat 64 b.offset, w2 := b.wr.val, w3 := BitVec.ofNat 64 (bitsOf [secure, b.wr.hi, b.wr.lo]), w4 := 0, w5 := 0, w6 := 0, w7 := 0 }

/-- An action is held at the end of a speculative task's list. -/
def Dev.holdAct (d : Dev) (c x : Nat) (t : Desc) : Dev :=
  d.modCtx c x (fun k => { k with spec := k.spec.map (fun p => { p with heldActs := p.heldActs ++ [t] }) })

/-- The task's writes to the register window are performed; a speculative task holds those to the doorbell area. -/
def Dev.drainTask (d : Dev) (w : Who) : Dev :=
  let spec := (d.ctx? w.core w.ctx).any (fun t => t.spec.isSome)
  d.bus.foldl (fun d b =>
    if spec && b.offset ≥ 0x8000000 then d.holdAct w.core w.ctx (heldDoorbell b w.secure)
    else windowWrite d b.offset b.wr) { d with bus := [] }

/-- The task's regions are loaded before its command runs (R210). -/
def loadRegions (w : Who) (t : Desc) : M Unit := do
  if t.w0.bit 9 then
    let rs ← parseRegions w t
    modDev (fun d => d.modCtx w.core w.ctx (fun k => { k with regions := rs }))

/-- The task's command has done its work with a status and an event record. Where it waits for room in the shadow area, they follow
the writes that wait (R228). -/
def Ctx.cmdEnd (t : Ctx) (status : Nat) (ev : W64) : Ctx :=
  if t.waitsRoom then { t with opDone := true, spec := t.spec.map (fun p => { p with late := some (status, ev) }) }
  else { t with opDone := true, status := if t.status = 0 then status else t.status, event := if t.event = 0 then ev else t.event }

/-- A command issues. `act` does its work and answers whether it is complete, or nothing where the descriptor is another
row's. A fault ends the command with its status; a command that must wait has had no effect. -/
def issue (d : Dev) (c x : Nat) (act : Who → Desc → M (Option Bool)) : Dev :=
  match d.ctx? c x with
  | none => d
  | some t =>
    if !d.mayIssue c x t then d
    else if !d.unitReady c t then (if t.unit = some 0 then d.requestRamp c else d)
    else
      let w := d.whoOf c x
      let d1 := d.setCtx c x { t with state := .running, opDone := false, tag := t.cur.w0.field 31 16 }
      let d1 := d1.traceCmd c x 0x02 t (BitVec.ofNat 64 (t.tseq + t.seq * 2 ^ 32))
      let r := ((do loadRegions w t.cur; act w t.cur : M (Option Bool)).run).run (Run.start d1)
      let ended := fun (d : Dev) (status : Nat) (ev : W64) => (d.modCtx c x (fun k => k.cmdEnd status ev)).drainTask w
      match r.1 with
      | .ok none => d
      | .ok (some true) => ended r.2.dev 0 r.2.event
      | .ok (some false) =>
        (r.2.dev.modCtx c x (fun k => { k with event := if k.event = 0 then r.2.event else k.event })).drainTask w
      | .error (.fail status ev) => ended r.2.dev status (if r.2.event = 0 then ev else r.2.event)
      | .error (.hold .specSlot) => d.setCtx c x { t with state := .waiting, waitFor := .specSlot }
      | .error (.hold .fence) => d.setCtx c x { t with state := .waiting, waitFor := .fence }
      | .error (.hold _) => d

/-- The work of an opcode, whole at once. -/
def onOpc (opc : Nat) (act : Who → Desc → M Unit) (w : Who) (t : Desc) : M (Option Bool) := do
  if t.opc = opc then
    act w t
    return some true
  else return none

/-! ### Units -/

def vecAct (vop : Nat) (w : Who) (t : Desc) : M (Option Bool) := do
  if t.opc = 3 ∧ t.arg 39 32 = vop then
    vecCmd w t
    return some true
  else return none

/-- A speculative task's XFER to a peer is held (R227). -/
def holds (w : Who) (t : Desc) : M Bool := do
  if ((← getDev).specOf w).isSome then
    modDev (fun d => d.holdAct w.core w.ctx t)
    return true
  else return false

def xferAct (mode : Nat) (w : Who) (t : Desc) : M (Option Bool) := do
  if t.opc = 5 ∧ t.arg 34 32 = mode then
    let a ← parseXfer w t
    if !a.remote then
      xferLocal w a
      return some true
    else if ← holds w t then return some true
    else return some (← xferRemote w a)
  else return none

def collAct (op : Nat) (w : Who) (t : Desc) : M (Option Bool) := do
  if t.opc = 6 then
    let a ← parseColl w t
    if a.op = op then
      modDev (fun d => d.issueColl w.core w.ctx a)
      return some false
    else return none
  else return none

def updAct (op : Nat) (w : Who) (t : Desc) : M (Option Bool) := do
  if t.opc = 7 then
    let a ← parseUpd w t
    if a.op ≠ op then return none
    else if ← holds w t then return some true
    else return some (← updBody w a)
  else return none

def tableAct (w : Who) (t : Desc) : M (Option Bool) := do
  if t.opc = 4 then return some (← tableBody w (← parseTable w t)) else return none

/-- The tiles that a running TABLE has left, unless its page is halted; with them its work is done (R342, R352, R468). -/
def Dev.tableRest (d : Dev) (c x : Nat) : Dev :=
  match d.ctx? c x with
  | none => d
  | some t =>
    match t.table with
    | none => d
    | some r =>
      if !d.coreLive c ∨ t.state ≠ .running ∨ (t.status = 0 ∧ d.regb (pgTbl c) 0x010 2) then d
      else
        let w := d.whoOf c x
        let y := ((Machine.tableRest w r (t.status != 0)).run).run (Run.start d)
        let ended := fun (d : Dev) (status : Nat) (ev : W64) => (d.modCtx c x (fun k => k.cmdEnd status ev)).drainTask w
        match y.1 with
        | .ok _ => ended y.2.dev 0 y.2.event
        | .error (.fail status ev) => ended y.2.dev status (if y.2.event = 0 then ev else y.2.event)
        | .error (.hold _) => d

/-- The completion of a command, with what a TABLE has left to do before it. -/
def completeCommand (d : Dev) (c x : Nat) : Dev := commandComplete (d.tableRest c x) c x

/-! ### Synchronisation (R222, R257, R258, R283) -/

/-- What a FENCE of a scope waits for (R222). Every access of an earlier command has been performed when it completed, but for
frames to peers that the commit of the task has released (R228, R230). -/
def fenceWait (w : Who) (scope : Nat) : M Unit := do
  let d ← getDev
  if scope = 3 ∧ !(d.netQuiet w.core w.ctx && d.arrivalsIn w.core w.ctx) then throw (.hold .fence)
  setDev (d.dropTaskCopies w.core w.ctx)

/-- FENCE; with its completion the task's copies are dropped (R215). In a speculative task its scope asks for nothing more than its
near-store and shadow writes, which are done (R227). -/
def fenceAct (w : Who) (t : Desc) : M Unit := fenceWait w (t.arg 33 32)

/-- The atomic of a SOP. -/
def sopAtomic (sop : Nat) : Nat := if sop = 1 then 2 else if sop = 2 then 0 else 1

/-- Where a SIGNAL may write: DRAM, the backed part of a carve-out, or the register window (R200, R257). -/
def signalPlace : Space → Bool
  | .dram _ _ => true
  | .carve _ _ => true
  | .window _ => true
  | _ => false

/-- SIGNAL: a FENCE of its scope, then its operation on the word at its address (R223, R257). -/
def signalBody (w : Who) (a : SignalArgs) : M Unit := do
  fenceWait w a.scope
  let pa ← xlat w a.va true
  let d ← getDev
  if a.sop = 0 then
    if !signalPlace (d.space pa) then fail 0x08
    writeAt w (pa / 64 * 64) ((emptyLine.take (pa % 64)) ++ (leBytes 8 a.value.toNat).map some ++ emptyLine.drop (pa % 64 + 8))
  else
    if !d.isAtomic pa then fail 0x08
    let _ ← atomicAt w (sopAtomic a.sop) pa a.value

def signalAct (w : Who) (t : Desc) : M Unit := do
  let a ← parseSignal w t
  if !(← holds w t) then signalBody w a

/-- WAIT's word, a demand read of the command (R214, R258). -/
def waitWord (w : Who) (va : Nat) : M W64 := do return BitVec.ofNat 64 (leNat (← vread w va 8))

/-- WAIT's condition holds now. -/
def waitHolds (w : Who) (a : WaitArgs) : M Bool := do
  let gen := fun (d : Dev) => d.regf (pgFet w.core) (0x600 + 8 * a.watch) 62 0
  match a.cond with
  | 0 => return (← waitWord w a.va) &&& a.mask == a.value
  | 1 => return (← waitWord w a.va) &&& a.mask != a.value
  | 2 => return decide ((((← waitWord w a.va) &&& a.mask) - a.value).toNat < 2 ^ 63)
  | 3 => return gen (← getDev) != a.value.toNat
  | _ => return decide ((gen (← getDev) + 2 ^ 63 - a.value.toNat % 2 ^ 63) % 2 ^ 63 < 2 ^ 62)

/-- One test of a WAIT: satisfied, it completes and drops the task's copies; else the task waits. -/
def waitTest (w : Who) (t : Desc) : M Bool := do
  let a ← parseWait w t
  let ok ← waitHolds w a
  if ok then modDev (fun d => d.dropTaskCopies w.core w.ctx)
  else modDev (fun d => d.modCtx w.core w.ctx (fun k => { k with state := .waiting, waitFor := .condition }))
  return ok

def waitAct (w : Who) (t : Desc) : M (Option Bool) := do
  if t.opc = 10 then return some (← waitTest w t) else return none

/-- A waiting task's condition is tested again; with it the task is READY, its command done (R258, R264). -/
def waitPoll (d : Dev) (c x : Nat) : Dev :=
  match d.ctx? c x with
  | none => d
  | some t =>
    if !d.coreLive c ∨ d.regb (pgDsp c) 0x010 2 ∨ t.state ≠ .waiting ∨ t.waitFor ≠ .condition then d
    else
      let w := d.whoOf c x
      let r := ((waitTest w t.cur).run).run (Run.start d)
      let ended := fun (d : Dev) (status : Nat) (ev : W64) =>
        d.modCtx c x (fun k => { k.cmdEnd status ev with state := .ready, waitFor := .none })
      match r.1 with
      | .ok true => ended r.2.dev 0 0
      | .ok false => r.2.dev
      | .error (.fail status ev) => ended r.2.dev status (if r.2.event = 0 then ev else r.2.event)
      | .error (.hold _) => d

/-- The position that a TIME operand names: frames from 0, or signed offsets from the bound or current frame. -/
def timeFrame (base : Nat) (relative : Bool) (v : W64) : Nat :=
  if relative then (base + v.field 47 0 + (if v.bit 47 then 2 ^ 62 - 2 ^ 48 else 0)) % 2 ^ 62 else v.field 47 0

def timeAct (w : Who) (t : Desc) : M Unit := do
  parseTime w t
  modDev (fun d => d.modCtx w.core w.ctx (fun k =>
    let base := k.bound.getD k.frameAt
    let rel := t.w0.bit 35
    let k := if t.w0.bit 32 then { k with release := some (d.posOf (timeFrame base rel t.w1) (t.w1.field 61 48)) } else k
    let dl : Deadline := { frame := timeFrame base rel t.w2, line := t.w2.field 61 48, abort := t.w0.bit 34, seen := false }
    if t.w0.bit 33 then { k with deadline := some dl } else k))

/-! ### Speculation (R225 to R231) -/

def specBeginAct (w : Who) (t : Desc) : M Unit := do
  let va ← parseSpecBegin w t
  if ((← getDev).core w.core).specs.length ≥ 64 then throw (.hold .specSlot)
  modDev (fun d =>
    let gens := (List.range 64).map (fun i => (d.reg (pgFet w.core) (0x600 + 8 * i)).toNat)
    let p : Spec := { decision := va, gens := gens, readSet := [], shadow := [], excess := [], late := none, heldActs := [],
                      state := .running, atCommand := false }
    (d.modCtx w.core w.ctx (fun k => { k with spec := some p })).count (pgDsp w.core) 0x20 1)

/-- SPEC_COMMIT: the task decides by its decision word. One that committed early is complete. -/
def specCommitAct (w : Who) (t : Desc) : M (Option Bool) := do
  if t.opc ≠ 13 then return none
  parseSpecEnd w t
  if ((← getDev).specOf w).isNone then return some true
  modDev (fun d => (d.modCtx w.core w.ctx (fun k =>
    { k with spec := k.spec.map (fun p => { p with state := .deciding, atCommand := true }) })).pollDecision w.core w.ctx)
  return some false

def specAbortAct (w : Who) (t : Desc) : M Unit := do
  parseSpecEnd w t
  modDev (fun d => d.discard w.core w.ctx 1)

/-- A held action is performed (R230, stage 3). -/
def heldAct (w : Who) (t : Desc) : M Unit := do
  match t.opc with
  | 0xFF => modDev (fun d => windowWrite d t.w1.toNat { agent := .task (t.w3.bit 0), hi := t.w3.bit 1, lo := t.w3.bit 2, val := t.w2 })
  | 9 => do signalBody w (← parseSignal w t)
  | 7 => do let _ ← updBody w (← parseUpd w t)
  | _ => do let _ ← xferRemote w (← parseXfer w t)

/-- Held actions in issue order, up to the first that must wait: those left, and the first fault's status and event. A fault of
one is the task's; the others are still performed. -/
def heldAll (w : Who) : List Desc → Dev → Dev × List Desc × Nat × W64
  | [], d => (d, [], 0, 0)
  | t :: rest, d =>
    let r := ((heldAct w t).run).run (Run.start d)
    let next := fun (status : Nat) (ev : W64) =>
      let y := heldAll w rest r.2.dev.drainBus
      if status = 0 then y else (y.1, y.2.1, status, ev)
    match r.1 with
    | .ok _ => next 0 0
    | .error (.fail status ev) => next status (if r.2.event = 0 then ev else r.2.event)
    | .error (.hold _) => (d, t :: rest, 0, 0)

/-- An operation that waited for room is performed, as one of a non-speculative task (R228). -/
def Dev.performPend (d : Dev) (w : Who) : PendOp → Dev
  | .line pa mask => (d.storeLine pa mask false).dropCopies w.core (pa / 64)
  | .atomic op pa v => (d.atomicBy w.secure op pa v).dropCopies w.core (pa / 64)
  | .window off wr => windowWrite d off wr

/-- The stores that the operations need answer (R418, R421). -/
def Dev.pendReaches (d : Dev) (c : Nat) (p : Spec) : Bool :=
  p.excess.all (fun o =>
    match o with
    | .line pa _ => d.reachesFrom (c / 4) pa
    | .atomic _ pa _ => d.reachesFrom (c / 4) pa
    | .window _ _ => true)

/-- A task commits early (R228): what waited for room is performed, and it goes on as a non-speculative one. -/
def Dev.commitEarly (d : Dev) (c x : Nat) (p : Spec) : Dev :=
  let d := p.excess.foldl (fun d o => d.performPend (d.whoOf c x) o) d
  let late := p.late.getD (0, 0)
  let d := d.modCtx c x (fun k => { k with status := if k.status = 0 then late.1 else k.status, event := if k.event = 0 then late.2 else k.event })
  if (d.core c).dspFinit then ((d.netDrop c x).endTask c x 6 4).settle c
  else (d.wakeSpec c).settle c

/-- The write-out is performed: the held actions follow, and the task is committed; or it goes on as a non-speculative one (R228,
R230). A held action that must wait, and those after it, follow at a later such step. -/
def writeoutDone (d : Dev) (c x : Nat) : Dev :=
  match d.ctx? c x with
  | none => d
  | some t =>
    match t.spec with
    | none => d
    | some p =>
      if !d.coreLive c ∨ p.state ≠ .writing ∨ !d.pendReaches c p then d
      else
        let r := heldAll (d.whoOf c x) p.heldActs (d.setCtx c x { t with spec := none })
        let d := r.1.modCtx c x (fun k => { k with status := if k.status = 0 then r.2.2.1 else k.status, event := if k.event = 0 then r.2.2.2 else k.event })
        if !r.2.1.isEmpty then d.modCtx c x (fun k => { k with spec := some { p with shadow := [], heldActs := r.2.1 } })
        else
          let d := (d.count (pgDsp c) 0x21 1).modCtx c x (fun k => { k with specOut := 1 })
          if p.atCommand then
            let ended : Spec := { p with shadow := [], excess := [], heldActs := [], state := .committed }
            let d := d.modCtx c x (fun k => { k with spec := some ended })
            if d.netQuiet c x && d.arrivalsIn c x then d.modCtx c x (fun k => { k with opDone := true }) else d
          else d.commitEarly c x p

def execCommandComplete (core ctx : Nat) (s : State) : Host.Outcome State Fault Refusal := s.lift (fun d => completeCommand d core ctx)
def execNop (core ctx : Nat) (s : State) : Host.Outcome State Fault Refusal := s.lift (fun d => issue d core ctx (onOpc 0 (fun _ _ => pure ())))
def execTileLoad (core ctx : Nat) (s : State) : Host.Outcome State Fault Refusal :=
  s.lift (fun d => issue d core ctx (onOpc 1 (fun w t => do tileLoadBody w (← parseTileLoad w t))))
def execStream (core ctx : Nat) (s : State) : Host.Outcome State Fault Refusal :=
  s.lift (fun d => issue d core ctx (onOpc 2 (fun w t => do streamBody w (← parseStreamCmd w t))))
def execVecFma (core ctx : Nat) (s : State) : Host.Outcome State Fault Refusal := s.lift (fun d => issue d core ctx (vecAct 0x00))
def execVecAdd (core ctx : Nat) (s : State) : Host.Outcome State Fault Refusal := s.lift (fun d => issue d core ctx (vecAct 0x01))
def execVecMul (core ctx : Nat) (s : State) : Host.Outcome State Fault Refusal := s.lift (fun d => issue d core ctx (vecAct 0x02))
def execVecMax (core ctx : Nat) (s : State) : Host.Outcome State Fault Refusal := s.lift (fun d => issue d core ctx (vecAct 0x03))
def execVecMin (core ctx : Nat) (s : State) : Host.Outcome State Fault Refusal := s.lift (fun d => issue d core ctx (vecAct 0x04))
def execVecConv (core ctx : Nat) (s : State) : Host.Outcome State Fault Refusal := s.lift (fun d => issue d core ctx (vecAct 0x05))
def execVecRsum (core ctx : Nat) (s : State) : Host.Outcome State Fault Refusal := s.lift (fun d => issue d core ctx (vecAct 0x06))
def execVecRmax (core ctx : Nat) (s : State) : Host.Outcome State Fault Refusal := s.lift (fun d => issue d core ctx (vecAct 0x07))
def execVecRmin (core ctx : Nat) (s : State) : Host.Outcome State Fault Refusal := s.lift (fun d => issue d core ctx (vecAct 0x08))
def execVecRsumsq (core ctx : Nat) (s : State) : Host.Outcome State Fault Refusal := s.lift (fun d => issue d core ctx (vecAct 0x09))
def execVecRecip (core ctx : Nat) (s : State) : Host.Outcome State Fault Refusal := s.lift (fun d => issue d core ctx (vecAct 0x0A))
def execVecRsqrt (core ctx : Nat) (s : State) : Host.Outcome State Fault Refusal := s.lift (fun d => issue d core ctx (vecAct 0x0B))
def execVecExp (core ctx : Nat) (s : State) : Host.Outcome State Fault Refusal := s.lift (fun d => issue d core ctx (vecAct 0x0C))
def execVecLog (core ctx : Nat) (s : State) : Host.Outcome State Fault Refusal := s.lift (fun d => issue d core ctx (vecAct 0x0D))
def execVecTanh (core ctx : Nat) (s : State) : Host.Outcome State Fault Refusal := s.lift (fun d => issue d core ctx (vecAct 0x0E))
def execVecSigmoid (core ctx : Nat) (s : State) : Host.Outcome State Fault Refusal := s.lift (fun d => issue d core ctx (vecAct 0x0F))
def execTable (core ctx : Nat) (s : State) : Host.Outcome State Fault Refusal :=
  s.lift (fun d => issue d core ctx tableAct)
def execXferCopy (core ctx : Nat) (s : State) : Host.Outcome State Fault Refusal := s.lift (fun d => issue d core ctx (xferAct 0))
def execXferRelayout (core ctx : Nat) (s : State) : Host.Outcome State Fault Refusal := s.lift (fun d => issue d core ctx (xferAct 1))
def execXferGather (core ctx : Nat) (s : State) : Host.Outcome State Fault Refusal := s.lift (fun d => issue d core ctx (xferAct 2))
def execXferScatter (core ctx : Nat) (s : State) : Host.Outcome State Fault Refusal := s.lift (fun d => issue d core ctx (xferAct 3))
def execXferScatterAdd (core ctx : Nat) (s : State) : Host.Outcome State Fault Refusal := s.lift (fun d => issue d core ctx (xferAct 4))
def execFence (core ctx : Nat) (s : State) : Host.Outcome State Fault Refusal := s.lift (fun d => issue d core ctx (onOpc 8 fenceAct))
def execSignal (core ctx : Nat) (s : State) : Host.Outcome State Fault Refusal := s.lift (fun d => issue d core ctx (onOpc 9 signalAct))
def execWait (core ctx : Nat) (s : State) : Host.Outcome State Fault Refusal := s.lift (fun d => issue d core ctx waitAct)
def execWaitPoll (core ctx : Nat) (s : State) : Host.Outcome State Fault Refusal := s.lift (fun d => waitPoll d core ctx)
def execTime (core ctx : Nat) (s : State) : Host.Outcome State Fault Refusal := s.lift (fun d => issue d core ctx (onOpc 11 timeAct))
def execSpecBegin (core ctx : Nat) (s : State) : Host.Outcome State Fault Refusal := s.lift (fun d => issue d core ctx (onOpc 12 specBeginAct))
def execSpecCommit (core ctx : Nat) (s : State) : Host.Outcome State Fault Refusal := s.lift (fun d => issue d core ctx specCommitAct)
def execSpecAbort (core ctx : Nat) (s : State) : Host.Outcome State Fault Refusal := s.lift (fun d => issue d core ctx (onOpc 14 specAbortAct))
def execSpecWriteoutDone (core ctx : Nat) (s : State) : Host.Outcome State Fault Refusal := s.lift (fun d => writeoutDone d core ctx)
def execCollReduceScatter (core ctx : Nat) (s : State) : Host.Outcome State Fault Refusal := s.lift (fun d => issue d core ctx (collAct 0))
def execCollAllGather (core ctx : Nat) (s : State) : Host.Outcome State Fault Refusal := s.lift (fun d => issue d core ctx (collAct 1))
def execCollAllReduce (core ctx : Nat) (s : State) : Host.Outcome State Fault Refusal := s.lift (fun d => issue d core ctx (collAct 2))
def execCollBroadcast (core ctx : Nat) (s : State) : Host.Outcome State Fault Refusal := s.lift (fun d => issue d core ctx (collAct 3))
def execCollAllToAll (core ctx : Nat) (s : State) : Host.Outcome State Fault Refusal := s.lift (fun d => issue d core ctx (collAct 4))
def execCollExchange (core ctx : Nat) (s : State) : Host.Outcome State Fault Refusal := s.lift (fun d => issue d core ctx (collAct 5))
def execUpdApply (core ctx : Nat) (s : State) : Host.Outcome State Fault Refusal := s.lift (fun d => issue d core ctx (updAct 0))
def execUpdStep (core ctx : Nat) (s : State) : Host.Outcome State Fault Refusal := s.lift (fun d => issue d core ctx (updAct 1))
def execUpdRoots (core ctx : Nat) (s : State) : Host.Outcome State Fault Refusal := s.lift (fun d => issue d core ctx (updAct 2))
def execUpdPin (core ctx : Nat) (s : State) : Host.Outcome State Fault Refusal := s.lift (fun d => issue d core ctx (updAct 3))
def execUpdDropout (core ctx : Nat) (s : State) : Host.Outcome State Fault Refusal := s.lift (fun d => issue d core ctx (updAct 4))
def execUpdClaim (core ctx : Nat) (s : State) : Host.Outcome State Fault Refusal := s.lift (fun d => issue d core ctx (updAct 5))
def execUpdRelease (core ctx : Nat) (s : State) : Host.Outcome State Fault Refusal := s.lift (fun d => issue d core ctx (updAct 6))

end Sys2Proof.Machine
end

