-- ==== Sys2Proof/Machine/Dispatch.lean ====
section
/-! DEFINITION. One arm for each command: a direct call of its meaning. -/

namespace Sys2Proof.Machine

def exec (i : Instr) (s : State) : Host.Outcome State Fault Refusal :=
  match i with
  | .nop a b => Sys2Proof.Machine.execNop a b s
  | .tileLoad a b => Sys2Proof.Machine.execTileLoad a b s
  | .stream a b => Sys2Proof.Machine.execStream a b s
  | .vecFma a b => Sys2Proof.Machine.execVecFma a b s
  | .vecAdd a b => Sys2Proof.Machine.execVecAdd a b s
  | .vecMul a b => Sys2Proof.Machine.execVecMul a b s
  | .vecMax a b => Sys2Proof.Machine.execVecMax a b s
  | .vecMin a b => Sys2Proof.Machine.execVecMin a b s
  | .vecConv a b => Sys2Proof.Machine.execVecConv a b s
  | .vecRsum a b => Sys2Proof.Machine.execVecRsum a b s
  | .vecRmax a b => Sys2Proof.Machine.execVecRmax a b s
  | .vecRmin a b => Sys2Proof.Machine.execVecRmin a b s
  | .vecRsumsq a b => Sys2Proof.Machine.execVecRsumsq a b s
  | .vecRecip a b => Sys2Proof.Machine.execVecRecip a b s
  | .vecRsqrt a b => Sys2Proof.Machine.execVecRsqrt a b s
  | .vecExp a b => Sys2Proof.Machine.execVecExp a b s
  | .vecLog a b => Sys2Proof.Machine.execVecLog a b s
  | .vecTanh a b => Sys2Proof.Machine.execVecTanh a b s
  | .vecSigmoid a b => Sys2Proof.Machine.execVecSigmoid a b s
  | .table a b => Sys2Proof.Machine.execTable a b s
  | .xferCopy a b => Sys2Proof.Machine.execXferCopy a b s
  | .xferRelayout a b => Sys2Proof.Machine.execXferRelayout a b s
  | .xferGather a b => Sys2Proof.Machine.execXferGather a b s
  | .xferScatter a b => Sys2Proof.Machine.execXferScatter a b s
  | .xferScatterAdd a b => Sys2Proof.Machine.execXferScatterAdd a b s
  | .fence a b => Sys2Proof.Machine.execFence a b s
  | .signal a b => Sys2Proof.Machine.execSignal a b s
  | .wait a b => Sys2Proof.Machine.execWait a b s
  | .waitPoll a b => Sys2Proof.Machine.execWaitPoll a b s
  | .time a b => Sys2Proof.Machine.execTime a b s
  | .specBegin a b => Sys2Proof.Machine.execSpecBegin a b s
  | .specCommit a b => Sys2Proof.Machine.execSpecCommit a b s
  | .specAbort a b => Sys2Proof.Machine.execSpecAbort a b s
  | .specPoll a b => Sys2Proof.Machine.execSpecPoll a b s
  | .specWriteoutDone a b => Sys2Proof.Machine.execSpecWriteoutDone a b s
  | .collReduceScatter a b => Sys2Proof.Machine.execCollReduceScatter a b s
  | .collAllGather a b => Sys2Proof.Machine.execCollAllGather a b s
  | .collAllReduce a b => Sys2Proof.Machine.execCollAllReduce a b s
  | .collBroadcast a b => Sys2Proof.Machine.execCollBroadcast a b s
  | .collAllToAll a b => Sys2Proof.Machine.execCollAllToAll a b s
  | .collExchange a b => Sys2Proof.Machine.execCollExchange a b s
  | .updApply a b => Sys2Proof.Machine.execUpdApply a b s
  | .updStep a b => Sys2Proof.Machine.execUpdStep a b s
  | .updRoots a b => Sys2Proof.Machine.execUpdRoots a b s
  | .updPin a b => Sys2Proof.Machine.execUpdPin a b s
  | .updDropout a b => Sys2Proof.Machine.execUpdDropout a b s
  | .updClaim a b => Sys2Proof.Machine.execUpdClaim a b s
  | .updRelease a b => Sys2Proof.Machine.execUpdRelease a b s
  | .doorbellWrite a b c => Sys2Proof.Machine.execDoorbellWrite a b c s
  | .doorbellRead a b => Sys2Proof.Machine.execDoorbellRead a b s
  | .queueEnable a b => Sys2Proof.Machine.execQueueEnable a b s
  | .queueDisable a b => Sys2Proof.Machine.execQueueDisable a b s
  | .taskStart a b => Sys2Proof.Machine.execTaskStart a b s
  | .commandComplete a b => Sys2Proof.Machine.execCommandComplete a b s
  | .taskRetire a b => Sys2Proof.Machine.execTaskRetire a b s
  | .dspFinit a b => Sys2Proof.Machine.execDspFinit a b s
  | .dspHalt a b => Sys2Proof.Machine.execDspHalt a b s
  | .updFinit a b => Sys2Proof.Machine.execUpdFinit a b s
  | .updHalt a b => Sys2Proof.Machine.execUpdHalt a b s
  | .updEnable a b => Sys2Proof.Machine.execUpdEnable a b s
  | .updScanComplete a => Sys2Proof.Machine.execUpdScanComplete a s
  | .tblFinit a b => Sys2Proof.Machine.execTblFinit a b s
  | .tblHalt a b => Sys2Proof.Machine.execTblHalt a b s
  | .arrFinit a b => Sys2Proof.Machine.execArrFinit a b s
  | .coreFinit a b => Sys2Proof.Machine.execCoreFinit a b s
  | .fabFinit a b => Sys2Proof.Machine.execFabFinit a b s
  | .govHalt a b => Sys2Proof.Machine.execGovHalt a b s
  | .finitDone a => Sys2Proof.Machine.execFinitDone a s
  | .errClear a b => Sys2Proof.Machine.execErrClear a b s
  | .cntClear a b => Sys2Proof.Machine.execCntClear a b s
  | .cntSelWrite a b c => Sys2Proof.Machine.execCntSelWrite a b c s
  | .registerWrite a b => Sys2Proof.Machine.execRegisterWrite a b s
  | .arrCtrlWrite a b => Sys2Proof.Machine.execArrCtrlWrite a b s
  | .arrayIdleGate a => Sys2Proof.Machine.execArrayIdleGate a s
  | .arrayRampStart a => Sys2Proof.Machine.execArrayRampStart a s
  | .arrayRampDone a => Sys2Proof.Machine.execArrayRampDone a s
  | .powerDutyUpdate a b c => Sys2Proof.Machine.execPowerDutyUpdate a b c s
  | .thermalSample a => Sys2Proof.Machine.execThermalSample a s
  | .epochTrigger a b => Sys2Proof.Machine.execEpochTrigger a b s
  | .epochEnd a => Sys2Proof.Machine.execEpochEnd a s
  | .govWrecTailWrite a b => Sys2Proof.Machine.execGovWrecTailWrite a b s
  | .runAheadRead a b c => Sys2Proof.Machine.execRunAheadRead a b c s
  | .fetCtrlWrite a b => Sys2Proof.Machine.execFetCtrlWrite a b s
  | .watchRegionWrite a b c d => Sys2Proof.Machine.execWatchRegionWrite a b c d s
  | .tlbInvalidate a => Sys2Proof.Machine.execTlbInvalidate a s
  | .tlbiDone => Sys2Proof.Machine.execTlbiDone s
  | .carveOutChange a => Sys2Proof.Machine.execCarveOutChange a s
  | .carveOutDone a => Sys2Proof.Machine.execCarveOutDone a s
  | .farStoreFlush a => Sys2Proof.Machine.execFarStoreFlush a s
  | .flushDone => Sys2Proof.Machine.execFlushDone s
  | .patrolScrubLine a b => Sys2Proof.Machine.execPatrolScrubLine a b s
  | .sramScrubWord a b c d => Sys2Proof.Machine.execSramScrubWord a b c d s
  | .moduleOffline a b c => Sys2Proof.Machine.execModuleOffline a b c s
  | .memTrainingStart a => Sys2Proof.Machine.execMemTrainingStart a s
  | .channelTrainingDone a b => Sys2Proof.Machine.execChannelTrainingDone a b s
  | .drawbarFlitReceive a b c d => Sys2Proof.Machine.execDrawbarFlitReceive a b c d s
  | .ucieKeepaliveSend a => Sys2Proof.Machine.execUcieKeepaliveSend a s
  | .halfIsolation a => Sys2Proof.Machine.execHalfIsolation a s
  | .rasterLineBoundary => Sys2Proof.Machine.execRasterLineBoundary s
  | .schBoundaryApply a => Sys2Proof.Machine.execSchBoundaryApply a s
  | .frameInEdge a b => Sys2Proof.Machine.execFrameInEdge a b s
  | .ppsInEdge a => Sys2Proof.Machine.execPpsInEdge a s
  | .ptpEventMessage a b => Sys2Proof.Machine.execPtpEventMessage a b s
  | .sourceLoss a => Sys2Proof.Machine.execSourceLoss a s
  | .relockStart a b c => Sys2Proof.Machine.execRelockStart a b c s
  | .ftsTimeWrite a => Sys2Proof.Machine.execFtsTimeWrite a s
  | .ftsCtrlWrite a => Sys2Proof.Machine.execFtsCtrlWrite a s
  | .sliceUpdateStart a => Sys2Proof.Machine.execSliceUpdateStart a s
  | .sliceCommit a => Sys2Proof.Machine.execSliceCommit a s
  | .rootJobStart a => Sys2Proof.Machine.execRootJobStart a s
  | .rootJobDone a => Sys2Proof.Machine.execRootJobDone a s
  | .keyRegistryClear a => Sys2Proof.Machine.execKeyRegistryClear a s
  | .tblCtrlWrite a b => Sys2Proof.Machine.execTblCtrlWrite a b s
  | .linkFailure a => Sys2Proof.Machine.execLinkFailure a s
  | .linkUp a b c => Sys2Proof.Machine.execLinkUp a b c s
  | .linkRetryTimer a => Sys2Proof.Machine.execLinkRetryTimer a s
  | .fabRetrain a b => Sys2Proof.Machine.execFabRetrain a b s
  | .fabModeWrite a b => Sys2Proof.Machine.execFabModeWrite a b s
  | .dataFrameSend a b c => Sys2Proof.Machine.execDataFrameSend a b c s
  | .aftDataReceive a b => Sys2Proof.Machine.execAftDataReceive a b s
  | .aftAckReceive a b => Sys2Proof.Machine.execAftAckReceive a b s
  | .aftNakReceive a b => Sys2Proof.Machine.execAftNakReceive a b s
  | .aftCreditReceive a b => Sys2Proof.Machine.execAftCreditReceive a b s
  | .aftKeepaliveReceive a b => Sys2Proof.Machine.execAftKeepaliveReceive a b s
  | .aftMgmtReceive a b => Sys2Proof.Machine.execAftMgmtReceive a b s
  | .llrNakReceive a b => Sys2Proof.Machine.execLlrNakReceive a b s
  | .llrAckReceive a b => Sys2Proof.Machine.execLlrAckReceive a b s
  | .frameRelay a b => Sys2Proof.Machine.execFrameRelay a b s
  | .pauseFrameReceive a => Sys2Proof.Machine.execPauseFrameReceive a s
  | .ackTimer a b => Sys2Proof.Machine.execAckTimer a b s
  | .retransmitTimeout a b c => Sys2Proof.Machine.execRetransmitTimeout a b c s
  | .peerSilenceTimeout a b => Sys2Proof.Machine.execPeerSilenceTimeout a b s
  | .keepaliveTimer a b => Sys2Proof.Machine.execKeepaliveTimer a b s
  | .rateControlWindow a b => Sys2Proof.Machine.execRateControlWindow a b s
  | .peerClear a b => Sys2Proof.Machine.execPeerClear a b s
  | .routeInvalidate a => Sys2Proof.Machine.execRouteInvalidate a s
  | .mbxGo a b => Sys2Proof.Machine.execMbxGo a b s
  | .mbxTake a b => Sys2Proof.Machine.execMbxTake a b s
  | .mbxDataWrite a b c d => Sys2Proof.Machine.execMbxDataWrite a b c d s
  | .mbxCfgWrite a b => Sys2Proof.Machine.execMbxCfgWrite a b s
  | .ingest a => Sys2Proof.Machine.execIngest a s
  | .ingestComplete a b => Sys2Proof.Machine.execIngestComplete a b s
  | .checkpoint a => Sys2Proof.Machine.execCheckpoint a s
  | .checkpointComplete => Sys2Proof.Machine.execCheckpointComplete s
  | .restore a => Sys2Proof.Machine.execRestore a s
  | .queueTableQuery a => Sys2Proof.Machine.execQueueTableQuery a s
  | .queueTableMap a b c d => Sys2Proof.Machine.execQueueTableMap a b c d s
  | .setDeviceId a b => Sys2Proof.Machine.execSetDeviceId a b s
  | .routeTableLoad a b c => Sys2Proof.Machine.execRouteTableLoad a b c s
  | .meshEntrySet a b c => Sys2Proof.Machine.execMeshEntrySet a b c s
  | .absentPeerClear a b => Sys2Proof.Machine.execAbsentPeerClear a b s
  | .telemetryEnable a => Sys2Proof.Machine.execTelemetryEnable a s
  | .mgmtDatagram a b c d => Sys2Proof.Machine.execMgmtDatagram a b c d s
  | .fwAliveTick => Sys2Proof.Machine.execFwAliveTick s
  | .bar2Access a b c d => Sys2Proof.Machine.execBar2Access a b c d s
  | .dmaTimeout a b => Sys2Proof.Machine.execDmaTimeout a b s
  | .pcieLinkChange a b c => Sys2Proof.Machine.execPcieLinkChange a b c s
  | .spdmRequest a b c => Sys2Proof.Machine.execSpdmRequest a b c s
  | .spdmSessionTimeout a b => Sys2Proof.Machine.execSpdmSessionTimeout a b s
  | .bmcSidebandReset => Sys2Proof.Machine.execBmcSidebandReset s
  | .secureBoot => Sys2Proof.Machine.execSecureBoot s
  | .verifyLoad => Sys2Proof.Machine.execVerifyLoad s
  | .arbAdvance => Sys2Proof.Machine.execArbAdvance s
  | .ownerProvision => Sys2Proof.Machine.execOwnerProvision s
  | .reseed => Sys2Proof.Machine.execReseed s
  | .entropyHealthFail => Sys2Proof.Machine.execEntropyHealthFail s
  | .secRandRead a => Sys2Proof.Machine.execSecRandRead a s
  | .powerOnReset => Sys2Proof.Machine.execPowerOnReset s
  | .pwrGoodRise a => Sys2Proof.Machine.execPwrGoodRise a s
  | .pwrEnableNext => Sys2Proof.Machine.execPwrEnableNext s
  | .seqTimeout => Sys2Proof.Machine.execSeqTimeout s
  | .pwrGoodLoss a => Sys2Proof.Machine.execPwrGoodLoss a s
  | .powerDownStep => Sys2Proof.Machine.execPowerDownStep s
  | .sysRstNAssert a => Sys2Proof.Machine.execSysRstNAssert a s
  | .perstNAssert a => Sys2Proof.Machine.execPerstNAssert a s
  | .pcieHotReset a => Sys2Proof.Machine.execPcieHotReset a s
  | .devRst a => Sys2Proof.Machine.execDevRst a s
  | .resetRelease => Sys2Proof.Machine.execResetRelease s
  | .tapReset => Sys2Proof.Machine.execTapReset s
  | .halfRun a => Sys2Proof.Machine.execHalfRun a s
  | .profileSelect a => Sys2Proof.Machine.execProfileSelect a s
  | .pwrLimitWrite a => Sys2Proof.Machine.execPwrLimitWrite a s
  | .sscEnWrite a => Sys2Proof.Machine.execSscEnWrite a s
  | .standbyEntry a => Sys2Proof.Machine.execStandbyEntry a s
  | .standbyExit a => Sys2Proof.Machine.execStandbyExit a s
  | .pstateDone => Sys2Proof.Machine.execPstateDone s
  | .thmCtrlWrite a => Sys2Proof.Machine.execThmCtrlWrite a s
  | .pmuFaultRead => Sys2Proof.Machine.execPmuFaultRead s
  | .pmuFaultClear a => Sys2Proof.Machine.execPmuFaultClear a s
  | .restart => Sys2Proof.Machine.execRestart s
  | .avsVoltageCommand a b => Sys2Proof.Machine.execAvsVoltageCommand a b s
  | .trcMark a => Sys2Proof.Machine.execTrcMark a s
  | .traceBudgetWindow a => Sys2Proof.Machine.execTraceBudgetWindow a s
  | .traceTimeRecord => Sys2Proof.Machine.execTraceTimeRecord s
  | .eclipseGo a => Sys2Proof.Machine.execEclipseGo a s
  | .eclipseTimeTrigger => Sys2Proof.Machine.execEclipseTimeTrigger s
  | .eclipseNFall => Sys2Proof.Machine.execEclipseNFall s
  | .eclipseResume a => Sys2Proof.Machine.execEclipseResume a s
  | .eclipseScan a => Sys2Proof.Machine.execEclipseScan a s
  | .scanComplete => Sys2Proof.Machine.execScanComplete s
  | .extest => Sys2Proof.Machine.execExtest s
  | .samplePreload => Sys2Proof.Machine.execSamplePreload s
  | .idcode => Sys2Proof.Machine.execIdcode s
  | .secNonce => Sys2Proof.Machine.execSecNonce s
  | .secToken a b => Sys2Proof.Machine.execSecToken a b s
  | .eclCtrl a => Sys2Proof.Machine.execEclCtrl a s
  | .memAccess a b c => Sys2Proof.Machine.execMemAccess a b c s
  | .eclScan => Sys2Proof.Machine.execEclScan s
  | .wrapSel a => Sys2Proof.Machine.execWrapSel a s
  | .wrapWir a => Sys2Proof.Machine.execWrapWir a s
  | .wrapWdr a => Sys2Proof.Machine.execWrapWdr a s
  | .bypass => Sys2Proof.Machine.execBypass s
  | .refInEdge => Sys2Proof.Machine.execRefInEdge s
  | .ucieFlitReceive a b => Sys2Proof.Machine.execUcieFlitReceive a b s
  | .fcsError a b => Sys2Proof.Machine.execFcsError a b s
  | .caParityError a => Sys2Proof.Machine.execCaParityError a s
  | .routeInvDone => Sys2Proof.Machine.execRouteInvDone s
  | .pwrGoodAuxLoss => Sys2Proof.Machine.execPwrGoodAuxLoss s
  | .sysRefclkLoss => Sys2Proof.Machine.execSysRefclkLoss s

end Sys2Proof.Machine
end

