-- ==== Sys2Proof/Machine/Tick.lean ====
section
/-! DEFINITION. The idle step: one ACLK cycle in which no command takes effect (R36, R39, R105, R270, R541). -/

namespace Sys2Proof.Machine

/-- The ACLK counters advance by one cycle. Half B's edges lag half A's by what the start event fixed (R39): with a lag its
counter, as a step sees it, stays one behind. DESIGN CHOICE (log 10): every step sees the counters at one phase of the cycle. -/
def Dev.aclkTick (d : Dev) : Dev := { d with aclkA := d.aclkA + 1, aclkB := if d.lagB then d.aclkA else d.aclkA + 1 }

/-- TCLK makes one cycle in five of ACLK (R36), at which station time advances (R270). -/
def Dev.tclkTick (d : Dev) : Dev :=
  if d.fts.tclk + 1 < 5 then d.modFts (fun f => { f with tclk := f.tclk + 1 })
  else (d.modFts (fun f => { f with tclk := 0 })).timeTick

/-- The ramps and the idle time of the cores that are clocked go on by one cycle, and so does the time since the last ramp
start of each half (R105 to R107, R541). -/
def Dev.rampTicks (d : Dev) : Dev :=
  let d := (List.range 8).foldl (fun d c => if d.coreLive c then d.rampTick c else d) d
  (List.range 2).foldl (fun d h => if d.unitLive h then d.modHalf h (fun x => { x with rampGap := min 256 (x.rampGap + 1) }) else d) d

/-- An ACLK cycle. Nothing counts while the device is held in reset; in standby ACLK stands still (R526). -/
def Dev.cycle (d : Dev) : Dev :=
  if !d.up then d
  else if d.pstate = 2 then d.tclkTick
  else ((d.aclkTick.tclkTick.rampTicks).drainIngress).drainCtl

/-- What a step does when no command waits (log 10). -/
def tick (s : State) : State := { s with dev := Dev.cycle { s.dev with out := [] } }

end Sys2Proof.Machine
end

