-- ==== Sys2Proof/Safety.lean ====
section
/-! DEFINITION. The terms in which claims speak: the machine as a command finds it, what a step must never undo, how a task's
command issues and ends, and operands that its accesses reach without a walk. -/

namespace Sys2Proof.Machine

/-- The machine as a command finds it: what the last step drove out of the package is gone. -/
def State.quiet (s : State) : Dev := { s.dev with out := [] }

/-- The state with another machine, and the same queue and fuses. -/
def State.after (s : State) (d : Dev) : State := { s with dev := d }

/-- Fuses blow and never mend (R484, R492, R493): the anti-rollback count never falls and stays within its 64 bits, an owner
hash that is not all zero stays, and no command touches another fuse. -/
def Fuses.onlyBlown (old new : Fuses) : Prop :=
  new.uds = old.uds ∧ new.serial = old.serial ∧ new.rootHash = old.rootHash ∧ new.revoke = old.revoke
    ∧ new.dbgHash = old.dbgHash ∧ new.subsys = old.subsys ∧ old.arb ≤ new.arb ∧ new.arb ≤ 64
    ∧ (unblown old.ownerDbg = false → new.ownerDbg = old.ownerDbg)
    ∧ (unblown old.ownerRoot = false → new.ownerRoot = old.ownerRoot)

/-- A task's context as its command finds it. -/
def Dev.issuable (d : Dev) (c x : Nat) (t : Ctx) : Prop :=
  d.ctx? c x = some t ∧ d.mayIssue c x t = true ∧ d.unitReady c t = true

/-- The machine with the task's command issued: RUNNING, with its tag and a trace record (R250, R264, R544). -/
def Dev.issued (d : Dev) (c x : Nat) (t : Ctx) : Dev :=
  (d.setCtx c x { t with state := .running, opDone := false, tag := t.cur.w0.field 31 16 }).traceCmd c x 0x02 t
    (BitVec.ofNat 64 (t.tseq + t.seq * 2 ^ 32))

/-- A task's command with its result: the region table is loaded first (R210). -/
def runCmd {α : Type} (d : Dev) (c x : Nat) (t : Ctx) (act : Who → Desc → M α) : Except Stop α × Run :=
  ((do loadRegions (d.whoOf c x) t.cur; act (d.whoOf c x) t.cur : M α).run).run (Run.start (d.issued c x t))

/-- A task's command has done its work, with a status and an event record; its writes to the register window are performed. -/
def Dev.cmdEnded (d : Dev) (c x : Nat) (w : Who) (status : Nat) (ev : W64) : Dev :=
  (d.modCtx c x (fun k => k.cmdEnd status ev)).drainTask w

/-- The machine that a command leaves which has run whole and without a fault. -/
def Dev.finished {α : Type} (d : Dev) (c x : Nat) (t : Ctx) (act : Who → Desc → M α) : Dev :=
  (runCmd d c x t act).2.dev.cmdEnded c x (d.whoOf c x) 0 (runCmd d c x t act).2.event

/-- The machine that a command leaves which must wait for the outside: its task stays RUNNING. -/
def Dev.underway {α : Type} (d : Dev) (c x : Nat) (t : Ctx) (act : Who → Desc → M α) : Dev :=
  ((runCmd d c x t act).2.dev.modCtx c x
    (fun k => { k with event := if k.event = 0 then (runCmd d c x t act).2.event else k.event })).drainTask (d.whoOf c x)

/-! ### Operands at hand -/

/-- The words of the page table that map an address, and those that walks have read for its page (R203, R207). -/
def Dev.tableReads (d : Dev) (va : Nat) : List Nat :=
  let a1 := entryAddr1 (d.reg pgSys 0x400) va
  let a2 := entryAddr2 (d.word a1) va
  [a1, a2] ++ (if (d.word a2).bit 4 then [] else [entryAddr3 (d.word a2) va])
    ++ ((KV.find? d.ptSeen (va / 2 ^ 16 % 2 ^ 32)).getD []).map (fun r => r.1)

/-- The address belongs to some core's near store (R27). -/
def nearAddr (a : Nat) : Prop := 0x100000000000 ≤ a ∧ a < 0x100020000000

/-- Page p of virtual memory is frame f of the near store of the task's core: the core's TLB holds the translation, with reads
and writes allowed, and the page table, which lies outside the near stores, gives the same (R203 to R207). -/
structure Dev.NearPage (d : Dev) (w : Who) (p f : Nat) : Prop where
  on     : d.regb pgSys 0x400 63 = true
  held   : KV.find? d.tlbs (tlbKey w.core (p * 65536)) = some { frame := f, read := true, write := true, secure := false }
  walk   : d.walk (p * 65536) = .ok { frame := f, read := true, write := true, secure := false }
  fresh  : d.seenStale (p * 65536) = false
  tables : ∀ a ∈ d.tableReads (p * 65536), a + 8 ≤ 0x100000000000 ∨ 0x100020000000 ≤ a
  low    : nearBase w.core ≤ f * 65536
  high   : f * 65536 + 65536 ≤ nearBase w.core + 0x4000000

/-- Every page of a range of virtual memory is a page of the core's near store. -/
def Dev.Near (d : Dev) (w : Who) (va n : Nat) : Prop :=
  ∀ p, va / 65536 ≤ p → p * 65536 < va + n → ∃ f, d.NearPage w p f

/-- A task that is not speculative, of a queue that exists (R243), on a core with no wrapper instruction and no poisoned word in
its near store. -/
structure Dev.Plain (d : Dev) (w : Who) : Prop where
  queue   : d.queueOf w < 65536
  present : d.corePresent w.core = true
  whole   : d.tap.undef.contains w.core = false
  direct  : w.phys = false
  here    : w.remote = false
  actual  : d.specOf w = none
  sound   : ∀ l ∈ d.poison, l * 64 + 64 ≤ nearBase w.core ∨ nearBase w.core + 0x4000000 ≤ l * 64

/-- A plain task's command of an opcode may issue, and loads no regions. -/
structure Dev.plainIssue (d : Dev) (c x : Nat) (t : Ctx) (opc : Nat) : Prop where
  issue  : d.issuable c x t
  opcode : t.cur.opc = opc
  plain  : (d.issued c x t).Plain (d.whoOf c x)
  noRegs : t.cur.w0.bit 9 = false

/-- A byte of virtual memory as the page table maps it now. -/
def Dev.vbyte (d : Dev) (va : Nat) : Byte :=
  match d.physOf va with
  | some pa => d.byte pa
  | none => 0

def Dev.vbytes (d : Dev) (va n : Nat) : List Byte := (List.range n).map (fun i => d.vbyte (va + i))

/-- 64-bit words of virtual memory. -/
def Dev.vwords (d : Dev) (va n : Nat) : List W64 :=
  (List.range n).map (fun i => BitVec.ofNat 64 (leNat (((d.vbytes va (8 * n)).drop (8 * i)).take 8)))

/-- The unsteered tensor of a descriptor's words, where they pass every check (R157 to R176, R195). -/
def Dev.tensorOf (d : Dev) (va : Nat) (role : Role) (ws : List W64) : Option Tensor :=
  if va % 64 = 0 ∧ d.namesKept va 256 role.table = false ∧ (wd ws 2).field 47 0 = 0 then
    match descHead d role ws with
    | none => none
    | some (layout, dims) =>
      let t := descTensor va ws layout dims none
      if t.accepted d role then some t else none
  else none

/-- The unsteered tensor whose descriptor lies at an address. -/
def Dev.tensorAt (d : Dev) (va : Nat) (role : Role) : Option Tensor := d.tensorOf va role (d.vwords va 32)

/-- What an access to an element touches: its bytes, and its scale entry where it is valid (R160, R164). -/
def Tensor.touches (t : Tensor) (p : List Int) : List (Nat × Nat) :=
  let n := Fmt.codeWidth t.fmt
  let pl := t.place p n
  (pl.1 + pl.2 / 8, (pl.2 % 8 + n + 7) / 8)
    :: (if t.scaleKind ≠ 0 ∧ t.classOf p = .valid then [(t.scaleAddr p, scaleBytes t.scaleKind)] else [])

/-- Every stored element of an unsteered LINEAR tensor is at hand. -/
def Tensor.AtHand (t : Tensor) (d : Dev) (w : Who) : Prop :=
  t.layout = .linear ∧ t.steer = none ∧ ∀ p ∈ t.paddedPositions, ∀ r ∈ t.touches p, d.Near w r.1 r.2

/-- An operand word names this tensor, whose descriptor is at hand. -/
structure Dev.Describes (d : Dev) (w : Who) (v : W64) (role : Role) (t : Tensor) : Prop where
  word   : v.field 63 48 = 0
  desc   : d.tensorAt (v.field 47 0) role = some t
  read   : d.Near w (v.field 47 0) 256

/-- An operand word names this tensor, whose descriptor and elements are at hand. -/
structure Dev.Names (d : Dev) (w : Who) (v : W64) (role : Role) (t : Tensor) : Prop extends d.Describes w v role t where
  data   : t.AtHand d w

/-- A source of VEC: a tensor of the own core store, or the scalar where the operand word is zero (R256). -/
def Dev.SourceAt (d : Dev) (w : Who) (v : W64) : Option Tensor → Prop
  | none => v = 0
  | some t => v.field 47 0 ≠ 0 ∧ d.Names w v Role.source t ∧ t.inOwnStore d w = true

/-- The tally of a command with this destination leaves no record in memory (R116, R551). -/
def Tensor.uncounted (t : Tensor) : Prop := t.stats = 0 ∧ t.tid = 0

/-- A VEC command that the checks accept, with its operands at hand (R52, R60, R63, R103, R256). -/
structure Dev.VecReady (d : Dev) (w : Who) (k : Desc) (a b c : Option Tensor) (dst : Tensor) : Prop where
  words  : vecWords k = true
  first  : d.SourceAt w k.w1 a
  second : d.SourceAt w k.w2 b
  third  : d.SourceAt w k.w3 c
  dest   : d.Names w k.w4 Role.destination dst
  own    : dst.inOwnStore d w = true
  plain  : dst.uncounted
  agree  : (vecArgs k a b c dst).accepted d w = true

/-- The coordinates of entry e of a list (R187). -/
def Dev.listCoords (d : Dev) (x : XferArgs) (e : Nat) : List Int :=
  (List.range 4).map (fun i => signedOf 32 (leNat (d.vbytes (x.list + 16 * e + 4 * i) 4)))

/-- A list is at hand, and none of its entries ends the command (R187, R191). -/
def Dev.ListReady (d : Dev) (w : Who) (x : XferArgs) : Prop :=
  d.Near w x.list (16 * x.listN)
    ∧ ∀ e, e < x.listN → ∀ i above, entryOf (gridOf (if x.mode = 2 then x.src else x.dst) x.blk) x.range (d.listCoords x e) ≠ .bad i above

/-- A local XFER between LINEAR tensors that the checks accept, with its operands at hand (R176, R183 to R191). -/
structure Dev.XferReady (d : Dev) (w : Who) (k : Desc) (src dst : Tensor) : Prop where
  fields : xferFields k = true
  here   : k.w6.bit 62 = false
  source : d.Names w k.w1 (xferSource k) src
  dest   : d.Names w k.w2 (xferDest k) dst
  plain  : dst.uncounted
  words  : (xferArgs k src dst).wordsOk k = true
  halo   : k.arg 34 32 ≤ 1 → dst.padWrite = true → dst.haloDims = []
  agree  : (xferArgs k src dst).accepted d w = true
  list   : 2 ≤ k.arg 34 32 → d.ListReady w (xferArgs k src dst)

/-- A page of a range does not translate. -/
def Dev.unmapped (d : Dev) (va n : Nat) : Prop := ∃ pc ∈ pageChunks va n, ∃ e, d.walk pc.1 = .error e

/-- A TILE_LOAD with its tile at hand; the plane of R592 is at hand, or there is none (R95, R592, R593). -/
structure Dev.TileReady (d : Dev) (w : Who) (k : Desc) (wt : Tensor) : Prop where
  words : k.oneWord = true
  names : d.Describes w k.w1 Role.arrayReady wt
  takes : wt.layout = .wt ∧ k.arg 35 32 ≠ 0 ∧ k.arg 43 36 < (wt.dim 0).g
  tile  : d.Near w (wt.base + k.arg 43 36 * tileBytes) tileBytes
  plane : ∀ i ∈ taking (k.arg 35 32),
    d.Near w (planePart wt (k.arg 43 36) i) 131072 ∨ d.unmapped (planePart wt (k.arg 43 36) i) 131072

/-- The destination of a STREAM, at hand where it has one (R89, R100). -/
def Dev.DestAt (d : Dev) (w : Who) (out : Nat) (v : W64) : Option Tensor → Prop
  | none => out ≠ 1 ∧ v = 0
  | some t => out = 1 ∧ d.Names w v Role.destination t ∧ t.uncounted

/-- A STREAM of the extended form with its extension at hand (R254). -/
structure Dev.StreamAt (d : Dev) (w : Who) (k : Desc) (x : StreamExt) (act wt : Tensor) (dst : Option Tensor) : Prop where
  words  : k.w5 = 0 ∧ k.w6 = 0
  word   : k.w1.field 63 48 = 0
  place  : k.w1.field 47 0 % 64 = 0 ∧ d.namesKept (k.w1.field 47 0) 128 false = false
  read   : d.Near w (k.w1.field 47 0) 128
  bits   : streamReserved (d.vwords (k.w1.field 47 0) 16) = true
  ext    : streamExtOf (d.vwords (k.w1.field 47 0) 16) = x
  source : d.Describes w k.w2 Role.arrayReady act
  weight : d.Describes w k.w3 Role.arrayReady wt
  dest   : d.DestAt w x.out k.w4 dst

/-- A MATMUL of a Shuot-1 queue, and the extension that it stands for (R262). -/
structure Dev.MatmulAt (d : Dev) (w : Who) (k : Desc) (x : StreamExt) (act wt : Tensor) (dst : Option Tensor) : Prop where
  source : d.Describes w k.w1 Role.arrayReady act
  weight : d.Describes w k.w2 Role.arrayReady wt
  dest   : d.DestAt w (k.arg 47 47) k.w3 dst
  sizes  : matmulOk act wt = true
  ext    : matmulExt k act wt = x

/-- The panel maps of a STREAM without a panel map in memory (R255). -/
def uniformMaps (x : StreamExt) : List (List (List Panel)) :=
  (List.range x.p).map (fun _ => (taking x.arrays).map (fun _ => (List.range 16).map (fun n => uniformPanel x.unifFmt n)))

/-- The tender's operands are at hand, with counts that R148 allows; no steering state is named for the excess rows. -/
structure Dev.TenderAt (d : Dev) (w : Who) (s : StreamArgs) : Prop where
  state : s.x.steerTid = 0
  wts   : d.Near w s.x.tdrW (s.x.p * 32768)
  acts  : d.Near w s.x.tdrAct ((s.x.m - 1) * s.x.tdrActStride + 2 * s.x.p * s.k)
  z     : s.x.rc ≠ 0 → d.Near w s.x.z ((s.x.m - 1) * 16 + 2 * s.x.rc)
  list  : s.x.olist ≠ 0 → d.Near w s.x.olist ((s.x.p - 1) * s.x.olistStride + 64)
    ∧ ∀ j, j < s.x.p → leNat (d.vbytes (s.x.olist + j * s.x.olistStride) 2) ≤ 31

/-- The operands of a STREAM are at hand (R78, R88, R94, R100, R146 to R153, R177 to R182, R592). -/
structure Dev.StreamData (d : Dev) (w : Who) (s : StreamArgs) : Prop where
  act    : d.Near w s.act.base (64 * s.act.actBeats)
  tiles  : d.Near w s.wt.base (s.x.p * tileBytes)
  planes : (Fmt.ofCode s.x.aFmt).any Fmt.isFloat = true →
    d.Near w s.act.actSeBase (2 * (s.act.dim 0).g * s.act.actBeats)
      ∧ d.Near w (s.wt.base + (s.wt.dim 0).g * tileBytes) ((s.wt.dim 0).g * 524288)
  scaleA : s.act.scaleKind ≠ 0 → d.Near w s.act.scaleBase s.act.scaleArrayBytes
  scaleW : s.wt.scaleKind ≠ 0 → d.Near w s.wt.scaleBase s.wt.scaleArrayBytes
  table  : s.x.chtab ≠ 0 → ∀ i n, i < 4 → n < 512 → d.Near w (s.x.chtab + 8 * (s.x.outCh.getD i 0 + n)) 8
  tender : s.x.tdrEn = true → d.TenderAt w s

/-- A STREAM with the uniform panel map that the checks accept, with its operands at hand; within the issue bound whether or not
its first tile is held (R87 to R101, R152, R182, R254, R262). -/
structure Dev.StreamReady (d : Dev) (w : Who) (k : Desc) (x : StreamExt) (act wt : Tensor) (dst : Option Tensor) : Prop where
  form   : if d.kx1 w then d.MatmulAt w k x act wt dst else d.StreamAt w k x act wt dst
  fields : x.fieldsOk act wt dst = true
  map    : x.pmap = 0
  tid    : x.steerTid = 0
  time   : x.p * max x.m 128 ≤ 65248
  agree  : (streamArgs x act wt dst (uniformMaps x)).accepted d w (uniformMaps x) = true
  data   : d.StreamData w (streamArgs x act wt dst (uniformMaps x))

/-- The words of a TABLE's extension (R339). -/
def Dev.tableWords (d : Dev) (k : Desc) : List W64 := d.vwords (k.w1.field 47 0) 8

/-- A TABLE whose tables lie in the table area. -/
def Dev.tableAt (d : Dev) (k : Desc) (src dst : Tensor) : TableArgs := tableArgs (d.tableWords k) src dst true

/-- A TABLE that the checks accept, with its tables resident and its operands at hand (R335 to R347). -/
structure Dev.TableReady (d : Dev) (w : Who) (k : Desc) (src dst : Tensor) : Prop where
  words  : k.oneWord = true
  word   : k.w1.field 63 48 = 0
  place  : k.w1.field 47 0 % 64 = 0 ∧ d.namesKept (k.w1.field 47 0) 64 true = false
  read   : d.Near w (k.w1.field 47 0) 64
  fields : tableFields d w.core (d.tableWords k) = true
  source : d.tensorAt (wd (d.tableWords k) 1).toNat { Role.source with table := true } = some src ∧ d.Near w (wd (d.tableWords k) 1).toNat 256
  dest   : d.tensorAt (wd (d.tableWords k) 3).toNat { Role.destination with table := true } = some dst
    ∧ d.Near w (wd (d.tableWords k) 3).toNat 256
  area   : d.tabResident w (d.tableAt k src dst).tab (d.tableAt k src dst).tabBytes = true
  agree  : (d.tableAt k src dst).accepted d w src.fmt = true
  input  : (d.tableAt k src dst).src.AtHand d w
  output : (d.tableAt k src dst).dst.AtHand d w
  plain  : dst.uncounted
  tables : d.Near w (d.tableAt k src dst).tab (d.tableAt k src dst).tabBytes
  scales : (d.tableAt k src dst).ascaleEn = true → d.Near w (d.tableAt k src dst).ascale (4 * (d.tableAt k src dst).m)
  chans  : (d.tableAt k src dst).chtab ≠ 0 → d.Near w (d.tableAt k src dst).chtab (8 * (d.tableAt k src dst).n)

/-- A COLL that the checks accept, with its structure at hand, and its arguments (R378 to R381, R390). -/
structure Dev.CollReady (d : Dev) (w : Who) (k : Desc) (a : CollArgs) : Prop where
  words : k.oneWord = true
  word  : k.w1.field 63 48 = 0
  place : (d.kx1 w = true ∨ k.w1.field 47 0 % 64 = 0) ∧ d.namesKept (k.w1.field 47 0) (if d.kx1 w then 32 else 64) false = false
  read  : d.Near w (k.w1.field 47 0) (if d.kx1 w then 32 else 64)
  args  : (if d.kx1 w then kx1Coll d (d.vwords (k.w1.field 47 0) 4) else collArgsOf (d.vwords (k.w1.field 47 0) 8)) = a
  bits  : d.kx1 w = true ∨ collReserved (d.vwords (k.w1.field 47 0) 8) = true
  agree : collOk d a = true

/-- The words of a UPD's structure (R320). -/
def Dev.updWords (d : Dev) (k : Desc) : List W64 := d.vwords (k.w1.field 47 0) 8

/-- The tensors of a DROPOUT, accepted and at hand (R329). -/
structure Dev.DropoutReady (d : Dev) (w : Who) (ws : List W64) (src dst : Tensor) : Prop where
  source : d.Names w (wd ws 1) Role.source src
  dest   : d.Names w (wd ws 2) Role.destination dst
  own    : src.inOwnStore d w = true ∧ dst.inOwnStore d w = true
  shape  : (src.ndim == dst.ndim && src.gs == dst.gs && src.ls == dst.ls && src.fmt != 0x08) = true
  elems  : dst.gs.foldl (· * ·) 1 < 2 ^ 48
  plain  : dst.uncounted

/-- A UPD that the checks accept, with its structure and what it reads and writes at hand (R320, R321, R325, R328, R329). -/
structure Dev.UpdReady (d : Dev) (w : Who) (k : Desc) (op : Nat) : Prop where
  words : k.oneWord = true
  word  : k.w1.field 63 48 = 0
  place : k.w1.field 47 0 % 64 = 0 ∧ d.namesKept (k.w1.field 47 0) 64 false = false
  read  : d.Near w (k.w1.field 47 0) 64
  kind  : (updArgsOf (d.updWords k) (d.queueOf w)).op = op
  agree : updOk d (d.updWords k) (updArgsOf (d.updWords k) (d.queueOf w)) false = true
  drop  : op = 4 → ∃ src dst, d.DropoutReady w (d.updWords k) src dst
  claim : op = 5 → d.Near w (updArgsOf (d.updWords k) (d.queueOf w)).result 8

/-- A UPD is complete where its body has run: an APPLY only once none of its arrivals waits for the engine (R299, R302, R317). -/
def Dev.updEnds (d : Dev) (c x : Nat) (t : Ctx) (op : Nat) (e : Dev) : Bool :=
  op != 0 || !(e.upd (updArgsOf ((d.issued c x t).updWords t.cur) ((d.issued c x t).queueOf (d.whoOf c x))).half).waiting.any
    (fun a => a.who == some (c, x))

/-- A WAIT that the checks accept, with the word that it tests at hand (R258). -/
structure Dev.WaitReady (d : Dev) (w : Who) (k : Desc) : Prop where
  words : unusedFrom k 3 = true
  cond  : k.arg 34 32 ≤ 4
  word  : k.arg 34 32 ≤ 2 → k.w1.field 63 48 = 0 ∧ k.w1.field 47 0 % 8 = 0 ∧ d.namesKept (k.w1.field 47 0) 8 false = false
    ∧ d.Near w (k.w1.field 47 0) 8

/-- The condition of a WAIT holds (R229, R258): of the word at its address, or of a watched region's generation. -/
def Dev.waitMet (d : Dev) (w : Who) (k : Desc) : Bool :=
  let v := BitVec.ofNat 64 (leNat (d.vbytes (k.w1.field 47 0) 8))
  let gen := d.regf (pgFet w.core) (0x600 + 8 * k.arg 40 35) 62 0
  match k.arg 34 32 with
  | 0 => v &&& k.w3 == k.w2
  | 1 => v &&& k.w3 != k.w2
  | 2 => decide (((v &&& k.w3) - k.w2).toNat < 2 ^ 63)
  | 3 => gen != k.w2.toNat
  | _ => decide ((gen + 2 ^ 63 - k.w2.toNat % 2 ^ 63) % 2 ^ 63 < 2 ^ 62)

end Sys2Proof.Machine
end

