-- ==== Sys2Proof/Certificates/Slice0/Obligations.lean ====
section
/-! DEFINITION. The statements for the provers. -/

open Sys2Proof Sys2Proof.Machine

/-- The command at the front of the queue runs with the queue's rest, and with no command waiting one ACLK cycle passes. -/
def Obligations.StepRunsFrontCommand : Prop :=
  (∀ (s : State) (c : Instr) (rest : List Instr), s.pending = c :: rest → step s = exec c { s with pending := rest })
    ∧ (∀ s : State, s.pending = [] → step s = .next (tick s))

/-- A step takes the command at the front of the queue and touches no other (the queue is the model's; R1 gives the device no
queue). -/
def Obligations.QueueIsFirstInFirstOut : Prop :=
  ∀ s t : State, step s = .next t → t.pending = s.pending.tail

/-- Every step answers a next state, but one whose command is SYS_REFCLK_LOSS while the SYS group is on (R580). SYS_REFCLK_LOSS
changes nothing while the SYS group is off, and stops the machine while it is on (R580). -/
def Obligations.StepsStopOnlyOnRefclkLoss : Prop :=
  (∀ s : State, (∃ t, step s = .next t)
      ∨ (∃ rest, s.pending = .sysRefclkLoss :: rest ∧ s.dev.power.aux = true ∧ s.dev.enableOf 0 = true
          ∧ step s = .fault .refclkUndefined))
  ∧ (∀ s : State,
      ((s.dev.power.aux && s.dev.enableOf 0) = true → exec .sysRefclkLoss s = .fault .refclkUndefined)
      ∧ ((s.dev.power.aux && s.dev.enableOf 0) = false → exec .sysRefclkLoss s = .next (s.after s.quiet)))

/-- Fuses blow and never mend: from any blown state on, every step keeps what is blown (R484, R492, R493). -/
def Obligations.FusesNeverMend : Prop :=
  ∀ (f : Fuses) (s t : State), Fuses.onlyBlown f s.fuses → step s = .next t → Fuses.onlyBlown f t.fuses

/-- The fuses at reset are blown from none. What the first reset release leaves: no command waits, no memory is listed, nothing
is poisoned, both halves are held in reset, PMU_RST_CAUSE reads 1, every queue is disabled, the DRAM of neither half is READY
and the TAP holds IDCODE. Every register word that is not listed reads its reset value, EN of BLK_CTRL is 1 but on the UPD
pages, and SECURE_ONLY is 1 on SEC and MBX1 alone (R15, R466, R469). -/
def Obligations.ResetState : Prop :=
  (Fuses.onlyBlown Fuses.standard State.reset.fuses)
  ∧ (State.reset.pending = [] ∧ State.reset.dev.mem = [] ∧ State.reset.dev.poison = []
      ∧ State.reset.dev.up = true ∧ State.reset.dev.running 0 = false ∧ State.reset.dev.running 1 = false
      ∧ State.reset.dev.reg pgPmu 0x128 = 1 ∧ State.reset.dev.reg pgPmu 0x110 = 0
      ∧ (∀ q, State.reset.dev.queue? q = none) ∧ State.reset.dev.dramReady 0 = false ∧ State.reset.dev.dramReady 1 = false
      ∧ State.reset.dev.tap.ir = 0x02 ∧ State.reset.dev.aclkA = 0 ∧ State.reset.dev.aclkB = 0)
  ∧ ((∀ page off, State.reset.dev.reg page off = regReset page off)
      ∧ (∀ (b : Blk) (i : Nat), pageBlk (b.page i) = some (b, i) →
          (State.reset.dev.regb (b.page i) 0x010 0 = decide (b ≠ .upd))
          ∧ (State.reset.dev.regb (b.page i) 0x010 3 = decide (b = .sec ∨ (b = .mbx ∧ i = 1)))))

/-- The clocks of an idle step: half A's ACLK counter advances by one, half B's reads the same or one less as the start event has
fixed, and station time moves by FTS_INC in every fifth cycle (the idle step is the model's choice, log 10; the counters are R39's;
half B's lag is a free value, log 10). -/
def Obligations.IdleCycleCounts : Prop :=
  ∀ d : Dev, d.aclkTick.aclkA = d.aclkA + 1 ∧ d.aclkTick.aclkB = (if d.lagB then d.aclkA else d.aclkA + 1) ∧ d.aclkTick.lagB = d.lagB
    ∧ (d.fts.tclk + 1 < 5 → d.tclkTick.reg pgFts 0x118 = d.reg pgFts 0x118)
    ∧ (¬ d.fts.tclk + 1 < 5 → d.tclkTick.fts.tclk = 0
        ∧ d.tclkTick.reg pgFts 0x118 = BitVec.ofNat 64 (d.ftsTime + (d.fts.frac + d.regf pgFts 0x120 39 0) / 2 ^ 32))

/-- The rows of the vector unit with their VOP (R256). -/
def vecRows : List ((Nat → Nat → Instr) × Nat) :=
  [(.vecFma, 0x00), (.vecAdd, 0x01), (.vecMul, 0x02), (.vecMax, 0x03), (.vecMin, 0x04), (.vecConv, 0x05), (.vecRsum, 0x06),
   (.vecRmax, 0x07), (.vecRmin, 0x08), (.vecRsumsq, 0x09), (.vecRecip, 0x0A), (.vecRsqrt, 0x0B), (.vecExp, 0x0C), (.vecLog, 0x0D),
   (.vecTanh, 0x0E), (.vecSigmoid, 0x0F)]

/-- A VEC command whose operands validate, translate and read completes: its effect is that of the vector unit's operation, and
its task's command is complete with status OK (R103, R104, R256). An element-wise operation on FP32 patterns, and the pairwise
tree of a reduction of at most 1,024 elements (R103, R104). A VEC of a plain task that passes the checks, with its descriptors and
elements in pages of the core store, always runs so. -/
def Obligations.VecCommands : Prop :=
  (∀ r ∈ vecRows, ∀ (s : State) (c x : Nat) (t : Ctx), s.quiet.issuable c x t → t.cur.opc = 3 → t.cur.arg 39 32 = r.2 →
      (runCmd s.quiet c x t vecCmd).1 = .ok () →
      exec (r.1 c x) s = .next (s.after (s.quiet.finished c x t vecCmd)))
  ∧ ((∀ a b c : Nat, vecApply 0x00 a b c = ffma a b c ∧ vecApply 0x01 a b c = fadd a b ∧ vecApply 0x02 a b c = fmul a b
      ∧ vecApply 0x03 a b c = fmax a b ∧ vecApply 0x04 a b c = fmin a b)
    ∧ (∀ (f : Nat → Nat → Nat) (a b c d : Nat), reduce f [] = none ∧ reduce f [a] = some a ∧ reduce f [a, b] = some (f a b)
        ∧ reduce f [a, b, c] = some (f (f a b) c) ∧ reduce f [a, b, c, d] = some (f (f a b) (f c d))))
  ∧ (∀ r ∈ vecRows, ∀ (s : State) (c x : Nat) (t : Ctx) (s1 s2 s3 : Option Tensor) (dst : Tensor), s.quiet.plainIssue c x t 3 →
      t.cur.arg 39 32 = r.2 → (s.quiet.issued c x t).VecReady (s.quiet.whoOf c x) t.cur s1 s2 s3 dst →
      (runCmd s.quiet c x t vecCmd).1 = .ok () ∧ exec (r.1 c x) s = .next (s.after (s.quiet.finished c x t vecCmd)))

/-- The rows of XFER with their MODE (R183, R253). -/
def xferRows : List ((Nat → Nat → Instr) × Nat) :=
  [(.xferCopy, 0), (.xferRelayout, 1), (.xferGather, 2), (.xferScatter, 3), (.xferScatterAdd, 4)]

/-- An XFER whose operands validate, translate and read: a local one completes with the effect of its mode; one to a fabric
peer, of a non-speculative task, completes or stays RUNNING until its frames are acknowledged (R183 to R192, R377). A local XFER of
a plain task between LINEAR tensors that pass the checks, with its operands in pages of the core store, always completes. -/
def Obligations.XferCompletes : Prop :=
  (∀ r ∈ xferRows, ∀ (s : State) (c x : Nat) (t : Ctx), s.quiet.issuable c x t → t.cur.opc = 5 → t.cur.arg 34 32 = r.2 →
    ((runCmd s.quiet c x t (fun w k => do return (← parseXfer w k).remote)).1 = .ok false →
      (runCmd s.quiet c x t (fun w k => do xferLocal w (← parseXfer w k))).1 = .ok () →
      exec (r.1 c x) s = .next (s.after (s.quiet.finished c x t (fun w k => do xferLocal w (← parseXfer w k)))))
    ∧ ((runCmd s.quiet c x t (fun w k => do
          let a ← parseXfer w k
          return (a.remote, ((← getDev).specOf w).isSome))).1 = .ok (true, false) →
      ((runCmd s.quiet c x t (fun w k => do xferRemote w (← parseXfer w k))).1 = .ok true →
        exec (r.1 c x) s = .next (s.after (s.quiet.finished c x t (fun w k => do xferRemote w (← parseXfer w k)))))
      ∧ ((runCmd s.quiet c x t (fun w k => do xferRemote w (← parseXfer w k))).1 = .ok false →
        exec (r.1 c x) s = .next (s.after (s.quiet.underway c x t (fun w k => do xferRemote w (← parseXfer w k)))))))
  ∧ (∀ r ∈ xferRows, ∀ (s : State) (c x : Nat) (t : Ctx) (src dst : Tensor), s.quiet.plainIssue c x t 5 → t.cur.arg 34 32 = r.2 →
      (s.quiet.issued c x t).XferReady (s.quiet.whoOf c x) t.cur src dst →
      (runCmd s.quiet c x t (fun w k => do xferLocal w (← parseXfer w k))).1 = .ok ()
      ∧ exec (r.1 c x) s = .next (s.after (s.quiet.finished c x t (fun w k => do xferLocal w (← parseXfer w k)))))

/-- TILE_LOAD, STREAM and TABLE whose operands validate, translate and read complete with the effect of their unit; a TABLE may
have tiles left, and its task then stays RUNNING (R89, R95, R343). Of a plain task whose operands pass the checks and lie in pages
of the core store, TILE_LOAD and STREAM always complete, and a TABLE always runs to its end or to a tile boundary. -/
def Obligations.UnitCommandsComplete : Prop :=
  (∀ (s : State) (c x : Nat) (t : Ctx), s.quiet.issuable c x t → t.cur.opc = 1 →
    (runCmd s.quiet c x t (fun w k => do tileLoadBody w (← parseTileLoad w k))).1 = .ok () →
    exec (.tileLoad c x) s = .next (s.after (s.quiet.finished c x t (fun w k => do tileLoadBody w (← parseTileLoad w k)))))
  ∧ (∀ (s : State) (c x : Nat) (t : Ctx), s.quiet.issuable c x t → t.cur.opc = 2 →
    (runCmd s.quiet c x t (fun w k => do streamBody w (← parseStreamCmd w k))).1 = .ok () →
    exec (.stream c x) s = .next (s.after (s.quiet.finished c x t (fun w k => do streamBody w (← parseStreamCmd w k)))))
  ∧ (∀ (s : State) (c x : Nat) (t : Ctx), s.quiet.issuable c x t → t.cur.opc = 4 →
    ((runCmd s.quiet c x t (fun w k => do tableBody w (← parseTable w k))).1 = .ok true →
      exec (.table c x) s = .next (s.after (s.quiet.finished c x t (fun w k => do tableBody w (← parseTable w k)))))
    ∧ ((runCmd s.quiet c x t (fun w k => do tableBody w (← parseTable w k))).1 = .ok false →
      exec (.table c x) s = .next (s.after (s.quiet.underway c x t (fun w k => do tableBody w (← parseTable w k))))))
  ∧ (∀ (s : State) (c x : Nat) (t : Ctx) (wt : Tensor), s.quiet.plainIssue c x t 1 →
    (s.quiet.issued c x t).TileReady (s.quiet.whoOf c x) t.cur wt →
    (runCmd s.quiet c x t (fun w k => do tileLoadBody w (← parseTileLoad w k))).1 = .ok ()
    ∧ exec (.tileLoad c x) s = .next (s.after (s.quiet.finished c x t (fun w k => do tileLoadBody w (← parseTileLoad w k)))))
  ∧ (∀ (s : State) (c x : Nat) (t : Ctx) (e : StreamExt) (act wt : Tensor) (dst : Option Tensor), s.quiet.plainIssue c x t 2 →
    (s.quiet.issued c x t).StreamReady (s.quiet.whoOf c x) t.cur e act wt dst →
    (runCmd s.quiet c x t (fun w k => do streamBody w (← parseStreamCmd w k))).1 = .ok ()
    ∧ exec (.stream c x) s = .next (s.after (s.quiet.finished c x t (fun w k => do streamBody w (← parseStreamCmd w k)))))
  ∧ (∀ (s : State) (c x : Nat) (t : Ctx) (src dst : Tensor), s.quiet.plainIssue c x t 4 →
    (s.quiet.issued c x t).TableReady (s.quiet.whoOf c x) t.cur src dst →
    ∃ b, (runCmd s.quiet c x t (fun w k => do tableBody w (← parseTable w k))).1 = .ok b
      ∧ exec (.table c x) s = .next (s.after (if b then s.quiet.finished c x t (fun w k => do tableBody w (← parseTable w k))
          else s.quiet.underway c x t (fun w k => do tableBody w (← parseTable w k)))))

/-- A FENCE finds nothing that its scope must wait for: of scope SYSTEM, no frame of its task to a peer is unacknowledged, and no
arrival of its task waits (R222). -/
def fenceFree (d : Dev) (c x : Nat) (t : Ctx) : Prop :=
  t.cur.arg 33 32 ≠ 3 ∨ (d.netQuiet c x = true ∧ d.arrivalsIn c x = true)

/-- NOP does nothing and completes (R253). Outside speculation FENCE and NOP leave memory as it was: every address reads as
before, when no write to the register window is outstanding (R222, R253). FENCE completes and discards every run-ahead
copy of its task; with scope SYSTEM it waits while frames that the task's commit has released are not acknowledged (R215, R222). -/
def Obligations.SyncCommands : Prop :=
  (∀ (s : State) (c x : Nat) (t : Ctx), s.quiet.issuable c x t → t.cur.opc = 0 → t.cur.w0.bit 9 = false →
      exec (.nop c x) s = .next (s.after ((s.quiet.issued c x t).cmdEnded c x (s.quiet.whoOf c x) 0 0)))
  ∧ (∀ (s : State) (c x : Nat) (t : Ctx), s.quiet.issuable c x t → t.cur.w0.bit 9 = false → t.spec = none → s.dev.bus = [] →
      (t.cur.opc = 0 → ∃ u, exec (.nop c x) s = .next u ∧ u.fuses = s.fuses ∧ u.pending = s.pending
          ∧ (∀ a, u.dev.byte a = s.dev.byte a) ∧ (∀ y, y ≠ x → u.dev.ctx? c y = s.dev.ctx? c y))
      ∧ (t.cur.opc = 8 → fenceFree s.quiet c x t → ∃ u, exec (.fence c x) s = .next u ∧ u.fuses = s.fuses ∧ u.pending = s.pending
          ∧ (∀ a, u.dev.byte a = s.dev.byte a) ∧ (∀ y, y ≠ x → u.dev.ctx? c y = s.dev.ctx? c y)))
  ∧ (∀ (s : State) (c x : Nat) (t : Ctx), s.quiet.issuable c x t → t.cur.opc = 8 → t.cur.w0.bit 9 = false → s.dev.bus = [] →
      (fenceFree s.quiet c x t → t.waitsRoom = false →
        ∃ u, exec (.fence c x) s = .next u
          ∧ u.dev.ctx? c x = some { t with state := .running, opDone := true, tag := t.cur.w0.field 31 16 }
          ∧ (u.dev.core c).ra = (s.dev.core c).ra.filter (fun r => r.ctx != x))
      ∧ (¬ fenceFree s.quiet c x t →
        exec (.fence c x) s = .next (s.after (s.quiet.setCtx c x { t with state := .waiting, waitFor := .fence }))))

/-- The release position and the deadline that TIME gives (R283): frames from zero, or offsets from the bound frame or the
follower's frame when the command was validated; each operand only where its enable bit is set. -/
def timeSets (d : Dev) (t : Ctx) : Ctx :=
  let base := t.bound.getD t.frameAt
  let rel := t.cur.w0.bit 35
  { t with
    state := .running, opDone := true, tag := t.cur.w0.field 31 16
    release := if t.cur.w0.bit 32 then some (d.posOf (timeFrame base rel t.cur.w1) (t.cur.w1.field 61 48)) else t.release
    deadline := if t.cur.w0.bit 33 then
        some { frame := timeFrame base rel t.cur.w2, line := t.cur.w2.field 61 48, abort := t.cur.w0.bit 34, seen := false }
      else t.deadline }

/-- TIME sets its task's release position and deadline (R283). -/
def Obligations.TimeCompletes : Prop :=
  ∀ (s : State) (c x : Nat) (t : Ctx), s.quiet.issuable c x t → t.cur.opc = 11 → t.cur.w0.bit 9 = false → s.dev.bus = [] →
    t.waitsRoom = false → timePlace t = true → t.cur.w3 = 0 → t.cur.w4 = 0 → t.cur.w5 = 0 → t.cur.w6 = 0 →
    ∃ u, exec (.time c x) s = .next u ∧ u.dev.ctx? c x = some (timeSets s.dev t)

/-- SIGNAL with SOP 0 in a non-speculative task: where its address translates to a word of a carve-out, or to one of DRAM whose
line is in order and no entry of a queue table, it completes, the eight bytes there read as the value's bytes, lowest first, and
every other byte reads as before; at a near store or system-die SRAM it writes nothing and ends BUS_ERROR (R14, R200, R257). -/
def Obligations.SignalStores : Prop :=
  ∀ (s : State) (c x : Nat) (t : Ctx) (r : Dev) (pa : Nat), s.quiet.issuable c x t → t.cur.opc = 9 → t.cur.w0.bit 9 = false →
    t.spec = none → s.dev.bus = [] → t.cur.arg 35 34 = 0 → fenceFree s.quiet c x t → unusedFrom t.cur 2 = true →
    t.cur.w1.field 63 48 = 0 → t.cur.w1.field 47 0 % 8 = 0 → (s.quiet.issued c x t).namesKept (t.cur.w1.field 47 0) 8 false = false →
    ((s.quiet.issued c x t).dropTaskCopies c x).translate c (t.cur.w1.field 47 0) true (s.quiet.whoOf c x).secure = (r, .ok pa) →
    r.reachesFrom (c / 4) pa = true → pa % 8 = 0 →
    (((∃ h o, r.space pa = .carve h o)
        ∨ ∃ h o, r.space pa = .dram h o ∧ r.chanOffline (r.channelOf h (pa / 64 * 64 % 2 ^ 40)).1 = false
            ∧ r.lineErrors (r.channelOf h (pa / 64 * 64 % 2 ^ 40)).1 (r.channelOf h (pa / 64 * 64 % 2 ^ 40)).2 = []
            ∧ r.linePinned h (pa / 64) = false) →
      ∃ u, exec (.signal c x) s = .next u
        ∧ (∀ i, i < 8 → u.dev.byte (pa + i) = BitVec.ofNat 8 (t.cur.w2.toNat / 256 ^ i))
        ∧ (∀ a, (a < pa ∨ pa + 8 ≤ a) → u.dev.byte a = r.byte a)
        ∧ (u.dev.ctx? c x).map (fun k => (k.opDone, k.status)) = some (true, t.status))
    ∧ ((r.space pa = .sram ∨ ∃ k o, r.space pa = .near k o) →
      ∃ u, exec (.signal c x) s = .next u ∧ (∀ a, u.dev.byte a = r.byte a)
        ∧ (u.dev.ctx? c x).map (fun k => (k.opDone, k.status)) = some (true, if t.status = 0 then 8 else t.status))

/-- WAIT whose condition holds at issue completes; one whose condition does not hold waits (R258). WAIT_POLL of a waiting task
whose condition now holds makes its command complete and the task READY (R258, R264). Of a plain task whose WAIT passes the checks,
with its word in a page of the core store, the condition of the word or of the generation decides. -/
def Obligations.WaitConditions : Prop :=
  (∀ (s : State) (c x : Nat) (t : Ctx), s.quiet.issuable c x t → t.cur.opc = 10 →
      ((runCmd s.quiet c x t waitTest).1 = .ok true → exec (.wait c x) s = .next (s.after (s.quiet.finished c x t waitTest)))
      ∧ ((runCmd s.quiet c x t waitTest).1 = .ok false → exec (.wait c x) s = .next (s.after (s.quiet.underway c x t waitTest))))
  ∧ (∀ (s : State) (c x : Nat) (t : Ctx), s.quiet.ctx? c x = some t → s.quiet.coreLive c = true → s.quiet.regb (pgDsp c) 0x010 2 = false →
      t.state = .waiting → t.waitFor = .condition →
      (((waitTest (s.quiet.whoOf c x) t.cur).run).run (Run.start s.quiet)).1 = .ok true →
      exec (.waitPoll c x) s = .next (s.after
        ((((waitTest (s.quiet.whoOf c x) t.cur).run).run (Run.start s.quiet)).2.dev.modCtx c x
          (fun k => { k.cmdEnd 0 0 with state := .ready, waitFor := .none }))))
  ∧ (∀ (s : State) (c x : Nat) (t : Ctx), s.quiet.plainIssue c x t 10 → (s.quiet.issued c x t).WaitReady (s.quiet.whoOf c x) t.cur →
      exec (.wait c x) s = .next (s.after (if (s.quiet.issued c x t).waitMet (s.quiet.whoOf c x) t.cur
        then s.quiet.finished c x t waitTest else s.quiet.underway c x t waitTest)))
  ∧ (∀ (s : State) (c x : Nat) (t : Ctx), s.quiet.ctx? c x = some t → s.quiet.coreLive c = true → s.quiet.regb (pgDsp c) 0x010 2 = false →
      t.state = .waiting → t.waitFor = .condition → s.quiet.Plain (s.quiet.whoOf c x) → s.quiet.WaitReady (s.quiet.whoOf c x) t.cur →
      exec (.waitPoll c x) s = .next (s.after
        (let d := (((waitTest (s.quiet.whoOf c x) t.cur).run).run (Run.start s.quiet)).2.dev
         if s.quiet.waitMet (s.quiet.whoOf c x) t.cur
         then d.modCtx c x (fun k => { k.cmdEnd 0 0 with state := .ready, waitFor := .none }) else d)))

/-- SPEC_BEGIN makes its task speculative: it records every generation, names the decision word, and holds nothing yet (R225). As a
task's first command, with a decision word and a shadow area that lie as they must and fewer than 64 tasks speculating on its core,
it always does so (R225, R228).
SPEC_ABORT discards its speculative task: shadow lines and held actions are dropped, the command is complete with status
DISCARDED and the reason is SPEC_ABORT (R231). -/
def Obligations.SpeculationBegins : Prop :=
  (∀ (s : State) (c x : Nat) (t : Ctx), s.quiet.issuable c x t → t.cur.opc = 12 → t.cur.w0.bit 9 = false → s.dev.bus = [] →
      (runCmd s.quiet c x t specBeginAct).1 = .ok () →
      exec (.specBegin c x) s = .next (s.after (s.quiet.finished c x t specBeginAct))
      ∧ ((s.quiet.finished c x t specBeginAct).ctx? c x).bind (fun k => k.spec) =
          some { decision := t.cur.w1.field 47 0, gens := (List.range 64).map (fun i => (s.dev.reg (pgFet c) (0x600 + 8 * i)).toNat),
                 readSet := [], shadow := [], excess := [], late := none, heldActs := [], state := .running, atCommand := false })
  ∧ (∀ (s : State) (c x : Nat) (t : Ctx), s.quiet.issuable c x t → t.cur.opc = 12 → t.cur.w0.bit 9 = false → unusedFrom t.cur 1 = true →
      t.cur.w0.bit 8 = false → t.cur.w1.field 63 48 = 0 →
      (s.quiet.issued c x t).mayBegin (s.quiet.whoOf c x) (t.cur.w1.field 47 0) = true →
      ((s.quiet.issued c x t).core c).specs.length < 64 →
      exec (.specBegin c x) s = .next (s.after (s.quiet.finished c x t specBeginAct)))
  ∧ (∀ (s : State) (c x : Nat) (t : Ctx) (p : Spec), s.quiet.issuable c x t → t.cur.opc = 14 → t.cur.w0.bit 9 = false →
      t.cur.w0.bit 8 = true → unusedFrom t.cur 0 = true → s.dev.bus = [] → t.spec = some p → p.state = .running →
      ∃ u, exec (.specAbort c x) s = .next u
        ∧ u.dev.ctx? c x = some { t with state := .running, opDone := true, tag := t.cur.w0.field 31 16, specOut := 2, reason := 1,
                                         status := 7, spec := some { p with shadow := [], excess := [], late := none, heldActs := [], state := .discarded } })

/-- SPEC_COMMIT of a speculative task makes it read its decision word; of a task that committed early it is complete at once
(R228, R229); of every task that began with SPEC_BEGIN it does one or the other. A deciding task's poll: PENDING leaves the task
deciding; COMMIT with no region of its read set written since SPEC_BEGIN writes the shadow lines out in the order of their first
write; DISCARD discards (R229, R230). The word is what the poll reads. When the write-out of a task that reached SPEC_COMMIT is performed and it holds no action, the task is COMMITTED and
its command complete (R230). -/
def Obligations.SpeculationDecides : Prop :=
  (∀ (s : State) (c x : Nat) (t : Ctx), s.quiet.issuable c x t → t.cur.opc = 13 →
      ((runCmd s.quiet c x t specCommitAct).1 = .ok (some false) →
        exec (.specCommit c x) s = .next (s.after (s.quiet.underway c x t specCommitAct)))
      ∧ ((runCmd s.quiet c x t specCommitAct).1 = .ok (some true) →
        exec (.specCommit c x) s = .next (s.after (s.quiet.finished c x t specCommitAct))))
  ∧ (∀ (s : State) (c x : Nat) (t : Ctx), s.quiet.issuable c x t → t.cur.opc = 13 → t.cur.w0.bit 9 = false → unusedFrom t.cur 0 = true →
      t.cur.w0.bit 8 = true → t.began = true →
      exec (.specCommit c x) s = .next (s.after (if t.spec.isNone then s.quiet.finished c x t specCommitAct
        else s.quiet.underway c x t specCommitAct)))
  ∧ (∀ (s : State) (c x : Nat) (t : Ctx) (p : Spec) (v : W64) (r : Run),
      s.quiet.coreLive c = true → s.quiet.ctx? c x = some t → t.state ≠ .suspended → t.spec = some p → p.state = .deciding →
      ((readWord (s.quiet.whoOf c x) p.decision).run).run (Run.start s.quiet) = (.ok v, r) → r.dev.ctx? c x = some t →
      (v.field 1 0 = 0 → exec (.specPoll c x) s = .next (s.after r.dev))
      ∧ (v.field 1 0 = 1 → r.dev.staleRegions c p = [] → r.dev.shadowReaches c p = true →
          exec (.specPoll c x) s = .next (s.after
            ((r.dev.writeShadow c p).modCtx c x (fun t => { t with spec := some { p with state := .writing } }))))
      ∧ (2 ≤ v.field 1 0 → p.atCommand = true →
          exec (.specPoll c x) s = .next (s.after ((r.dev.discard c x 0).modCtx c x (fun t => { t with opDone := true })))))
  ∧ (∀ (s : State) (c x : Nat) (t : Ctx) (p : Spec), s.quiet.coreLive c = true → s.quiet.ctx? c x = some t → t.spec = some p →
      p.state = .writing → s.quiet.pendReaches c p = true → p.heldActs = [] → p.atCommand = true → s.quiet.netQuiet c x = true →
      s.quiet.arrivalsIn c x = true →
      ∃ u, exec (.specWriteoutDone c x) s = .next u
        ∧ u.dev.ctx? c x = some { t with specOut := 1, opDone := true,
                                         spec := some { p with shadow := [], excess := [], heldActs := [], state := .committed } })

/-- The rows of COLL with their operation (R378). -/
def collRows : List ((Nat → Nat → Instr) × Nat) :=
  [(.collReduceScatter, 0), (.collAllGather, 1), (.collAllReduce, 2), (.collBroadcast, 3), (.collAllToAll, 4), (.collExchange, 5)]

/-- A valid COLL is issued to its half's network interface and stays RUNNING until it completes there (R378, R382, R385). Of a plain
task a COLL that passes the checks, with its structure in pages of the core store, is always issued. -/
def Obligations.CollIssues : Prop :=
  (∀ r ∈ collRows, ∀ (s : State) (c x : Nat) (t : Ctx) (a : CollArgs), s.quiet.issuable c x t → t.cur.opc = 6 →
    (runCmd s.quiet c x t parseColl).1 = .ok a → a.op = r.2 →
    exec (r.1 c x) s = .next (s.after (s.quiet.underway c x t (fun w k => do
      let a ← parseColl w k
      modDev (fun d => d.issueColl w.core w.ctx a)))))
  ∧ (∀ r ∈ collRows, ∀ (s : State) (c x : Nat) (t : Ctx) (a : CollArgs), s.quiet.plainIssue c x t 6 →
    (s.quiet.issued c x t).CollReady (s.quiet.whoOf c x) t.cur a → a.op = r.2 →
    exec (r.1 c x) s = .next (s.after (s.quiet.underway c x t (fun w k => do
      let a ← parseColl w k
      modDev (fun d => d.issueColl w.core w.ctx a)))))

/-- The rows of UPD with their operation (R320). -/
def updRows : List ((Nat → Nat → Instr) × Nat) :=
  [(.updApply, 0), (.updStep, 1), (.updRoots, 2), (.updPin, 3), (.updDropout, 4), (.updClaim, 5), (.updRelease, 6)]

/-- A valid UPD of a non-speculative task completes with the effect of its operation, or, an APPLY whose arrivals must wait,
stays RUNNING until they enter (R299, R308, R320 to R330). What the operations of UPD do: STEP and PIN reach the engine of every
half present, ROOTS queues a root job for each slice named, RELEASE frees its entry (R308, R320, R328, R330). Of a plain task a UPD
that passes the checks, with its structure and what it reads and writes in pages of the core store, always runs so: it is complete,
but for an APPLY of which an arrival must wait for the engine. -/
def Obligations.UpdateCommands : Prop :=
  (∀ r ∈ updRows, ∀ (s : State) (c x : Nat) (t : Ctx), s.quiet.issuable c x t → t.cur.opc = 7 →
      (runCmd s.quiet c x t (fun w k => do
        let a ← parseUpd w k
        return (a.op, ((← getDev).specOf w).isSome))).1 = .ok (r.2, false) →
      ((runCmd s.quiet c x t (fun w k => do updBody w (← parseUpd w k))).1 = .ok true →
        exec (r.1 c x) s = .next (s.after (s.quiet.finished c x t (fun w k => do updBody w (← parseUpd w k)))))
      ∧ ((runCmd s.quiet c x t (fun w k => do updBody w (← parseUpd w k))).1 = .ok false →
        exec (r.1 c x) s = .next (s.after (s.quiet.underway c x t (fun w k => do updBody w (← parseUpd w k))))))
  ∧ (∀ r ∈ updRows, ∀ (s : State) (c x : Nat) (t : Ctx), s.quiet.plainIssue c x t 7 →
      (s.quiet.issued c x t).UpdReady (s.quiet.whoOf c x) t.cur r.2 →
      exec (r.1 c x) s = .next (s.after
        (if s.quiet.updEnds c x t r.2 (runCmd s.quiet c x t (fun w k => do updBody w (← parseUpd w k))).2.dev
          then s.quiet.finished c x t (fun w k => do updBody w (← parseUpd w k))
          else s.quiet.underway c x t (fun w k => do updBody w (← parseUpd w k)))))
  ∧ (∀ (a : UpdArgs) (r : Run),
      (((updSetStep a).run).run r).2.dev = r.dev.halfList.foldl (fun d h => d.setf (pgUpd h) 0x128 47 0 a.step) r.dev
      ∧ (((updSetPin a).run).run r).2.dev
          = r.dev.halfList.foldl (fun d h => (d.setf (pgUpd h) 0x130 47 0 a.step).setb (pgUpd h) 0x130 63 a.en) r.dev
      ∧ ((((updRoots a).run).run r).2.dev.upd a.half).rootQueue = (r.dev.upd a.half).rootQueue
          ++ (List.range a.count).map (fun i => { slice := a.first + i, step := 0, copy := 0, now := true })
      ∧ (((updRelease a).run).run r).2.dev.keys = KV.erase r.dev.keys a.handle)

/-- A VEC command that meets a fault ends with the fault's status and the first event record, and is complete (R251, R260). A
command whose task is not READY, or comes after another, or whose core stands still, changes nothing (R264 to R269). -/
def Obligations.CommandFaults : Prop :=
  (∀ r ∈ vecRows, ∀ (s : State) (c x : Nat) (t : Ctx) (st : Nat) (ev : W64), s.quiet.issuable c x t → t.cur.opc = 3 →
      t.cur.arg 39 32 = r.2 → (runCmd s.quiet c x t vecCmd).1 = .error (.fail st ev) →
      exec (r.1 c x) s = .next (s.after ((runCmd s.quiet c x t vecCmd).2.dev.cmdEnded c x (s.quiet.whoOf c x) st
        (if (runCmd s.quiet c x t vecCmd).2.event = 0 then ev else (runCmd s.quiet c x t vecCmd).2.event))))
  ∧ (∀ (s : State) (c x : Nat) (t : Ctx), s.quiet.ctx? c x = some t → s.quiet.mayIssue c x t = false →
      (∀ r ∈ vecRows, exec (r.1 c x) s = .next (s.after s.quiet)) ∧ (∀ r ∈ xferRows, exec (r.1 c x) s = .next (s.after s.quiet))
      ∧ (∀ r ∈ collRows, exec (r.1 c x) s = .next (s.after s.quiet)) ∧ (∀ r ∈ updRows, exec (r.1 c x) s = .next (s.after s.quiet)))

/-- A doorbell write to an enabled queue whose new tail is neither behind TAIL nor further from HEAD than the ring is accepted:
TAIL takes it and the doorbell counts; any other is ignored, counted in DB_IGNORED and flagged in bit 0 of BLK_ISR; and one that
its agent may not make changes nothing (R34, R246). A doorbell read answers HEAD in [31:0] and TDONE in [63:32], or zero where
the agent may not reach the doorbell, and changes nothing (R34, R247). Sequence numbers compare modulo 2^32: neither of two lies
below the other only where they are equal or 2^31 apart, and no number lies below itself (R246). -/
def Obligations.Doorbells : Prop :=
  (∀ (s : State) (g : Agent) (q : Nat) (v : W64),
      (s.quiet.doorbellOpen g q = false → exec (.doorbellWrite g q v) s = .next (s.after s.quiet))
      ∧ (s.quiet.doorbellOpen g q = true →
          ((s.quiet.queue? q).all (fun x => !x.enabled) = true
            ∨ (v.field 31 0 + 2 ^ 32 - s.quiet.qTail q) % 2 ^ 32 ≥ 2 ^ 31
            ∨ (v.field 31 0 + 2 ^ 32 - s.quiet.qHead q) % 2 ^ 32 > s.quiet.qRing q) →
          exec (.doorbellWrite g q v) s = .next (s.after ((s.quiet.count (pgDsp (q / 8192)) 0x03 1).setIsr (pgDsp (q / 8192)) 0)))
      ∧ (∀ x, s.quiet.doorbellOpen g q = true → s.quiet.queue? q = some x → x.enabled = true →
          (v.field 31 0 + 2 ^ 32 - s.quiet.qTail q) % 2 ^ 32 < 2 ^ 31 →
          (v.field 31 0 + 2 ^ 32 - s.quiet.qHead q) % 2 ^ 32 ≤ s.quiet.qRing q →
          exec (.doorbellWrite g q v) s = .next (s.after
            (let c := q / 8192
             let d := (s.quiet.setQField q 1 63 32 (v.field 31 0)).count (pgDsp c) 0x02 1
             let d := d.setQueue q { x with doorbells := x.doorbells ++ [(v.field 31 0, (d.core c).dbClock)] }
             ((d.modCore c (fun k => { k with dbClock := k.dbClock + 1 })).wakeWaiting c q).settle c))))
  ∧ (∀ (s : State) (g : Agent) (q : Nat),
      exec (.doorbellRead g q) s = .next (s.after (s.quiet.emit (.word
        (if s.quiet.doorbellOpen g q then BitVec.ofNat 64 (s.quiet.qHead q + s.quiet.qField q 3 63 32 * 2 ^ 32) else 0)))))
  ∧ ((∀ a : Nat, seqBelow a a = false)
    ∧ (∀ a b : Nat, a < 2 ^ 32 → b < 2 ^ 32 → seqBelow a b = true → seqBelow b a = false)
    ∧ (∀ a b : Nat, a < 2 ^ 32 → b < 2 ^ 32 → a ≠ b → (a + 2 ^ 31) % 2 ^ 32 ≠ b → (seqBelow a b = true ∨ seqBelow b a = true))
    ∧ (∀ a n : Nat, a < 2 ^ 32 → 0 < n → n < 2 ^ 31 → seqBelow a ((a + n) % 2 ^ 32) = true))

/-- DSP_QCMD with ENABLE: an entry that passes the checks is enabled with HEAD, TAIL, TSEQ and TDONE at zero; one that fails
them sets ERR. With DISABLE an enabled queue ignores doorbells from then on. A write of a non-secure agent that names a secure
queue changes nothing (R245). -/
def Obligations.QueueCommands : Prop :=
  ∀ (s : State) (c : Nat) (w : Wr), s.quiet.mayWrite w.agent (pgDsp c) 0x108 = true →
    let q := c * 8192 + (s.quiet.merged (pgDsp c) 0x108 w).field 12 0
    let d := s.quiet.plainWrite (pgDsp c) 0x108 w
    ((s.quiet.queueSecure q && !s.quiet.agentSecure w.agent) = true →
      exec (.queueEnable c w) s = .next (s.after s.quiet) ∧ exec (.queueDisable c w) s = .next (s.after s.quiet))
    ∧ ((s.quiet.queueSecure q && !s.quiet.agentSecure w.agent) = false →
      ((wrBits w).field 14 13 = 1 → (d.queue? q).any (fun x => x.enabled) = false → (d.core c).ofQueue q = [] → (d.core c).dspFinit = false →
        (d.entryOk q = true → exec (.queueEnable c w) s = .next (s.after
            (((d.storeWord (d.queueEntry q + 8) 0).storeWord (d.queueEntry q + 24) 0).setQueue q QState.start)))
        ∧ (d.entryOk q = false → exec (.queueEnable c w) s = .next (s.after (d.setb (pgDsp c) 0x108 62 true))))
      ∧ (∀ x, (wrBits w).field 14 13 = 2 → d.queue? q = some x → x.enabled = true →
          exec (.queueDisable c w) s = .next (s.after (d.setQueue q { x with enabled := false, disabling := true }))))

/-- The context of a task at its start (R265, R282): its first descriptor, its task sequence number, and of a frame-bound queue
its bound frame with the deadline of the entry, which may have been reached before the task had a context. -/
def startedCtx (d : Dev) (q s : Nat) (qs : QState) : Ctx :=
  let rel := if (d.qword q 5).bit 0 then qs.releaseOf s else none
  let dl := rel.map (fun r => { d.boundDeadline q r.1 with seen := r.2 })
  { queue := q, tseq := d.qField q 3 31 0, first := s, seq := s, state := .ready, waitFor := .none,
    cur := { w0 := 0, w1 := 0, w2 := 0, w3 := 0, w4 := 0, w5 := 0, w6 := 0, w7 := 0 }, status := 0, tag := 0, event := 0,
    order := qs.orderOf s, bound := rel.map (fun r => r.1), release := none, deadline := dl, regions := [], spec := none, specOut := 0,
    reason := 0, aborting := dl.any (fun x => x.seen && x.abort), aborted := false, opDone := false, table := none, arrays := 0,
    frameAt := (d.half (q / 8192 / 4)).schFrame, onVec := false }

/-- TASK_START: the queue's next task, where it may take a context and comes before the other queues' tasks, takes the free
context, TSEQ advances, and its first command is fetched (R265); a task whose deadline of policy ABORT was reached while it had
no context ends at once (R282, R284). -/
def Obligations.TaskStarts : Prop :=
  ∀ (st : State) (q x s : Nat) (qs qs' : QState), let d := st.quiet
    let c := q / 8192
    d.coreLive c = true → (d.core c).dspFinit = false → x < 1024 → d.ctx? c x = none → d.startable q = some s → d.queue? q = some qs →
    d.queuePicked q s = true → (d.freeOrphan q s).queue? q = some qs' →
    exec (.taskStart q x) st = .next (st.after
      (let e := d.freeOrphan q s
       let t := startedCtx e q s qs'
       let e := e.setQueue q { qs' with next := s, scan := true, released := qs'.released.filter (fun r => r.1 != s),
                                         doorbells := qs'.doorbells.filter (fun b => seqBelow s b.1) }
       let e := e.setQField q 3 31 0 (seqNext t.tseq)
       let e := e.modCore c (fun k => { k with secureRan := k.secureRan || e.queueSecure q })
       let e := e.setCtx c x t
       (if t.aborting then e.abortTask c x else e.fetchNext c x).settle c))

/-- COMMAND_COMPLETE: a task whose command is complete with status OK goes to its next command, or after END to RETIRING or, before
its release position, to HELD; one with another status goes to RETIRING; one whose deadline or FINIT ends it ends at this
boundary; one of whose writes waits for room in the shadow area goes on waiting; and a task of an isolated half stops here (R228,
R248, R251, R260, R283, R284, R523). -/
def Obligations.CommandsComplete : Prop :=
  ∀ (s : State) (c x : Nat) (t : Ctx), let d := s.quiet
    let e := d.traceCmd c x 0x03 t (BitVec.ofNat 64 t.status)
    let e := if t.cur.opc = 4 ∧ t.status = 0 then e.count (pgTbl c) 0x01 1 else e
    d.ctx? c x = some t → t.table = none → t.state = .running → t.opDone = true →
    (t.waitsRoom = true → exec (.commandComplete c x) s = .next (s.after d))
    ∧ (t.waitsRoom = false → d.coreLive c = true →
      ((t.status ≠ 0 ∨ t.settled = true) → exec (.commandComplete c x) s = .next (s.after ((e.toRetiring c x).settle c)))
      ∧ (t.status = 0 → t.settled = false →
        ((e.core c).dspFinit = true → exec (.commandComplete c x) s = .next (s.after ((e.endTask c x 6 4).settle c)))
        ∧ ((e.core c).dspFinit = false → t.aborting = true → exec (.commandComplete c x) s = .next (s.after ((e.abortTask c x).settle c)))
        ∧ ((e.core c).dspFinit = false → t.aborting = false → t.cur.w0.bit 8 = true →
            exec (.commandComplete c x) s = .next (s.after
              ((if e.heldBack c t then e.setCtx c x { t with state := .held } else e.toRetiring c x).settle c)))
        ∧ ((e.core c).dspFinit = false → t.aborting = false → t.cur.w0.bit 8 = false →
            exec (.commandComplete c x) s = .next (s.after ((e.proceed c x).settle c)))))
    ∧ (t.waitsRoom = false → (d.half (c / 4)).isolated = true → d.coreStands c = true →
        exec (.commandComplete c x) s = .next (s.after ((e.setCtx c x { t with state := .ready, opDone := false }).settle c)))

/-- The completion record of a task (R250): TSEQ, TAG, STATUS, LATE, SPEC and REASON in the first word, the event record, the
lines late and the context, and the ACLK counter of its half. -/
def Obligations.CompletionRecords : Prop :=
  ∀ (d : Dev) (c x : Nat) (t : Ctx) (late : Option Nat), t.tseq < 2 ^ 32 → t.tag < 2 ^ 16 → t.status < 2 ^ 8 → t.specOut < 4 → t.reason < 8 →
    x < 1024 → late.getD 0 < 2 ^ 32 →
    ∃ w0 w2 : W64, completionRecord d c x t late = [w0, t.event, w2, d.stamp (pgDsp c)]
      ∧ w0.field 31 0 = t.tseq ∧ w0.field 47 32 = t.tag ∧ w0.field 55 48 = t.status ∧ w0.field 56 56 = (if late.isSome then 1 else 0)
      ∧ w0.field 58 57 = t.specOut ∧ w0.field 61 59 = t.reason ∧ w0.field 63 62 = 0
      ∧ w2.field 31 0 = late.getD 0 ∧ w2.field 41 32 = x ∧ w2.field 63 42 = 0

/-- TASK_RETIRE of a non-speculative task in time, once what it sent has been acknowledged (R224): its completion record is stored at CQ + (TSEQ mod 2^CQ_LOG2) × 32, TDONE advances, its
descriptors become free, its run-ahead copies are dropped, its context is free again, and with IRQ_EN its interrupt is raised
(R215, R249, R250). -/
def Obligations.TaskRetires : Prop :=
  ∀ (s : State) (c x : Nat) (t : Ctx), let d := s.quiet
    d.ctx? c x = some t → d.coreLive c = true → t.state = .retiring → d.mayRetire c x t = true → d.linesLate c t = none → t.spec = none →
    exec (.taskRetire c x) s = .next (s.after
      (let q := t.queue
       let e := d.store (d.qField q 2 47 0 + t.tseq % 2 ^ d.qField q 2 52 48 * 32)
         ((completionRecord d c x t none).flatMap (fun v => leBytes 8 v.toNat))
       let e := e.traceTask c x (e.queueSecure q) (pgDsp c) 0x04 ((completionRecord d c x t none).getD 0 0)
         ((completionRecord d c x t none).getD 2 0)
       let e := (e.count (pgDsp c) 0x01 1).setQField q 3 63 32 (seqNext (e.qField q 3 63 32))
       let e := ((e.freeTask q t.first).dropTaskCopies c x).freeCtx c x
       (if (e.qword q 4).bit 11 then e.emit (.msix (e.qField q 4 26 16)) else e).settle c))

/-- A write of BLK_CTRL that sets or clears HALT alone changes that bit, on the DSP and TBL pages, on a UPD
page with EN 1, and on a GOV page where it sets it (R468). EN of a UPD page: a write that raises it starts the engine; one that clears it
stops it (R466). -/
def Obligations.HeaderControls : Prop :=
  (∀ (s : State) (i : Nat) (w : Wr), s.quiet.agentSecure w.agent = false → wrHit w 1 = false →
      let d := s.quiet
      (pageBlk (pgDsp i) = some (.dsp, i) → d.mayWrite w.agent (pgDsp i) 0x010 = true →
        exec (.dspHalt i w) s = .next (s.after (d.setb (pgDsp i) 0x010 2 ((d.merged (pgDsp i) 0x010 w).bit 2))))
      ∧ (pageBlk (pgTbl i) = some (.tbl, i) → d.mayWrite w.agent (pgTbl i) 0x010 = true →
        exec (.tblHalt i w) s = .next (s.after (d.setb (pgTbl i) 0x010 2 ((d.merged (pgTbl i) 0x010 w).bit 2))))
      ∧ (pageBlk (pgUpd i) = some (.upd, i) → d.mayWrite w.agent (pgUpd i) 0x010 = true →
          (d.merged (pgUpd i) 0x010 w).bit 0 = true → d.regb (pgUpd i) 0x010 0 = true →
          exec (.updHalt i w) s = .next (s.after ((d.setb (pgUpd i) 0x010 2 ((d.merged (pgUpd i) 0x010 w).bit 2)).setb (pgUpd i) 0x010 0 true)))
      ∧ (pageBlk (pgGov i) = some (.gov, i) → d.mayWrite w.agent (pgGov i) 0x010 = true → (d.merged (pgGov i) 0x010 w).bit 2 = true →
          exec (.govHalt i w) s = .next (s.after (d.setb (pgGov i) 0x010 2 true))))
  ∧ (∀ (s : State) (i : Nat) (w : Wr), s.quiet.agentSecure w.agent = false → wrHit w 1 = false → pageBlk (pgUpd i) = some (.upd, i) →
      s.quiet.mayWrite w.agent (pgUpd i) 0x010 = true →
      let d := s.quiet.setb (pgUpd i) 0x010 2 ((s.quiet.merged (pgUpd i) 0x010 w).bit 2)
      (d.regb (pgUpd i) 0x010 0 = false → (s.quiet.merged (pgUpd i) 0x010 w).bit 0 = true →
        exec (.updEnable i w) s = .next (s.after (updEnableWork (d.setb (pgUpd i) 0x010 0 true) i)))
      ∧ ((s.quiet.merged (pgUpd i) 0x010 w).bit 0 = false →
        exec (.updEnable i w) s = .next (s.after (d.setb (pgUpd i) 0x010 0 false))))

/-- FINIT written as 1 by a non-secure agent that leaves the other fields alone starts the page's re-initialisation, and FINIT
reads 1 until it ends: of the dispatcher, the update engine, the table engine, the arrays, the core control processor and a
fabric port (R315, R352, R462, R467). FINIT_DONE: FINIT reads 0 again; on an ARR page whose arrays are idle both tag valid bits
of every array are clear (R467). -/
def Obligations.Reinitialisation : Prop :=
  (∀ (s : State) (b : Blk) (i : Nat) (w : Wr), let d := s.quiet
      let p := b.page i
      pageBlk p = some (b, i) → d.mayWrite w.agent p 0x010 = true → d.agentSecure w.agent = false → wrHit w 1 = true →
      (d.merged p 0x010 w).bit 2 = d.regb p 0x010 2 → (d.merged p 0x010 w).bit 0 = d.regb p 0x010 0 → d.regb p 0x010 1 = false →
      d.setb p 0x010 2 (d.regb p 0x010 2) = d → d.setb p 0x010 0 (d.regb p 0x010 0) = d →
      (b = .dsp → exec (.dspFinit i w) s = .next (s.after (dspFinitStart (d.setb p 0x010 1 true) i)))
      ∧ (b = .upd → exec (.updFinit i w) s = .next (s.after (updFinitWork (d.setb p 0x010 1 true) i)))
      ∧ (b = .tbl → exec (.tblFinit i w) s = .next (s.after ((d.setb p 0x010 1 true).tblAbort i)))
      ∧ (b = .arr → exec (.arrFinit i w) s = .next (s.after (d.setb p 0x010 1 true)))
      ∧ (b = .core → exec (.coreFinit i w) s = .next (s.after ((d.setb p 0x010 1 true).ccpRestart i)))
      ∧ (b = .fab → (d.setb p 0x010 1 true).portState i ≠ 0 →
          exec (.fabFinit i w) s = .next (s.after ((d.setb p 0x010 1 true).train i 0))))
  ∧ (∀ (s : State) (i : Nat), let d := s.quiet
      (pageBlk (pgTbl i) = some (.tbl, i) → d.present (pgTbl i) = true → (pageHalf (pgTbl i)).any d.running = true →
        d.regb (pgTbl i) 0x010 1 = true → (d.core i).tableBusy = false → exec (.finitDone (pgTbl i)) s = .next (s.after (d.setb (pgTbl i) 0x010 1 false)))
      ∧ (pageBlk (pgArr i) = some (.arr, i) → d.present (pgArr i) = true → (pageHalf (pgArr i)).any d.running = true →
        d.regb (pgArr i) 0x010 1 = true → (d.core i).arraysBusy = false →
        exec (.finitDone (pgArr i)) s = .next (s.after ((d.clearTags i).setb (pgArr i) 0x010 1 false))
        ∧ ((((d.clearTags i).setb (pgArr i) 0x010 1 false).core i).arrays.all (fun a => !a.cur.valid && !a.shd.valid) = true)))

/-- ERR_CTRL.CLR clears the first and last error records and ERR_COUNT; CNT_CTRL.CLR the value and SAT of the slots it names;
and a write of CNT_SEL that changes a slot's selection clears that slot (R473, R474). A write to a block-specific word without a
behaviour of its own, here the governor's and two SYS words, changes the writable bits that the access reaches, and nothing
else; and an access that is not naturally aligned changes nothing (R15, R35). -/
def Obligations.RegisterWrites : Prop :=
  (∀ (s : State) (page : Nat) (w : Wr), let d := s.quiet
      (d.mayWrite w.agent page 0x058 = true → wrHit w 0 = true →
        ∃ u, exec (.errClear page w) s = .next u ∧ (∀ o ∈ [0x030, 0x038, 0x040, 0x048, 0x050], u.dev.reg page o = 0)
          ∧ (∀ p o, p ≠ page → o < 4096 → u.dev.reg p o = d.reg p o) ∧ u.dev.mem = d.mem)
      ∧ (d.mayWrite w.agent page 0x0E0 = true →
        ∃ u, exec (.cntClear page w) s = .next u ∧ (∀ i, i < 8 → wrHit w i = true → u.dev.reg page (0x0A0 + 8 * i) = 0)
          ∧ (∀ i, i < 8 → wrHit w i = false → u.dev.reg page (0x0A0 + 8 * i) = d.reg page (0x0A0 + 8 * i)) ∧ u.dev.mem = d.mem)
      ∧ (∀ i, i < 8 → d.mayWrite w.agent page (0x060 + 8 * i) = true → (d.merged page (0x060 + 8 * i) w).field 7 0 ≠ d.regf page (0x060 + 8 * i) 7 0 →
        ∃ u, exec (.cntSelWrite page i w) s = .next u ∧ u.dev.reg page (0x0A0 + 8 * i) = 0
          ∧ u.dev.regf page (0x060 + 8 * i) 7 0 = (d.merged page (0x060 + 8 * i) w).field 7 0 ∧ u.dev.mem = d.mem))
  ∧ (∀ (s : State) (i off : Nat) (w : Wr), let d := s.quiet
      ((w.lo = true → off % 8 ≠ 0) → (w.lo = false → w.hi = true → off % 8 ≠ 4) →
          exec (.registerWrite off w) s = .next (s.after d))
      ∧ (∀ o, ((w.lo = true ∧ o = off) ∨ (w.lo = false ∧ w.hi = true ∧ o = off + 4)) →
          (pageBlk (pgGov i) = some (.gov, i) → d.present (pgGov i) = true → off ∈ [0x100, 0x118, 0x120, 0x128, 0x130, 0x138, 0x150] →
            d.mayWrite w.agent (pgGov i) off = true →
            exec (.registerWrite (pgGov i * 4096 + o) w) s = .next (s.after (d.plainWrite (pgGov i) off w)))
          ∧ (off ∈ [0x400, 0x610] → d.mayWrite w.agent pgSys off = true →
            exec (.registerWrite (pgSys * 4096 + o) w) s = .next (s.after (d.plainWrite pgSys off w)))))

/-- ARR_CTRL keeps NOGATE and IDLE_GATE as written, and NOGATE makes gated arrays ask for a ramp (R105). The arrays of a core
ramp: ones idle for IDLE_GATE times 64 cycles start a stop ramp of 64 cycles; a waiting core at the head of its half's requests
starts its ramp and leaves the list, 256 cycles or more after the half's last ramp start; a ramp that ends leaves them clocked;
each cycle takes one off a stop ramp, which ends gated (R105 to R107). -/
def Obligations.ArrayClocks : Prop :=
  (∀ (s : State) (c : Nat) (w : Wr), let d := s.quiet
      let v := d.merged (pgArr c) 0x100 w
      let e := d.setReg (pgArr c) 0x100 (BitVec.ofNat 64 (v.field 0 0 + v.field 19 4 * 16))
      (d.mayWrite w.agent (pgArr c) 0x100 = false → exec (.arrCtrlWrite c w) s = .next (s.after d))
      ∧ (d.mayWrite w.agent (pgArr c) 0x100 = true → v.bit 0 = false → exec (.arrCtrlWrite c w) s = .next (s.after e))
      ∧ (d.mayWrite w.agent (pgArr c) 0x100 = true → v.bit 0 = true → exec (.arrCtrlWrite c w) s = .next (s.after (e.requestRamp c))))
  ∧ (∀ (s : State) (c : Nat), let d := s.quiet
      (d.coreLive c = true → (d.core c).ramp = .clocked → (d.core c).arraysWanted = false → d.regb (pgArr c) 0x100 0 = false →
        (max 1 (d.regf (pgArr c) 0x100 19 4) * 64 ≤ (d.core c).idle →
          exec (.arrayIdleGate c) s = .next (s.after (d.modCore c (fun k => { k with ramp := .rampDown, rampLeft := 64 }))))
        ∧ ((d.core c).idle < max 1 (d.regf (pgArr c) 0x100 19 4) * 64 → exec (.arrayIdleGate c) s = .next (s.after d)))
      ∧ (d.coreLive c = true → (d.core c).ramp = .waitingSlot → (d.half (c / 4)).rampQueue.head? = some c →
        (256 ≤ (d.half (c / 4)).rampGap →
          exec (.arrayRampStart c) s = .next (s.after ((d.modCore c (fun k => { k with ramp := .rampUp })).modHalf (c / 4)
            (fun h => { h with rampQueue := h.rampQueue.drop 1, rampGap := 0 }))))
        ∧ ((d.half (c / 4)).rampGap < 256 → exec (.arrayRampStart c) s = .next (s.after d)))
      ∧ (d.coreLive c = true → (d.core c).ramp = .rampUp → (d.core c).rampLeft = 0 →
        exec (.arrayRampDone c) s = .next (s.after (d.modCore c (fun k => { k with ramp := .clocked, idle := 0 }))))
      ∧ ((d.core c).ramp = .rampDown → 1 < (d.core c).rampLeft →
        ((d.rampTick c).core c).ramp = .rampDown ∧ ((d.rampTick c).core c).rampLeft = (d.core c).rampLeft - 1)
      ∧ ((d.core c).ramp = .rampDown → (d.core c).rampLeft ≤ 1 → ((d.rampTick c).core c).ramp = .gated))

/-- One comparison of power with its limit (R530): above the limit the duties outside the reserved slice fall first, by S and
not below DMIN, and the slice's only when all others are there; below 97 % of the limit the slice's rise first; between, all
stay. POWER_DUTY_UPDATE completes on a running device: PMU_PWR shows the averages, and an absent core keeps its duty (R530, R534). -/
def Obligations.IssueDuty : Prop :=
  (∀ (p limit dmin floor st : Nat) (rsv : Nat → Bool) (cores : List Nat) (old : Nat → Nat) (c : Nat),
      (p > limit → (cores.filter (fun c => !rsv c)).any (fun c => decide (old c > dmin)) = true →
        stepDuty p limit dmin floor st rsv cores old c = if rsv c then old c else max (old c - st) dmin)
      ∧ (p > limit → (cores.filter (fun c => !rsv c)).any (fun c => decide (old c > dmin)) = false →
        stepDuty p limit dmin floor st rsv cores old c = if rsv c then max (old c - st) floor else old c)
      ∧ (p * 100 < limit * 97 → (cores.filter rsv).any (fun c => decide (old c < 64)) = true →
        stepDuty p limit dmin floor st rsv cores old c = if rsv c then min (old c + st) 64 else old c)
      ∧ (p * 100 < limit * 97 → (cores.filter rsv).any (fun c => decide (old c < 64)) = false →
        stepDuty p limit dmin floor st rsv cores old c = if rsv c then old c else min (old c + st) 64)
      ∧ (p ≤ limit → ¬ p * 100 < limit * 97 → stepDuty p limit dmin floor st rsv cores old c = old c))
  ∧ (∀ (s : State) (p a b : Nat), s.quiet.up = true →
      ∃ u, exec (.powerDutyUpdate p a b) s = .next u
        ∧ u.dev.reg pgPmu 0x138 = BitVec.ofNat 64 (p % 65536 + a % 65536 * 2 ^ 16 + b % 65536 * 2 ^ 32)
        ∧ u.dev.mem = s.dev.mem
        ∧ (∀ c, c < 8 → s.quiet.corePresent c = false → (u.dev.core c).dutyPwr = (s.dev.core c).dutyPwr))

/-- A half with at most eight sensors out of range rises at once to the throttle step that its hottest valid reading calls for
(R531, R532). THERMAL_SAMPLE of one valid reading below 110 °C completes: the sensor's register takes the reading with VALID, and
no sensor counts as hot. A second sample in a row of 110 °C or above at one sensor trips the device: THERM_TRIP_N is low,
PMU_FAULT.TRIP is set and the device powers down (R533). -/
def Obligations.ThermalThrottle : Prop :=
  (∀ (d : Dev) (l : List Reading) (h : Nat) (r : Reading),
      (l.filter (fun r => sensorHalf r.sensor == some h && !(inRange r))).length ≤ 8 →
      hottest (l.filter (fun r => inRange r && (sensorHalf r.sensor == some h || sensorHalf r.sensor == none))) = some r →
      d.calledStep r.temp > (d.half h).therm →
      ((d.throttle l h).half h).therm = d.calledStep r.temp)
  ∧ (∀ (s : State) (r : Reading), s.quiet.up = true → s.quiet.sensorPresent r.sensor = true → r.temp < 880 → inRange r = true →
      ∃ u, exec (.thermalSample [r]) s = .next u
        ∧ u.dev.reg pgThm (0x200 + 8 * r.sensor) = BitVec.ofNat 64 ((r.temp % 65536).toNat + 65536)
        ∧ u.dev.power.hot = [] ∧ u.dev.mem = s.dev.mem)
  ∧ (∀ (s : State) (r : Reading), s.quiet.up = true → s.quiet.sensorPresent r.sensor = true → 880 ≤ r.temp → inRange r = true →
      s.quiet.power.hot.contains r.sensor = true →
      ∃ u, exec (.thermalSample [r]) s = .next u
        ∧ u.dev.power.tripLow = true ∧ u.dev.power.seq = .down ∧ u.dev.up = false ∧ u.dev.regb pgPmu 0x158 0 = true)

/-- GOV_EPOCH.GO begins an epoch on an idle governor, is held while one runs, and is ignored and counted while one is held; the
end of an epoch writes the count of epochs and sets EPOCH_DONE, and begins the next epoch where a trigger is held (R133); and so with
a trigger of any source. A write
of GOV_WREC_TAIL takes the tail and lets the governor go on (R142). -/
def Obligations.GovernorEpochs : Prop :=
  ∀ (s : State) (c : Nat) (w : Wr), let d := s.quiet
    let g := (d.core c).gov
    (d.mayWrite w.agent (pgGov c) 0x108 = true → wrHit w 0 = true → d.coreLive c = true →
      (g.busy = false → exec (.epochTrigger c w) s = .next (s.after (govStart d c)))
      ∧ (g.busy = true → g.held = false → exec (.epochTrigger c w) s = .next (s.after (d.modGov c (fun g => { g with held := true }))))
      ∧ (g.busy = true → g.held = true → exec (.epochTrigger c w) s = .next (s.after (d.count (pgGov c) 0x08 1))))
    ∧ (d.coreLive c = true → g.busy = true → g.ended = true → g.held = false →
      exec (.epochEnd c) s = .next (s.after
        ((((d.govWrite c (d.regf (pgGov c) 0x150 47 0) (BitVec.ofNat 64 (g.epochs + 1))).modGov c
          (fun g => { g with busy := false, ended := false, epochs := (d.core c).gov.epochs + 1, idx := 0 })).setIsr (pgGov c) 0).count (pgGov c) 0x01 1)))
    ∧ (d.coreLive c = true → g.busy = true → g.ended = true → g.held = true →
      exec (.epochEnd c) s = .next (s.after
        (let e := (((d.govWrite c (d.regf (pgGov c) 0x150 47 0) (BitVec.ofNat 64 (g.epochs + 1))).modGov c
          (fun g => { g with busy := false, ended := false, epochs := (d.core c).gov.epochs + 1, idx := 0 })).setIsr (pgGov c) 0).count (pgGov c) 0x01 1
         govStart (e.modGov c (fun g => { g with held := false })) c)))
    ∧ (d.mayWrite w.agent (pgGov c) 0x148 = true → d.coreLive c = true →
      exec (.govWrecTailWrite c w) s = .next (s.after
        (let e := d.setf (pgGov c) 0x148 31 0 ((d.merged (pgGov c) 0x148 w).field 31 0)
         if e.coreLive c then govRun (govFuel e c) e c else e)))
    ∧ (d.coreLive c = true →
      (g.busy = false → govTrigger d c = govStart d c)
      ∧ (g.busy = true → g.held = false → govTrigger d c = d.modGov c (fun g => { g with held := true }))
      ∧ (g.busy = true → g.held = true → govTrigger d c = d.count (pgGov c) 0x08 1))

/-- RUN_AHEAD_READ of a line of DRAM or carve-out that translates and whose code holds brings a copy of the line into the
buffer, and counts; the copy may still be on its way, which a free value says (log 14); a line that may not be read ahead is dropped with PF_DROP_PERM and stops its region (R211 to R213).
FET_CTRL: RA_EN is taken as written, and a change of RA_SIZE that does not meet a held speculative task's shadow area discards
every copy (R228, R239). A write to a watched region's words takes its fields and advances its generation (R219). -/
def Obligations.FetchEngine : Prop :=
  (∀ (s : State) (c x i line : Nat) (t : Ctx) (r : Region), let d := s.quiet
      let w := d.whoOf c x
      d.ctx? c x = some t → t.regions[i]? = some r → d.coreLive c = true → d.regb (pgFet c) 0x100 0 = true → d.regf (pgFet c) 0x100 6 1 ≠ 0 →
      r.ahead.find? (fun l => !(d.physOf (l * 64)).any (fun pa => (d.core c).ra.any (fun y => y.ctx == x && y.line == pa / 64))) = some line →
      (∀ d' e, d.translate c (line * 64) false w.secure = (d', .error (.cause e)) →
        exec (.runAheadRead c x i) s = .next (s.after (d'.dropRunAhead c x i line)))
      ∧ (∀ d' pa, d.translate c (line * 64) false w.secure = (d', .ok pa) → d'.dropsRunAhead (d'.space pa) = true →
        exec (.runAheadRead c x i) s = .next (s.after (d'.dropRunAhead c x i line)))
      ∧ (∀ d' pa, d.translate c (line * 64) false w.secure = (d', .ok pa) → inDramOrCarve (d'.space pa) = true →
        d'.reachesFrom (c / 4) pa = true →
        let e := (d'.count (pgFet c) 0x01 1).modCtx c x (fun t => { t with spec := t.spec.map (fun p =>
          { p with readSet := ((List.range 64).filter (fun k => (d'.count (pgFet c) 0x01 1).watchHits c k pa)).foldl lineAdd p.readSet }) })
        (e.takeFree.1.loadLine pa).2 = none →
          exec (.runAheadRead c x i) s = .next (s.after
            (if e.takeFree.2.bit 0 then e.takeFree.1.addCopy c { ctx := x, line := pa / 64, used := false, flight := true, data := [] }
             else (e.takeFree.1.loadLine pa).1.addCopy c
              { ctx := x, line := pa / 64, used := false, flight := false, data := (e.takeFree.1.loadLine pa).1.value (pa / 64 * 64) 64 }))))
  ∧ (∀ (s : State) (c : Nat) (w : Wr), let d := s.quiet
      let v := d.merged (pgFet c) 0x100 w
      let e := d.setb (pgFet c) 0x100 0 (v.bit 0)
      (d.mayWrite w.agent (pgFet c) 0x100 = true → v.field 6 1 = e.regf (pgFet c) 0x100 6 1 → exec (.fetCtrlWrite c w) s = .next (s.after e))
      ∧ (d.mayWrite w.agent (pgFet c) 0x100 = true → v.field 6 1 ≠ e.regf (pgFet c) 0x100 6 1 → (e.core c).specs = [] →
        exec (.fetCtrlWrite c w) s = .next (s.after ((e.setf (pgFet c) 0x100 6 1 (v.field 6 1)).dropAllCopies c))
        ∧ (((e.setf (pgFet c) 0x100 6 1 (v.field 6 1)).dropAllCopies c).core c).ra = [])
      ∧ (∀ i, i < 64 → d.mayWrite w.agent (pgFet c) (0x208 + 16 * i) = true →
        exec (.watchRegionWrite c i true w) s = .next (s.after
          ((d.setReg (pgFet c) (0x208 + 16 * i) (BitVec.ofNat 64 ((d.merged (pgFet c) (0x208 + 16 * i) w).field 39 6 * 64))).bumpGen c i)))
      ∧ (∀ i, i < 64 → d.mayWrite w.agent (pgFet c) (0x200 + 16 * i) = true →
        exec (.watchRegionWrite c i false w) s = .next (s.after
          ((d.setReg (pgFet c) (0x200 + 16 * i) (BitVec.ofNat 64 ((d.merged (pgFet c) (0x200 + 16 * i) w).field 47 6 * 64
            + if (d.merged (pgFet c) (0x200 + 16 * i) w).bit 63 then 2 ^ 63 else 0))).bumpGen c i))))

/-- A write to SYS_TLBI by a secure agent while no invalidation runs names the range, and with GO sets BUSY; the end clears both, and no TLB then
holds a translation of the range (R207). SYS_FS_CTRL takes the carve-out steps of both halves, and the end of a growth clears
the half's BUSY (R199). PMU_FS_FLUSH.GO sets BUSY and starts the write-back of every dirty line of the running halves; at its
end no line that was dirty at its start is left dirty, and BUSY clears (R520). -/
def Obligations.TranslationAndFarStores : Prop :=
  (∀ (s : State) (w : Wr), let d := s.quiet
      (d.mayWrite w.agent pgSys 0x408 = true → d.regb pgSys 0x410 0 = false →
        let v := d.merged pgSys 0x408 w
        (wrHit w 63 = true → v.field 49 48 ≠ 3 →
          exec (.tlbInvalidate w) s = .next (s.after ((d.setReg pgSys 0x408 (v.setBit 63 false)).setb pgSys 0x410 0 true)))
        ∧ (wrHit w 63 = false → exec (.tlbInvalidate w) s = .next (s.after (d.setReg pgSys 0x408 (v.setBit 63 false)))))
      ∧ (d.up = true → d.regb pgSys 0x410 0 = true → d.collHolds (d.reg pgSys 0x408) = false →
        ∃ u, exec .tlbiDone s = .next u ∧ u.dev.regb pgSys 0x410 0 = false
          ∧ (∀ e ∈ u.dev.tlbs, inTlbi (d.reg pgSys 0x408) (e.1 % 2 ^ 32) = false)
          ∧ (∀ e ∈ d.tlbs, inTlbi (d.reg pgSys 0x408) (e.1 % 2 ^ 32) = false → e ∈ u.dev.tlbs)
          ∧ u.dev.mem = d.mem))
  ∧ (∀ (s : State) (w : Wr) (h : Nat), let d := s.quiet
      (d.mayWrite w.agent pgSys 0x420 = true →
        exec (.carveOutChange w) s = .next (s.after
          ((d.setCarve 0 ((d.merged pgSys 0x420 w).field 3 0)).setCarve 1 ((d.merged pgSys 0x420 w).field 7 4))))
      ∧ (d.halfPresent h = true → d.regb pgSys 0x428 h = false → ∀ n, n < d.carve h → d.carveInUse h n (d.carve h) = false →
        d.setCarve h n = (d.setf pgSys 0x420 (3 + 4 * h) (4 * h) n).loseCarve h n (d.carve h))
      ∧ (d.up = true → h < 2 → exec (.carveOutDone h) s = .next (s.after (d.setb pgSys 0x428 h false))))
  ∧ (∀ (s : State) (w : Wr), let d := s.quiet
      (d.mayWrite w.agent pgPmu 0x150 = true → wrHit w 0 = true → d.regb pgPmu 0x150 1 = false →
        exec (.farStoreFlush w) s = .next (s.after ((d.setb pgPmu 0x150 1 true).eachHalf Dev.flushStart)))
      ∧ (d.up = true → d.regb pgPmu 0x150 1 = true →
        exec .flushDone s = .next (s.after ((d.eachHalf Dev.flushEnd).setb pgPmu 0x150 1 false)))
      ∧ (∀ h f, f ∈ ((d.flushEnd h).half h).lines → f.dirty = true → f.line ∉ (d.half h).flush))

/-- Memory of the device is little-endian and keeps what is written: a word stored in system-die SRAM or a near store reads
back, every other byte reads as before, and the list stays in its canonical form (R14). -/
def Obligations.MemoryReadsBack : Prop :=
  ∀ (d : Dev) (pa : Nat) (v : W64), pa % 8 = 0 → (d.space pa = .sram ∨ ∃ c o, d.space pa = .near c o) →
    (d.storeWord pa v).word pa = v
    ∧ (∀ a, (a < pa ∨ pa + 8 ≤ a) → (d.storeWord pa v).byte a = d.byte a)
    ∧ (Memory.wf d.mem = true → Memory.wf (d.storeWord pa v).mem = true)

/-- The interleaves put an offset where R399 and R400 say, and place every byte of a half once: the place of the offset of a
channel byte is that channel and byte, and the offset of the place of an offset is that offset (R399, R400). -/
def Obligations.InterleaveIsOneToOne : Prop :=
  (∀ cap o : Nat, 0 < cap →
      placeOf false cap o = ((o / 64 % 8) ^^^ (o / 32768 % 8) ^^^ (o / 16777216 % 8), (o / 512) * 64 + o % 64)
      ∧ placeOf true cap o = (o / cap, o % cap))
  ∧
  (∀ (ilv : Bool) (cap k b : Nat), 0 < cap → k < 8 → b < cap → placeOf ilv cap (offsetOf ilv cap k b) = (k, b))
    ∧ (∀ (ilv : Bool) (cap o : Nat), 0 < cap → o < 8 * cap → offsetOf ilv cap (placeOf ilv cap o).1 (placeOf ilv cap o).2 = o)

/-- The patrol of a READY channel takes the next line: one that the far store holds is written back and left clean; of another
it reads and acts on what the code finds; the position advances, and after the last line starts again (R414, R415); errors on stored
lines enter with this command, which is the model's choice (log 93). The SRAM
scrub reports what it finds: a corrected word raises SRAM_CE, and a word with a double error raises SRAM_UE and is poisoned; a
clean word changes nothing (R417, R419). Here of a core's stores. The line code (R407, R408): a line with no symbol in error is
in order; up to eight symbols of one device, or up to three anywhere, are corrected without a mark; four to eight over
several devices fail without a mark, and so do more than three outside the marked device with one. -/
def Obligations.ScrubsAndCodes : Prop :=
  (∀ (s : State) (k : Nat) (errs : List BitError), let d := s.quiet.strike k errs
      let line := d.regf (pgMem k) 0x138 31 0
      let pa := d.chanAddr k (line * 64)
      d.chanLive k = true → d.chanState k = 2 → d.dramReady (k / 8) = true → d.regb (pgMem k) 0x130 0 = true → (d.half (k / 8)).isolated = false → d.eclipsed = false →
      let f := if (d.half (k / 8)).lines.any (fun f => f.line == pa / 64)
        then (d.writeBack (k / 8) (pa / 64)).modHalf (k / 8) (fun x => { x with lines := setDirty x.lines (pa / 64) false })
        else d.patrolRead k pa
      let f := f.count (pgMem k) 0x07 1
      exec (.patrolScrubLine k errs) s = .next (s.after
        (if line + 1 ≥ f.halfSize (k / 8) / 8 / 64 then (f.setReg (pgMem k) 0x138 0).count (pgMem k) 0x09 1
         else f.setReg (pgMem k) 0x138 (BitVec.ofNat 64 (line + 1)))))
  ∧ (∀ (s : State) (c i : Nat), let d := s.quiet
      c < 8 → d.up = true → d.running (c / 4) = true → d.present (pgCore c) = true → i < 0x2800000 / 64 → d.regb pgSys 0x450 0 = true →
      exec (.sramScrubWord 0 c i .clean) s = .next (s.after d)
      ∧ exec (.sramScrubWord 0 c i .corrected) s = .next (s.after (d.raise (pgCore c) 0x0603 i 0))
      ∧ exec (.sramScrubWord 0 c i .double) s = .next (s.after ((d.raise (pgCore c) 0x0604 i 0).setPoison (nearBase c + i * 64))))
  ∧ (∀ (line : List Byte) (e : List Nat), let l := symbolsIn e
      (l = [] → ∀ m, decodeLine m line e = .clean)
      ∧ (l ≠ [] → l.length ≤ 8 → (deviceOf l ≠ 15 ∨ l.length ≤ 3) → decodeLine none line e = .corrected false (deviceOf l) l.length line)
      ∧ (3 < l.length → l.length ≤ 8 → deviceOf l = 15 → decodeLine none line e = .failed)
      ∧ (∀ m, l ≠ [] → (l.filter (fun x => x / 8 != m)).length ≤ 3 →
          ∃ dev, decodeLine (some m) line e = .corrected true dev (8 + (l.filter (fun x => x / 8 != m)).length) line)
      ∧ (∀ m, (l.filter (fun x => x / 8 != m)).length > 3 → decodeLine (some m) line e = .failed))

/-- RASTER_LINE_BOUNDARY of a running raster before its last line: the line counter advances, both running halves are sent the
boundary, and the events of the new line fire (R273 to R275); after the last line the next frame starts; of a raster that does not run or is in
acquisition nothing happens. The start of
a frame advances FTS_FRAME modulo 2^48 and returns the line to 0 (R273). SCH_BOUNDARY_APPLY: the follower takes the oldest
boundary sent to it, and no other (R275). FRAME_IN: in acquisition the first edge starts the frame loaded, without advancing the
counter, and ends acquisition; later an edge further than one line from where it is due is rejected and counted; one within
starts the next frame and measures the period (R276, R277). -/
def Obligations.RasterTime : Prop :=
  (∀ s : State, let d := s.quiet
      (d.ftsActive = true → d.acquiring = false → d.ftsLine + 1 < d.rasterLines →
        exec .rasterLineBoundary s = .next (s.after (((d.setf pgFts 0x130 13 0 (d.ftsLine + 1)).sendBoundary).boundaryEvents)))
      ∧ (d.ftsActive = true → d.acquiring = false → d.rasterLines ≤ d.ftsLine + 1 → d.fsrc = false →
        exec .rasterLineBoundary s = .next (s.after ((((d.startFrame true).slewStep).sendBoundary).boundaryEvents)))
      ∧ ((d.ftsActive = false ∨ d.acquiring = true) → exec .rasterLineBoundary s = .next (s.after d)))
  ∧ (∀ d : Dev, (d.startFrame true).ftsFrame = (d.ftsFrame + 1) % 2 ^ 48 ∧ (d.startFrame true).ftsLine = 0
      ∧ (d.startFrame false).ftsFrame = d.ftsFrame ∧ (d.startFrame false).ftsLine = 0)
  ∧ (∀ (s : State) (h f l : Nat) (rest : List (Nat × Nat)), (s.quiet.half h).schQueue = (f, l) :: rest →
      exec (.schBoundaryApply h) s = .next (s.after
        ((s.quiet.modHalf h (fun x => { x with schQueue := rest })).applyBoundary h f l)))
  ∧ (∀ (s : State) (rising : Bool) (a : Nat), let d := s.quiet
      let due := d.fts.lastEdge + (if d.fts.edges ≥ 2 then d.fts.period else d.framePeriod)
      d.ftsActive = true → d.fsrc = true → rising ≠ d.regb pgFts 0x100 5 →
      (d.acquiring = true → exec (.frameInEdge rising a) s = .next (s.after
        (((((d.setb pgFts 0x138 5 false).modFts (fun f => { f with edges := 1, lastEdge := a, period := 0, missed := 0 })).startFrame false).edgeBoundary))))
      ∧ (d.acquiring = false → (if a ≥ due then a - due else due - a) > d.lineLength →
        exec (.frameInEdge rising a) s = .next (s.after (d.count pgFts 0x02 1)))
      ∧ (d.acquiring = false → (if a ≥ due then a - due else due - a) ≤ d.lineLength →
        let e := d.modFts (fun f => { f with edges := f.edges + 1, period := a - f.lastEdge, lastEdge := a, missed := 0 })
        exec (.frameInEdge rising a) s = .next (s.after
          (((if e.slewing then ((e.setb pgFts 0x138 2 false).setReg pgFts 0x140 0).setIsr pgFts 2 else e).startFrame true).edgeBoundary))))

/-- A source in use that is lost puts FTS in holdover, counts, and raises REF_LOST with the source in [31:29]; PPS_IN is stamped
and REF_IN marked present, and with TSRC selecting them they discipline FTS_INC within 200 ppm; PTP event messages are stamped,
and those of the client's domain and delay mechanism discipline FTS_INC with TSRC 1 (R271, R272, R278, R582). A lost source that has returned leaves holdover when no other is lost, sets RELOCKED and the phase,
and begins to slew (R280). FTS_TIME steps station time and leaves the raster; FTS_CTRL with TSRC 5, 6 or 7 leaves TSRC and sets
TSRC_BAD, and with 0 to 4 takes it and clears TSRC_BAD (R270, R271). -/
def Obligations.TimeSourcesAndHoldover : Prop :=
  (∀ s : State, let d := s.quiet
      (∀ src, d.up = true → d.sourceUsed src = true → d.fts.lost.contains src = false →
        exec (.sourceLoss src) s = .next (s.after
          (let e := d.modFts (fun f => { f with lost := lineAdd f.lost src, refOk := if src = 3 ∨ src = 4 then false else f.refOk })
           (((e.setb pgFts 0x138 1 true).count pgFts 0x03 1).raise pgFts 0x0402 (src * 2 ^ 29) 0).freshLocked)))
      ∧ (∀ a, d.up = true → d.tsrc ≠ 2 → exec (.ppsInEdge a) s = .next (s.after (d.modFts (fun f => { f with ppsNs := a }))))
      ∧ (∀ a, d.up = true → d.tsrc = 2 → exec (.ppsInEdge a) s = .next (s.after ((d.modFts (fun f => { f with ppsNs := a })).discipline)))
      ∧ (d.up = true → d.tsrc ≠ 3 → d.tsrc ≠ 4 → exec .refInEdge s = .next (s.after (d.modFts (fun f => { f with refOk := true }))))
      ∧ (d.up = true → (d.tsrc = 3 ∨ d.tsrc = 4) → exec .refInEdge s = .next (s.after ((d.modFts (fun f => { f with refOk := true })).discipline)))
      ∧ (∀ m p, d.up = true → p < 2 →
        let e := d.modFts (fun f => { f with ptpStamp := d.ftsTime })
        (e.ptpTakes m = false → exec (.ptpEventMessage m p) s = .next (s.after e))
        ∧ (e.ptpTakes m = true → m.rate = none →
            exec (.ptpEventMessage m p) s = .next (s.after (if e.tsrc = 1 then e.discipline else e))))
      ∧ (d.regb pgFts 0x138 1 = false → 0x400000000 - 3435973 ≤ (d.discipline.reg pgFts 0x120).toNat
          ∧ (d.discipline.reg pgFts 0x120).toNat ≤ 0x400000000 + 3435973))
  ∧ (∀ (s : State) (src : SourceCode) (phase : Int), s.quiet.up = true → s.quiet.fts.lost = [src] → (phase ≤ -4 ∨ 4 ≤ phase) →
      ∃ u, exec (.relockStart src phase true) s = .next u ∧ u.dev.fts.lost = [] ∧ u.dev.regb pgFts 0x138 1 = false
        ∧ u.dev.regb pgFts 0x138 2 = true ∧ u.dev.reg pgFts 0x140 = BitVec.ofInt 64 phase ∧ u.dev.regb pgFts 0x020 1 = true
        ∧ u.dev.mem = s.dev.mem)
  ∧ (∀ (s : State) (w : Wr), let d := s.quiet
      (d.mayWrite w.agent pgFts 0x118 = true →
        ∃ u, exec (.ftsTimeWrite w) s = .next u ∧ u.dev.reg pgFts 0x118 = d.merged pgFts 0x118 w ∧ u.dev.fts.frac = 0
          ∧ u.dev.reg pgFts 0x128 = d.reg pgFts 0x128 ∧ u.dev.reg pgFts 0x130 = d.reg pgFts 0x130)
      ∧ (d.mayWrite w.agent pgFts 0x100 = true → 5 ≤ (d.merged pgFts 0x100 w).field 2 0 →
          (d.merged pgFts 0x100 w).bit 6 = d.ftsRun →
        ∃ u, exec (.ftsCtrlWrite w) s = .next u ∧ u.dev.tsrc = d.tsrc ∧ u.dev.regb pgFts 0x138 6 = true)
      ∧ (d.mayWrite w.agent pgFts 0x100 = true → (d.merged pgFts 0x100 w).field 2 0 ≤ 4 →
          (d.merged pgFts 0x100 w).bit 6 = d.ftsRun →
        ∃ u, exec (.ftsCtrlWrite w) s = .next u ∧ u.dev.tsrc = (d.merged pgFts 0x100 w).field 2 0 ∧ u.dev.regb pgFts 0x138 6 = false))

/-- The roots that a finished job has computed stand ready where they are still the slice's newest (R307). -/
def rootsComputed (u : Upd) (j : RootJob) : List (Nat × (Nat × Bool)) :=
  if j.now then u.newRoots
  else match KV.find? u.newRoots j.slice with
    | some (t, _) => if t = j.step then KV.set u.newRoots j.slice (t, true) else u.newRoots
    | none => u.newRoots

/-- The engine's transaction: the slice at the head of the queue whose copy writes are done stands as the update whose commit is
due; a slice that meets a value that is not finite ends SKIPPED, and one that meets a fault or poisoned control data FAULT
(R304, R312, R318, R319). The commit: the version word takes the new SEL and the step, the entry becomes DONE, the done word
advances, and a step that is a multiple of N queues a root job (R307, R312). A root job begins when no update has work for the
multiply array; when it is done the slice's roots are computed, and it counts; one that meets a fault ends its slice FAULT
(R307, R319). The scan of the step record ends with every open entry resolved, and waiting arrivals enter (R317). -/
def Obligations.UpdateEngine : Prop :=
  (∀ (s : State) (h : Nat) (a : Arrival) (rest : List Arrival), let d := s.quiet
      let r := runU (d.modUpd h (fun u => { u with arrivals := rest })) (updateSlice h a)
      d.canStart h = true → (d.upd h).arrivals = a :: rest → r.1 ≠ .error .stall →
      exec (.sliceUpdateStart h) s = .next (s.after
        (match r.1 with
         | .ok n => r.2.modUpd h (fun u => { u with current := some { slice := a.slice, step := a.step, newRoots := n } })
         | .error .nonfinite => (r.2.endSkipped h a.slice a.step).refill h
         | .error e => (r.2.endFault h a.slice a.step e).refill h)))
  ∧ (∀ (s : State) (h : Nat) (c : Update) (e : Slice) (sel : Nat), let d := s.quiet
      let r := runU d (commitWord h c)
      (d.upd h).current = some c → d.updLive h = true → (d.upd h).loaded = true → r.1 = .ok (e, sel) →
      exec (.sliceCommit h) s = .next (s.after
        (((((r.2.srecWrite h c.slice 3 c.step).count (pgUpd h) 0x01 1).doneAdd h c.slice).modUpd h (fun u =>
          let nr := if c.newRoots then KV.erase u.newRoots c.slice else u.newRoots
          let due := c.step % e.n = 0
          { u with current := none,
                   newRoots := if due then KV.set nr c.slice (c.step, false) else nr,
                   rootQueue := if due then u.rootQueue ++ [{ slice := c.slice, step := c.step, copy := sel, now := false }] else u.rootQueue })).refill h)))
  ∧ (∀ (s : State) (h : Nat), let d := s.quiet
      (∀ j rest, (d.upd h).rootQueue = j :: rest → d.updReady h = true → (d.upd h).rootRun = none → (d.upd h).current = none → d.canStart h = false →
        exec (.rootJobStart h) s = .next (s.after (d.modUpd h (fun u => { u with rootQueue := rest, rootRun := some j }))))
      ∧ (∀ j, (d.upd h).rootRun = some j → d.updReady h = true → (runU d (rootSlice h j)).1 ≠ .error .stall →
        exec (.rootJobDone h) s = .next (s.after
          (let r := runU d (rootSlice h j)
           match r.1 with
           | .ok _ => (r.2.modUpd h (fun u => { u with rootRun := none, newRoots := rootsComputed u j })).count (pgUpd h) 0x07 1
           | .error e =>
             (r.2.modUpd h (fun u =>
               { u with rootRun := none, newRoots := (if j.now then u.newRoots else KV.erase u.newRoots j.slice) })).endFault h j.slice j.step e)))
      ∧ (d.scanning h = true → d.updLive h = true →
        exec (.updScanComplete h) s = .next (s.after
          ((((checkAll false d h).setb (pgUpd h) 0x138 22 false).setIsr (pgUpd h) 4).refill h))))

/-- SYS_RNG_CLR.GO by a secure agent frees every entry of the key registry; TBL_CTRL is taken only while no TABLE runs, and
its W_FMT only with INT2, INT4 or INT8 (R324, R335). -/
def Obligations.KeysAndTables : Prop :=
  ∀ (s : State) (w : Wr) (c : Nat), let d := s.quiet
    (d.mayWrite w.agent pgSys 0x508 = true → wrHit w 0 = true → exec (.keyRegistryClear w) s = .next (s.after { d with keys := [] }))
    ∧ ((d.mayWrite w.agent pgSys 0x508 && wrHit w 0) = false → exec (.keyRegistryClear w) s = .next (s.after d))
    ∧ (c < 8 → d.mayWrite w.agent (pgTbl c) 0x100 = true → (d.core c).tableBusy = false →
      let v := d.merged (pgTbl c) 0x100 w
      exec (.tblCtrlWrite c w) s = .next (s.after (d.setReg (pgTbl c) 0x100 (BitVec.ofNat 64
        ((if v.field 5 0 = 0x10 ∨ v.field 5 0 = 0x11 ∨ v.field 5 0 = 0x13 then v.field 5 0 else d.regf (pgTbl c) 0x100 5 0)
          + v.field 9 6 * 64)))))
    ∧ ((d.core c).tableBusy = true → exec (.tblCtrlWrite c w) s = .next (s.after d))

/-- Fabric links: an UP link that fails trains again from the lanes it had; training that succeeds at a listed width not below
MIN_WIDTH, and not before the one being tried, brings the port UP at that width and sends HELLO; a DOWN port starts again at width 4, and so does one that RETRAIN is
written to, or whose MODE takes another enabled mode (R356 to R358, R459). -/
def Obligations.LinkStates : Prop :=
  ∀ (s : State) (n : Nat), let d := s.quiet
    (d.portLive n = true → d.portState n = 2 →
      exec (.linkFailure n) s = .next (s.after ((d.train n (widthIndex (d.regf (pgFab n) 0x108 8 5))).setIsr (pgFab n) 0)))
    ∧ (d.portLive n = true → d.portState n = 3 → exec (.linkRetryTimer n) s = .next (s.after (d.train n 0)))
    ∧ (∀ wd m, d.portLive n = true → d.portState n = 1 → (wd, m) ∈ widthList → d.minWidth n ≤ wd →
      ((d.port n).attempt ≤ widthIndex m → ((d.port n).width = 0 ∨ (d.port n).width = wd) →
        exec (.linkUp n wd m) s = .next (s.after
          (let e := ((d.modPort n (fun p => { p with width := wd, attempt := widthIndex m, fails := 0 })).setPortState n 2 wd m).setIsr (pgFab n) 2
           (if e.unitLive (n / 8) then e.sendHello n else e).drainCtl)))
      ∧ (widthIndex m < (d.port n).attempt → exec (.linkUp n wd m) s = .next (s.after d)))
    ∧ (∀ w, d.portPresent n = true → d.mayWrite w.agent (pgFab n) 0x100 = true → wrHit w 5 = true →
        ((d.plainWrite (pgFab n) 0x100 w).merged (pgFab n) 0x100 w).field 1 0 = (d.plainWrite (pgFab n) 0x100 w).regf (pgFab n) 0x100 1 0 →
        (d.plainWrite (pgFab n) 0x100 w).regf (pgFab n) 0x100 1 0 ≠ 0 →
      exec (.fabRetrain n w) s = .next (s.after ((d.plainWrite (pgFab n) 0x100 w).train n 0)))
    ∧ (∀ w m, d.portPresent n = true → d.mayWrite w.agent (pgFab n) 0x100 = true → wrHit w 5 = false →
        ((d.plainWrite (pgFab n) 0x100 w).merged (pgFab n) 0x100 w).field 1 0 = m → d.modeEnabled m = true → m ≠ 0 →
        m ≠ (d.plainWrite (pgFab n) 0x100 w).regf (pgFab n) 0x100 1 0 → (d.plainWrite (pgFab n) 0x100 w).modeEnabled m = true →
      exec (.fabModeWrite n w) s = .next (s.after (((d.plainWrite (pgFab n) 0x100 w).setf (pgFab n) 0x100 1 0 m).train n 0)))

/-- The first queued DATA frame of a flow leaves when the flow has credit, the peer is present and a port of its route takes it:
it carries the next PSN, stands unacknowledged with one transmission, and one unit of credit is spent (R369, R374). Timers of
the transport: the receiver's ACK of what is not yet acknowledged; a retransmission, which waits where no port takes it, and after eight transmissions an absent
peer; 4 ms of silence from a peer with an open operation; and a KEEPALIVE after 1 ms (R369, R371, R373). -/
def Obligations.TransportSends : Prop :=
  (∀ (s : State) (h dst chan : Nat) (t : TxFrame) (r : Dev), let d := s.quiet
      (d.ni h).txq.find? (fun t => t.frame.dst == dst && t.frame.chan == chan && !t.dead) = some t →
      d.niLive h = true → d.devIdValid = true → (d.peer dst).absent = false → d.flowCredit h dst chan ≠ 0 →
      let f := { t.frame with psn := (d.peer dst).txPsn, src := d.devId }
      d.sendTo h (pickOf f t.lane) f = (r, true) →
      exec (.dataFrameSend h dst chan) s = .next (s.after
        (let e := r.modNi h (fun x => { x with txq := x.txq.erase t, unacked := x.unacked ++ [{ t with frame := f, count := 1 }] })
         let e := (e.modPeer dst (fun p => { p with txPsn := (p.txPsn + 1) % 2 ^ 32 })).setCredit dst chan (d.flowCredit h dst chan - 1)
         let e := e.startPace dst
         if f.first && e.mayRecord (e.taskSecure t.core t.ctx) then e.traceAft h 0x10 f dst t.frames else e)))
  ∧ (∀ (s : State) (h dst : Nat), let d := s.quiet
      d.niLive h = true →
      (d.devIdValid = true → (d.peer dst).toAck ≠ 0 → exec (.ackTimer h dst) s = .next (s.after (d.sendAck h dst)))
      ∧ (∀ psn t, (d.ni h).unacked.find? (fun t => t.frame.dst == dst && t.frame.psn == psn && !t.dead) = some t → t.count < 8 → d.devIdValid = true →
        (∀ e, d.takeFree.1.sendTo h d.takeFree.2.toNat t.frame = (e, true) → exec (.retransmitTimeout h dst psn) s = .next (s.after
          ((e.modNi h (fun x => { x with unacked := x.unacked.map (fun u => if u = t then { u with count := u.count + 1 } else u) })).count
            (pgNi h) 0x20 1)))
        ∧ (∀ e, d.takeFree.1.sendTo h d.takeFree.2.toNat t.frame = (e, false) → exec (.retransmitTimeout h dst psn) s = .next (s.after e)))
      ∧ (∀ psn t, (d.ni h).unacked.find? (fun t => t.frame.dst == dst && t.frame.psn == psn && !t.dead) = some t → 8 ≤ t.count →
        exec (.retransmitTimeout h dst psn) s = .next (s.after (d.makeAbsent h dst)))
      ∧ (d.openWith h dst = true → (d.peer dst).absent = false →
        exec (.peerSilenceTimeout h dst) s = .next (s.after (d.makeAbsent h dst))
        ∧ (d.devIdValid = true → exec (.keepaliveTimer h dst) s = .next (s.after (d.sendCtl h (d.blankFrame 5 dst))))))

/-- A received transport frame for this device, in its turn on the link and with its checks passed, reaches its interface: DATA
is accepted, performed or held; ACK, NAK and CREDIT act on the sender's side; KEEPALIVE has no further effect (R360, R368 to
R374). DATA frames are accepted once: one that was accepted already is counted as a duplicate and acknowledged again, one too
far ahead is dropped (R368). Frames of the link itself and of others: HELLO and other MGMT frames inform firmware; LLR_NAK
replays the link from the expected LSEQ in order, LLR_ACK releases what it names; a frame lost on a link with retry is reported;
PAUSE is counted and discarded; and a frame for another device is relayed (R359, R365, R372, R459). -/
def Obligations.FrameReception : Prop :=
  (∀ (s : State) (n : Nat) (p : Packet) (f : Frame) (d : Dev), receive s.quiet n p = (d, some f) → d.devIdValid = true → f.dst = d.devId →
      p.fcsOk = true → (d.peer f.src).absent = false → d.niLive (n / 8) = true →
      let g := { f with ecn := p.ecn f }
      (f.type = 0 → exec (.aftDataReceive n p) s = .next (s.after (dataIn d (n / 8) g)))
      ∧ (f.type = 1 → exec (.aftAckReceive n p) s = .next (s.after (ackIn d (n / 8) g)))
      ∧ (f.type = 2 → exec (.aftNakReceive n p) s = .next (s.after (nakIn d g)))
      ∧ (f.type = 3 → exec (.aftCreditReceive n p) s = .next (s.after (d.addCredit (n / 8) f.src f.chan f.aux)))
      ∧ (f.type = 5 → exec (.aftKeepaliveReceive n p) s = .next (s.after d)))
  ∧ (∀ (d : Dev) (h : Nat) (f : Frame), f.coll = false →
      (((f.psn + 2 ^ 32 - (d.peer f.src).rxNext) % 2 ^ 32 ≥ 2 ^ 31 ∨ f.psn ∈ (d.peer f.src).rxSet) →
        dataIn d h f = (d.count (pgNi h) 0x21 1).sendAck h f.src)
      ∧ ((f.psn + 2 ^ 32 - (d.peer f.src).rxNext) % 2 ^ 32 < 2 ^ 31 → f.psn ∉ (d.peer f.src).rxSet →
        4096 ≤ (f.psn + 2 ^ 32 - (d.peer f.src).rxNext) % 2 ^ 32 → dataIn d h f = d))
  ∧ (∀ (s : State) (n : Nat) (p : Packet) (f : Frame) (d : Dev), receive s.quiet n p = (d, some f) →
      (p.fcsOk = true → f.type = 6 → exec (.aftMgmtReceive n p) s = .next (s.after (mgmtIn d n f)))
      ∧ (p.fcsOk = true → f.type = 8 → d.llrOn n = true → (d.port n).replay.dropWhile (fun g => g.1 != f.lseq) ≠ [] →
        exec (.llrNakReceive n p) s = .next (s.after
          (let rest := (d.port n).replay.dropWhile (fun g => g.1 != f.lseq)
           rest.foldl (fun d g => (d.count (pgFab n) 0x01 1).emit (.frame n g.2))
             ((d.modPort n (fun p => { p with replay := rest })).count (pgFab n) 0x05 1))))
      ∧ (p.fcsOk = true → f.type = 7 → exec (.llrAckReceive n p) s = .next (s.after
          (d.modPort n (fun p => { p with replay := p.replay.filter (fun g => decide ((g.1 + 65536 - f.lseq) % 65536 < 32768)) }))))
      ∧ (f.type ≠ 6 → f.isLlr = false → d.devIdValid = true → f.dst ≠ d.devId →
        exec (.frameRelay n p) s = .next (s.after (relay d n p f))))
  ∧ (∀ (s : State) (n : Nat), s.quiet.portUp n = true →
      exec (.pauseFrameReceive n) s = .next (s.after (s.quiet.count (pgFab n) 0x08 1))
      ∧ (∀ l, let e := s.quiet.count (pgFab n) 0x04 (if l = .fec then 1 else 0)
          exec (.fcsError n l) s = .next (s.after (if e.llrOn n then
            (e.modPort n (fun p => { p with awaiting := true, skipped := 0 })).sendLlr n 8 (e.port n).rxLseq else e))))

/-- The pacing rate after a window (R376): cut by at most half where more than HI of the frames came back marked, held between
LO and HI, raised where at most LO did; never above the line rate, and after a cut not below RMIN where the line allows it.
RATE_CONTROL_WINDOW applies the rule of R376 to the destination's pacing, with the line rate of its route and the fields of
FAB_NI_RC, and counts a cut. FAB_PEER_CLR ends a peer's absence; SYS_ROUTE_INV.GO stands until the interfaces have dropped the
entries it names (R363, R373). -/
def Obligations.RateControl : Prop :=
  (∀ (p : Pace) (line hi lo ai rmin : Nat), p.marks ≤ p.acked → lo ≤ hi →
      (nextPace p line hi lo ai rmin).1.rate ≤ line
      ∧ (nextPace p line hi lo ai rmin).1.marks = 0 ∧ (nextPace p line hi lo ai rmin).1.acked = 0
      ∧ (p.acked ≠ 0 → p.marks * 256 > hi * p.acked →
          (nextPace p line hi lo ai rmin).2 = true ∧ min (rmin * 256) line ≤ (nextPace p line hi lo ai rmin).1.rate
          ∧ min (p.rate / 2) line ≤ (nextPace p line hi lo ai rmin).1.rate)
      ∧ (p.acked ≠ 0 → p.marks * 256 ≤ hi * p.acked → lo * p.acked < p.marks * 256 → (nextPace p line hi lo ai rmin).1.rate = min p.rate line)
      ∧ (p.acked ≠ 0 → p.marks * 256 ≤ lo * p.acked → min p.rate line ≤ (nextPace p line hi lo ai rmin).1.rate))
  ∧ (∀ (s : State) (h dst : Nat), s.quiet.niLive h = true → (s.quiet.peer dst).pace.isSome = true →
      exec (.rateControlWindow h dst) s = .next (s.after
        (let d := s.quiet
         let f := fun (hi lo : Nat) => d.regf (pgNi h) 0x810 hi lo
         let r := nextPace (d.paceOf dst) (d.lineRate dst) (f 15 8) (f 23 16) (f 47 32) (f 63 48)
         (d.setPace dst r.1).count (pgNi h) 0x24 (if r.2 then 1 else 0))))
  ∧ (∀ (s : State) (w : Wr), let d := s.quiet
      (d.mayWrite w.agent pgSys 0x618 = true → d.regb pgSys 0x618 63 = false →
        let e := d.setReg pgSys 0x618 (BitVec.ofNat 64 ((d.merged pgSys 0x618 w).field 13 0 + (if (d.merged pgSys 0x618 w).bit 15 then 2 ^ 15 else 0)))
        exec (.routeInvalidate w) s = .next (s.after (if wrHit w 63 then e.setb pgSys 0x618 63 true else e)))
      ∧ (d.up = true → d.regb pgSys 0x618 63 = true →
        ∃ u, exec .routeInvDone s = .next u ∧ u.dev.regb pgSys 0x618 63 = false
          ∧ (d.regb pgSys 0x618 15 = true → ∀ h, h < 2 → (u.dev.ni h).routes = [])
          ∧ (d.regb pgSys 0x618 15 = false → ∀ h, h < 2 → (u.dev.ni h).routes = KV.erase (d.ni h).routes (d.regf pgSys 0x618 13 0)))
      ∧ (∀ h, h < 2 → d.mayWrite w.agent (pgNi h) 0x820 = true → w.lo = true →
        ∃ u, exec (.peerClear h w) s = .next u ∧ (u.dev.peer ((wrBits w).field 13 0)).absent = false
          ∧ (u.dev.peer ((wrBits w).field 13 0)).txPsn = 0 ∧ (u.dev.peer ((wrBits w).field 13 0)).rxNext = 0
          ∧ (∀ p, p ≠ (wrBits w).field 13 0 → u.dev.peer p = d.peer p) ∧ u.dev.mem = d.mem ∧ u.dev.regs = d.regs))

/-- MEM_CTRL.GO with a present, running, online channel sets BUSY and puts every such channel in TRAINING; while BUSY, or
without GO, no channel changes state (R402, R425). The end of a channel's training: EMPTY without a module; FAILED with
MODULE_REFUSED where the module is not built as R396 asks, cannot run the rate or is not of the kind that the rate needs; READY
after a restore whose record holds, with nothing lost, or after full training; else FAILED (R396, R402 to R405). A channel goes
offline when its module stops, when MEM_CTRL.OFFLINE is written, or when a command fails its CA parity check a ninth time; each
failure before counts as a retry (R423). -/
def Obligations.MemoryTraining : Prop :=
  (∀ (s : State) (w : Wr), let d := s.quiet
      d.mayWrite w.agent pgSys 0x440 = true →
      (∀ k, k < 16 → wrHit w 8 = true → d.regb pgSys 0x448 0 = false → d.chanLive k = true → d.chanOffline k = false →
        ∃ u, exec (.memTrainingStart w) s = .next u ∧ u.dev.regb pgSys 0x448 0 = true ∧ u.dev.mem = d.mem
          ∧ ∀ j, j < 16 → d.chanLive j = true → d.chanOffline j = false → u.dev.chanState j = 1)
      ∧ ((wrHit w 8 = false ∨ d.regb pgSys 0x448 0 = true) →
        ∃ u, exec (.memTrainingStart w) s = .next u ∧ u.dev.mem = d.mem ∧ ∀ j, j < 16 → u.dev.chanState j = d.chanState j))
  ∧ (∀ (s : State) (k : Nat) (r : TrainResult), let d := s.quiet
      d.chanLive k = true → d.chanState k = 1 → r.size ≤ 2 → r.kind ≤ 2 →
      (r.kind = 0 → ∃ u, exec (.channelTrainingDone k r) s = .next u ∧ u.dev.chanState k = 0)
      ∧ (r.kind ≠ 0 → (moduleFits r = false ∨ moduleRateFits r (d.regf pgSys 0x440 1 0) = false) →
        ∃ u, exec (.channelTrainingDone k r) s = .next u ∧ u.dev.chanState k = 3 ∧ u.dev.regb (pgMem k) 0x020 5 = true)
      ∧ (r.kind ≠ 0 → moduleFits r = true → moduleRateFits r (d.regf pgSys 0x440 1 0) = true → (d.chan k).restore = true →
        (d.setReg (pgMem k) 0x110 (BitVec.ofNat 64 (r.serial % 2 ^ 32 + r.spdCrc % 2 ^ 16 * 2 ^ 32))).restoreOk k r = true →
        ∃ u, exec (.channelTrainingDone k r) s = .next u ∧ u.dev.chanState k = 2 ∧ u.dev.regb (pgMem k) 0x108 3 = true)
      ∧ (r.kind ≠ 0 → moduleFits r = true → moduleRateFits r (d.regf pgSys 0x440 1 0) = true → (d.chan k).restore = false →
        (r.trained = true → ∃ u, exec (.channelTrainingDone k r) s = .next u ∧ u.dev.chanState k = 2 ∧ u.dev.regb (pgMem k) 0x108 3 = false)
        ∧ (r.trained = false → ∃ u, exec (.channelTrainingDone k r) s = .next u ∧ u.dev.chanState k = 3 ∧ u.dev.regb (pgMem k) 0x020 4 = true)))
  ∧ (∀ (s : State) (k : Nat) (w : Wr), let d := s.quiet
      d.chanLive k = true → d.chanOffline k = false →
      exec (.moduleOffline k true w) s = .next (s.after (d.setOffline k))
      ∧ (d.mayWrite w.agent (pgMem k) 0x100 = true → wrHit w 0 = true → exec (.moduleOffline k false w) s = .next (s.after (d.setOffline k)))
      ∧ (d.setOffline k).regf (pgMem k) 0x108 2 0 = 4
      ∧ ((d.chan k).retries < 8 → exec (.caParityError k) s = .next (s.after
          ((d.modChan k (fun c => { c with retries := c.retries + 1 })).count (pgMem k) 0x0A 1)))
      ∧ (8 ≤ (d.chan k).retries → exec (.caParityError k) s = .next (s.after
          ((d.modChan k (fun c => { c with retries := 0 })).setOffline k))))

/-- A drawbar flit that is in order and passes its CRC is taken and counted; one that fails is asked for again with LINK_CRC,
until it has failed REPLAY_MAX times, when the link goes DOWN (R420, R421). Keepalives and flits of the UCIe links count (R422).
HALF_ISOLATION: the half is isolated, its far store holds no dirty line, and its bit of PMU_FAULT is set (R523). -/
def Obligations.DieToDieLinks : Prop :=
  (∀ (s : State) (dir seq h : Nat), let d := s.quiet
      let x := KV.get { expect := 0, fails := 0 } d.flits dir
      let limit := max 1 (d.regf pgDbw 0x108 7 0)
      (d.up = true → dir ≤ 1 → d.regb pgDbw 0x100 0 = true → d.regb pgDbw 0x100 1 = false → seq % 2 ^ 16 = x.expect →
        exec (.drawbarFlitReceive dir seq false true) s = .next (s.after
          ({ d with flits := KV.set d.flits dir { expect := (x.expect + 1) % 2 ^ 16, fails := 0 } }.count pgDbw (1 + dir) 1))
        ∧ (x.fails < limit → exec (.drawbarFlitReceive dir seq false false) s = .next (s.after
          (({ d with flits := KV.set d.flits dir { x with fails := x.fails + 1 } }.count pgDbw 0x04 1).raise pgDbw 0x0605 (dir * 2 ^ 31 + x.expect) 0)))
        ∧ (limit ≤ x.fails → exec (.drawbarFlitReceive dir seq false false) s = .next (s.after
          ((({ d with flits := KV.set d.flits dir { x with fails := 0 } }.setReg pgDbw 0x100 2).raise pgDbw 0x0605
            (dir * 2 ^ 31 + 2 ^ 30 + x.expect) 0).setIsr pgDbw 1))))
      ∧ (d.uciUp h = true →
        exec (.ucieKeepaliveSend h) s = .next (s.after (d.count (pgUci h) 0x03 1))
        ∧ exec (.ucieFlitReceive h true) s = .next (s.after (d.count (pgUci h) 0x04 1))
        ∧ exec (.ucieFlitReceive h false) s = .next (s.after ((d.count (pgUci h) 0x01 1).count (pgUci h) 0x02 1))))
  ∧ (∀ (s : State) (h : Nat), s.quiet.running h = true → (s.quiet.half h).isolated = false →
      ∃ u, exec (.halfIsolation h) s = .next u ∧ (u.dev.half h).isolated = true
        ∧ (∀ f ∈ (u.dev.half h).lines, f.dirty = false) ∧ u.dev.regb pgPmu 0x158 (5 + h) = true)

/-- GO by the sender of an enabled, empty channel posts the message: GO reads 1, SEQ advances, and the receiver's doorbell bit
sets. GO on a full channel is rejected with MBX_FULL (R445, R446). TAKE by the receiver clears GO, and the next reply held for
the channel goes out; the sender writes data words and LEN only while GO is 0; and a channel takes a configuration only while GO
is 0 and only with agents that it may name (R443 to R447). -/
def Obligations.Mailboxes : Prop :=
  (∀ (s : State) (g : Agent) (c : Nat), let d := s.quiet
      d.mbxMay g c (d.mbxSender c) = true →
      (d.mbxGoBit c = false → d.regb (pgMbx 0) (0x200 + 8 * c) 15 = true →
        ∃ u, exec (.mbxGo g c) s = .next u ∧ u.dev.mbxGoBit c = true
          ∧ u.dev.regf (mbxPage c) (mbxBase c + 0x60) 23 16 = (d.regf (mbxPage c) (mbxBase c + 0x60) 23 16 + 1) % 256
          ∧ u.dev.regb (pgMbx 0) (0x100 + 16 * d.mbxReceiver c) (d.regf (pgMbx 0) (0x200 + 8 * c) 12 8) = true ∧ u.dev.mem = d.mem)
      ∧ (d.mbxGoBit c = false → d.regb (pgMbx 0) (0x200 + 8 * c) 15 = false → exec (.mbxGo g c) s = .next (s.after d))
      ∧ (d.mbxGoBit c = true → exec (.mbxGo g c) s = .next (s.after
          ((d.count (mbxPage c) 0x04 1).raise (mbxPage c) 0x0801 (d.mbxSender c * 4096 + c) 0))))
  ∧ (∀ (s : State) (g : Agent) (c : Nat) (w : Wr), let d := s.quiet
      (d.mbxMay g c (d.mbxReceiver c) = true → d.mbxGoBit c = true →
        exec (.mbxTake g c) s = .next (s.after (((d.setGo c false).count (mbxPage c) 0x02 1).fwNext c))
        ∧ (KV.get [] d.svc.heldOut c = [] → ((((d.setGo c false).count (mbxPage c) 0x02 1).fwNext c).mbxGoBit c) = false))
      ∧ (d.mbxMay g c (d.mbxSender c) = true → ∀ i, i ≤ 12 →
        (d.mbxGoBit c = true → exec (.mbxDataWrite g c i w) s = .next (s.after (d.count (mbxPage c) 0x03 1)))
        ∧ (d.mbxGoBit c = false → i < 12 → exec (.mbxDataWrite g c i w) s = .next (s.after
            (d.setReg (mbxPage c) (mbxBase c + 8 * i) (d.merged (mbxPage c) (mbxBase c + 8 * i) w))))
        ∧ (d.mbxGoBit c = false → i = 12 → exec (.mbxDataWrite g c i w) s = .next (s.after
            (d.setf (mbxPage c) (mbxBase c + 96) 11 8 ((d.merged (mbxPage c) (mbxBase c + 96) w).field 11 8)))))
      ∧ (c < 32 → d.mayWrite w.agent (pgMbx 0) (0x200 + 8 * c) = true → d.mbxGoBit c = false →
          let v := d.merged (pgMbx 0) (0x200 + 8 * c) w
          ((mbxNames c (v.field 3 0) && mbxNames c (v.field 7 4)) = true →
            exec (.mbxCfgWrite c w) s = .next (s.after (d.setReg (pgMbx 0) (0x200 + 8 * c) (v &&& 0x9FFF))))
          ∧ ((mbxNames c (v.field 3 0) && mbxNames c (v.field 7 4)) = false → exec (.mbxCfgWrite c w) s = .next (s.after d))))

/-- Requests to firmware for the fabric, the queues and telemetry: each is taken, does its work and gets a reply with the
request's header and a status (R449, R450, R459 to R461). A datagram of a secured session waits as a request; the heartbeat of
serving firmware advances (R431, R461). -/
def Obligations.FirmwareServices : Prop :=
  (∀ (s : State) (via : Via) (d : Dev) (ws : List W64),
      (s.quiet.takeRequest via 5 1 = some (d, ws) → ∀ id,
        (id < 2 ^ 14 → exec (.setDeviceId via id) s = .next (s.after ((d.putDevId (BitVec.ofNat 64 (id + 2 ^ 63))).reply via ws 0 [])))
        ∧ (2 ^ 14 ≤ id → exec (.setDeviceId via id) s = .next (s.after (d.reply via ws 1 []))))
      ∧ (s.quiet.takeRequest via 5 2 = some (d, ws) → ∀ (a n : Nat) (e : Dev) (bs : List Byte), n ≤ 16384 →
          d.rangeOk a (32 * n) inDram = true → d.rangeOk a (32 * n) fwReach = true → d.rangeReaches a (32 * n) = true →
          d.rangeOk (d.regf pgSys 0x610 47 12 * 4096) (32 * n) fwReach = true → d.load a (32 * n) = (e, bs, none) →
          e.rangeOk (d.regf pgSys 0x610 47 12 * 4096) (32 * n) fwReach = true →
          e.rangeReaches (d.regf pgSys 0x610 47 12 * 4096) (32 * n) = true →
          exec (.routeTableLoad via a n) s = .next (s.after
            ((routeInv (e.store (d.regf pgSys 0x610 47 12 * 4096) bs) (fwWrite (BitVec.ofNat 64 (2 ^ 63 + 2 ^ 15)))).reply via ws 0 [])))
      ∧ (s.quiet.takeRequest via 5 3 = some (d, ws) → ∀ (i : Nat) (v : List W64), i < 16 → v.length = 4 →
          exec (.meshEntrySet via i v) s = .next (s.after
            (((List.range 4).foldl (fun d k => d.plainWrite pgSys (0x700 + 32 * i + 8 * k) (fwWrite (wd v k))) d).reply via ws 0 [])))
      ∧ (s.quiet.takeRequest via 5 4 = some (d, ws) → ∀ p, p < 2 ^ 14 →
          exec (.absentPeerClear via p) s = .next (s.after
            ((d.engines.foldl (fun d h => peerClear d h (fwWrite (BitVec.ofNat 64 p))) d).reply via ws 0 [])))
      ∧ (s.quiet.takeRequest via 4 1 = some (d, ws) →
          exec (.queueTableQuery via) s = .next (s.after (d.reply via ws 0 [d.reg pgSys 0x430, d.reg pgSys 0x438, d.reg pgPci 0x100])))
      ∧ (s.quiet.takeRequest via 4 2 = some (d, ws) → ∀ (map : Bool) (va q a : Nat) (e : Dev), va % 65536 = 0 →
          (d.reg pgPci 0x100).toNat ≤ va → va < (d.reg pgPci 0x100).toNat + 2 ^ d.regf pgPci 0x110 5 0 → q < 65536 →
          d.corePresent (q / 8192) = true → (tableEntryOf va).run.run d = (.ok a, e) → e.rangeOk a 8 fwReach = true →
          e.rangeReaches a 8 = true →
          exec (.queueTableMap via map va q) s = .next (s.after
            (let f := e.storeWord a (if map then BitVec.ofNat 64 (d.queueEntry q / 65536 * 65536 + 7) else 0)
             { f with tlbs := f.tlbs.filter (fun t => t.1 % 2 ^ 32 != va / 65536),
                      ptSeen := KV.erase f.ptSeen (va / 65536) }.reply via ws 0 [])))
      ∧ (s.quiet.takeRequest via 6 1 = some (d, ws) →
          exec (.telemetryEnable via) s = .next (s.after ({ d with svc := { d.svc with telemetry := true } }.reply via ws 0 []))))
  ∧ (∀ (s : State), let d := s.quiet
      (∀ (port session : Nat) (words : List W64), d.up = true → d.sec.booted = true → port < 2 →
        d.sec.sessions.contains (.mgmtPort, session) = true → words.length = 12 →
        exec (.mgmtDatagram port session true words) s = .next (s.after { d with svc := { d.svc with mgmtReq := d.svc.mgmtReq ++ [words] } }))
      ∧ (d.serving = true → d.svc.telemetry = false →
        exec .fwAliveTick s = .next (s.after (d.setReg pgSys 0x900 (BitVec.ofNat 64 ((d.regf pgSys 0x900 62 0 + 1) % 2 ^ 63))))))

/-- An ingest request that is taken and holds opens in the lowest free slot, one that does not hold gets its status, and with no
slot free the status is BUSY; a running ingest that ends OK, and whose accesses complete, writes every kept frame, advances DONE
and replies with the count (R452 to R455). A checkpoint is refused unless every engine is pinned at its step, and opens when its image fits; when it
completes, its image goes to the drive unless the drive fails, which a free value says; a restore answers what its checks and
its copying give (R456 to R458). -/
def Obligations.DriveServices : Prop :=
  (∀ (s : State) (via : Via) (d : Dev) (ws : List W64),
      (s.quiet.takeRequest via 1 1 = some (d, ws) →
        (freeSlot d.svc.ingests = none → exec (.ingest via) s = .next (s.after (d.reply via ws 2 [0, 0])))
        ∧ (∀ i, freeSlot d.svc.ingests = some i → exec (.ingest via) s = .next (s.after
            (match (parseIngest ws).run.run d with
             | (.error (some r), e) => e.reply via ws r.1 [0, r.2]
             | (.error none, e) => e
             | (.ok _, e) =>
               let q : IngestReq := { words := ws, via := via, run := false }
               { e with svc := { e.svc with ingests := e.svc.ingests ++ [(i, q)] } }.runIngests))))
      ∧ (∀ (slot : Nat) (q : IngestReq), s.quiet.svc.ingests.find? (fun x => x.1 == slot) = some (slot, q) → s.quiet.serving = true → q.run = true →
        s.quiet.doneReaches (wd q.words 10) = true →
        let e := { s.quiet with svc := { s.quiet.svc with ingests := s.quiet.svc.ingests.filter (fun x => x.1 != slot) } }
        exec (.ingestComplete slot 0) s = .next (s.after
          (match (parseIngest q.words).run.run e with
           | (.error none, _) => s.quiet
           | (.error (some r), f) => ((f.doneWord (wd q.words 10)).reply q.via q.words r.1 [0, if r.1 = 0 then 0 else r.2]).runIngests
           | (.ok a, f) =>
             let n := (a.frames + a.stride - 1) / a.stride
             if !f.rangeReaches a.dst.base (a.dst.bytes (Fmt.codeWidth a.dst.fmt)) then s.quiet
             else (((writeFrames a f n).doneWord (wd q.words 10)).reply q.via q.words 0 [BitVec.ofNat 64 n, 0]).runIngests))))
  ∧ (∀ (s : State) (via : Via) (d : Dev) (ws : List W64),
      (s.quiet.svc.ckpt = none → s.quiet.takeRequest via 2 1 = some (d, ws) →
        (d.allPinned ((wd ws 4).field 47 0) = false → exec (.checkpoint via) s = .next (s.after (d.reply via ws 5 [0, 0])))
        ∧ (∀ n e, d.allPinned ((wd ws 4).field 47 0) = true → imageBytes.run.run d = (.ok n, e) →
            n ≤ (drivePlace ws).2.2.2 * blockSize (drivePlace ws).1 (drivePlace ws).2.1 →
            exec (.checkpoint via) s = .next (s.after
              (let k : CkptReq := { words := ws, via := via, begun := !(wd ws 5).bit 0 || e.fts.windows.any (fun w => w.checkpoint) }
               { e with svc := { e.svc with ckpt := some k } }))))
      ∧ (∀ (k : CkptReq) (img : List Byte) (e : Dev), s.quiet.svc.ckpt = some k → s.quiet.serving = true → k.begun = true →
        s.quiet.doneReaches (wd k.words 6) = true →
        (checkpointImage ((wd k.words 4).field 47 0)).run.run { s.quiet with svc := { s.quiet.svc with ckpt := none } } = (.ok img, e) →
        exec .checkpointComplete s = .next (s.after
          (let pl := drivePlace k.words
           let bs := blockSize pl.1 pl.2.1
           let f := driveFails e
           if f.2 then
             let g := f.1.takeFree
             ((g.1.driveWrite pl.1 pl.2.1 (pl.2.2.1 * bs) (img.take (g.2.toNat % (img.length + 1) / bs * bs))).doneWord (wd k.words 6)).reply
               k.via k.words 4 [0, 0]
           else ((f.1.driveWrite pl.1 pl.2.1 (pl.2.2.1 * bs) img).doneWord (wd k.words 6)).reply k.via k.words 0 [])))
      ∧ (∀ st data e, s.quiet.takeRequest via 3 1 = some (d, ws) → runS d (restoreWork ws) = (e, some (st, data)) →
        e.doneReaches (wd ws 6) = true →
        exec (.restore via) s = .next (s.after
          ((if st = 1 ∨ st = 5 then e else e.doneWord (wd ws 6)).reply via ws st data))))

/-- BAR2: a read or a write whose pages translate to DRAM or a carve-out is performed there; one that does not sets BLK_ISR, and
a read answers an abort; while firmware does not serve, a read answers ones and a write does nothing (R435, R436, R440). The
host link: a failed request to host memory, the link's rate and width, and a reset of the management controller's port, which
ends messages to it (R437, R448, R464). -/
def Obligations.HostInterface : Prop :=
  (∀ (s : State) (o n : Nat) (data : List Byte), let d := s.quiet
      (d.up = true → d.serving = false → o + n ≤ d.bar2Size →
        exec (.bar2Access false o n []) s = .next (s.after (d.emit (.bytes (List.replicate n 0xFF) false))))
      ∧ (d.up = true → d.serving = false → o + data.length ≤ d.bar2Size → exec (.bar2Access true o n data) s = .next (s.after d))
      ∧ (∀ e pa, d.up = true → d.serving = true → o + n ≤ d.bar2Size → 0 < n →
          bar2Parts false (pageChunks ((d.reg pgPci 0x100).toNat + o) n) (d.count pgPci 0x01 1) = (e, some [(pa, n)]) → e.reaches pa = true →
          ((e.load pa n).2.2 = none →
            exec (.bar2Access false o n []) s = .next (s.after ((e.load pa n).1.emit (.bytes (e.load pa n).2.1 false))))
          ∧ ((e.load pa n).2.2 ≠ none →
            exec (.bar2Access false o n []) s = .next (s.after
              (((e.load pa n).1.count pgPci 0x06 1).emit (.bytes (e.load pa n).2.1 true)))))
      ∧ (∀ e pa, d.up = true → d.serving = true → o + data.length ≤ d.bar2Size →
          bar2Parts true (pageChunks ((d.reg pgPci 0x100).toNat + o) data.length) (d.count pgPci 0x02 1) = (e, some [(pa, data.length)]) →
          e.reaches pa = true →
          exec (.bar2Access true o n data) s = .next (s.after (e.storeBy false pa data false)))
      ∧ (∀ e, d.up = true → d.serving = true → o + n ≤ d.bar2Size →
          bar2Parts false (pageChunks ((d.reg pgPci 0x100).toNat + o) n) (d.count pgPci 0x01 1) = (e, none) →
          exec (.bar2Access false o n []) s = .next (s.after (e.bar2Fault.emit .abort))))
  ∧ (∀ (s : State), let d := s.quiet
      d.up = true →
      (exec (.dmaTimeout true false) s = .next (s.after ({ d with svc := { d.svc with dmaFail := some true } }.setIsr pgPci 1)))
      ∧ (∀ b, exec (.dmaTimeout false b) s = .next (s.after
          ({ d with svc := { d.svc with dmaFail := some false } }.count pgPci (if b then 0x05 else 0x04) 1)))
      ∧ (∀ rate width, 1 ≤ rate → rate ≤ 5 → width ∈ linkWidths → exec (.pcieLinkChange rate width false) s = .next (s.after
          ((d.setReg pgPci 0x108 (BitVec.ofNat 64 (rate + width * 8))).setIsr pgPci 2)))
      ∧ (exec (.pcieLinkChange 0 0 false) s = .next (s.after ((d.setReg pgPci 0x108 0).setIsr pgPci 2)))
      ∧ (∃ u, exec .bmcSidebandReset s = .next u ∧ (∀ c, c < 32 → d.mbxReceiver c = 4 → u.dev.mbxGoBit c = false)
          ∧ (∀ c, c < 32 → d.mbxReceiver c ≠ 4 → u.dev.mbxGoBit c = d.mbxGoBit c)))

/-- The device as the boot of its security block finds it: entropy started, a nonce drawn, the serial number and the anti-rollback count
shown, the DeviceID key derived, the phase at 3 and the flash's pads at their fast slew (R489, R490, R494, R578). -/
def bootReady (d : Dev) (f : Fuses) : Dev :=
  let d := if d.regb pgSec 0x148 1 then d else d.entropyStart
  let d := (d.newNonce.setReg pgSec 0x118 f.serial).setReg pgSec 0x108 (BitVec.ofNat 64 f.arb)
  (({ d with sec := { d.sec with deviceKey := deviceKeyOf f.uds } }).setf pgSec 0x100 3 0 3).setf pgSys 0xA00 11 10 3

/-- SECURE_BOOT: the image of slot A runs if it passes the checks of R487, else that of slot B with FALLBACK set, else the
device stays at POST code F (R489, R490). Later, a new boot does nothing. Requests to the security block: an image in flash is
checked and goes to every destination named, or the reply carries the check that failed; the anti-rollback count rises to T only
where every running image is at T or above; an owner key that is a point of the curve is blown once; and RESEED starts the
entropy source again (R491 to R493, R499). A failed health test of the entropy source stops the DRBG, interrupts and counts;
SEC_RAND answers its reader (R499). -/
def Obligations.SecurityBlock : Prop :=
  (∀ s : State, let d := s.quiet
      let e := bootReady d s.fuses
      let fits := fun (n : Nat) => decide (512 + n ≤ 0x2000000)
      (d.up = true → d.regf pgSec 0x100 3 0 = 0 →
        exec .secureBoot s = .next (s.after
          (match checkImage s.fuses (e.flashBytes 0) 1 fits with
           | .ok img => (e.noteVerify (.ok img)).bootWith img
           | .error x =>
             let g := (e.noteVerify (.error x)).setb pgSec 0x100 4 true
             match checkImage s.fuses (g.flashBytes 0x2000000) 1 fits with
             | .ok img => (g.noteVerify (.ok img)).bootWith img
             | .error y => (g.noteVerify (.error y)).setf pgSys 0x908 7 4 0xF)))
      ∧ (d.regf pgSec 0x100 3 0 ≠ 0 → exec .secureBoot s = .next (s.after d)))
  ∧ (∀ (s : State) (d : Dev) (ws : List W64),
      (s.quiet.secRequest 1 = some (d, ws) → (wd ws 1).bit 63 = true → ((wd ws 2).field 7 0 = 2 ∨ (wd ws 2).field 7 0 = 3) →
        (loadTargets ((wd ws 2).field 23 8)).all (d.targetOk ((wd ws 2).field 7 0)) = true →
        exec .verifyLoad s = .next (s.after
          (let type := (wd ws 2).field 7 0
           let c := checkImage s.fuses (fun o n => d.flashBytes ((wd ws 1).field 62 0) o n) type (Config.imageFits type)
           match c with
           | .error e => (d.noteVerify c).secReply ws 0 [BitVec.ofNat 64 e]
           | .ok img =>
             (((loadTargets ((wd ws 2).field 23 8)).foldl (fun d i => if type = 2 then d.loadCcp img i else d.loadUpd img i)
               (d.noteVerify c)).showSvn).secReply ws 0 [0])))
      ∧ (s.quiet.secRequest 2 = some (d, ws) →
          let t := (wd ws 1).field 6 0
          ((∀ n ∈ d.runningSvns, t ≤ n) → s.fuses.arb < t → t ≤ 64 →
            exec .arbAdvance s = .next { s with
              dev := ((d.setReg pgSec 0x108 (BitVec.ofNat 64 t)).setIsr pgSec 2).secReply ws 0 [], fuses := { s.fuses with arb := t } })
          ∧ (((∃ n ∈ d.runningSvns, n < t) ∨ t ≤ s.fuses.arb ∨ 64 < t) → exec .arbAdvance s = .next (s.after (d.secReply ws 5 []))))
      ∧ (∀ key e, s.quiet.secRequest 3 = some (d, ws) → (pread ((wd ws 2).field 47 0) 133).run.run d = (.ok key, e) → (wd ws 1).toNat ≤ 1 →
          exec .ownerProvision s = .next
            (if !Config.p521Point key then s.after (e.secReply ws 1 [])
             else if !unblown (if (wd ws 1).toNat = 0 then s.fuses.ownerDbg else s.fuses.ownerRoot) then s.after (e.secReply ws 5 [])
             else { s with
               dev := e.secReply ws 0 [],
               fuses := if (wd ws 1).toNat = 0 then { s.fuses with ownerDbg := Config.sha512 key }
                        else { s.fuses with ownerRoot := Config.sha512 key } }))
      ∧ (s.quiet.secRequest 4 = some (d, ws) → exec .reseed s = .next (s.after (d.entropyStart.secReply ws 0 []))))
  ∧ (∀ s : State, let d := s.quiet
      d.up = true →
      (∃ u, exec .entropyHealthFail s = .next u ∧ u.dev.reg pgSec 0x148 = 2 ∧ u.dev.drbgOk = false ∧ u.dev.regb pgSec 0x020 1 = true
        ∧ u.dev.mem = d.mem)
      ∧ (∀ g, exec (.secRandRead g) s = .next (s.after
          ((d.windowLoad g 0x2150 8).1.emit (.word (BitVec.ofNat 64 (leNat (d.windowLoad g 0x2150 8).2)))))))

/-- SPDM (R497 to R500): GET_VERSION starts a connection; on a ready one an unsigned measurement block answers its bytes; a
KEY_EXCHANGE whose FINISH holds opens a session, of which a transport has at most four; END_SESSION and a timeout end it. -/
def Obligations.SpdmConnections : Prop :=
  ∀ (s : State) (t : Transport) (n : Nat), let d := s.quiet
    let e := d.count pgSec 0x03 1
    (d.up = true → d.sec.booted = true →
      exec (.spdmRequest t n .getVersion) s = .next (s.after ((e.setConn t 1).spdmOk t []))
      ∧ (∀ i bs, e.conn t ≥ 3 → 1 ≤ i → i ≤ 6 → e.measurement s.fuses i = some bs →
          exec (.spdmRequest t n (.getMeasurements i false)) s = .next (s.after (e.spdmOk t bs)))
      ∧ (∀ p, e.sec.pendingKx.find? (fun x => x.1 == t) = some p → p.2.2 = true → e.spdmSessions t < 4 →
          exec (.spdmRequest t n (.finish true)) s = .next (s.after
            (({ e with sec := { e.sec with pendingKx := e.sec.pendingKx.filter (fun x => x.1 != t),
                                           sessions := e.sec.sessions ++ [(t, p.2.1)] } }.count pgSec 0x04 1).spdmOk t [])))
      ∧ (∀ key, e.conn t ≥ 3 → (t ≠ .mgmtPort ∨ n = 0) → e.canSign = true → (t ≠ .mgmtPort ∨ unblown s.fuses.ownerRoot = false) →
          4 ≤ e.spdmSessions t → exec (.spdmRequest t n (.keyExchange key)) s = .next (s.after (e.spdmError spdmLimit)))
      ∧ (e.sec.sessions.contains (t, n) = true →
          exec (.spdmRequest t n .endSession) s = .next (s.after ((e.closeSession t n).spdmOk t []))))
    ∧ (d.up = true → exec (.spdmSessionTimeout t n) s = .next (s.after (d.closeSession t n))
        ∧ (d.closeSession t n).sec.sessions.contains (t, n) = false)

/-- The power-up sequence (R511 to R513): the always-on supply starts it with SYS and cause 1; a group's good input lets the
next group follow; a group that is not good in time, or is lost, powers the device down with its bit of PMU_FAULT; the enables
then fall one by one, MEM first; and the loss of the always-on supply drops them all. -/
def Obligations.PowerSequences : Prop :=
  ∀ (s : State) (g : Nat), let d := s.quiet
    (d.power.aux = false → ∃ u, exec .powerOnReset s = .next u ∧ u.dev.power.aux = true
      ∧ u.dev.power.enable = [true, false, false, false] ∧ u.dev.power.seq = .waitGood 0 ∧ u.dev.up = false
      ∧ u.dev.reg pgPmu 0x128 = 1 ∧ u.dev.reg pgPmu 0x158 = 0)
    ∧ (d.power.aux = true → d.groupPresent g = true → d.enableOf g = true → d.goodOf g = false → d.power.seq = .waitGood g →
        (∀ k, d.nextGroup = some k → exec (.pwrGoodRise g) s = .next (s.after
          ({ d with power := { d.power with good := d.power.good.set g true } }.setSeq (.waitNext g))))
        ∧ (d.nextGroup = none → d.pstate ≠ 3 → exec (.pwrGoodRise g) s = .next (s.after
          ({ d with power := { d.power with good := d.power.good.set g true } }.setSeq .idle))))
    ∧ (∀ k, d.power.seq = .waitNext g → d.nextGroup = some k →
        exec .pwrEnableNext s = .next (s.after ((d.setEnable k true).setSeq (.waitGood k))))
    ∧ (d.power.seq = .waitGood g → ∃ u, exec .seqTimeout s = .next u ∧ u.dev.power.seq = .down ∧ u.dev.up = false
        ∧ u.dev.regb pgPmu 0x158 7 = true)
    ∧ (d.power.aux = true → d.groupPresent g = true → d.enableOf g = true → d.goodOf g = true → d.power.seq ≠ .down →
        ∃ u, exec (.pwrGoodLoss g) s = .next u ∧ u.dev.power.seq = .down ∧ u.dev.up = false ∧ u.dev.regb pgPmu 0x158 (1 + g) = true)
    ∧ (∀ k, d.power.seq = .down → [3, 2, 1, 0].find? d.enableOf = some k →
        exec .powerDownStep s = .next (s.after (if k = 0 then (d.setEnable 0 false).setSeq .idle else d.setEnable k false)))
    ∧ (d.power.aux = true → ∃ u, exec .pwrGoodAuxLoss s = .next u ∧ u.dev.power.aux = false ∧ u.dev.up = false
        ∧ u.dev.power.enable = [false, false, false, false] ∧ u.dev.power.seq = .idle)

/-- What a device reset leaves, with its cause in PMU_RST_CAUSE (R516, R518): the device held in reset, every other register at its reset
value but those that R484 and R518 keep, no task, no queue, and every DRAM byte as it was where no far store held a dirty line. -/
def resetLeft (d u : Dev) (cause : Nat) : Prop :=
  u.power.inReset = true ∧ u.up = false ∧ u.reg pgPmu 0x128 = BitVec.ofNat 64 cause
    ∧ (∀ page off, regKey page off ∉ keptRegs → u.reg page off = regReset page off)
    ∧ u.cores = [] ∧ u.queues = [] ∧ u.upds = [] ∧ u.nis = [] ∧ u.tlbs = [] ∧ u.keys = []
    ∧ (d.dram = [] → ∀ a, a < 0x020000000000 → u.byte a = d.byte a)

/-- The resets of a powered device: SYS_RST_N, PERST_N, a hot reset and PMU_DEV_RST, with causes 2 to 5; and the device leaves
reset when no input holds it, with both ACLK counters at zero and both halves held (R514 to R516, R39). -/
def Obligations.DeviceResets : Prop :=
  ∀ (s : State) (w : Wr), let d := s.quiet
    (d.sysOn = true → d.power.rstLow = false → ∃ u, exec (.sysRstNAssert false) s = .next u ∧ resetLeft d u.dev 2)
    ∧ (d.sysOn = true → d.power.perstLow = false → ∃ u, exec (.perstNAssert false) s = .next u ∧ resetLeft d u.dev 3)
    ∧ (d.up = true → ∃ u, exec (.pcieHotReset false) s = .next u ∧ resetLeft d u.dev 4)
    ∧ (d.mayWrite w.agent pgPmu 0x120 = true → wrHit w 0 = true → ∃ u, exec (.devRst w) s = .next u ∧ resetLeft d u.dev 5)
    ∧ (d.power.inReset = true → d.power.rstLow = false → d.power.perstLow = false → d.power.hotReset = false → d.sysOn = true →
        d.noPowerFault = true → d.power.seq = .idle → d.nextGroup = none →
        ∃ u, exec .resetRelease s = .next u ∧ u.dev.up = true ∧ u.dev.aclkA = 0 ∧ u.dev.aclkB = 0
          ∧ ∀ page off, u.dev.reg page off = d.reg page off)

/-- PMU_HALF_CTRL releases a half whose rails are good, which then runs with its UCIe link UP; PMU_PROFILE and SSC_EN change
only while both halves are held in reset, and a profile that changes takes its limit; PMU_PWR_LIMIT stays between 300 W and the
profile's limit (R515, R527, R528, R38). Standby (R526): entry is refused with REFUSED while a queue is enabled, a context is
held or an update engine works; else the state is changing until the change completes, with the half groups off; exit raises
them again. -/
def Obligations.PowerStates : Prop :=
  (∀ (s : State) (w : Wr), let d := s.quiet
      (d.mayWrite w.agent pgPmu 0x110 = true → wrHit w 0 = true → wrHit w 1 = false → d.halfPresent 0 = true → d.enableOf 1 = true →
          d.goodOf 1 = true →
          ∃ u, exec (.halfRun w) s = .next u ∧ u.dev.running 0 = d.up ∧ u.dev.mem = d.mem
            ∧ u.dev.running 1 = d.running 1 ∧ (d.regb pgPmu 0x110 0 = false → u.dev.regb (pgUci 0) 0x100 0 = true))
      ∧ (d.mayWrite w.agent pgPmu 0x108 = true →
          (d.halvesHeld = false → exec (.profileSelect w) s = .next (s.after d))
          ∧ (d.halvesHeld = true → d.cap.field 3 2 = 1 → (d.merged pgPmu 0x108 w).bit 0 = true →
              ∃ u, exec (.profileSelect w) s = .next u ∧ u.dev.studio = true ∧ (d.studio = false → u.dev.regf pgPmu 0x130 15 0 = 1100))
          ∧ (d.halvesHeld = true → (d.merged pgPmu 0x108 w).bit 0 = false →
              ∃ u, exec (.profileSelect w) s = .next u ∧ u.dev.studio = false ∧ (d.studio = true → u.dev.regf pgPmu 0x130 15 0 = 700)))
      ∧ (d.mayWrite w.agent pgPmu 0x130 = true → ∃ u, exec (.pwrLimitWrite w) s = .next u
          ∧ 300 ≤ u.dev.regf pgPmu 0x130 15 0 ∧ u.dev.regf pgPmu 0x130 15 0 ≤ d.profileLimit
          ∧ (300 ≤ (d.merged pgPmu 0x130 w).field 15 0 → (d.merged pgPmu 0x130 w).field 15 0 ≤ d.profileLimit →
              u.dev.regf pgPmu 0x130 15 0 = (d.merged pgPmu 0x130 w).field 15 0))
      ∧ (d.mayWrite w.agent pgPmu 0x100 = true →
          (d.halvesHeld = false → exec (.sscEnWrite w) s = .next (s.after d))
          ∧ (d.halvesHeld = true → exec (.sscEnWrite w) s = .next (s.after (d.setb pgPmu 0x100 0 ((d.merged pgPmu 0x100 w).bit 0))))))
  ∧ (∀ (s : State) (w : Wr), let d := s.quiet
      let e := d.plainWrite pgPmu 0x118 w
      let v := d.merged pgPmu 0x118 w
      (d.mayWrite w.agent pgPmu 0x118 = true → e.pstate = 0 → e.regb pgPmu 0x118 0 = false → v.bit 0 = true →
        (e.standbyOk = false → exec (.standbyEntry w) s = .next (s.after ((e.setb pgPmu 0x118 8 true).setIsr pgPmu 2)))
        ∧ (e.standbyOk = true → exec (.standbyEntry w) s = .next (s.after
            (((e.setb pgPmu 0x118 0 true).setf pgPmu 0x118 5 4 3).eachHalf Dev.flushStart))))
      ∧ (d.mayWrite w.agent pgPmu 0x118 = true → e.pstate = 2 → e.regb pgPmu 0x118 0 = true → v.bit 0 = false →
        exec (.standbyExit w) s = .next (s.after (((e.setb pgPmu 0x118 0 false).setf pgPmu 0x118 5 4 3).raiseNext)))
      ∧ (d.up = true → d.pstate = 3 →
        (d.regb pgPmu 0x118 0 = true → ∃ u, exec .pstateDone s = .next u ∧ u.dev.pstate = 2 ∧ u.dev.enableOf 1 = false
          ∧ u.dev.running 0 = false ∧ u.dev.regb pgPmu 0x020 1 = true)
        ∧ (d.regb pgPmu 0x118 0 = false → d.power.seq = .idle → d.goodOf 1 = true → (d.halfPresent 1 = true → d.goodOf 2 = true) →
          exec .pstateDone s = .next (s.after ((d.setf pgPmu 0x118 5 4 0).setIsr pgPmu 1)))))

/-- The board management controller reads and clears PMU_FAULT and may restart a device that is off with no fault; PMU_THM_CTRL
takes only thresholds in rising order below 110 °C with a hysteresis of 1 to 10; a core voltage is commanded within 0.60 to 0.90
V (R512, R522, R532). -/
def Obligations.BoardControls : Prop :=
  ∀ (s : State) (w : Wr) (v : W64) (h mv : Nat), let d := s.quiet
    (d.power.aux = true → exec .pmuFaultRead s = .next (s.after ((d.emit (.word (d.reg pgPmu 0x158))).emit (.word (d.reg pgPmu 0x128)))))
    ∧ (d.power.aux = true → ∃ u, exec (.pmuFaultClear v) s = .next u ∧ u.dev.reg pgPmu 0x158 = d.reg pgPmu 0x158 &&& ~~~v
        ∧ (u.dev.power.tripLow = (d.power.tripLow && (d.reg pgPmu 0x158 &&& ~~~v).bit 0)) ∧ u.dev.mem = d.mem)
    ∧ (d.power.aux = true → d.reg pgPmu 0x158 = 0 → d.power.seq = .idle → d.enableOf 0 = false →
        exec .restart s = .next (s.after ((d.setReg pgPmu 0x128 6).raiseNext)))
    ∧ (d.mayWrite w.agent pgThm 0x100 = true →
        let x := d.merged pgThm 0x100 w
        let ok := x.field 7 0 < x.field 15 8 ∧ x.field 15 8 < x.field 23 16 ∧ x.field 23 16 < 110 ∧ 1 ≤ x.field 31 24 ∧ x.field 31 24 ≤ 10
        (ok → exec (.thmCtrlWrite w) s = .next (s.after (d.setReg pgThm 0x100 (BitVec.ofNat 64 (x.field 31 0)))))
        ∧ (¬ ok → exec (.thmCtrlWrite w) s = .next (s.after d)))
    ∧ (d.up = true → d.halfPresent h = true → d.goodOf (1 + h) = true →
        (600 ≤ mv → mv ≤ 900 → exec (.avsVoltageCommand h mv) s = .next (s.after
          ({ d with power := if h = 0 then { d.power with mvA := mv } else { d.power with mvB := mv } }.emit (.avs h mv))))
        ∧ ((mv < 600 ∨ 900 < mv) → exec (.avsVoltageCommand h mv) s = .next (s.after d)))

/-- Trace: TRC_MARK and the TIME record of FTS go to their ring; a window writes buffered records within its budget, the GAP
owed first, and tells when a ring is more than three quarters full (R542 to R547). -/
def Obligations.TraceRings : Prop :=
  ∀ (s : State) (w : Wr) (r : Nat), let d := s.quiet
    (d.mayWrite w.agent pgTrc 0x118 = true → exec (.trcMark w) s = .next (s.after (d.trace pgTrc 0x22 none (wrBits w) 0)))
    ∧ (d.up = true → d.regf pgTrc 0x100 31 16 ≠ 0 → exec .traceTimeRecord s = .next (s.after
        (d.trace pgFts 0x21 none (d.reg pgFts 0x118) (BitVec.ofNat 64 (d.ftsFrame + d.ftsLine * 2 ^ 48)))))
    ∧ (d.up = true → r < 2 → d.halfPresent r = true → d.ringOk r = true →
        let e := if (d.ringAt r).dropped = 0 ∨ d.ringRoom r = 0 ∨ d.traceBudget = 0 then ringDrain r d.traceBudget d
          else ringDrain r (d.traceBudget - 1) (d.ringGap r)
        ((e.ringBytes r - 32 - e.ringRoom r * 32) * 4 ≤ (e.ringBytes r - 32) * 3 → exec (.traceBudgetWindow r) s = .next (s.after e))
        ∧ ((e.ringBytes r - 32) * 3 < (e.ringBytes r - 32 - e.ringRoom r * 32) * 4 →
            exec (.traceBudgetWindow r) s = .next (s.after (e.setIsr pgTrc 1))))
    ∧ (∀ (e : Dev) (t : TraceRec) (rest : List TraceRec) (n : Nat), (e.ringAt r).buf = t :: rest → e.ringRoom r ≠ 0 →
        ringDrain r (n + 1) e = ringDrain r n ((e.setRing r { e.ringAt r with buf := rest }).ringPut r t))

/-- The eclipse: GO of a secure or JTAG agent, the time trigger and ECLIPSE_N stop the device with their cause and its ACLK
count; at debug level 0 nothing stops it; RESUME lets it go on (R554, R555). The scan copy: TRC_ECL_SCAN.GO of an eclipsed
device sets BUSY and clears the size; when the copy is done the image lies at TRC_ECL_BASE, BUSY is clear, the size in MiB is
shown and BLK_ISR tells it (R557, R558). -/
def Obligations.EclipseAndScan : Prop :=
  (∀ (s : State) (w : Wr), let d := s.quiet
      (d.dbgLevel ≠ 0 → d.mayWrite w.agent pgTrc 0x300 = true →
        (wrHit w 0 = true → wrHit w 1 = false → d.agentSecure w.agent = true → d.eclipsed = false →
          ∃ u, exec (.eclipseGo w) s = .next u ∧ u.dev.eclipsed = true ∧ u.dev.regf pgTrc 0x300 15 8 = 1 ∧ u.dev.trc.ts = d.aclkA
            ∧ u.dev.mem = d.mem)
        ∧ (wrHit w 1 = true → wrHit w 0 = false → d.eclipsed = true →
          ∃ u, exec (.eclipseResume w) s = .next u ∧ u.dev.eclipsed = false ∧ u.dev.mem = d.mem))
      ∧ (d.up = true → d.dbgLevel ≠ 0 → d.eclipsed = false →
        (d.regb pgTrc 0x300 3 = true → d.reg pgTrc 0x310 ≠ 0 → d.aclkA = d.reg pgTrc 0x310 →
          ∃ u, exec .eclipseTimeTrigger s = .next u ∧ u.dev.eclipsed = true ∧ u.dev.regf pgTrc 0x300 15 8 = 3 ∧ u.dev.trc.ts = d.aclkA)
        ∧ (d.regb pgTrc 0x300 5 = true →
          ∃ u, exec .eclipseNFall s = .next u ∧ u.dev.eclipsed = true ∧ u.dev.regf pgTrc 0x300 15 8 = 4 ∧ u.dev.trc.ts = d.aclkA))
      ∧ (d.dbgLevel = 0 → exec (.eclipseGo w) s = .next (s.after d) ∧ exec .eclipseTimeTrigger s = .next (s.after d)
          ∧ exec .eclipseNFall s = .next (s.after d) ∧ exec (.eclipseResume w) s = .next (s.after d)))
  ∧ (∀ (s : State) (w : Wr), let d := s.quiet
      (d.dbgLevel ≠ 0 → d.mayWrite w.agent pgTrc 0x320 = true → wrHit w 0 = true → d.eclipsed = true →
        (d.plainWrite pgTrc 0x320 w).eclipsed = true → (d.plainWrite pgTrc 0x320 w).regb pgTrc 0x320 1 = false →
        exec (.eclipseScan w) s = .next (s.after (((d.plainWrite pgTrc 0x320 w).setb pgTrc 0x320 1 true).setf pgTrc 0x320 63 32 0)))
      ∧ (d.up = true → d.regb pgTrc 0x320 1 = true →
        exec .scanComplete s = .next (s.after
          ((((d.store (d.regf pgTrc 0x318 47 12 * 4096) d.scanImage).setb pgTrc 0x320 1 false).setf pgTrc 0x320 63 32
            (d.scanImage.length / 2 ^ 20)).setIsr pgTrc 3))))

/-- JTAG instructions of every debug level: IDCODE answers 1A522C7F, BYPASS one zero bit, SEC_NONCE the nonce's four words; the
boundary scans select their codes and answer one word; a token's shift answers the level and the last rejection and then acts as
a token; and TRST_N selects IDCODE again (R505, R506, R559, R560). JTAG instructions above the debug level act as BYPASS: one
zero bit, and nothing else changes (R504, R559). JTAG instructions of debug level 1 and 2 (R559 to R562): MEM_ACCESS shifts out
the last access's result and makes its own; ECL_CTRL writes TRC_ECL_CTRL; ECL_SCAN shifts out the image of an eclipsed device
word by word; and the wrapper instructions select a wrapper, set its instruction, and shift its data. -/
def Obligations.JtagInstructions : Prop :=
  (∀ s : State, let d := s.quiet
      (d.power.aux = true →
        (∃ u, exec .idcode s = .next u ∧ u.dev.tap.ir = 0x02 ∧ u.dev.out = [.word 0x1A522C7F] ∧ u.dev.mem = d.mem ∧ u.dev.regs = d.regs)
        ∧ (∃ u, exec .bypass s = .next u ∧ u.dev.tap.ir = 0xFF ∧ u.dev.out = [.word 0] ∧ u.dev.mem = d.mem ∧ u.dev.regs = d.regs)
        ∧ (∃ u, exec .secNonce s = .next u ∧ u.dev.tap.ir = 0x10 ∧ u.dev.mem = d.mem ∧ u.dev.regs = d.regs
            ∧ u.dev.out = [.word (d.reg pgSec 0x128), .word (d.reg pgSec 0x130), .word (d.reg pgSec 0x138), .word (d.reg pgSec 0x140)])
        ∧ (∃ u, exec .extest s = .next u ∧ u.dev.tap.ir = 0x00 ∧ u.dev.out.length = 1 ∧ u.dev.mem = d.mem ∧ u.dev.regs = d.regs)
        ∧ (∃ u, exec .samplePreload s = .next u ∧ u.dev.tap.ir = 0x01 ∧ u.dev.out.length = 1 ∧ u.dev.mem = d.mem ∧ u.dev.regs = d.regs)
        ∧ (∀ token sig, exec (.secToken token sig) s = .next (s.after
            (secToken ((d.tapIr 0x11 0 [BitVec.ofNat 64 (d.dbgLevel * 2 + d.regf pgSec 0x120 7 4 * 16)]).1.tapOut) s.fuses token sig))))
      ∧ (exec .tapReset s = .next (s.after { d with tap := { Tap.reset with undef := d.tap.undef } })))
  ∧ (∀ (s : State) (pa : Nat) (b : Bool) (v : W64) (n : Nat), s.dev.power.aux = true → s.quiet.dbgLevel = 0 →
      ∀ c ∈ ([.memAccess pa b v, .eclScan, .eclCtrl v, .wrapSel n, .wrapWir n] : List Instr),
        ∃ u, exec c s = .next u ∧ u.dev.tap.ir = 0xFF ∧ u.dev.out = [.word 0] ∧ u.dev.mem = s.dev.mem ∧ u.dev.regs = s.dev.regs)
  ∧ (∀ (s : State) (pa n : Nat) (v : W64), let d := s.quiet
      d.power.aux = true → 1 ≤ d.dbgLevel →
      let taken := fun (code : Nat) (cap : List W64) => ({ d with tap := { d.tap with ir := code, capture := cap } } : Dev).tapOut
      (let e := taken 0x21 (if d.tap.ir = 0x21 then d.tap.capture else [0, 0])
       (e.jtagMay pa = true → (∀ o, e.space pa ≠ .window o) →
         exec (.memAccess pa true v) s = .next (s.after
           (let f := e.storeBy (e.agentSecure .jtag) pa (leBytes 8 v.toNat) false
            { f with tap := { f.tap with capture := [1, 0] } }))
         ∧ ((e.load pa 8).2.2 = none → exec (.memAccess pa false v) s = .next (s.after
             (let f := (e.load pa 8).1
              { f with tap := { f.tap with capture := [1, BitVec.ofNat 64 (leNat (e.load pa 8).2.1)] } }))))
       ∧ (e.jtagMay pa = false → ∀ b, exec (.memAccess pa b v) s = .next (s.after { e with tap := { e.tap with capture := [3, 0] } })))
      ∧ (d.up = true → exec (.eclCtrl v) s = .next (s.after
          (eclCtrl (taken 0x20 [d.reg pgTrc 0x300]) { agent := .jtag, hi := true, lo := true, val := v })))
      ∧ (d.eclipsed = true → d.tap.ir ≠ 0x22 → ∃ u, exec .eclScan s = .next u ∧ u.dev.tap.ir = 0x22 ∧ u.dev.tap.scanPos = 1
          ∧ u.dev.out = [.word (BitVec.ofNat 64 (leNat (d.scanImage.take 8)))] ∧ u.dev.mem = d.mem)
      ∧ (∃ u, exec (.wrapSel n) s = .next u ∧ u.dev.tap.ir = 0x30 ∧ u.dev.tap.wrapper = n % 256
          ∧ u.dev.out = [.word (BitVec.ofNat 64 d.tap.wrapper)] ∧ u.dev.mem = d.mem)
      ∧ (2 ≤ d.dbgLevel → ∃ u, exec (.wrapWir n) s = .next u ∧ u.dev.tap.ir = 0x31 ∧ KV.find? u.dev.tap.wir d.tap.wrapper = some n
          ∧ (n ≠ Config.wsBypass d.tap.wrapper → d.tap.wrapper < 10 → d.tap.wrapper ∈ u.dev.tap.undef) ∧ u.dev.mem = d.mem)
      ∧ (2 ≤ d.dbgLevel → ∃ u, exec (.wrapWdr v) s = .next u ∧ u.dev.tap.ir = 0x32 ∧ u.dev.out.length = 1 ∧ u.dev.mem = d.mem))
end

