-- ==== Sys2Proof/Laws/Issue.lean ====
section
/-! SUPPORT. What the issue of a command makes of its run (R264, R267). -/

namespace Sys2Proof.Machine

/-- A command that may be issued and whose act answers a result runs: with `true` it is complete, with `false` its task stays
RUNNING. -/
theorem issue_done {α : Type} (d : Dev) (c x : Nat) (t : Ctx) (act : Who → Desc → M α) (a : α) (b : Bool)
    (act' : Who → Desc → M (Option Bool)) (hi : d.issuable c x t)
    (h : act' (d.whoOf c x) t.cur = (do let _ ← act (d.whoOf c x) t.cur; return some b))
    (hr : (runCmd d c x t act).1 = .ok a) :
    issue d c x act' = if b then d.finished c x t act else d.underway c x t act := by
  obtain ⟨h1, h2, h3⟩ := hi
  have key : ((do loadRegions (d.whoOf c x) t.cur; let _ ← act (d.whoOf c x) t.cur; return some b : M (Option Bool)).run).run
      (Run.start (d.issued c x t)) = (.ok (some b), (runCmd d c x t act).2) := by
    have e : (do loadRegions (d.whoOf c x) t.cur; let _ ← act (d.whoOf c x) t.cur; return some b : M (Option Bool)) =
        (do let _ ← (do loadRegions (d.whoOf c x) t.cur; act (d.whoOf c x) t.cur : M α); return some b) := by simp
    rw [e]
    unfold runCmd at hr ⊢
    generalize (do loadRegions (d.whoOf c x) t.cur; act (d.whoOf c x) t.cur : M α) = m at *
    simp only [ExceptT.run_bind]
    rcases hm : (m.run).run (Run.start (d.issued c x t)) with ⟨_ | v, e⟩
    · rw [hm] at hr
      cases hr
    · simp [StateT.run_bind, hm]
      rfl
  unfold Dev.issued at key
  unfold issue
  rw [h1]
  simp only [h2, h3, Bool.not_true]
  rw [h]
  simp only [key]
  cases b <;> rfl

end Sys2Proof.Machine
end

