-- ==== Sys2Proof/Laws/KV.lean ====
section
/-! SUPPORT. The laws of the sparse lists: what a key reads after a set or an erase, and that both keep the keys rising. -/

namespace Sys2Proof.Machine.KV

variable {α : Type}

@[simp] theorem find?_nil (k : Nat) : find? ([] : List (Nat × α)) k = none := rfl
@[simp] theorem get_nil (d : α) (k : Nat) : get d [] k = d := rfl

/-- The value with a default is the value, where one is listed. -/
theorem get_eq (d : α) (l : List (Nat × α)) (k : Nat) : get d l k = (find? l k).getD d := by
  induction l with
  | nil => rfl
  | cons p l ih =>
    obtain ⟨k', v⟩ := p
    by_cases h : k' = k <;> simp [get, find?, h, ih]

@[simp] theorem find?_set_self (l : List (Nat × α)) (k : Nat) (v : α) : find? (set l k v) k = some v := by
  induction l with
  | nil => simp [set, find?]
  | cons p l ih =>
    obtain ⟨k', v'⟩ := p
    by_cases h₁ : k < k'
    · simp [set, find?, h₁]
    · by_cases h₂ : k = k'
      · simp [set, find?, h₂]
      · simp [set, find?, h₁, h₂, ih, Ne.symm h₂]

theorem find?_set_ne (l : List (Nat × α)) {k j : Nat} (v : α) (h : j ≠ k) : find? (set l k v) j = find? l j := by
  induction l with
  | nil => simp [set, find?, Ne.symm h]
  | cons p l ih =>
    obtain ⟨k', v'⟩ := p
    by_cases h₁ : k < k'
    · simp [set, find?, h₁, Ne.symm h]
    · by_cases h₂ : k = k'
      · subst h₂
        simp [set, find?, Ne.symm h]
      · rw [set, if_neg h₁, if_neg h₂]
        simp [find?, ih]

@[simp] theorem find?_erase_self (l : List (Nat × α)) (k : Nat) : find? (erase l k) k = none := by
  induction l with
  | nil => rfl
  | cons p l ih =>
    obtain ⟨k', v'⟩ := p
    by_cases h : k = k'
    · simp [erase, h, ← ih]
    · simp [erase, find?, h, ih, Ne.symm h]

theorem find?_erase_ne (l : List (Nat × α)) {k j : Nat} (h : j ≠ k) : find? (erase l k) j = find? l j := by
  induction l with
  | nil => rfl
  | cons p l ih =>
    obtain ⟨k', v'⟩ := p
    by_cases h₁ : k = k'
    · subst h₁
      simp [erase, find?, ih, Ne.symm h]
    · rw [erase, if_neg h₁]
      simp [find?, ih]

@[simp] theorem get_set_self (d : α) (l : List (Nat × α)) (k : Nat) (v : α) : get d (set l k v) k = v := by simp [get_eq]

theorem get_set_ne (d : α) (l : List (Nat × α)) {k j : Nat} (v : α) (h : j ≠ k) : get d (set l k v) j = get d l j := by
  simp [get_eq, find?_set_ne l v h]

/-- The keys rise and start above a bound. -/
theorem sorted_cons (k : Nat) (v : α) (l : List (Nat × α)) :
    sorted ((k, v) :: l) = ((l.head?.all (fun p => decide (k < p.1))) && sorted l) := by
  cases l with
  | nil => rfl
  | cons p l => obtain ⟨k', v'⟩ := p; rfl

theorem head_set (l : List (Nat × α)) (k : Nat) (v : α) :
    ∃ p, (set l k v).head? = some p ∧ (p.1 = k ∨ ∃ q, l.head? = some q ∧ p = q) := by
  cases l with
  | nil => exact ⟨(k, v), rfl, .inl rfl⟩
  | cons q l =>
    obtain ⟨k', v'⟩ := q
    by_cases h₁ : k < k'
    · exact ⟨(k, v), by simp [set, h₁], .inl rfl⟩
    · by_cases h₂ : k = k'
      · exact ⟨(k, v), by simp [set, h₂], .inl rfl⟩
      · exact ⟨(k', v'), by simp [set, h₁, h₂], .inr ⟨_, rfl, rfl⟩⟩

/-- Setting a key keeps the keys rising. -/
theorem sorted_set (l : List (Nat × α)) (k : Nat) (v : α) (h : sorted l = true) : sorted (set l k v) = true := by
  induction l with
  | nil => rfl
  | cons p l ih =>
    obtain ⟨k', v'⟩ := p
    rw [sorted_cons, Bool.and_eq_true] at h
    by_cases h₁ : k < k'
    · simp [set, h₁, sorted_cons, h.1, h.2]
    · by_cases h₂ : k = k'
      · subst h₂
        simp [set, sorted_cons, h.1, h.2]
      · simp only [set, h₁, h₂, if_false, sorted_cons, ih h.2, Bool.and_true]
        obtain ⟨p, hp, hc⟩ := head_set l k v
        rw [hp]
        rcases hc with hc | ⟨q, hq, rfl⟩
        · simp only [Option.all_some, decide_eq_true_eq, hc]
          omega
        · simpa [hq] using h.1

/-- In a list with rising keys every key of the tail is above the head's. -/
theorem sorted_head_lt {k : Nat} {v : α} {l : List (Nat × α)} (h : sorted ((k, v) :: l) = true) : ∀ p ∈ l, k < p.1 := by
  induction l generalizing k v with
  | nil => intro p hp; cases hp
  | cons q l ih =>
    obtain ⟨k', v'⟩ := q
    rw [sorted_cons, Bool.and_eq_true] at h
    have h₁ : k < k' := by simpa using h.1
    intro p hp
    rcases List.mem_cons.mp hp with rfl | hp
    · exact h₁
    · exact Nat.lt_trans h₁ (ih h.2 p hp)

theorem mem_erase {l : List (Nat × α)} {k : Nat} {p : Nat × α} (h : p ∈ erase l k) : p ∈ l := by
  induction l with
  | nil => exact h
  | cons q l ih =>
    obtain ⟨k', v'⟩ := q
    by_cases h₁ : k = k'
    · exact List.mem_cons_of_mem _ (ih (by simpa [erase, h₁] using h))
    · simp only [erase, h₁, if_false, List.mem_cons] at h
      exact h.elim (fun e => e ▸ List.mem_cons_self) (fun e => List.mem_cons_of_mem _ (ih e))

theorem mem_set {l : List (Nat × α)} {k : Nat} {v : α} {p : Nat × α} (h : p ∈ set l k v) : p = (k, v) ∨ p ∈ l := by
  induction l with
  | nil => exact .inl (by simpa [set] using h)
  | cons q l ih =>
    obtain ⟨k', v'⟩ := q
    by_cases h₁ : k < k'
    · simpa [set, h₁] using h
    · by_cases h₂ : k = k'
      · rw [set, if_neg h₁, if_pos h₂, List.mem_cons] at h
        rcases h with h | h
        · exact .inl h
        · exact .inr (List.mem_cons_of_mem _ h)
      · simp only [set, h₁, h₂, if_false, List.mem_cons] at h
        rcases h with h | h
        · exact .inr (h ▸ List.mem_cons_self)
        · exact (ih h).imp id (List.mem_cons_of_mem _)

/-- Erasing a key keeps the keys rising. -/
theorem sorted_erase (l : List (Nat × α)) (k : Nat) (h : sorted l = true) : sorted (erase l k) = true := by
  induction l with
  | nil => rfl
  | cons p l ih =>
    obtain ⟨k', v'⟩ := p
    have hs := h
    rw [sorted_cons, Bool.and_eq_true] at h
    by_cases h₁ : k = k'
    · simpa [erase, h₁] using h₁ ▸ ih h.2
    · simp only [erase, h₁, if_false, sorted_cons, ih h.2, Bool.and_true]
      cases he : (erase l k).head? with
      | none => rfl
      | some q =>
        have := sorted_head_lt hs q (mem_erase (List.mem_of_mem_head? (l := erase l k) (by simp [he])))
        simpa using this

end Sys2Proof.Machine.KV
end

