-- ==== Sys2Proof/Laws/State.lean ====
section
/-! SUPPORT. What each named update of the machine leaves in each field of the state, so that no proof unfolds a record update;
and what a register, a unit or a list entry reads after an update. -/

namespace Sys2Proof.Machine

/-! ### The whole state -/

@[simp] theorem State.after_dev (s : State) (d : Dev) : (s.after d).dev = d := rfl
@[simp] theorem State.after_fuses (s : State) (d : Dev) : (s.after d).fuses = s.fuses := rfl
@[simp] theorem State.after_pending (s : State) (d : Dev) : (s.after d).pending = s.pending := rfl
@[simp] theorem State.quiet_out (s : State) : s.quiet.out = [] := rfl
@[simp] theorem State.quiet_bus (s : State) : s.quiet.bus = s.dev.bus := rfl
@[simp] theorem State.quiet_cap (s : State) : s.quiet.cap = s.dev.cap := rfl
@[simp] theorem State.quiet_regs (s : State) : s.quiet.regs = s.dev.regs := rfl
@[simp] theorem State.quiet_mem (s : State) : s.quiet.mem = s.dev.mem := rfl
@[simp] theorem State.quiet_dram (s : State) : s.quiet.dram = s.dev.dram := rfl
@[simp] theorem State.quiet_poison (s : State) : s.quiet.poison = s.dev.poison := rfl
@[simp] theorem State.quiet_drives (s : State) : s.quiet.drives = s.dev.drives := rfl
@[simp] theorem State.quiet_flash (s : State) : s.quiet.flash = s.dev.flash := rfl
@[simp] theorem State.quiet_cores (s : State) : s.quiet.cores = s.dev.cores := rfl
@[simp] theorem State.quiet_queues (s : State) : s.quiet.queues = s.dev.queues := rfl
@[simp] theorem State.quiet_upds (s : State) : s.quiet.upds = s.dev.upds := rfl
@[simp] theorem State.quiet_nis (s : State) : s.quiet.nis = s.dev.nis := rfl
@[simp] theorem State.quiet_peers (s : State) : s.quiet.peers = s.dev.peers := rfl
@[simp] theorem State.quiet_credit (s : State) : s.quiet.credit = s.dev.credit := rfl
@[simp] theorem State.quiet_ports (s : State) : s.quiet.ports = s.dev.ports := rfl
@[simp] theorem State.quiet_halves (s : State) : s.quiet.halves = s.dev.halves := rfl
@[simp] theorem State.quiet_channels (s : State) : s.quiet.channels = s.dev.channels := rfl
@[simp] theorem State.quiet_flits (s : State) : s.quiet.flits = s.dev.flits := rfl
@[simp] theorem State.quiet_tlbs (s : State) : s.quiet.tlbs = s.dev.tlbs := rfl
@[simp] theorem State.quiet_ptSeen (s : State) : s.quiet.ptSeen = s.dev.ptSeen := rfl
@[simp] theorem State.quiet_fts (s : State) : s.quiet.fts = s.dev.fts := rfl
@[simp] theorem State.quiet_keys (s : State) : s.quiet.keys = s.dev.keys := rfl
@[simp] theorem State.quiet_steers (s : State) : s.quiet.steers = s.dev.steers := rfl
@[simp] theorem State.quiet_sec (s : State) : s.quiet.sec = s.dev.sec := rfl
@[simp] theorem State.quiet_svc (s : State) : s.quiet.svc = s.dev.svc := rfl
@[simp] theorem State.quiet_trc (s : State) : s.quiet.trc = s.dev.trc := rfl
@[simp] theorem State.quiet_tap (s : State) : s.quiet.tap = s.dev.tap := rfl
@[simp] theorem State.quiet_power (s : State) : s.quiet.power = s.dev.power := rfl
@[simp] theorem State.quiet_aclkA (s : State) : s.quiet.aclkA = s.dev.aclkA := rfl
@[simp] theorem State.quiet_aclkB (s : State) : s.quiet.aclkB = s.dev.aclkB := rfl
@[simp] theorem State.quiet_lagB (s : State) : s.quiet.lagB = s.dev.lagB := rfl
@[simp] theorem State.quiet_free (s : State) : s.quiet.free = s.dev.free := rfl

/-- A meaning over the machine answers a next state, with the queue and the fuses as they were. -/
theorem State.lift_next (s : State) (f : Dev → Dev) : s.lift f = .next (s.after (f s.quiet)) := rfl

/-! ### Each update, field by field -/

@[simp] theorem Dev.emit_out (d : Dev) (o : Out) : (d.emit o).out = d.out ++ [o] := rfl
@[simp] theorem Dev.emit_bus (d : Dev) (o : Out) : (d.emit o).bus = d.bus := rfl
@[simp] theorem Dev.emit_cap (d : Dev) (o : Out) : (d.emit o).cap = d.cap := rfl
@[simp] theorem Dev.emit_regs (d : Dev) (o : Out) : (d.emit o).regs = d.regs := rfl
@[simp] theorem Dev.emit_mem (d : Dev) (o : Out) : (d.emit o).mem = d.mem := rfl
@[simp] theorem Dev.emit_dram (d : Dev) (o : Out) : (d.emit o).dram = d.dram := rfl
@[simp] theorem Dev.emit_poison (d : Dev) (o : Out) : (d.emit o).poison = d.poison := rfl
@[simp] theorem Dev.emit_drives (d : Dev) (o : Out) : (d.emit o).drives = d.drives := rfl
@[simp] theorem Dev.emit_flash (d : Dev) (o : Out) : (d.emit o).flash = d.flash := rfl
@[simp] theorem Dev.emit_cores (d : Dev) (o : Out) : (d.emit o).cores = d.cores := rfl
@[simp] theorem Dev.emit_queues (d : Dev) (o : Out) : (d.emit o).queues = d.queues := rfl
@[simp] theorem Dev.emit_upds (d : Dev) (o : Out) : (d.emit o).upds = d.upds := rfl
@[simp] theorem Dev.emit_nis (d : Dev) (o : Out) : (d.emit o).nis = d.nis := rfl
@[simp] theorem Dev.emit_peers (d : Dev) (o : Out) : (d.emit o).peers = d.peers := rfl
@[simp] theorem Dev.emit_credit (d : Dev) (o : Out) : (d.emit o).credit = d.credit := rfl
@[simp] theorem Dev.emit_ports (d : Dev) (o : Out) : (d.emit o).ports = d.ports := rfl
@[simp] theorem Dev.emit_halves (d : Dev) (o : Out) : (d.emit o).halves = d.halves := rfl
@[simp] theorem Dev.emit_channels (d : Dev) (o : Out) : (d.emit o).channels = d.channels := rfl
@[simp] theorem Dev.emit_flits (d : Dev) (o : Out) : (d.emit o).flits = d.flits := rfl
@[simp] theorem Dev.emit_tlbs (d : Dev) (o : Out) : (d.emit o).tlbs = d.tlbs := rfl
@[simp] theorem Dev.emit_ptSeen (d : Dev) (o : Out) : (d.emit o).ptSeen = d.ptSeen := rfl
@[simp] theorem Dev.emit_fts (d : Dev) (o : Out) : (d.emit o).fts = d.fts := rfl
@[simp] theorem Dev.emit_keys (d : Dev) (o : Out) : (d.emit o).keys = d.keys := rfl
@[simp] theorem Dev.emit_steers (d : Dev) (o : Out) : (d.emit o).steers = d.steers := rfl
@[simp] theorem Dev.emit_sec (d : Dev) (o : Out) : (d.emit o).sec = d.sec := rfl
@[simp] theorem Dev.emit_svc (d : Dev) (o : Out) : (d.emit o).svc = d.svc := rfl
@[simp] theorem Dev.emit_trc (d : Dev) (o : Out) : (d.emit o).trc = d.trc := rfl
@[simp] theorem Dev.emit_tap (d : Dev) (o : Out) : (d.emit o).tap = d.tap := rfl
@[simp] theorem Dev.emit_power (d : Dev) (o : Out) : (d.emit o).power = d.power := rfl
@[simp] theorem Dev.emit_aclkA (d : Dev) (o : Out) : (d.emit o).aclkA = d.aclkA := rfl
@[simp] theorem Dev.emit_aclkB (d : Dev) (o : Out) : (d.emit o).aclkB = d.aclkB := rfl
@[simp] theorem Dev.emit_lagB (d : Dev) (o : Out) : (d.emit o).lagB = d.lagB := rfl
@[simp] theorem Dev.emit_free (d : Dev) (o : Out) : (d.emit o).free = d.free := rfl

@[simp] theorem Dev.takeFree_out (d : Dev) : (d.takeFree.1).out = d.out := rfl
@[simp] theorem Dev.takeFree_bus (d : Dev) : (d.takeFree.1).bus = d.bus := rfl
@[simp] theorem Dev.takeFree_cap (d : Dev) : (d.takeFree.1).cap = d.cap := rfl
@[simp] theorem Dev.takeFree_regs (d : Dev) : (d.takeFree.1).regs = d.regs := rfl
@[simp] theorem Dev.takeFree_mem (d : Dev) : (d.takeFree.1).mem = d.mem := rfl
@[simp] theorem Dev.takeFree_dram (d : Dev) : (d.takeFree.1).dram = d.dram := rfl
@[simp] theorem Dev.takeFree_poison (d : Dev) : (d.takeFree.1).poison = d.poison := rfl
@[simp] theorem Dev.takeFree_drives (d : Dev) : (d.takeFree.1).drives = d.drives := rfl
@[simp] theorem Dev.takeFree_flash (d : Dev) : (d.takeFree.1).flash = d.flash := rfl
@[simp] theorem Dev.takeFree_cores (d : Dev) : (d.takeFree.1).cores = d.cores := rfl
@[simp] theorem Dev.takeFree_queues (d : Dev) : (d.takeFree.1).queues = d.queues := rfl
@[simp] theorem Dev.takeFree_upds (d : Dev) : (d.takeFree.1).upds = d.upds := rfl
@[simp] theorem Dev.takeFree_nis (d : Dev) : (d.takeFree.1).nis = d.nis := rfl
@[simp] theorem Dev.takeFree_peers (d : Dev) : (d.takeFree.1).peers = d.peers := rfl
@[simp] theorem Dev.takeFree_credit (d : Dev) : (d.takeFree.1).credit = d.credit := rfl
@[simp] theorem Dev.takeFree_ports (d : Dev) : (d.takeFree.1).ports = d.ports := rfl
@[simp] theorem Dev.takeFree_halves (d : Dev) : (d.takeFree.1).halves = d.halves := rfl
@[simp] theorem Dev.takeFree_channels (d : Dev) : (d.takeFree.1).channels = d.channels := rfl
@[simp] theorem Dev.takeFree_flits (d : Dev) : (d.takeFree.1).flits = d.flits := rfl
@[simp] theorem Dev.takeFree_tlbs (d : Dev) : (d.takeFree.1).tlbs = d.tlbs := rfl
@[simp] theorem Dev.takeFree_ptSeen (d : Dev) : (d.takeFree.1).ptSeen = d.ptSeen := rfl
@[simp] theorem Dev.takeFree_fts (d : Dev) : (d.takeFree.1).fts = d.fts := rfl
@[simp] theorem Dev.takeFree_keys (d : Dev) : (d.takeFree.1).keys = d.keys := rfl
@[simp] theorem Dev.takeFree_steers (d : Dev) : (d.takeFree.1).steers = d.steers := rfl
@[simp] theorem Dev.takeFree_sec (d : Dev) : (d.takeFree.1).sec = d.sec := rfl
@[simp] theorem Dev.takeFree_svc (d : Dev) : (d.takeFree.1).svc = d.svc := rfl
@[simp] theorem Dev.takeFree_trc (d : Dev) : (d.takeFree.1).trc = d.trc := rfl
@[simp] theorem Dev.takeFree_tap (d : Dev) : (d.takeFree.1).tap = d.tap := rfl
@[simp] theorem Dev.takeFree_power (d : Dev) : (d.takeFree.1).power = d.power := rfl
@[simp] theorem Dev.takeFree_aclkA (d : Dev) : (d.takeFree.1).aclkA = d.aclkA := rfl
@[simp] theorem Dev.takeFree_aclkB (d : Dev) : (d.takeFree.1).aclkB = d.aclkB := rfl
@[simp] theorem Dev.takeFree_lagB (d : Dev) : (d.takeFree.1).lagB = d.lagB := rfl
@[simp] theorem Dev.takeFree_free (d : Dev) : (d.takeFree.1).free = d.free + 1 := rfl

@[simp] theorem Dev.setReg_out (d : Dev) (p o : Nat) (v : W64) : (d.setReg p o v).out = d.out := rfl
@[simp] theorem Dev.setReg_bus (d : Dev) (p o : Nat) (v : W64) : (d.setReg p o v).bus = d.bus := rfl
@[simp] theorem Dev.setReg_cap (d : Dev) (p o : Nat) (v : W64) : (d.setReg p o v).cap = d.cap := rfl
@[simp] theorem Dev.setReg_mem (d : Dev) (p o : Nat) (v : W64) : (d.setReg p o v).mem = d.mem := rfl
@[simp] theorem Dev.setReg_dram (d : Dev) (p o : Nat) (v : W64) : (d.setReg p o v).dram = d.dram := rfl
@[simp] theorem Dev.setReg_poison (d : Dev) (p o : Nat) (v : W64) : (d.setReg p o v).poison = d.poison := rfl
@[simp] theorem Dev.setReg_drives (d : Dev) (p o : Nat) (v : W64) : (d.setReg p o v).drives = d.drives := rfl
@[simp] theorem Dev.setReg_flash (d : Dev) (p o : Nat) (v : W64) : (d.setReg p o v).flash = d.flash := rfl
@[simp] theorem Dev.setReg_cores (d : Dev) (p o : Nat) (v : W64) : (d.setReg p o v).cores = d.cores := rfl
@[simp] theorem Dev.setReg_queues (d : Dev) (p o : Nat) (v : W64) : (d.setReg p o v).queues = d.queues := rfl
@[simp] theorem Dev.setReg_upds (d : Dev) (p o : Nat) (v : W64) : (d.setReg p o v).upds = d.upds := rfl
@[simp] theorem Dev.setReg_nis (d : Dev) (p o : Nat) (v : W64) : (d.setReg p o v).nis = d.nis := rfl
@[simp] theorem Dev.setReg_peers (d : Dev) (p o : Nat) (v : W64) : (d.setReg p o v).peers = d.peers := rfl
@[simp] theorem Dev.setReg_credit (d : Dev) (p o : Nat) (v : W64) : (d.setReg p o v).credit = d.credit := rfl
@[simp] theorem Dev.setReg_ports (d : Dev) (p o : Nat) (v : W64) : (d.setReg p o v).ports = d.ports := rfl
@[simp] theorem Dev.setReg_halves (d : Dev) (p o : Nat) (v : W64) : (d.setReg p o v).halves = d.halves := rfl
@[simp] theorem Dev.setReg_channels (d : Dev) (p o : Nat) (v : W64) : (d.setReg p o v).channels = d.channels := rfl
@[simp] theorem Dev.setReg_flits (d : Dev) (p o : Nat) (v : W64) : (d.setReg p o v).flits = d.flits := rfl
@[simp] theorem Dev.setReg_tlbs (d : Dev) (p o : Nat) (v : W64) : (d.setReg p o v).tlbs = d.tlbs := rfl
@[simp] theorem Dev.setReg_ptSeen (d : Dev) (p o : Nat) (v : W64) : (d.setReg p o v).ptSeen = d.ptSeen := rfl
@[simp] theorem Dev.setReg_fts (d : Dev) (p o : Nat) (v : W64) : (d.setReg p o v).fts = d.fts := rfl
@[simp] theorem Dev.setReg_keys (d : Dev) (p o : Nat) (v : W64) : (d.setReg p o v).keys = d.keys := rfl
@[simp] theorem Dev.setReg_steers (d : Dev) (p o : Nat) (v : W64) : (d.setReg p o v).steers = d.steers := rfl
@[simp] theorem Dev.setReg_sec (d : Dev) (p o : Nat) (v : W64) : (d.setReg p o v).sec = d.sec := rfl
@[simp] theorem Dev.setReg_svc (d : Dev) (p o : Nat) (v : W64) : (d.setReg p o v).svc = d.svc := rfl
@[simp] theorem Dev.setReg_trc (d : Dev) (p o : Nat) (v : W64) : (d.setReg p o v).trc = d.trc := rfl
@[simp] theorem Dev.setReg_tap (d : Dev) (p o : Nat) (v : W64) : (d.setReg p o v).tap = d.tap := rfl
@[simp] theorem Dev.setReg_power (d : Dev) (p o : Nat) (v : W64) : (d.setReg p o v).power = d.power := rfl
@[simp] theorem Dev.setReg_aclkA (d : Dev) (p o : Nat) (v : W64) : (d.setReg p o v).aclkA = d.aclkA := rfl
@[simp] theorem Dev.setReg_aclkB (d : Dev) (p o : Nat) (v : W64) : (d.setReg p o v).aclkB = d.aclkB := rfl
@[simp] theorem Dev.setReg_lagB (d : Dev) (p o : Nat) (v : W64) : (d.setReg p o v).lagB = d.lagB := rfl
@[simp] theorem Dev.setReg_free (d : Dev) (p o : Nat) (v : W64) : (d.setReg p o v).free = d.free := rfl

@[simp] theorem Dev.setf_out (d : Dev) (p o hi lo v : Nat) : (d.setf p o hi lo v).out = d.out := rfl
@[simp] theorem Dev.setf_bus (d : Dev) (p o hi lo v : Nat) : (d.setf p o hi lo v).bus = d.bus := rfl
@[simp] theorem Dev.setf_cap (d : Dev) (p o hi lo v : Nat) : (d.setf p o hi lo v).cap = d.cap := rfl
@[simp] theorem Dev.setf_mem (d : Dev) (p o hi lo v : Nat) : (d.setf p o hi lo v).mem = d.mem := rfl
@[simp] theorem Dev.setf_dram (d : Dev) (p o hi lo v : Nat) : (d.setf p o hi lo v).dram = d.dram := rfl
@[simp] theorem Dev.setf_poison (d : Dev) (p o hi lo v : Nat) : (d.setf p o hi lo v).poison = d.poison := rfl
@[simp] theorem Dev.setf_drives (d : Dev) (p o hi lo v : Nat) : (d.setf p o hi lo v).drives = d.drives := rfl
@[simp] theorem Dev.setf_flash (d : Dev) (p o hi lo v : Nat) : (d.setf p o hi lo v).flash = d.flash := rfl
@[simp] theorem Dev.setf_cores (d : Dev) (p o hi lo v : Nat) : (d.setf p o hi lo v).cores = d.cores := rfl
@[simp] theorem Dev.setf_queues (d : Dev) (p o hi lo v : Nat) : (d.setf p o hi lo v).queues = d.queues := rfl
@[simp] theorem Dev.setf_upds (d : Dev) (p o hi lo v : Nat) : (d.setf p o hi lo v).upds = d.upds := rfl
@[simp] theorem Dev.setf_nis (d : Dev) (p o hi lo v : Nat) : (d.setf p o hi lo v).nis = d.nis := rfl
@[simp] theorem Dev.setf_peers (d : Dev) (p o hi lo v : Nat) : (d.setf p o hi lo v).peers = d.peers := rfl
@[simp] theorem Dev.setf_credit (d : Dev) (p o hi lo v : Nat) : (d.setf p o hi lo v).credit = d.credit := rfl
@[simp] theorem Dev.setf_ports (d : Dev) (p o hi lo v : Nat) : (d.setf p o hi lo v).ports = d.ports := rfl
@[simp] theorem Dev.setf_halves (d : Dev) (p o hi lo v : Nat) : (d.setf p o hi lo v).halves = d.halves := rfl
@[simp] theorem Dev.setf_channels (d : Dev) (p o hi lo v : Nat) : (d.setf p o hi lo v).channels = d.channels := rfl
@[simp] theorem Dev.setf_flits (d : Dev) (p o hi lo v : Nat) : (d.setf p o hi lo v).flits = d.flits := rfl
@[simp] theorem Dev.setf_tlbs (d : Dev) (p o hi lo v : Nat) : (d.setf p o hi lo v).tlbs = d.tlbs := rfl
@[simp] theorem Dev.setf_ptSeen (d : Dev) (p o hi lo v : Nat) : (d.setf p o hi lo v).ptSeen = d.ptSeen := rfl
@[simp] theorem Dev.setf_fts (d : Dev) (p o hi lo v : Nat) : (d.setf p o hi lo v).fts = d.fts := rfl
@[simp] theorem Dev.setf_keys (d : Dev) (p o hi lo v : Nat) : (d.setf p o hi lo v).keys = d.keys := rfl
@[simp] theorem Dev.setf_steers (d : Dev) (p o hi lo v : Nat) : (d.setf p o hi lo v).steers = d.steers := rfl
@[simp] theorem Dev.setf_sec (d : Dev) (p o hi lo v : Nat) : (d.setf p o hi lo v).sec = d.sec := rfl
@[simp] theorem Dev.setf_svc (d : Dev) (p o hi lo v : Nat) : (d.setf p o hi lo v).svc = d.svc := rfl
@[simp] theorem Dev.setf_trc (d : Dev) (p o hi lo v : Nat) : (d.setf p o hi lo v).trc = d.trc := rfl
@[simp] theorem Dev.setf_tap (d : Dev) (p o hi lo v : Nat) : (d.setf p o hi lo v).tap = d.tap := rfl
@[simp] theorem Dev.setf_power (d : Dev) (p o hi lo v : Nat) : (d.setf p o hi lo v).power = d.power := rfl
@[simp] theorem Dev.setf_aclkA (d : Dev) (p o hi lo v : Nat) : (d.setf p o hi lo v).aclkA = d.aclkA := rfl
@[simp] theorem Dev.setf_aclkB (d : Dev) (p o hi lo v : Nat) : (d.setf p o hi lo v).aclkB = d.aclkB := rfl
@[simp] theorem Dev.setf_lagB (d : Dev) (p o hi lo v : Nat) : (d.setf p o hi lo v).lagB = d.lagB := rfl
@[simp] theorem Dev.setf_free (d : Dev) (p o hi lo v : Nat) : (d.setf p o hi lo v).free = d.free := rfl

@[simp] theorem Dev.setb_out (d : Dev) (p o i : Nat) (b : Bool) : (d.setb p o i b).out = d.out := rfl
@[simp] theorem Dev.setb_bus (d : Dev) (p o i : Nat) (b : Bool) : (d.setb p o i b).bus = d.bus := rfl
@[simp] theorem Dev.setb_cap (d : Dev) (p o i : Nat) (b : Bool) : (d.setb p o i b).cap = d.cap := rfl
@[simp] theorem Dev.setb_mem (d : Dev) (p o i : Nat) (b : Bool) : (d.setb p o i b).mem = d.mem := rfl
@[simp] theorem Dev.setb_dram (d : Dev) (p o i : Nat) (b : Bool) : (d.setb p o i b).dram = d.dram := rfl
@[simp] theorem Dev.setb_poison (d : Dev) (p o i : Nat) (b : Bool) : (d.setb p o i b).poison = d.poison := rfl
@[simp] theorem Dev.setb_drives (d : Dev) (p o i : Nat) (b : Bool) : (d.setb p o i b).drives = d.drives := rfl
@[simp] theorem Dev.setb_flash (d : Dev) (p o i : Nat) (b : Bool) : (d.setb p o i b).flash = d.flash := rfl
@[simp] theorem Dev.setb_cores (d : Dev) (p o i : Nat) (b : Bool) : (d.setb p o i b).cores = d.cores := rfl
@[simp] theorem Dev.setb_queues (d : Dev) (p o i : Nat) (b : Bool) : (d.setb p o i b).queues = d.queues := rfl
@[simp] theorem Dev.setb_upds (d : Dev) (p o i : Nat) (b : Bool) : (d.setb p o i b).upds = d.upds := rfl
@[simp] theorem Dev.setb_nis (d : Dev) (p o i : Nat) (b : Bool) : (d.setb p o i b).nis = d.nis := rfl
@[simp] theorem Dev.setb_peers (d : Dev) (p o i : Nat) (b : Bool) : (d.setb p o i b).peers = d.peers := rfl
@[simp] theorem Dev.setb_credit (d : Dev) (p o i : Nat) (b : Bool) : (d.setb p o i b).credit = d.credit := rfl
@[simp] theorem Dev.setb_ports (d : Dev) (p o i : Nat) (b : Bool) : (d.setb p o i b).ports = d.ports := rfl
@[simp] theorem Dev.setb_halves (d : Dev) (p o i : Nat) (b : Bool) : (d.setb p o i b).halves = d.halves := rfl
@[simp] theorem Dev.setb_channels (d : Dev) (p o i : Nat) (b : Bool) : (d.setb p o i b).channels = d.channels := rfl
@[simp] theorem Dev.setb_flits (d : Dev) (p o i : Nat) (b : Bool) : (d.setb p o i b).flits = d.flits := rfl
@[simp] theorem Dev.setb_tlbs (d : Dev) (p o i : Nat) (b : Bool) : (d.setb p o i b).tlbs = d.tlbs := rfl
@[simp] theorem Dev.setb_ptSeen (d : Dev) (p o i : Nat) (b : Bool) : (d.setb p o i b).ptSeen = d.ptSeen := rfl
@[simp] theorem Dev.setb_fts (d : Dev) (p o i : Nat) (b : Bool) : (d.setb p o i b).fts = d.fts := rfl
@[simp] theorem Dev.setb_keys (d : Dev) (p o i : Nat) (b : Bool) : (d.setb p o i b).keys = d.keys := rfl
@[simp] theorem Dev.setb_steers (d : Dev) (p o i : Nat) (b : Bool) : (d.setb p o i b).steers = d.steers := rfl
@[simp] theorem Dev.setb_sec (d : Dev) (p o i : Nat) (b : Bool) : (d.setb p o i b).sec = d.sec := rfl
@[simp] theorem Dev.setb_svc (d : Dev) (p o i : Nat) (b : Bool) : (d.setb p o i b).svc = d.svc := rfl
@[simp] theorem Dev.setb_trc (d : Dev) (p o i : Nat) (b : Bool) : (d.setb p o i b).trc = d.trc := rfl
@[simp] theorem Dev.setb_tap (d : Dev) (p o i : Nat) (b : Bool) : (d.setb p o i b).tap = d.tap := rfl
@[simp] theorem Dev.setb_power (d : Dev) (p o i : Nat) (b : Bool) : (d.setb p o i b).power = d.power := rfl
@[simp] theorem Dev.setb_aclkA (d : Dev) (p o i : Nat) (b : Bool) : (d.setb p o i b).aclkA = d.aclkA := rfl
@[simp] theorem Dev.setb_aclkB (d : Dev) (p o i : Nat) (b : Bool) : (d.setb p o i b).aclkB = d.aclkB := rfl
@[simp] theorem Dev.setb_lagB (d : Dev) (p o i : Nat) (b : Bool) : (d.setb p o i b).lagB = d.lagB := rfl
@[simp] theorem Dev.setb_free (d : Dev) (p o i : Nat) (b : Bool) : (d.setb p o i b).free = d.free := rfl

@[simp] theorem Dev.modCore_out (d : Dev) (c : Nat) (f : Core → Core) : (d.modCore c f).out = d.out := rfl
@[simp] theorem Dev.modCore_bus (d : Dev) (c : Nat) (f : Core → Core) : (d.modCore c f).bus = d.bus := rfl
@[simp] theorem Dev.modCore_cap (d : Dev) (c : Nat) (f : Core → Core) : (d.modCore c f).cap = d.cap := rfl
@[simp] theorem Dev.modCore_regs (d : Dev) (c : Nat) (f : Core → Core) : (d.modCore c f).regs = d.regs := rfl
@[simp] theorem Dev.modCore_mem (d : Dev) (c : Nat) (f : Core → Core) : (d.modCore c f).mem = d.mem := rfl
@[simp] theorem Dev.modCore_dram (d : Dev) (c : Nat) (f : Core → Core) : (d.modCore c f).dram = d.dram := rfl
@[simp] theorem Dev.modCore_poison (d : Dev) (c : Nat) (f : Core → Core) : (d.modCore c f).poison = d.poison := rfl
@[simp] theorem Dev.modCore_drives (d : Dev) (c : Nat) (f : Core → Core) : (d.modCore c f).drives = d.drives := rfl
@[simp] theorem Dev.modCore_flash (d : Dev) (c : Nat) (f : Core → Core) : (d.modCore c f).flash = d.flash := rfl
@[simp] theorem Dev.modCore_cores (d : Dev) (c : Nat) (f : Core → Core) : (d.modCore c f).cores = KV.set d.cores c (f (d.core c)) := rfl
@[simp] theorem Dev.modCore_queues (d : Dev) (c : Nat) (f : Core → Core) : (d.modCore c f).queues = d.queues := rfl
@[simp] theorem Dev.modCore_upds (d : Dev) (c : Nat) (f : Core → Core) : (d.modCore c f).upds = d.upds := rfl
@[simp] theorem Dev.modCore_nis (d : Dev) (c : Nat) (f : Core → Core) : (d.modCore c f).nis = d.nis := rfl
@[simp] theorem Dev.modCore_peers (d : Dev) (c : Nat) (f : Core → Core) : (d.modCore c f).peers = d.peers := rfl
@[simp] theorem Dev.modCore_credit (d : Dev) (c : Nat) (f : Core → Core) : (d.modCore c f).credit = d.credit := rfl
@[simp] theorem Dev.modCore_ports (d : Dev) (c : Nat) (f : Core → Core) : (d.modCore c f).ports = d.ports := rfl
@[simp] theorem Dev.modCore_halves (d : Dev) (c : Nat) (f : Core → Core) : (d.modCore c f).halves = d.halves := rfl
@[simp] theorem Dev.modCore_channels (d : Dev) (c : Nat) (f : Core → Core) : (d.modCore c f).channels = d.channels := rfl
@[simp] theorem Dev.modCore_flits (d : Dev) (c : Nat) (f : Core → Core) : (d.modCore c f).flits = d.flits := rfl
@[simp] theorem Dev.modCore_tlbs (d : Dev) (c : Nat) (f : Core → Core) : (d.modCore c f).tlbs = d.tlbs := rfl
@[simp] theorem Dev.modCore_ptSeen (d : Dev) (c : Nat) (f : Core → Core) : (d.modCore c f).ptSeen = d.ptSeen := rfl
@[simp] theorem Dev.modCore_fts (d : Dev) (c : Nat) (f : Core → Core) : (d.modCore c f).fts = d.fts := rfl
@[simp] theorem Dev.modCore_keys (d : Dev) (c : Nat) (f : Core → Core) : (d.modCore c f).keys = d.keys := rfl
@[simp] theorem Dev.modCore_steers (d : Dev) (c : Nat) (f : Core → Core) : (d.modCore c f).steers = d.steers := rfl
@[simp] theorem Dev.modCore_sec (d : Dev) (c : Nat) (f : Core → Core) : (d.modCore c f).sec = d.sec := rfl
@[simp] theorem Dev.modCore_svc (d : Dev) (c : Nat) (f : Core → Core) : (d.modCore c f).svc = d.svc := rfl
@[simp] theorem Dev.modCore_trc (d : Dev) (c : Nat) (f : Core → Core) : (d.modCore c f).trc = d.trc := rfl
@[simp] theorem Dev.modCore_tap (d : Dev) (c : Nat) (f : Core → Core) : (d.modCore c f).tap = d.tap := rfl
@[simp] theorem Dev.modCore_power (d : Dev) (c : Nat) (f : Core → Core) : (d.modCore c f).power = d.power := rfl
@[simp] theorem Dev.modCore_aclkA (d : Dev) (c : Nat) (f : Core → Core) : (d.modCore c f).aclkA = d.aclkA := rfl
@[simp] theorem Dev.modCore_aclkB (d : Dev) (c : Nat) (f : Core → Core) : (d.modCore c f).aclkB = d.aclkB := rfl
@[simp] theorem Dev.modCore_lagB (d : Dev) (c : Nat) (f : Core → Core) : (d.modCore c f).lagB = d.lagB := rfl
@[simp] theorem Dev.modCore_free (d : Dev) (c : Nat) (f : Core → Core) : (d.modCore c f).free = d.free := rfl

@[simp] theorem Dev.setCtx_out (d : Dev) (c x : Nat) (t : Ctx) : (d.setCtx c x t).out = d.out := rfl
@[simp] theorem Dev.setCtx_bus (d : Dev) (c x : Nat) (t : Ctx) : (d.setCtx c x t).bus = d.bus := rfl
@[simp] theorem Dev.setCtx_cap (d : Dev) (c x : Nat) (t : Ctx) : (d.setCtx c x t).cap = d.cap := rfl
@[simp] theorem Dev.setCtx_regs (d : Dev) (c x : Nat) (t : Ctx) : (d.setCtx c x t).regs = d.regs := rfl
@[simp] theorem Dev.setCtx_mem (d : Dev) (c x : Nat) (t : Ctx) : (d.setCtx c x t).mem = d.mem := rfl
@[simp] theorem Dev.setCtx_dram (d : Dev) (c x : Nat) (t : Ctx) : (d.setCtx c x t).dram = d.dram := rfl
@[simp] theorem Dev.setCtx_poison (d : Dev) (c x : Nat) (t : Ctx) : (d.setCtx c x t).poison = d.poison := rfl
@[simp] theorem Dev.setCtx_drives (d : Dev) (c x : Nat) (t : Ctx) : (d.setCtx c x t).drives = d.drives := rfl
@[simp] theorem Dev.setCtx_flash (d : Dev) (c x : Nat) (t : Ctx) : (d.setCtx c x t).flash = d.flash := rfl
@[simp] theorem Dev.setCtx_queues (d : Dev) (c x : Nat) (t : Ctx) : (d.setCtx c x t).queues = d.queues := rfl
@[simp] theorem Dev.setCtx_upds (d : Dev) (c x : Nat) (t : Ctx) : (d.setCtx c x t).upds = d.upds := rfl
@[simp] theorem Dev.setCtx_nis (d : Dev) (c x : Nat) (t : Ctx) : (d.setCtx c x t).nis = d.nis := rfl
@[simp] theorem Dev.setCtx_peers (d : Dev) (c x : Nat) (t : Ctx) : (d.setCtx c x t).peers = d.peers := rfl
@[simp] theorem Dev.setCtx_credit (d : Dev) (c x : Nat) (t : Ctx) : (d.setCtx c x t).credit = d.credit := rfl
@[simp] theorem Dev.setCtx_ports (d : Dev) (c x : Nat) (t : Ctx) : (d.setCtx c x t).ports = d.ports := rfl
@[simp] theorem Dev.setCtx_halves (d : Dev) (c x : Nat) (t : Ctx) : (d.setCtx c x t).halves = d.halves := rfl
@[simp] theorem Dev.setCtx_channels (d : Dev) (c x : Nat) (t : Ctx) : (d.setCtx c x t).channels = d.channels := rfl
@[simp] theorem Dev.setCtx_flits (d : Dev) (c x : Nat) (t : Ctx) : (d.setCtx c x t).flits = d.flits := rfl
@[simp] theorem Dev.setCtx_tlbs (d : Dev) (c x : Nat) (t : Ctx) : (d.setCtx c x t).tlbs = d.tlbs := rfl
@[simp] theorem Dev.setCtx_ptSeen (d : Dev) (c x : Nat) (t : Ctx) : (d.setCtx c x t).ptSeen = d.ptSeen := rfl
@[simp] theorem Dev.setCtx_fts (d : Dev) (c x : Nat) (t : Ctx) : (d.setCtx c x t).fts = d.fts := rfl
@[simp] theorem Dev.setCtx_keys (d : Dev) (c x : Nat) (t : Ctx) : (d.setCtx c x t).keys = d.keys := rfl
@[simp] theorem Dev.setCtx_steers (d : Dev) (c x : Nat) (t : Ctx) : (d.setCtx c x t).steers = d.steers := rfl
@[simp] theorem Dev.setCtx_sec (d : Dev) (c x : Nat) (t : Ctx) : (d.setCtx c x t).sec = d.sec := rfl
@[simp] theorem Dev.setCtx_svc (d : Dev) (c x : Nat) (t : Ctx) : (d.setCtx c x t).svc = d.svc := rfl
@[simp] theorem Dev.setCtx_trc (d : Dev) (c x : Nat) (t : Ctx) : (d.setCtx c x t).trc = d.trc := rfl
@[simp] theorem Dev.setCtx_tap (d : Dev) (c x : Nat) (t : Ctx) : (d.setCtx c x t).tap = d.tap := rfl
@[simp] theorem Dev.setCtx_power (d : Dev) (c x : Nat) (t : Ctx) : (d.setCtx c x t).power = d.power := rfl
@[simp] theorem Dev.setCtx_aclkA (d : Dev) (c x : Nat) (t : Ctx) : (d.setCtx c x t).aclkA = d.aclkA := rfl
@[simp] theorem Dev.setCtx_aclkB (d : Dev) (c x : Nat) (t : Ctx) : (d.setCtx c x t).aclkB = d.aclkB := rfl
@[simp] theorem Dev.setCtx_lagB (d : Dev) (c x : Nat) (t : Ctx) : (d.setCtx c x t).lagB = d.lagB := rfl
@[simp] theorem Dev.setCtx_free (d : Dev) (c x : Nat) (t : Ctx) : (d.setCtx c x t).free = d.free := rfl

@[simp] theorem Dev.freeCtx_out (d : Dev) (c x : Nat) : (d.freeCtx c x).out = d.out := rfl
@[simp] theorem Dev.freeCtx_bus (d : Dev) (c x : Nat) : (d.freeCtx c x).bus = d.bus := rfl
@[simp] theorem Dev.freeCtx_cap (d : Dev) (c x : Nat) : (d.freeCtx c x).cap = d.cap := rfl
@[simp] theorem Dev.freeCtx_regs (d : Dev) (c x : Nat) : (d.freeCtx c x).regs = d.regs := rfl
@[simp] theorem Dev.freeCtx_mem (d : Dev) (c x : Nat) : (d.freeCtx c x).mem = d.mem := rfl
@[simp] theorem Dev.freeCtx_dram (d : Dev) (c x : Nat) : (d.freeCtx c x).dram = d.dram := rfl
@[simp] theorem Dev.freeCtx_poison (d : Dev) (c x : Nat) : (d.freeCtx c x).poison = d.poison := rfl
@[simp] theorem Dev.freeCtx_drives (d : Dev) (c x : Nat) : (d.freeCtx c x).drives = d.drives := rfl
@[simp] theorem Dev.freeCtx_flash (d : Dev) (c x : Nat) : (d.freeCtx c x).flash = d.flash := rfl
@[simp] theorem Dev.freeCtx_queues (d : Dev) (c x : Nat) : (d.freeCtx c x).queues = d.queues := rfl
@[simp] theorem Dev.freeCtx_upds (d : Dev) (c x : Nat) : (d.freeCtx c x).upds = d.upds := rfl
@[simp] theorem Dev.freeCtx_nis (d : Dev) (c x : Nat) : (d.freeCtx c x).nis = d.nis := rfl
@[simp] theorem Dev.freeCtx_peers (d : Dev) (c x : Nat) : (d.freeCtx c x).peers = d.peers := rfl
@[simp] theorem Dev.freeCtx_credit (d : Dev) (c x : Nat) : (d.freeCtx c x).credit = d.credit := rfl
@[simp] theorem Dev.freeCtx_ports (d : Dev) (c x : Nat) : (d.freeCtx c x).ports = d.ports := rfl
@[simp] theorem Dev.freeCtx_halves (d : Dev) (c x : Nat) : (d.freeCtx c x).halves = d.halves := rfl
@[simp] theorem Dev.freeCtx_channels (d : Dev) (c x : Nat) : (d.freeCtx c x).channels = d.channels := rfl
@[simp] theorem Dev.freeCtx_flits (d : Dev) (c x : Nat) : (d.freeCtx c x).flits = d.flits := rfl
@[simp] theorem Dev.freeCtx_tlbs (d : Dev) (c x : Nat) : (d.freeCtx c x).tlbs = d.tlbs := rfl
@[simp] theorem Dev.freeCtx_ptSeen (d : Dev) (c x : Nat) : (d.freeCtx c x).ptSeen = d.ptSeen := rfl
@[simp] theorem Dev.freeCtx_fts (d : Dev) (c x : Nat) : (d.freeCtx c x).fts = d.fts := rfl
@[simp] theorem Dev.freeCtx_keys (d : Dev) (c x : Nat) : (d.freeCtx c x).keys = d.keys := rfl
@[simp] theorem Dev.freeCtx_steers (d : Dev) (c x : Nat) : (d.freeCtx c x).steers = d.steers := rfl
@[simp] theorem Dev.freeCtx_sec (d : Dev) (c x : Nat) : (d.freeCtx c x).sec = d.sec := rfl
@[simp] theorem Dev.freeCtx_svc (d : Dev) (c x : Nat) : (d.freeCtx c x).svc = d.svc := rfl
@[simp] theorem Dev.freeCtx_trc (d : Dev) (c x : Nat) : (d.freeCtx c x).trc = d.trc := rfl
@[simp] theorem Dev.freeCtx_tap (d : Dev) (c x : Nat) : (d.freeCtx c x).tap = d.tap := rfl
@[simp] theorem Dev.freeCtx_power (d : Dev) (c x : Nat) : (d.freeCtx c x).power = d.power := rfl
@[simp] theorem Dev.freeCtx_aclkA (d : Dev) (c x : Nat) : (d.freeCtx c x).aclkA = d.aclkA := rfl
@[simp] theorem Dev.freeCtx_aclkB (d : Dev) (c x : Nat) : (d.freeCtx c x).aclkB = d.aclkB := rfl
@[simp] theorem Dev.freeCtx_lagB (d : Dev) (c x : Nat) : (d.freeCtx c x).lagB = d.lagB := rfl
@[simp] theorem Dev.freeCtx_free (d : Dev) (c x : Nat) : (d.freeCtx c x).free = d.free := rfl

@[simp] theorem Dev.setQueue_out (d : Dev) (q : Nat) (x : QState) : (d.setQueue q x).out = d.out := rfl
@[simp] theorem Dev.setQueue_bus (d : Dev) (q : Nat) (x : QState) : (d.setQueue q x).bus = d.bus := rfl
@[simp] theorem Dev.setQueue_cap (d : Dev) (q : Nat) (x : QState) : (d.setQueue q x).cap = d.cap := rfl
@[simp] theorem Dev.setQueue_regs (d : Dev) (q : Nat) (x : QState) : (d.setQueue q x).regs = d.regs := rfl
@[simp] theorem Dev.setQueue_mem (d : Dev) (q : Nat) (x : QState) : (d.setQueue q x).mem = d.mem := rfl
@[simp] theorem Dev.setQueue_dram (d : Dev) (q : Nat) (x : QState) : (d.setQueue q x).dram = d.dram := rfl
@[simp] theorem Dev.setQueue_poison (d : Dev) (q : Nat) (x : QState) : (d.setQueue q x).poison = d.poison := rfl
@[simp] theorem Dev.setQueue_drives (d : Dev) (q : Nat) (x : QState) : (d.setQueue q x).drives = d.drives := rfl
@[simp] theorem Dev.setQueue_flash (d : Dev) (q : Nat) (x : QState) : (d.setQueue q x).flash = d.flash := rfl
@[simp] theorem Dev.setQueue_cores (d : Dev) (q : Nat) (x : QState) : (d.setQueue q x).cores = d.cores := rfl
@[simp] theorem Dev.setQueue_queues (d : Dev) (q : Nat) (x : QState) : (d.setQueue q x).queues = KV.set d.queues q x := rfl
@[simp] theorem Dev.setQueue_upds (d : Dev) (q : Nat) (x : QState) : (d.setQueue q x).upds = d.upds := rfl
@[simp] theorem Dev.setQueue_nis (d : Dev) (q : Nat) (x : QState) : (d.setQueue q x).nis = d.nis := rfl
@[simp] theorem Dev.setQueue_peers (d : Dev) (q : Nat) (x : QState) : (d.setQueue q x).peers = d.peers := rfl
@[simp] theorem Dev.setQueue_credit (d : Dev) (q : Nat) (x : QState) : (d.setQueue q x).credit = d.credit := rfl
@[simp] theorem Dev.setQueue_ports (d : Dev) (q : Nat) (x : QState) : (d.setQueue q x).ports = d.ports := rfl
@[simp] theorem Dev.setQueue_halves (d : Dev) (q : Nat) (x : QState) : (d.setQueue q x).halves = d.halves := rfl
@[simp] theorem Dev.setQueue_channels (d : Dev) (q : Nat) (x : QState) : (d.setQueue q x).channels = d.channels := rfl
@[simp] theorem Dev.setQueue_flits (d : Dev) (q : Nat) (x : QState) : (d.setQueue q x).flits = d.flits := rfl
@[simp] theorem Dev.setQueue_tlbs (d : Dev) (q : Nat) (x : QState) : (d.setQueue q x).tlbs = d.tlbs := rfl
@[simp] theorem Dev.setQueue_ptSeen (d : Dev) (q : Nat) (x : QState) : (d.setQueue q x).ptSeen = d.ptSeen := rfl
@[simp] theorem Dev.setQueue_fts (d : Dev) (q : Nat) (x : QState) : (d.setQueue q x).fts = d.fts := rfl
@[simp] theorem Dev.setQueue_keys (d : Dev) (q : Nat) (x : QState) : (d.setQueue q x).keys = d.keys := rfl
@[simp] theorem Dev.setQueue_steers (d : Dev) (q : Nat) (x : QState) : (d.setQueue q x).steers = d.steers := rfl
@[simp] theorem Dev.setQueue_sec (d : Dev) (q : Nat) (x : QState) : (d.setQueue q x).sec = d.sec := rfl
@[simp] theorem Dev.setQueue_svc (d : Dev) (q : Nat) (x : QState) : (d.setQueue q x).svc = d.svc := rfl
@[simp] theorem Dev.setQueue_trc (d : Dev) (q : Nat) (x : QState) : (d.setQueue q x).trc = d.trc := rfl
@[simp] theorem Dev.setQueue_tap (d : Dev) (q : Nat) (x : QState) : (d.setQueue q x).tap = d.tap := rfl
@[simp] theorem Dev.setQueue_power (d : Dev) (q : Nat) (x : QState) : (d.setQueue q x).power = d.power := rfl
@[simp] theorem Dev.setQueue_aclkA (d : Dev) (q : Nat) (x : QState) : (d.setQueue q x).aclkA = d.aclkA := rfl
@[simp] theorem Dev.setQueue_aclkB (d : Dev) (q : Nat) (x : QState) : (d.setQueue q x).aclkB = d.aclkB := rfl
@[simp] theorem Dev.setQueue_lagB (d : Dev) (q : Nat) (x : QState) : (d.setQueue q x).lagB = d.lagB := rfl
@[simp] theorem Dev.setQueue_free (d : Dev) (q : Nat) (x : QState) : (d.setQueue q x).free = d.free := rfl

@[simp] theorem Dev.modUpd_out (d : Dev) (h : Nat) (f : Upd → Upd) : (d.modUpd h f).out = d.out := rfl
@[simp] theorem Dev.modUpd_bus (d : Dev) (h : Nat) (f : Upd → Upd) : (d.modUpd h f).bus = d.bus := rfl
@[simp] theorem Dev.modUpd_cap (d : Dev) (h : Nat) (f : Upd → Upd) : (d.modUpd h f).cap = d.cap := rfl
@[simp] theorem Dev.modUpd_regs (d : Dev) (h : Nat) (f : Upd → Upd) : (d.modUpd h f).regs = d.regs := rfl
@[simp] theorem Dev.modUpd_mem (d : Dev) (h : Nat) (f : Upd → Upd) : (d.modUpd h f).mem = d.mem := rfl
@[simp] theorem Dev.modUpd_dram (d : Dev) (h : Nat) (f : Upd → Upd) : (d.modUpd h f).dram = d.dram := rfl
@[simp] theorem Dev.modUpd_poison (d : Dev) (h : Nat) (f : Upd → Upd) : (d.modUpd h f).poison = d.poison := rfl
@[simp] theorem Dev.modUpd_drives (d : Dev) (h : Nat) (f : Upd → Upd) : (d.modUpd h f).drives = d.drives := rfl
@[simp] theorem Dev.modUpd_flash (d : Dev) (h : Nat) (f : Upd → Upd) : (d.modUpd h f).flash = d.flash := rfl
@[simp] theorem Dev.modUpd_cores (d : Dev) (h : Nat) (f : Upd → Upd) : (d.modUpd h f).cores = d.cores := rfl
@[simp] theorem Dev.modUpd_queues (d : Dev) (h : Nat) (f : Upd → Upd) : (d.modUpd h f).queues = d.queues := rfl
@[simp] theorem Dev.modUpd_upds (d : Dev) (h : Nat) (f : Upd → Upd) : (d.modUpd h f).upds = KV.set d.upds h (f (d.upd h)) := rfl
@[simp] theorem Dev.modUpd_nis (d : Dev) (h : Nat) (f : Upd → Upd) : (d.modUpd h f).nis = d.nis := rfl
@[simp] theorem Dev.modUpd_peers (d : Dev) (h : Nat) (f : Upd → Upd) : (d.modUpd h f).peers = d.peers := rfl
@[simp] theorem Dev.modUpd_credit (d : Dev) (h : Nat) (f : Upd → Upd) : (d.modUpd h f).credit = d.credit := rfl
@[simp] theorem Dev.modUpd_ports (d : Dev) (h : Nat) (f : Upd → Upd) : (d.modUpd h f).ports = d.ports := rfl
@[simp] theorem Dev.modUpd_halves (d : Dev) (h : Nat) (f : Upd → Upd) : (d.modUpd h f).halves = d.halves := rfl
@[simp] theorem Dev.modUpd_channels (d : Dev) (h : Nat) (f : Upd → Upd) : (d.modUpd h f).channels = d.channels := rfl
@[simp] theorem Dev.modUpd_flits (d : Dev) (h : Nat) (f : Upd → Upd) : (d.modUpd h f).flits = d.flits := rfl
@[simp] theorem Dev.modUpd_tlbs (d : Dev) (h : Nat) (f : Upd → Upd) : (d.modUpd h f).tlbs = d.tlbs := rfl
@[simp] theorem Dev.modUpd_ptSeen (d : Dev) (h : Nat) (f : Upd → Upd) : (d.modUpd h f).ptSeen = d.ptSeen := rfl
@[simp] theorem Dev.modUpd_fts (d : Dev) (h : Nat) (f : Upd → Upd) : (d.modUpd h f).fts = d.fts := rfl
@[simp] theorem Dev.modUpd_keys (d : Dev) (h : Nat) (f : Upd → Upd) : (d.modUpd h f).keys = d.keys := rfl
@[simp] theorem Dev.modUpd_steers (d : Dev) (h : Nat) (f : Upd → Upd) : (d.modUpd h f).steers = d.steers := rfl
@[simp] theorem Dev.modUpd_sec (d : Dev) (h : Nat) (f : Upd → Upd) : (d.modUpd h f).sec = d.sec := rfl
@[simp] theorem Dev.modUpd_svc (d : Dev) (h : Nat) (f : Upd → Upd) : (d.modUpd h f).svc = d.svc := rfl
@[simp] theorem Dev.modUpd_trc (d : Dev) (h : Nat) (f : Upd → Upd) : (d.modUpd h f).trc = d.trc := rfl
@[simp] theorem Dev.modUpd_tap (d : Dev) (h : Nat) (f : Upd → Upd) : (d.modUpd h f).tap = d.tap := rfl
@[simp] theorem Dev.modUpd_power (d : Dev) (h : Nat) (f : Upd → Upd) : (d.modUpd h f).power = d.power := rfl
@[simp] theorem Dev.modUpd_aclkA (d : Dev) (h : Nat) (f : Upd → Upd) : (d.modUpd h f).aclkA = d.aclkA := rfl
@[simp] theorem Dev.modUpd_aclkB (d : Dev) (h : Nat) (f : Upd → Upd) : (d.modUpd h f).aclkB = d.aclkB := rfl
@[simp] theorem Dev.modUpd_lagB (d : Dev) (h : Nat) (f : Upd → Upd) : (d.modUpd h f).lagB = d.lagB := rfl
@[simp] theorem Dev.modUpd_free (d : Dev) (h : Nat) (f : Upd → Upd) : (d.modUpd h f).free = d.free := rfl

@[simp] theorem Dev.modNi_out (d : Dev) (h : Nat) (f : Ni → Ni) : (d.modNi h f).out = d.out := rfl
@[simp] theorem Dev.modNi_bus (d : Dev) (h : Nat) (f : Ni → Ni) : (d.modNi h f).bus = d.bus := rfl
@[simp] theorem Dev.modNi_cap (d : Dev) (h : Nat) (f : Ni → Ni) : (d.modNi h f).cap = d.cap := rfl
@[simp] theorem Dev.modNi_regs (d : Dev) (h : Nat) (f : Ni → Ni) : (d.modNi h f).regs = d.regs := rfl
@[simp] theorem Dev.modNi_mem (d : Dev) (h : Nat) (f : Ni → Ni) : (d.modNi h f).mem = d.mem := rfl
@[simp] theorem Dev.modNi_dram (d : Dev) (h : Nat) (f : Ni → Ni) : (d.modNi h f).dram = d.dram := rfl
@[simp] theorem Dev.modNi_poison (d : Dev) (h : Nat) (f : Ni → Ni) : (d.modNi h f).poison = d.poison := rfl
@[simp] theorem Dev.modNi_drives (d : Dev) (h : Nat) (f : Ni → Ni) : (d.modNi h f).drives = d.drives := rfl
@[simp] theorem Dev.modNi_flash (d : Dev) (h : Nat) (f : Ni → Ni) : (d.modNi h f).flash = d.flash := rfl
@[simp] theorem Dev.modNi_cores (d : Dev) (h : Nat) (f : Ni → Ni) : (d.modNi h f).cores = d.cores := rfl
@[simp] theorem Dev.modNi_queues (d : Dev) (h : Nat) (f : Ni → Ni) : (d.modNi h f).queues = d.queues := rfl
@[simp] theorem Dev.modNi_upds (d : Dev) (h : Nat) (f : Ni → Ni) : (d.modNi h f).upds = d.upds := rfl
@[simp] theorem Dev.modNi_nis (d : Dev) (h : Nat) (f : Ni → Ni) : (d.modNi h f).nis = KV.set d.nis h (f (d.ni h)) := rfl
@[simp] theorem Dev.modNi_peers (d : Dev) (h : Nat) (f : Ni → Ni) : (d.modNi h f).peers = d.peers := rfl
@[simp] theorem Dev.modNi_credit (d : Dev) (h : Nat) (f : Ni → Ni) : (d.modNi h f).credit = d.credit := rfl
@[simp] theorem Dev.modNi_ports (d : Dev) (h : Nat) (f : Ni → Ni) : (d.modNi h f).ports = d.ports := rfl
@[simp] theorem Dev.modNi_halves (d : Dev) (h : Nat) (f : Ni → Ni) : (d.modNi h f).halves = d.halves := rfl
@[simp] theorem Dev.modNi_channels (d : Dev) (h : Nat) (f : Ni → Ni) : (d.modNi h f).channels = d.channels := rfl
@[simp] theorem Dev.modNi_flits (d : Dev) (h : Nat) (f : Ni → Ni) : (d.modNi h f).flits = d.flits := rfl
@[simp] theorem Dev.modNi_tlbs (d : Dev) (h : Nat) (f : Ni → Ni) : (d.modNi h f).tlbs = d.tlbs := rfl
@[simp] theorem Dev.modNi_ptSeen (d : Dev) (h : Nat) (f : Ni → Ni) : (d.modNi h f).ptSeen = d.ptSeen := rfl
@[simp] theorem Dev.modNi_fts (d : Dev) (h : Nat) (f : Ni → Ni) : (d.modNi h f).fts = d.fts := rfl
@[simp] theorem Dev.modNi_keys (d : Dev) (h : Nat) (f : Ni → Ni) : (d.modNi h f).keys = d.keys := rfl
@[simp] theorem Dev.modNi_steers (d : Dev) (h : Nat) (f : Ni → Ni) : (d.modNi h f).steers = d.steers := rfl
@[simp] theorem Dev.modNi_sec (d : Dev) (h : Nat) (f : Ni → Ni) : (d.modNi h f).sec = d.sec := rfl
@[simp] theorem Dev.modNi_svc (d : Dev) (h : Nat) (f : Ni → Ni) : (d.modNi h f).svc = d.svc := rfl
@[simp] theorem Dev.modNi_trc (d : Dev) (h : Nat) (f : Ni → Ni) : (d.modNi h f).trc = d.trc := rfl
@[simp] theorem Dev.modNi_tap (d : Dev) (h : Nat) (f : Ni → Ni) : (d.modNi h f).tap = d.tap := rfl
@[simp] theorem Dev.modNi_power (d : Dev) (h : Nat) (f : Ni → Ni) : (d.modNi h f).power = d.power := rfl
@[simp] theorem Dev.modNi_aclkA (d : Dev) (h : Nat) (f : Ni → Ni) : (d.modNi h f).aclkA = d.aclkA := rfl
@[simp] theorem Dev.modNi_aclkB (d : Dev) (h : Nat) (f : Ni → Ni) : (d.modNi h f).aclkB = d.aclkB := rfl
@[simp] theorem Dev.modNi_lagB (d : Dev) (h : Nat) (f : Ni → Ni) : (d.modNi h f).lagB = d.lagB := rfl
@[simp] theorem Dev.modNi_free (d : Dev) (h : Nat) (f : Ni → Ni) : (d.modNi h f).free = d.free := rfl

@[simp] theorem Dev.modPort_out (d : Dev) (n : Nat) (f : Port → Port) : (d.modPort n f).out = d.out := rfl
@[simp] theorem Dev.modPort_bus (d : Dev) (n : Nat) (f : Port → Port) : (d.modPort n f).bus = d.bus := rfl
@[simp] theorem Dev.modPort_cap (d : Dev) (n : Nat) (f : Port → Port) : (d.modPort n f).cap = d.cap := rfl
@[simp] theorem Dev.modPort_regs (d : Dev) (n : Nat) (f : Port → Port) : (d.modPort n f).regs = d.regs := rfl
@[simp] theorem Dev.modPort_mem (d : Dev) (n : Nat) (f : Port → Port) : (d.modPort n f).mem = d.mem := rfl
@[simp] theorem Dev.modPort_dram (d : Dev) (n : Nat) (f : Port → Port) : (d.modPort n f).dram = d.dram := rfl
@[simp] theorem Dev.modPort_poison (d : Dev) (n : Nat) (f : Port → Port) : (d.modPort n f).poison = d.poison := rfl
@[simp] theorem Dev.modPort_drives (d : Dev) (n : Nat) (f : Port → Port) : (d.modPort n f).drives = d.drives := rfl
@[simp] theorem Dev.modPort_flash (d : Dev) (n : Nat) (f : Port → Port) : (d.modPort n f).flash = d.flash := rfl
@[simp] theorem Dev.modPort_cores (d : Dev) (n : Nat) (f : Port → Port) : (d.modPort n f).cores = d.cores := rfl
@[simp] theorem Dev.modPort_queues (d : Dev) (n : Nat) (f : Port → Port) : (d.modPort n f).queues = d.queues := rfl
@[simp] theorem Dev.modPort_upds (d : Dev) (n : Nat) (f : Port → Port) : (d.modPort n f).upds = d.upds := rfl
@[simp] theorem Dev.modPort_nis (d : Dev) (n : Nat) (f : Port → Port) : (d.modPort n f).nis = d.nis := rfl
@[simp] theorem Dev.modPort_peers (d : Dev) (n : Nat) (f : Port → Port) : (d.modPort n f).peers = d.peers := rfl
@[simp] theorem Dev.modPort_credit (d : Dev) (n : Nat) (f : Port → Port) : (d.modPort n f).credit = d.credit := rfl
@[simp] theorem Dev.modPort_ports (d : Dev) (n : Nat) (f : Port → Port) : (d.modPort n f).ports = KV.set d.ports n (f (d.port n)) := rfl
@[simp] theorem Dev.modPort_halves (d : Dev) (n : Nat) (f : Port → Port) : (d.modPort n f).halves = d.halves := rfl
@[simp] theorem Dev.modPort_channels (d : Dev) (n : Nat) (f : Port → Port) : (d.modPort n f).channels = d.channels := rfl
@[simp] theorem Dev.modPort_flits (d : Dev) (n : Nat) (f : Port → Port) : (d.modPort n f).flits = d.flits := rfl
@[simp] theorem Dev.modPort_tlbs (d : Dev) (n : Nat) (f : Port → Port) : (d.modPort n f).tlbs = d.tlbs := rfl
@[simp] theorem Dev.modPort_ptSeen (d : Dev) (n : Nat) (f : Port → Port) : (d.modPort n f).ptSeen = d.ptSeen := rfl
@[simp] theorem Dev.modPort_fts (d : Dev) (n : Nat) (f : Port → Port) : (d.modPort n f).fts = d.fts := rfl
@[simp] theorem Dev.modPort_keys (d : Dev) (n : Nat) (f : Port → Port) : (d.modPort n f).keys = d.keys := rfl
@[simp] theorem Dev.modPort_steers (d : Dev) (n : Nat) (f : Port → Port) : (d.modPort n f).steers = d.steers := rfl
@[simp] theorem Dev.modPort_sec (d : Dev) (n : Nat) (f : Port → Port) : (d.modPort n f).sec = d.sec := rfl
@[simp] theorem Dev.modPort_svc (d : Dev) (n : Nat) (f : Port → Port) : (d.modPort n f).svc = d.svc := rfl
@[simp] theorem Dev.modPort_trc (d : Dev) (n : Nat) (f : Port → Port) : (d.modPort n f).trc = d.trc := rfl
@[simp] theorem Dev.modPort_tap (d : Dev) (n : Nat) (f : Port → Port) : (d.modPort n f).tap = d.tap := rfl
@[simp] theorem Dev.modPort_power (d : Dev) (n : Nat) (f : Port → Port) : (d.modPort n f).power = d.power := rfl
@[simp] theorem Dev.modPort_aclkA (d : Dev) (n : Nat) (f : Port → Port) : (d.modPort n f).aclkA = d.aclkA := rfl
@[simp] theorem Dev.modPort_aclkB (d : Dev) (n : Nat) (f : Port → Port) : (d.modPort n f).aclkB = d.aclkB := rfl
@[simp] theorem Dev.modPort_lagB (d : Dev) (n : Nat) (f : Port → Port) : (d.modPort n f).lagB = d.lagB := rfl
@[simp] theorem Dev.modPort_free (d : Dev) (n : Nat) (f : Port → Port) : (d.modPort n f).free = d.free := rfl

@[simp] theorem Dev.modHalf_out (d : Dev) (h : Nat) (f : Half → Half) : (d.modHalf h f).out = d.out := rfl
@[simp] theorem Dev.modHalf_bus (d : Dev) (h : Nat) (f : Half → Half) : (d.modHalf h f).bus = d.bus := rfl
@[simp] theorem Dev.modHalf_cap (d : Dev) (h : Nat) (f : Half → Half) : (d.modHalf h f).cap = d.cap := rfl
@[simp] theorem Dev.modHalf_regs (d : Dev) (h : Nat) (f : Half → Half) : (d.modHalf h f).regs = d.regs := rfl
@[simp] theorem Dev.modHalf_mem (d : Dev) (h : Nat) (f : Half → Half) : (d.modHalf h f).mem = d.mem := rfl
@[simp] theorem Dev.modHalf_dram (d : Dev) (h : Nat) (f : Half → Half) : (d.modHalf h f).dram = d.dram := rfl
@[simp] theorem Dev.modHalf_poison (d : Dev) (h : Nat) (f : Half → Half) : (d.modHalf h f).poison = d.poison := rfl
@[simp] theorem Dev.modHalf_drives (d : Dev) (h : Nat) (f : Half → Half) : (d.modHalf h f).drives = d.drives := rfl
@[simp] theorem Dev.modHalf_flash (d : Dev) (h : Nat) (f : Half → Half) : (d.modHalf h f).flash = d.flash := rfl
@[simp] theorem Dev.modHalf_cores (d : Dev) (h : Nat) (f : Half → Half) : (d.modHalf h f).cores = d.cores := rfl
@[simp] theorem Dev.modHalf_queues (d : Dev) (h : Nat) (f : Half → Half) : (d.modHalf h f).queues = d.queues := rfl
@[simp] theorem Dev.modHalf_upds (d : Dev) (h : Nat) (f : Half → Half) : (d.modHalf h f).upds = d.upds := rfl
@[simp] theorem Dev.modHalf_nis (d : Dev) (h : Nat) (f : Half → Half) : (d.modHalf h f).nis = d.nis := rfl
@[simp] theorem Dev.modHalf_peers (d : Dev) (h : Nat) (f : Half → Half) : (d.modHalf h f).peers = d.peers := rfl
@[simp] theorem Dev.modHalf_credit (d : Dev) (h : Nat) (f : Half → Half) : (d.modHalf h f).credit = d.credit := rfl
@[simp] theorem Dev.modHalf_ports (d : Dev) (h : Nat) (f : Half → Half) : (d.modHalf h f).ports = d.ports := rfl
@[simp] theorem Dev.modHalf_halves (d : Dev) (h : Nat) (f : Half → Half) : (d.modHalf h f).halves = KV.set d.halves h (f (d.half h)) := rfl
@[simp] theorem Dev.modHalf_channels (d : Dev) (h : Nat) (f : Half → Half) : (d.modHalf h f).channels = d.channels := rfl
@[simp] theorem Dev.modHalf_flits (d : Dev) (h : Nat) (f : Half → Half) : (d.modHalf h f).flits = d.flits := rfl
@[simp] theorem Dev.modHalf_tlbs (d : Dev) (h : Nat) (f : Half → Half) : (d.modHalf h f).tlbs = d.tlbs := rfl
@[simp] theorem Dev.modHalf_ptSeen (d : Dev) (h : Nat) (f : Half → Half) : (d.modHalf h f).ptSeen = d.ptSeen := rfl
@[simp] theorem Dev.modHalf_fts (d : Dev) (h : Nat) (f : Half → Half) : (d.modHalf h f).fts = d.fts := rfl
@[simp] theorem Dev.modHalf_keys (d : Dev) (h : Nat) (f : Half → Half) : (d.modHalf h f).keys = d.keys := rfl
@[simp] theorem Dev.modHalf_steers (d : Dev) (h : Nat) (f : Half → Half) : (d.modHalf h f).steers = d.steers := rfl
@[simp] theorem Dev.modHalf_sec (d : Dev) (h : Nat) (f : Half → Half) : (d.modHalf h f).sec = d.sec := rfl
@[simp] theorem Dev.modHalf_svc (d : Dev) (h : Nat) (f : Half → Half) : (d.modHalf h f).svc = d.svc := rfl
@[simp] theorem Dev.modHalf_trc (d : Dev) (h : Nat) (f : Half → Half) : (d.modHalf h f).trc = d.trc := rfl
@[simp] theorem Dev.modHalf_tap (d : Dev) (h : Nat) (f : Half → Half) : (d.modHalf h f).tap = d.tap := rfl
@[simp] theorem Dev.modHalf_power (d : Dev) (h : Nat) (f : Half → Half) : (d.modHalf h f).power = d.power := rfl
@[simp] theorem Dev.modHalf_aclkA (d : Dev) (h : Nat) (f : Half → Half) : (d.modHalf h f).aclkA = d.aclkA := rfl
@[simp] theorem Dev.modHalf_aclkB (d : Dev) (h : Nat) (f : Half → Half) : (d.modHalf h f).aclkB = d.aclkB := rfl
@[simp] theorem Dev.modHalf_lagB (d : Dev) (h : Nat) (f : Half → Half) : (d.modHalf h f).lagB = d.lagB := rfl
@[simp] theorem Dev.modHalf_free (d : Dev) (h : Nat) (f : Half → Half) : (d.modHalf h f).free = d.free := rfl

@[simp] theorem Dev.modChan_out (d : Dev) (k : Nat) (f : Channel → Channel) : (d.modChan k f).out = d.out := rfl
@[simp] theorem Dev.modChan_bus (d : Dev) (k : Nat) (f : Channel → Channel) : (d.modChan k f).bus = d.bus := rfl
@[simp] theorem Dev.modChan_cap (d : Dev) (k : Nat) (f : Channel → Channel) : (d.modChan k f).cap = d.cap := rfl
@[simp] theorem Dev.modChan_regs (d : Dev) (k : Nat) (f : Channel → Channel) : (d.modChan k f).regs = d.regs := rfl
@[simp] theorem Dev.modChan_mem (d : Dev) (k : Nat) (f : Channel → Channel) : (d.modChan k f).mem = d.mem := rfl
@[simp] theorem Dev.modChan_dram (d : Dev) (k : Nat) (f : Channel → Channel) : (d.modChan k f).dram = d.dram := rfl
@[simp] theorem Dev.modChan_poison (d : Dev) (k : Nat) (f : Channel → Channel) : (d.modChan k f).poison = d.poison := rfl
@[simp] theorem Dev.modChan_drives (d : Dev) (k : Nat) (f : Channel → Channel) : (d.modChan k f).drives = d.drives := rfl
@[simp] theorem Dev.modChan_flash (d : Dev) (k : Nat) (f : Channel → Channel) : (d.modChan k f).flash = d.flash := rfl
@[simp] theorem Dev.modChan_cores (d : Dev) (k : Nat) (f : Channel → Channel) : (d.modChan k f).cores = d.cores := rfl
@[simp] theorem Dev.modChan_queues (d : Dev) (k : Nat) (f : Channel → Channel) : (d.modChan k f).queues = d.queues := rfl
@[simp] theorem Dev.modChan_upds (d : Dev) (k : Nat) (f : Channel → Channel) : (d.modChan k f).upds = d.upds := rfl
@[simp] theorem Dev.modChan_nis (d : Dev) (k : Nat) (f : Channel → Channel) : (d.modChan k f).nis = d.nis := rfl
@[simp] theorem Dev.modChan_peers (d : Dev) (k : Nat) (f : Channel → Channel) : (d.modChan k f).peers = d.peers := rfl
@[simp] theorem Dev.modChan_credit (d : Dev) (k : Nat) (f : Channel → Channel) : (d.modChan k f).credit = d.credit := rfl
@[simp] theorem Dev.modChan_ports (d : Dev) (k : Nat) (f : Channel → Channel) : (d.modChan k f).ports = d.ports := rfl
@[simp] theorem Dev.modChan_halves (d : Dev) (k : Nat) (f : Channel → Channel) : (d.modChan k f).halves = d.halves := rfl
@[simp] theorem Dev.modChan_channels (d : Dev) (k : Nat) (f : Channel → Channel) : (d.modChan k f).channels = KV.set d.channels k (f (d.chan k)) := rfl
@[simp] theorem Dev.modChan_flits (d : Dev) (k : Nat) (f : Channel → Channel) : (d.modChan k f).flits = d.flits := rfl
@[simp] theorem Dev.modChan_tlbs (d : Dev) (k : Nat) (f : Channel → Channel) : (d.modChan k f).tlbs = d.tlbs := rfl
@[simp] theorem Dev.modChan_ptSeen (d : Dev) (k : Nat) (f : Channel → Channel) : (d.modChan k f).ptSeen = d.ptSeen := rfl
@[simp] theorem Dev.modChan_fts (d : Dev) (k : Nat) (f : Channel → Channel) : (d.modChan k f).fts = d.fts := rfl
@[simp] theorem Dev.modChan_keys (d : Dev) (k : Nat) (f : Channel → Channel) : (d.modChan k f).keys = d.keys := rfl
@[simp] theorem Dev.modChan_steers (d : Dev) (k : Nat) (f : Channel → Channel) : (d.modChan k f).steers = d.steers := rfl
@[simp] theorem Dev.modChan_sec (d : Dev) (k : Nat) (f : Channel → Channel) : (d.modChan k f).sec = d.sec := rfl
@[simp] theorem Dev.modChan_svc (d : Dev) (k : Nat) (f : Channel → Channel) : (d.modChan k f).svc = d.svc := rfl
@[simp] theorem Dev.modChan_trc (d : Dev) (k : Nat) (f : Channel → Channel) : (d.modChan k f).trc = d.trc := rfl
@[simp] theorem Dev.modChan_tap (d : Dev) (k : Nat) (f : Channel → Channel) : (d.modChan k f).tap = d.tap := rfl
@[simp] theorem Dev.modChan_power (d : Dev) (k : Nat) (f : Channel → Channel) : (d.modChan k f).power = d.power := rfl
@[simp] theorem Dev.modChan_aclkA (d : Dev) (k : Nat) (f : Channel → Channel) : (d.modChan k f).aclkA = d.aclkA := rfl
@[simp] theorem Dev.modChan_aclkB (d : Dev) (k : Nat) (f : Channel → Channel) : (d.modChan k f).aclkB = d.aclkB := rfl
@[simp] theorem Dev.modChan_lagB (d : Dev) (k : Nat) (f : Channel → Channel) : (d.modChan k f).lagB = d.lagB := rfl
@[simp] theorem Dev.modChan_free (d : Dev) (k : Nat) (f : Channel → Channel) : (d.modChan k f).free = d.free := rfl

@[simp] theorem Dev.put_out (d : Dev) (pa : Nat) (bs : List Byte) : (d.put pa bs).out = d.out := rfl
@[simp] theorem Dev.put_bus (d : Dev) (pa : Nat) (bs : List Byte) : (d.put pa bs).bus = d.bus := rfl
@[simp] theorem Dev.put_cap (d : Dev) (pa : Nat) (bs : List Byte) : (d.put pa bs).cap = d.cap := rfl
@[simp] theorem Dev.put_regs (d : Dev) (pa : Nat) (bs : List Byte) : (d.put pa bs).regs = d.regs := rfl
@[simp] theorem Dev.put_mem (d : Dev) (pa : Nat) (bs : List Byte) : (d.put pa bs).mem = Memory.setAll d.mem pa bs := rfl
@[simp] theorem Dev.put_dram (d : Dev) (pa : Nat) (bs : List Byte) : (d.put pa bs).dram = d.dram := rfl
@[simp] theorem Dev.put_poison (d : Dev) (pa : Nat) (bs : List Byte) : (d.put pa bs).poison = d.poison := rfl
@[simp] theorem Dev.put_drives (d : Dev) (pa : Nat) (bs : List Byte) : (d.put pa bs).drives = d.drives := rfl
@[simp] theorem Dev.put_flash (d : Dev) (pa : Nat) (bs : List Byte) : (d.put pa bs).flash = d.flash := rfl
@[simp] theorem Dev.put_cores (d : Dev) (pa : Nat) (bs : List Byte) : (d.put pa bs).cores = d.cores := rfl
@[simp] theorem Dev.put_queues (d : Dev) (pa : Nat) (bs : List Byte) : (d.put pa bs).queues = d.queues := rfl
@[simp] theorem Dev.put_upds (d : Dev) (pa : Nat) (bs : List Byte) : (d.put pa bs).upds = d.upds := rfl
@[simp] theorem Dev.put_nis (d : Dev) (pa : Nat) (bs : List Byte) : (d.put pa bs).nis = d.nis := rfl
@[simp] theorem Dev.put_peers (d : Dev) (pa : Nat) (bs : List Byte) : (d.put pa bs).peers = d.peers := rfl
@[simp] theorem Dev.put_credit (d : Dev) (pa : Nat) (bs : List Byte) : (d.put pa bs).credit = d.credit := rfl
@[simp] theorem Dev.put_ports (d : Dev) (pa : Nat) (bs : List Byte) : (d.put pa bs).ports = d.ports := rfl
@[simp] theorem Dev.put_halves (d : Dev) (pa : Nat) (bs : List Byte) : (d.put pa bs).halves = d.halves := rfl
@[simp] theorem Dev.put_channels (d : Dev) (pa : Nat) (bs : List Byte) : (d.put pa bs).channels = d.channels := rfl
@[simp] theorem Dev.put_flits (d : Dev) (pa : Nat) (bs : List Byte) : (d.put pa bs).flits = d.flits := rfl
@[simp] theorem Dev.put_tlbs (d : Dev) (pa : Nat) (bs : List Byte) : (d.put pa bs).tlbs = d.tlbs := rfl
@[simp] theorem Dev.put_ptSeen (d : Dev) (pa : Nat) (bs : List Byte) : (d.put pa bs).ptSeen = d.ptSeen := rfl
@[simp] theorem Dev.put_fts (d : Dev) (pa : Nat) (bs : List Byte) : (d.put pa bs).fts = d.fts := rfl
@[simp] theorem Dev.put_keys (d : Dev) (pa : Nat) (bs : List Byte) : (d.put pa bs).keys = d.keys := rfl
@[simp] theorem Dev.put_steers (d : Dev) (pa : Nat) (bs : List Byte) : (d.put pa bs).steers = d.steers := rfl
@[simp] theorem Dev.put_sec (d : Dev) (pa : Nat) (bs : List Byte) : (d.put pa bs).sec = d.sec := rfl
@[simp] theorem Dev.put_svc (d : Dev) (pa : Nat) (bs : List Byte) : (d.put pa bs).svc = d.svc := rfl
@[simp] theorem Dev.put_trc (d : Dev) (pa : Nat) (bs : List Byte) : (d.put pa bs).trc = d.trc := rfl
@[simp] theorem Dev.put_tap (d : Dev) (pa : Nat) (bs : List Byte) : (d.put pa bs).tap = d.tap := rfl
@[simp] theorem Dev.put_power (d : Dev) (pa : Nat) (bs : List Byte) : (d.put pa bs).power = d.power := rfl
@[simp] theorem Dev.put_aclkA (d : Dev) (pa : Nat) (bs : List Byte) : (d.put pa bs).aclkA = d.aclkA := rfl
@[simp] theorem Dev.put_aclkB (d : Dev) (pa : Nat) (bs : List Byte) : (d.put pa bs).aclkB = d.aclkB := rfl
@[simp] theorem Dev.put_lagB (d : Dev) (pa : Nat) (bs : List Byte) : (d.put pa bs).lagB = d.lagB := rfl
@[simp] theorem Dev.put_free (d : Dev) (pa : Nat) (bs : List Byte) : (d.put pa bs).free = d.free := rfl

@[simp] theorem Dev.putMask_out (d : Dev) (pa : Nat) (bs : List (Option Byte)) : (d.putMask pa bs).out = d.out := rfl
@[simp] theorem Dev.putMask_bus (d : Dev) (pa : Nat) (bs : List (Option Byte)) : (d.putMask pa bs).bus = d.bus := rfl
@[simp] theorem Dev.putMask_cap (d : Dev) (pa : Nat) (bs : List (Option Byte)) : (d.putMask pa bs).cap = d.cap := rfl
@[simp] theorem Dev.putMask_regs (d : Dev) (pa : Nat) (bs : List (Option Byte)) : (d.putMask pa bs).regs = d.regs := rfl
@[simp] theorem Dev.putMask_mem (d : Dev) (pa : Nat) (bs : List (Option Byte)) : (d.putMask pa bs).mem = Memory.setMask d.mem pa bs := rfl
@[simp] theorem Dev.putMask_dram (d : Dev) (pa : Nat) (bs : List (Option Byte)) : (d.putMask pa bs).dram = d.dram := rfl
@[simp] theorem Dev.putMask_poison (d : Dev) (pa : Nat) (bs : List (Option Byte)) : (d.putMask pa bs).poison = d.poison := rfl
@[simp] theorem Dev.putMask_drives (d : Dev) (pa : Nat) (bs : List (Option Byte)) : (d.putMask pa bs).drives = d.drives := rfl
@[simp] theorem Dev.putMask_flash (d : Dev) (pa : Nat) (bs : List (Option Byte)) : (d.putMask pa bs).flash = d.flash := rfl
@[simp] theorem Dev.putMask_cores (d : Dev) (pa : Nat) (bs : List (Option Byte)) : (d.putMask pa bs).cores = d.cores := rfl
@[simp] theorem Dev.putMask_queues (d : Dev) (pa : Nat) (bs : List (Option Byte)) : (d.putMask pa bs).queues = d.queues := rfl
@[simp] theorem Dev.putMask_upds (d : Dev) (pa : Nat) (bs : List (Option Byte)) : (d.putMask pa bs).upds = d.upds := rfl
@[simp] theorem Dev.putMask_nis (d : Dev) (pa : Nat) (bs : List (Option Byte)) : (d.putMask pa bs).nis = d.nis := rfl
@[simp] theorem Dev.putMask_peers (d : Dev) (pa : Nat) (bs : List (Option Byte)) : (d.putMask pa bs).peers = d.peers := rfl
@[simp] theorem Dev.putMask_credit (d : Dev) (pa : Nat) (bs : List (Option Byte)) : (d.putMask pa bs).credit = d.credit := rfl
@[simp] theorem Dev.putMask_ports (d : Dev) (pa : Nat) (bs : List (Option Byte)) : (d.putMask pa bs).ports = d.ports := rfl
@[simp] theorem Dev.putMask_halves (d : Dev) (pa : Nat) (bs : List (Option Byte)) : (d.putMask pa bs).halves = d.halves := rfl
@[simp] theorem Dev.putMask_channels (d : Dev) (pa : Nat) (bs : List (Option Byte)) : (d.putMask pa bs).channels = d.channels := rfl
@[simp] theorem Dev.putMask_flits (d : Dev) (pa : Nat) (bs : List (Option Byte)) : (d.putMask pa bs).flits = d.flits := rfl
@[simp] theorem Dev.putMask_tlbs (d : Dev) (pa : Nat) (bs : List (Option Byte)) : (d.putMask pa bs).tlbs = d.tlbs := rfl
@[simp] theorem Dev.putMask_ptSeen (d : Dev) (pa : Nat) (bs : List (Option Byte)) : (d.putMask pa bs).ptSeen = d.ptSeen := rfl
@[simp] theorem Dev.putMask_fts (d : Dev) (pa : Nat) (bs : List (Option Byte)) : (d.putMask pa bs).fts = d.fts := rfl
@[simp] theorem Dev.putMask_keys (d : Dev) (pa : Nat) (bs : List (Option Byte)) : (d.putMask pa bs).keys = d.keys := rfl
@[simp] theorem Dev.putMask_steers (d : Dev) (pa : Nat) (bs : List (Option Byte)) : (d.putMask pa bs).steers = d.steers := rfl
@[simp] theorem Dev.putMask_sec (d : Dev) (pa : Nat) (bs : List (Option Byte)) : (d.putMask pa bs).sec = d.sec := rfl
@[simp] theorem Dev.putMask_svc (d : Dev) (pa : Nat) (bs : List (Option Byte)) : (d.putMask pa bs).svc = d.svc := rfl
@[simp] theorem Dev.putMask_trc (d : Dev) (pa : Nat) (bs : List (Option Byte)) : (d.putMask pa bs).trc = d.trc := rfl
@[simp] theorem Dev.putMask_tap (d : Dev) (pa : Nat) (bs : List (Option Byte)) : (d.putMask pa bs).tap = d.tap := rfl
@[simp] theorem Dev.putMask_power (d : Dev) (pa : Nat) (bs : List (Option Byte)) : (d.putMask pa bs).power = d.power := rfl
@[simp] theorem Dev.putMask_aclkA (d : Dev) (pa : Nat) (bs : List (Option Byte)) : (d.putMask pa bs).aclkA = d.aclkA := rfl
@[simp] theorem Dev.putMask_aclkB (d : Dev) (pa : Nat) (bs : List (Option Byte)) : (d.putMask pa bs).aclkB = d.aclkB := rfl
@[simp] theorem Dev.putMask_lagB (d : Dev) (pa : Nat) (bs : List (Option Byte)) : (d.putMask pa bs).lagB = d.lagB := rfl
@[simp] theorem Dev.putMask_free (d : Dev) (pa : Nat) (bs : List (Option Byte)) : (d.putMask pa bs).free = d.free := rfl

@[simp] theorem Dev.setPoison_out (d : Dev) (pa : Nat) : (d.setPoison pa).out = d.out := rfl
@[simp] theorem Dev.setPoison_bus (d : Dev) (pa : Nat) : (d.setPoison pa).bus = d.bus := rfl
@[simp] theorem Dev.setPoison_cap (d : Dev) (pa : Nat) : (d.setPoison pa).cap = d.cap := rfl
@[simp] theorem Dev.setPoison_regs (d : Dev) (pa : Nat) : (d.setPoison pa).regs = d.regs := rfl
@[simp] theorem Dev.setPoison_mem (d : Dev) (pa : Nat) : (d.setPoison pa).mem = d.mem := rfl
@[simp] theorem Dev.setPoison_dram (d : Dev) (pa : Nat) : (d.setPoison pa).dram = d.dram := rfl
@[simp] theorem Dev.setPoison_drives (d : Dev) (pa : Nat) : (d.setPoison pa).drives = d.drives := rfl
@[simp] theorem Dev.setPoison_flash (d : Dev) (pa : Nat) : (d.setPoison pa).flash = d.flash := rfl
@[simp] theorem Dev.setPoison_cores (d : Dev) (pa : Nat) : (d.setPoison pa).cores = d.cores := rfl
@[simp] theorem Dev.setPoison_queues (d : Dev) (pa : Nat) : (d.setPoison pa).queues = d.queues := rfl
@[simp] theorem Dev.setPoison_upds (d : Dev) (pa : Nat) : (d.setPoison pa).upds = d.upds := rfl
@[simp] theorem Dev.setPoison_nis (d : Dev) (pa : Nat) : (d.setPoison pa).nis = d.nis := rfl
@[simp] theorem Dev.setPoison_peers (d : Dev) (pa : Nat) : (d.setPoison pa).peers = d.peers := rfl
@[simp] theorem Dev.setPoison_credit (d : Dev) (pa : Nat) : (d.setPoison pa).credit = d.credit := rfl
@[simp] theorem Dev.setPoison_ports (d : Dev) (pa : Nat) : (d.setPoison pa).ports = d.ports := rfl
@[simp] theorem Dev.setPoison_halves (d : Dev) (pa : Nat) : (d.setPoison pa).halves = d.halves := rfl
@[simp] theorem Dev.setPoison_channels (d : Dev) (pa : Nat) : (d.setPoison pa).channels = d.channels := rfl
@[simp] theorem Dev.setPoison_flits (d : Dev) (pa : Nat) : (d.setPoison pa).flits = d.flits := rfl
@[simp] theorem Dev.setPoison_tlbs (d : Dev) (pa : Nat) : (d.setPoison pa).tlbs = d.tlbs := rfl
@[simp] theorem Dev.setPoison_ptSeen (d : Dev) (pa : Nat) : (d.setPoison pa).ptSeen = d.ptSeen := rfl
@[simp] theorem Dev.setPoison_fts (d : Dev) (pa : Nat) : (d.setPoison pa).fts = d.fts := rfl
@[simp] theorem Dev.setPoison_keys (d : Dev) (pa : Nat) : (d.setPoison pa).keys = d.keys := rfl
@[simp] theorem Dev.setPoison_steers (d : Dev) (pa : Nat) : (d.setPoison pa).steers = d.steers := rfl
@[simp] theorem Dev.setPoison_sec (d : Dev) (pa : Nat) : (d.setPoison pa).sec = d.sec := rfl
@[simp] theorem Dev.setPoison_svc (d : Dev) (pa : Nat) : (d.setPoison pa).svc = d.svc := rfl
@[simp] theorem Dev.setPoison_trc (d : Dev) (pa : Nat) : (d.setPoison pa).trc = d.trc := rfl
@[simp] theorem Dev.setPoison_tap (d : Dev) (pa : Nat) : (d.setPoison pa).tap = d.tap := rfl
@[simp] theorem Dev.setPoison_power (d : Dev) (pa : Nat) : (d.setPoison pa).power = d.power := rfl
@[simp] theorem Dev.setPoison_aclkA (d : Dev) (pa : Nat) : (d.setPoison pa).aclkA = d.aclkA := rfl
@[simp] theorem Dev.setPoison_aclkB (d : Dev) (pa : Nat) : (d.setPoison pa).aclkB = d.aclkB := rfl
@[simp] theorem Dev.setPoison_lagB (d : Dev) (pa : Nat) : (d.setPoison pa).lagB = d.lagB := rfl
@[simp] theorem Dev.setPoison_free (d : Dev) (pa : Nat) : (d.setPoison pa).free = d.free := rfl

@[simp] theorem Dev.clearPoison_out (d : Dev) (pa : Nat) : (d.clearPoison pa).out = d.out := rfl
@[simp] theorem Dev.clearPoison_bus (d : Dev) (pa : Nat) : (d.clearPoison pa).bus = d.bus := rfl
@[simp] theorem Dev.clearPoison_cap (d : Dev) (pa : Nat) : (d.clearPoison pa).cap = d.cap := rfl
@[simp] theorem Dev.clearPoison_regs (d : Dev) (pa : Nat) : (d.clearPoison pa).regs = d.regs := rfl
@[simp] theorem Dev.clearPoison_mem (d : Dev) (pa : Nat) : (d.clearPoison pa).mem = d.mem := rfl
@[simp] theorem Dev.clearPoison_dram (d : Dev) (pa : Nat) : (d.clearPoison pa).dram = d.dram := rfl
@[simp] theorem Dev.clearPoison_drives (d : Dev) (pa : Nat) : (d.clearPoison pa).drives = d.drives := rfl
@[simp] theorem Dev.clearPoison_flash (d : Dev) (pa : Nat) : (d.clearPoison pa).flash = d.flash := rfl
@[simp] theorem Dev.clearPoison_cores (d : Dev) (pa : Nat) : (d.clearPoison pa).cores = d.cores := rfl
@[simp] theorem Dev.clearPoison_queues (d : Dev) (pa : Nat) : (d.clearPoison pa).queues = d.queues := rfl
@[simp] theorem Dev.clearPoison_upds (d : Dev) (pa : Nat) : (d.clearPoison pa).upds = d.upds := rfl
@[simp] theorem Dev.clearPoison_nis (d : Dev) (pa : Nat) : (d.clearPoison pa).nis = d.nis := rfl
@[simp] theorem Dev.clearPoison_peers (d : Dev) (pa : Nat) : (d.clearPoison pa).peers = d.peers := rfl
@[simp] theorem Dev.clearPoison_credit (d : Dev) (pa : Nat) : (d.clearPoison pa).credit = d.credit := rfl
@[simp] theorem Dev.clearPoison_ports (d : Dev) (pa : Nat) : (d.clearPoison pa).ports = d.ports := rfl
@[simp] theorem Dev.clearPoison_halves (d : Dev) (pa : Nat) : (d.clearPoison pa).halves = d.halves := rfl
@[simp] theorem Dev.clearPoison_channels (d : Dev) (pa : Nat) : (d.clearPoison pa).channels = d.channels := rfl
@[simp] theorem Dev.clearPoison_flits (d : Dev) (pa : Nat) : (d.clearPoison pa).flits = d.flits := rfl
@[simp] theorem Dev.clearPoison_tlbs (d : Dev) (pa : Nat) : (d.clearPoison pa).tlbs = d.tlbs := rfl
@[simp] theorem Dev.clearPoison_ptSeen (d : Dev) (pa : Nat) : (d.clearPoison pa).ptSeen = d.ptSeen := rfl
@[simp] theorem Dev.clearPoison_fts (d : Dev) (pa : Nat) : (d.clearPoison pa).fts = d.fts := rfl
@[simp] theorem Dev.clearPoison_keys (d : Dev) (pa : Nat) : (d.clearPoison pa).keys = d.keys := rfl
@[simp] theorem Dev.clearPoison_steers (d : Dev) (pa : Nat) : (d.clearPoison pa).steers = d.steers := rfl
@[simp] theorem Dev.clearPoison_sec (d : Dev) (pa : Nat) : (d.clearPoison pa).sec = d.sec := rfl
@[simp] theorem Dev.clearPoison_svc (d : Dev) (pa : Nat) : (d.clearPoison pa).svc = d.svc := rfl
@[simp] theorem Dev.clearPoison_trc (d : Dev) (pa : Nat) : (d.clearPoison pa).trc = d.trc := rfl
@[simp] theorem Dev.clearPoison_tap (d : Dev) (pa : Nat) : (d.clearPoison pa).tap = d.tap := rfl
@[simp] theorem Dev.clearPoison_power (d : Dev) (pa : Nat) : (d.clearPoison pa).power = d.power := rfl
@[simp] theorem Dev.clearPoison_aclkA (d : Dev) (pa : Nat) : (d.clearPoison pa).aclkA = d.aclkA := rfl
@[simp] theorem Dev.clearPoison_aclkB (d : Dev) (pa : Nat) : (d.clearPoison pa).aclkB = d.aclkB := rfl
@[simp] theorem Dev.clearPoison_lagB (d : Dev) (pa : Nat) : (d.clearPoison pa).lagB = d.lagB := rfl
@[simp] theorem Dev.clearPoison_free (d : Dev) (pa : Nat) : (d.clearPoison pa).free = d.free := rfl

end Sys2Proof.Machine
end

