-- ==== Sys2Proof/Laws/Units.lean ====
section
/-! SUPPORT. What a unit, a register or a field of a word reads after an update of it or of another. -/

namespace Sys2Proof.Machine

variable (d : Dev)

@[simp] theorem Dev.core_modCore (c : Nat) (f : Core → Core) : (d.modCore c f).core c = f (d.core c) := by simp [Dev.core, Dev.modCore]
theorem Dev.core_modCore_ne {c j : Nat} (f : Core → Core) (h : j ≠ c) : (d.modCore c f).core j = d.core j := by
  simp [Dev.core, Dev.modCore, KV.get_set_ne _ _ _ h]
@[simp] theorem Dev.upd_modUpd (h : Nat) (f : Upd → Upd) : (d.modUpd h f).upd h = f (d.upd h) := by simp [Dev.upd, Dev.modUpd]
theorem Dev.upd_modUpd_ne {h j : Nat} (f : Upd → Upd) (e : j ≠ h) : (d.modUpd h f).upd j = d.upd j := by
  simp [Dev.upd, Dev.modUpd, KV.get_set_ne _ _ _ e]
@[simp] theorem Dev.ni_modNi (h : Nat) (f : Ni → Ni) : (d.modNi h f).ni h = f (d.ni h) := by simp [Dev.ni, Dev.modNi]
theorem Dev.ni_modNi_ne {h j : Nat} (f : Ni → Ni) (e : j ≠ h) : (d.modNi h f).ni j = d.ni j := by
  simp [Dev.ni, Dev.modNi, KV.get_set_ne _ _ _ e]
@[simp] theorem Dev.port_modPort (n : Nat) (f : Port → Port) : (d.modPort n f).port n = f (d.port n) := by simp [Dev.port, Dev.modPort]
theorem Dev.port_modPort_ne {n j : Nat} (f : Port → Port) (e : j ≠ n) : (d.modPort n f).port j = d.port j := by
  simp [Dev.port, Dev.modPort, KV.get_set_ne _ _ _ e]
@[simp] theorem Dev.half_modHalf (h : Nat) (f : Half → Half) : (d.modHalf h f).half h = f (d.half h) := by simp [Dev.half, Dev.modHalf]
theorem Dev.half_modHalf_ne {h j : Nat} (f : Half → Half) (e : j ≠ h) : (d.modHalf h f).half j = d.half j := by
  simp [Dev.half, Dev.modHalf, KV.get_set_ne _ _ _ e]
@[simp] theorem Dev.chan_modChan (k : Nat) (f : Channel → Channel) : (d.modChan k f).chan k = f (d.chan k) := by simp [Dev.chan, Dev.modChan]
theorem Dev.chan_modChan_ne {k j : Nat} (f : Channel → Channel) (e : j ≠ k) : (d.modChan k f).chan j = d.chan j := by
  simp [Dev.chan, Dev.modChan, KV.get_set_ne _ _ _ e]
@[simp] theorem Dev.queue?_setQueue (q : Nat) (x : QState) : (d.setQueue q x).queue? q = some x := by simp [Dev.queue?, Dev.setQueue]
theorem Dev.queue?_setQueue_ne {q j : Nat} (x : QState) (e : j ≠ q) : (d.setQueue q x).queue? j = d.queue? j := by
  simp [Dev.queue?, Dev.setQueue, KV.find?_set_ne _ _ e]

@[simp] theorem Dev.ctx?_setCtx (c x : Nat) (t : Ctx) : (d.setCtx c x t).ctx? c x = some t := by simp [Dev.ctx?, Dev.setCtx]
theorem Dev.ctx?_setCtx_ne (c : Nat) {x y : Nat} (t : Ctx) (e : y ≠ x) : (d.setCtx c x t).ctx? c y = d.ctx? c y := by
  simp [Dev.ctx?, Dev.setCtx, KV.find?_set_ne _ _ e]
theorem Dev.ctx?_setCtx_core {c b : Nat} (x y : Nat) (t : Ctx) (e : b ≠ c) : (d.setCtx c x t).ctx? b y = d.ctx? b y := by
  simp [Dev.ctx?, Dev.setCtx, Dev.core_modCore_ne _ _ e]
@[simp] theorem Dev.ctx?_freeCtx (c x : Nat) : (d.freeCtx c x).ctx? c x = none := by simp [Dev.ctx?, Dev.freeCtx]

/-- A context is changed in place, if it is held. -/
theorem Dev.modCtx_of {c x : Nat} {t : Ctx} (f : Ctx → Ctx) (h : d.ctx? c x = some t) : d.modCtx c x f = d.setCtx c x (f t) := by
  simp [Dev.modCtx, h]

/-- A change of a context reaches the cores and nothing else. -/
theorem Dev.modCtx_eq (c x : Nat) (f : Ctx → Ctx) : ∃ k, d.modCtx c x f = { d with cores := k } := by
  unfold Dev.modCtx
  split
  · exact ⟨d.cores, rfl⟩
  · exact ⟨_, rfl⟩

/-! ### Registers -/

@[simp] theorem Dev.reg_setReg (p o : Nat) (v : W64) : (d.setReg p o v).reg p o = v := by
  unfold Dev.reg Dev.setReg
  by_cases h : v = regReset p o <;> simp [h]

theorem Dev.reg_setReg_ne {p o q r : Nat} (v : W64) (h : regKey q r ≠ regKey p o) : (d.setReg p o v).reg q r = d.reg q r := by
  unfold Dev.reg Dev.setReg
  by_cases e : v = regReset p o <;> simp [e, KV.find?_erase_ne _ h, KV.find?_set_ne _ _ h]

/-- Registers read by the list of registers alone. -/
theorem Dev.reg_congr {d e : Dev} (h : d.regs = e.regs) (p o : Nat) : d.reg p o = e.reg p o := by simp [Dev.reg, h]

@[simp] theorem Dev.reg_setf (p o hi lo v : Nat) : (d.setf p o hi lo v).reg p o = (d.reg p o).setField hi lo v := by simp [Dev.setf]

theorem Dev.reg_setf_ne {p o q r : Nat} (hi lo v : Nat) (h : regKey q r ≠ regKey p o) : (d.setf p o hi lo v).reg q r = d.reg q r :=
  d.reg_setReg_ne _ h

@[simp] theorem Dev.reg_setb (p o i : Nat) (b : Bool) :
    (d.setb p o i b).reg p o = (d.reg p o).setField i i (if b then 1 else 0) := by simp [Dev.setb]

theorem Dev.reg_setb_ne {p o q r : Nat} (i : Nat) (b : Bool) (h : regKey q r ≠ regKey p o) : (d.setb p o i b).reg q r = d.reg q r :=
  d.reg_setReg_ne _ h

/-- Word offsets within pages name different registers unless page and offset agree. -/
theorem regKey_inj {p o q r : Nat} (ho : o < 4096) (hr : r < 4096) : regKey p o = regKey q r ↔ p = q ∧ o = r := by
  unfold regKey; omega

/-! ### Fields of a word -/

/-- A bit of a word with one bit replaced. -/
theorem W64.bit_setField_one (w : W64) (i j : Nat) (b : Bool) (hi : i < 64) :
    (w.setField i i (if b then 1 else 0)).bit j = if j = i then b else w.bit j := by
  have h0 : BitVec.ofNat 64 (2 ^ i) = BitVec.twoPow 64 i := by
    apply BitVec.eq_of_toNat_eq
    rw [BitVec.toNat_ofNat, BitVec.toNat_twoPow]
  have h1 : BitVec.ofNat 64 ((2 ^ (i - i + 1) - 1) * 2 ^ i) = BitVec.twoPow 64 i := by simp [h0]
  have h2 : BitVec.ofNat 64 (((if b then 1 else 0) % 2 ^ (i - i + 1)) * 2 ^ i) = if b then BitVec.twoPow 64 i else 0 := by
    cases b <;> simp [h0]
  unfold W64.setField W64.bit
  rw [h1, h2]
  by_cases hj : j < 64
  · by_cases e : j = i
    · subst e; cases b <;> simp [hj]
    · cases b <;> simp_all [Ne.symm]
  · have : ¬ j = i := by omega
    simp [this, BitVec.getLsbD_of_ge _ _ (Nat.le_of_not_lt hj)]

@[simp] theorem Dev.regb_setb (p o i : Nat) (b : Bool) (hi : i < 64) : (d.setb p o i b).regb p o i = b := by
  simp [Dev.regb, W64.bit_setField_one _ _ _ _ hi]

theorem Dev.regb_setb_ne {i j : Nat} (p o : Nat) (b : Bool) (hi : i < 64) (h : j ≠ i) : (d.setb p o i b).regb p o j = d.regb p o j := by
  simp [Dev.regb, W64.bit_setField_one _ _ _ _ hi, h]

/-! ### Counting, errors and trace -/

/-- The second machine is the first but for the header words of a page (offsets below 0x100) and what it drives out. -/
def Dev.HeaderOut (p : Nat) (d e : Dev) : Prop :=
  ∃ r o, e = { d with regs := r, out := o } ∧ ∀ key, (∀ k < 0x100, key ≠ regKey p k) → KV.find? r key = KV.find? d.regs key

/-- The second machine is the first but for the header words of a page, the registers of TRC, the trace rings and what it drives
out. -/
def Dev.Noted (p : Nat) (d e : Dev) : Prop :=
  ∃ r o t, e = { d with regs := r, out := o, trc := t } ∧
    ∀ key, (∀ k < 0x100, key ≠ regKey p k) → (∀ k < 0x1000, key ≠ regKey pgTrc k) → KV.find? r key = KV.find? d.regs key

variable {d}

theorem Dev.HeaderOut.refl (p : Nat) (d : Dev) : HeaderOut p d d := ⟨_, _, rfl, fun _ _ => rfl⟩
theorem Dev.HeaderOut.trans {p : Nat} {a b c : Dev} (h : HeaderOut p a b) (g : HeaderOut p b c) : HeaderOut p a c := by
  obtain ⟨_, _, rfl, h⟩ := h; obtain ⟨_, _, rfl, g⟩ := g
  exact ⟨_, _, rfl, fun key hk => (g key hk).trans (h key hk)⟩
theorem Dev.Noted.refl (p : Nat) (d : Dev) : Noted p d d := ⟨_, _, _, rfl, fun _ _ _ => rfl⟩
theorem Dev.Noted.trans {p : Nat} {a b c : Dev} (h : Noted p a b) (g : Noted p b c) : Noted p a c := by
  obtain ⟨_, _, _, rfl, h⟩ := h; obtain ⟨_, _, _, rfl, g⟩ := g
  exact ⟨_, _, _, rfl, fun key hk ht => (g key hk ht).trans (h key hk ht)⟩
theorem Dev.HeaderOut.noted {p : Nat} {a b : Dev} (h : HeaderOut p a b) : Noted p a b := by
  obtain ⟨_, _, rfl, h⟩ := h; exact ⟨_, _, _, rfl, fun key hk _ => h key hk⟩
theorem Dev.HeaderOut.notedTrc {p : Nat} {a b : Dev} (h : HeaderOut pgTrc a b) : Noted p a b := by
  obtain ⟨_, _, rfl, h⟩ := h; exact ⟨_, _, _, rfl, fun key _ ht => h key (fun k hk => ht k (by omega))⟩

/-- The registers that a header change leaves. -/
theorem Dev.HeaderOut.reg {p : Nat} {a b : Dev} (h : HeaderOut p a b) {q o : Nat} (hk : ∀ k < 0x100, regKey q o ≠ regKey p k) :
    b.reg q o = a.reg q o := by
  obtain ⟨_, _, rfl, h⟩ := h
  simp [Dev.reg, h _ hk]

theorem Dev.Noted.reg {p : Nat} {a b : Dev} (h : Noted p a b) {q o : Nat} (hk : ∀ k < 0x100, regKey q o ≠ regKey p k)
    (ht : ∀ k < 0x1000, regKey q o ≠ regKey pgTrc k) : b.reg q o = a.reg q o := by
  obtain ⟨_, _, _, rfl, h⟩ := h
  simp [Dev.reg, h _ hk ht]

theorem find?_setReg (d : Dev) (p o : Nat) (v : W64) {key : Nat} (h : key ≠ regKey p o) :
    KV.find? (d.setReg p o v).regs key = KV.find? d.regs key := by
  unfold Dev.setReg
  by_cases e : v = regReset p o <;> simp [e, KV.find?_erase_ne _ h, KV.find?_set_ne _ _ h]

theorem Dev.HeaderOut.setReg (d : Dev) (p o : Nat) (v : W64) (h : o < 0x100) : HeaderOut p d (d.setReg p o v) :=
  ⟨_, _, rfl, fun _ hk => find?_setReg d p o v (hk o h)⟩
theorem Dev.HeaderOut.setb (d : Dev) (p o i : Nat) (b : Bool) (h : o < 0x100) : HeaderOut p d (d.setb p o i b) := .setReg _ _ _ _ h
theorem Dev.HeaderOut.emit (p : Nat) (d : Dev) (o : Out) : HeaderOut p d (d.emit o) := ⟨_, _, rfl, fun _ _ => rfl⟩

/-- A fold of steps that keep a relation keeps it. -/
theorem foldl_rel {α β : Type} {R : α → α → Prop} (refl : ∀ a, R a a) (trans : ∀ {a b c}, R a b → R b c → R a c) (f : α → β → α)
    (l : List β) (h : ∀ a, ∀ b ∈ l, R a (f a b)) (a : α) : R a (l.foldl f a) := by
  induction l generalizing a with
  | nil => exact refl a
  | cons b l ih =>
    exact trans (h a b List.mem_cons_self) (ih (fun a c hc => h a c (List.mem_cons_of_mem _ hc)) (f a b))

/-- A BLK_ISR bit: header words, and an interrupt. -/
theorem Dev.HeaderOut.setIsr (d : Dev) (p b : Nat) : HeaderOut p d (d.setIsr p b) := by
  unfold Dev.setIsr
  extract_lets e
  have h : HeaderOut p d e := .setb _ _ _ _ _ (by omega)
  split
  · exact h
  · exact h.trans (.emit ..)

/-- Capture of an error record: header words, and an interrupt. -/
theorem Dev.HeaderOut.capture (d : Dev) (p : Nat) (ev : W64) (a : Nat) : HeaderOut p d (d.capture p ev a) := by
  unfold Dev.capture
  extract_lets first d₁ d₂ old new d₃
  have h₁ : HeaderOut p d d₁ := (HeaderOut.setReg _ _ _ _ (by omega)).trans (.setReg _ _ _ _ (by omega))
  have h₂ : HeaderOut p d d₂ := by
    unfold d₂
    split
    · exact h₁.trans ((HeaderOut.setReg _ _ _ _ (by omega)).trans (.setReg _ _ _ _ (by omega)))
    · exact h₁
  have h₃ : HeaderOut p d d₃ := h₂.trans (.setReg _ _ _ _ (by omega))
  split
  · exact h₃.trans (.setIsr ..)
  · exact h₃

theorem Dev.HeaderOut.countSlot (d : Dev) (p sel n i : Nat) (hi : i < 8) : HeaderOut p d (d.countSlot p sel n i) := by
  unfold Dev.countSlot
  extract_lets s r e
  have h : HeaderOut p d e := .setReg _ _ _ _ (by omega)
  split
  · exact .refl ..
  · split
    · exact h.trans ((HeaderOut.capture ..).trans (.setIsr ..))
    · exact h

/-- A count of a page: its header words, and an interrupt when a slot saturates. -/
theorem Dev.HeaderOut.count (d : Dev) (p sel n : Nat) : HeaderOut p d (d.count p sel n) := by
  unfold Dev.count
  split
  · exact .refl ..
  · exact foldl_rel (HeaderOut.refl p) HeaderOut.trans _ _ (fun e i hi => HeaderOut.countSlot e p sel n i (List.mem_range.mp hi)) _

/-- A trace record: its ring, and the count of what is lost. -/
theorem Dev.Noted.trace (q : Nat) (d : Dev) (p k : Nat) (c : Option Nat) (p0 p1 : W64) : Noted q d (d.trace p k c p0 p1) := by
  unfold Dev.trace
  extract_lets r on ids inst type x t ring ring' g e
  have h : Noted q d e := ⟨_, _, _, rfl, fun _ _ _ => rfl⟩
  split
  · exact .refl ..
  · split
    · exact h.trans (HeaderOut.count ..).notedTrc
    · exact h

theorem Dev.Noted.setTrc (q : Nat) (d : Dev) (o : Nat) (v : W64) (h : o < 0x1000) : Noted q d (d.setReg pgTrc o v) :=
  ⟨_, _, _, rfl, fun _ _ ht => find?_setReg d pgTrc o v (ht o h)⟩

/-- An eclipse: registers of TRC, trace and a pin. -/
theorem Dev.Noted.eclipse (q : Nat) (d : Dev) (cause : Nat) : Noted q d (d.eclipse cause) := by
  unfold Dev.eclipse
  extract_lets d₁ d₂ g d₃ d₄
  have h₁ : Noted q d d₁ := (Noted.setTrc q d 0x300 _ (by omega)).trans (.setTrc _ _ _ _ (by omega))
  have h₂ : Noted q d d₂ := h₁.trans (.trace ..)
  have h₃ : Noted q d₂ d₃ := ⟨_, _, _, rfl, fun _ _ _ => rfl⟩
  have h₄ : Noted q d d₄ := h₂.trans (h₃.trans ((HeaderOut.setIsr ..).trans (.count ..)).notedTrc)
  split
  · exact .refl ..
  · split
    · exact h₄.trans (HeaderOut.emit ..).noted
    · exact h₄

/-- An event record raised: header words of its page, the registers of TRC, trace and interrupts, and no other state. -/
theorem Dev.Noted.raise (d : Dev) (p code qual a : Nat) : Noted p d (d.raise p code qual a) := by
  unfold Dev.raise
  extract_lets ev d₁ d₂ d₃ hit
  have h₂ : Noted p d d₂ := by
    unfold d₂
    split
    · exact ((HeaderOut.capture ..).trans (.setIsr ..)).noted
    · exact (HeaderOut.capture ..).noted
  have h₃ : Noted p d d₃ := h₂.trans (.trace ..)
  split
  · exact h₃.trans (.eclipse ..)
  · exact h₃

end Sys2Proof.Machine
end

