-- ==== Sys2Proof/Laws/Frames.lean ====
section
/-! SUPPORT. Counting, interrupts and error records leave every other field of the machine as it was. -/

namespace Sys2Proof.Machine

@[simp] theorem Dev.setIsr_bus (d : Dev) (p b : Nat) : (d.setIsr p b).bus = d.bus := by obtain ⟨_, _, e, _⟩ := Dev.HeaderOut.setIsr d p b; rw [e]
@[simp] theorem Dev.setIsr_cap (d : Dev) (p b : Nat) : (d.setIsr p b).cap = d.cap := by obtain ⟨_, _, e, _⟩ := Dev.HeaderOut.setIsr d p b; rw [e]
@[simp] theorem Dev.setIsr_mem (d : Dev) (p b : Nat) : (d.setIsr p b).mem = d.mem := by obtain ⟨_, _, e, _⟩ := Dev.HeaderOut.setIsr d p b; rw [e]
@[simp] theorem Dev.setIsr_dram (d : Dev) (p b : Nat) : (d.setIsr p b).dram = d.dram := by obtain ⟨_, _, e, _⟩ := Dev.HeaderOut.setIsr d p b; rw [e]
@[simp] theorem Dev.setIsr_poison (d : Dev) (p b : Nat) : (d.setIsr p b).poison = d.poison := by obtain ⟨_, _, e, _⟩ := Dev.HeaderOut.setIsr d p b; rw [e]
@[simp] theorem Dev.setIsr_drives (d : Dev) (p b : Nat) : (d.setIsr p b).drives = d.drives := by obtain ⟨_, _, e, _⟩ := Dev.HeaderOut.setIsr d p b; rw [e]
@[simp] theorem Dev.setIsr_flash (d : Dev) (p b : Nat) : (d.setIsr p b).flash = d.flash := by obtain ⟨_, _, e, _⟩ := Dev.HeaderOut.setIsr d p b; rw [e]
@[simp] theorem Dev.setIsr_cores (d : Dev) (p b : Nat) : (d.setIsr p b).cores = d.cores := by obtain ⟨_, _, e, _⟩ := Dev.HeaderOut.setIsr d p b; rw [e]
@[simp] theorem Dev.setIsr_queues (d : Dev) (p b : Nat) : (d.setIsr p b).queues = d.queues := by obtain ⟨_, _, e, _⟩ := Dev.HeaderOut.setIsr d p b; rw [e]
@[simp] theorem Dev.setIsr_upds (d : Dev) (p b : Nat) : (d.setIsr p b).upds = d.upds := by obtain ⟨_, _, e, _⟩ := Dev.HeaderOut.setIsr d p b; rw [e]
@[simp] theorem Dev.setIsr_nis (d : Dev) (p b : Nat) : (d.setIsr p b).nis = d.nis := by obtain ⟨_, _, e, _⟩ := Dev.HeaderOut.setIsr d p b; rw [e]
@[simp] theorem Dev.setIsr_peers (d : Dev) (p b : Nat) : (d.setIsr p b).peers = d.peers := by obtain ⟨_, _, e, _⟩ := Dev.HeaderOut.setIsr d p b; rw [e]
@[simp] theorem Dev.setIsr_credit (d : Dev) (p b : Nat) : (d.setIsr p b).credit = d.credit := by obtain ⟨_, _, e, _⟩ := Dev.HeaderOut.setIsr d p b; rw [e]
@[simp] theorem Dev.setIsr_ports (d : Dev) (p b : Nat) : (d.setIsr p b).ports = d.ports := by obtain ⟨_, _, e, _⟩ := Dev.HeaderOut.setIsr d p b; rw [e]
@[simp] theorem Dev.setIsr_halves (d : Dev) (p b : Nat) : (d.setIsr p b).halves = d.halves := by obtain ⟨_, _, e, _⟩ := Dev.HeaderOut.setIsr d p b; rw [e]
@[simp] theorem Dev.setIsr_channels (d : Dev) (p b : Nat) : (d.setIsr p b).channels = d.channels := by obtain ⟨_, _, e, _⟩ := Dev.HeaderOut.setIsr d p b; rw [e]
@[simp] theorem Dev.setIsr_flits (d : Dev) (p b : Nat) : (d.setIsr p b).flits = d.flits := by obtain ⟨_, _, e, _⟩ := Dev.HeaderOut.setIsr d p b; rw [e]
@[simp] theorem Dev.setIsr_tlbs (d : Dev) (p b : Nat) : (d.setIsr p b).tlbs = d.tlbs := by obtain ⟨_, _, e, _⟩ := Dev.HeaderOut.setIsr d p b; rw [e]
@[simp] theorem Dev.setIsr_ptSeen (d : Dev) (p b : Nat) : (d.setIsr p b).ptSeen = d.ptSeen := by obtain ⟨_, _, e, _⟩ := Dev.HeaderOut.setIsr d p b; rw [e]
@[simp] theorem Dev.setIsr_fts (d : Dev) (p b : Nat) : (d.setIsr p b).fts = d.fts := by obtain ⟨_, _, e, _⟩ := Dev.HeaderOut.setIsr d p b; rw [e]
@[simp] theorem Dev.setIsr_keys (d : Dev) (p b : Nat) : (d.setIsr p b).keys = d.keys := by obtain ⟨_, _, e, _⟩ := Dev.HeaderOut.setIsr d p b; rw [e]
@[simp] theorem Dev.setIsr_steers (d : Dev) (p b : Nat) : (d.setIsr p b).steers = d.steers := by obtain ⟨_, _, e, _⟩ := Dev.HeaderOut.setIsr d p b; rw [e]
@[simp] theorem Dev.setIsr_sec (d : Dev) (p b : Nat) : (d.setIsr p b).sec = d.sec := by obtain ⟨_, _, e, _⟩ := Dev.HeaderOut.setIsr d p b; rw [e]
@[simp] theorem Dev.setIsr_svc (d : Dev) (p b : Nat) : (d.setIsr p b).svc = d.svc := by obtain ⟨_, _, e, _⟩ := Dev.HeaderOut.setIsr d p b; rw [e]
@[simp] theorem Dev.setIsr_trc (d : Dev) (p b : Nat) : (d.setIsr p b).trc = d.trc := by obtain ⟨_, _, e, _⟩ := Dev.HeaderOut.setIsr d p b; rw [e]
@[simp] theorem Dev.setIsr_tap (d : Dev) (p b : Nat) : (d.setIsr p b).tap = d.tap := by obtain ⟨_, _, e, _⟩ := Dev.HeaderOut.setIsr d p b; rw [e]
@[simp] theorem Dev.setIsr_power (d : Dev) (p b : Nat) : (d.setIsr p b).power = d.power := by obtain ⟨_, _, e, _⟩ := Dev.HeaderOut.setIsr d p b; rw [e]
@[simp] theorem Dev.setIsr_aclkA (d : Dev) (p b : Nat) : (d.setIsr p b).aclkA = d.aclkA := by obtain ⟨_, _, e, _⟩ := Dev.HeaderOut.setIsr d p b; rw [e]
@[simp] theorem Dev.setIsr_aclkB (d : Dev) (p b : Nat) : (d.setIsr p b).aclkB = d.aclkB := by obtain ⟨_, _, e, _⟩ := Dev.HeaderOut.setIsr d p b; rw [e]
@[simp] theorem Dev.setIsr_lagB (d : Dev) (p b : Nat) : (d.setIsr p b).lagB = d.lagB := by obtain ⟨_, _, e, _⟩ := Dev.HeaderOut.setIsr d p b; rw [e]
@[simp] theorem Dev.setIsr_free (d : Dev) (p b : Nat) : (d.setIsr p b).free = d.free := by obtain ⟨_, _, e, _⟩ := Dev.HeaderOut.setIsr d p b; rw [e]

@[simp] theorem Dev.count_bus (d : Dev) (p sel n : Nat) : (d.count p sel n).bus = d.bus := by obtain ⟨_, _, e, _⟩ := Dev.HeaderOut.count d p sel n; rw [e]
@[simp] theorem Dev.count_cap (d : Dev) (p sel n : Nat) : (d.count p sel n).cap = d.cap := by obtain ⟨_, _, e, _⟩ := Dev.HeaderOut.count d p sel n; rw [e]
@[simp] theorem Dev.count_mem (d : Dev) (p sel n : Nat) : (d.count p sel n).mem = d.mem := by obtain ⟨_, _, e, _⟩ := Dev.HeaderOut.count d p sel n; rw [e]
@[simp] theorem Dev.count_dram (d : Dev) (p sel n : Nat) : (d.count p sel n).dram = d.dram := by obtain ⟨_, _, e, _⟩ := Dev.HeaderOut.count d p sel n; rw [e]
@[simp] theorem Dev.count_poison (d : Dev) (p sel n : Nat) : (d.count p sel n).poison = d.poison := by obtain ⟨_, _, e, _⟩ := Dev.HeaderOut.count d p sel n; rw [e]
@[simp] theorem Dev.count_drives (d : Dev) (p sel n : Nat) : (d.count p sel n).drives = d.drives := by obtain ⟨_, _, e, _⟩ := Dev.HeaderOut.count d p sel n; rw [e]
@[simp] theorem Dev.count_flash (d : Dev) (p sel n : Nat) : (d.count p sel n).flash = d.flash := by obtain ⟨_, _, e, _⟩ := Dev.HeaderOut.count d p sel n; rw [e]
@[simp] theorem Dev.count_cores (d : Dev) (p sel n : Nat) : (d.count p sel n).cores = d.cores := by obtain ⟨_, _, e, _⟩ := Dev.HeaderOut.count d p sel n; rw [e]
@[simp] theorem Dev.count_queues (d : Dev) (p sel n : Nat) : (d.count p sel n).queues = d.queues := by obtain ⟨_, _, e, _⟩ := Dev.HeaderOut.count d p sel n; rw [e]
@[simp] theorem Dev.count_upds (d : Dev) (p sel n : Nat) : (d.count p sel n).upds = d.upds := by obtain ⟨_, _, e, _⟩ := Dev.HeaderOut.count d p sel n; rw [e]
@[simp] theorem Dev.count_nis (d : Dev) (p sel n : Nat) : (d.count p sel n).nis = d.nis := by obtain ⟨_, _, e, _⟩ := Dev.HeaderOut.count d p sel n; rw [e]
@[simp] theorem Dev.count_peers (d : Dev) (p sel n : Nat) : (d.count p sel n).peers = d.peers := by obtain ⟨_, _, e, _⟩ := Dev.HeaderOut.count d p sel n; rw [e]
@[simp] theorem Dev.count_credit (d : Dev) (p sel n : Nat) : (d.count p sel n).credit = d.credit := by obtain ⟨_, _, e, _⟩ := Dev.HeaderOut.count d p sel n; rw [e]
@[simp] theorem Dev.count_ports (d : Dev) (p sel n : Nat) : (d.count p sel n).ports = d.ports := by obtain ⟨_, _, e, _⟩ := Dev.HeaderOut.count d p sel n; rw [e]
@[simp] theorem Dev.count_halves (d : Dev) (p sel n : Nat) : (d.count p sel n).halves = d.halves := by obtain ⟨_, _, e, _⟩ := Dev.HeaderOut.count d p sel n; rw [e]
@[simp] theorem Dev.count_channels (d : Dev) (p sel n : Nat) : (d.count p sel n).channels = d.channels := by obtain ⟨_, _, e, _⟩ := Dev.HeaderOut.count d p sel n; rw [e]
@[simp] theorem Dev.count_flits (d : Dev) (p sel n : Nat) : (d.count p sel n).flits = d.flits := by obtain ⟨_, _, e, _⟩ := Dev.HeaderOut.count d p sel n; rw [e]
@[simp] theorem Dev.count_tlbs (d : Dev) (p sel n : Nat) : (d.count p sel n).tlbs = d.tlbs := by obtain ⟨_, _, e, _⟩ := Dev.HeaderOut.count d p sel n; rw [e]
@[simp] theorem Dev.count_ptSeen (d : Dev) (p sel n : Nat) : (d.count p sel n).ptSeen = d.ptSeen := by obtain ⟨_, _, e, _⟩ := Dev.HeaderOut.count d p sel n; rw [e]
@[simp] theorem Dev.count_fts (d : Dev) (p sel n : Nat) : (d.count p sel n).fts = d.fts := by obtain ⟨_, _, e, _⟩ := Dev.HeaderOut.count d p sel n; rw [e]
@[simp] theorem Dev.count_keys (d : Dev) (p sel n : Nat) : (d.count p sel n).keys = d.keys := by obtain ⟨_, _, e, _⟩ := Dev.HeaderOut.count d p sel n; rw [e]
@[simp] theorem Dev.count_steers (d : Dev) (p sel n : Nat) : (d.count p sel n).steers = d.steers := by obtain ⟨_, _, e, _⟩ := Dev.HeaderOut.count d p sel n; rw [e]
@[simp] theorem Dev.count_sec (d : Dev) (p sel n : Nat) : (d.count p sel n).sec = d.sec := by obtain ⟨_, _, e, _⟩ := Dev.HeaderOut.count d p sel n; rw [e]
@[simp] theorem Dev.count_svc (d : Dev) (p sel n : Nat) : (d.count p sel n).svc = d.svc := by obtain ⟨_, _, e, _⟩ := Dev.HeaderOut.count d p sel n; rw [e]
@[simp] theorem Dev.count_trc (d : Dev) (p sel n : Nat) : (d.count p sel n).trc = d.trc := by obtain ⟨_, _, e, _⟩ := Dev.HeaderOut.count d p sel n; rw [e]
@[simp] theorem Dev.count_tap (d : Dev) (p sel n : Nat) : (d.count p sel n).tap = d.tap := by obtain ⟨_, _, e, _⟩ := Dev.HeaderOut.count d p sel n; rw [e]
@[simp] theorem Dev.count_power (d : Dev) (p sel n : Nat) : (d.count p sel n).power = d.power := by obtain ⟨_, _, e, _⟩ := Dev.HeaderOut.count d p sel n; rw [e]
@[simp] theorem Dev.count_aclkA (d : Dev) (p sel n : Nat) : (d.count p sel n).aclkA = d.aclkA := by obtain ⟨_, _, e, _⟩ := Dev.HeaderOut.count d p sel n; rw [e]
@[simp] theorem Dev.count_aclkB (d : Dev) (p sel n : Nat) : (d.count p sel n).aclkB = d.aclkB := by obtain ⟨_, _, e, _⟩ := Dev.HeaderOut.count d p sel n; rw [e]
@[simp] theorem Dev.count_lagB (d : Dev) (p sel n : Nat) : (d.count p sel n).lagB = d.lagB := by obtain ⟨_, _, e, _⟩ := Dev.HeaderOut.count d p sel n; rw [e]
@[simp] theorem Dev.count_free (d : Dev) (p sel n : Nat) : (d.count p sel n).free = d.free := by obtain ⟨_, _, e, _⟩ := Dev.HeaderOut.count d p sel n; rw [e]

@[simp] theorem Dev.trace_bus (d : Dev) (p k : Nat) (c : Option Nat) (u v : W64) : (d.trace p k c u v).bus = d.bus := by obtain ⟨_, _, _, e, _⟩ := Dev.Noted.trace p d p k c u v; rw [e]
@[simp] theorem Dev.trace_cap (d : Dev) (p k : Nat) (c : Option Nat) (u v : W64) : (d.trace p k c u v).cap = d.cap := by obtain ⟨_, _, _, e, _⟩ := Dev.Noted.trace p d p k c u v; rw [e]
@[simp] theorem Dev.trace_mem (d : Dev) (p k : Nat) (c : Option Nat) (u v : W64) : (d.trace p k c u v).mem = d.mem := by obtain ⟨_, _, _, e, _⟩ := Dev.Noted.trace p d p k c u v; rw [e]
@[simp] theorem Dev.trace_dram (d : Dev) (p k : Nat) (c : Option Nat) (u v : W64) : (d.trace p k c u v).dram = d.dram := by obtain ⟨_, _, _, e, _⟩ := Dev.Noted.trace p d p k c u v; rw [e]
@[simp] theorem Dev.trace_poison (d : Dev) (p k : Nat) (c : Option Nat) (u v : W64) : (d.trace p k c u v).poison = d.poison := by obtain ⟨_, _, _, e, _⟩ := Dev.Noted.trace p d p k c u v; rw [e]
@[simp] theorem Dev.trace_drives (d : Dev) (p k : Nat) (c : Option Nat) (u v : W64) : (d.trace p k c u v).drives = d.drives := by obtain ⟨_, _, _, e, _⟩ := Dev.Noted.trace p d p k c u v; rw [e]
@[simp] theorem Dev.trace_flash (d : Dev) (p k : Nat) (c : Option Nat) (u v : W64) : (d.trace p k c u v).flash = d.flash := by obtain ⟨_, _, _, e, _⟩ := Dev.Noted.trace p d p k c u v; rw [e]
@[simp] theorem Dev.trace_cores (d : Dev) (p k : Nat) (c : Option Nat) (u v : W64) : (d.trace p k c u v).cores = d.cores := by obtain ⟨_, _, _, e, _⟩ := Dev.Noted.trace p d p k c u v; rw [e]
@[simp] theorem Dev.trace_queues (d : Dev) (p k : Nat) (c : Option Nat) (u v : W64) : (d.trace p k c u v).queues = d.queues := by obtain ⟨_, _, _, e, _⟩ := Dev.Noted.trace p d p k c u v; rw [e]
@[simp] theorem Dev.trace_upds (d : Dev) (p k : Nat) (c : Option Nat) (u v : W64) : (d.trace p k c u v).upds = d.upds := by obtain ⟨_, _, _, e, _⟩ := Dev.Noted.trace p d p k c u v; rw [e]
@[simp] theorem Dev.trace_nis (d : Dev) (p k : Nat) (c : Option Nat) (u v : W64) : (d.trace p k c u v).nis = d.nis := by obtain ⟨_, _, _, e, _⟩ := Dev.Noted.trace p d p k c u v; rw [e]
@[simp] theorem Dev.trace_peers (d : Dev) (p k : Nat) (c : Option Nat) (u v : W64) : (d.trace p k c u v).peers = d.peers := by obtain ⟨_, _, _, e, _⟩ := Dev.Noted.trace p d p k c u v; rw [e]
@[simp] theorem Dev.trace_credit (d : Dev) (p k : Nat) (c : Option Nat) (u v : W64) : (d.trace p k c u v).credit = d.credit := by obtain ⟨_, _, _, e, _⟩ := Dev.Noted.trace p d p k c u v; rw [e]
@[simp] theorem Dev.trace_ports (d : Dev) (p k : Nat) (c : Option Nat) (u v : W64) : (d.trace p k c u v).ports = d.ports := by obtain ⟨_, _, _, e, _⟩ := Dev.Noted.trace p d p k c u v; rw [e]
@[simp] theorem Dev.trace_halves (d : Dev) (p k : Nat) (c : Option Nat) (u v : W64) : (d.trace p k c u v).halves = d.halves := by obtain ⟨_, _, _, e, _⟩ := Dev.Noted.trace p d p k c u v; rw [e]
@[simp] theorem Dev.trace_channels (d : Dev) (p k : Nat) (c : Option Nat) (u v : W64) : (d.trace p k c u v).channels = d.channels := by obtain ⟨_, _, _, e, _⟩ := Dev.Noted.trace p d p k c u v; rw [e]
@[simp] theorem Dev.trace_flits (d : Dev) (p k : Nat) (c : Option Nat) (u v : W64) : (d.trace p k c u v).flits = d.flits := by obtain ⟨_, _, _, e, _⟩ := Dev.Noted.trace p d p k c u v; rw [e]
@[simp] theorem Dev.trace_tlbs (d : Dev) (p k : Nat) (c : Option Nat) (u v : W64) : (d.trace p k c u v).tlbs = d.tlbs := by obtain ⟨_, _, _, e, _⟩ := Dev.Noted.trace p d p k c u v; rw [e]
@[simp] theorem Dev.trace_ptSeen (d : Dev) (p k : Nat) (c : Option Nat) (u v : W64) : (d.trace p k c u v).ptSeen = d.ptSeen := by obtain ⟨_, _, _, e, _⟩ := Dev.Noted.trace p d p k c u v; rw [e]
@[simp] theorem Dev.trace_fts (d : Dev) (p k : Nat) (c : Option Nat) (u v : W64) : (d.trace p k c u v).fts = d.fts := by obtain ⟨_, _, _, e, _⟩ := Dev.Noted.trace p d p k c u v; rw [e]
@[simp] theorem Dev.trace_keys (d : Dev) (p k : Nat) (c : Option Nat) (u v : W64) : (d.trace p k c u v).keys = d.keys := by obtain ⟨_, _, _, e, _⟩ := Dev.Noted.trace p d p k c u v; rw [e]
@[simp] theorem Dev.trace_steers (d : Dev) (p k : Nat) (c : Option Nat) (u v : W64) : (d.trace p k c u v).steers = d.steers := by obtain ⟨_, _, _, e, _⟩ := Dev.Noted.trace p d p k c u v; rw [e]
@[simp] theorem Dev.trace_sec (d : Dev) (p k : Nat) (c : Option Nat) (u v : W64) : (d.trace p k c u v).sec = d.sec := by obtain ⟨_, _, _, e, _⟩ := Dev.Noted.trace p d p k c u v; rw [e]
@[simp] theorem Dev.trace_svc (d : Dev) (p k : Nat) (c : Option Nat) (u v : W64) : (d.trace p k c u v).svc = d.svc := by obtain ⟨_, _, _, e, _⟩ := Dev.Noted.trace p d p k c u v; rw [e]
@[simp] theorem Dev.trace_tap (d : Dev) (p k : Nat) (c : Option Nat) (u v : W64) : (d.trace p k c u v).tap = d.tap := by obtain ⟨_, _, _, e, _⟩ := Dev.Noted.trace p d p k c u v; rw [e]
@[simp] theorem Dev.trace_power (d : Dev) (p k : Nat) (c : Option Nat) (u v : W64) : (d.trace p k c u v).power = d.power := by obtain ⟨_, _, _, e, _⟩ := Dev.Noted.trace p d p k c u v; rw [e]
@[simp] theorem Dev.trace_aclkA (d : Dev) (p k : Nat) (c : Option Nat) (u v : W64) : (d.trace p k c u v).aclkA = d.aclkA := by obtain ⟨_, _, _, e, _⟩ := Dev.Noted.trace p d p k c u v; rw [e]
@[simp] theorem Dev.trace_aclkB (d : Dev) (p k : Nat) (c : Option Nat) (u v : W64) : (d.trace p k c u v).aclkB = d.aclkB := by obtain ⟨_, _, _, e, _⟩ := Dev.Noted.trace p d p k c u v; rw [e]
@[simp] theorem Dev.trace_lagB (d : Dev) (p k : Nat) (c : Option Nat) (u v : W64) : (d.trace p k c u v).lagB = d.lagB := by obtain ⟨_, _, _, e, _⟩ := Dev.Noted.trace p d p k c u v; rw [e]
@[simp] theorem Dev.trace_free (d : Dev) (p k : Nat) (c : Option Nat) (u v : W64) : (d.trace p k c u v).free = d.free := by obtain ⟨_, _, _, e, _⟩ := Dev.Noted.trace p d p k c u v; rw [e]

@[simp] theorem Dev.eclipse_bus (d : Dev) (cause : Nat) : (d.eclipse cause).bus = d.bus := by obtain ⟨_, _, _, e, _⟩ := Dev.Noted.eclipse 0 d cause; rw [e]
@[simp] theorem Dev.eclipse_cap (d : Dev) (cause : Nat) : (d.eclipse cause).cap = d.cap := by obtain ⟨_, _, _, e, _⟩ := Dev.Noted.eclipse 0 d cause; rw [e]
@[simp] theorem Dev.eclipse_mem (d : Dev) (cause : Nat) : (d.eclipse cause).mem = d.mem := by obtain ⟨_, _, _, e, _⟩ := Dev.Noted.eclipse 0 d cause; rw [e]
@[simp] theorem Dev.eclipse_dram (d : Dev) (cause : Nat) : (d.eclipse cause).dram = d.dram := by obtain ⟨_, _, _, e, _⟩ := Dev.Noted.eclipse 0 d cause; rw [e]
@[simp] theorem Dev.eclipse_poison (d : Dev) (cause : Nat) : (d.eclipse cause).poison = d.poison := by obtain ⟨_, _, _, e, _⟩ := Dev.Noted.eclipse 0 d cause; rw [e]
@[simp] theorem Dev.eclipse_drives (d : Dev) (cause : Nat) : (d.eclipse cause).drives = d.drives := by obtain ⟨_, _, _, e, _⟩ := Dev.Noted.eclipse 0 d cause; rw [e]
@[simp] theorem Dev.eclipse_flash (d : Dev) (cause : Nat) : (d.eclipse cause).flash = d.flash := by obtain ⟨_, _, _, e, _⟩ := Dev.Noted.eclipse 0 d cause; rw [e]
@[simp] theorem Dev.eclipse_cores (d : Dev) (cause : Nat) : (d.eclipse cause).cores = d.cores := by obtain ⟨_, _, _, e, _⟩ := Dev.Noted.eclipse 0 d cause; rw [e]
@[simp] theorem Dev.eclipse_queues (d : Dev) (cause : Nat) : (d.eclipse cause).queues = d.queues := by obtain ⟨_, _, _, e, _⟩ := Dev.Noted.eclipse 0 d cause; rw [e]
@[simp] theorem Dev.eclipse_upds (d : Dev) (cause : Nat) : (d.eclipse cause).upds = d.upds := by obtain ⟨_, _, _, e, _⟩ := Dev.Noted.eclipse 0 d cause; rw [e]
@[simp] theorem Dev.eclipse_nis (d : Dev) (cause : Nat) : (d.eclipse cause).nis = d.nis := by obtain ⟨_, _, _, e, _⟩ := Dev.Noted.eclipse 0 d cause; rw [e]
@[simp] theorem Dev.eclipse_peers (d : Dev) (cause : Nat) : (d.eclipse cause).peers = d.peers := by obtain ⟨_, _, _, e, _⟩ := Dev.Noted.eclipse 0 d cause; rw [e]
@[simp] theorem Dev.eclipse_credit (d : Dev) (cause : Nat) : (d.eclipse cause).credit = d.credit := by obtain ⟨_, _, _, e, _⟩ := Dev.Noted.eclipse 0 d cause; rw [e]
@[simp] theorem Dev.eclipse_ports (d : Dev) (cause : Nat) : (d.eclipse cause).ports = d.ports := by obtain ⟨_, _, _, e, _⟩ := Dev.Noted.eclipse 0 d cause; rw [e]
@[simp] theorem Dev.eclipse_halves (d : Dev) (cause : Nat) : (d.eclipse cause).halves = d.halves := by obtain ⟨_, _, _, e, _⟩ := Dev.Noted.eclipse 0 d cause; rw [e]
@[simp] theorem Dev.eclipse_channels (d : Dev) (cause : Nat) : (d.eclipse cause).channels = d.channels := by obtain ⟨_, _, _, e, _⟩ := Dev.Noted.eclipse 0 d cause; rw [e]
@[simp] theorem Dev.eclipse_flits (d : Dev) (cause : Nat) : (d.eclipse cause).flits = d.flits := by obtain ⟨_, _, _, e, _⟩ := Dev.Noted.eclipse 0 d cause; rw [e]
@[simp] theorem Dev.eclipse_tlbs (d : Dev) (cause : Nat) : (d.eclipse cause).tlbs = d.tlbs := by obtain ⟨_, _, _, e, _⟩ := Dev.Noted.eclipse 0 d cause; rw [e]
@[simp] theorem Dev.eclipse_ptSeen (d : Dev) (cause : Nat) : (d.eclipse cause).ptSeen = d.ptSeen := by obtain ⟨_, _, _, e, _⟩ := Dev.Noted.eclipse 0 d cause; rw [e]
@[simp] theorem Dev.eclipse_fts (d : Dev) (cause : Nat) : (d.eclipse cause).fts = d.fts := by obtain ⟨_, _, _, e, _⟩ := Dev.Noted.eclipse 0 d cause; rw [e]
@[simp] theorem Dev.eclipse_keys (d : Dev) (cause : Nat) : (d.eclipse cause).keys = d.keys := by obtain ⟨_, _, _, e, _⟩ := Dev.Noted.eclipse 0 d cause; rw [e]
@[simp] theorem Dev.eclipse_steers (d : Dev) (cause : Nat) : (d.eclipse cause).steers = d.steers := by obtain ⟨_, _, _, e, _⟩ := Dev.Noted.eclipse 0 d cause; rw [e]
@[simp] theorem Dev.eclipse_sec (d : Dev) (cause : Nat) : (d.eclipse cause).sec = d.sec := by obtain ⟨_, _, _, e, _⟩ := Dev.Noted.eclipse 0 d cause; rw [e]
@[simp] theorem Dev.eclipse_svc (d : Dev) (cause : Nat) : (d.eclipse cause).svc = d.svc := by obtain ⟨_, _, _, e, _⟩ := Dev.Noted.eclipse 0 d cause; rw [e]
@[simp] theorem Dev.eclipse_tap (d : Dev) (cause : Nat) : (d.eclipse cause).tap = d.tap := by obtain ⟨_, _, _, e, _⟩ := Dev.Noted.eclipse 0 d cause; rw [e]
@[simp] theorem Dev.eclipse_power (d : Dev) (cause : Nat) : (d.eclipse cause).power = d.power := by obtain ⟨_, _, _, e, _⟩ := Dev.Noted.eclipse 0 d cause; rw [e]
@[simp] theorem Dev.eclipse_aclkA (d : Dev) (cause : Nat) : (d.eclipse cause).aclkA = d.aclkA := by obtain ⟨_, _, _, e, _⟩ := Dev.Noted.eclipse 0 d cause; rw [e]
@[simp] theorem Dev.eclipse_aclkB (d : Dev) (cause : Nat) : (d.eclipse cause).aclkB = d.aclkB := by obtain ⟨_, _, _, e, _⟩ := Dev.Noted.eclipse 0 d cause; rw [e]
@[simp] theorem Dev.eclipse_lagB (d : Dev) (cause : Nat) : (d.eclipse cause).lagB = d.lagB := by obtain ⟨_, _, _, e, _⟩ := Dev.Noted.eclipse 0 d cause; rw [e]
@[simp] theorem Dev.eclipse_free (d : Dev) (cause : Nat) : (d.eclipse cause).free = d.free := by obtain ⟨_, _, _, e, _⟩ := Dev.Noted.eclipse 0 d cause; rw [e]

@[simp] theorem Dev.raise_bus (d : Dev) (p code qual a : Nat) : (d.raise p code qual a).bus = d.bus := by obtain ⟨_, _, _, e, _⟩ := Dev.Noted.raise d p code qual a; rw [e]
@[simp] theorem Dev.raise_cap (d : Dev) (p code qual a : Nat) : (d.raise p code qual a).cap = d.cap := by obtain ⟨_, _, _, e, _⟩ := Dev.Noted.raise d p code qual a; rw [e]
@[simp] theorem Dev.raise_mem (d : Dev) (p code qual a : Nat) : (d.raise p code qual a).mem = d.mem := by obtain ⟨_, _, _, e, _⟩ := Dev.Noted.raise d p code qual a; rw [e]
@[simp] theorem Dev.raise_dram (d : Dev) (p code qual a : Nat) : (d.raise p code qual a).dram = d.dram := by obtain ⟨_, _, _, e, _⟩ := Dev.Noted.raise d p code qual a; rw [e]
@[simp] theorem Dev.raise_poison (d : Dev) (p code qual a : Nat) : (d.raise p code qual a).poison = d.poison := by obtain ⟨_, _, _, e, _⟩ := Dev.Noted.raise d p code qual a; rw [e]
@[simp] theorem Dev.raise_drives (d : Dev) (p code qual a : Nat) : (d.raise p code qual a).drives = d.drives := by obtain ⟨_, _, _, e, _⟩ := Dev.Noted.raise d p code qual a; rw [e]
@[simp] theorem Dev.raise_flash (d : Dev) (p code qual a : Nat) : (d.raise p code qual a).flash = d.flash := by obtain ⟨_, _, _, e, _⟩ := Dev.Noted.raise d p code qual a; rw [e]
@[simp] theorem Dev.raise_cores (d : Dev) (p code qual a : Nat) : (d.raise p code qual a).cores = d.cores := by obtain ⟨_, _, _, e, _⟩ := Dev.Noted.raise d p code qual a; rw [e]
@[simp] theorem Dev.raise_queues (d : Dev) (p code qual a : Nat) : (d.raise p code qual a).queues = d.queues := by obtain ⟨_, _, _, e, _⟩ := Dev.Noted.raise d p code qual a; rw [e]
@[simp] theorem Dev.raise_upds (d : Dev) (p code qual a : Nat) : (d.raise p code qual a).upds = d.upds := by obtain ⟨_, _, _, e, _⟩ := Dev.Noted.raise d p code qual a; rw [e]
@[simp] theorem Dev.raise_nis (d : Dev) (p code qual a : Nat) : (d.raise p code qual a).nis = d.nis := by obtain ⟨_, _, _, e, _⟩ := Dev.Noted.raise d p code qual a; rw [e]
@[simp] theorem Dev.raise_peers (d : Dev) (p code qual a : Nat) : (d.raise p code qual a).peers = d.peers := by obtain ⟨_, _, _, e, _⟩ := Dev.Noted.raise d p code qual a; rw [e]
@[simp] theorem Dev.raise_credit (d : Dev) (p code qual a : Nat) : (d.raise p code qual a).credit = d.credit := by obtain ⟨_, _, _, e, _⟩ := Dev.Noted.raise d p code qual a; rw [e]
@[simp] theorem Dev.raise_ports (d : Dev) (p code qual a : Nat) : (d.raise p code qual a).ports = d.ports := by obtain ⟨_, _, _, e, _⟩ := Dev.Noted.raise d p code qual a; rw [e]
@[simp] theorem Dev.raise_halves (d : Dev) (p code qual a : Nat) : (d.raise p code qual a).halves = d.halves := by obtain ⟨_, _, _, e, _⟩ := Dev.Noted.raise d p code qual a; rw [e]
@[simp] theorem Dev.raise_channels (d : Dev) (p code qual a : Nat) : (d.raise p code qual a).channels = d.channels := by obtain ⟨_, _, _, e, _⟩ := Dev.Noted.raise d p code qual a; rw [e]
@[simp] theorem Dev.raise_flits (d : Dev) (p code qual a : Nat) : (d.raise p code qual a).flits = d.flits := by obtain ⟨_, _, _, e, _⟩ := Dev.Noted.raise d p code qual a; rw [e]
@[simp] theorem Dev.raise_tlbs (d : Dev) (p code qual a : Nat) : (d.raise p code qual a).tlbs = d.tlbs := by obtain ⟨_, _, _, e, _⟩ := Dev.Noted.raise d p code qual a; rw [e]
@[simp] theorem Dev.raise_ptSeen (d : Dev) (p code qual a : Nat) : (d.raise p code qual a).ptSeen = d.ptSeen := by obtain ⟨_, _, _, e, _⟩ := Dev.Noted.raise d p code qual a; rw [e]
@[simp] theorem Dev.raise_fts (d : Dev) (p code qual a : Nat) : (d.raise p code qual a).fts = d.fts := by obtain ⟨_, _, _, e, _⟩ := Dev.Noted.raise d p code qual a; rw [e]
@[simp] theorem Dev.raise_keys (d : Dev) (p code qual a : Nat) : (d.raise p code qual a).keys = d.keys := by obtain ⟨_, _, _, e, _⟩ := Dev.Noted.raise d p code qual a; rw [e]
@[simp] theorem Dev.raise_steers (d : Dev) (p code qual a : Nat) : (d.raise p code qual a).steers = d.steers := by obtain ⟨_, _, _, e, _⟩ := Dev.Noted.raise d p code qual a; rw [e]
@[simp] theorem Dev.raise_sec (d : Dev) (p code qual a : Nat) : (d.raise p code qual a).sec = d.sec := by obtain ⟨_, _, _, e, _⟩ := Dev.Noted.raise d p code qual a; rw [e]
@[simp] theorem Dev.raise_svc (d : Dev) (p code qual a : Nat) : (d.raise p code qual a).svc = d.svc := by obtain ⟨_, _, _, e, _⟩ := Dev.Noted.raise d p code qual a; rw [e]
@[simp] theorem Dev.raise_tap (d : Dev) (p code qual a : Nat) : (d.raise p code qual a).tap = d.tap := by obtain ⟨_, _, _, e, _⟩ := Dev.Noted.raise d p code qual a; rw [e]
@[simp] theorem Dev.raise_power (d : Dev) (p code qual a : Nat) : (d.raise p code qual a).power = d.power := by obtain ⟨_, _, _, e, _⟩ := Dev.Noted.raise d p code qual a; rw [e]
@[simp] theorem Dev.raise_aclkA (d : Dev) (p code qual a : Nat) : (d.raise p code qual a).aclkA = d.aclkA := by obtain ⟨_, _, _, e, _⟩ := Dev.Noted.raise d p code qual a; rw [e]
@[simp] theorem Dev.raise_aclkB (d : Dev) (p code qual a : Nat) : (d.raise p code qual a).aclkB = d.aclkB := by obtain ⟨_, _, _, e, _⟩ := Dev.Noted.raise d p code qual a; rw [e]
@[simp] theorem Dev.raise_lagB (d : Dev) (p code qual a : Nat) : (d.raise p code qual a).lagB = d.lagB := by obtain ⟨_, _, _, e, _⟩ := Dev.Noted.raise d p code qual a; rw [e]
@[simp] theorem Dev.raise_free (d : Dev) (p code qual a : Nat) : (d.raise p code qual a).free = d.free := by obtain ⟨_, _, _, e, _⟩ := Dev.Noted.raise d p code qual a; rw [e]

end Sys2Proof.Machine
end

