-- ==== Sys2Proof/Laws/Memory.lean ====
section
/-! SUPPORT. The laws of memory: a byte written reads back, every other byte reads as before, and every operation keeps the
list in its canonical form, which the memory at reset has. -/

namespace Sys2Proof.Machine

/-- The memory at reset is in its canonical form. -/
theorem Memory.wf_reset : Memory.wf State.reset.dev.mem = true := rfl

theorem Memory.wf_iff (m : List Host.Cell) :
    Memory.wf m = true ↔ KV.sorted m = true ∧ ∀ c ∈ m, memDefault c.1 ≠ some c.2 := by
  simp [Memory.wf]

/-- A byte set keeps the canonical form. -/
theorem Memory.wf_set {m : List Host.Cell} (pa : Nat) (b : Byte) (h : Memory.wf m = true) : Memory.wf (Memory.set m pa b) = true := by
  rw [Memory.wf_iff] at h ⊢
  unfold Memory.set
  split
  · exact ⟨KV.sorted_erase _ _ h.1, fun c hc => h.2 c (KV.mem_erase hc)⟩
  · rename_i hb
    refine ⟨KV.sorted_set _ _ _ h.1, fun c hc => ?_⟩
    rcases KV.mem_set hc with rfl | hc
    · exact hb
    · exact h.2 c hc

theorem Memory.wf_setAll {m : List Host.Cell} (pa : Nat) (bs : List Byte) (h : Memory.wf m = true) :
    Memory.wf (Memory.setAll m pa bs) = true := by
  induction bs generalizing m pa with
  | nil => exact h
  | cons b bs ih => exact ih _ (Memory.wf_set _ _ h)

theorem Memory.wf_setMask {m : List Host.Cell} (pa : Nat) (bs : List (Option Byte)) (h : Memory.wf m = true) :
    Memory.wf (Memory.setMask m pa bs) = true := by
  induction bs generalizing m pa with
  | nil => exact h
  | cons b bs ih =>
    cases b with
    | none => exact ih _ h
    | some b => exact ih _ (Memory.wf_set _ _ h)

/-- Bytes taken out of the list keep the canonical form. -/
theorem KV.sorted_filter {α : Type} (l : List (Nat × α)) (p : Nat × α → Bool) (h : KV.sorted l = true) : KV.sorted (l.filter p) = true := by
  induction l with
  | nil => rfl
  | cons a l ih =>
    obtain ⟨k, v⟩ := a
    have hs := KV.sorted_head_lt h
    have ht : KV.sorted l = true := by rw [KV.sorted_cons, Bool.and_eq_true] at h; exact h.2
    cases hp : p (k, v) with
    | false => simpa [hp] using ih ht
    | true =>
      rw [List.filter_cons_of_pos hp, KV.sorted_cons, ih ht, Bool.and_true]
      cases he : (l.filter p).head? with
      | none => rfl
      | some q => simpa using hs q ((List.mem_filter.mp (List.mem_of_mem_head? (l := l.filter p) (by simp [he]))).1)

theorem Memory.wf_filter {m : List Host.Cell} (p : Host.Cell → Bool) (h : Memory.wf m = true) : Memory.wf (m.filter p) = true := by
  rw [Memory.wf_iff] at h ⊢
  exact ⟨KV.sorted_filter _ _ h.1, fun c hc => h.2 c (List.mem_filter.mp hc).1⟩

/-- The named writes of the machine keep the canonical form. -/
theorem Dev.wf_put {d : Dev} (pa : Nat) (bs : List Byte) (h : Memory.wf d.mem = true) : Memory.wf (d.put pa bs).mem = true :=
  Memory.wf_setAll _ _ h

theorem Dev.wf_putMask {d : Dev} (pa : Nat) (bs : List (Option Byte)) (h : Memory.wf d.mem = true) : Memory.wf (d.putMask pa bs).mem = true :=
  Memory.wf_setMask _ _ h

/-! ### Reading back -/

/-- What an address reads as in a list: the listed byte, or its default. -/
def Memory.look (m : List Host.Cell) (a : Nat) : Option Byte := (KV.find? m a).or (memDefault a)

theorem Memory.look_set_self (m : List Host.Cell) (a : Nat) (b : Byte) : Memory.look (Memory.set m a b) a = some b := by
  unfold Memory.set Memory.look
  split
  · rename_i h; simp [h]
  · simp

theorem Memory.look_set_ne (m : List Host.Cell) {a pa : Nat} (b : Byte) (h : a ≠ pa) : Memory.look (Memory.set m pa b) a = Memory.look m a := by
  unfold Memory.set Memory.look
  split
  · rw [KV.find?_erase_ne _ h]
  · rw [KV.find?_set_ne _ _ h]

theorem Memory.look_setAll (m : List Host.Cell) (pa a : Nat) (bs : List Byte) :
    Memory.look (Memory.setAll m pa bs) a = if pa ≤ a ∧ a < pa + bs.length then bs[a - pa]? else Memory.look m a := by
  induction bs generalizing m pa with
  | nil =>
    have : ¬ (pa ≤ a ∧ a < pa + ([] : List Byte).length) := by simp
    rw [if_neg this]; rfl
  | cons b bs ih =>
    rw [Memory.setAll, ih]
    by_cases e : a = pa
    · subst e
      have h₁ : ¬ (a + 1 ≤ a ∧ a < a + 1 + bs.length) := by omega
      have h₂ : a ≤ a ∧ a < a + (b :: bs).length := by simp
      rw [if_neg h₁, if_pos h₂, Memory.look_set_self]; simp
    · by_cases h : pa + 1 ≤ a ∧ a < pa + 1 + bs.length
      · have h₂ : pa ≤ a ∧ a < pa + (b :: bs).length := by simp; omega
        rw [if_pos h, if_pos h₂, show a - pa = (a - (pa + 1)) + 1 by omega]; rfl
      · have h₂ : ¬ (pa ≤ a ∧ a < pa + (b :: bs).length) := by simp; omega
        rw [if_neg h, if_neg h₂, Memory.look_set_ne _ _ e]

theorem Memory.look_setMask (m : List Host.Cell) (pa a : Nat) (bs : List (Option Byte)) :
    Memory.look (Memory.setMask m pa bs) a = if pa ≤ a then (match bs[a - pa]? with | some (some b) => some b | _ => Memory.look m a)
      else Memory.look m a := by
  induction bs generalizing m pa with
  | nil => by_cases h : pa ≤ a <;> simp [Memory.setMask, h]
  | cons b bs ih =>
    have aux : ∀ m' : List Host.Cell, Memory.look m' a = (match b with | some x => if a = pa then some x else Memory.look m a | none => Memory.look m a) →
        Memory.look (Memory.setMask m' (pa + 1) bs) a = if pa ≤ a then (match (b :: bs)[a - pa]? with | some (some b) => some b | _ => Memory.look m a)
          else Memory.look m a := by
      intro m' hm
      rw [ih]
      by_cases e : a = pa
      · subst e
        rw [if_neg (by omega), if_pos (Nat.le_refl a), hm]
        cases b <;> simp
      · have hm' : Memory.look m' a = Memory.look m a := by rw [hm]; cases b <;> simp [e]
        by_cases h : pa + 1 ≤ a
        · rw [if_pos h, if_pos (by omega : pa ≤ a), hm', show a - pa = (a - (pa + 1)) + 1 by omega]; rfl
        · rw [if_neg h, if_neg (by omega : ¬ pa ≤ a), hm']
    cases b with
    | none => exact aux m rfl
    | some x =>
      refine aux (Memory.set m pa x) ?_
      by_cases e : a = pa
      · subst e; simp [Memory.look_set_self]
      · simp [e, Memory.look_set_ne _ _ e]

/-- A byte of the machine by the list of memory and the generations of the carve-outs alone. -/
theorem Dev.byte_eq (d : Dev) (a : Nat) : d.byte a = (match Memory.look d.mem a with
    | some b => b
    | none => if a < 0x100040000000 then
        Config.carveByte ((d.half (if a < 0x100030000000 then 0 else 1)).carveGen.getD (a % 0x10000000 / 0x1000000) 0) a
      else Config.hostByte a) := by
  unfold Dev.byte Memory.look
  cases KV.find? d.mem a with
  | some b => rfl
  | none => cases memDefault a <;> rfl

/-- Bytes put at an address read back, and every other byte reads as before. -/
theorem Dev.byte_putMask (d : Dev) (pa a : Nat) (bs : List (Option Byte)) :
    (d.putMask pa bs).byte a = if pa ≤ a then (match bs[a - pa]? with | some (some b) => b | _ => d.byte a) else d.byte a := by
  rw [Dev.byte_eq, Dev.byte_eq, Dev.putMask_mem, Memory.look_setMask]
  by_cases h : pa ≤ a
  · rw [if_pos h, if_pos h]
    cases bs[a - pa]? with
    | none => rfl
    | some x => cases x <;> rfl
  · rw [if_neg h, if_neg h]; rfl

theorem Dev.byte_put (d : Dev) (pa a : Nat) (bs : List Byte) :
    (d.put pa bs).byte a = if pa ≤ a ∧ a < pa + bs.length then bs.getD (a - pa) 0 else d.byte a := by
  rw [Dev.byte_eq, Dev.byte_eq, Dev.put_mem, Memory.look_setAll]
  by_cases h : pa ≤ a ∧ a < pa + bs.length
  · rw [if_pos h, if_pos h]
    have : a - pa < bs.length := by omega
    simp [List.getD, this]
  · rw [if_neg h, if_neg h]; rfl

end Sys2Proof.Machine
end

