-- ==== Sys2Proof/Laws/Stores.lean ====
section
/-! SUPPORT. What reading and writing memory does to the rest of the machine: reads change no byte, and every write, reset and
loss of contents keeps the list of memory in its canonical form. -/

namespace Sys2Proof.Machine

/-! ### What does not touch memory -/

@[simp] theorem Dev.modCtx_mem (d : Dev) (c x : Nat) (f : Ctx → Ctx) : (d.modCtx c x f).mem = d.mem := by
  obtain ⟨k, h⟩ := d.modCtx_eq c x f; rw [h]

@[simp] theorem Dev.writeBack_mem (d : Dev) (h l : Nat) : (d.writeBack h l).mem = d.mem := by
  unfold Dev.writeBack
  extract_lets k
  split <;> simp

@[simp] theorem Dev.touch_mem (d : Dev) (h pa : Nat) : (d.touch h pa).1.mem = d.mem := by
  unfold Dev.touch
  extract_lets line ls pin set same new
  split
  · simp
  · split
    · split
      · rfl
      · extract_lets e; simp only [Dev.modHalf_mem, e]; split <;> simp
    · simp

@[simp] theorem Dev.bumpGen_mem (d : Dev) (c i : Nat) : (d.bumpGen c i).mem = d.mem := by
  unfold Dev.bumpGen
  extract_lets page old new e
  split <;> simp [e]

/-- A fold of steps that leave a field leaves it. -/
theorem foldl_field {α β γ : Type} (g : α → γ) (f : α → β → α) (h : ∀ a b, g (f a b) = g a) (l : List β) (a : α) : g (l.foldl f a) = g a :=
  (foldl_rel (R := fun x y => g y = g x) (fun _ => rfl) (fun p q => q.trans p) f l (fun x b _ => h x b) a)

@[simp] theorem Dev.watchWrite_mem (d : Dev) (pa : Nat) : (d.watchWrite pa).mem = d.mem := by
  unfold Dev.watchWrite
  refine foldl_field Dev.mem _ (fun e c => ?_) _ d
  split
  · rfl
  · refine foldl_field Dev.mem _ (fun e i => ?_) _ e
    split <;> simp

@[simp] theorem Dev.memUe_mem (d : Dev) (h pa fl : Nat) (b : Bool) : (d.memUe h pa fl b).1.mem = d.mem := by
  unfold Dev.memUe
  extract_lets cb page qual e ev
  split <;> simp [e]

@[simp] theorem Dev.noteCorrection_mem (d : Dev) (k dev rank sub : Nat) : (d.noteCorrection k dev rank sub).mem = d.mem := by
  unfold Dev.noteCorrection
  extract_lets page same n e thr
  split
  · rfl
  · split <;> simp [e]

/-- The memory after a read of a DRAM line: as it was, or with the line's corrected data written back (R410). -/
theorem Dev.fetchLine_mem (d : Dev) (h pa : Nat) :
    (d.fetchLine h pa).1.mem = d.mem ∨ ∃ data, (d.fetchLine h pa).1.mem = Memory.setAll d.mem (pa / 64 * 64) data := by
  unfold Dev.fetchLine
  extract_lets cb again r t e blank e' r' r''
  split
  · exact .inl (by simp [r])
  · split
    · split <;> exact .inl (by simp [e, t])
    · split
      · exact .inl (by simp [r', e', e, t])
      · split
        · exact .inl (by simp [r'', e', e, t])
        · split
          · exact .inl (by simp [e', e, t])
          · rename_i m dev n data _
            refine .inr ⟨data, ?_⟩
            unfold Dev.correct
            extract_lets page qual e₁ e₂ e₃
            simp only [noteCorrection_mem, Dev.modChan_mem, Dev.clearPoison_mem, Dev.put_mem, e₃, e₂, e₁, e', e, t]
            split <;> simp
          · exact .inl (by simp [r'', e', e, t])

theorem Dev.wf_fetchLine {d : Dev} (h pa : Nat) (w : Memory.wf d.mem = true) : Memory.wf (d.fetchLine h pa).1.mem = true := by
  rcases d.fetchLine_mem h pa with e | ⟨data, e⟩ <;> rw [e]
  · exact w
  · exact Memory.wf_setAll _ _ w

/-- A read keeps the canonical form. -/
theorem Dev.wf_loadLine {d : Dev} (pa : Nat) (w : Memory.wf d.mem = true) : Memory.wf (d.loadLine pa).1.mem = true := by
  unfold Dev.loadLine
  split
  · exact Dev.wf_fetchLine _ _ w
  all_goals (try split) <;> (try split) <;> first | exact w | simpa using w

/-- A fold of steps that keep a property keeps it. -/
theorem foldl_keeps {α β : Type} (p : α → Prop) (f : α → β → α) (h : ∀ a b, p a → p (f a b)) (l : List β) (a : α) (ha : p a) : p (l.foldl f a) :=
  (foldl_rel (R := fun x y => p x → p y) (fun _ => id) (fun f g => g ∘ f) f l (fun x b _ => h x b) a) ha

theorem Dev.wf_load {d : Dev} (pa n : Nat) (w : Memory.wf d.mem = true) : Memory.wf (d.load pa n).1.mem = true := by
  unfold Dev.load
  exact foldl_keeps (fun (x : Dev × List Byte × Option W64) => Memory.wf x.1.mem = true) _ (fun _ _ ha => Dev.wf_loadLine _ ha) _ (d, [], none) w

/-! ### Writes keep the canonical form -/

theorem Dev.wf_storeDram {d : Dev} (h pa : Nat) (bs : List (Option Byte)) (t : Bool) (w : Memory.wf d.mem = true) :
    Memory.wf (d.storeDram h pa bs t).mem = true := by
  unfold Dev.storeDram
  extract_lets k line whole blank old d₁ through d₂ d₃ d₄ d₅ d₆ d₇
  have m₁ : Memory.wf d₁.mem = true := by unfold d₁; split; · simpa using w
                                          · exact Dev.wf_fetchLine _ _ w
  have m₂ : d₂.mem = d₁.mem := by unfold d₂; split <;> simp
  have m₃ : d₃.mem = d₁.mem := by unfold d₃; split <;> simp [m₂]
  have m₄ : d₄.mem = d₁.mem := by unfold d₄; split <;> simp [m₃]
  have m₅ : Memory.wf d₅.mem = true := Dev.wf_putMask _ _ (by rw [m₄]; exact m₁)
  have m₆ : d₆.mem = d₅.mem := by unfold d₆; split <;> simp
  split
  · exact w
  · split
    · exact w
    · simp [d₇, m₆, m₅]

theorem Dev.wf_storeLine {d : Dev} (pa : Nat) (bs : List (Option Byte)) (t : Bool) (w : Memory.wf d.mem = true) :
    Memory.wf (d.storeLine pa bs t).mem = true := by
  unfold Dev.storeLine
  extract_lets clear
  have hc : ∀ e : Dev, (clear e).mem = e.mem := by intro e; unfold clear; split <;> simp
  split
  · exact Dev.wf_storeDram _ _ _ _ w
  · exact Dev.wf_putMask _ _ (by rw [hc]; exact w)
  · exact Dev.wf_putMask _ _ (by rw [hc]; exact w)
  · split
    · exact w
    · exact Dev.wf_putMask _ _ (by rw [hc]; exact w)
  · split
    · exact w
    · simpa using Dev.wf_putMask pa bs (d := clear d) (by rw [hc]; exact w)
  · exact w

theorem Dev.wf_storeGen {d : Dev} (pa : Nat) (bs : List Byte) (t : Bool) (w : Memory.wf d.mem = true) :
    Memory.wf (d.storeGen pa bs t).mem = true :=
  foldl_keeps (fun (x : Dev × List Byte) => Memory.wf x.1.mem = true) _ (fun _ _ ha => Dev.wf_storeLine _ _ _ ha) _ (d, bs) w

theorem Dev.wf_store {d : Dev} (pa : Nat) (bs : List Byte) (w : Memory.wf d.mem = true) : Memory.wf (d.store pa bs).mem = true :=
  Dev.wf_storeGen _ _ _ w

theorem Dev.wf_storeWord {d : Dev} (pa : Nat) (v : W64) (w : Memory.wf d.mem = true) : Memory.wf (d.storeWord pa v).mem = true :=
  Dev.wf_store _ _ w

theorem Dev.wf_storeBy {d : Dev} (secure : Bool) (pa : Nat) (bs : List Byte) (t : Bool) (w : Memory.wf d.mem = true) :
    Memory.wf (d.storeBy secure pa bs t).mem = true :=
  foldl_keeps (fun (x : Dev × List Byte) => Memory.wf x.1.mem = true) _ (fun _ _ ha => Dev.wf_storeLine _ _ _ ha) _ (d, bs) w

theorem Dev.wf_atomicBy {d : Dev} (secure : Bool) (op pa : Nat) (v : W64) (w : Memory.wf d.mem = true) :
    Memory.wf (d.atomicBy secure op pa v).mem = true := by
  unfold Dev.atomicBy
  split
  · exact Dev.wf_storeBy _ _ _ _ (Dev.wf_loadLine _ w)
  · exact w

theorem Dev.wf_atomic {d : Dev} (op pa : Nat) (v : W64) (w : Memory.wf d.mem = true) : Memory.wf (d.atomic op pa v).mem = true :=
  Dev.wf_atomicBy true op pa v w

/-! ### Resets and losses of contents keep it too -/

theorem Dev.wf_dramAsStored {d : Dev} (w : Memory.wf d.mem = true) : Memory.wf d.dramAsStored.mem = true := by
  unfold Dev.dramAsStored
  refine foldl_keeps (fun (x : Dev) => Memory.wf x.mem = true) _ (fun e x he => ?_) _ d w
  extract_lets pa k e₁ e₂
  have h₁ : Memory.wf e₁.mem = true := Dev.wf_put _ _ he
  have h₂ : Memory.wf e₂.mem = true := by unfold e₂; split <;> simpa using h₁
  split <;> simpa using h₂

theorem Dev.wf_wiped {d : Dev} (b : Bool) (w : Memory.wf d.mem = true) : Memory.wf (d.wiped b).mem = true :=
  Memory.wf_filter _ (Dev.wf_dramAsStored w)

theorem Dev.wf_loseCarve {d : Dev} (h a b : Nat) (w : Memory.wf d.mem = true) : Memory.wf (d.loseCarve h a b).mem = true := by
  unfold Dev.loseCarve
  extract_lets lo hi e
  rw [foldl_field Dev.mem _ (fun a i => by split <;> rfl) _ e]
  exact Memory.wf_filter _ w

theorem Dev.wf_loseChannel {d : Dev} (k cap : Nat) (z : Bool) (w : Memory.wf d.mem = true) : Memory.wf (d.loseChannel k cap z).mem = true :=
  Memory.wf_filter _ w

theorem Dev.wf_moveContents {d : Dev} (h cap : Nat) (o n : Bool) : Memory.wf (d.moveContents h cap o n).mem = true := by
  unfold Dev.moveContents
  extract_lets at' lines e
  rw [foldl_field Dev.mem _ (fun a i => by simp) _ e]
  exact foldl_keeps (fun m => Memory.wf m = true) _ (fun m c hm => Memory.wf_set _ _ hm) _ [] rfl

end Sys2Proof.Machine
end

