-- ==== Sys2Proof/Laws/Same.lean ====
section
/-! SUPPORT. Machines that agree on all that a task's accesses to its core's near store depend on: what they agree on, and which
operations keep it. -/

namespace Sys2Proof.Machine

/-- What accesses of a task read of its context. -/
def Ctx.standing (t : Ctx) : Nat × Option Spec := (t.queue, t.spec)

/-- Two machines agree outside headers, TRC, the status of the cores' engines (TBL_STAT), near stores, contexts and what is driven
out. -/
structure Same (w : Who) (b d : Dev) : Prop where
  rest  : ({ d with regs := [], out := [], trc := b.trc, cores := [], mem := [], poison := [], free := 0 } : Dev)
    = { b with regs := [], out := [], cores := [], mem := [], poison := [], free := 0 }
  regs  : ∀ p o, 0x100 ≤ o → o < 0x1000 → p ≠ pgTrc → (o ≠ 0x108 ∨ p < 0x200) → d.reg p o = b.reg p o
  ctx   : (d.ctx? w.core w.ctx).map Ctx.standing = (b.ctx? w.core w.ctx).map Ctx.standing
  far   : ∀ a, ¬ nearAddr a → d.byte a = b.byte a
  sound : ∀ l ∈ d.poison, l ∈ b.poison

theorem Same.refl (w : Who) (b : Dev) : Same w b b := ⟨rfl, fun _ _ _ _ _ _ => rfl, rfl, fun _ _ => rfl, fun _ h => h⟩

theorem Same.eq {α : Type} {w : Who} {b d : Dev} (h : Same w b d) (f : Dev → α)
    (hf : ∀ e : Dev, f e = f { e with regs := [], out := [], trc := b.trc, cores := [], mem := [], poison := [], free := 0 }) : f d = f b := by
  rw [hf d, hf b, h.rest]

theorem Same.trans {w : Who} {a b d : Dev} (h : Same w a b) (g : Same w b d) : Same w a d := by
  refine ⟨?_, fun p o h1 h2 h3 h4 => (g.regs p o h1 h2 h3 h4).trans (h.regs p o h1 h2 h3 h4), g.ctx.trans h.ctx,
    fun x hx => (g.far x hx).trans (h.far x hx), fun l hl => h.sound l (g.sound l hl)⟩
  have h1 := congrArg (fun e : Dev => { e with trc := a.trc }) g.rest
  exact h1.trans h.rest

/-- A near store is a present core's. -/
theorem Dev.space_near {d : Dev} {pa c o : Nat} (h : d.space pa = .near c o) : d.corePresent c = true := by
  unfold Dev.space at h
  split at h
  · dsimp only at h; split at h <;> cases h
  · split at h
    · cases h
    · split at h
      · dsimp only at h
        split at h
        · rename_i hp
          rw [Space.near.injEq] at h
          rw [← h.1]
          exact hp
        · cases h
      · split at h
        · dsimp only at h
          split at h
          · cases h
          · split at h <;> cases h
        · split at h
          · cases h
          · split at h
            · cases h
            · split at h
              · cases h
              · split at h
                · cases h
                · split at h <;> cases h

section
variable {w : Who} {b d : Dev} (h : Same w b d)
include h

theorem Same.cap : d.cap = b.cap := h.eq (fun e => e.cap) (fun _ => rfl)
theorem Same.tap : d.tap = b.tap := h.eq (fun e => e.tap) (fun _ => rfl)
theorem Same.tlbs : d.tlbs = b.tlbs := h.eq (fun e => e.tlbs) (fun _ => rfl)
theorem Same.ptSeen : d.ptSeen = b.ptSeen := h.eq (fun e => e.ptSeen) (fun _ => rfl)
theorem Same.keys : d.keys = b.keys := h.eq (fun e => e.keys) (fun _ => rfl)
theorem Same.halves : d.halves = b.halves := h.eq (fun e => e.halves) (fun _ => rfl)
theorem Same.channels : d.channels = b.channels := h.eq (fun e => e.channels) (fun _ => rfl)

theorem Same.regf {p o : Nat} (h1 : 0x100 ≤ o) (h2 : o < 0x1000) (h3 : p ≠ pgTrc) (h4 : o ≠ 0x108 ∨ p < 0x200) (hi lo : Nat) : d.regf p o hi lo = b.regf p o hi lo := by
  unfold Dev.regf; rw [h.regs p o h1 h2 h3 h4]
theorem Same.regb {p o : Nat} (h1 : 0x100 ≤ o) (h2 : o < 0x1000) (h3 : p ≠ pgTrc) (h4 : o ≠ 0x108 ∨ p < 0x200) (i : Nat) : d.regb p o i = b.regb p o i := by
  unfold Dev.regb; rw [h.regs p o h1 h2 h3 h4]

theorem Same.corePresent (c : Nat) : d.corePresent c = b.corePresent c := by unfold Dev.corePresent; rw [h.cap]
theorem Same.halfPresent (c : Nat) : d.halfPresent c = b.halfPresent c := by unfold Dev.halfPresent Dev.halvesN; rw [h.cap]
theorem Same.half (i : Nat) : d.half i = b.half i := by unfold Dev.half; rw [h.halves]
theorem Same.chan (i : Nat) : d.chan i = b.chan i := by unfold Dev.chan; rw [h.channels]

theorem Same.space (pa : Nat) : d.space pa = b.space pa := by
  have h1 : d.reg pgSys 0x448 = b.reg pgSys 0x448 := h.regs _ _ (by decide) (by decide) (by decide) (by decide)
  have h2 : d.reg pgSys 0x420 = b.reg pgSys 0x420 := h.regs _ _ (by decide) (by decide) (by decide) (by decide)
  have e1 : ∀ i, d.halfSize i = b.halfSize i := fun i => by unfold Dev.halfSize Dev.regf; rw [h1]
  have e2 : ∀ i, d.dramReady i = b.dramReady i := fun i => by unfold Dev.dramReady Dev.regb; rw [h1]
  have e3 : ∀ i, d.carve i = b.carve i := fun i => by unfold Dev.carve Dev.regf; rw [h2]
  unfold Dev.space
  simp only [e1, e2, e3, h.corePresent, h.halfPresent]

theorem Same.reaches (pa : Nat) : d.reaches pa = b.reaches pa := by simp only [Dev.reaches, h.space, h.half]
theorem Same.reachesFrom (c pa : Nat) : d.reachesFrom c pa = b.reachesFrom c pa := by
  simp only [Dev.reachesFrom, h.reaches, h.space, h.regb (p := pgDbw) (o := 0x100) (by decide) (by decide) (by decide) (by decide)]

theorem Same.specOf (e : b.specOf w = none) : d.specOf w = none := by
  have := h.ctx
  unfold Dev.specOf at *
  cases hd : d.ctx? w.core w.ctx <;> cases hb : b.ctx? w.core w.ctx <;> simp_all [Ctx.standing]

theorem Same.claimedKey : d.claimedKey w = b.claimedKey w := by
  have := h.ctx
  unfold Dev.claimedKey
  rw [h.keys]
  cases hd : d.ctx? w.core w.ctx <;> cases hb : b.ctx? w.core w.ctx <;> simp_all [Ctx.standing]

theorem Same.word {a : Nat} (ha : a + 8 ≤ 0x100000000000 ∨ 0x100020000000 ≤ a) : d.word a = b.word a := by
  unfold Dev.word Dev.bytes
  congr 2
  refine List.map_congr_left (fun i hi => h.far _ ?_)
  have := List.mem_range.1 hi
  unfold nearAddr; omega

theorem Same.walk {va : Nat} (ht : ∀ a ∈ b.tableReads va, a + 8 ≤ 0x100000000000 ∨ 0x100020000000 ≤ a) : d.walk va = b.walk va := by
  have h1 : d.reg pgSys 0x400 = b.reg pgSys 0x400 := h.regs _ _ (by decide) (by decide) (by decide) (by decide)
  unfold Dev.tableReads at ht
  have w1 := h.word (ht (entryAddr1 (b.reg pgSys 0x400) va) (by simp))
  unfold Dev.walk
  simp only [h1, w1]
  split
  · rfl
  · cases he : ptEntry (b.word (entryAddr1 (b.reg pgSys 0x400) va)) with
    | error e => rfl
    | ok e1 =>
      have e1' : e1 = b.word (entryAddr1 (b.reg pgSys 0x400) va) := by
        unfold ptEntry at he
        split at he
        · cases he
        · split at he
          · cases he
          · exact (Except.ok.inj he).symm
      subst e1'
      have w2 := h.word (ht (entryAddr2 (b.word (entryAddr1 (b.reg pgSys 0x400) va)) va) (by simp))
      simp only [w2]
      split
      · rfl
      · cases he2 : ptEntry (b.word (entryAddr2 (b.word (entryAddr1 (b.reg pgSys 0x400) va)) va)) with
        | error e => rfl
        | ok e2 =>
          have e2' : e2 = b.word (entryAddr2 (b.word (entryAddr1 (b.reg pgSys 0x400) va)) va) := by
            unfold ptEntry at he2
            split at he2
            · cases he2
            · split at he2
              · cases he2
              · exact (Except.ok.inj he2).symm
          subst e2'
          simp only
          split
          · rfl
          · rename_i hb
            rw [h.word (ht _ (by simp only [hb]; simp))]

theorem Same.seenStale {va : Nat} (ht : ∀ a ∈ b.tableReads va, a + 8 ≤ 0x100000000000 ∨ 0x100020000000 ≤ a) :
    d.seenStale va = b.seenStale va := by
  unfold Dev.seenStale
  rw [h.ptSeen, Bool.eq_iff_iff, List.any_eq_true, List.any_eq_true]
  have key : ∀ x ∈ (KV.find? b.ptSeen (va / 2 ^ 16 % 2 ^ 32)).getD [], d.word x.1 = b.word x.1 := fun x hx =>
    h.word (ht _ (by unfold Dev.tableReads; exact List.mem_append_right _ (List.mem_map_of_mem hx)))
  constructor <;> rintro ⟨x, hx, e⟩ <;> refine ⟨x, hx, ?_⟩
  · rwa [← key x hx]
  · rwa [key x hx]

/-- Every byte agrees, where the memories do. -/
theorem Same.byte (m : d.mem = b.mem) (a : Nat) : d.byte a = b.byte a := by
  unfold Dev.byte
  rw [m, h.half]

theorem Same.wordAt (m : d.mem = b.mem) (a : Nat) : d.word a = b.word a := by
  unfold Dev.word Dev.bytes
  simp only [h.byte m]

theorem Same.walkAt (m : d.mem = b.mem) (va : Nat) : d.walk va = b.walk va := by
  have h1 : d.reg pgSys 0x400 = b.reg pgSys 0x400 := h.regs _ _ (by decide) (by decide) (by decide) (by decide)
  simp only [Dev.walk, h1, h.wordAt m]

theorem Same.physOf (m : d.mem = b.mem) (va : Nat) : d.physOf va = b.physOf va := by simp only [Dev.physOf, h.walkAt m]

theorem Same.vbytes (m : d.mem = b.mem) (va n : Nat) : d.vbytes va n = b.vbytes va n := by
  simp only [Dev.vbytes, Dev.vbyte, h.physOf m, h.byte m]

theorem Same.pagesIn (m : d.mem = b.mem) (va n : Nat) (p : Space → Bool) : d.pagesIn va n p = b.pagesIn va n p := by
  simp only [Dev.pagesIn, h.walkAt m, h.space]

theorem Same.keptRanges (c : Nat) (t : Bool) (hc : c < 8) : d.keptRanges c t = b.keptRanges c t := by
  have h1 : d.reg (pgFet c) 0x100 = b.reg (pgFet c) 0x100 := h.regs _ _ (by decide) (by decide) (by unfold pgFet pgTrc; omega) (.inl (by decide))
  have h2 : d.reg (pgDsp c) 0x408 = b.reg (pgDsp c) 0x408 := h.regs _ _ (by decide) (by decide) (by unfold pgDsp pgTrc; omega) (.inl (by decide))
  have h3 : d.reg (pgDsp c) 0x400 = b.reg (pgDsp c) 0x400 := h.regs _ _ (by decide) (by decide) (by unfold pgDsp pgTrc; omega) (.inl (by decide))
  have h4 : d.reg (pgTbl c) 0x100 = b.reg (pgTbl c) 0x100 := h.regs _ _ (by decide) (by decide) (by unfold pgTbl pgTrc; omega) (.inl (by decide))
  unfold Dev.keptRanges Dev.regf
  rw [h1, h2, h3, h4]

theorem Same.namesKept (m : d.mem = b.mem) (va n : Nat) (t : Bool) : d.namesKept va n t = b.namesKept va n t := by
  unfold Dev.namesKept
  congr 1
  funext pc
  rw [h.walkAt m]
  cases hw : b.walk pc.1 with
  | error e => rfl
  | ok l =>
    simp only [h.space]
    cases hs : b.space (l.frame * 65536 + pc.1 % 65536) with
    | near c o =>
      have hc : c < 8 := by have := Dev.space_near hs; unfold Dev.corePresent at this; simp at this; omega
      simp only [h.keptRanges c t hc]
    | _ => rfl

theorem Same.meshOf (i : Nat) (hi : i < 16) : d.meshOf i = b.meshOf i := by
  have key : ∀ k, k < 4 → d.reg pgSys (0x700 + 32 * i + 8 * k) = b.reg pgSys (0x700 + 32 * i + 8 * k) :=
    fun k hk => h.regs _ _ (by omega) (by omega) (by decide) (.inl (by omega))
  simp only [Dev.meshOf, key 0 (by decide), key 1 (by decide), key 2 (by decide), key 3 (by decide)]

end

/-! ### Operations that keep the agreement -/

/-- A change that keeps all but headers, TRC, contexts' other parts and what is driven out. -/
theorem Same.of_noted {w : Who} {p : Nat} {b d : Dev} (h : Dev.Noted p b d) : Same w b d := by
  obtain ⟨r, o, t, rfl, hr⟩ := h
  refine ⟨rfl, fun q x h1 h2 h3 _ => ?_, rfl, fun _ _ => rfl, fun _ hl => hl⟩
  have : KV.find? r (regKey q x) = KV.find? b.regs (regKey q x) := by
    refine hr _ (fun k hk e => ?_) (fun k hk e => ?_)
    · unfold regKey at e; omega
    · rw [regKey_inj h2 (by omega)] at e; exact h3 e.1
  simp only [Dev.reg, this]

theorem Same.count (w : Who) (d : Dev) (p sel n : Nat) : Same w d (d.count p sel n) := .of_noted (Dev.HeaderOut.count d p sel n).noted
theorem Same.raise (w : Who) (d : Dev) (p code q a : Nat) : Same w d (d.raise p code q a) := .of_noted (Dev.Noted.raise d p code q a)
theorem Same.free (w : Who) (d : Dev) (n : Nat) : Same w d { d with free := n } := ⟨rfl, fun _ _ _ _ _ _ => rfl, rfl, fun _ _ => rfl, fun _ h => h⟩

/-- The status word of a core's engine is written. -/
theorem Same.engineStatus (w : Who) (d : Dev) {p : Nat} (hp : 0x200 ≤ p) (v : W64) : Same w d (d.setReg p 0x108 v) := by
  refine ⟨rfl, fun q x h1 h2 h3 h4 => ?_, rfl, fun _ _ => rfl, fun _ hl => hl⟩
  have hk : regKey q x ≠ regKey p 0x108 := fun e => by
    obtain ⟨e1, e2⟩ := (regKey_inj h2 (by decide)).1 e
    omega
  have : KV.find? (d.setReg p 0x108 v).regs (regKey q x) = KV.find? d.regs (regKey q x) := by
    unfold Dev.setReg
    dsimp only
    split
    · rw [KV.find?_erase_ne _ hk]
    · rw [KV.find?_set_ne _ _ hk]
  unfold Dev.reg
  rw [this]

/-- A change of a core that keeps what accesses read of the task's context. -/
theorem Same.modCore (w : Who) (d : Dev) (c : Nat) (f : Core → Core)
    (h : c = w.core → (KV.find? (f (d.core c)).ctxs w.ctx).map Ctx.standing = (KV.find? (d.core c).ctxs w.ctx).map Ctx.standing) :
    Same w d (d.modCore c f) := by
  refine ⟨rfl, fun _ _ _ _ _ _ => rfl, ?_, fun _ _ => rfl, fun _ h => h⟩
  by_cases e : c = w.core
  · subst e
    simp only [Dev.ctx?, Dev.core_modCore]
    exact h rfl
  · simp only [Dev.ctx?, Dev.core_modCore_ne _ _ (Ne.symm e)]

theorem Same.modCtx (w : Who) (d : Dev) (c x : Nat) (f : Ctx → Ctx) (h : ∀ t, (f t).standing = t.standing) : Same w d (d.modCtx c x f) := by
  unfold Dev.modCtx
  cases hc : d.ctx? c x with
  | none => exact Same.refl w d
  | some t =>
    refine Same.modCore w d c _ (fun e => ?_)
    subst e
    by_cases ex : x = w.ctx
    · subst ex
      simp only [KV.find?_set_self]
      unfold Dev.ctx? at hc
      simp [hc, h]
    · rw [KV.find?_set_ne _ _ (Ne.symm ex)]

theorem Same.setBuf (w : Who) (d : Dev) (c i : Nat) (x : ArrayBuf) : Same w d (d.setBuf c i x) := Same.modCore w d c _ (fun _ => rfl)

theorem Same.dropCopies (w : Who) (d : Dev) (c l : Nat) : Same w d (d.dropCopies c l) := by
  unfold Dev.dropCopies
  extract_lets gone
  split
  · exact Same.refl w d
  · exact (Same.modCore w d c _ (fun _ => rfl)).trans (Same.count ..)

/-- Bytes written to a near store. -/
theorem Same.putMask (w : Who) (d : Dev) (pa : Nat) (bs : List (Option Byte))
    (h : ∀ a, pa ≤ a → a < pa + bs.length → nearAddr a) : Same w d (d.putMask pa bs) := by
  refine ⟨rfl, fun _ _ _ _ _ _ => rfl, rfl, fun a ha => ?_, fun _ h => h⟩
  rw [Dev.byte_putMask]
  split
  · rename_i h1
    have h2 : bs.length ≤ a - pa := Nat.le_of_not_lt (fun hl => ha (h a h1 (by omega)))
    rw [List.getElem?_eq_none h2]
  · rfl

theorem Same.clearPoison (w : Who) (d : Dev) (pa : Nat) : Same w d (d.clearPoison pa) :=
  ⟨rfl, fun _ _ _ _ _ _ => rfl, rfl, fun _ _ => rfl, fun _ h => (List.mem_filter.1 h).1⟩

/-- A page of a near store is read and written at its frame, in every machine that agrees. -/
theorem Same.translate {w : Who} {b d : Dev} (h : Same w b d) {p f : Nat} (n : b.NearPage w p f) {va : Nat} (hv : va / 65536 = p)
    (wr : Bool) : d.translate w.core va wr w.secure = (d, .ok (f * 65536 + va % 65536)) := by
  have hp : va / 2 ^ 16 = p * 65536 / 2 ^ 16 := by omega
  have hk : tlbKey w.core va = tlbKey w.core (p * 65536) := by unfold tlbKey; rw [hp]
  have h3 : va / 2 ^ 34 = p * 65536 / 2 ^ 34 := by omega
  have h2 : va / 2 ^ 21 = p * 65536 / 2 ^ 21 := by omega
  have hw : d.walk va = .ok { frame := f, read := true, write := true, secure := false } := by
    rw [← n.walk, ← h.walk n.tables]
    unfold Dev.walk entryAddr1 entryAddr2 entryAddr3
    rw [h3, h2, hp]
  have hs : d.seenStale va = false := by
    rw [← n.fresh, ← h.seenStale n.tables]
    unfold Dev.seenStale
    rw [hp]
  have hon : d.regb pgSys 0x400 63 = true := by rw [h.regb (by decide) (by decide) (by decide) (by decide)]; exact n.on
  unfold Dev.translate Dev.tlbHit
  simp only [hon, hk, h.tlbs, n.held, TlbEntry.leaf, hw, hs]
  cases wr <;> simp [leafCheck]

theorem Same.nearPhys {w : Who} {b d : Dev} (h : Same w b d) {p f : Nat} (n : b.NearPage w p f) {va : Nat} (hv : va / 65536 = p) :
    d.physOf va = some (f * 65536 + va % 65536) := by
  have hp : va / 2 ^ 16 = p * 65536 / 2 ^ 16 := by omega
  have h3 : va / 2 ^ 34 = p * 65536 / 2 ^ 34 := by omega
  have h2 : va / 2 ^ 21 = p * 65536 / 2 ^ 21 := by omega
  have hw : d.walk va = .ok { frame := f, read := true, write := true, secure := false } := by
    rw [← n.walk, ← h.walk n.tables]
    unfold Dev.walk entryAddr1 entryAddr2 entryAddr3
    rw [h3, h2, hp]
  simp [Dev.physOf, hw]

/-- An address of a frame of the core's near store. -/
theorem Same.nearSpace {w : Who} {b d : Dev} (h : Same w b d) (q : b.Plain w) {pa : Nat} (h1 : nearBase w.core ≤ pa)
    (h2 : pa < nearBase w.core + 0x4000000) : d.space pa = .near w.core (pa - nearBase w.core) := by
  have hc : w.core < 8 := by have := q.present; unfold Dev.corePresent at this; simp at this; omega
  have hp : d.corePresent w.core = true := by rw [h.corePresent]; exact q.present
  unfold nearBase at *
  have e : (pa - 0x100000000000) / 0x4000000 = w.core := by omega
  have e' : (pa - 0x100000000000) % 0x4000000 = pa - (0x100000000000 + w.core * 0x4000000) := by omega
  unfold Dev.space
  rw [if_neg (by omega), if_neg (by omega), if_pos (by omega)]
  simp only [e, e', hp, if_true]

theorem Same.nearReach {w : Who} {b d : Dev} (h : Same w b d) (q : b.Plain w) {pa : Nat} (h1 : nearBase w.core ≤ pa)
    (h2 : pa < nearBase w.core + 0x4000000) : d.reachesFrom (w.core / 4) pa = true := by
  unfold Dev.reachesFrom Dev.reaches
  rw [h.nearSpace q h1 h2]
  simp [Space.half]

theorem Same.nearSound {w : Who} {b d : Dev} (h : Same w b d) (q : b.Plain w) {pa : Nat} (h1 : nearBase w.core ≤ pa)
    (h2 : pa < nearBase w.core + 0x4000000) : d.poisoned pa = false := by
  unfold Dev.poisoned
  rw [List.contains_eq_mem, decide_eq_false_iff_not]
  intro hm
  have := q.sound _ (h.sound _ hm)
  unfold nearBase at *
  omega

theorem nearBase_addr {c : Nat} (hc : c < 8) {a : Nat} (h1 : nearBase c ≤ a) (h2 : a < nearBase c + 0x4000000) : nearAddr a := by
  unfold nearAddr nearBase at *; omega

/-- A line of the core's near store is read as its bytes. -/
theorem Same.loadLine {w : Who} {b d : Dev} (h : Same w b d) (q : b.Plain w) {pa : Nat} (h1 : nearBase w.core ≤ pa)
    (h2 : pa < nearBase w.core + 0x4000000) : d.loadLine pa = (d, none) := by
  unfold Dev.loadLine
  rw [h.nearSpace q h1 h2]
  simp only [h.nearSound q h1 h2]
  simp

theorem Same.value {w : Who} {b d : Dev} (h : Same w b d) (q : b.Plain w) {pa : Nat} (n : Nat) (h1 : nearBase w.core ≤ pa)
    (h2 : pa < nearBase w.core + 0x4000000) : d.value pa n = d.bytes pa n := by
  unfold Dev.value
  rw [h.nearSpace q h1 h2]
  simp only [h.tap, q.whole]
  simp

/-- A line written to the core's near store. -/
theorem Same.storeLine {w : Who} {b d : Dev} (h : Same w b d) (q : b.Plain w) {pa : Nat} (bs : List (Option Byte)) (t : Bool)
    (h1 : nearBase w.core ≤ pa) (h2 : pa + bs.length ≤ nearBase w.core + 0x4000000) (h3 : pa < nearBase w.core + 0x4000000) :
    Same w d (d.storeLine pa bs t) := by
  have hc : w.core < 8 := by have := q.present; unfold Dev.corePresent at this; simp at this; omega
  unfold Dev.storeLine
  rw [h.nearSpace q h1 h3]
  simp only
  refine Same.trans (b := if wholeLine bs then d.clearPoison pa else d) ?_ (Same.putMask w _ pa bs (fun a ha hb => nearBase_addr hc (by omega) (by omega)))
  split
  · exact Same.clearPoison w d pa
  · exact Same.refl w d

end Sys2Proof.Machine
end

