-- ==== Sys2Proof/Laws/Reads.lean ====
section
/-! SUPPORT. Commands whose operands are at hand: runs of the command monad, and the reads and writes of near-store pages, which
succeed and leave all that later accesses depend on. -/

namespace Sys2Proof.Machine

/-! ### Runs of the monad -/

/-- From every run with a property the action answers, and the run that it leaves has the property; the answer has its own. -/
def Runs {α : Type} (p : Run → Prop) (q : α → Prop) (x : M α) : Prop := ∀ r, p r → ∃ a r', x.run.run r = (.ok a, r') ∧ p r' ∧ q a

theorem run_bind {α β : Type} (x : M α) (f : α → M β) (r : Run) :
    (x >>= f).run.run r = match x.run.run r with
      | (.ok a, r') => (f a).run.run r'
      | (.error e, r') => (.error e, r') := by
  change (ExceptT.bind x f).run.run r = _
  unfold ExceptT.bind
  change (let p := (x.run.run r); (ExceptT.bindCont f p.1) p.2) = _
  rcases x.run.run r with ⟨e | a, r'⟩ <;> rfl

theorem run_pure {α : Type} (a : α) (r : Run) : (pure a : M α).run.run r = (.ok a, r) := rfl
theorem run_getDev (r : Run) : getDev.run.run r = (.ok r.dev, r) := rfl
theorem run_get (r : Run) : (get : M Run).run.run r = (.ok r, r) := rfl
theorem run_setDev (d : Dev) (r : Run) : (setDev d).run.run r = (.ok (), { r with dev := d }) := rfl
theorem run_modDev (f : Dev → Dev) (r : Run) : (modDev f).run.run r = (.ok (), { r with dev := f r.dev }) := rfl
theorem run_modify (f : Run → Run) (r : Run) : (modify f : M Unit).run.run r = (.ok (), f r) := rfl

section
variable {α β γ : Type} {p : Run → Prop}

theorem Runs.pure {q : α → Prop} {a : α} (h : q a) : Runs p q (pure a : M α) := fun r hr => ⟨a, r, rfl, hr, h⟩

theorem Runs.weak {q q' : α → Prop} {x : M α} (h : Runs p q x) (hq : ∀ a, q a → q' a) : Runs p q' x := fun r hr => by
  obtain ⟨a, r', e, h1, h2⟩ := h r hr
  exact ⟨a, r', e, h1, hq a h2⟩

theorem Runs.any {q : α → Prop} {x : M α} (h : Runs p q x) : Runs p (fun _ => True) x := h.weak (fun _ _ => trivial)

theorem Runs.bind {q : α → Prop} {q' : β → Prop} {x : M α} {f : α → M β} (hx : Runs p q x) (hf : ∀ a, q a → Runs p q' (f a)) :
    Runs p q' (x >>= f) := by
  intro r h
  obtain ⟨a, r', e, h1, h2⟩ := hx r h
  obtain ⟨c, r'', e', h3, h4⟩ := hf a h2 r' h1
  exact ⟨c, r'', by rw [run_bind, e]; exact e', h3, h4⟩

theorem Runs.ite {q : α → Prop} {c : Prop} [Decidable c] {x y : M α} (hx : c → Runs p q x) (hy : ¬ c → Runs p q y) :
    Runs p q (if c then x else y) := by
  split
  · exact hx ‹_›
  · exact hy ‹_›

theorem Runs.foldlM (q : β → Prop) (f : β → α → M β) (l : List α) (h : ∀ a ∈ l, ∀ c, q c → Runs p q (f c a)) (c : β) (hc : q c) :
    Runs p q (l.foldlM f c) := by
  induction l generalizing c with
  | nil => exact Runs.pure hc
  | cons a l ih =>
    rw [List.foldlM_cons]
    exact Runs.bind (h a (by simp) c hc) (fun c' hc' => ih (fun x hx => h x (by simp [hx])) c' hc')

theorem Runs.forM (f : α → M Unit) (l : List α) (h : ∀ a ∈ l, Runs p (fun _ => True) (f a)) : Runs p (fun _ => True) (l.forM f) := by
  induction l with
  | nil => exact Runs.pure trivial
  | cons a l ih =>
    change Runs p _ (f a >>= fun _ => l.forM f)
    exact Runs.bind (h a (by simp)) (fun _ _ => ih (fun x hx => h x (by simp [hx])))

theorem Runs.mapM (q : α → β → Prop) (f : α → M β) (l : List α) (h : ∀ a ∈ l, Runs p (q a) (f a)) :
    Runs p (fun bs => List.Forall₂ q l bs) (l.mapM f) := by
  induction l with
  | nil => exact Runs.pure .nil
  | cons a l ih =>
    rw [List.mapM_cons]
    exact Runs.bind (h a (by simp)) (fun b hb => Runs.bind (ih (fun x hx => h x (by simp [hx]))) (fun bs hbs => Runs.pure (.cons hb hbs)))

theorem Runs.mapM_any (f : α → M β) (l : List α) (h : ∀ a ∈ l, Runs p (fun _ => True) (f a)) : Runs p (fun _ => True) (l.mapM f) :=
  (Runs.mapM (fun _ _ => True) f l h).any

/-- Pieces read one after another. -/
theorem Runs.collect {P : Prop} (g : α → M (List Byte)) (v : α → List Byte) (l : List α) (h : ∀ a ∈ l, Runs p (fun bs => P → bs = v a) (g a))
    (acc : List Byte) (pre : List Byte) (ha : P → acc = pre) :
    Runs p (fun bs => P → bs = pre ++ l.flatMap v) (l.foldlM (fun acc a => do let bs ← g a; return acc ++ bs) acc) := by
  induction l generalizing acc pre with
  | nil => exact Runs.pure (fun hp => by simp [ha hp])
  | cons a l ih =>
    rw [List.foldlM_cons]
    refine Runs.bind (q := fun bs => P → bs = pre ++ v a) ?_ (fun c hc => ?_)
    · exact Runs.bind (h a (by simp)) (fun bs hbs => Runs.pure (fun hp => by rw [ha hp, hbs hp]))
    · refine (ih (fun x hx => h x (by simp [hx])) c _ hc).weak (fun bs hbs hp => ?_)
      rw [hbs hp]; simp

theorem Runs.require {b : Bool} (h : b = true) : Runs p (fun _ => True) (require b) := by
  subst h; exact Runs.pure trivial

theorem Runs.get : Runs p p (get : M Run) := fun r h => ⟨r, r, rfl, h, h⟩
theorem Runs.modify {f : Run → Run} (h : ∀ r, p r → p (f r)) : Runs p (fun _ => True) (modify f : M Unit) := fun r hr => ⟨(), f r, rfl, h r hr, trivial⟩

/-- A property that an action keeps may be strengthened or weakened around it. -/
theorem Runs.change {p' : Run → Prop} {q : α → Prop} {x : M α} (h : Runs p' q x) (r : Run) (hr : p' r) :
    ∃ a r', x.run.run r = (.ok a, r') ∧ p' r' ∧ q a := h r hr

end

/-! ### Pieces of a range -/

theorem chunksAux_map {β : Type} (f : Nat → β) (k pa n : Nat) (h : n ≤ 64 * (k - 1) + (64 - pa % 64)) (hk : 0 < k) :
    (chunksAux k pa n).flatMap (fun c => (List.range c.2).map (fun i => f (c.1 + i))) = (List.range n).map (fun i => f (pa + i)) := by
  induction k generalizing pa n with
  | zero => omega
  | succ k ih =>
    unfold chunksAux
    split
    · rename_i h0; subst h0; rfl
    · simp only
      split
      · simp
      · rename_i h0 h1
        have hm : n = (64 - pa % 64) + (n - (64 - pa % 64)) := by omega
        rw [List.flatMap_cons, ih (pa + (64 - pa % 64)) _ (by omega) (by omega)]
        conv_rhs => rw [hm, List.range_add, List.map_append, List.map_map]
        congr 1
        refine List.map_congr_left (fun i _ => ?_)
        simp [Nat.add_assoc]

theorem pagesAux_map {β : Type} (f : Nat → β) (k va n : Nat) (h : n ≤ 65536 * (k - 1) + (65536 - va % 65536)) (hk : 0 < k) :
    (pagesAux k va n).flatMap (fun c => (List.range c.2).map (fun i => f (c.1 + i))) = (List.range n).map (fun i => f (va + i)) := by
  induction k generalizing va n with
  | zero => omega
  | succ k ih =>
    unfold pagesAux
    split
    · rename_i h0; subst h0; rfl
    · simp only
      split
      · simp
      · rename_i h0 h1
        have hm : n = (65536 - va % 65536) + (n - (65536 - va % 65536)) := by omega
        rw [List.flatMap_cons, ih (va + (65536 - va % 65536)) _ (by omega) (by omega)]
        conv_rhs => rw [hm, List.range_add, List.map_append, List.map_map]
        congr 1
        refine List.map_congr_left (fun i _ => ?_)
        simp [Nat.add_assoc]

theorem chunks_map {β : Type} (f : Nat → β) (pa n : Nat) :
    (chunks pa n).flatMap (fun c => (List.range c.2).map (fun i => f (c.1 + i))) = (List.range n).map (fun i => f (pa + i)) :=
  chunksAux_map f _ pa n (by omega) (by omega)

theorem pageChunks_map {β : Type} (f : Nat → β) (va n : Nat) :
    (pageChunks va n).flatMap (fun c => (List.range c.2).map (fun i => f (c.1 + i))) = (List.range n).map (fun i => f (va + i)) :=
  pagesAux_map f _ va n (by omega) (by omega)

theorem mem_chunksAux {k pa n : Nat} {c : Nat × Nat} (h : c ∈ chunksAux k pa n) :
    pa ≤ c.1 ∧ c.1 + c.2 ≤ pa + n ∧ c.1 % 64 + c.2 ≤ 64 ∧ 0 < c.2 := by
  induction k generalizing pa n with
  | zero => simp [chunksAux] at h
  | succ k ih =>
    unfold chunksAux at h
    split at h
    · simp at h
    · simp only at h
      split at h
      · simp only [List.mem_singleton] at h
        subst h
        simp only
        omega
      · rcases List.mem_cons.1 h with rfl | h
        · simp only
          omega
        · have := ih h
          omega

theorem mem_chunks {pa n : Nat} {c : Nat × Nat} (h : c ∈ chunks pa n) :
    pa ≤ c.1 ∧ c.1 + c.2 ≤ pa + n ∧ c.1 % 64 + c.2 ≤ 64 ∧ 0 < c.2 := mem_chunksAux h

theorem mem_pagesAux {k va n : Nat} {c : Nat × Nat} (h : c ∈ pagesAux k va n) :
    va ≤ c.1 ∧ c.1 + c.2 ≤ va + n ∧ c.1 % 65536 + c.2 ≤ 65536 ∧ 0 < c.2 := by
  induction k generalizing va n with
  | zero => simp [pagesAux] at h
  | succ k ih =>
    unfold pagesAux at h
    split at h
    · simp at h
    · simp only at h
      split at h
      · simp only [List.mem_singleton] at h
        subst h
        simp only
        omega
      · rcases List.mem_cons.1 h with rfl | h
        · simp only
          omega
        · have := ih h
          omega

theorem mem_pageChunks {va n : Nat} {c : Nat × Nat} (h : c ∈ pageChunks va n) :
    va ≤ c.1 ∧ c.1 + c.2 ≤ va + n ∧ c.1 % 65536 + c.2 ≤ 65536 ∧ 0 < c.2 := mem_pagesAux h

/-- A part of a range at hand. -/
theorem Dev.Near.part {b : Dev} {w : Who} {va n a m : Nat} (h : b.Near w va n) (h1 : va ≤ a) (h2 : a + m ≤ va + n) : b.Near w a m :=
  fun p hp hq => h p (by omega) (by omega)

theorem Dev.Near.page {b : Dev} {w : Who} {va n a : Nat} (h : b.Near w va n) (h1 : va ≤ a) (h2 : a < va + n) : ∃ f, b.NearPage w (a / 65536) f :=
  h _ (by omega) (by omega)

/-- A line within a page at hand. -/
theorem Dev.Near.line {b : Dev} {w : Who} {va n a : Nat} (h : b.Near w va n) (h1 : va ≤ a) (h2 : a < va + n) : b.Near w (a / 64 * 64) 64 :=
  fun p hp hq => by
    have : p = a / 65536 := by omega
    subst this
    exact h.page h1 h2

/-! ### What a running command keeps -/

/-- The machine agrees with the one at issue; with `fixed`, memory is as it was. -/
structure Agrees (w : Who) (b : Dev) (fixed : Bool) (d : Dev) : Prop where
  same   : Same w b d
  mem    : fixed = true → d.mem = b.mem
  poison : fixed = true → d.poison = b.poison

structure Keeps (w : Who) (b : Dev) (fixed : Bool) (r : Run) : Prop where
  dev  : Agrees w b fixed r.dev
  memo : fixed = true → ∀ line bs, KV.find? r.memo line = some bs → bs = b.vbytes (line * 64) 64
  buf  : ∀ l ∈ r.wbuf, b.Near w (l.va * 64) 64 ∧ l.data.length = 64

section
variable {w : Who} {b : Dev} {fx : Bool}

theorem Agrees.step {d e : Dev} (h : Agrees w b fx d) (s : Same w d e) (m : e.mem = d.mem) (p : e.poison = d.poison) : Agrees w b fx e :=
  ⟨h.same.trans s, fun f => m.trans (h.mem f), fun f => p.trans (h.poison f)⟩

theorem Agrees.loose {d : Dev} (h : Agrees w b fx d) : Agrees w b false d := ⟨h.same, fun e => by simp at e, fun e => by simp at e⟩

theorem Agrees.count {d : Dev} (h : Agrees w b fx d) (p sel n : Nat) : Agrees w b fx (d.count p sel n) :=
  h.step (Same.count ..) (by simp) (by simp)
theorem Agrees.raise {d : Dev} (h : Agrees w b fx d) (p c q a : Nat) : Agrees w b fx (d.raise p c q a) :=
  h.step (Same.raise ..) (by simp) (by simp)
theorem Agrees.takeFree {d : Dev} (h : Agrees w b fx d) : Agrees w b fx d.takeFree.1 := h.step (Same.free ..) rfl rfl
theorem Agrees.modCtx {d : Dev} (h : Agrees w b fx d) (c x : Nat) (f : Ctx → Ctx) (hf : ∀ t, (f t).standing = t.standing) :
    Agrees w b fx (d.modCtx c x f) := by
  refine h.step (Same.modCtx w d c x f hf) (by simp) ?_
  obtain ⟨k, e⟩ := d.modCtx_eq c x f
  rw [e]
theorem Agrees.setBuf {d : Dev} (h : Agrees w b fx d) (c i : Nat) (x : ArrayBuf) : Agrees w b fx (d.setBuf c i x) :=
  h.step (Same.setBuf ..) rfl rfl

theorem Keeps.loose {r : Run} (h : Keeps w b fx r) : Keeps w b false r := ⟨h.dev.loose, fun e => by simp at e, h.buf⟩

theorem Keeps.withDev {r : Run} (h : Keeps w b fx r) {d : Dev} (g : Agrees w b fx d) : Keeps w b fx { r with dev := d } := ⟨g, h.memo, h.buf⟩

theorem runs_getDev : Runs (Keeps w b fx) (Agrees w b fx) getDev := fun r h => ⟨r.dev, r, rfl, h, h.dev⟩
theorem runs_setDev {d : Dev} (h : Agrees w b fx d) : Runs (Keeps w b fx) (fun _ => True) (setDev d) :=
  fun r hr => ⟨(), { r with dev := d }, rfl, hr.withDev h, trivial⟩
theorem runs_modDev {f : Dev → Dev} (h : ∀ d, Agrees w b fx d → Agrees w b fx (f d)) : Runs (Keeps w b fx) (fun _ => True) (modDev f) :=
  fun r hr => ⟨(), { r with dev := f r.dev }, rfl, hr.withDev (h _ hr.dev), trivial⟩
/-- A change of what the command collects beside the machine. -/
theorem runs_modify {f : Run → Run} (h : ∀ r, (f r).dev = r.dev ∧ (f r).memo = r.memo ∧ (f r).wbuf = r.wbuf) :
    Runs (Keeps w b fx) (fun _ => True) (modify f : M Unit) := fun r hr => by
  obtain ⟨h1, h2, h3⟩ := h r
  exact ⟨(), f r, rfl, ⟨by rw [h1]; exact hr.dev, by rw [h2]; exact hr.memo, by rw [h3]; exact hr.buf⟩, trivial⟩

theorem runs_raiseCarried (p c q a : Nat) : Runs (Keeps w b fx) (fun _ => True) (raiseCarried p c q a) :=
  Runs.modify (fun _ h => ⟨h.dev.raise p c q a, h.memo, h.buf⟩)

/-! ### Reads -/

variable (q : b.Plain w)
include q

theorem runs_reach {pa : Nat} (h1 : nearBase w.core ≤ pa) (h2 : pa < nearBase w.core + 0x4000000) :
    Runs (Keeps w b fx) (fun _ => True) (reach w pa) := by
  unfold reach
  refine Runs.bind runs_getDev (fun d hd => ?_)
  simp only [q.direct, hd.same.nearReach q h1 h2]
  exact Runs.pure trivial

theorem runs_xlat {va : Nat} {f : Nat} (n : b.NearPage w (va / 65536) f) (wr : Bool) :
    Runs (Keeps w b fx) (fun pa => pa = f * 65536 + va % 65536) (xlat w va wr) := by
  unfold xlat
  refine Runs.ite (fun h => by rw [q.direct] at h; cases h) (fun _ => ?_)
  refine Runs.bind runs_getDev (fun d hd => ?_)
  simp only [hd.same.translate n rfl]
  exact Runs.bind (runs_setDev hd) (fun _ _ => Runs.pure rfl)

theorem runs_loadAt {pa n : Nat} (h1 : nearBase w.core ≤ pa) (h2 : pa < nearBase w.core + 0x4000000) :
    Runs (Keeps w b fx) (fun bs => fx = true → bs = b.bytes pa n) (loadAt pa n) := by
  unfold loadAt
  refine Runs.bind runs_getDev (fun d hd => ?_)
  simp only [hd.same.loadLine q h1 h2]
  refine Runs.bind (runs_setDev hd) (fun _ _ => Runs.pure (fun f => ?_))
  rw [hd.same.value q n h1 h2]
  simp only [Dev.bytes, hd.same.byte (hd.mem f)]

theorem runs_readLine {va pa n : Nat} (h1 : nearBase w.core ≤ pa) (h2 : pa < nearBase w.core + 0x4000000) :
    Runs (Keeps w b fx) (fun bs => fx = true → bs = b.bytes pa n) (readLine w va pa n) := by
  unfold readLine
  refine Runs.bind (runs_reach q h1 h2) (fun _ _ => ?_)
  refine Runs.bind runs_getDev (fun d hd => ?_)
  have hs := hd.same.nearSpace q h1 h2
  have ho := hd.same.specOf q.actual
  simp only [hs, Bool.false_eq_true, if_false]
  unfold noteDemand
  refine Runs.bind (runs_modDev (fun e he => he.modCtx _ _ _ (fun _ => rfl))) (fun _ _ => ?_)
  have hsh : d.shadowOf w pa = none := by simp [Dev.shadowOf, ho]
  simp only [hsh]
  refine Runs.bind (runs_loadAt q h1 h2) (fun bs hbs => ?_)
  refine Runs.pure (fun f => ?_)
  simp only [Dev.overlay, ho]
  exact hbs f

/-- Bytes of pages at hand are read as the page table maps them. -/
theorem runs_vread {va n : Nat} (h : b.Near w va n) : Runs (Keeps w b fx) (fun bs => fx = true → bs = b.vbytes va n) (vread w va n) := by
  unfold vread
  have key : ∀ (l : List (Nat × Nat)) (acc pre : List Byte), (∀ c ∈ l, c ∈ pageChunks va n) → (fx = true → acc = pre) →
      Runs (Keeps w b fx) (fun bs => fx = true → bs = pre ++ l.flatMap (fun c => b.vbytes c.1 c.2))
        (l.foldlM (fun (acc : List Byte) (pc : Nat × Nat) => do
          let pa ← xlat w pc.1 false
          (chunks pa pc.2).foldlM (fun (acc : List Byte) (ch : Nat × Nat) => do
            let bs ← readLine w (pc.1 + (ch.1 - pa)) ch.1 ch.2
            return acc ++ bs) acc) acc) := by
    intro l
    induction l with
    | nil => intro acc pre _ ha; exact Runs.pure (fun f => by simp [ha f])
    | cons c l ih =>
      intro acc pre hl ha
      rw [List.foldlM_cons]
      have hc := mem_pageChunks (hl c (by simp))
      obtain ⟨f, nf⟩ := h.page hc.1 (by omega)
      refine Runs.bind (q := fun bs => fx = true → bs = pre ++ b.vbytes c.1 c.2) ?_ (fun bs hbs => ?_)
      · refine Runs.bind (runs_xlat q nf false) (fun pa hpa => ?_)
        subst hpa
        have := nf.low
        have := nf.high
        refine (Runs.collect (P := fx = true) _ (fun ch => b.bytes ch.1 ch.2) _ (fun ch hch => ?_) acc pre ha).weak (fun bs hbs e => ?_)
        · have hm := mem_chunks hch
          exact runs_readLine q (by omega) (by omega)
        · rw [hbs e]
          congr 1
          unfold Dev.bytes
          rw [chunks_map (fun a => b.byte a)]
          unfold Dev.vbytes
          refine List.map_congr_left (fun i hi => ?_)
          have hi := List.mem_range.1 hi
          have hp := (Same.refl w b).nearPhys nf (va := c.1 + i) (by omega)
          change b.byte _ = b.vbyte _
          unfold Dev.vbyte
          rw [hp]
          exact congrArg b.byte (by omega)
      · refine (ih bs (pre ++ b.vbytes c.1 c.2) (fun x hx => hl x (by simp [hx])) hbs).weak (fun cs hcs e => ?_)
        rw [hcs e]; simp
  refine (key _ [] [] (fun _ hc => hc) (fun _ => rfl)).weak (fun bs hbs e => ?_)
  rw [hbs e, List.nil_append]
  exact pageChunks_map (fun a => b.vbyte a) va n

theorem runs_lineOf {line : Nat} (h : b.Near w (line * 64) 64) :
    Runs (Keeps w b fx) (fun bs => fx = true → bs = b.vbytes (line * 64) 64) (lineOf w line) := by
  unfold lineOf
  refine Runs.bind Runs.get (fun r hr => ?_)
  cases hf : KV.find? r.memo line with
  | some bs => exact Runs.pure (fun e => hr.memo e line bs hf)
  | none =>
    refine Runs.bind (runs_vread q h) (fun bs hbs => ?_)
    refine Runs.bind (Runs.modify (fun r hr => ⟨hr.dev, fun e l c hc => ?_, hr.buf⟩)) (fun _ _ => Runs.pure hbs)
    by_cases hl : l = line
    · subst hl
      rw [KV.find?_set_self] at hc
      rw [← Option.some.inj hc]
      exact hbs e
    · rw [KV.find?_set_ne _ _ hl] at hc
      exact hr.memo e l c hc

omit q in
theorem map_drop_take {β : Type} (g : Nat → β) {va n o m : Nat} (h : o + m ≤ n) :
    (((List.range n).map (fun i => g (va + i))).drop o).take m = (List.range m).map (fun i => g (va + o + i)) := by
  refine List.ext_getElem (by simp; omega) (fun i h1 h2 => ?_)
  simp [Nat.add_assoc]

omit q in
theorem vbytes_drop_take {va n o m : Nat} (h : o + m ≤ n) : ((b.vbytes va n).drop o).take m = b.vbytes (va + o) m :=
  map_drop_take b.vbyte h

theorem runs_oread {va n : Nat} (h : b.Near w va n) : Runs (Keeps w b fx) (fun bs => fx = true → bs = b.vbytes va n) (oread w va n) := by
  unfold oread
  have := Runs.collect (p := Keeps w b fx) (P := fx = true) (fun ch => do
      let bs ← lineOf w (ch.1 / 64)
      return (bs.drop (ch.1 % 64)).take ch.2) (fun ch => b.vbytes ch.1 ch.2) (chunks va n) (fun ch hch => ?_) [] [] (fun _ => rfl)
  · simp only [bind_assoc, pure_bind] at this
    refine this.weak (fun bs hbs e => ?_)
    rw [hbs e, List.nil_append]
    exact chunks_map (fun a => b.vbyte a) va n
  · have hc := mem_chunks hch
    refine Runs.bind (runs_lineOf q (h.line hc.1 (by omega))) (fun bs hbs => Runs.pure (fun e => ?_))
    rw [hbs e, vbytes_drop_take (by omega)]
    exact congrArg (fun a => b.vbytes a ch.2) (by omega)

theorem runs_oreadNat {va n : Nat} (h : b.Near w va n) : Runs (Keeps w b fx) (fun v => fx = true → v = leNat (b.vbytes va n)) (oreadNat w va n) := by
  unfold oreadNat
  exact Runs.bind (runs_oread q h) (fun bs hbs => Runs.pure (fun e => by rw [hbs e]))

theorem runs_oreadBits {va bit n : Nat} (h : b.Near w (va + bit / 8) ((bit % 8 + n + 7) / 8)) :
    Runs (Keeps w b fx) (fun _ => True) (oreadBits w va bit n) := by
  unfold oreadBits
  exact Runs.bind (runs_oreadNat q h) (fun _ _ => Runs.pure trivial)

theorem runs_owords {va n : Nat} (h : b.Near w va (8 * n)) : Runs (Keeps w b fx) (fun ws => fx = true → ws = b.vwords va n) (owords w va n) := by
  unfold owords
  exact Runs.bind (runs_oread q h) (fun bs hbs => Runs.pure (fun e => by rw [hbs e]; rfl))

omit q in
theorem runs_takeFree {q' : W64 → Prop} (h : ∀ v, q' v) : Runs (Keeps w b fx) q' (do let f := (← getDev).takeFree; setDev f.1; return f.2) :=
  Runs.bind runs_getDev (fun _ hd => Runs.bind (runs_setDev hd.takeFree) (fun _ _ => Runs.pure (h _)))

/-! ### Writes -/

omit q in
theorem wbufPut_mem {l : List WLine} {line off : Nat} {v : Byte} {x : WLine} (h : x ∈ wbufPut l line off v) :
    (∃ y ∈ l, y.va = x.va ∧ x.data.length = y.data.length) ∨ (x.va = line ∧ x.data.length = 64) := by
  unfold wbufPut at h
  split at h
  · obtain ⟨y, hy, rfl⟩ := List.mem_map.1 h
    refine .inl ⟨y, hy, ?_⟩
    split <;> simp
  · rcases List.mem_append.1 h with h | h
    · exact .inl ⟨x, h, rfl, rfl⟩
    · rw [List.mem_singleton] at h
      subst h
      exact .inr ⟨rfl, by simp [emptyLine]⟩

omit q in
theorem runs_vputByte {va : Nat} {v : Byte} (h : ∃ f, b.NearPage w (va / 65536) f) : Runs (Keeps w b fx) (fun _ => True) (vputByte va v) := by
  refine Runs.modify (fun r hr => ⟨hr.dev, hr.memo, fun x hx => ?_⟩)
  rcases wbufPut_mem hx with ⟨y, hy, e, el⟩ | ⟨e, el⟩
  · have := hr.buf y hy
    rw [← e, el]; exact this
  · refine ⟨fun p hp hq => ?_, el⟩
    rw [e] at hp hq
    have : p = va / 65536 := by omega
    subst this
    exact h

omit q in
theorem runs_vput {va : Nat} {bs : List Byte} (h : b.Near w va bs.length) : Runs (Keeps w b fx) (fun _ => True) (vput va bs) := by
  induction bs generalizing va with
  | nil => exact Runs.pure trivial
  | cons v bs ih =>
    have hl : (v :: bs).length = bs.length + 1 := rfl
    rw [hl] at h
    unfold vput
    exact Runs.bind (runs_vputByte (h.page (Nat.le_refl _) (by omega))) (fun _ _ => ih (h.part (by omega) (by omega)))

theorem runs_vpeek {va : Nat} : Runs (Keeps w b fx) (fun _ => True) (vpeek w va) := by
  unfold vpeek
  refine Runs.bind Runs.get (fun r hr => ?_)
  split
  · exact Runs.pure trivial
  · rw [q.here, if_neg (by decide)]
    cases r.dev.walk va with
    | ok l => exact Runs.pure trivial
    | error e => exact Runs.pure trivial

omit q in
theorem leBytes_length (n v : Nat) : (leBytes n v).length = n := by
  induction n generalizing v with
  | zero => rfl
  | succ n ih => simp [leBytes, ih]

theorem runs_vputBits {va bit n v : Nat} (h : b.Near w (va + bit / 8) ((bit % 8 + n + 7) / 8)) :
    Runs (Keeps w b fx) (fun _ => True) (vputBits w va bit n v) := by
  unfold vputBits
  refine Runs.ite (fun e => runs_vput ?_) (fun _ => Runs.forM _ _ (fun i hi => ?_))
  · rw [leBytes_length]
    exact h.part (Nat.le_refl _) (by omega)
  · have hi := List.mem_range.1 hi
    refine Runs.bind (runs_vpeek q) (fun old _ => runs_vputByte (h.page (by omega) (by omega)))

/-- A buffered line leaves for its page. -/
theorem runs_writeOut {l : WLine} (h : b.Near w (l.va * 64) 64) (hl : l.data.length = 64) :
    Runs (Keeps w b false) (fun _ => True) (writeOut w l) := by
  unfold writeOut
  obtain ⟨f, nf⟩ := h.page (Nat.le_refl _) (by omega)
  refine Runs.bind (runs_xlat q nf true) (fun pa hpa => ?_)
  have h1 := nf.low
  have h2 := nf.high
  have hm : l.va * 64 % 65536 ≤ 65472 := by omega
  have h3 : nearBase w.core ≤ pa := by omega
  have h4 : pa + 64 ≤ nearBase w.core + 0x4000000 := by omega
  unfold writeAt
  refine Runs.bind (runs_reach q h3 (by omega)) (fun _ _ => ?_)
  refine Runs.bind runs_getDev (fun d hd => ?_)
  have hs := hd.same.nearSpace q h3 (by omega)
  have ho := hd.same.specOf q.actual
  have hk : d.keepSecure pa l.data = l.data := by unfold Dev.keepSecure; rw [hs]
  have hr : d.waitsRoom w = false := by simp [Dev.waitsRoom, ho]
  simp only [hs, hk, ite_self, hr, ho]
  refine runs_setDev ⟨hd.same.trans (Same.trans ?_ (Same.dropCopies ..)), fun e => by simp at e, fun e => by simp at e⟩
  exact hd.same.storeLine q _ _ h3 (by rw [hl]; exact h4) (by omega)

/-- The command's writes leave the core. -/
theorem runs_flushWrites {r : Run} (h : Keeps w b fx r) : ∃ r', (flushWrites w).run.run r = (.ok (), r') ∧ Keeps w b false r' := by
  have hk : Keeps w b false { r with wbuf := [] } := ⟨h.dev.loose, fun e => by simp at e, by simp⟩
  obtain ⟨a, r', e, h1, _⟩ := Runs.forM (p := Keeps w b false) (writeOut w) r.wbuf
    (fun l hl => runs_writeOut q (h.buf l hl).1 (h.buf l hl).2) { r with wbuf := [] } hk
  refine ⟨r', ?_, h1⟩
  unfold flushWrites
  simp only [run_bind, run_get, run_modify]
  exact e

end

end Sys2Proof.Machine
end

