-- ==== Sys2Proof/Laws/Tensors.lean ====
section
/-! SUPPORT. Tensors at hand: their descriptors are read and accepted, and their elements read and written, from any machine that
agrees with the one at issue. -/

namespace Sys2Proof.Machine

/-! ### Positions -/

/-- The positions of a box. -/
theorem mem_positions {l : List (Int × Nat)} {p : List Int} :
    p ∈ positions l ↔ List.Forall₂ (fun x i => x.1 ≤ i ∧ i < x.1 + (x.2 : Int)) l p := by
  induction l generalizing p with
  | nil =>
    rw [List.forall₂_nil_left_iff]
    simp [positions]
  | cons x l ih =>
    simp only [positions, List.mem_flatMap, List.mem_map, List.mem_range]
    constructor
    · rintro ⟨r, hr, i, hi, rfl⟩
      exact .cons ⟨by omega, by omega⟩ (ih.1 hr)
    · intro h
      cases h with
      | cons h1 h2 =>
        rename_i a r
        exact ⟨r, ih.2 h2, (a - x.1).toNat, by omega, by congr 1; omega⟩

theorem mem_padded {t : Tensor} {p : List Int} :
    p ∈ t.paddedPositions ↔ List.Forall₂ (fun d i => -(d.padLo : Int) ≤ i ∧ i < ((d.l + d.padHi : Nat) : Int)) t.dims p := by
  unfold Tensor.paddedPositions
  rw [mem_positions, List.forall₂_map_left_iff]
  have : (fun (d : Dim) (i : Int) => (-(d.padLo : Int), d.e).1 ≤ i ∧ i < (-(d.padLo : Int), d.e).1 + ((-(d.padLo : Int), d.e).2 : Int))
      = (fun (d : Dim) (i : Int) => -(d.padLo : Int) ≤ i ∧ i < ((d.l + d.padHi : Nat) : Int)) := by
    funext d i
    simp only [Dim.e, eq_iff_iff]
    constructor <;> rintro ⟨h1, h2⟩ <;> exact ⟨h1, by push_cast at *; omega⟩
  rw [this]

theorem mem_valid {t : Tensor} {p : List Int} :
    p ∈ t.validPositions ↔ List.Forall₂ (fun d i => 0 ≤ i ∧ i < (d.v : Int)) t.dims p := by
  unfold Tensor.validPositions
  rw [mem_positions, List.forall₂_map_left_iff]
  simp

theorem Dim.v_le (d : Dim) : d.v ≤ d.l := Nat.min_le_left _ _

theorem valid_padded {t : Tensor} {p : List Int} (h : p ∈ t.validPositions) : p ∈ t.paddedPositions := by
  rw [mem_valid] at h
  rw [mem_padded]
  exact h.imp (fun d i hi => by have := d.v_le; constructor <;> push_cast <;> omega)

/-- A position that is not outside has its place in the padded extent. -/
theorem padded_of_class {t : Tensor} {p : List Int} (hl : p.length = t.dims.length) (h : t.classOf p ≠ .outside) : p ∈ t.paddedPositions := by
  rw [mem_padded, List.forall₂_iff_zip]
  refine ⟨hl.symm, fun {d i} hm => ?_⟩
  by_contra hc
  apply h
  unfold Tensor.classOf
  have : (t.dims.zip p).any (fun x => x.2 < -(x.1.padLo : Int) || x.2 ≥ (x.1.l + x.1.padHi : Nat)) = true := by
    rw [List.any_eq_true]
    refine ⟨(d, i), hm, ?_⟩
    simp only [Bool.or_eq_true, decide_eq_true_eq, ge_iff_le]
    omega
  dsimp only
  rw [this, if_pos rfl]

/-- The coordinates that REPLICATE and REFLECT name lie within the padded extent. -/
theorem mirror_padded {t : Tensor} {p : List Int} (hp : p ∈ t.paddedPositions) (ok : t.padsOk = true)
    (hm : t.padMode = 2 ∨ t.padMode = 3) (hr : t.layout.ready = false) :
    (t.dims.zip p).map (fun x => if x.1.gOf x.2 < 0 || x.1.gOf x.2 ≥ x.1.g then x.1.mirror t.padMode x.2 else x.2) ∈ t.paddedPositions := by
  rw [mem_padded] at hp ⊢
  rw [List.forall₂_map_right_iff]
  unfold Tensor.padsOk at ok
  have hmode : (!(t.padMode == 2 || t.padMode == 3) || t.layout.ready) = false := by rcases hm with h | h <;> simp [h, hr]
  rw [hmode, Bool.false_or, Bool.and_eq_true] at ok
  have ok2 := List.all_eq_true.1 ok.2
  have key : ∀ d ∈ t.dims, ∀ i : Int, -(d.padLo : Int) ≤ i → i < ((d.l + d.padHi : Nat) : Int) →
      -(d.padLo : Int) ≤ (if d.gOf i < 0 || d.gOf i ≥ d.g then d.mirror t.padMode i else i) ∧
        (if d.gOf i < 0 || d.gOf i ≥ d.g then d.mirror t.padMode i else i) < ((d.l + d.padHi : Nat) : Int) := by
    intro d hd i h1 h2
    split
    · rename_i hg
      have : i ∈ d.padIdx := by
        unfold Dim.padIdx
        rw [List.mem_filter]
        refine ⟨List.mem_map.2 ⟨(i + d.padLo).toNat, ?_, by omega⟩, hg⟩
        rw [List.mem_range]; unfold Dim.e; omega
      have := List.all_eq_true.1 (ok2 d hd) i this
      simp only [Bool.and_eq_true, decide_eq_true_eq] at this
      have hv := d.v_le
      constructor <;> push_cast <;> omega
    · exact ⟨h1, h2⟩
  clear ok ok2 hmode
  generalize t.dims = ds at *
  induction hp with
  | nil => exact .nil
  | cons h1 h2 ih =>
    rename_i d i l1 l2
    exact .cons (key d (by simp) i h1.1 h1.2) (ih (fun d hd => key d (by simp [hd])))

/-! ### Descriptors -/

section
variable {w : Who} {b d : Dev}

theorem Agrees.descHead (h : Agrees w b true d) (role : Role) (ws : List W64) : descHead d role ws = descHead b role ws := by
  have hm : d.meshOf ((wd ws 4).field 3 0) = b.meshOf ((wd ws 4).field 3 0) := by
    refine h.same.meshOf _ ?_
    unfold W64.field
    omega
  unfold Machine.descHead
  simp only [hm]

theorem Agrees.namesKept (h : Agrees w b true d) (va n : Nat) (t : Bool) : d.namesKept va n t = b.namesKept va n t := h.same.namesKept (h.mem rfl) va n t
theorem Agrees.pagesIn (h : Agrees w b true d) (va n : Nat) (p : Space → Bool) : d.pagesIn va n p = b.pagesIn va n p := h.same.pagesIn (h.mem rfl) va n p
theorem Agrees.roundingOk (h : Agrees w b true d) (rnd n : Nat) (c : Bool) : d.roundingOk w rnd n c = b.roundingOk w rnd n c := by
  unfold Dev.roundingOk; rw [h.same.claimedKey]
theorem Agrees.accepted (h : Agrees w b true d) (t : Tensor) (role : Role) : t.accepted d role = t.accepted b role := by
  unfold Tensor.accepted Tensor.placeOk
  simp only [h.namesKept, h.pagesIn]
theorem Agrees.inOwnStore (h : Agrees w b true d) (t : Tensor) : t.inOwnStore d w = t.inOwnStore b w := by
  unfold Tensor.inOwnStore; rw [h.pagesIn]

end

section
variable {w : Who} {b : Dev} {fx : Bool} (q : b.Plain w)
include q

/-- A tensor whose descriptor is at hand is read and accepted. -/
theorem runs_tensor {va : Nat} {role : Role} {t : Tensor} (h : b.tensorAt va role = some t) (n : b.Near w va 256) :
    Runs (Keeps w b true) (fun x => x = t) (tensor w va role) := by
  unfold Dev.tensorAt Dev.tensorOf at h
  split at h
  · rename_i hc
    obtain ⟨h1, h2, h3⟩ := hc
    unfold tensor
    refine Runs.bind (Runs.require (by simp [h1])) (fun _ _ => ?_)
    unfold nameRange
    rw [bind_assoc]
    refine Runs.bind runs_getDev (fun d hd => ?_)
    refine Runs.bind (Runs.require (by rw [hd.namesKept, h2]; rfl)) (fun _ _ => ?_)
    refine Runs.bind (runs_owords q n) (fun ws' hws => ?_)
    rw [hws rfl]
    refine Runs.bind runs_getDev (fun d hd => ?_)
    rw [hd.descHead]
    cases hh : descHead b role (b.vwords va 32) with
    | none => simp only [hh] at h; cases h
    | some x =>
      obtain ⟨layout, dims⟩ := x
      simp only [hh] at h
      simp only [h3, if_true]
      refine Runs.bind (q := fun s => s = none) (Runs.pure rfl) (fun s hs => ?_)
      subst hs
      refine Runs.bind runs_getDev (fun d hd => ?_)
      split at h
      · rename_i ha
        refine Runs.bind (Runs.require (by rw [hd.accepted]; exact ha)) (fun _ _ => Runs.pure (Option.some.inj h))
      · cases h
  · cases h

omit q in
/-- A tensor that the machine accepts was checked. -/
theorem tensorAt_accepted {va : Nat} {role : Role} {t : Tensor} (h : b.tensorAt va role = some t) : t.accepted b role = true := by
  unfold Dev.tensorAt Dev.tensorOf at h
  split at h
  · split at h
    · cases h
    · dsimp only at h
      split at h
      · rw [← Option.some.inj h]; assumption
      · cases h
  · cases h

/-! ### Elements -/

omit q in
theorem fmtAt_plain {t : Tensor} (hs : t.steer = none) (p : List Int) : t.fmtAt w p = pure (t.fmt, 127) := by
  unfold Tensor.fmtAt; rw [hs]

omit q in
theorem codeWidth_of {c : Nat} {f : Fmt} (h : Fmt.ofCode c = some f) : Fmt.codeWidth c = f.bits := by simp [Fmt.codeWidth, h]

/-- A tensor at hand that its command has accepted. -/
structure Tensor.Ready (t : Tensor) (b : Dev) (w : Who) : Prop where
  hand : t.AtHand b w
  fmt  : (Fmt.ofCode t.fmt).isSome = true
  pads : t.padsOk = true

omit q in
theorem Tensor.AtHand.ready {t : Tensor} {role : Role} (h : t.AtHand b w) (a : t.accepted b role = true) : t.Ready b w := by
  unfold Tensor.accepted at a
  simp only [Bool.and_eq_true] at a
  refine ⟨h, ?_, a.1.2⟩
  have hk := a.1.1.1.1.1
  unfold Tensor.kindOk at hk
  simp only [h.1, h.2.1, Bool.and_eq_true] at hk
  simpa using hk.1.1.1.1

omit q in
theorem Tensor.Ready.bits {t : Tensor} (h : t.Ready b w) {p : List Int} (hp : p ∈ t.paddedPositions) :
    b.Near w ((t.place p (Fmt.codeWidth t.fmt)).1 + (t.place p (Fmt.codeWidth t.fmt)).2 / 8)
      (((t.place p (Fmt.codeWidth t.fmt)).2 % 8 + Fmt.codeWidth t.fmt + 7) / 8) :=
  h.hand.2.2 p hp (_, _) (by unfold Tensor.touches; exact List.mem_cons_self)

omit q in
theorem Tensor.Ready.scale {t : Tensor} (h : t.Ready b w) {p : List Int} (hp : p ∈ t.paddedPositions) (hs : t.scaleKind ≠ 0 ∧ t.classOf p = .valid) :
    b.Near w (t.scaleAddr p) (scaleBytes t.scaleKind) :=
  h.hand.2.2 p hp (_, _) (by unfold Tensor.touches; rw [if_pos hs]; exact List.mem_cons_of_mem _ (List.mem_singleton_self _))

theorem runs_scaleAt {t : Tensor} {p : List Int} (h : b.Near w (t.scaleAddr p) (scaleBytes t.scaleKind)) :
    Runs (Keeps w b fx) (fun _ => True) (t.scaleAt w p) := by
  unfold Tensor.scaleAt
  exact Runs.bind (runs_oreadNat q h) (fun _ _ => Runs.pure trivial)

theorem runs_stored {t : Tensor} (h : t.Ready b w) {p : List Int} (hp : p ∈ t.paddedPositions) :
    Runs (Keeps w b fx) (fun _ => True) (t.stored w p) := by
  unfold Tensor.stored
  rw [h.hand.1, if_neg (by decide), fmtAt_plain h.hand.2.1]
  refine Runs.bind (Runs.pure (q := fun x => x = (t.fmt, 127)) rfl) (fun fe hfe => ?_)
  subst hfe
  have hf := h.fmt
  cases e : Fmt.ofCode t.fmt with
  | none => rw [e] at hf; cases hf
  | some f =>
    have hb := h.bits hp
    rw [codeWidth_of e] at hb
    simp only
    refine Runs.bind (runs_oreadBits q hb) (fun _ _ => ?_)
    exact Runs.ite (fun hs => Runs.bind (runs_scaleAt q (h.scale hp hs)) (fun _ _ => Runs.pure trivial)) (fun _ => Runs.pure trivial)

theorem runs_storedBits {t : Tensor} (h : t.Ready b w) {p : List Int} (hp : p ∈ t.paddedPositions) :
    Runs (Keeps w b fx) (fun _ => True) (t.storedBits w p) := by
  unfold Tensor.storedBits
  rw [fmtAt_plain h.hand.2.1]
  refine Runs.bind (Runs.pure (q := fun x => x = (t.fmt, 127)) rfl) (fun fe hfe => ?_)
  subst hfe
  exact runs_oreadBits q (h.bits hp)

theorem runs_read {t : Tensor} (h : t.Ready b w) {p : List Int} (hp : p ∈ t.paddedPositions) :
    Runs (Keeps w b fx) (fun _ => True) (t.read w p) := by
  unfold Tensor.read
  refine Runs.ite (fun _ => ?_) (fun _ => Runs.bind (runs_stored q h hp) (fun _ _ => Runs.pure trivial))
  refine Runs.bind (runs_modDev (fun d hd => hd.count ..)) (fun _ _ => ?_)
  refine Runs.ite (fun hm => ?_) (fun _ => Runs.pure trivial)
  exact Runs.bind (runs_stored q h (mirror_padded hp h.pads hm (by rw [h.hand.1]; rfl))) (fun _ _ => Runs.pure trivial)

omit q in
/-- A rounding that its command has checked is at hand. -/
theorem runs_rndOf {rnd tid : Nat} {e : Int} (h : rnd ≠ 2 ∨ (b.claimedKey w).isSome) : Runs (Keeps w b fx) (fun _ => True) (rndOf w rnd tid e) := by
  unfold rndOf
  refine Runs.ite (fun h2 => ?_) (fun _ => Runs.ite (fun _ => Runs.pure trivial) (fun _ => Runs.pure trivial))
  refine Runs.bind runs_getDev (fun d hd => ?_)
  rw [hd.same.claimedKey]
  rcases h with h | h
  · exact absurd h2 h
  · obtain ⟨k, hk⟩ := Option.isSome_iff_exists.1 h
    rw [hk]
    exact Runs.pure trivial

omit q in
theorem runs_tallyElem {fmt : Nat} {x z y : FVal} {code : Nat} {r : Report} {grad : Bool} {shift e : Int} {blk : Option Nat} :
    Runs (Keeps w b fx) (fun _ => True) (tallyElem fmt x z y code r grad shift e blk) := runs_modify (fun _ => ⟨rfl, rfl, rfl⟩)

theorem runs_write {t : Tensor} (h : t.Ready b w) {p : List Int} (hp : p ∈ t.paddedPositions) {x : Elem} {rnd : Nat} {e : Int}
    (hr : x.const = true ∨ rnd ≠ 2 ∨ (b.claimedKey w).isSome) : Runs (Keeps w b fx) (fun _ => True) (t.write w p x rnd e) := by
  have hf := h.fmt
  obtain ⟨f, hf⟩ := Option.isSome_iff_exists.1 hf
  have hb := h.bits hp
  rw [codeWidth_of hf] at hb
  unfold Tensor.write
  rw [fmtAt_plain h.hand.2.1, h.hand.2.1, hf]
  refine Runs.bind (Runs.pure (q := fun _ => True) trivial) (fun _ _ => ?_)
  simp only [Option.getD_some]
  refine Runs.bind (Runs.ite (fun _ => Runs.pure (q := fun _ => True) trivial) (fun hc => ?_)) (fun _ _ => ?_)
  · exact runs_rndOf (by rcases hr with h | h <;> simp_all)
  · refine Runs.bind (Runs.ite (fun hs => ?_) (fun _ => Runs.pure (q := fun _ => True) trivial)) (fun _ _ => ?_)
    · exact runs_scaleAt q (h.scale hp (by simpa using hs))
    · refine Runs.bind (runs_vputBits q hb) (fun _ _ => ?_)
      exact Runs.ite (fun _ => runs_tallyElem) (fun _ => Runs.pure trivial)

theorem runs_putBits {t : Tensor} (h : t.Ready b w) {p : List Int} (hp : p ∈ t.paddedPositions) (v : Nat) :
    Runs (Keeps w b fx) (fun _ => True) (t.putBits w p v) := by
  unfold Tensor.putBits
  rw [fmtAt_plain h.hand.2.1]
  refine Runs.bind (Runs.pure (q := fun x => x = (t.fmt, 127)) rfl) (fun fe hfe => ?_)
  subst hfe
  exact runs_vputBits q (h.bits hp)

/-! ### The end of a command with one destination -/

omit q in
/-- A tally that leaves no record in memory leaves the unit. -/
theorem runs_flushTally : Runs (Keeps w b fx) (fun _ => True) (flushTally w 0 0 none) := by
  unfold flushTally
  refine Runs.bind Runs.get (fun r _ => Runs.bind (runs_modify (fun _ => ⟨rfl, rfl, rfl⟩)) (fun _ _ => ?_))
  refine Runs.ite (fun _ => ?_) (fun _ => Runs.pure trivial)
  refine Runs.bind (runs_modDev (fun d hd => (((hd.count ..).count ..).count ..).count ..)) (fun _ _ => ?_)
  simp only [ne_eq, not_true_eq_false, if_false]
  refine Runs.bind (q := fun _ => True) ?_ (fun _ _ => Runs.forM _ _ (fun f _ => runs_raiseCarried _ _ _ _))
  unfold watchFlush
  refine Runs.forM _ _ (fun i _ => ?_)
  refine Runs.bind runs_getDev (fun d hd => ?_)
  simp only [bne_self_eq_false, Bool.and_false, Bool.false_and, Bool.false_eq_true, if_false]
  exact Runs.pure trivial

omit q in
theorem runs_attempt {p p' : Run → Prop} {x : M Unit} (h : ∀ r, p r → ∃ r', x.run.run r = (.ok (), r') ∧ p' r') (r : Run) (hr : p r) :
    ∃ r', (attempt x).run.run r = (.ok none, r') ∧ p' r' := by
  obtain ⟨r', e, h'⟩ := h r hr
  refine ⟨r', ?_, h'⟩
  unfold attempt
  change (ExceptT.tryCatch (do x; return none : M (Option Stop)) _).run.run r = _
  have : (do x; return none : M (Option Stop)).run.run r = (.ok none, r') := by rw [run_bind, e]; rfl
  unfold ExceptT.tryCatch
  change (bind (m := StateM Run) (do x; return none : M (Option Stop)).run _).run r = _
  rw [StateT.run_bind, this]
  rfl

/-- The body of a command whose destination keeps no statistics runs, its writes leave, and it is done. -/
theorem runs_withDest {t : Tensor} {body : M Unit} (h : Runs (Keeps w b fx) (fun _ => True) body) (ht : t.steer = none)
    (h1 : t.stats = 0) (h2 : t.tid = 0) {r : Run} (hr : Keeps w b fx r) :
    ∃ r', (withDest w t body).run.run r = (.ok (), r') ∧ Keeps w b false r' := by
  have hb : ∀ r, Keeps w b fx r → ∃ r', body.run.run r = (.ok (), r') ∧ Keeps w b fx r' := fun r hr => by
    obtain ⟨_, r', e, k, _⟩ := h r hr; exact ⟨r', e, k⟩
  have hfl : ∀ r, Keeps w b false r → ∃ r', (t.flush w).run.run r = (.ok (), r') ∧ Keeps w b false r' := fun r hr => by
    unfold Tensor.flush
    rw [ht, h1, h2]
    obtain ⟨_, r', e, k, _⟩ := runs_flushTally r hr; exact ⟨r', e, k⟩
  obtain ⟨r1, e1, k1⟩ := runs_attempt hb r hr
  obtain ⟨r2, e2, k2⟩ := runs_attempt (fun _ h => runs_flushWrites q h) r1 k1
  obtain ⟨r3, e3, k3⟩ := runs_attempt hfl r2 k2
  refine ⟨r3, ?_, k3⟩
  unfold withDest
  rw [run_bind, e1]
  simp only
  rw [run_bind, e2]
  simp only
  rw [run_bind, e3]
  rfl

end

end Sys2Proof.Machine
end

