-- ==== Sys2Proof/Laws/Vectors.lean ====
section
/-! SUPPORT. Commands of the vector unit whose operands are at hand run to their end. -/

namespace Sys2Proof.Machine

section
variable {w : Who} {b : Dev} {fx : Bool}

/-- A command that is issued starts from the machine that agrees with itself. -/
theorem Keeps.start (w : Who) (d : Dev) : Keeps w d true (Run.start d) :=
  ⟨⟨Same.refl w d, fun _ => rfl, fun _ => rfl⟩, fun _ line bs h => by simp [Run.start] at h, by simp [Run.start]⟩

/-- Valid positions depend on the valid extents alone. -/
theorem mem_valid_vs {t : Tensor} {p : List Int} :
    p ∈ t.validPositions ↔ List.Forall₂ (fun (v : Nat) (i : Int) => 0 ≤ i ∧ i < (v : Int)) (t.dims.map Dim.v) p := by
  rw [mem_valid, List.forall₂_map_left_iff]

/-- A position of the destination is one of a source that covers it. -/
theorem covers_padded {src dst : Tensor} (h : covers src dst = true) {p : List Int} (hp : p ∈ dst.validPositions) : p ∈ src.paddedPositions := by
  unfold covers at h
  rw [Bool.and_eq_true] at h
  rw [mem_valid] at hp
  rw [mem_padded]
  have hn : src.dims.length = dst.dims.length := by simpa [Tensor.ndim] using h.1
  have h2 := List.all_eq_true.1 h.2
  generalize src.dims = a at *
  generalize dst.dims = e at *
  clear h
  induction hp generalizing a with
  | nil => cases a with
    | nil => exact .nil
    | cons _ _ => simp at hn
  | cons h1 _ ih =>
    cases a with
    | nil => simp at hn
    | cons x a =>
      refine .cons ?_ (ih a (by simpa using hn) (fun y hy => h2 y (by simp [hy])))
      have := h2 (x, _) (by simp only [List.zip_cons_cons]; exact List.mem_cons_self)
      simp only [decide_eq_true_eq] at this
      constructor <;> push_cast <;> omega

/-- The elements that a reduction reads for a position of its destination. -/
theorem reduced_valid {a dst : Tensor} (h : reducedShape a dst = true) {p : List Int} (hp : p ∈ dst.validPositions) {i : Nat}
    (hi : i < (a.dim 0).v) : ((i : Nat) : Int) :: (if dst.ndim = a.ndim then p.drop 1 else p) ∈ a.validPositions := by
  unfold reducedShape at h
  rw [mem_valid_vs] at hp ⊢
  unfold Tensor.ndim Tensor.dim at *
  cases hd : a.dims with
  | nil => simp [hd, Dim.v, Dim.l] at hi
  | cons x l =>
    simp only [hd, List.getD_cons_zero, List.map_cons, List.drop_succ_cons, List.drop_zero, List.length_cons] at *
    refine .cons ⟨by omega, by omega⟩ ?_
    rw [Bool.or_eq_true] at h
    rcases h with h | h
    · simp only [Bool.and_eq_true, beq_iff_eq] at h
      rw [if_pos h.1.1]
      have e := h.2
      rw [← e]
      cases hdd : dst.dims with
      | nil => rw [hdd] at h; simp at h
      | cons y m =>
        rw [hdd] at hp
        cases hp with
        | cons _ hp => simpa using hp
    · simp only [Bool.and_eq_true, beq_iff_eq] at h
      rw [if_neg (by omega), ← h.2]
      exact hp

theorem Dev.SourceAt.ready {v : W64} {t : Tensor} (h : b.SourceAt w v (some t)) : t.Ready b w :=
  h.2.1.data.ready (tensorAt_accepted h.2.1.desc)

section
variable (q : b.Plain w)
include q

omit q in
theorem runs_addrWord {v : W64} (h : v.field 63 48 = 0) : Runs (Keeps w b fx) (fun a => a = v.field 47 0) (addrWord v) := by
  unfold addrWord
  exact Runs.bind (Runs.require (by simp [h])) (fun _ _ => Runs.pure rfl)

/-- An operand that is named is read and accepted. -/
theorem runs_named {v : W64} {role : Role} {t : Tensor} (h : b.Names w v role t) :
    Runs (Keeps w b true) (fun x => x = t) (do tensor w (← addrWord v) role) := by
  refine Runs.bind (runs_addrWord h.word) (fun a ha => ?_)
  rw [ha]
  exact runs_tensor q h.desc h.read

omit q in
theorem runs_ownStore {t : Tensor} (h : t.inOwnStore b w = true) : Runs (Keeps w b true) (fun x => x = true) (t.ownStore w) := by
  unfold Tensor.ownStore
  exact Runs.bind runs_getDev (fun d hd => Runs.pure (by rw [hd.inOwnStore, h]))

theorem runs_vecSource {v : W64} {s : Option Tensor} (h : b.SourceAt w v s) : Runs (Keeps w b true) (fun x => x = s) (vecSource w v) := by
  unfold vecSource
  cases s with
  | none =>
    have hv : v = 0 := h
    subst hv
    refine Runs.bind (runs_addrWord (by decide)) (fun a ha => ?_)
    rw [ha]
    exact Runs.pure rfl
  | some t =>
    obtain ⟨h1, h2, h3⟩ := h
    refine Runs.bind (runs_addrWord h2.word) (fun a ha => ?_)
    rw [ha, if_neg h1]
    refine Runs.bind (runs_tensor q h2.desc h2.read) (fun x hx => ?_)
    rw [hx]
    refine Runs.bind (runs_ownStore h3) (fun y hy => ?_)
    rw [hy]
    exact Runs.bind (Runs.require rfl) (fun _ _ => Runs.pure rfl)

theorem runs_parseVec {k : Desc} {s1 s2 s3 : Option Tensor} {dst : Tensor} (h : b.VecReady w k s1 s2 s3 dst) :
    Runs (Keeps w b true) (fun v => v = vecArgs k s1 s2 s3 dst) (parseVec w k) := by
  unfold parseVec
  refine Runs.bind (Runs.require h.words) (fun _ _ => ?_)
  refine Runs.bind (runs_vecSource q h.first) (fun x hx => ?_)
  subst hx
  refine Runs.bind (runs_vecSource q h.second) (fun x hx => ?_)
  subst hx
  refine Runs.bind (runs_vecSource q h.third) (fun x hx => ?_)
  subst hx
  refine Runs.bind (runs_addrWord h.dest.word) (fun a ha => ?_)
  subst ha
  refine Runs.bind (runs_tensor q h.dest.desc h.dest.read) (fun x hx => ?_)
  subst hx
  refine Runs.bind (runs_ownStore h.own) (fun y hy => ?_)
  subst hy
  refine Runs.bind (Runs.require rfl) (fun _ _ => ?_)
  refine Runs.bind runs_getDev (fun d hd => ?_)
  refine Runs.bind (Runs.require ?_) (fun _ _ => Runs.pure rfl)
  have := h.agree
  unfold VecArgs.accepted at *
  simp only [hd.roundingOk]
  exact this

/-- A source of an element-wise operation. -/
theorem runs_vecElem {v : W64} {s : Option Tensor} (h : b.SourceAt w v s) (n : Nat) {p : List Int} (hp : ∀ t, s = some t → p ∈ t.paddedPositions) :
    Runs (Keeps w b fx) (fun _ => True) (vecElem w s n p) := by
  unfold vecElem
  cases s with
  | none => exact Runs.pure trivial
  | some t => exact runs_read q h.ready (hp t rfl)

theorem runs_vecStore {v : VecArgs} (h : v.dst.Ready b w) {p : List Int} (hp : p ∈ v.dst.paddedPositions) (r : Nat) :
    Runs (Keeps w b fx) (fun _ => True) (vecStore w v p r) := by
  unfold vecStore
  exact Runs.ite (fun _ => runs_putBits q h hp _) (fun _ => runs_write q h hp (.inl rfl))

/-- The body of an accepted VEC command runs, and leaves the near store's pages as they were mapped. -/
theorem runs_vecBody {k : Desc} {s1 s2 s3 : Option Tensor} {dst : Tensor} (h : b.VecReady w k s1 s2 s3 dst) {r : Run} (hr : Keeps w b true r) :
    ∃ r', (vecBody w (vecArgs k s1 s2 s3 dst)).run.run r = (.ok (), r') ∧ Keeps w b false r' := by
  have hd := h.dest.data.ready (tensorAt_accepted h.dest.desc)
  have ag := h.agree
  unfold VecArgs.accepted at ag
  rw [Bool.and_eq_true] at ag
  obtain ⟨ag1, ag2⟩ := ag
  refine runs_withDest q ?_ hd.hand.2.1 h.plain.1 h.plain.2 hr
  refine Runs.bind (Runs.forM _ _ (fun p hp => ?_)) (fun _ _ => runs_modDev (fun d hd => (hd.count ..).count ..))
  have hpd := valid_padded hp
  by_cases hred : isReduction (k.arg 39 32) = true
  · have hred' : isReduction (vecArgs k s1 s2 s3 dst).vop = true := hred
    rw [if_pos hred'] at ag2 ⊢
    cases s1 with
    | none => simp [vecArgs] at ag2
    | some a =>
      have hsh : reducedShape a dst = true := by simpa [vecArgs] using ag2
      simp only [vecArgs]
      refine Runs.bind (q := fun _ => True) ?_ (fun xs _ => ?_)
      · refine Runs.mapM_any _ _ (fun i hi => ?_)
        exact Runs.bind (runs_read q h.first.ready (valid_padded (reduced_valid hsh hp (List.mem_range.1 hi)))) (fun _ _ => Runs.pure trivial)
      · split
        · exact runs_vecStore q hd hpd _
        · refine Runs.bind runs_getDev (fun d hd' => ?_)
          exact Runs.bind (runs_setDev hd'.takeFree) (fun _ _ => runs_vecStore q hd hpd _)
  · have hred' : ¬ isReduction (vecArgs k s1 s2 s3 dst).vop = true := hred
    rw [if_neg hred'] at ag2 ⊢
    have cov : ∀ t, some t ∈ [s1, s2, s3] → p ∈ t.paddedPositions := fun t ht =>
      covers_padded (List.all_eq_true.1 ag2 t (by simpa [vecArgs] using ht)) hp
    have e1 : ∀ n, Runs (Keeps w b true) (fun _ => True) (vecElem w s1 n p) := fun n =>
      runs_vecElem q h.first n (fun t e => cov t (by simp [e]))
    have e2 : ∀ n, Runs (Keeps w b true) (fun _ => True) (vecElem w s2 n p) := fun n =>
      runs_vecElem q h.second n (fun t e => cov t (by simp [e]))
    have e3 : ∀ n, Runs (Keeps w b true) (fun _ => True) (vecElem w s3 n p) := fun n =>
      runs_vecElem q h.third n (fun t e => cov t (by simp [e]))
    refine Runs.ite (fun h5 => Runs.bind (e1 _) (fun x _ => ?_)) (fun h5 => Runs.bind (e1 _) (fun x _ => ?_))
    · rw [if_pos h5, Bool.and_eq_true] at ag1
      have hrk := ag1.1
      unfold Dev.roundingOk at hrk
      refine runs_write q hd hpd (.inr ?_)
      by_cases h2 : (vecArgs k s1 s2 s3 dst).rnd = 2
      · rw [h2] at hrk
        simp at hrk
        exact .inr hrk.1
      · exact .inl h2
    · have last : ∀ y : Elem, Runs (Keeps w b true) (fun _ => True) (if vopSources (vecArgs k s1 s2 s3 dst).vop ≥ 3 then do
            let z ← vecElem w s3 (vecArgs k s1 s2 s3 dst).scalar p
            vecStore w (vecArgs k s1 s2 s3 dst) p (vecApply (vecArgs k s1 s2 s3 dst).vop x.bits y.bits z.bits)
          else do
            let z ← pure x
            vecStore w (vecArgs k s1 s2 s3 dst) p (vecApply (vecArgs k s1 s2 s3 dst).vop x.bits y.bits z.bits)) := fun y =>
        Runs.ite (fun _ => Runs.bind (e3 _) (fun _ _ => runs_vecStore q hd hpd _))
          (fun _ => Runs.bind (Runs.pure (q := fun _ => True) trivial) (fun _ _ => runs_vecStore q hd hpd _))
      exact Runs.ite (fun _ => Runs.bind (e2 _) (fun y _ => last y))
        (fun _ => Runs.bind (Runs.pure (q := fun _ => True) trivial) (fun y _ => last y))

end

end

/-- A command that loads no regions and whose act runs from its issue. -/
theorem runCmd_plain {α : Type} {d : Dev} {c x : Nat} {t : Ctx} {act : Who → Desc → M α} (h9 : t.cur.w0.bit 9 = false) :
    runCmd d c x t act = (act (d.whoOf c x) t.cur).run.run (Run.start (d.issued c x t)) := by
  unfold runCmd
  have hl : loadRegions (d.whoOf c x) t.cur = pure () := by unfold loadRegions; rw [h9]; rfl
  rw [hl, pure_bind]

theorem runCmd_runs {α : Type} {d : Dev} {c x : Nat} {t : Ctx} {act : Who → Desc → M α} {a : α} (h9 : t.cur.w0.bit 9 = false)
    (h : ∃ r', (act (d.whoOf c x) t.cur).run.run (Run.start (d.issued c x t)) = (.ok a, r')) : (runCmd d c x t act).1 = .ok a := by
  obtain ⟨r', e⟩ := h
  rw [runCmd_plain h9, e]

/-- A VEC command with its operands at hand runs without a fault. -/
theorem vec_runs {d : Dev} {c x : Nat} {t : Ctx} {s1 s2 s3 : Option Tensor} {dst : Tensor} (h9 : t.cur.w0.bit 9 = false)
    (q : (d.issued c x t).Plain (d.whoOf c x)) (h : (d.issued c x t).VecReady (d.whoOf c x) t.cur s1 s2 s3 dst) :
    (runCmd d c x t vecCmd).1 = .ok () := by
  refine runCmd_runs h9 ?_
  obtain ⟨v, r, e, hk, hv⟩ := runs_parseVec q h _ (Keeps.start (d.whoOf c x) (d.issued c x t))
  subst hv
  obtain ⟨r', e', _⟩ := runs_vecBody q h hk
  refine ⟨r', ?_⟩
  unfold vecCmd
  rw [run_bind, e]
  exact e'

end Sys2Proof.Machine
end

