-- ==== Sys2Proof/Laws/Transfers.lean ====
section
/-! SUPPORT. XFER commands between LINEAR tensors at hand run to their end. -/

namespace Sys2Proof.Machine

section
variable {w : Who} {b : Dev} {fx : Bool}

/-! ### Positions -/

theorem mem_writable {t : Tensor} {p : List Int} :
    p ∈ t.writable ↔ List.Forall₂ (fun d i => (writeRange t d).1 ≤ i ∧ i < (writeRange t d).1 + ((writeRange t d).2 : Int)) t.dims p := by
  unfold Tensor.writable
  rw [mem_positions, List.forall₂_map_left_iff]

theorem writable_padded {t : Tensor} {p : List Int} (h : p ∈ t.writable) : p ∈ t.paddedPositions := by
  rw [mem_writable] at h
  rw [mem_padded]
  refine h.imp (fun d i hi => ?_)
  unfold writeRange at hi
  have := d.v_le
  split at hi
  · unfold Dim.e at hi; constructor <;> push_cast at * <;> omega
  · constructor <;> push_cast at * <;> omega

/-- What a position of the destination says of one of its dimensions. -/
theorem writable_at {t : Tensor} {p : List Int} (h : p ∈ t.writable) {i : Nat} (hi : i < t.ndim) :
    (writeRange t (t.dim i)).1 ≤ p.getD i 0 ∧ p.getD i 0 < (writeRange t (t.dim i)).1 + ((writeRange t (t.dim i)).2 : Int) := by
  rw [mem_writable] at h
  unfold Tensor.ndim at hi
  have hl := h.length_eq
  have := List.forall₂_iff_get.1 h |>.2 i hi (by omega)
  unfold Tensor.dim
  rw [List.getD_eq_getElem _ _ hi, List.getD_eq_getElem _ _ (by omega : i < p.length)]
  simpa using this

/-- Positions of a box, given by their coordinates. -/
theorem padded_of {t : Tensor} {p : List Int} (hl : p.length = t.ndim)
    (h : ∀ i, i < t.ndim → -((t.dim i).padLo : Int) ≤ p.getD i 0 ∧ p.getD i 0 < (((t.dim i).l + (t.dim i).padHi : Nat) : Int)) :
    p ∈ t.paddedPositions := by
  rw [mem_padded, List.forall₂_iff_get]
  unfold Tensor.ndim at *
  refine ⟨hl.symm, fun i h1 h2 => ?_⟩
  have := h i h1
  unfold Tensor.dim at this
  rw [List.getD_eq_getElem _ _ h1, List.getD_eq_getElem _ _ h2] at this
  simpa using this

/-- A written position has its source index within the source's padded extent. -/
theorem sourceCovers_at {dst : Tensor} {f : Nat → Dim} (h : sourceCovers dst f = true) {p : List Int} (hp : p ∈ dst.writable) {i : Nat}
    (hi : i < dst.ndim) : -((f i).padLo : Int) ≤ p.getD i 0 ∧ p.getD i 0 < (((f i).l + (f i).padHi : Nat) : Int) := by
  have hw := writable_at hp hi
  unfold sourceCovers at h
  rw [Bool.or_eq_true] at h
  rcases h with h | h
  · exfalso
    obtain ⟨d, hd, h0⟩ := List.any_eq_true.1 h
    obtain ⟨j, hj, e⟩ := List.getElem_of_mem hd
    have := writable_at hp (i := j) hj
    unfold Tensor.dim at this
    rw [List.getD_eq_getElem _ _ hj, e] at this
    simp only [beq_iff_eq] at h0
    omega
  · have := List.all_eq_true.1 h i (List.mem_range.2 hi)
    unfold idxWithin at this
    simp only [Bool.or_eq_true, beq_iff_eq, Bool.and_eq_true, decide_eq_true_eq] at this
    omega

theorem isValid_mem {t : Tensor} {p : List Int} (hl : p.length = t.ndim) (h : isValid t p = true) : p ∈ t.validPositions := by
  rw [mem_valid, List.forall₂_iff_zip]
  refine ⟨hl.symm, fun {d i} hm => ?_⟩
  have := List.all_eq_true.1 h (d, i) hm
  simpa using this

theorem atBlock_length (blk : List Nat) (c o : List Int) : (atBlock blk c o).length = o.length := by simp [atBlock]

theorem offset_length {n : Nat} {blk : List Nat} {o : List Int} (h : o ∈ blockOffsets n blk) : o.length = n := by
  have := (mem_positions.1 h).length_eq
  simpa using this.symm

/-- A permutation names every dimension of the source. -/
theorem permOf_find {x : XferArgs} (hn : x.src.ndim = x.dst.ndim) (h : (!x.permEn || permOk x.perm x.dst.ndim) = true) {s : Nat}
    (hs : s < x.src.ndim) : ∃ d, d < x.dst.ndim ∧ x.permOf d = s ∧ (List.range x.dst.ndim).find? (fun d => x.permOf d == s) = some d := by
  have : ∃ d, d < x.dst.ndim ∧ x.permOf d = s := by
    unfold XferArgs.permOf
    cases he : x.permEn with
    | false => exact ⟨s, by omega, by simp⟩
    | true =>
      simp only [he, Bool.not_true, Bool.false_or] at h
      unfold permOk at h
      rw [Bool.and_eq_true] at h
      have := List.all_eq_true.1 h.1 s (List.mem_range.2 (by omega))
      rw [List.contains_iff_mem] at this
      obtain ⟨j, hj, e⟩ := List.getElem_of_mem this
      rw [List.length_take] at hj
      rw [List.getElem_take] at e
      exact ⟨j, by omega, by simp only [if_true]; rw [List.getD_eq_getElem _ _ (by omega)]; exact e⟩
  obtain ⟨d, hd, e⟩ := this
  cases hf : (List.range x.dst.ndim).find? (fun d => x.permOf d == s) with
  | none =>
    rw [List.find?_eq_none] at hf
    exact absurd (by simp [e]) (hf d (List.mem_range.2 hd))
  | some d' =>
    have h1 := List.mem_of_find?_eq_some hf
    have h2 := List.find?_some hf
    exact ⟨d', List.mem_range.1 h1, by simpa using h2, rfl⟩

/-- The source position of a RELAYOUT. -/
theorem srcIndex_padded {x : XferArgs} (hn : x.src.ndim = x.dst.ndim) (h : (!x.permEn || permOk x.perm x.dst.ndim) = true)
    (hc : sourceCovers x.dst (fun d => x.src.dim (x.permOf d)) = true) {p : List Int} (hp : p ∈ x.dst.writable) :
    x.srcIndex p ∈ x.src.paddedPositions := by
  refine padded_of (by simp [XferArgs.srcIndex]) (fun s hs => ?_)
  obtain ⟨d, hd, e, hf⟩ := permOf_find hn h hs
  have := sourceCovers_at hc hp hd
  unfold XferArgs.srcIndex
  rw [List.getD_eq_getElem _ _ (by simpa using hs), List.getElem_map, List.getElem_range, hf]
  rw [e] at this
  exact this

section
variable (q : b.Plain w)
include q

/-! ### Bodies -/

omit q in
theorem runs_misaligned {t : Tensor} (h : t.AtHand b w) : Runs (Keeps w b fx) (fun _ => True) (t.misaligned w) := by
  unfold Tensor.misaligned
  rw [h.1, fmtAt_plain h.2.1]
  exact Runs.bind (Runs.pure (q := fun _ => True) trivial) (fun _ _ => Runs.pure trivial)

omit q in
theorem runs_reportMisalign {n : Nat} {m : Nat × Nat} : Runs (Keeps w b fx) (fun _ => True) (reportMisalign w n m) := by
  unfold reportMisalign
  exact Runs.ite (fun _ => runs_modDev (fun d hd => ((hd.count ..).count ..).raise ..)) (fun _ => Runs.pure trivial)

theorem runs_copyOne {x : XferArgs} (hs : x.src.Ready b w) (hd : x.dst.Ready b w) {p : List Int} (h1 : p ∈ x.src.paddedPositions)
    (h2 : p ∈ x.dst.paddedPositions) : Runs (Keeps w b fx) (fun _ => True) (copyOne w x p) := by
  unfold copyOne
  refine Runs.ite (fun _ => Runs.ite (fun hm => ?_) (fun _ => ?_)) (fun _ => ?_)
  · refine Runs.bind (runs_modDev (fun d hd => hd.count ..)) (fun _ _ => ?_)
    exact Runs.bind (runs_storedBits q hs (mirror_padded h1 hs.pads hm (by rw [hs.hand.1]; rfl))) (fun _ _ => runs_putBits q hd h2 _)
  · exact Runs.bind (runs_read q hs h1) (fun _ _ => runs_write q hd h2 (.inr (.inl (by decide))))
  · exact Runs.bind (runs_storedBits q hs h1) (fun _ _ => runs_putBits q hd h2 _)

theorem runs_blockElem {x : XferArgs} (hs : x.src.Ready b w) {p : List Int} (hl : p.length = x.src.ndim) :
    Runs (Keeps w b fx) (fun _ => True) (blockElem w x p) := by
  unfold blockElem
  refine Runs.ite (fun hc => runs_read q hs (padded_of_class hl (by simpa using hc))) (fun _ => ?_)
  refine Runs.ite (fun _ => Runs.pure trivial) (fun _ => ?_)
  exact Runs.bind runs_getDev (fun d hd => Runs.bind (runs_setDev hd.takeFree) (fun _ _ => Runs.pure trivial))

omit q in
/-- An accepted rounding has its key where the command converts. -/
theorem rounding_key {rnd n : Nat} (h : b.roundingOk w rnd n true = true) : rnd ≠ 2 ∨ (b.claimedKey w).isSome = true := by
  unfold Dev.roundingOk at h
  by_cases e : rnd = 2
  · subst e; simp at h; exact .inr h.1
  · exact .inl e

theorem runs_moveElem {x : XferArgs} (hs : x.src.Ready b w) (hd : x.dst.Ready b w) {n : Nat} (hr : b.roundingOk w x.rnd n x.converts = true)
    {p p' : List Int} (hl : p.length = x.src.ndim) (hp : p' ∈ x.dst.paddedPositions) :
    Runs (Keeps w b fx) (fun _ => True) (moveElem w x p p') := by
  unfold moveElem
  refine Runs.ite (fun hc => ?_) (fun _ => ?_)
  · exact Runs.bind (runs_storedBits q hs (padded_of_class hl (by rcases hc.2.2.2 with h | h <;> simp [h])))
      (fun _ _ => runs_putBits q hd hp _)
  · refine Runs.bind (runs_blockElem q hs hl) (fun _ _ => runs_write q hd hp (.inr ?_))
    split
    · rename_i hc
      rw [hc] at hr
      exact rounding_key hr
    · exact .inl (by decide)

theorem runs_peekBits {va bit n : Nat} (h : b.Near w (va + bit / 8) ((bit % 8 + n + 7) / 8)) :
    Runs (Keeps w b fx) (fun _ => True) (peekBits w va bit n) := by
  unfold peekBits
  refine Runs.bind (q := fun _ => True) (Runs.mapM_any _ _ (fun i hi => ?_)) (fun _ _ => Runs.pure trivial)
  have hi := List.mem_range.1 hi
  refine Runs.bind (runs_lineOf q (h.line (by omega) (by omega))) (fun line _ => Runs.bind Runs.get (fun r _ => ?_))
  split <;> exact Runs.pure trivial

theorem runs_addElem {x : XferArgs} (hs : x.src.Ready b w) (hd : x.dst.Ready b w) {n : Nat} (hr : b.roundingOk w x.rnd n true = true)
    {p p' : List Int} (hl : p.length = x.src.ndim) (hp : p' ∈ x.dst.paddedPositions) (hv : x.dst.classOf p' = .valid) :
    Runs (Keeps w b fx) (fun _ => True) (addElem w x p p') := by
  unfold addElem
  obtain ⟨f, hf⟩ := Option.isSome_iff_exists.1 hd.fmt
  have hb := hd.bits hp
  rw [codeWidth_of hf] at hb
  rw [hf]
  refine Runs.bind (runs_blockElem q hs hl) (fun s _ => Runs.bind (runs_peekBits q hb) (fun old _ => ?_))
  have hw : ∀ e : Elem, Runs (Keeps w b fx) (fun _ => True) (x.dst.write w p' e x.rnd (x.dst.flatIndex p')) :=
    fun e => runs_write q hd hp (.inr (rounding_key hr))
  refine Runs.bind (q := fun _ => True) (Runs.ite (fun hk => ?_) (fun _ => Runs.pure trivial)) (fun _ _ => hw _)
  exact Runs.bind (runs_scaleAt q (hd.scale hp ⟨hk, hv⟩)) (fun _ _ => Runs.pure trivial)

/-! ### Lists -/

omit q in
/-- A valid position is of that class. -/
theorem valid_class {t : Tensor} {p : List Int} (h : p ∈ t.validPositions) : t.classOf p = .valid := by
  rw [mem_valid] at h
  obtain ⟨_, hz⟩ := List.forall₂_iff_zip.1 h
  have key : ∀ x ∈ t.dims.zip p, 0 ≤ x.2 ∧ x.2 < (x.1.v : Int) := fun x hx => hz (show (x.1, x.2) ∈ t.dims.zip p from hx)
  have no : ∀ (f : Dim × Int → Bool), (∀ x ∈ t.dims.zip p, f x = false) → (t.dims.zip p).any f = false := fun f hf => by
    rw [List.any_eq_false]; intro x hx; simp [hf x hx]
  unfold Tensor.classOf
  dsimp only
  rw [no _ (fun x hx => ?_), no _ (fun x hx => ?_), no _ (fun x hx => ?_)]
  · rfl
  all_goals
    have h1 := key x hx
    have h2 := x.1.v_le
    have h3 : x.1.v ≤ x.1.g - x.1.shard * x.1.l := Nat.min_le_right _ _
    simp only [Bool.or_eq_false_iff, Dim.gOf, decide_eq_false_iff_not]
    push_cast
    first | omega | (rw [decide_eq_false_iff_not, decide_eq_false_iff_not]; omega)

theorem runs_coordsOf {x : XferArgs} {e : Nat} (h : b.Near w x.list (16 * x.listN)) (he : e < x.listN) :
    Runs (Keeps w b true) (fun cs => cs = b.listCoords x e) (coordsOf w x e) := by
  unfold coordsOf
  refine (Runs.mapM (fun i v => v = signedOf 32 (leNat (b.vbytes (x.list + 16 * e + 4 * i) 4))) _ _ (fun i hi => ?_)).weak (fun cs hcs => ?_)
  · have hi := List.mem_range.1 hi
    exact Runs.bind (runs_oreadNat q (h.part (by omega) (by omega))) (fun v hv => Runs.pure (by rw [hv rfl]))
  · unfold Dev.listCoords
    generalize List.range 4 = l at hcs
    induction hcs with
    | nil => rfl
    | cons h1 _ ih => rw [List.map_cons, ← h1, ih]

/-- An entry that does not end the list runs, and the list goes on. -/
theorem runs_listEntry {x : XferArgs} (hs : x.src.Ready b w) (hd : x.dst.Ready b w) (hn : x.src.ndim = x.dst.ndim) {n : Nat}
    (hr : b.roundingOk w x.rnd n x.converts = true) (h4 : x.mode = 4 → x.converts = true) (hl : b.ListReady w x) {st : ListState}
    (hst : st.stop = none) {e : Nat} (he : e < x.listN) : Runs (Keeps w b true) (fun st' => st'.stop = none) (listEntry w x st e) := by
  unfold listEntry
  rw [hst]
  refine Runs.bind (runs_coordsOf q hl.1 he) (fun cs hcs => ?_)
  subst hcs
  have hbad := hl.2 e he
  cases hen : entryOf (gridOf (if x.mode = 2 then x.src else x.dst) x.blk) x.range (b.listCoords x e) with
  | bad i a => exact absurd hen (hbad i a)
  | zero =>
    refine Runs.bind (runs_modDev (fun d hd => hd.count ..)) (fun _ _ => Runs.ite (fun h2 => ?_) (fun _ => Runs.pure hst))
    refine Runs.bind (runs_modDev (fun d hd => hd.count ..)) (fun _ _ => ?_)
    refine Runs.bind (Runs.forM _ _ (fun o ho => ?_)) (fun _ _ => Runs.pure hst)
    refine Runs.ite (fun hv => ?_) (fun _ => Runs.pure trivial)
    rw [if_pos h2] at ho
    have hm := isValid_mem (by rw [atBlock_length, offset_length ho, hn]) hv
    exact runs_putBits q hd (valid_padded hm) _
  | block c cl =>
    refine Runs.bind (runs_modDev (fun d hd => ((hd.count ..).count ..).count ..)) (fun _ _ => ?_)
    refine Runs.bind (Runs.forM _ _ (fun o ho => ?_)) (fun _ _ => ?_)
    · have hol := offset_length ho
      have ht : (if x.mode = 2 then x.src else x.dst).ndim = x.dst.ndim := by split <;> simp [hn]
      rw [ht] at hol
      refine Runs.ite (fun hv => ?_) (fun _ => Runs.pure trivial)
      have hm := isValid_mem (t := x.dst) (by split <;> rw [atBlock_length, hol]) hv
      have hp : (if x.mode = 2 then atBlock x.blk c o
          else atBlock x.blk (blockCoords (gridOf (if x.mode = 2 then x.dst else x.src) x.blk) e) o).length = x.src.ndim := by
        split <;> rw [atBlock_length, hol, hn]
      refine Runs.ite (fun hm4 => ?_) (fun _ => runs_moveElem q hs hd hr hp (valid_padded hm))
      rw [h4 hm4] at hr
      exact runs_addElem q hs hd hr hp (valid_padded hm) (valid_class hm)
    · exact Runs.pure (by split <;> rfl)

/-- The body of an accepted XFER between tensors at hand. -/
theorem runs_xferBody {k : Desc} {src dst : Tensor} (h : b.XferReady w k src dst) :
    Runs (Keeps w b true) (fun _ => True) (xferBody w (xferArgs k src dst)) := by
  have hs := h.source.data.ready (tensorAt_accepted h.source.desc)
  have hd := h.dest.data.ready (tensorAt_accepted h.dest.desc)
  have ag := h.agree
  generalize hx : xferArgs k src dst = x at *
  have e1 : x.src = src := by rw [← hx]; rfl
  have e2 : x.dst = dst := by rw [← hx]; rfl
  have e3 : x.mode = k.arg 34 32 := by rw [← hx]; rfl
  rw [← e1] at hs
  rw [← e2] at hd
  have hnr : x.ready = false := by unfold XferArgs.ready; rw [hd.hand.1]; rfl
  unfold XferArgs.accepted at ag
  simp only [Bool.and_eq_true] at ag
  obtain ⟨⟨_, hr⟩, ag⟩ := ag
  have mis : Runs (Keeps w b true) (fun _ => True) (do
      reportMisalign w 0 (← x.src.misaligned w)
      reportMisalign w 1 (← x.dst.misaligned w)) := by
    refine Runs.bind (runs_misaligned hs.hand) (fun _ _ => Runs.bind runs_reportMisalign (fun _ _ => ?_))
    exact Runs.bind (runs_misaligned hd.hand) (fun _ _ => runs_reportMisalign)
  unfold xferBody
  refine Runs.ite (fun h0 => ?_) (fun h0 => Runs.ite (fun h1 => ?_) (fun h1 => ?_))
  · rw [if_pos h0] at ag
    unfold XferArgs.copyOk at ag
    simp only [Bool.and_eq_true, beq_iff_eq] at ag
    have hn : x.src.ndim = x.dst.ndim := by
      have : x.src.ls.length = x.dst.ls.length := by rw [ag.1.1.1.1.1.2]
      simpa [Tensor.ls, Tensor.ndim] using this
    refine Runs.bind (Runs.forM _ _ (fun p hp => ?_)) (fun _ _ => mis)
    refine runs_copyOne q hs hd (padded_of ?_ (fun i hi => sourceCovers_at ag.2 hp (by omega))) (writable_padded hp)
    have := (mem_writable.1 hp).length_eq
    unfold Tensor.ndim at *
    omega
  · rw [if_neg h0, if_pos h1] at ag
    unfold XferArgs.relayOk at ag
    rw [hnr] at ag
    simp only [Bool.not_false, if_true, Bool.and_eq_true, beq_iff_eq] at ag
    have hc : x.converts = true := by unfold XferArgs.converts; simp [h1]
    rw [hc] at hr
    rw [hd.hand.1]
    refine Runs.bind (Runs.forM _ _ (fun p hp => ?_)) (fun _ _ => mis)
    unfold relayOne
    exact Runs.bind (runs_read q hs (srcIndex_padded ag.1.1 ag.1.2 ag.2 hp))
      (fun _ _ => runs_write q hd (writable_padded hp) (.inr (rounding_key hr)))
  · rw [if_neg h0, if_neg h1] at ag
    unfold XferArgs.listOk at ag
    simp only [Bool.and_eq_true, beq_iff_eq] at ag
    have hn : x.src.ndim = x.dst.ndim := ag.1.1.1.1.1.2
    have hl := h.list (by omega)
    rw [hx] at hl
    refine Runs.bind (q := fun st => st.stop = none) (Runs.foldlM _ _ _ (fun e he st hst => ?_) _ rfl) (fun st hst => ?_)
    · exact runs_listEntry q hs hd hn hr (fun h4 => by unfold XferArgs.converts; simp [h4]) hl hst (List.mem_range.1 he)
    · refine Runs.bind runs_reportMisalign (fun _ _ => Runs.bind runs_reportMisalign (fun _ _ => ?_))
      rw [hst]
      exact Runs.pure trivial

/-- Validation of an XFER with its operands at hand. -/
theorem runs_parseXfer {k : Desc} {src dst : Tensor} (h : b.XferReady w k src dst) :
    Runs (Keeps w b true) (fun x => x = xferArgs k src dst) (parseXfer w k) := by
  have hd := h.dest.data
  unfold parseXfer
  refine Runs.bind (Runs.require h.fields) (fun _ _ => ?_)
  refine Runs.bind (runs_addrWord h.source.word) (fun a ha => ?_)
  subst ha
  refine Runs.bind (runs_tensor q h.source.desc h.source.read) (fun t ht => ?_)
  subst ht
  refine Runs.bind (runs_addrWord h.dest.word) (fun a ha => ?_)
  subst ha
  refine Runs.bind (runs_tensor q h.dest.desc h.dest.read) (fun t' ht => ?_)
  subst ht
  refine Runs.bind (Runs.require h.words) (fun _ _ => ?_)
  have hmode : (xferArgs k t t').mode = k.arg 34 32 := rfl
  have hag := h.agree
  have hag0 : (xferArgs k t t').mode = 0 → t.fmt = t'.fmt := fun h0 => by
    unfold XferArgs.accepted XferArgs.copyOk at hag
    rw [if_pos h0] at hag
    simp only [Bool.and_eq_true] at hag
    have := hag.2.1.2
    simp only [show (xferArgs k t t').src = t from rfl, show (xferArgs k t t').dst = t' from rfl, h.source.data.2.1, hd.2.1] at this
    simpa using this
  have last : Runs (Keeps w b true) (fun x => x = xferArgs k t t') (do
      require ((xferArgs k t t').accepted (← getDev) w)
      if (xferArgs k t t').mode = 0 then require (← sameFormats w t t')
      if (xferArgs k t t').mode = 1 ∧ t'.layout = .wt then
        return { xferArgs k t t' with ext := some (← relayExt w (k.w6.field 47 0) t') }
      else return xferArgs k t t') := by
    refine Runs.bind runs_getDev (fun d hd' => ?_)
    refine Runs.bind (Runs.require ?_) (fun _ _ => ?_)
    · unfold XferArgs.accepted XferArgs.listOk at *
      simp only [hd'.roundingOk, hd'.namesKept]
      exact hag
    · have fin : Runs (Keeps w b true) (fun x => x = xferArgs k t t') (if (xferArgs k t t').mode = 1 ∧ t'.layout = .wt then do
          return { xferArgs k t t' with ext := some (← relayExt w (k.w6.field 47 0) t') }
          else return xferArgs k t t') := by
        rw [hd.1, if_neg (fun h => by cases h.2)]
        exact Runs.pure rfl
      refine Runs.ite (fun h0 => ?_) (fun _ => fin)
      refine Runs.bind (q := fun v => v = true) ?_ (fun v hv => Runs.bind (Runs.require hv) (fun _ _ => fin))
      unfold sameFormats
      rw [h.source.data.2.1, hd.2.1]
      exact Runs.pure (by simp [hag0 h0])
  refine Runs.ite (fun hp => ?_) (fun _ => last)
  refine Runs.bind (q := fun _ => True) ?_ (fun _ _ => last)
  unfold padOverlap
  rw [h.halo hp.1 hp.2.1]
  exact Runs.pure trivial

end

end

/-- A local XFER with its operands at hand runs without a fault. -/
theorem xfer_runs {d : Dev} {c x : Nat} {t : Ctx} {src dst : Tensor} (h9 : t.cur.w0.bit 9 = false)
    (q : (d.issued c x t).Plain (d.whoOf c x)) (h : (d.issued c x t).XferReady (d.whoOf c x) t.cur src dst) :
    (runCmd d c x t (fun w k => do return (← parseXfer w k).remote)).1 = .ok false
      ∧ (runCmd d c x t (fun w k => do xferLocal w (← parseXfer w k))).1 = .ok () := by
  obtain ⟨v, r, e, hk, hv⟩ := runs_parseXfer q h _ (Keeps.start (d.whoOf c x) (d.issued c x t))
  subst hv
  have hd := h.dest.data
  obtain ⟨r', e', _⟩ := runs_withDest q (runs_xferBody q h) hd.2.1 h.plain.1 h.plain.2 hk
  constructor
  · refine runCmd_runs h9 ⟨r, ?_⟩
    rw [run_bind, e]
    have : (xferArgs t.cur src dst).remote = false := h.here
    simp only [this]
    rfl
  · refine runCmd_runs h9 ⟨r', ?_⟩
    rw [run_bind, e]
    exact e'

end Sys2Proof.Machine
end

