-- ==== Sys2Proof/Laws/Engines.lean ====
section
/-! SUPPORT. TILE_LOAD, STREAM and TABLE with their operands at hand run to their end. -/

namespace Sys2Proof.Machine

section
variable {w : Who} {b d : Dev} {fx : Bool}

/-! ### Reads and writes of the near store that need no page -/

theorem mem_chunks_near {pa n : Nat} (h : nearBase w.core ≤ pa) (h' : pa + n ≤ nearBase w.core + 0x4000000) :
    ∀ ch ∈ chunks pa n, nearBase w.core ≤ ch.1 ∧ ch.1 + ch.2 ≤ nearBase w.core + 0x4000000 ∧ 0 < ch.2 := fun ch hc => by
  have := mem_chunks hc
  omega

theorem Same.load (h : Same w b d) (q : b.Plain w) {pa n : Nat} (h1 : nearBase w.core ≤ pa) (h2 : pa + n ≤ nearBase w.core + 0x4000000) :
    (d.load pa n).1 = d ∧ (d.load pa n).2.2 = none := by
  unfold Dev.load
  have hc := mem_chunks_near h1 h2
  generalize chunks pa n = l at hc
  suffices ∀ bs, (l.foldl (fun (acc : Dev × List Byte × Option W64) ch =>
      ((acc.1.loadLine ch.1).1, acc.2.1 ++ (acc.1.loadLine ch.1).1.value ch.1 ch.2, acc.2.2.or (acc.1.loadLine ch.1).2)) (d, bs, none)).1 = d
      ∧ (l.foldl (fun (acc : Dev × List Byte × Option W64) ch =>
      ((acc.1.loadLine ch.1).1, acc.2.1 ++ (acc.1.loadLine ch.1).1.value ch.1 ch.2, acc.2.2.or (acc.1.loadLine ch.1).2)) (d, bs, none)).2.2 = none from
    this []
  induction l with
  | nil => intro bs; exact ⟨rfl, rfl⟩
  | cons c l ih =>
    intro bs
    have := hc c (by simp)
    rw [List.foldl_cons]
    simp only [h.loadLine q this.1 (by omega)]
    exact ih (fun c hm => hc c (by simp [hm])) _

theorem Same.store (h : Same w b d) (q : b.Plain w) {pa : Nat} {bs : List Byte} (h1 : nearBase w.core ≤ pa)
    (h2 : pa + bs.length ≤ nearBase w.core + 0x4000000) : Same w b (d.store pa bs) := by
  unfold Dev.store Dev.storeGen
  have hc := mem_chunks_near h1 h2
  generalize chunks pa bs.length = l at hc
  suffices ∀ (e : Dev) (cs : List Byte), Same w b e → Same w b (l.foldl (fun (acc : Dev × List Byte) ch =>
    (acc.1.storeLine ch.1 ((acc.2.take ch.2).map some) false, acc.2.drop ch.2)) (e, cs)).1 from this d bs h
  induction l with
  | nil => intro e _ he; exact he
  | cons c l ih =>
    intro e cs he
    have := hc c (by simp)
    rw [List.foldl_cons]
    refine ih (fun c hm => hc c (by simp [hm])) _ _ (he.trans (he.storeLine q _ _ this.1 ?_ (by omega)))
    rw [List.length_map, List.length_take]
    omega

theorem Agrees.load (h : Agrees w b fx d) (q : b.Plain w) {pa n : Nat} (h1 : nearBase w.core ≤ pa) (h2 : pa + n ≤ nearBase w.core + 0x4000000) :
    (d.load pa n).1 = d ∧ (d.load pa n).2.2 = none := h.same.load q h1 h2

theorem Agrees.store (h : Agrees w b false d) (q : b.Plain w) {pa : Nat} {bs : List Byte} (h1 : nearBase w.core ≤ pa)
    (h2 : pa + bs.length ≤ nearBase w.core + 0x4000000) : Agrees w b false (d.store pa bs) :=
  ⟨h.same.store q h1 h2, fun e => by simp at e, fun e => by simp at e⟩

theorem Runs.attempt {x : M Unit} {p : Run → Prop} (h : Runs p (fun _ => True) x) : Runs p (fun e => e = none) (attempt x) := fun r hr => by
  obtain ⟨r', e, h'⟩ := runs_attempt (fun r hr => by obtain ⟨_, r', e, k, _⟩ := h r hr; exact ⟨r', e, k⟩) r hr
  exact ⟨none, r', e, h', rfl⟩

section
variable (q : b.Plain w)
include q

/-! ### Tiles -/

omit q in
theorem runs_takeArrays {n : Nat} : Runs (Keeps w b fx) (fun _ => True) (takeArrays w n) :=
  runs_modDev (fun _ hd => hd.modCtx _ _ _ (fun _ => rfl))

theorem runs_loadShadow {wt : Tensor} {j i pa : Nat} {cols : Nat → Bool} {plane : Bool} (h1 : b.Near w (tilePart wt.base j i) 32768)
    (h2 : plane = true → b.Near w (planePart wt j i) 131072) : Runs (Keeps w b fx) (fun _ => True) (loadShadow w wt j i pa cols plane) := by
  unfold loadShadow
  refine Runs.bind (runs_modDev (fun d hd => hd.setBuf ..)) (fun _ _ => ?_)
  refine Runs.bind (runs_oread q h1) (fun nib _ => ?_)
  have rest : ∀ pl : List Byte, Runs (Keeps w b fx) (fun _ => True) (do
      let old := ((← getDev).buf w.core i).shd.cells
      let t : Tile := { valid := true, addr := pa, plane := plane, cells := mergeCells cols old (listed 0 nib ++ listed 32768 pl) }
      modDev (fun d => d.setBuf w.core i { d.buf w.core i with shd := t })) := fun pl =>
    Runs.bind runs_getDev (fun d hd => runs_modDev (fun d hd => hd.setBuf ..))
  exact Runs.bind (Runs.ite (fun hp => (runs_oread q (h2 hp)).any) (fun _ => Runs.pure trivial)) (fun pl _ => rest pl)

omit q in
/-- A plane that can be read is at hand. -/
theorem canRead_near (h : Agrees w b true d) {va n : Nat} (hn : b.Near w va n ∨ b.unmapped va n) (hc : d.canRead w va n = true) : b.Near w va n := by
  rcases hn with hn | ⟨pc, hp, e, he⟩
  · exact hn
  · unfold Dev.canRead at hc
    have := List.all_eq_true.1 hc pc hp
    rw [h.same.walkAt (h.mem rfl), he] at this
    cases this

theorem runs_tilePa {wt : Tensor} {j : Nat} (h : b.Near w (wt.base + j * tileBytes) tileBytes) :
    Runs (Keeps w b fx) (fun _ => True) (tilePa w wt j) := by
  obtain ⟨f, hf⟩ := h.page (a := wt.base + j * tileBytes) (Nat.le_refl _) (by unfold tileBytes; omega)
  exact (runs_xlat q hf false).any

omit q in
theorem mem_taking {n i : Nat} (h : i ∈ taking n) : i < 4 := List.mem_range.1 (List.mem_filter.1 h).1

omit q in
theorem near_tilePart {wt : Tensor} {j i : Nat} (h : b.Near w (wt.base + j * tileBytes) tileBytes) (hi : i < 4) :
    b.Near w (tilePart wt.base j i) 32768 := by
  unfold tilePart tileBytes at *
  exact h.part (by omega) (by omega)

/-- A TILE_LOAD with its tile at hand. -/
theorem runs_tileLoad {k : Desc} {wt : Tensor} (h : b.TileReady w k wt) :
    Runs (Keeps w b true) (fun _ => True) (do tileLoadBody w (← parseTileLoad w k)) := by
  obtain ⟨h1, h2, h3⟩ := h.takes
  refine Runs.bind (q := fun a => a = { arrays := k.arg 35 32, pass := k.arg 43 36, wt := wt }) ?_ (fun a ha => ?_)
  · unfold parseTileLoad
    refine Runs.bind (Runs.require h.words) (fun _ _ => ?_)
    refine Runs.bind (runs_addrWord h.names.word) (fun va hva => ?_)
    subst hva
    refine Runs.bind (runs_tensor q h.names.desc h.names.read) (fun t ht => ?_)
    subst ht
    refine Runs.bind (Runs.require ?_) (fun _ _ => Runs.pure rfl)
    simp [h1, h2, h3]
  · subst ha
    unfold tileLoadBody
    refine Runs.bind runs_takeArrays (fun _ _ => Runs.bind (runs_tilePa q h.tile) (fun pa _ => Runs.forM _ _ (fun i hi => ?_)))
    refine Runs.bind runs_getDev (fun d hd => ?_)
    exact runs_loadShadow q (near_tilePart h.tile (mem_taking hi)) (fun hp => canRead_near hd (h.plane i hi) hp)

/-! ### STREAM -/

omit q in
theorem Agrees.queueOf (h : Agrees w b fx d) : d.queueOf w = b.queueOf w := by
  have hc := h.same.ctx
  unfold Dev.queueOf
  cases e1 : d.ctx? w.core w.ctx <;> cases e2 : b.ctx? w.core w.ctx <;> simp_all [Ctx.standing]

omit q in
theorem kx1_eq (d : Dev) (w : Who) : d.kx1 w = ((d.ctx? w.core w.ctx).isSome && (d.qword (d.queueOf w) 0).bit 53) := by
  unfold Dev.kx1 Dev.queueOf
  cases d.ctx? w.core w.ctx <;> rfl

theorem Agrees.kx1 (h : Agrees w b true d) : d.kx1 w = b.kx1 w := by
  have hs : (d.ctx? w.core w.ctx).isSome = (b.ctx? w.core w.ctx).isSome := by
    have := congrArg Option.isSome h.same.ctx
    simpa using this
  have hq : d.queueEntry (b.queueOf w) = b.queueEntry (b.queueOf w) := by
    have := q.queue
    unfold Dev.queueEntry
    dsimp only
    rw [h.same.regf (by omega) (by omega) (by decide) (.inr (by decide))]
  rw [kx1_eq, kx1_eq, h.queueOf, hs]
  unfold Dev.qword
  rw [hq, h.same.wordAt (h.mem rfl)]

end

end

end Sys2Proof.Machine
end

