-- ==== Sys2Proof/Laws/Streams.lean ====
section
/-! SUPPORT. A STREAM whose operands are at hand runs to its end. -/

namespace Sys2Proof.Machine

section
variable {w : Who} {b : Dev} {fx : Bool}

/-- The enabled halves of a STREAM with the uniform panel map. -/
def uniformHalves (x : StreamExt) : List (Nat × List PHalf) :=
  (taking x.arrays).map (fun i => (i, halvesOf ((List.range 16).map (fun n => uniformPanel x.unifFmt n))))

theorem runs_readPanels {x : StreamExt} (h : x.pmap = 0) (i j : Nat) {p : Run → Prop} :
    Runs p (fun ps => ps = (List.range 16).map (fun n => uniformPanel x.unifFmt n)) (readPanels w x i j) := by
  unfold readPanels
  rw [if_pos h]
  exact Runs.pure rfl

theorem forall₂_map {α β : Type} {f : α → β} {l : List α} {bs : List β} (h : List.Forall₂ (fun a c => c = f a) l bs) : bs = l.map f := by
  induction h with
  | nil => rfl
  | cons h _ ih => rw [List.map_cons, h, ih]

theorem runs_passHalves {x : StreamExt} (h : x.pmap = 0) (j : Nat) {p : Run → Prop} :
    Runs p (fun hs => hs = uniformHalves x) (passHalves w x j) := by
  unfold passHalves
  refine (Runs.mapM (fun i r => r = (i, halvesOf ((List.range 16).map (fun n => uniformPanel x.unifFmt n)))) _ _ (fun i _ => ?_)).weak
    (fun hs hh => forall₂_map hh)
  exact Runs.bind (runs_readPanels h i j) (fun ps hps => Runs.pure (by rw [hps]))

theorem runs_readMaps {x : StreamExt} (h : x.pmap = 0) {p : Run → Prop} : Runs p (fun ms => ms = uniformMaps x) (readMaps w x) := by
  unfold readMaps
  refine (Runs.mapM (fun _ r => r = (taking x.arrays).map (fun _ => (List.range 16).map (fun n => uniformPanel x.unifFmt n))) _ _
    (fun j _ => ?_)).weak (fun hs hh => forall₂_map hh)
  exact (Runs.mapM (fun _ r => r = (List.range 16).map (fun n => uniformPanel x.unifFmt n)) _ _ (fun i _ => runs_readPanels h i j)).weak
    (fun hs hh => forall₂_map hh)

/-- What the checks say of a STREAM with the uniform panel map. -/
structure StreamShape (s : StreamArgs) : Prop where
  map    : s.x.pmap = 0
  tid    : s.x.steerTid = 0
  rows   : s.x.accRow + s.x.m ≤ 2048
  slots  : 0 < s.x.p → ∀ ih ∈ uniformHalves s.x, ∀ h ∈ ih.2, h.slot0 + h.rakes ≤ 512
  k      : (s.act.dim 0).g = s.k
  m      : (s.act.dim 1).g = s.x.m
  p      : (s.act.dim 2).g = s.x.p
  tiles  : s.x.p ≤ (s.wt.dim 0).g
  groupA : s.act.group = s.x.group
  groupW : s.wt.group = s.x.group
  tender : s.x.tdrEn = true → s.x.rc ≤ 8
  layA   : s.act.layout = .act
  layW   : s.wt.layout = .wt
  single : 0 < s.x.p → (Fmt.ofCode s.x.aFmt).any Fmt.isFloat = true → s.pk ≤ 1

/-- An array with a panel whose pair the checks accept computes Float-class activations unpacked (R52, R82, R87). -/
theorem ownPack_float {a op : Nat} {ps : List Panel} (h : panelsOk a ps = true) (hf : (Fmt.ofCode a).any Fmt.isFloat = true) :
    ownPack (fmtWidth a) op (halvesOf ps) = 1 := by
  have h4 : 4 ≤ fmtWidth a := by
    unfold panelsOk at h
    simp only [Bool.and_eq_true, Bool.not_eq_true', List.isEmpty_eq_false_iff] at h
    obtain ⟨⟨⟨h1, _⟩, _⟩, h2⟩ := h
    obtain ⟨hh, hm⟩ := List.exists_mem_of_ne_nil _ h2
    unfold halvesOf at hm
    obtain ⟨⟨n, p⟩, hz, hp⟩ := List.mem_flatMap.1 hm
    have hpm : p ∈ ps := (List.of_mem_zip hz).2
    have := List.all_eq_true.1 h1 p hpm
    simp only [Bool.and_eq_true] at this
    have hen : (p.enLo || p.enHi) = true := by
      unfold Panel.halves at hp
      cases h5 : p.enLo <;> cases h6 : p.enHi <;> simp_all
    rw [hen] at this
    have hpair := this.1.2
    simp only [Bool.not_true, Bool.false_or, Bool.and_eq_true] at hpair
    have hpair := hpair.1
    unfold pairOk at hpair
    unfold fmtWidth
    cases e : Fmt.ofCode a with
    | none => rw [e] at hf; cases hf
    | some f =>
      rw [e] at hf hpair
      cases e2 : Fmt.ofCode p.fmt with
      | none => rw [e2] at hpair; cases hpair
      | some g =>
        rw [e2] at hpair
        cases f with
        | float f0 =>
          have ha : a ≠ 0 := by
            intro h0; subst h0; simp [Fmt.isInt] at hpair
          have hw : f0.width ≠ 32 := by
            intro hw
            unfold Fmt.ofCode at e
            split at e <;> first | (exact ha rfl) | (simp only [Option.some.injEq, Fmt.float.injEq, reduceCtorEq] at e; try (subst e; revert hw; decide)) | skip
            split at e <;> simp at e
          simp only [Fmt.computeWidth, hw, if_false]
          split
          · omega
          · split <;> omega
        | _ => cases hf
  unfold ownPack
  rw [if_pos (.inr (.inl h4))]

theorem foldl_min_le {α : Type} (f : α → Nat) (l : List α) (n : Nat) : l.foldl (fun m a => min m (f a)) n ≤ n := by
  induction l generalizing n with
  | nil => exact Nat.le_refl _
  | cons a l ih => exact Nat.le_trans (ih _) (Nat.min_le_left _ _)

theorem StreamShape.of {x : StreamExt} {act wt : Tensor} {dst : Option Tensor} {d : Dev} (hf : x.fieldsOk act wt dst = true)
    (hm : x.pmap = 0) (ht : x.steerTid = 0) (ha : x.arrays < 16)
    (h : (streamArgs x act wt dst (uniformMaps x)).accepted d w (uniformMaps x) = true) : StreamShape (streamArgs x act wt dst (uniformMaps x)) := by
  unfold StreamArgs.accepted at h
  simp only [Bool.and_eq_true] at h
  obtain ⟨⟨⟨⟨⟨h1, h2⟩, _⟩, _⟩, _⟩, h6⟩ := h
  have hx : (streamArgs x act wt dst (uniformMaps x)).x = x := rfl
  unfold StreamArgs.shapeOk at h2
  simp only [Bool.and_eq_true, beq_iff_eq, decide_eq_true_eq] at h2
  unfold StreamExt.fieldsOk at hf
  simp only [Bool.and_eq_true, decide_eq_true_eq] at hf
  have pan : 0 < x.p → ∀ i ∈ taking x.arrays, panelsOk x.aFmt ((List.range 16).map (fun n => uniformPanel x.unifFmt n)) = true := by
    intro hp i hi
    unfold StreamArgs.mapsOk at h1
    have hmem : (taking x.arrays).map (fun _ => (List.range 16).map (fun n => uniformPanel x.unifFmt n)) ∈ uniformMaps x := by
      unfold uniformMaps
      exact List.mem_map.2 ⟨0, List.mem_range.2 hp, rfl⟩
    have := List.all_eq_true.1 h1 _ hmem
    simp only [Bool.and_eq_true] at this
    exact List.all_eq_true.1 this.1.1 _ (List.mem_map.2 ⟨i, hi, rfl⟩)
  refine ⟨hm, ht, hf.1.1.1.1.1.2, fun hp ih hih hh hhm => ?_, h2.1.1.1.1.1.1.1.1.1.2, h2.1.1.1.1.1.1.1.1.2, h2.1.1.1.1.1.1.1.2, h2.1.1.1.1.1.2,
    h2.1.1.1.1.2, h2.1.1.1.2, fun he => ?_, ?_, ?_, fun hp hfl => ?_⟩
  · obtain ⟨i, hi, rfl⟩ := List.mem_map.1 hih
    have hp := pan hp i hi
    unfold panelsOk at hp
    simp only [Bool.and_eq_true] at hp
    have := List.all_eq_true.1 hp.1.1.2 hh hhm
    simpa using this
  · unfold StreamArgs.tenderOk at h6
    rw [hx] at he h6
    simp only [he, Bool.not_true, Bool.false_or, Bool.and_eq_true, decide_eq_true_eq] at h6
    exact h6.1.1.1.1.1.1.1.1.1.1.1
  · have : act.layout = .act := by simpa using hf.1.1.1.2
    exact this
  · have : wt.layout = .wt := by simpa using hf.1.1.2
    exact this
  · have hne : ∀ n, n < 16 → n ≠ 0 → taking n ≠ [] := by decide
    have h0 : x.arrays ≠ 0 := by have := hf.1.1.1.1.1.1.2; simpa using this
    obtain ⟨i, l, hl⟩ : ∃ i l, taking x.arrays = i :: l := by
      cases e : taking x.arrays with
      | nil => exact absurd e (hne _ ha h0)
      | cons i l => exact ⟨i, l, rfl⟩
    have hpo := ownPack_float (op := x.op) (pan hp i (by rw [hl]; simp)) hfl
    have hu : (uniformMaps x).getD 0 [] = (taking x.arrays).map (fun _ => (List.range 16).map (fun n => uniformPanel x.unifFmt n)) := by
      unfold uniformMaps
      rw [List.getD_eq_getElem _ _ (by have : 0 < x.p := hp; simpa using this), List.getElem_map]
    change passPack x (mapHalves x ((uniformMaps x).getD 0 [])) ≤ 1
    rw [hu]
    unfold passPack mapHalves
    rw [hl]
    simp only [List.map_cons, List.zip_cons_cons, List.foldl_cons]
    refine Nat.le_trans (foldl_min_le _ _ _) ?_
    rw [hpo]
    decide

section
variable (q : b.Plain w) {s : StreamArgs} (sh : StreamShape s) (hd : b.StreamData w s)
include q sh hd

/-! ### Operand reads -/

omit q hd in
/-- The beat of a vector in a pass. -/
theorem beat_lt {j m : Nat} (hj : j < s.x.p) (hm : m < s.x.m) : j * s.act.actS + m + 128 ≤ s.act.actBeats := by
  unfold Tensor.actBeats
  rw [sh.p]
  have h1 : m < s.act.actS := by
    unfold Tensor.actS
    rw [sh.m]
    omega
  have h2 : (j + 1) * s.act.actS ≤ s.x.p * s.act.actS := Nat.mul_le_mul_right _ hj
  rw [Nat.add_mul] at h2
  omega

omit q in
theorem near_nibble {j m r : Nat} (hj : j < s.x.p) (hm : m < s.x.m) (hr : r < 128) {bit n : Nat} (hb : bit + n ≤ 8) (hb' : bit < 8) :
    b.Near w ((s.act.actNibble (j * s.act.actS + m) r).1 + bit / 8) ((bit % 8 + n + 7) / 8) := by
  have := beat_lt sh hj hm
  unfold Tensor.actNibble
  refine hd.act.part (by dsimp only; omega) ?_
  dsimp only
  have h1 : bit / 8 = 0 := by omega
  have h2 : (bit % 8 + n + 7) / 8 ≤ 1 := by omega
  rw [h1]
  omega

omit q sh hd in
/-- Row of an element's slice: below the array's 128. -/
theorem slice_row {k i : Nat} (hk : k < 128 / s.rho) (hi : i < s.rho) : s.rho * k + i < 128 := by
  have h1 : s.rho * (k + 1) ≤ s.rho * (128 / s.rho) := Nat.mul_le_mul_left _ hk
  have h2 : s.rho * (128 / s.rho) ≤ 128 := Nat.mul_div_le 128 s.rho
  rw [Nat.mul_add] at h1
  omega

omit q sh hd in
theorem rho_pos (s : StreamArgs) : 0 < s.rho := by unfold StreamArgs.rho rakeRows; omega

omit q sh hd in
/-- Elements of a pass that does not pack. -/
theorem k_unpacked {k : Nat} (h : s.pk ≤ 1) (hk : k < s.k) : k < 128 / s.rho := by
  unfold StreamArgs.k at hk
  refine Nat.lt_of_lt_of_le hk (Nat.div_le_div_right ?_)
  omega

omit q sh hd in
theorem k_packed {k : Nat} (hk : k < s.k) : k / s.pk < 128 := by
  unfold StreamArgs.k at hk
  have h1 : 128 * s.pk / s.rho ≤ 128 * s.pk := Nat.div_le_self _ _
  refine (Nat.div_lt_iff_lt_mul ?_).2 (by omega)
  rcases Nat.eq_zero_or_pos s.pk with h | h
  · rw [h] at hk; simp at hk
  · exact h

theorem runs_actRaw {j m k : Nat} (hj : j < s.x.p) (hm : m < s.x.m) (hk : k < s.k) :
    Runs (Keeps w b fx) (fun _ => True) (actRaw w s j m k) := by
  unfold actRaw
  have hb := beat_lt sh hj hm
  have entry : Runs (Keeps w b fx) (fun _ => True)
      (if ((Fmt.ofCode s.x.aFmt).getD .e8m0).isFloat then oreadNat w (s.act.actEntry (j * s.act.actS + m) k s.rho) 2 else pure 0) := by
    refine Runs.ite (fun hf => ?_) (fun _ => Runs.pure trivial)
    have hfl : (Fmt.ofCode s.x.aFmt).any Fmt.isFloat = true := by
      cases e : Fmt.ofCode s.x.aFmt with
      | none => rw [e] at hf; cases hf
      | some f => rw [e] at hf; exact hf
    have h1 := sh.single (by omega) hfl
    have hr : s.rho * k < 128 := slice_row (k_unpacked h1 hk) (rho_pos s)
    refine (runs_oreadNat q ((hd.planes hfl).1.part ?_ ?_)).any
    · unfold Tensor.actEntry; omega
    · unfold Tensor.actEntry
      rw [sh.k]
      have h2 : 2 * s.k * (j * s.act.actS + m + s.rho * k + 1) ≤ 2 * s.k * s.act.actBeats := Nat.mul_le_mul_left _ (by omega)
      rw [Nat.mul_add] at h2
      omega
  have fin : ∀ v : Nat, Runs (Keeps w b fx) (fun _ => True) (do
      let f := (Fmt.ofCode s.x.aFmt).getD .e8m0
      let entry ← (if f.isFloat then oreadNat w (s.act.actEntry (j * s.act.actS + m) k s.rho) 2 else pure 0)
      return (v, entry)) := fun v => Runs.bind entry (fun _ _ => Runs.pure trivial)
  refine Runs.bind (q := fun _ => True) (Runs.ite (fun hp => ?_) (fun hp => ?_)) (fun v _ => fin v)
  · have hkp : k / s.pk < 128 := k_packed hk
    have h1 : k % s.pk * (4 / s.pk) + 4 / s.pk ≤ 4 := by
      have h1 : k % s.pk + 1 ≤ s.pk := Nat.mod_lt _ (by omega)
      have h2 : (k % s.pk + 1) * (4 / s.pk) ≤ s.pk * (4 / s.pk) := Nat.mul_le_mul_right _ h1
      have h3 : s.pk * (4 / s.pk) ≤ 4 := Nat.mul_div_le 4 s.pk
      rw [Nat.add_mul] at h2
      omega
    have h0 : k % s.pk * (4 / s.pk) ≤ 3 := by
      rcases Nat.eq_zero_or_pos (4 / s.pk) with h | h
      · rw [h]; omega
      · omega
    have h2 : (s.act.actNibble (j * s.act.actS + m) (k / s.pk)).2 ≤ 4 := by unfold Tensor.actNibble; dsimp only; omega
    exact runs_oreadBits q (near_nibble sh hd hj hm hkp (by omega) (by omega))
  · refine Runs.foldlM _ _ _ (fun i hi acc _ => ?_) _ trivial
    have hi := List.mem_range.1 hi
    have hr := slice_row (k_unpacked (by omega) hk) hi
    have h2 : (s.act.actNibble (j * s.act.actS + m) (s.rho * k + i)).2 ≤ 4 := by unfold Tensor.actNibble; dsimp only; omega
    exact Runs.bind (runs_oreadBits q (near_nibble sh hd hj hm hr (by omega) (by omega))) (fun _ _ => Runs.pure trivial)

/-! ### Tiles and scales -/

omit q sh in
theorem near_tile {j : Nat} (hj : j < s.x.p) : b.Near w (s.wt.base + j * tileBytes) tileBytes := by
  have : (j + 1) * tileBytes ≤ s.x.p * tileBytes := Nat.mul_le_mul_right _ hj
  rw [Nat.add_mul] at this
  exact hd.tiles.part (by omega) (by omega)

omit q in
theorem near_plane {j i : Nat} (hj : j < s.x.p) (hi : i < 4) (hf : (Fmt.ofCode s.x.aFmt).any Fmt.isFloat = true) :
    b.Near w (planePart s.wt j i) 131072 := by
  have h1 := sh.tiles
  have h2 : (j + 1) * 524288 ≤ (s.wt.dim 0).g * 524288 := Nat.mul_le_mul_right _ (by omega)
  refine (hd.planes hf).2.part ?_ ?_ <;> unfold planePart wtEntryAddr <;> omega

omit q sh hd in
theorem runs_swapBuf {i : Nat} : Runs (Keeps w b fx) (fun _ => True) (swapBuf w i) := runs_modDev (fun _ hd => hd.setBuf ..)

theorem runs_bringTile {j : Nat} (hj : j < s.x.p) : Runs (Keeps w b fx) (fun _ => True) (bringTile w s j (uniformHalves s.x)) := by
  unfold bringTile
  refine Runs.bind (runs_tilePa q (near_tile hd hj)) (fun pa _ => Runs.forM _ _ (fun ih hih => ?_))
  obtain ⟨i, hi, rfl⟩ := List.mem_map.1 hih
  have hi := mem_taking hi
  refine Runs.bind runs_getDev (fun d _ => ?_)
  have last : Runs (Keeps w b fx) (fun _ => True)
      (if (Fmt.ofCode s.x.aFmt).any Fmt.isFloat = true then needPlane w s.wt j i (enabledCols (halvesOf ((List.range 16).map (fun n => uniformPanel s.x.unifFmt n))))
        else pure ()) := by
    refine Runs.ite (fun hf => ?_) (fun _ => Runs.pure trivial)
    unfold needPlane
    refine Runs.bind runs_getDev (fun d _ => Runs.ite (fun _ => Runs.pure trivial) (fun _ => ?_))
    exact Runs.bind (runs_oread q (near_plane sh hd hj hi hf)) (fun _ _ => runs_modDev (fun _ hd => hd.setBuf ..))
  refine Runs.ite (fun _ => last) (fun _ => ?_)
  refine Runs.ite (fun _ => Runs.bind runs_swapBuf (fun _ _ => last)) (fun _ => ?_)
  refine Runs.bind (runs_loadShadow q (near_tilePart (near_tile hd hj) hi) (fun hf => near_plane sh hd hj hi hf)) (fun _ _ => ?_)
  exact Runs.bind runs_swapBuf (fun _ _ => last)

omit q sh hd in
/-- One entry of a scale array of rows of `n` groups. -/
theorem scale_part {a row rows g n k : Nat} (hr : row < rows) (hg : g < n) (h : b.Near w a (rows * n * k)) : b.Near w (a + (row * n + g) * k) k := by
  have h1 : (row + 1) * n ≤ rows * n := Nat.mul_le_mul_right _ hr
  rw [Nat.add_mul] at h1
  have h2 : (row * n + g + 1) * k ≤ rows * n * k := Nat.mul_le_mul_right _ (by omega)
  rw [Nat.add_mul] at h2
  exact h.part (by omega) (by omega)

theorem runs_actScale {j m g : Nat} (hj : j < s.x.p) (hm : m < s.x.m) (hg : g < groupsN s.x.group) :
    Runs (Keeps w b fx) (fun _ => True) (s.act.actScale w m j g (groupsN s.x.group)) := by
  unfold Tensor.actScale
  refine Runs.ite (fun _ => Runs.pure trivial) (fun h0 => ?_)
  refine Runs.bind (runs_oreadNat q ?_) (fun _ _ => Runs.pure trivial)
  have hn := hd.scaleA h0
  unfold Tensor.scaleArrayBytes at hn
  simp only [sh.layA, sh.groupA, sh.p, sh.m] at hn
  refine scale_part (rows := s.x.p * s.x.m) ?_ hg hn
  rw [sh.m]
  have : (j + 1) * s.x.m ≤ s.x.p * s.x.m := Nat.mul_le_mul_right _ hj
  rw [Nat.add_mul] at this
  omega

omit q in
theorem near_wtScale {j i n g : Nat} (hj : j < s.x.p) (hi : i < 4) (hn : n < 512) (hg : g < groupsN s.x.group) (h0 : s.wt.scaleKind ≠ 0) :
    b.Near w (wtScaleAddr s.wt j i n g (groupsN s.x.group)) (scaleBytes s.wt.scaleKind) := by
  have h := hd.scaleW h0
  unfold Tensor.scaleArrayBytes at h
  simp only [sh.layW, sh.groupW] at h
  unfold wtScaleAddr
  have h1 := sh.tiles
  refine scale_part (rows := (s.wt.dim 0).g * 4 * 512) ?_ hg h
  have : (j + 1) * 2048 ≤ (s.wt.dim 0).g * 2048 := Nat.mul_le_mul_right _ (by omega)
  omega

theorem runs_columnPass {j m i n : Nat} {h : PHalf} {u : Nat} {acts : List (Nat × Nat)} {valid : Nat} {rep : List Nat} {start : Nat}
    (hj : j < s.x.p) (hm : m < s.x.m) (hi : i < 4) (hn : h.slot0 + u = n) (hs : n < 512) :
    Runs (Keeps w b fx) (fun _ => True) (columnPass w s j m i h u acts valid rep start) := by
  unfold columnPass
  refine Runs.bind runs_getDev (fun d _ => ?_)
  refine Runs.foldlM _ _ _ (fun g hg acc _ => ?_) _ trivial
  have hg := List.mem_range.1 hg
  refine Runs.ite (fun _ => Runs.pure trivial) (fun _ => Runs.ite (fun _ => ?_) (fun _ => Runs.pure trivial))
  refine Runs.bind (runs_actScale q sh hd hj hm hg) (fun sa _ => ?_)
  refine Runs.bind (q := fun _ => True) (Runs.ite (fun _ => Runs.pure trivial) (fun h0 => ?_)) (fun _ _ => Runs.pure trivial)
  exact Runs.bind (runs_oreadNat q (near_wtScale sh hd hj hi (by omega) hg h0)) (fun _ _ => Runs.pure trivial)

/-! ### Accumulators -/

omit q sh hd in
theorem acc_near {i row n : Nat} (hi : i < 4) (hr : row < 2048) (hn : n < 512) :
    nearBase w.core ≤ accAddr w.core i row n ∧ accAddr w.core i row n + 4 ≤ nearBase w.core + 0x4000000 := by
  unfold accAddr
  omega

omit sh hd in
theorem runs_accStart {j i row n : Nat} (hi : i < 4) (hr : row < 2048) (hn : n < 512) :
    Runs (Keeps w b fx) (fun _ => True) (accStart w s j i row n) := by
  unfold accStart
  refine Runs.ite (fun _ => Runs.pure trivial) (fun _ => ?_)
  unfold accRead
  refine Runs.bind runs_getDev (fun d hd => ?_)
  have ha := acc_near (w := w) hi hr hn
  obtain ⟨h1, h2⟩ := hd.load q ha.1 ha.2
  dsimp only
  rw [h1, h2]
  exact Runs.bind (runs_setDev hd) (fun _ _ => Runs.pure trivial)

omit sh hd in
theorem runs_accWrite {i row n v : Nat} (hi : i < 4) (hr : row < 2048) (hn : n < 512) :
    Runs (Keeps w b false) (fun _ => True) (accWrite w i row n v) := by
  have ha := acc_near (w := w) hi hr hn
  exact runs_modDev (fun d hd => hd.store q ha.1 (by rw [leBytes_length]; exact ha.2))

/-! ### The tender -/

omit q sh hd in
theorem outliers_lt {limit : Nat} {l : List Nat} : ∀ k ∈ (outliers limit l).1, k < limit := by
  unfold outliers
  suffices ∀ (acc : List Nat × Nat), (∀ k ∈ acc.1, k < limit) → ∀ k ∈ (l.foldl (fun acc k =>
      if k ≥ limit ∨ acc.1.contains k then (acc.1, acc.2 + 1) else (acc.1 ++ [k], acc.2)) acc).1, k < limit from this ([], 0) (by simp)
  induction l with
  | nil => intro acc h; exact h
  | cons a l ih =>
    intro acc h
    rw [List.foldl_cons]
    refine ih _ ?_
    split
    · exact h
    · intro k hk
      rcases List.mem_append.1 hk with hk | hk
      · exact h k hk
      · rw [List.mem_singleton] at hk
        omega

/-- A tender row whose operand lies at its place. -/
def TRow.ok (s : StreamArgs) : TRow → Prop
  | .corr t => t < s.x.rc
  | .outlier k => k < s.k

theorem runs_passTender {j : Nat} (hj : j < s.x.p) :
    Runs (Keeps w b fx) (fun t => t.rows.length ≤ 8 ∧ (s.x.tdrEn = false → t.rows = []) ∧ ∀ r ∈ t.rows, TRow.ok s r) (passTender w s j) := by
  unfold passTender
  refine Runs.ite (fun _ => Runs.pure ⟨by simp, fun _ => rfl, by simp⟩) (fun he => ?_)
  have he : s.x.tdrEn = true := by simpa using he
  have ht := hd.tender he
  have hrc := sh.tender he
  have fin : ∀ l : List Nat, Runs (Keeps w b fx) (fun t => t.rows.length ≤ 8 ∧ (s.x.tdrEn = false → t.rows = []) ∧ ∀ r ∈ t.rows, TRow.ok s r)
      (pure (f := M) (let rc := if j = s.x.corrPass then s.x.rc else 0
        let limit := if j + 1 = s.x.p then min s.k s.x.kLast else s.k
        let o := outliers limit l
        let corr := (List.range rc).map TRow.corr
        ({ rows := corr ++ (o.1.take (8 - rc)).map TRow.outlier, excess := o.1.drop (8 - rc), ignored := o.2 } : PassTender))) := by
    intro l
    refine Runs.pure ⟨?_, ⟨fun h => ?_, fun r hr => ?_⟩⟩
    rotate_left
    · rw [he] at h; cases h
    rotate_left
    · simp only [List.length_append, List.length_map, List.length_range, List.length_take]
      split <;> omega
    · simp only [List.mem_append, List.mem_map, List.mem_range] at hr
      rcases hr with ⟨t, ht, rfl⟩ | ⟨k, hk, rfl⟩
      · unfold TRow.ok
        split at ht <;> omega
      · have := outliers_lt k (List.mem_of_mem_take hk)
        unfold TRow.ok
        split at this <;> omega
  refine Runs.bind (q := fun _ => True) (Runs.ite (fun _ => Runs.pure trivial) (fun h0 => ?_)) (fun l _ => fin l)
  have hl := (ht.list h0).1
  have h1 : (j + 1) * s.x.olistStride ≤ s.x.p * s.x.olistStride := Nat.mul_le_mul_right _ hj
  have h2 : j * s.x.olistStride ≤ (s.x.p - 1) * s.x.olistStride := Nat.mul_le_mul_right _ (by omega)
  refine Runs.bind (runs_oreadNat q (hl.part (by omega) (by omega))) (fun n _ => ?_)
  exact Runs.mapM_any _ _ (fun i hi => (runs_oreadNat q (hl.part (by omega) (by have := List.mem_range.1 hi; omega))).any)

omit sh in
theorem runs_tenderAct {j m : Nat} {r : TRow} (he : s.x.tdrEn = true) (hj : j < s.x.p) (hm : m < s.x.m) (hr : TRow.ok s r) :
    Runs (Keeps w b fx) (fun _ => True) (tenderAct w s j m r) := by
  have ht := hd.tender he
  cases r with
  | corr t =>
    have hr : t < s.x.rc := hr
    exact Runs.bind (runs_oreadNat q ((ht.z (by omega)).part (by omega) (by omega))) (fun _ _ => Runs.pure trivial)
  | outlier k =>
    have hr : k < s.k := hr
    have h1 : m * s.x.tdrActStride ≤ (s.x.m - 1) * s.x.tdrActStride := Nat.mul_le_mul_right _ (by omega)
    have h2 : (j + 1) * s.k ≤ s.x.p * s.k := Nat.mul_le_mul_right _ hj
    rw [Nat.add_mul] at h2
    have h3 : 2 * s.x.p * s.k = 2 * (s.x.p * s.k) := Nat.mul_assoc ..
    exact Runs.bind (runs_oreadNat q (ht.acts.part (by omega) (by omega))) (fun _ _ => Runs.pure trivial)

omit sh in
theorem runs_tenderAdd {j i n : Nat} {xs : List FVal} {acc : Nat} (hx : s.x.tdrEn = false → xs = []) (hl : xs.length ≤ 8) (hj : j < s.x.p)
    (hi : i < 4) (hn : n < 512) : Runs (Keeps w b fx) (fun _ => True) (tenderAdd w s j i n xs acc) := by
  unfold tenderAdd
  refine Runs.foldlM _ _ _ (fun tx htx acc _ => ?_) _ trivial
  have ht : tx.1 < xs.length := List.mem_range.1 (List.of_mem_zip htx).1
  have he : s.x.tdrEn = true := by
    cases e : s.x.tdrEn with
    | true => rfl
    | false => rw [hx e] at ht; simp at ht
  have h1 : (j + 1) * 32768 ≤ s.x.p * 32768 := Nat.mul_le_mul_right _ hj
  exact Runs.bind (runs_oreadNat q ((hd.tender he).wts.part (by omega) (by omega))) (fun _ _ => Runs.pure trivial)

/-! ### Output and passes -/

/-- The destination of the STREAM, where it has one, is at hand. -/
structure OutputAt (b : Dev) (w : Who) (s : StreamArgs) : Prop where
  ready : ∀ t, s.dst = some t → t.Ready b w ∧ t.ndim = 2 ∧ t.uncounted ∧ (s.x.outRnd ≠ 2 ∨ (b.claimedKey w).isSome = true)

omit sh in
theorem runs_outputOne (ho : OutputAt b w s) {m i n acc : Nat} (hi : i < 4) (hn : n < 512) :
    Runs (Keeps w b fx) (fun _ => True) (outputOne w s m i n acc) := by
  unfold outputOne
  cases e : s.dst with
  | none => exact Runs.pure trivial
  | some t =>
    obtain ⟨h1, h2, _, h4⟩ := ho.ready t e
    have near : s.x.chtab ≠ 0 → b.Near w (s.x.chtab + 8 * (s.x.outCh.getD i 0 + n)) 8 := fun h => hd.table h i n hi hn
    have mul : Runs (Keeps w b fx) (fun _ => True)
        (if s.x.chtab = 0 then pure f32One else oreadNat w (s.x.chtab + 8 * (s.x.outCh.getD i 0 + n)) 4) :=
      Runs.ite (fun _ => Runs.pure trivial) (fun h => (runs_oreadNat q ((near h).part (by omega) (by omega))).any)
    have bias : Runs (Keeps w b fx) (fun _ => True)
        (if s.x.chtab = 0 ∨ !s.x.biasEn then pure 0 else oreadNat w (s.x.chtab + 8 * (s.x.outCh.getD i 0 + n) + 4) 4) :=
      Runs.ite (fun _ => Runs.pure trivial) (fun h => (runs_oreadNat q ((near (fun h0 => h (.inl h0))).part (by omega) (by omega))).any)
    refine Runs.bind mul (fun a _ => Runs.bind bias (fun c _ => Runs.ite (fun hv => ?_) (fun _ => Runs.pure trivial)))
    exact runs_write q h1 (valid_padded (isValid_mem (by rw [h2]; rfl) hv)) (.inr h4)

theorem runs_streamPass (ho : OutputAt b w s) {j : Nat} (hj : j < s.x.p) : Runs (Keeps w b false) (fun _ => True) (streamPass w s j) := by
  unfold streamPass
  refine Runs.bind (runs_passHalves sh.map j) (fun hs hhs => ?_)
  subst hhs
  refine Runs.bind (runs_bringTile q sh hd hj) (fun _ _ => ?_)
  refine Runs.bind (runs_passTender q sh hd hj) (fun td htd => ?_)
  obtain ⟨htl, hte, hto⟩ := htd
  refine Runs.bind (runs_modify (fun _ => ⟨rfl, rfl, rfl⟩)) (fun _ _ => ?_)
  refine Runs.bind (Runs.forM _ _ (fun m hm => ?_)) (fun _ _ => runs_modDev (fun d hd => ((((hd.count ..).count ..).count ..).count ..).count ..))
  have hm := List.mem_range.1 hm
  refine Runs.bind (Runs.mapM_any _ _ (fun k hk => runs_actRaw q sh hd hj hm ?_)) (fun acts _ => ?_)
  · have := List.mem_range.1 hk
    split at this <;> omega
  refine Runs.bind (q := fun xs => xs.length = td.rows.length) ?_ (fun xs hxs => ?_)
  · refine (Runs.mapM (fun _ _ => True) _ _ (fun r hr => ?_)).weak (fun xs hx => hx.length_eq.symm)
    have he : s.x.tdrEn = true := by
      cases e : s.x.tdrEn with
      | true => rfl
      | false => rw [hte e] at hr; simp at hr
    exact runs_tenderAct q hd he hj hm (hto r hr)
  refine Runs.forM _ _ (fun ih hih => Runs.forM _ _ (fun h hh => Runs.forM _ _ (fun u hu => ?_)))
  have hsl := sh.slots (by omega) ih hih h hh
  obtain ⟨i, hi, rfl⟩ := List.mem_map.1 hih
  have hi := mem_taking hi
  have hu := List.mem_range.1 hu
  have hrow := sh.rows
  refine Runs.bind (runs_accStart q hi (by omega) (by omega)) (fun st _ => ?_)
  refine Runs.bind (runs_columnPass q sh hd hj hm hi rfl (by omega)) (fun a _ => ?_)
  refine Runs.bind (runs_tenderAdd q hd (fun e => ?_) (by omega) hj hi (by omega)) (fun a' _ => ?_)
  · rw [hte e] at hxs
    exact List.eq_nil_of_length_eq_zero hxs
  · exact Runs.ite (fun _ => runs_outputOne q hd ho hi (by omega)) (fun _ => runs_accWrite q hi (by omega) (by omega))


theorem runs_streamBody (ho : OutputAt b w s) {r : Run} (hr : Keeps w b false r) :
    ∃ r', (streamBody w s).run.run r = (.ok (), r') ∧ Keeps w b false r' := by
  have body : Runs (Keeps w b false) (fun _ => True) (do
      match ← attempt ((List.range s.x.p).forM (streamPass w s)) with
      | some (.hold h) => throw (.hold h)
      | e => do
        reportExcess w s (← get).excess
        match e with
        | some f => throw f
        | none => pure () : M Unit) := by
    refine Runs.bind (Runs.attempt (Runs.forM _ _ (fun j hj => runs_streamPass q sh hd ho (List.mem_range.1 hj)))) (fun e he => ?_)
    subst he
    refine Runs.bind Runs.get (fun r _ => ?_)
    refine Runs.bind (q := fun _ => True) ?_ (fun _ _ => Runs.pure trivial)
    unfold reportExcess
    dsimp only
    cases r.excess.find? (fun p => !p.2.isEmpty) with
    | none => exact Runs.pure trivial
    | some p =>
      refine Runs.bind (runs_modDev (fun d hd => hd.count ..)) (fun _ _ => Runs.bind (runs_raiseCarried _ _ _ _) (fun _ _ => ?_))
      refine Runs.bind runs_getDev (fun d _ => ?_)
      rw [sh.tid]
      cases d.findState 0 <;> exact Runs.pure trivial
  unfold streamBody
  obtain ⟨_, r1, e1, k1, _⟩ := runs_takeArrays (n := s.x.arrays) r hr
  cases e : s.dst with
  | none =>
    obtain ⟨_, r2, e2, k2, _⟩ := body r1 k1
    refine ⟨r2, ?_, k2⟩
    rw [run_bind, e1]
    exact e2
  | some t =>
    obtain ⟨h1, _, h3, _⟩ := ho.ready t e
    obtain ⟨r2, e2, k2⟩ := runs_withDest q body h1.hand.2.1 h3.1 h3.2 k1
    refine ⟨r2, ?_, k2⟩
    rw [run_bind, e1]
    exact e2

end

section
variable (q : b.Plain w)
include q

/-! ### Validation -/

theorem runs_described {v : W64} {role : Role} {t : Tensor} (h : b.Describes w v role t) {α : Type} {q' : α → Prop} {f : Tensor → M α}
    (hf : Runs (Keeps w b true) q' (f t)) : Runs (Keeps w b true) q' (do f (← tensor w (← addrWord v) role)) := by
  refine Runs.bind (runs_addrWord h.word) (fun a ha => ?_)
  subst ha
  refine Runs.bind (runs_tensor q h.desc h.read) (fun t' ht => ?_)
  rw [ht]
  exact hf

theorem runs_streamDest {out : Nat} {v : W64} {dst : Option Tensor} (h : b.DestAt w out v dst) :
    Runs (Keeps w b true) (fun t => t = dst) (streamDest w out v) := by
  unfold streamDest
  cases dst with
  | none =>
    rw [if_neg h.1]
    exact Runs.bind (Runs.require (by simp [h.2])) (fun _ _ => Runs.pure rfl)
  | some t =>
    rw [if_pos h.1]
    exact runs_described q h.2.1.toDescribes (Runs.pure rfl)

theorem runs_checkStream {k : Desc} {x : StreamExt} {act wt : Tensor} {dst : Option Tensor} (h : b.StreamReady w k x act wt dst) :
    Runs (Keeps w b true) (fun s => s = streamArgs x act wt dst (uniformMaps x)) (checkStream w x act wt dst) := by
  unfold checkStream
  refine Runs.bind runs_getDev (fun d hd => ?_)
  refine Runs.bind (Runs.require ?_) (fun _ _ => ?_)
  · rw [h.fields]
    unfold StreamExt.pmapOk
    simp [h.map]
  refine Runs.bind (runs_readMaps h.map) (fun ms hms => ?_)
  subst hms
  refine Runs.bind runs_getDev (fun d hd => ?_)
  refine Runs.bind (Runs.require ?_) (fun _ _ => ?_)
  · have ha := h.agree
    unfold StreamArgs.accepted at ha ⊢
    simp only [Bool.and_eq_true] at ha ⊢
    obtain ⟨⟨⟨⟨⟨h1, h2⟩, h3⟩, _⟩, h5⟩, h6⟩ := ha
    refine ⟨⟨⟨⟨⟨h1, h2⟩, ?_⟩, ?_⟩, ?_⟩, ?_⟩
    · unfold planesOk Tensor.wtPlaneOk at h3 ⊢
      simpa only [hd.pagesIn, hd.namesKept] using h3
    · unfold StreamArgs.inTime
      have := h.time
      rw [decide_eq_true_eq]
      have e1 : (streamArgs x act wt dst (uniformMaps x)).x = x := rfl
      rw [e1]
      split <;> omega
    · unfold StreamArgs.outOk at h5 ⊢
      simpa only [hd.pagesIn, hd.namesKept, hd.roundingOk, hd.inOwnStore] using h5
    · unfold StreamArgs.tenderOk at h6 ⊢
      simpa only [hd.namesKept] using h6
  have ds := h.data
  generalize hs : streamArgs x act wt dst (uniformMaps x) = s at ds
  have hsx : s.x = x := by rw [← hs]; rfl
  refine Runs.ite (fun he => ?_) (fun _ => Runs.pure rfl)
  rw [← hsx] at he
  have hl := (ds.tender he.1).list he.2
  refine Runs.bind (Runs.forM _ _ (fun j hj => ?_)) (fun _ _ => Runs.pure rfl)
  have hj := List.mem_range.1 hj
  rw [← hsx] at hj ⊢
  have h2 : j * s.x.olistStride ≤ (s.x.p - 1) * s.x.olistStride := Nat.mul_le_mul_right _ (by omega)
  refine Runs.bind (runs_oreadNat q (hl.1.part (by omega) (by omega))) (fun n hn => ?_)
  rw [hn rfl]
  exact Runs.require (by simp [hl.2 j hj])

theorem runs_parseStream {k : Desc} {x : StreamExt} {act wt : Tensor} {dst : Option Tensor} (h : b.StreamReady w k x act wt dst) :
    Runs (Keeps w b true) (fun s => s = streamArgs x act wt dst (uniformMaps x)) (parseStreamCmd w k) := by
  have hc := runs_checkStream q h
  have hf := h.form
  unfold parseStreamCmd
  refine Runs.bind runs_getDev (fun d hd => ?_)
  rw [hd.kx1 q]
  refine Runs.ite (fun hk => ?_) (fun hk => ?_)
  · rw [if_pos hk] at hf
    unfold parseMatmul
    refine runs_described q hf.source (runs_described q hf.weight ?_)
    refine Runs.bind (runs_streamDest q hf.dest) (fun t ht => ?_)
    subst ht
    refine Runs.bind (Runs.require hf.sizes) (fun _ _ => ?_)
    rw [hf.ext]
    exact hc
  · rw [if_neg hk] at hf
    unfold parseStream readStreamExt
    refine Runs.bind (Runs.require (by simp [hf.words])) (fun _ _ => ?_)
    refine Runs.bind (runs_addrWord hf.word) (fun a ha => ?_)
    subst ha
    refine Runs.bind (q := fun y => y = x) ?_ (fun y hy => ?_)
    · refine Runs.bind (Runs.require (by simp [hf.place.1])) (fun _ _ => ?_)
      refine Runs.bind (q := fun _ => True) ?_ (fun _ _ => ?_)
      · unfold nameRange
        refine Runs.bind runs_getDev (fun d hd => Runs.require ?_)
        rw [hd.namesKept, hf.place.2]; rfl
      · refine Runs.bind (runs_owords q hf.read) (fun ws hws => ?_)
        rw [hws rfl]
        exact Runs.bind (Runs.require hf.bits) (fun _ _ => Runs.pure hf.ext)
    · subst hy
      refine runs_described q hf.source (runs_described q hf.weight ?_)
      refine Runs.bind (runs_streamDest q hf.dest) (fun t ht => ?_)
      subst ht
      exact hc

end

end

theorem arrays_lt {d : Dev} {w : Who} {k : Desc} {x : StreamExt} {act wt : Tensor} {dst : Option Tensor} (h : d.StreamReady w k x act wt dst) :
    x.arrays < 16 := by
  have hf := h.form
  split at hf
  · rw [← hf.ext]
    change 15 < 16
    omega
  · rw [← hf.ext]
    change (wd _ 0).field 14 11 < 16
    unfold W64.field
    omega

/-- A STREAM or MATMUL with its operands at hand runs without a fault. -/
theorem stream_runs {d : Dev} {c x : Nat} {t : Ctx} {e : StreamExt} {act wt : Tensor} {dst : Option Tensor} (h9 : t.cur.w0.bit 9 = false)
    (q : (d.issued c x t).Plain (d.whoOf c x)) (h : (d.issued c x t).StreamReady (d.whoOf c x) t.cur e act wt dst) :
    (runCmd d c x t (fun w k => do streamBody w (← parseStreamCmd w k))).1 = .ok () := by
  refine runCmd_runs h9 ?_
  obtain ⟨v, r, e1, hk, hv⟩ := runs_parseStream q h _ (Keeps.start (d.whoOf c x) (d.issued c x t))
  subst hv
  have sh := StreamShape.of h.fields h.map h.tid (arrays_lt h) h.agree
  have ho : OutputAt (d.issued c x t) (d.whoOf c x) (streamArgs e act wt dst (uniformMaps e)) := by
    refine ⟨fun o he => ?_⟩
    have he : dst = some o := he
    subst he
    have hn : (d.issued c x t).Names (d.whoOf c x) (if (d.issued c x t).kx1 (d.whoOf c x) then t.cur.w3 else t.cur.w4) Role.destination o
        ∧ o.uncounted := by
      have hf := h.form
      split at hf
      · rename_i hk
        rw [if_pos hk]
        exact hf.dest.2
      · rename_i hk
        rw [if_neg hk]
        exact hf.dest.2
    have ha := h.agree
    unfold StreamArgs.accepted StreamArgs.outOk at ha
    simp only [Bool.and_eq_true] at ha
    have hq := ha.1.2.2
    rw [show (streamArgs e act wt (some o) (uniformMaps e)).dst = some o from rfl, Option.all_some] at hq
    simp only [Bool.and_eq_true, beq_iff_eq] at hq
    exact ⟨hn.1.data.ready (tensorAt_accepted hn.1.desc), hq.1.1.1.1.1.2, hn.2, rounding_key hq.1.2⟩
  obtain ⟨r', e', _⟩ := runs_streamBody q sh h.data ho hk.loose
  refine ⟨r', ?_⟩
  rw [run_bind, e1]
  exact e'

end Sys2Proof.Machine
end

