-- ==== Sys2Proof/Laws/Tables.lean ====
section
/-! SUPPORT. A TABLE whose tables are resident and whose operands are at hand runs, to its end or to a tile boundary. -/

namespace Sys2Proof.Machine

section
variable {w : Who} {b : Dev} {fx : Bool}

/-- What the checks say of an accepted TABLE at hand. -/
structure TableShape (b : Dev) (w : Who) (a : TableArgs) : Prop where
  src    : a.src.Ready b w ∧ a.src.ndim = 2
  dst    : a.dst.Ready b w ∧ a.dst.ndim = 2 ∧ a.dst.uncounted
  near   : a.spilled = false
  rnd    : a.outRnd ≠ 2 ∨ (b.claimedKey w).isSome = true
  tables : b.Near w a.tab a.tabBytes
  scales : a.ascaleEn = true → b.Near w a.ascale (4 * a.m)
  chans  : a.chtab ≠ 0 → b.Near w a.chtab (8 * a.n)

section
variable (q : b.Plain w) {a : TableArgs} (sh : TableShape b w a)
include q sh

omit q in
/-- A part of the run record of a channel block and run. -/
theorem near_record {cb r o n : Nat} (hc : cb < (a.n + 63) / 64) (hr : r < a.runs) (ho : o + n ≤ recordBytes a.planes) :
    b.Near w (a.record cb r + o) n := by
  have h1 : (cb + 1) * a.runs ≤ (a.n + 63) / 64 * a.runs := Nat.mul_le_mul_right _ hc
  have h2 : (cb * a.runs + r + 1) * recordBytes a.planes ≤ (a.n + 63) / 64 * a.runs * recordBytes a.planes :=
    Nat.mul_le_mul_right _ (by rw [Nat.add_mul] at h1; omega)
  rw [Nat.add_mul] at h2
  have h := sh.tables
  unfold TableArgs.tabBytes at h
  unfold TableArgs.record
  exact h.part (by omega) (by omega)

theorem runs_activation {k m : Nat} (hm : m < a.m) : Runs (Keeps w b fx) (fun _ => True) (activation w a k m) := by
  unfold activation
  refine Runs.ite (fun _ => Runs.pure trivial) (fun hk => ?_)
  refine Runs.bind (runs_read q sh.src.1 (padded_of (by rw [sh.src.2]; rfl) (fun i hi => ?_))) (fun _ _ => Runs.pure trivial)
  rw [sh.src.2] at hi
  unfold TableArgs.k at hk
  unfold TableArgs.m at hm
  rcases Nat.lt_or_ge i 1 with h | h
  · have : i = 0 := by omega
    subst this
    constructor <;> (simp only [List.getD_cons_zero]; push_cast; omega)
  · have : i = 1 := by omega
    subst this
    constructor <;> (simp only [List.getD_cons_succ, List.getD_cons_zero]; push_cast; omega)

theorem runs_planeRun {cb r c : Nat} {bits : List Bool} (hc : cb < (a.n + 63) / 64) (hr : r < a.runs) (hn : c < 64) :
    Runs (Keeps w b fx) (fun _ => True) (planeRun w a cb r c bits) := by
  unfold planeRun
  refine Runs.bind (q := fun _ => True) (Runs.foldlM _ _ _ (fun x hx acc _ => Runs.foldlM _ _ _ (fun i hi acc _ => ?_) _ trivial) _ trivial)
    (fun s _ => ?_)
  · have hx := List.mem_range.1 hx
    have hi := List.mem_range.1 hi
    have h1 : (x * a.planes + i + 1) * 1024 ≤ 32 * a.planes * 1024 := by
      refine Nat.mul_le_mul_right _ ?_
      have : (x + 1) * a.planes ≤ 32 * a.planes := Nat.mul_le_mul_right _ hx
      rw [Nat.add_mul] at this
      omega
    rw [Nat.add_mul] at h1
    have := near_record sh (o := 512 + (x * a.planes + i) * 1024 + 16 * c) (n := 16) hc hr (by unfold recordBytes; omega)
    exact Runs.bind (runs_oread q (this.part (by omega) (by omega))) (fun _ _ => Runs.pure trivial)
  · exact Runs.bind (runs_oreadNat q (near_record sh hc hr (by unfold recordBytes; omega))) (fun _ _ => Runs.pure trivial)

theorem runs_tableOut {m n : Nat} {acc : Int} (hm : m < a.m) (hn : n < a.n) : Runs (Keeps w b fx) (fun _ => True) (tableOut w a m n acc) := by
  unfold tableOut
  have sc : ∀ y : Nat, Runs (Keeps w b fx) (fun _ => True) (if a.ascaleEn = true then do return fmul y (← oreadNat w (a.ascale + 4 * m) 4) else pure y) :=
    fun y => Runs.ite (fun h => Runs.bind (runs_oreadNat q ((sh.scales h).part (by omega) (by omega))) (fun _ _ => Runs.pure trivial))
      (fun _ => Runs.pure trivial)
  have mul : Runs (Keeps w b fx) (fun _ => True) (if a.chtab = 0 then pure f32One else oreadNat w (a.chtab + 8 * n) 4) :=
    Runs.ite (fun _ => Runs.pure trivial) (fun h => (runs_oreadNat q ((sh.chans h).part (by omega) (by omega))).any)
  have bias : Runs (Keeps w b fx) (fun _ => True) (if a.chtab = 0 ∨ !a.biasEn then pure 0 else oreadNat w (a.chtab + 8 * n + 4) 4) :=
    Runs.ite (fun _ => Runs.pure trivial)
      (fun h => (runs_oreadNat q ((sh.chans (fun h0 => h (.inl h0))).part (by omega) (by omega))).any)
  refine Runs.bind (sc _) (fun y _ => Runs.bind mul (fun _ _ => Runs.bind bias (fun _ _ => Runs.ite (fun hv => ?_) (fun _ => Runs.pure trivial))))
  exact runs_write q sh.dst.1 (valid_padded (isValid_mem (by rw [sh.dst.2.1]; rfl) hv)) (.inr sh.rnd)

theorem runs_tableTile {seq cb g : Nat} (hc : cb < (a.n + 63) / 64) : Runs (Keeps w b fx) (fun _ => True) (tableTile w a seq cb g) := by
  unfold tableTile
  refine Runs.bind (Runs.forM _ _ (fun r _ => ?_)) (fun _ _ => ?_)
  · unfold stageRecord
    rw [sh.near]
    exact Runs.pure trivial
  refine Runs.bind (q := fun _ => True) (Runs.mapM_any _ _ (fun l hl => ?_)) (fun _ _ =>
    runs_modDev (fun d hd => ((((hd.count ..).count ..).count ..).count ..).count ..))
  have hm : 32 * g + l < a.m := by simpa using (List.mem_filter.1 hl).2
  refine Runs.bind (q := fun _ => True) (Runs.mapM_any _ _ (fun r _ => ?_)) (fun pl _ => ?_)
  · exact Runs.bind (q := fun _ => True) (Runs.mapM_any _ _ (fun i _ => runs_activation q sh hm)) (fun _ _ => Runs.pure trivial)
  refine Runs.bind (Runs.forM _ _ (fun c hcm => ?_)) (fun _ _ => Runs.pure trivial)
  have hcm := List.mem_range.1 hcm
  refine Runs.bind (q := fun _ => True) (Runs.foldlM _ _ _ (fun rp hrp acc _ => Runs.foldlM _ _ _ (fun jp _ acc _ => ?_) _ trivial) _ trivial)
    (fun acc _ => runs_tableOut q sh hm (by omega))
  have hr : rp.1 < a.runs := List.mem_range.1 (List.of_mem_zip hrp).1
  exact Runs.bind (runs_planeRun q sh hc hr (by omega)) (fun _ _ => Runs.pure trivial)

theorem runs_tableTiles {lo hi : Nat} (h : hi ≤ a.tiles) : Runs (Keeps w b fx) (fun _ => True) (tableTiles w a lo hi) := by
  unfold tableTiles
  refine Runs.forM _ _ (fun i hm => runs_tableTile q sh ?_)
  have hm := List.mem_range.1 hm
  have hg : lo + i < (a.n + 63) / 64 * a.groups := by unfold TableArgs.tiles at h; omega
  refine (Nat.div_lt_iff_lt_mul ?_).2 hg
  rcases Nat.eq_zero_or_pos a.groups with e | e
  · rw [e] at hg; omega
  · exact e

/-- The tiles of a TABLE run, and a TABLE with tiles left notes where it stands. -/
theorem runs_tableRun {lo hi : Nat} (h : hi ≤ a.tiles) {r : Run} (hr : Keeps w b fx r) :
    ∃ r', (tableRun w a lo hi).run.run r = (.ok (), r') ∧ Keeps w b false r' := by
  unfold tableRun
  split
  · obtain ⟨r1, e1, k1⟩ := runs_attempt (x := do tableTiles w a lo hi; flushWrites w) (p := Keeps w b fx) (p' := Keeps w b false) (fun r hr => by
      obtain ⟨_, r1, e1, k1, _⟩ := runs_tableTiles q sh (lo := lo) h r hr
      obtain ⟨r2, e2, k2⟩ := runs_flushWrites q k1
      exact ⟨r2, by rw [run_bind, e1]; exact e2, k2⟩) r hr
    rw [run_bind, e1]
    dsimp only
    have : Runs (Keeps w b false) (fun _ => True) (do
        let tally := (← get).tally
        modify (fun r => { r with tally := Tally.zeroed })
        modDev (fun d => d.modCtx w.core w.ctx (fun k => { k with table := some { args := a, next := hi, tally := tally } })) : M Unit) :=
      Runs.bind Runs.get (fun _ _ => Runs.bind (runs_modify (fun _ => ⟨rfl, rfl, rfl⟩)) (fun _ _ => runs_modDev (fun d hd => hd.modCtx _ _ _ (fun _ => rfl))))
    obtain ⟨_, r2, e2, k2, _⟩ := this r1 k1
    exact ⟨r2, e2, k2⟩
  · exact runs_withDest q (runs_tableTiles q sh h) sh.dst.1.hand.2.1 sh.dst.2.2.1 sh.dst.2.2.2 hr

theorem runs_tableBody {r : Run} (hr : Keeps w b true r) : ∃ v r', (tableBody w a).run.run r = (.ok v, r') := by
  have hset : Runs (Keeps w b true) (fun _ => True) (modDev (fun d => d.setb (pgTbl w.core) 0x108 1 a.spilled)) :=
    runs_modDev (fun d hd => hd.step (Same.engineStatus w d (by unfold pgTbl; omega) _) rfl rfl)
  unfold tableBody
  obtain ⟨_, r1, e1, k1, _⟩ := hset r hr
  have k2 : Keeps w b true { r1 with dev := r1.dev.takeFree.1 } := k1.withDev k1.dev.takeFree
  obtain ⟨r3, e3, k3⟩ := runs_tableRun q sh (lo := 0) (hi := r1.dev.takeFree.2.toNat % (a.tiles + 1)) (by
    have : r1.dev.takeFree.2.toNat % (a.tiles + 1) < a.tiles + 1 := Nat.mod_lt _ (Nat.succ_pos a.tiles)
    omega) k2
  refine ⟨r1.dev.takeFree.2.toNat % (a.tiles + 1) == a.tiles, r3, ?_⟩
  rw [run_bind, e1]
  dsimp only
  rw [run_bind, run_getDev]
  dsimp only
  rw [run_bind, run_setDev]
  dsimp only
  rw [run_bind, e3]
  rfl

end

section
variable (q : b.Plain w)
include q

theorem Agrees.tblReg {d : Dev} (h : Agrees w b fx d) (hi lo : Nat) : d.regf (pgTbl w.core) 0x100 hi lo = b.regf (pgTbl w.core) 0x100 hi lo := by
  have hc : w.core < 8 := by have := q.present; unfold Dev.corePresent at this; simp at this; omega
  exact h.same.regf (by decide) (by decide) (by unfold pgTbl pgTrc; omega) (.inl (by decide)) hi lo

theorem runs_parseTable {k : Desc} {src dst : Tensor} (h : b.TableReady w k src dst) :
    Runs (Keeps w b true) (fun a => a = b.tableAt k src dst) (parseTable w k) := by
  unfold parseTable
  refine Runs.bind (Runs.require h.words) (fun _ _ => ?_)
  refine Runs.bind (runs_addrWord h.word) (fun a ha => ?_)
  subst ha
  refine Runs.bind (Runs.require (by simp [h.place.1])) (fun _ _ => ?_)
  refine Runs.bind (q := fun _ => True) ?_ (fun _ _ => ?_)
  · unfold nameRange
    refine Runs.bind runs_getDev (fun d hd => Runs.require ?_)
    rw [hd.namesKept, h.place.2]; rfl
  refine Runs.bind (runs_owords q h.read) (fun ws hws => ?_)
  rw [hws rfl]
  change Runs _ _ (do
    require (tableFields (← getDev) w.core (b.tableWords k))
    let src ← tensor w (wd (b.tableWords k) 1).toNat { Role.source with table := true }
    let dst ← tensor w (wd (b.tableWords k) 3).toNat { Role.destination with table := true }
    let d ← getDev
    let a := tableArgs (b.tableWords k) src dst true
    let a := tableArgs (b.tableWords k) src dst (d.tabResident w a.tab a.tabBytes)
    require (a.accepted d w src.fmt)
    return a : M TableArgs)
  refine Runs.bind runs_getDev (fun d hd => ?_)
  refine Runs.bind (Runs.require ?_) (fun _ _ => ?_)
  · have := h.fields
    unfold tableFields at this ⊢
    rw [hd.tblReg q]
    exact this
  refine Runs.bind (runs_tensor q h.source.1 h.source.2) (fun t ht => ?_)
  subst ht
  refine Runs.bind (runs_tensor q h.dest.1 h.dest.2) (fun t' ht => ?_)
  subst ht
  refine Runs.bind runs_getDev (fun d hd => ?_)
  have hst : d.stageBytes w.core = b.stageBytes w.core := by unfold Dev.stageBytes; rw [hd.tblReg q]
  have hres : d.tabResident w (b.tableAt k t t').tab (b.tableAt k t t').tabBytes = true := by
    rw [← h.area]
    unfold Dev.tabResident
    rw [hst, hd.pagesIn]
  have hacc : (b.tableAt k t t').accepted d w t.fmt = true := by
    rw [← h.agree]
    unfold TableArgs.accepted
    simp only [hd.inOwnStore, hd.roundingOk, hd.pagesIn, hd.namesKept, hst]
  have e : tableArgs (b.tableWords k) t t' (d.tabResident w (tableArgs (b.tableWords k) t t' true).tab (tableArgs (b.tableWords k) t t' true).tabBytes)
      = b.tableAt k t t' := by
    change tableArgs (b.tableWords k) t t' (d.tabResident w (b.tableAt k t t').tab (b.tableAt k t t').tabBytes) = _
    rw [hres]
    rfl
  dsimp only
  rw [e]
  exact Runs.bind (Runs.require hacc) (fun _ _ => Runs.pure rfl)

end

/-- What the checks say of the shapes and the rounding of a TABLE. -/
theorem TableArgs.accepted_shape {a : TableArgs} {d : Dev} {n : Nat} (h : a.accepted d w n = true) :
    a.src.ndim = 2 ∧ a.dst.ndim = 2 ∧ d.roundingOk w a.outRnd (a.dst.gs.foldl (· * ·) 1) true = true := by
  unfold TableArgs.accepted at h
  dsimp only at h
  generalize d.roundingOk w a.outRnd (a.dst.gs.foldl (· * ·) 1) true = x at *
  generalize a.src.ndim = y at *
  generalize a.dst.ndim = z at *
  simp only [Bool.and_eq_true, beq_iff_eq] at h
  exact ⟨by tauto, by tauto, by tauto⟩

theorem tableFields_fmt {d : Dev} {c : Nat} {ws : List W64} (h : tableFields d c ws = true) :
    (Fmt.ofCode ((wd ws 0).field 11 6)).isSome = true ∧ (Fmt.ofCode ((wd ws 0).field 17 12)).isSome = true := by
  unfold tableFields at h
  simp only [Bool.and_eq_true, Bool.or_eq_true, beq_iff_eq] at h
  refine ⟨?_, h.1.2⟩
  rcases h.1.1.2 with h | h <;> rw [h] <;> rfl

theorem accepted_pads {t : Tensor} {d : Dev} {r : Role} (h : t.accepted d r = true) : t.padsOk = true := by
  unfold Tensor.accepted at h
  simp only [Bool.and_eq_true] at h
  exact h.1.2

theorem TableShape.of {k : Desc} {src dst : Tensor} (h : b.TableReady w k src dst) : TableShape b w (b.tableAt k src dst) := by
  have ha := TableArgs.accepted_shape h.agree
  have hf := tableFields_fmt h.fields
  have ps : src.padsOk = true := accepted_pads (tensorAt_accepted h.source.1)
  have pd : dst.padsOk = true := accepted_pads (tensorAt_accepted h.dest.1)
  exact ⟨⟨⟨h.input, hf.1, ps⟩, ha.1⟩, ⟨⟨h.output, hf.2, pd⟩, ha.2.1, h.plain⟩, rfl, rounding_key ha.2.2, h.tables, h.scales, h.chans⟩

end

/-- A TABLE with its tables resident and its operands at hand runs without a fault: to its end, or to a tile boundary. -/
theorem table_runs {d : Dev} {c x : Nat} {t : Ctx} {src dst : Tensor} (h9 : t.cur.w0.bit 9 = false)
    (q : (d.issued c x t).Plain (d.whoOf c x)) (h : (d.issued c x t).TableReady (d.whoOf c x) t.cur src dst) :
    ∃ v, (runCmd d c x t (fun w k => do tableBody w (← parseTable w k))).1 = .ok v := by
  obtain ⟨a, r, e1, hk, ha⟩ := runs_parseTable q h _ (Keeps.start (d.whoOf c x) (d.issued c x t))
  subst ha
  obtain ⟨v, r', e2⟩ := runs_tableBody q (TableShape.of h) hk
  refine ⟨v, runCmd_runs h9 ⟨r', ?_⟩⟩
  rw [run_bind, e1]
  exact e2

end Sys2Proof.Machine
end

