-- ==== Sys2Proof/Laws/TaskCommands.lean ====
section
/-! SUPPORT. COLL, UPD, WAIT and the speculation commands with their operands at hand run to their end. -/

namespace Sys2Proof.Machine

section
variable {w : Who} {b d : Dev} {fx : Bool}

theorem runs_nameRange {va n : Nat} {t : Bool} (h : b.namesKept va n t = false) : Runs (Keeps w b true) (fun _ => True) (nameRange va n t) := by
  unfold nameRange
  refine Runs.bind runs_getDev (fun d hd => Runs.require ?_)
  rw [hd.namesKept, h]; rfl

section
variable (q : b.Plain w)
include q

/-! ### COLL -/

theorem runs_parseColl {k : Desc} {a : CollArgs} (h : b.CollReady w k a) : Runs (Keeps w b true) (fun x => x = a) (parseColl w k) := by
  have ha := h.args
  have hp := h.place
  have hr := h.read
  have hb := h.bits
  have meshes : ∀ d, Agrees w b true d → ∀ i, i < 16 → d.meshOf i = b.meshOf i := fun d hd i hi => hd.same.meshOf i hi
  unfold parseColl
  refine Runs.bind (Runs.require h.words) (fun _ _ => ?_)
  refine Runs.bind (runs_addrWord h.word) (fun va hva => ?_)
  subst hva
  refine Runs.bind runs_getDev (fun d hd => ?_)
  rw [hd.kx1 q]
  have hm : a.mesh < 16 := by
    rw [← ha]
    split
    · exact Nat.zero_lt_succ _
    · change (wd _ 0).field 19 16 < 16
      unfold W64.field
      omega
  have ok : ∀ e, Agrees w b true e → collOk e a = true := fun e he => by
    have := h.agree
    unfold collOk at this ⊢
    rw [meshes e he _ hm]
    simpa only [he.same.halfPresent] using this
  cases hk : b.kx1 w with
  | true =>
    simp only [hk, if_true] at ha hp hr
    refine Runs.bind (Runs.require rfl) (fun _ _ => ?_)
    refine Runs.bind (runs_nameRange hp.2) (fun _ _ => ?_)
    refine Runs.bind (runs_owords q hr) (fun ws hws => ?_)
    rw [hws rfl]
    refine Runs.bind runs_getDev (fun e he => ?_)
    have hx : kx1Coll e (b.vwords (k.w1.field 47 0) 4) = a := by
      rw [← ha]
      unfold kx1Coll
      rw [meshes e he 0 (by decide)]
    dsimp only
    rw [if_pos rfl]
    change Runs _ _ (do
      require ((true || collReserved (b.vwords (k.w1.field 47 0) 4)) && collOk e (kx1Coll e (b.vwords (k.w1.field 47 0) 4)))
      return kx1Coll e (b.vwords (k.w1.field 47 0) 4) : M CollArgs)
    rw [hx]
    exact Runs.bind (Runs.require (by rw [ok e he]; rfl)) (fun _ _ => Runs.pure rfl)
  | false =>
    simp only [hk, Bool.false_eq_true, if_false, false_or] at ha hp hr hb
    refine Runs.bind (Runs.require (by simp [hp.1])) (fun _ _ => ?_)
    refine Runs.bind (runs_nameRange hp.2) (fun _ _ => ?_)
    refine Runs.bind (runs_owords q hr) (fun ws hws => ?_)
    rw [hws rfl]
    refine Runs.bind runs_getDev (fun e he => ?_)
    change Runs _ _ (do
      require ((false || collReserved (b.vwords (k.w1.field 47 0) 8)) && collOk e (collArgsOf (b.vwords (k.w1.field 47 0) 8)))
      return collArgsOf (b.vwords (k.w1.field 47 0) 8) : M CollArgs)
    rw [ha, hb]
    exact Runs.bind (Runs.require (by rw [ok e he]; rfl)) (fun _ _ => Runs.pure rfl)

/-! ### UPD -/

omit q in
theorem Agrees.updOk (hd : Agrees w b true d) (ws : List W64) (a : UpdArgs) (s : Bool) (ha : a.half ≤ 1) : updOk d ws a s = updOk b ws a s := by
  have hreg : d.regf (pgUpd a.half) 0x108 16 0 = b.regf (pgUpd a.half) 0x108 16 0 :=
    hd.same.regf (by decide) (by decide) (by unfold pgUpd pgTrc; omega) (.inr (by unfold pgUpd; omega)) 16 0
  unfold Machine.updOk
  rw [hreg, hd.same.halfPresent, hd.same.keys, hd.namesKept]

theorem runs_dropoutTensors {ws : List W64} {t u : Tensor} (h : b.DropoutReady w ws t u) :
    Runs (Keeps w b true) (fun st => st = (t, u)) (do dropoutTensors w (← addrWord (wd ws 1)) (← addrWord (wd ws 2))) := by
  refine Runs.bind (runs_addrWord h.source.word) (fun va hva => ?_)
  subst hva
  refine Runs.bind (runs_addrWord h.dest.word) (fun va hva => ?_)
  subst hva
  unfold dropoutTensors
  refine Runs.bind (runs_tensor q h.source.desc h.source.read) (fun t' ht => ?_)
  subst ht
  refine Runs.bind (runs_tensor q h.dest.desc h.dest.read) (fun u' hu => ?_)
  subst hu
  refine Runs.bind (runs_ownStore h.own.1) (fun y hy => ?_)
  subst hy
  refine Runs.bind (Runs.require rfl) (fun _ _ => Runs.bind (runs_ownStore h.own.2) (fun y hy => ?_))
  subst hy
  refine Runs.bind (Runs.require rfl) (fun _ _ => Runs.bind (Runs.require h.shape) (fun _ _ => ?_))
  exact Runs.bind (Runs.require (decide_eq_true h.elems)) (fun _ _ => Runs.pure rfl)

/-- What the validation of a UPD leaves: its arguments, with the tensors of a DROPOUT. -/
def UpdArgs.Valid (b : Dev) (w : Who) (ws : List W64) (a0 a : UpdArgs) : Prop :=
  (a0.op ≠ 4 ∧ a = a0) ∨ (a0.op = 4 ∧ ∃ t u, a = a0.tensors (some t) (some u) ∧ b.DropoutReady w ws t u)

theorem runs_parseUpd {k : Desc} {op : Nat} (h : b.UpdReady w k op) :
    Runs (Keeps w b true) (UpdArgs.Valid b w (b.updWords k) (updArgsOf (b.updWords k) (b.queueOf w))) (parseUpd w k) := by
  unfold parseUpd
  refine Runs.bind (Runs.require h.words) (fun _ _ => ?_)
  refine Runs.bind (runs_addrWord h.word) (fun va hva => ?_)
  subst hva
  refine Runs.bind (Runs.require (by simp [h.place.1])) (fun _ _ => ?_)
  refine Runs.bind (runs_nameRange h.place.2) (fun _ _ => ?_)
  refine Runs.bind (runs_owords q h.read) (fun ws hws => ?_)
  rw [hws rfl]
  refine Runs.bind runs_getDev (fun d hd => ?_)
  dsimp only
  rw [hd.queueOf]
  have hk := h.kind
  have hag := h.agree
  have hdr := h.drop
  have hhalf : (updArgsOf (b.updWords k) (b.queueOf w)).half ≤ 1 := by
    change (wd (b.updWords k) 0).field 4 4 ≤ 1
    unfold W64.field
    omega
  change Runs _ (UpdArgs.Valid b w (b.updWords k) (updArgsOf (b.updWords k) (b.queueOf w))) (do
    require (updOk d (b.updWords k) (updArgsOf (b.updWords k) (b.queueOf w)) (d.specOf w).isSome)
    if (updArgsOf (b.updWords k) (b.queueOf w)).op = 4 then do
      let st ← dropoutTensors w (← addrWord (wd (b.updWords k) 1)) (← addrWord (wd (b.updWords k) 2))
      return (updArgsOf (b.updWords k) (b.queueOf w)).tensors (some st.1) (some st.2)
    else return updArgsOf (b.updWords k) (b.queueOf w) : M UpdArgs)
  generalize updArgsOf (b.updWords k) (b.queueOf w) = a at *
  generalize b.updWords k = ws at *
  refine Runs.bind (Runs.require ?_) (fun _ _ => ?_)
  · rw [hd.same.specOf q.actual, hd.updOk _ _ _ hhalf]
    exact hag
  refine Runs.ite (fun h4 => ?_) (fun h4 => Runs.pure (.inl ⟨h4, rfl⟩))
  obtain ⟨t, u, hdo⟩ := hdr (hk.symm.trans h4)
  simp only [← bind_assoc]
  refine Runs.bind (runs_dropoutTensors q hdo) (fun st hst => ?_)
  subst hst
  exact Runs.pure (.inr ⟨h4, t, u, rfl, hdo⟩)

omit q in
/-- A position of a destination is one of a source of the same local extents. -/
theorem same_ls_padded {src dst : Tensor} (h : src.ls = dst.ls) {p : List Int} (hp : p ∈ dst.validPositions) : p ∈ src.paddedPositions := by
  rw [mem_valid] at hp
  rw [mem_padded]
  unfold Tensor.ls at h
  generalize src.dims = a at *
  generalize dst.dims = e at *
  induction hp generalizing a with
  | nil => cases a with
    | nil => exact .nil
    | cons _ _ => simp at h
  | cons h1 _ ih =>
    cases a with
    | nil => simp at h
    | cons x a =>
      simp only [List.map_cons, List.cons.injEq] at h
      have hv := Dim.v_le
      refine .cons ?_ (ih a h.2)
      rename_i y _ _ _ _
      have := y.v_le
      constructor <;> push_cast <;> omega

theorem runs_updDropout {ws : List W64} {a : UpdArgs} {t u : Tensor} (h : b.DropoutReady w ws t u) (hk : (KV.find? b.keys a.handle).isSome = true)
    {r : Run} (hr : Keeps w b true r) : ∃ r', (updDropout w (a.tensors (some t) (some u))).run.run r = (.ok (), r') := by
  obtain ⟨k, hk⟩ := Option.isSome_iff_exists.1 hk
  have ht := h.source.data.ready (tensorAt_accepted h.source.desc)
  have hu := h.dest.data.ready (tensorAt_accepted h.dest.desc)
  have hs := h.shape
  simp only [Bool.and_eq_true, beq_iff_eq] at hs
  unfold updDropout
  rw [run_bind, run_getDev]
  dsimp only
  rw [hr.dev.same.keys]
  change ∃ r', (match some t, some u, KV.find? b.keys a.handle with
    | some src, some dst, some k => _
    | _, _, _ => invalid : M Unit).run.run r = (.ok (), r')
  rw [hk]
  refine (runs_withDest q (Runs.bind (Runs.forM _ _ (fun p hp => ?_)) (fun _ _ => runs_modDev (fun d hd => (hd.count ..).count ..)))
    hu.hand.2.1 h.plain.1 h.plain.2 hr).imp (fun r' h => h.1)
  refine Runs.bind (runs_read q ht (same_ls_padded hs.1.2 hp)) (fun x _ => Runs.bind runs_getDev (fun d _ => ?_))
  exact runs_write q hu (valid_padded hp) (.inr (.inl (by decide)))

omit q in
/-- Pages do not depend on the key registry. -/
theorem NearPage.keys {p f : Nat} (h : b.NearPage w p f) (l : List (Nat × KeyEntry)) : ({ b with keys := l } : Dev).NearPage w p f :=
  ⟨h.on, h.held, h.walk, h.fresh, h.tables, h.low, h.high⟩

omit q in
theorem Near.keys {va n : Nat} (h : b.Near w va n) (l : List (Nat × KeyEntry)) : ({ b with keys := l } : Dev).Near w va n := fun p h1 h2 => by
  obtain ⟨f, hf⟩ := h p h1 h2
  exact ⟨f, NearPage.keys hf l⟩

omit q in
theorem Keeps.keys {r : Run} (h : Keeps w b fx r) (l : List (Nat × KeyEntry)) :
    Keeps w { b with keys := l } fx { r with dev := { r.dev with keys := l } } := by
  have hr := congrArg (fun e : Dev => { e with keys := l }) h.dev.same.rest
  exact ⟨⟨⟨hr, h.dev.same.regs, h.dev.same.ctx, h.dev.same.far, h.dev.same.sound⟩, h.dev.mem, h.dev.poison⟩, h.memo,
    fun x hx => ⟨Near.keys (h.buf x hx).1 l, (h.buf x hx).2⟩⟩

theorem runs_updClaim {a : UpdArgs} (h : b.Near w a.result 8) {r : Run} (hr : Keeps w b true r) :
    ∃ r', (updClaim w a).run.run r = (.ok (), r') := by
  have fin : ∀ (b' : Dev) (q' : b'.Plain w) (h' : b'.Near w a.result 8) (v : Nat) (r : Run), Keeps w b' true r →
      ∃ r', (do vput a.result (leBytes 8 v); flushWrites w : M Unit).run.run r = (.ok (), r') := fun b' q' h' v r hr => by
    obtain ⟨_, r1, e1, k1, _⟩ := runs_vput (fx := true) (bs := leBytes 8 v) (by rw [leBytes_length]; exact h') r hr
    obtain ⟨r2, e2, _⟩ := runs_flushWrites q' k1
    exact ⟨r2, by rw [run_bind, e1]; exact e2⟩
  unfold updClaim
  rw [run_bind, run_getDev]
  dsimp only
  generalize claimRefusal r.dev.keys a.key = x
  generalize freeHandle r.dev.keys = y
  rcases x with _ | ⟨rs, hd⟩
  · rcases y with _ | hn
    · obtain ⟨r2, e2, _⟩ := runs_flushWrites q hr
      exact ⟨r2, e2⟩
    · obtain ⟨r2, e2⟩ := fin { b with keys := KV.set r.dev.keys hn a.key } ⟨q.queue, q.present, q.whole, q.direct, q.here, q.actual, q.sound⟩
        (Near.keys h _) hn _ (hr.keys (KV.set r.dev.keys hn a.key))
      exact ⟨r2, e2⟩
  · obtain ⟨_, r1, e1, k1, _⟩ := runs_raiseCarried (w := w) (b := b) (fx := true) pgSys 0x0503 (rs * 2 ^ 30 + hd) 0 r hr
    obtain ⟨r2, e2⟩ := fin b q h (2 ^ 63 + rs * 2 ^ 61 + hd) r1 k1
    refine ⟨r2, ?_⟩
    rw [run_bind, e1]
    exact e2

/-- The body of an accepted UPD runs; all but APPLY are complete with it. -/
theorem runs_updBody {k : Desc} {op : Nat} (h : b.UpdReady w k op) {a : UpdArgs}
    (ha : UpdArgs.Valid b w (b.updWords k) (updArgsOf (b.updWords k) (b.queueOf w)) a) {r : Run} (hr : Keeps w b true r) :
    ∃ v r', (updBody w a).run.run r = (.ok v, r') ∧ (op ≠ 0 → v = true)
      ∧ (op = 0 → v = !(r'.dev.upd a.half).waiting.any (fun x => x.who == some (w.core, w.ctx))) := by
  have hk := h.kind
  have hag := h.agree
  have hcl := h.claim
  generalize updArgsOf (b.updWords k) (b.queueOf w) = a0 at *
  unfold updBody
  rcases ha with ⟨h4, rfl⟩ | ⟨h4, t, u, rfl, hdo⟩
  · rcases e : a.op with _ | _ | _ | _ | _ | _ | n
    · exact ⟨_, _, rfl, fun h => absurd (hk.symm.trans e) h, fun _ => rfl⟩
    · exact ⟨true, _, rfl, fun _ => rfl, fun h => absurd (e.symm.trans (hk.trans h)) (by omega)⟩
    · exact ⟨true, _, rfl, fun _ => rfl, fun h => absurd (e.symm.trans (hk.trans h)) (by omega)⟩
    · exact ⟨true, _, rfl, fun _ => rfl, fun h => absurd (e.symm.trans (hk.trans h)) (by omega)⟩
    · exact absurd e h4
    · obtain ⟨r', e'⟩ := runs_updClaim q (hcl (hk.symm.trans e)) hr
      refine ⟨true, r', ?_, fun _ => rfl, fun h => absurd (e.symm.trans (hk.trans h)) (by omega)⟩
      change (do updClaim w a; return true : M Bool).run.run r = _
      rw [run_bind, e']; rfl
    · exact ⟨true, _, rfl, fun _ => rfl, fun h => absurd (e.symm.trans (hk.trans h)) (by omega)⟩
  · have hop : (a0.tensors (some t) (some u)).op = 4 := h4
    rw [hop]
    have hkey : (KV.find? b.keys a0.handle).isSome = true := by
      unfold updOk at hag
      rw [h4] at hag
      simp only [Bool.and_eq_true] at hag
      have := hag.2.2
      cases hf : KV.find? b.keys a0.handle with
      | none => rw [hf] at this; cases this
      | some _ => rfl
    obtain ⟨r', e'⟩ := runs_updDropout q hdo hkey hr
    refine ⟨true, r', ?_, fun _ => rfl, fun h => absurd (h4.symm.trans (hk.trans h)) (by omega)⟩
    change (do updDropout w (a0.tensors (some t) (some u)); return true : M Bool).run.run r = _
    rw [run_bind, e']; rfl

/-! ### WAIT -/

omit q in
theorem Agrees.generation (hd : Agrees w b fx d) {n : Nat} (hn : n < 64) : d.regf (pgFet w.core) (0x600 + 8 * n) 62 0 = b.regf (pgFet w.core) (0x600 + 8 * n) 62 0 := by
  have h1 : pgFet w.core ≠ pgTrc := by unfold pgFet pgTrc; omega
  exact hd.same.regf (by omega) (by omega) h1 (.inl (by omega)) 62 0

omit q in
theorem runs_parseWait {k : Desc} (h : b.WaitReady w k) : Runs (Keeps w b true)
    (fun a => a.cond = k.arg 34 32 ∧ a.watch = k.arg 40 35 ∧ a.value = k.w2 ∧ a.mask = k.w3
      ∧ (k.arg 34 32 ≤ 2 → a.va = k.w1.field 47 0)) (parseWait w k) := by
  unfold parseWait
  refine Runs.bind (Runs.require h.words) (fun _ _ => Runs.bind (Runs.require (decide_eq_true h.cond)) (fun _ _ => ?_))
  by_cases hc : k.arg 34 32 ≤ 2
  · obtain ⟨h1, h2, h3, _⟩ := h.word hc
    simp only [if_pos hc]
    refine Runs.bind (runs_addrWord h1) (fun va hva => ?_)
    subst hva
    refine Runs.bind (Runs.require (by simp [h2])) (fun _ _ => Runs.bind (runs_nameRange h3) (fun _ _ => ?_))
    exact Runs.pure ⟨rfl, rfl, rfl, rfl, fun _ => rfl⟩
  · simp only [if_neg hc]
    refine Runs.bind (Runs.pure (q := fun v => v = 0) rfl) (fun v hv => ?_)
    subst hv
    exact Runs.bind (Runs.require rfl) (fun _ _ => Runs.pure ⟨rfl, rfl, rfl, rfl, fun h => absurd h hc⟩)

omit q in
theorem Agrees.dropTaskCopies (h : Agrees w b fx d) : Agrees w b fx (d.dropTaskCopies w.core w.ctx) := by
  unfold Dev.dropTaskCopies
  extract_lets gone
  split
  · exact h
  · exact (h.step (Same.modCore w d _ _ (fun _ => rfl)) rfl rfl).count ..

theorem runs_waitWord {va : Nat} (h : b.Near w va 8) :
    Runs (Keeps w b true) (fun v => v = BitVec.ofNat 64 (leNat (b.vbytes va 8))) (waitWord w va) := by
  unfold waitWord
  exact Runs.bind (runs_vread q h) (fun bs hbs => Runs.pure (by rw [hbs rfl]))

/-- A test of a WAIT answers its condition. -/
theorem runs_waitTest {k : Desc} (h : b.WaitReady w k) : Runs (Keeps w b true) (fun v => v = b.waitMet w k) (waitTest w k) := by
  unfold waitTest
  refine Runs.bind (runs_parseWait h) (fun a ha => ?_)
  obtain ⟨h1, h2, h3, h4, h5⟩ := ha
  refine Runs.bind (q := fun v => v = b.waitMet w k) ?_ (fun v hv => ?_)
  · have hc := h.cond
    have word : ∀ f : W64 → Bool, k.arg 34 32 ≤ 2 → Runs (Keeps w b true)
        (fun v => v = f (BitVec.ofNat 64 (leNat (b.vbytes (k.w1.field 47 0) 8)))) (do let x ← waitWord w a.va; return f x) := fun f hf => by
      rw [h5 hf]
      exact Runs.bind (runs_waitWord q (h.word hf).2.2.2) (fun v hv => Runs.pure (by rw [hv]))
    have hw : k.arg 40 35 < 64 := by unfold Desc.arg W64.field; omega
    unfold waitHolds Dev.waitMet
    rw [h1, h2, h3, h4]
    generalize k.arg 34 32 = c at *
    match c, hc with
    | 0, _ => exact word _ (by omega)
    | 1, _ => exact word _ (by omega)
    | 2, _ => exact word (fun x => decide (((x &&& k.w3) - k.w2).toNat < 2 ^ 63)) (by omega)
    | 3, _ => exact Runs.bind runs_getDev (fun d hd => Runs.pure (by simp only [hd.generation hw]))
    | 4, _ => exact Runs.bind runs_getDev (fun d hd => Runs.pure (by simp only [hd.generation hw]))
  · subst hv
    refine Runs.ite (fun _ => Runs.bind (runs_modDev (fun d hd => ?_)) (fun _ _ => Runs.pure rfl))
      (fun _ => Runs.bind (runs_modDev (fun d hd => hd.modCtx _ _ _ (fun _ => rfl))) (fun _ _ => Runs.pure rfl))
    exact hd.dropTaskCopies

end

end

/-! ### The commands -/

/-- A TILE_LOAD with its tile at hand runs without a fault. -/
theorem tile_runs {d : Dev} {c x : Nat} {t : Ctx} {wt : Tensor} (h9 : t.cur.w0.bit 9 = false)
    (q : (d.issued c x t).Plain (d.whoOf c x)) (h : (d.issued c x t).TileReady (d.whoOf c x) t.cur wt) :
    (runCmd d c x t (fun w k => do tileLoadBody w (← parseTileLoad w k))).1 = .ok () := by
  obtain ⟨_, r, e, _⟩ := runs_tileLoad q h _ (Keeps.start (d.whoOf c x) (d.issued c x t))
  exact runCmd_runs h9 ⟨r, e⟩

/-- The checks of a COLL pass, with its arguments. -/
theorem coll_runs {d : Dev} {c x : Nat} {t : Ctx} {a : CollArgs} (h9 : t.cur.w0.bit 9 = false)
    (q : (d.issued c x t).Plain (d.whoOf c x)) (h : (d.issued c x t).CollReady (d.whoOf c x) t.cur a) :
    (runCmd d c x t parseColl).1 = .ok a := by
  obtain ⟨v, r, e, _, hv⟩ := runs_parseColl q h _ (Keeps.start (d.whoOf c x) (d.issued c x t))
  subst hv
  exact runCmd_runs h9 ⟨r, e⟩

/-- A UPD with its operands at hand runs without a fault; all but APPLY are complete with it. -/
theorem upd_runs {d : Dev} {c x : Nat} {t : Ctx} {op : Nat} (h9 : t.cur.w0.bit 9 = false)
    (q : (d.issued c x t).Plain (d.whoOf c x)) (h : (d.issued c x t).UpdReady (d.whoOf c x) t.cur op) :
    (runCmd d c x t (fun w k => do
        let a ← parseUpd w k
        return (a.op, ((← getDev).specOf w).isSome))).1 = .ok (op, false)
      ∧ (runCmd d c x t (fun w k => do updBody w (← parseUpd w k))).1 = .ok (d.updEnds c x t op
          (runCmd d c x t (fun w k => do updBody w (← parseUpd w k))).2.dev) := by
  obtain ⟨a, r, e, hk, ha⟩ := runs_parseUpd q h _ (Keeps.start (d.whoOf c x) (d.issued c x t))
  obtain ⟨v, r', e', hv, ha0⟩ := runs_updBody q h ha hk
  have hop : a.op = op := by
    rw [← h.kind]
    rcases ha with ⟨_, rfl⟩ | ⟨_, _, _, rfl, _⟩ <;> rfl
  constructor
  · refine runCmd_runs h9 ⟨r, ?_⟩
    rw [run_bind, e]
    dsimp only
    rw [run_bind, run_getDev]
    dsimp only
    rw [hk.dev.same.specOf q.actual, hop]
    rfl
  · have hr : runCmd d c x t (fun w k => do updBody w (← parseUpd w k)) = (.ok v, r') := by
      rw [runCmd_plain h9, run_bind, e]
      exact e'
    rw [hr]
    have hh : a.half = (updArgsOf ((d.issued c x t).updWords t.cur) ((d.issued c x t).queueOf (d.whoOf c x))).half := by
      rcases ha with ⟨_, rfl⟩ | ⟨_, _, _, rfl, _⟩ <;> rfl
    refine congrArg Except.ok ?_
    unfold Dev.updEnds
    rw [← hh]
    by_cases h0 : op = 0
    · rw [ha0 h0, h0]
      rfl
    · rw [hv h0, bne_iff_ne.2 h0]
      rfl

/-- A WAIT with its word at hand answers its condition. -/
theorem wait_runs {d : Dev} {c x : Nat} {t : Ctx} (h9 : t.cur.w0.bit 9 = false)
    (q : (d.issued c x t).Plain (d.whoOf c x)) (h : (d.issued c x t).WaitReady (d.whoOf c x) t.cur) :
    (runCmd d c x t waitTest).1 = .ok ((d.issued c x t).waitMet (d.whoOf c x) t.cur) := by
  obtain ⟨v, r, e, _, hv⟩ := runs_waitTest q h _ (Keeps.start (d.whoOf c x) (d.issued c x t))
  subst hv
  exact runCmd_runs h9 ⟨r, e⟩

/-- A poll of a WAIT with its word at hand answers its condition. -/
theorem poll_runs {d : Dev} {w : Who} {k : Desc} (q : d.Plain w) (h : d.WaitReady w k) :
    (((waitTest w k).run).run (Run.start d)).1 = .ok (d.waitMet w k) := by
  obtain ⟨v, r, e, _, hv⟩ := runs_waitTest q h _ (Keeps.start w d)
  subst hv
  rw [e]

/-- A SPEC_BEGIN that may begin, with a generation record free, runs without a fault. -/
theorem specBegin_runs {d : Dev} {c x : Nat} {t : Ctx} (h9 : t.cur.w0.bit 9 = false) (hu : unusedFrom t.cur 1 = true)
    (h8 : t.cur.w0.bit 8 = false) (hw : t.cur.w1.field 63 48 = 0)
    (hb : (d.issued c x t).mayBegin (d.whoOf c x) (t.cur.w1.field 47 0) = true)
    (hl : ((d.issued c x t).core c).specs.length < 64) : (runCmd d c x t specBeginAct).1 = .ok () := by
  have run : ∀ r : Run, r.dev = d.issued c x t → ∃ r', (specBeginAct (d.whoOf c x) t.cur).run.run r = (.ok (), r') := fun r hr => by
    unfold specBeginAct parseSpecBegin addrWord require
    simp only [hu, h8, hw, run_bind, run_getDev, run_pure, hr, hb, Bool.not_false, Bool.and_true, beq_self_eq_true, if_true]
    have hn : ¬ ((d.issued c x t).core (d.whoOf c x).core).specs.length ≥ 64 := by
      change ¬ ((d.issued c x t).core c).specs.length ≥ 64
      omega
    simp only [if_neg hn]
    exact ⟨_, rfl⟩
  exact runCmd_runs h9 (run _ rfl)

theorem traceCmd_cores (d : Dev) (c x kind : Nat) (t : Ctx) (p1 : W64) : (d.traceCmd c x kind t p1).cores = d.cores := by
  unfold Dev.traceCmd Dev.traceTask
  split <;> simp

/-- The context of an issued task. -/
theorem issued_ctx (d : Dev) (c x : Nat) (t : Ctx) :
    (d.issued c x t).ctx? c x = some { t with state := .running, opDone := false, tag := t.cur.w0.field 31 16 } := by
  unfold Dev.issued Dev.ctx? Dev.core
  rw [traceCmd_cores]
  exact Dev.ctx?_setCtx ..

/-- A SPEC_COMMIT of a task that began with SPEC_BEGIN runs without a fault: of one that committed early it is complete. -/
theorem specCommit_runs {d : Dev} {c x : Nat} {t : Ctx} (h9 : t.cur.w0.bit 9 = false) (ho : t.cur.opc = 13) (hu : unusedFrom t.cur 0 = true)
    (h8 : t.cur.w0.bit 8 = true) (hb : t.began = true) : (runCmd d c x t specCommitAct).1 = .ok (some t.spec.isNone) := by
  have run : ∀ r : Run, r.dev = d.issued c x t → ∃ r', (specCommitAct (d.whoOf c x) t.cur).run.run r = (.ok (some t.spec.isNone), r') := fun r hr => by
    have hc := issued_ctx d c x t
    have hp : (parseSpecEnd (d.whoOf c x) t.cur).run.run r = (.ok (), r) := by
      unfold parseSpecEnd currentCtx require
      simp only [hu, h8, Bool.and_self, if_true, run_bind, run_getDev, run_pure, hr]
      change (match (d.issued c x t).ctx? c x with | some c => _ | none => _ : M Unit).run.run r = _
      rw [hc]
      change (if t.began = true then _ else _ : M Unit).run.run r = _
      rw [hb]; rfl
    have hs : (r.dev.specOf (d.whoOf c x)) = t.spec := by
      rw [hr]
      unfold Dev.specOf
      change (match (d.issued c x t).ctx? c x with | some _ => _ | none => _) = _
      rw [hc]
    unfold specCommitAct
    rw [if_neg (fun h => h ho), run_bind, hp]
    dsimp only
    rw [run_bind, run_getDev]
    dsimp only
    rw [hs]
    cases t.spec <;> exact ⟨_, rfl⟩
  exact runCmd_runs h9 (run _ rfl)

end Sys2Proof.Machine
end

