-- ==== Sys2Proof/WellFormed.lean ====
section
/-! DEFINITION. Well-formed commands: every operand lies in the range that the spec gives it. A meaning does not rely on these
checks: outside the ranges a command finds nothing to act on. -/

namespace Sys2Proof

/-- The page index is one of R475. -/
def pageOk (page : Nat) : Bool := (Machine.pageBlk page).isSome

def Agent.ok : Agent → Bool
  | .ccp core => decide (core < 8)
  | _ => true

/-- A write access writes at least one half of the word (R35). -/
def Wr.ok (w : Wr) : Bool := (w.hi || w.lo) && Agent.ok w.agent

/-- A request comes through a channel of R442 or in a management datagram (R461). -/
def Via.ok : Via → Bool
  | .channel c => decide (c < 32)
  | .mgmt => true

/-- Every field fits its place in the AFT header, and the payload its length (R360). -/
def Frame.ok (f : Frame) : Bool :=
  decide (f.ver < 16) && decide (f.type < 16) && decide (f.ecn < 4) && decide (f.src < 16384) && decide (f.dst < 16384)
    && decide (f.chan < 256) && decide (f.hops < 16) && decide (f.msgId < 2 ^ 32) && decide (f.psn < 2 ^ 32)
    && decide (f.collId < 2 ^ 32) && decide (f.cstep < 2 ^ 16) && decide (f.lseq < 2 ^ 16) && decide (f.aux < 2 ^ 16)
    && decide (f.payload.length ≤ 4096)

/-- What a MAC, IPv6 and UDP header can hold, and at most a frame with 4,096 bytes of payload (R360, R361). -/
def Packet.ok (p : Packet) : Bool :=
  let e := p.enc
  decide (e.dmac < 2 ^ 48) && decide (e.smac < 2 ^ 48) && e.vlan.all (fun v => decide (v < 2 ^ 16)) && decide (e.dscp < 64)
    && decide (e.ecn < 4) && decide (e.sport < 2 ^ 16) && decide (e.dport < 2 ^ 16) && decide (e.sum < 2 ^ 16)
    && decide (e.sip.length = if e.udp then 2 else 0) && decide (e.dip.length = if e.udp then 2 else 0)
    && decide (p.aft.length ≤ 4136)

/-- A sensor of R535, once each. -/
def Reading.allOk (l : List Reading) : Bool :=
  l.all (fun r => decide (r.sensor < 136)) && decide ((l.map (fun r => r.sensor)).Nodup)

/-- A bit of a channel line, of a DRAM device, pin and beat (R406). -/
def BitError.ok (e : BitError) : Bool :=
  decide (e.line < 2 ^ 31) && decide (e.device < 10) && decide (e.pin < 4) && decide (e.beat < 16)

/-- What stands in a channel (R396). -/
def TrainResult.ok (r : TrainResult) : Bool := decide (r.kind < 3) && decide (r.size < 3)

/-- A source that a loss names (R278). -/
def sourceOk (src : SourceCode) : Bool := decide (1 ≤ src) && (decide (src ≤ 4) || src == 7)

/-- The operands of a command lie in their ranges. -/
def Instr.wf (i : Instr) : Bool :=
  match i with
  | .nop core ctx => decide (core < 8) && decide (ctx < 1024)
  | .tileLoad core ctx => decide (core < 8) && decide (ctx < 1024)
  | .stream core ctx => decide (core < 8) && decide (ctx < 1024)
  | .vecFma core ctx => decide (core < 8) && decide (ctx < 1024)
  | .vecAdd core ctx => decide (core < 8) && decide (ctx < 1024)
  | .vecMul core ctx => decide (core < 8) && decide (ctx < 1024)
  | .vecMax core ctx => decide (core < 8) && decide (ctx < 1024)
  | .vecMin core ctx => decide (core < 8) && decide (ctx < 1024)
  | .vecConv core ctx => decide (core < 8) && decide (ctx < 1024)
  | .vecRsum core ctx => decide (core < 8) && decide (ctx < 1024)
  | .vecRmax core ctx => decide (core < 8) && decide (ctx < 1024)
  | .vecRmin core ctx => decide (core < 8) && decide (ctx < 1024)
  | .vecRsumsq core ctx => decide (core < 8) && decide (ctx < 1024)
  | .vecRecip core ctx => decide (core < 8) && decide (ctx < 1024)
  | .vecRsqrt core ctx => decide (core < 8) && decide (ctx < 1024)
  | .vecExp core ctx => decide (core < 8) && decide (ctx < 1024)
  | .vecLog core ctx => decide (core < 8) && decide (ctx < 1024)
  | .vecTanh core ctx => decide (core < 8) && decide (ctx < 1024)
  | .vecSigmoid core ctx => decide (core < 8) && decide (ctx < 1024)
  | .table core ctx => decide (core < 8) && decide (ctx < 1024)
  | .xferCopy core ctx => decide (core < 8) && decide (ctx < 1024)
  | .xferRelayout core ctx => decide (core < 8) && decide (ctx < 1024)
  | .xferGather core ctx => decide (core < 8) && decide (ctx < 1024)
  | .xferScatter core ctx => decide (core < 8) && decide (ctx < 1024)
  | .xferScatterAdd core ctx => decide (core < 8) && decide (ctx < 1024)
  | .fence core ctx => decide (core < 8) && decide (ctx < 1024)
  | .signal core ctx => decide (core < 8) && decide (ctx < 1024)
  | .wait core ctx => decide (core < 8) && decide (ctx < 1024)
  | .waitPoll core ctx => decide (core < 8) && decide (ctx < 1024)
  | .time core ctx => decide (core < 8) && decide (ctx < 1024)
  | .specBegin core ctx => decide (core < 8) && decide (ctx < 1024)
  | .specCommit core ctx => decide (core < 8) && decide (ctx < 1024)
  | .specAbort core ctx => decide (core < 8) && decide (ctx < 1024)
  | .specPoll core ctx => decide (core < 8) && decide (ctx < 1024)
  | .specWriteoutDone core ctx => decide (core < 8) && decide (ctx < 1024)
  | .collReduceScatter core ctx => decide (core < 8) && decide (ctx < 1024)
  | .collAllGather core ctx => decide (core < 8) && decide (ctx < 1024)
  | .collAllReduce core ctx => decide (core < 8) && decide (ctx < 1024)
  | .collBroadcast core ctx => decide (core < 8) && decide (ctx < 1024)
  | .collAllToAll core ctx => decide (core < 8) && decide (ctx < 1024)
  | .collExchange core ctx => decide (core < 8) && decide (ctx < 1024)
  | .updApply core ctx => decide (core < 8) && decide (ctx < 1024)
  | .updStep core ctx => decide (core < 8) && decide (ctx < 1024)
  | .updRoots core ctx => decide (core < 8) && decide (ctx < 1024)
  | .updPin core ctx => decide (core < 8) && decide (ctx < 1024)
  | .updDropout core ctx => decide (core < 8) && decide (ctx < 1024)
  | .updClaim core ctx => decide (core < 8) && decide (ctx < 1024)
  | .updRelease core ctx => decide (core < 8) && decide (ctx < 1024)
  | .doorbellWrite agent queue _ => Agent.ok agent && decide (queue < 65536)
  | .doorbellRead agent queue => Agent.ok agent && decide (queue < 65536)
  | .queueEnable core w => decide (core < 8) && Wr.ok w
  | .queueDisable core w => decide (core < 8) && Wr.ok w
  | .taskStart queue ctx => decide (queue < 65536) && decide (ctx < 1024)
  | .commandComplete core ctx => decide (core < 8) && decide (ctx < 1024)
  | .taskRetire core ctx => decide (core < 8) && decide (ctx < 1024)
  | .dspFinit core w => decide (core < 8) && Wr.ok w
  | .dspHalt core w => decide (core < 8) && Wr.ok w
  | .updFinit half w => decide (half < 2) && Wr.ok w
  | .updHalt half w => decide (half < 2) && Wr.ok w
  | .updEnable half w => decide (half < 2) && Wr.ok w
  | .updScanComplete half => decide (half < 2)
  | .tblFinit core w => decide (core < 8) && Wr.ok w
  | .tblHalt core w => decide (core < 8) && Wr.ok w
  | .arrFinit core w => decide (core < 8) && Wr.ok w
  | .coreFinit core w => decide (core < 8) && Wr.ok w
  | .fabFinit port w => decide (port < 16) && Wr.ok w
  | .govHalt core w => decide (core < 8) && Wr.ok w
  | .finitDone page => pageOk page
  | .errClear page w => pageOk page && Wr.ok w
  | .cntClear page w => pageOk page && Wr.ok w
  | .cntSelWrite page slot w => pageOk page && decide (slot < 8) && Wr.ok w
  | .registerWrite offset w => decide (offset < 0x8080000) && Wr.ok w
  | .arrCtrlWrite core w => decide (core < 8) && Wr.ok w
  | .arrayIdleGate core => decide (core < 8)
  | .arrayRampStart core => decide (core < 8)
  | .arrayRampDone core => decide (core < 8)
  | .powerDutyUpdate _ _ _ => true
  | .thermalSample readings => Reading.allOk readings
  | .epochTrigger core w => decide (core < 8) && Wr.ok w
  | .epochEnd core => decide (core < 8)
  | .govWrecTailWrite core w => decide (core < 8) && Wr.ok w
  | .runAheadRead core ctx region => decide (core < 8) && decide (ctx < 1024) && decide (region < 64)
  | .fetCtrlWrite core w => decide (core < 8) && Wr.ok w
  | .watchRegionWrite core index _ w => decide (core < 8) && decide (index < 64) && Wr.ok w
  | .tlbInvalidate w => Wr.ok w
  | .tlbiDone => true
  | .carveOutChange w => Wr.ok w
  | .carveOutDone half => decide (half < 2)
  | .farStoreFlush w => Wr.ok w
  | .flushDone => true
  | .patrolScrubLine channel errs => decide (channel < 16) && errs.all BitError.ok
  | .sramScrubWord store inst index _ => decide (store < 8) && decide (inst < 32) && decide (index < 2 ^ 24)
  | .moduleOffline channel _ w => decide (channel < 16) && Wr.ok w
  | .memTrainingStart w => Wr.ok w
  | .channelTrainingDone channel r => decide (channel < 16) && TrainResult.ok r
  | .drawbarFlitReceive dir seq _ _ => decide (dir < 2) && decide (seq < 65536)
  | .ucieKeepaliveSend half => decide (half < 2)
  | .halfIsolation half => decide (half < 2)
  | .rasterLineBoundary => true
  | .schBoundaryApply half => decide (half < 2)
  | .frameInEdge _ _ => true
  | .ppsInEdge _ => true
  | .ptpEventMessage _ port => decide (port < 2)
  | .sourceLoss src => sourceOk src
  | .relockStart src _ _ => sourceOk src
  | .ftsTimeWrite w => Wr.ok w
  | .ftsCtrlWrite w => Wr.ok w
  | .sliceUpdateStart half => decide (half < 2)
  | .sliceCommit half => decide (half < 2)
  | .rootJobStart half => decide (half < 2)
  | .rootJobDone half => decide (half < 2)
  | .keyRegistryClear w => Wr.ok w
  | .tblCtrlWrite core w => decide (core < 8) && Wr.ok w
  | .linkFailure port => decide (port < 16)
  | .linkUp port width lanes => decide (port < 16) && decide (width ≤ 4) && decide (lanes < 16)
  | .linkRetryTimer port => decide (port < 16)
  | .fabRetrain port w => decide (port < 16) && Wr.ok w
  | .fabModeWrite port w => decide (port < 16) && Wr.ok w
  | .dataFrameSend half dst chan => decide (half < 2) && decide (dst < 16384) && decide (chan < 256)
  | .aftDataReceive port p => decide (port < 16) && Packet.ok p
  | .aftAckReceive port p => decide (port < 16) && Packet.ok p
  | .aftNakReceive port p => decide (port < 16) && Packet.ok p
  | .aftCreditReceive port p => decide (port < 16) && Packet.ok p
  | .aftKeepaliveReceive port p => decide (port < 16) && Packet.ok p
  | .aftMgmtReceive port p => decide (port < 16) && Packet.ok p
  | .llrNakReceive port p => decide (port < 16) && Packet.ok p
  | .llrAckReceive port p => decide (port < 16) && Packet.ok p
  | .frameRelay port p => decide (port < 16) && Packet.ok p
  | .pauseFrameReceive port => decide (port < 16)
  | .ackTimer half src => decide (half < 2) && decide (src < 16384)
  | .retransmitTimeout half dst psn => decide (half < 2) && decide (dst < 16384) && decide (psn < 4294967296)
  | .peerSilenceTimeout half dev => decide (half < 2) && decide (dev < 16384)
  | .keepaliveTimer half dev => decide (half < 2) && decide (dev < 16384)
  | .rateControlWindow half dst => decide (half < 2) && decide (dst < 16384)
  | .peerClear half w => decide (half < 2) && Wr.ok w
  | .routeInvalidate w => Wr.ok w
  | .mbxGo agent chan => Agent.ok agent && decide (chan < 32)
  | .mbxTake agent chan => Agent.ok agent && decide (chan < 32)
  | .mbxDataWrite agent chan word w => Agent.ok agent && decide (chan < 32) && decide (word ≤ 12) && Wr.ok w
  | .mbxCfgWrite chan w => decide (chan < 32) && Wr.ok w
  | .ingest via => Via.ok via
  | .ingestComplete slot status => decide (slot < 16) && (status == 0 || status == 3 || status == 4)
  | .checkpoint via => Via.ok via
  | .checkpointComplete => true
  | .restore via => Via.ok via
  | .queueTableQuery via => Via.ok via
  | .queueTableMap via _ va queue => Via.ok via && decide (va < 281474976710656) && decide (queue < 65536)
  | .setDeviceId via id => Via.ok via && decide (id < 16384)
  | .routeTableLoad via _ _ => Via.ok via
  | .meshEntrySet via index _ => Via.ok via && decide (index < 16)
  | .absentPeerClear via dev => Via.ok via && decide (dev < 16384)
  | .telemetryEnable via => Via.ok via
  | .mgmtDatagram port _ _ _ => decide (port < 2)
  | .fwAliveTick => true
  | .bar2Access _ _ _ _ => true
  | .dmaTimeout _ _ => true
  | .pcieLinkChange _ _ _ => true
  | .spdmRequest _ _ _ => true
  | .spdmSessionTimeout _ _ => true
  | .bmcSidebandReset => true
  | .secureBoot => true
  | .verifyLoad => true
  | .arbAdvance => true
  | .ownerProvision => true
  | .reseed => true
  | .entropyHealthFail => true
  | .secRandRead agent => Agent.ok agent
  | .powerOnReset => true
  | .pwrGoodRise group => decide (group < 4)
  | .pwrEnableNext => true
  | .seqTimeout => true
  | .pwrGoodLoss group => decide (group < 4)
  | .powerDownStep => true
  | .sysRstNAssert _ => true
  | .perstNAssert _ => true
  | .pcieHotReset _ => true
  | .devRst w => Wr.ok w
  | .resetRelease => true
  | .tapReset => true
  | .halfRun w => Wr.ok w
  | .profileSelect w => Wr.ok w
  | .pwrLimitWrite w => Wr.ok w
  | .sscEnWrite w => Wr.ok w
  | .standbyEntry w => Wr.ok w
  | .standbyExit w => Wr.ok w
  | .pstateDone => true
  | .thmCtrlWrite w => Wr.ok w
  | .pmuFaultRead => true
  | .pmuFaultClear _ => true
  | .restart => true
  | .avsVoltageCommand half _ => decide (half < 2)
  | .trcMark w => Wr.ok w
  | .traceBudgetWindow ring => decide (ring < 2)
  | .traceTimeRecord => true
  | .eclipseGo w => Wr.ok w
  | .eclipseTimeTrigger => true
  | .eclipseNFall => true
  | .eclipseResume w => Wr.ok w
  | .eclipseScan w => Wr.ok w
  | .scanComplete => true
  | .extest => true
  | .samplePreload => true
  | .idcode => true
  | .secNonce => true
  | .secToken _ _ => true
  | .eclCtrl _ => true
  | .memAccess pa _ _ => decide (pa < 281474976710656)
  | .eclScan => true
  | .wrapSel _ => true
  | .wrapWir _ => true
  | .wrapWdr _ => true
  | .bypass => true
  | .refInEdge => true
  | .ucieFlitReceive half _ => decide (half < 2)
  | .fcsError port _ => decide (port < 16)
  | .caParityError channel => decide (channel < 16)
  | .routeInvDone => true
  | .pwrGoodAuxLoss => true
  | .sysRefclkLoss => true

end Sys2Proof
end

