-- ==== Sys2Proof/Tests/Slice0.lean ====
section
/-! SUPPORT. Tests of single commands on small states, an ill-formed command for each check of WellFormed, and for every
statement a state and operands that meet its hypotheses. -/

namespace Sys2Proof.Tests

open Sys2Proof Sys2Proof.Machine

set_option maxRecDepth 100000
set_option Elab.async false

/-! ### Small states -/

/-- A state with a machine and no command waiting. -/
def st (d : Dev) : State := { State.reset with dev := d }

/-- Both halves run (PMU_HALF_CTRL, R515), with further register words set. -/
def live (regs : List (Nat × W64)) : Dev := regs.foldl (fun d r => d.setReg (r.1 / 4096) (r.1 % 4096) r.2) (Dev.reset.setReg pgPmu 0x110 3)

/-- A register word's key. -/
def rk (page off : Nat) : Nat := page * 4096 + off

/-- A 64-bit write. -/
def wr (g : Agent) (v : W64) : Wr := { agent := g, hi := true, lo := true, val := v }

/-- Words put in memory. -/
def mems (l : List (Nat × W64)) (d : Dev) : Dev := l.foldl (fun d x => d.put x.1 (leBytes 8 x.2.toNat)) d

/-- A page table in system-die SRAM: virtual pages 0 to 1F at the start of system-die SRAM, 20 to 3F at core 0's near store. -/
def table : List (Nat × W64) :=
  [(0x100040000000, 0x100040020001), (0x100040020000, 0x100040000017), (0x100040020008, 0x100000000017)]

/-- A device with that page table, running. -/
def mapped (regs : List (Nat × W64)) (l : List (Nat × W64)) : Dev := mems (table ++ l) (live ((0x400, 0x8000100040000000) :: regs))

/-- A READY context whose current descriptor is given. -/
def ctx (t : Desc) : Ctx :=
  { queue := 0, tseq := 0, first := 0, seq := 0, state := .ready, waitFor := .none, cur := t, status := 0, tag := 0, event := 0,
    order := 0, bound := none, release := none, deadline := none, regions := [], spec := none, specOut := 0, reason := 0,
    aborting := false, aborted := false, opDone := false, table := none, arrays := 0, frameAt := 0, onVec := false }

/-- A descriptor of words 0 to 6. -/
def desc (w0 w1 w2 w3 w4 w5 w6 : W64) : Desc := { w0 := w0, w1 := w1, w2 := w2, w3 := w3, w4 := w4, w5 := w5, w6 := w6, w7 := 0 }

/-- Core 0 holds a context 0. -/
def hold (t : Ctx) (d : Dev) : Dev := d.setCtx 0 0 t

/-- A running device whose core 0 has a READY task at a descriptor. -/
def task (t : Desc) : Dev := hold (ctx t) (mapped [] [])

/-- A tensor descriptor of one FP32 element in one dimension, based at virtual 200000 (R166 to R172), at virtual 100000. -/
def tensor1 : List (Nat × W64) :=
  [(0x100000000000, 0x3F800000), (0x100040100000, 0x1000000000200000), (0x100040100020, 0x707070700), (0x100040100048, 1)]

/-- A task whose current command has tensor operands. -/
def tensorTask (t : Desc) : Dev := hold (ctx t) (mapped [] tensor1)

/-- The machine of a next state. -/
def ran (i : Instr) (d : Dev) : Option Dev :=
  match exec i (st d) with
  | .next s => some s.dev
  | _ => none

/-- An Ethernet II encapsulation (R360). -/
def ethernet : Encap :=
  { dmac := 1, smac := 2, vlan := none, udp := false, dscp := 0, ecn := 0, sip := [], dip := [], sport := 0, dport := 0, sum := 0 }

/-! ### Ill-formed commands -/

theorem test_wf_page : Instr.wf (.finitDone 0x10) = false := by decide
theorem test_wf_agent : Instr.wf (.mbxGo (.ccp 8) 0) = false := by decide
theorem test_wf_write_of_no_half : Instr.wf (.dspHalt 0 { agent := .host, hi := false, lo := false, val := 0 }) = false := by decide
theorem test_wf_via : Instr.wf (.ingest (.channel 32)) = false := by decide
theorem test_wf_frame : Instr.wf (.aftDataReceive 0 { enc := { ethernet with ecn := 4 }, aft := [], fcsOk := true, fec := 0 }) = false
    ∧ Instr.wf (.aftDataReceive 0 { enc := ethernet, aft := [], fcsOk := true, fec := 0 }) = true := by decide
theorem test_wf_readings_once : Instr.wf (.thermalSample [{ sensor := 3, temp := 0 }, { sensor := 3, temp := 8 }]) = false := by decide
theorem test_wf_line_error : Instr.wf (.patrolScrubLine 0 [{ line := 0, device := 10, pin := 0, beat := 0 }]) = false := by decide
theorem test_wf_train_result : Instr.wf (.channelTrainingDone 0
    { kind := 3, size := 0, width := 4, devices := 10, ranks := 1, rated := 8000, serial := 0, spdCrc := 0, temp := 0, verified := true, trained := true,
      params := [] }) = false := by decide
theorem test_wf_source : Instr.wf (.sourceLoss 5) = false := by decide
theorem test_wf_core : Instr.wf (.nop 8 0) = false := by decide
theorem test_wf_context : Instr.wf (.nop 0 1024) = false := by decide
theorem test_wf_half : Instr.wf (.halfIsolation 2) = false := by decide
theorem test_wf_port : Instr.wf (.linkUp 16 4 15) = false := by decide
theorem test_wf_channel : Instr.wf (.caParityError 16) = false := by decide
theorem test_wf_queue : Instr.wf (.doorbellRead .host 65536) = false := by decide
theorem test_wf_slot : Instr.wf (.ingestComplete 16 0) = false := by decide
theorem test_wf_status : Instr.wf (.ingestComplete 0 1) = false := by decide
theorem test_wf_device : Instr.wf (.setDeviceId .mgmt 16384) = false := by decide
theorem test_wf_group : Instr.wf (.pwrGoodRise 4) = false := by decide
theorem test_wf_offset : Instr.wf (.registerWrite 0x8080000 (wr .host 0)) = false := by decide
theorem test_wf_linkUp : Instr.wf (.linkUp 15 4 15) = true := by decide
theorem test_decode_none : decodeTableWord 16 0 = none := rfl

/-! ### Steps, reset, the idle cycle -/

theorem witness_step : (st Dev.reset).pending = [] ∧ ({ st Dev.reset with pending := [.reseed] } : State).pending = .reseed :: [] := ⟨rfl, rfl⟩
theorem witness_refclk : ((st Dev.reset).dev.power.aux && (st Dev.reset).dev.enableOf 0) = true
    ∧ ((st { Dev.reset with power := { Power.reset with aux := false } }).dev.power.aux) = false := by decide
theorem witness_fuses : Fuses.onlyBlown Fuses.standard (st Dev.reset).fuses ∧ ∃ t, step (st Dev.reset) = .next t :=
  ⟨by unfold Fuses.onlyBlown; decide, _, rfl⟩
theorem witness_pages : pageBlk (Blk.mbx.page 1) = some (.mbx, 1) ∧ pageBlk (Blk.mem.page 15) = some (.mem, 15)
    ∧ pageBlk (Blk.upd.page 1) = some (.upd, 1) := by decide
theorem witness_idle : Dev.reset.fts.tclk + 1 < 5 ∧ ¬ ({ Fts.reset with tclk := 4 }).tclk + 1 < 5 := by decide
theorem test_idle : (tick (st Dev.reset)).dev.aclkA = 1 := by decide +kernel
theorem test_step_runs : (match step { st (live []) with pending := [.idcode, .bypass] } with
    | .next t => (t.pending, t.dev.out) | _ => ([], [])) = ([.bypass], [.word 0x1A522C7F]) := by decide +kernel

/-! ### Commands of tasks -/

/-- The task of core 0, context 0 issues its command. -/
def issues (d : Dev) : Bool :=
  match d.ctx? 0 0 with
  | some t => d.mayIssue 0 0 t && d.unitReady 0 t
  | none => false

theorem issuable_of {d : Dev} {t : Ctx} (h : d.ctx? 0 0 = some t) (g : issues d = true) : d.issuable 0 0 t := by
  unfold issues at g
  rw [h] at g
  simp only [Bool.and_eq_true] at g
  exact ⟨h, g.1, g.2⟩

def vecAdd : Desc := desc 0x100000003 0x100000 0x100000 0 0x100000 0 0
def copy : Desc := desc 0x000000005 0x100000 0x100000 0 0 0 0
def nop : Desc := desc 0 0 0 0 0 0 0
def fence : Desc := desc 8 0 0 0 0 0 0
def timed : Desc := desc 0x30000000B 5 9 0 0 0 0
def signal : Desc := desc 9 0x400008 0x1122334455667788 0 0 0 0
def nearSignal : Desc := desc 9 0x200008 0x1122334455667788 0 0 0 0
def waits (v : W64) : Desc := desc 10 0x200000 v 0xFF 0 0 0
def begins : Desc := desc 12 0x200000 0 0 0 0 0
def commits : Desc := desc 0x10D 0 0 0 0 0 0
def aborts : Desc := desc 0x10E 0 0 0 0 0 0

/-- A speculative task that runs. -/
def spec (s : SpecState) (at' : Bool) : Spec :=
  { decision := 0x200000, gens := List.replicate 64 0, readSet := [], shadow := [], excess := [], late := none, heldActs := [], state := s, atCommand := at' }

def specTask (t : Desc) (s : SpecState) (at' : Bool) (c : CtxState) : Dev :=
  hold { ctx t with spec := some (spec s at'), state := c } (mapped [] [(0x100000000000, 1)])

theorem witness_vec : issues (st (tensorTask vecAdd)).quiet = true
    ∧ (runCmd (st (tensorTask vecAdd)).quiet 0 0 (ctx vecAdd) vecCmd).1.toOption = some () := by decide +kernel
theorem test_vec_add : (ran (.vecAdd 0 0) (tensorTask vecAdd)).map (fun d => (d.word 0x100000000000, (d.ctx? 0 0).map (fun t => (t.opDone, t.status))))
    = some (0x40000000, some (true, 0)) := by decide +kernel
theorem test_vec_fmt : vecApply 0x02 0x40000000 0x40400000 0 = 0x40C00000 := by decide +kernel
theorem witness_vec_fault : issues (st (task vecAdd)).quiet = true
    ∧ (match (runCmd (st (task vecAdd)).quiet 0 0 (ctx vecAdd) vecCmd).1 with | .error (.fail 1 _) => true | _ => false) = true := by decide +kernel
theorem witness_not_issued : (st (task vecAdd)).quiet.mayIssue 0 0 { ctx vecAdd with state := .waiting } = false := by decide +kernel
theorem witness_xfer : issues (st (tensorTask copy)).quiet = true
    ∧ (runCmd (st (tensorTask copy)).quiet 0 0 (ctx copy) (fun w k => do return (← parseXfer w k).remote)).1.toOption = some false
    ∧ (runCmd (st (tensorTask copy)).quiet 0 0 (ctx copy) (fun w k => do xferLocal w (← parseXfer w k))).1.toOption = some () := by decide +kernel
theorem witness_sync : issues (st (task nop)).quiet = true ∧ issues (st (task fence)).quiet = true ∧ (st (task nop)).dev.bus = []
    ∧ nop.w0.bit 9 = false ∧ fence.w0.bit 9 = false ∧ nop.opc = 0 ∧ fence.opc = 8 := by decide +kernel
theorem test_nop : (ran (.nop 0 0) (task nop)).bind (fun d => (d.ctx? 0 0).map (fun t => (t.opDone, t.status))) = some (true, 0) := by
  decide +kernel
theorem witness_time : issues (st (task timed)).quiet = true ∧ timed.opc = 11 ∧ timePlace (ctx timed) = true := by decide +kernel
theorem test_time : (ran (.time 0 0) (task timed)).bind (fun d => (d.ctx? 0 0).map (fun t => (t.release.isSome, t.deadline.isSome, t.opDone)))
    = some (true, true, true) := by decide +kernel
/-- The task of a SIGNAL to the first line of DRAM. -/
def signalTask : Dev := hold (ctx signal) (mapped [(rk pgSys 0x448, 0x10002), (rk pgSys 0x430, 0x200000)] [(0x100040020010, 0x17)])
theorem witness_signal : issues (st signalTask).quiet = true ∧ signal.opc = 9 ∧ signal.arg 35 34 = 0 ∧ signal.arg 33 32 ≠ 3 ∧ unusedFrom signal 2 = true
    ∧ ((st signalTask).quiet.issued 0 0 (ctx signal)).namesKept 0x400008 8 false = false
    ∧ (let r := (((st signalTask).quiet.issued 0 0 (ctx signal)).dropTaskCopies 0 0).translate 0 0x400008 true ((st signalTask).quiet.whoOf 0 0).secure
       r.2.toOption = some 8 ∧ r.1.reachesFrom 0 8 = true ∧ r.1.space 8 = .dram 0 8
         ∧ r.1.chanOffline (r.1.channelOf 0 0).1 = false ∧ r.1.lineErrors (r.1.channelOf 0 0).1 (r.1.channelOf 0 0).2 = []
         ∧ r.1.linePinned 0 0 = false) := by decide +kernel
theorem witness_signal_near : issues (st (task nearSignal)).quiet = true ∧ unusedFrom nearSignal 2 = true
    ∧ ((st (task nearSignal)).quiet.issued 0 0 (ctx nearSignal)).namesKept 0x200008 8 false = false
    ∧ (let r := (((st (task nearSignal)).quiet.issued 0 0 (ctx nearSignal)).dropTaskCopies 0 0).translate 0 0x200008 true
         ((st (task nearSignal)).quiet.whoOf 0 0).secure
       r.2.toOption = some 0x100000000008 ∧ r.1.reachesFrom 0 0x100000000008 = true ∧ r.1.space 0x100000000008 = .near 0 8) := by decide +kernel
theorem test_signal : (ran (.signal 0 0) signalTask).map (fun d => (d.byte 8, d.byte 15, d.byte 16)) = some (0x88, 0x11, 0)
    ∧ (ran (.signal 0 0) (task nearSignal)).map (fun d => (d.byte 0x100000000008, (d.ctx? 0 0).map (fun t => t.status))) = some (0, some 8) := by
  decide +kernel
theorem witness_wait : issues (st (task (waits 0))).quiet = true
    ∧ (runCmd (st (task (waits 0))).quiet 0 0 (ctx (waits 0)) waitTest).1.toOption = some true
    ∧ (runCmd (st (task (waits 1))).quiet 0 0 (ctx (waits 1)) waitTest).1.toOption = some false := by decide +kernel
theorem witness_wait_poll : let d := (st (hold { ctx (waits 0) with state := .waiting, waitFor := .condition } (mapped [] []))).quiet
    d.coreLive 0 = true ∧ d.regb (pgDsp 0) 0x010 2 = false
      ∧ (((waitTest (d.whoOf 0 0) (waits 0)).run).run (Run.start d)).1.toOption = some true := by decide +kernel
def beginTask : Dev := hold (ctx begins) (mapped [(rk (pgDsp 0) 0x400, 0x100000010000), (rk (pgDsp 0) 0x408, 1)] [])
theorem witness_spec_begin : issues (st beginTask).quiet = true
    ∧ (runCmd (st beginTask).quiet 0 0 (ctx begins) specBeginAct).1.toOption = some () := by decide +kernel
theorem witness_spec_abort : issues (st (specTask aborts .running false .ready)).quiet = true ∧ aborts.opc = 14 ∧ aborts.w0.bit 8 = true
    ∧ unusedFrom aborts 0 = true := by decide +kernel
theorem test_spec_abort : (ran (.specAbort 0 0) (specTask aborts .running false .ready)).bind (fun d => (d.ctx? 0 0).map (fun t => (t.status, t.reason, t.specOut)))
    = some (7, 1, 2) := by decide +kernel
theorem witness_spec_commit : issues (st (specTask commits .running false .ready)).quiet = true
    ∧ (runCmd (st (specTask commits .running false .ready)).quiet 0 0 { ctx commits with spec := some (spec .running false) } specCommitAct).1.toOption
        = some (some false)
    ∧ issues (st (hold { ctx commits with specOut := 1 } (mapped [] []))).quiet = true
    ∧ (runCmd (st (hold { ctx commits with specOut := 1 } (mapped [] []))).quiet 0 0 { ctx commits with specOut := 1 } specCommitAct).1.toOption
        = some (some true) := by decide +kernel
theorem witness_spec_poll : let d := (st (specTask commits .deciding true .running)).quiet
    d.coreLive 0 = true ∧ (((readWord (d.whoOf 0 0) 0x200000).run).run (Run.start d)).1.toOption = some 1
      ∧ d.staleRegions 0 (spec .deciding true) = [] := by decide +kernel
theorem witness_writeout : let d := (st (specTask commits .writing true .running)).quiet
    d.coreLive 0 = true ∧ d.netQuiet 0 0 = true ∧ d.arrivalsIn 0 0 = true := by decide +kernel

/-! ### Commands of the units -/

/-- A task with words in memory and registers, whose current descriptor is given. -/
def unitTask (t : Desc) (regs : List (Nat × W64)) (l : List (Nat × W64)) : Dev := hold (ctx t) (mapped regs l)

/-- A STREAM of one pass over one vector: one 4-bit panel of array 0, whose current buffer holds the tile (R89, R95, R254). -/
def streamCmd : Desc := desc 2 0x101000 0x102000 0x103000 0 0 0
def streamTask : Dev :=
  (unitTask streamCmd []
    [(0x100040101000, 0x813), (0x100040101020, 0x210000), (0x100000010000, 0x53),
     (0x100040102000, 0x3213000000220000), (0x100040102020, 0x707070700), (0x100040102048, 128), (0x100040102068, 1), (0x100040102088, 1),
     (0x100040103000, 0x1300000000230000), (0x100040103020, 0x707070700), (0x100040103048, 1)]).modCore 0 (fun k =>
  { k with ramp := .clocked, arrays := { cur := { valid := true, addr := 0x100000030000, plane := false, cells := [] }, shd := Tile.empty } :: k.arrays.tail })

def updCmd : Desc := desc 7 0x100000 0 0 0 0 0
def updTask (w0 w1 : W64) : Dev := unitTask updCmd [(rk (pgUpd 0) 0x108, 4)] [(0x100040100000, w0), (0x100040100008, w1)]

/-- A key registry with one entry of queue 0. -/
def key0 : KeyEntry := { k0 := 1, k1 := 0, k2 := 0, k3 := 0, stream := 0, use1 := true, owner := 0 }

/-- A DROPOUT over the one-element tensor, a CLAIM and a RELEASE. -/
def dropTask : Dev :=
  { unitTask updCmd [] ([(0x100040100000, 4), (0x100040100008, 0x101000), (0x100040100010, 0x101000), (0x100040100020, 0x3F80000000000000),
      (0x100000000000, 0x40000000), (0x100040101000, 0x1000000000200000), (0x100040101020, 0x707070700), (0x100040101048, 1)])
    with keys := [(0, key0)] }
def claimTask : Dev := updTask 5 9
def releaseTask : Dev := { updTask 6 0 with keys := [(0, key0)] }

/-- An APPLY whose engine has a full spill ring. -/
def waitingTask : Dev := (updTask 0 0).modUpd 0 (fun u => { u with spillCount := 4096 })

/-- An APPLY of slice 0, whose table entry lies in system-die SRAM and whose version word in DRAM (R297, R299). -/
def applyTask : Dev :=
  unitTask updCmd [(rk pgSys 0x448, 0x10002), (rk (pgUpd 0) 0x010, 1), (rk (pgUpd 0) 0x100, 0x110000), (rk (pgUpd 0) 0x108, 1), (rk (pgUpd 0) 0x110, 0x111000),
      (rk (pgUpd 0) 0x120, 0x112000)]
    [(0x100040020010, 0x17), (0x100040110058, 0x400000), (0x100040110060, 0x80000080), (0x100040110068, 0x100010000)]

def collCmd : Desc := desc 6 0x100000 0 0 0 0 0
def collTask (op : W64) : Dev :=
  unitTask collCmd [(rk pgSys 0x700, 2), (rk pgSys 0x718, 1)]
    [(0x100040100000, op + 0x100040), (0x100040100008, 0x101000), (0x100040100010, 0x102000), (0x100040100018, 4)]

/-- An XFER COPY of one element to a fabric peer, and one of a shard that holds no element (R183, R377). -/
def remoteCopy : Desc := desc 5 0x100000 0x100000 0 0 0 0x4005000000000000
def remoteTask : Dev := tensorTask remoteCopy
def emptyTask : Dev :=
  unitTask remoteCopy [(rk pgSys 0x700, 2), (rk pgSys 0x708, 1), (rk pgSys 0x718, 1)]
    [(0x100040100000, 0x1000000000200000), (0x100040100020, 0x707070000), (0x100040100048, 1)]

theorem witness_stream : issues (st streamTask).quiet = true
    ∧ (runCmd (st streamTask).quiet 0 0 (ctx streamCmd) (fun w k => do streamBody w (← parseStreamCmd w k))).1.toOption = some () := by decide +kernel
theorem witness_xfer_remote : issues (st remoteTask).quiet = true ∧ issues (st emptyTask).quiet = true
    ∧ ([remoteTask, emptyTask].map (fun d => (runCmd (st d).quiet 0 0 (ctx remoteCopy) (fun w k => do
        let a ← parseXfer w k
        return (a.remote, ((← getDev).specOf w).isSome))).1.toOption)) = [some (true, false), some (true, false)]
    ∧ ([remoteTask, emptyTask].map (fun d => (runCmd (st d).quiet 0 0 (ctx remoteCopy) (fun w k => do xferRemote w (← parseXfer w k))).1.toOption))
        = [some false, some true] := by decide +kernel
theorem witness_coll : issues (st (collTask 0)).quiet = true ∧ ([0, 1, 2, 3, 4, 5].map (fun x =>
    (runCmd (st (collTask x)).quiet 0 0 (ctx collCmd) parseColl).1.toOption.map (fun a => a.op))) = [0, 1, 2, 3, 4, 5].map some := by decide +kernel
def updTasks : List Dev := [applyTask, updTask 1 7, updTask 2 0, updTask 3 0x8000000000000003, dropTask, claimTask, releaseTask, waitingTask]
theorem witness_upd : issues (st waitingTask).quiet = true
    ∧ (updTasks.map (fun d => (runCmd (st d).quiet 0 0 (ctx updCmd) (fun w k => do
          let a ← parseUpd w k
          return (a.op, ((← getDev).specOf w).isSome))).1.toOption)) = [0, 1, 2, 3, 4, 5, 6, 0].map (fun i => some (i, false))
    ∧ (updTasks.map (fun d => (runCmd (st d).quiet 0 0 (ctx updCmd) (fun w k => do updBody w (← parseUpd w k))).1.toOption))
        = [true, true, true, true, true, true, true, false].map some := by decide +kernel

/-! ### Queues and tasks -/

/-- Queue 0's entry, with its ring and completion ring of 16 entries in system-die SRAM (R244). -/
def entry0 (tail : W64) : List (Nat × W64) :=
  [(0x100040200000, 0x0004100040300000), (0x100040200008, tail), (0x100040200010, 0x0004100040310000), (0x100040200028, 2)]

/-- A running device with queue 0's entry, and with the queue enabled. -/
def queued (tail : W64) : Dev := mapped [(rk pgSys 0x430, 0x100040200000)] (entry0 tail)
def enabled (tail : W64) : Dev := (queued tail).setQueue 0 QState.start

/-- A device with a secure queue 0 entry. -/
def secured : Dev := (queued 0).put 0x100040200007 [0x10]

def ended (t : Ctx) : Dev := hold t (enabled 0x100000000)
def lone : Ctx := ctx (desc 0x100 0 0 0 0 0 0)

theorem witness_doorbell : let d := (st (enabled 0)).quiet
    d.doorbellOpen .host 0 = true ∧ (st secured).quiet.doorbellOpen .host 0 = false ∧ d.doorbellOpen .host 65536 = false
    ∧ ((st (queued 0)).quiet.queue? 0).all (fun x => !x.enabled) = true
    ∧ (d.queue? 0).map (fun x => x.enabled) = some true ∧ d.qTail 0 = 0 ∧ d.qHead 0 = 0 ∧ d.qRing 0 = 16 := by decide +kernel
theorem witness_doorbell_bounds : ((16 : W64).field 31 0 + 2 ^ 32 - 0) % 2 ^ 32 ≤ 16 ∧ ((17 : W64).field 31 0 + 2 ^ 32 - 0) % 2 ^ 32 > 16
    ∧ ((0xFFFFFFFF : W64).field 31 0 + 2 ^ 32 - 0) % 2 ^ 32 ≥ 2 ^ 31 := by decide
theorem test_doorbell : (ran (.doorbellWrite .host 0 16) (enabled 0)).map (fun d => (d.qTail 0, d.regb (pgDsp 0) 0x020 0)) = some (16, false)
    ∧ (ran (.doorbellWrite .host 0 17) (enabled 0)).map (fun d => (d.qTail 0, d.regb (pgDsp 0) 0x020 0)) = some (0, true) := by decide +kernel
theorem witness_queue_command : let w := wr .host 0x2000
    let d := (st (queued 0)).quiet
    d.mayWrite w.agent (pgDsp 0) 0x108 = true ∧ (wrBits w).field 14 13 = 1
      ∧ (let e := d.plainWrite (pgDsp 0) 0x108 w
         e.entryOk 0 = true ∧ (e.queue? 0).any (fun x => x.enabled) = false ∧ (e.core 0).ofQueue 0 = [] ∧ (e.core 0).dspFinit = false)
      ∧ (((st secured).quiet.plainWrite (pgDsp 0) 0x108 w).queueSecure 0 && !((st secured).quiet.plainWrite (pgDsp 0) 0x108 w).agentSecure .host) = true
      ∧ (((st (live [])).quiet.plainWrite (pgDsp 0) 0x108 w).entryOk 0) = false := by decide +kernel
theorem witness_queue_disable : let w := wr .host 0x4000
    (wrBits w).field 14 13 = 2 ∧ (((st (enabled 0)).quiet.plainWrite (pgDsp 0) 0x108 w).queue? 0).map (fun x => x.enabled) = some true := by decide +kernel
theorem witness_task_start : let d := (st (enabled 0x100000000)).quiet
    d.coreLive 0 = true ∧ (d.core 0).dspFinit = false ∧ d.ctx? 0 1023 = none ∧ d.startable 0 = some 0 ∧ d.queuePicked 0 0 = true
      ∧ (d.queue? 0).isSome = true ∧ ((d.freeOrphan 0 0).queue? 0).isSome = true := by decide +kernel
theorem test_task_start : (ran (.taskStart 0 1023) (enabled 0x100000000)).bind (fun d => (d.ctx? 0 1023).map (fun t => t.tseq)) = some 0 := by decide +kernel
theorem witness_complete : let d := (st (ended { lone with state := .running, opDone := true })).quiet
    d.coreLive 0 = true ∧ (d.core 0).dspFinit = false ∧ lone.cur.w0.bit 8 = true ∧ (ctx nop).cur.w0.bit 8 = false
      ∧ lone.settled = false ∧ ({ lone with spec := some (spec .writing true) }).settled = true
      ∧ ({ lone with spec := some (spec .writing true) }).waitsRoom = false := by decide +kernel

/-- A speculative task one of whose writes waits for room in the shadow area. -/
def roomless : Spec := { spec .writing false with excess := [.line 0x100040310000 (List.replicate 64 (some 7))] }
theorem witness_waits_room : ({ lone with spec := some roomless }).waitsRoom = true ∧ lone.status = 0 := by decide +kernel
theorem test_waits_room : (ran (.commandComplete 0 0) (ended { lone with state := .running, opDone := true, spec := some roomless })).map (fun d =>
    ((d.ctx? 0 0).map (fun t => (t.state, t.opDone)), d.word 0x100040310000)) = some (some (.running, true), 0)
    ∧ (ran (.specWriteoutDone 0 0) (ended { lone with state := .running, opDone := true, spec := some roomless })).map (fun d =>
    ((d.ctx? 0 0).map (fun t => (t.state, t.specOut, t.waitsRoom)), d.word 0x100040310000)) = some (some (.running, 1, false), 0x0707070707070707) := by
  decide +kernel
theorem witness_record : ({ lone with tseq := 0xFFFFFFFF }).tseq < 2 ^ 32 ∧ lone.tag < 2 ^ 16 ∧ lone.status < 2 ^ 8 ∧ lone.specOut < 4 ∧ lone.reason < 8 := by
  decide
theorem witness_retire : let d := (st (ended { lone with state := .retiring })).quiet
    d.coreLive 0 = true ∧ (d.ctx? 0 0).map (fun t => d.linesLate 0 t) = some none ∧ lone.spec = none := by decide +kernel
theorem test_retire : (ran (.taskRetire 0 0) (ended { lone with state := .retiring, status := 4, tag := 0xAB })).map (fun d =>
    (d.word 0x100040310000, d.ctx? 0 0, d.qField 0 3 63 32)) = some (0x000400AB00000000, none, 1) := by decide +kernel

/-! ### Block headers -/

theorem witness_header : pageBlk (pgDsp 7) = some (.dsp, 7) ∧ pageBlk (pgTbl 7) = some (.tbl, 7) ∧ pageBlk (pgUpd 1) = some (.upd, 1)
    ∧ pageBlk (pgGov 7) = some (.gov, 7) := by decide
theorem witness_halt : let d := (st (live [])).quiet
    let w := wr .host 4
    d.agentSecure w.agent = false ∧ wrHit w 1 = false ∧ d.mayWrite w.agent (pgDsp 0) 0x010 = true ∧ d.mayWrite w.agent (pgTbl 0) 0x010 = true
      ∧ d.mayWrite w.agent (pgGov 0) 0x010 = true ∧ (d.merged (pgGov 0) 0x010 w).bit 2 = true := by decide +kernel
theorem witness_upd_halt : let d := (st (live [(rk (pgUpd 0) 0x010, 1)])).quiet
    d.mayWrite .host (pgUpd 0) 0x010 = true ∧ (d.merged (pgUpd 0) 0x010 (wr .host 5)).bit 0 = true ∧ d.regb (pgUpd 0) 0x010 0 = true := by decide +kernel
theorem witness_upd_enable : let d := (st (live [])).quiet
    d.mayWrite .host (pgUpd 0) 0x010 = true ∧ d.regb (pgUpd 0) 0x010 0 = false ∧ (d.merged (pgUpd 0) 0x010 (wr .host 1)).bit 0 = true
      ∧ (d.merged (pgUpd 0) 0x010 (wr .host 0)).bit 0 = false := by decide +kernel

/-- A FINIT of a page of a running device by a non-secure agent that leaves its other fields alone. -/
def finits (d : Dev) (b : Blk) (i : Nat) : Bool :=
  let p := b.page i
  let w := wr .host (2 + (d.reg p 0x010).setField 1 1 0)
  pageBlk p == some (b, i) && d.mayWrite w.agent p 0x010 && !d.agentSecure w.agent && wrHit w 1
    && (d.merged p 0x010 w).bit 2 == d.regb p 0x010 2 && (d.merged p 0x010 w).bit 0 == d.regb p 0x010 0 && !d.regb p 0x010 1
    && decide (d.setb p 0x010 2 (d.regb p 0x010 2) = d) && decide (d.setb p 0x010 0 (d.regb p 0x010 0) = d)

theorem witness_finit : let d := (st (live [(rk (pgUpd 0) 0x010, 1)])).quiet
    [Blk.dsp, .upd, .tbl, .arr, .core, .fab].all (fun b => finits d b 0) = true := by decide +kernel
theorem witness_finit_port : ((live [(rk (pgFab 0) 0x108, 2)]).setb (pgFab 0) 0x010 1 true).portState 0 ≠ 0 := by decide +kernel
theorem witness_finit_done : let d := (st (live [(rk (pgTbl 0) 0x010, 3), (rk (pgArr 0) 0x010, 3)])).quiet
    d.present (pgTbl 0) = true ∧ (pageHalf (pgTbl 0)).any d.running = true ∧ d.regb (pgTbl 0) 0x010 1 = true ∧ d.regb (pgArr 0) 0x010 1 = true
      ∧ (d.core 0).arraysBusy = false := by decide +kernel
theorem witness_error_clear : let d := (st (live [])).quiet
    d.mayWrite .host (pgDsp 0) 0x058 = true ∧ d.mayWrite .host (pgDsp 0) 0x0E0 = true ∧ d.mayWrite .host (pgDsp 0) 0x098 = true
      ∧ wrHit (wr .host 1) 0 = true ∧ wrHit (wr .host 0x80) 7 = true
      ∧ (d.merged (pgDsp 0) 0x098 (wr .host 5)).field 7 0 ≠ d.regf (pgDsp 0) 0x098 7 0 := by decide +kernel
theorem test_count_clear : (ran (.cntClear (pgDsp 0) (wr .host 0x80)) (live [(rk (pgDsp 0) 0x0D8, 9), (rk (pgDsp 0) 0x0A0, 5)])).map (fun d =>
    (d.reg (pgDsp 0) 0x0D8, d.reg (pgDsp 0) 0x0A0)) = some (0, 5) := by decide +kernel
theorem witness_register_write : let d := (st (live [])).quiet
    d.present (pgGov 7) = true ∧ [0x100, 0x118, 0x120, 0x128, 0x130, 0x138, 0x150].all (fun o => d.mayWrite .host (pgGov 7) o) = true
      ∧ [0x400, 0x610].all (fun o => d.mayWrite .fws pgSys o) = true := by decide +kernel

/-! ### Arrays, duty, temperature, governors -/

theorem witness_arr_ctrl : let d := (st (live [])).quiet
    d.mayWrite .host (pgArr 0) 0x100 = true ∧ (st (live [(rk (pgArr 0) 0x010, 9)])).quiet.mayWrite .host (pgArr 0) 0x100 = false
      ∧ (d.merged (pgArr 0) 0x100 (wr .host 1)).bit 0 = true ∧ (d.merged (pgArr 0) 0x100 (wr .host 0xFFF0)).bit 0 = false := by decide +kernel
def ramped (r : RampState) (n : Nat) : Dev := (live []).modCore 0 (fun k => { k with ramp := r, rampLeft := n })
theorem witness_ramp : let d := (st (ramped .clocked 0)).quiet
    d.coreLive 0 = true ∧ (d.core 0).ramp = .clocked ∧ (d.core 0).arraysWanted = false ∧ d.regb (pgArr 0) 0x100 0 = false
      ∧ (((ramped .waitingSlot 0).modHalf 0 (fun h => { h with rampQueue := [0, 2] })).half 0).rampQueue.head? = some 0
      ∧ ((ramped .rampDown 2).core 0).rampLeft = 2 ∧ ((ramped .rampDown 1).core 0).rampLeft ≤ 1 ∧ ((ramped .rampUp 1).core 0).ramp = .rampUp := by
  decide +kernel
theorem test_ramp_tick : (((ramped .rampDown 64).rampTick 0).core 0).rampLeft = 63 ∧ (((ramped .rampDown 1).rampTick 0).core 0).ramp = .gated := by
  decide +kernel
theorem witness_duty : ([0, 1].filter (fun c => !(fun c => decide (c = 0)) c)).any (fun c => decide ((fun _ => 9) c > 8)) = true
    ∧ ([0, 1].filter (fun c => !(fun c => decide (c = 0)) c)).any (fun c => decide ((fun _ => 8) c > 8)) = false
    ∧ ([0, 1].filter (fun c => decide (c = 0))).any (fun c => decide ((fun _ => 63) c < 64)) = true
    ∧ ([0, 1].filter (fun c => decide (c = 0))).any (fun c => decide ((fun _ => 64) c < 64)) = false
    ∧ (97 : Nat) * 100 ≥ 100 * 97 ∧ (96 : Nat) * 100 < 100 * 97 ∧ (101 : Nat) > 100 := by decide
theorem witness_power_update : (st (live [])).quiet.up = true
    ∧ (st { live [] with cap := (live []).cap.setField 15 15 0 }).quiet.corePresent 7 = false := by
  decide +kernel
theorem witness_throttle : let l : List Reading := [{ sensor := 0, temp := 800 }, { sensor := 1, temp := 1201 }]
    (l.filter (fun r => sensorHalf r.sensor == some 0 && !(inRange r))).length ≤ 8
      ∧ hottest (l.filter (fun r => inRange r && (sensorHalf r.sensor == some 0 || sensorHalf r.sensor == none))) = some { sensor := 0, temp := 800 }
      ∧ (live []).calledStep 800 > ((live []).half 0).therm := by decide +kernel
theorem witness_sample : (st (live [])).quiet.sensorPresent 135 = true ∧ inRange { sensor := 135, temp := 879 } = true
    ∧ inRange { sensor := 135, temp := -320 } = true ∧ inRange { sensor := 135, temp := -321 } = false := by decide +kernel
def hotOnce : Dev := { live [] with power := { (live []).power with hot := [135] } }
theorem witness_trip : (st hotOnce).quiet.up = true ∧ (st hotOnce).quiet.sensorPresent 135 = true
    ∧ inRange { sensor := 135, temp := 880 } = true ∧ (st hotOnce).quiet.power.hot.contains 135 = true := by decide +kernel
theorem test_trip : (ran (.thermalSample [{ sensor := 135, temp := 880 }]) hotOnce).map
    (fun d => (d.power.tripLow, d.power.seq, d.up, d.regb pgPmu 0x158 0)) = some (true, .down, false, true) := by decide +kernel
def governing (busy held : Bool) : Dev := (mapped [] []).modGov 0 (fun g => { g with busy := busy, held := held, ended := busy })
theorem witness_epoch : let d := (st (governing true true)).quiet
    d.mayWrite .host (pgGov 0) 0x108 = true ∧ wrHit (wr .host 1) 0 = true ∧ d.coreLive 0 = true ∧ (d.core 0).gov.busy = true
      ∧ (d.core 0).gov.held = true ∧ (d.core 0).gov.ended = true
      ∧ ((st (governing true false)).quiet.core 0).gov.held = false ∧ ((st (governing true false)).quiet.core 0).gov.ended = true
      ∧ d.mayWrite .host (pgGov 0) 0x148 = true := by decide +kernel

/-! ### The fetch engine, translation, far stores, memory -/

def region0 : Region := { base := 0x100000, extent := 0x1000, raDist := 1, dir := 0, cursor := some 0x4000, lastLine := none, descends := false, stop := none }
/-- A task with a run-ahead region whose lines lie in DRAM, in a near store, or translate to nothing. -/
def ahead (leaf : W64) : Dev :=
  hold { ctx nop with regions := [{ region0 with base := 0x400000, cursor := some 0x10000 }] }
    (mapped [(rk (pgFet 0) 0x100, 0x41), (rk pgSys 0x448, 0x10002)] [(0x100040020010, leaf)])
def aheadOf (d : Dev) : Option Nat :=
  ({ region0 with base := 0x400000, cursor := some 0x10000 }).ahead.find? (fun l =>
    !(d.physOf (l * 64)).any (fun pa => (d.core 0).ra.any (fun y => y.ctx == 0 && y.line == pa / 64)))
theorem witness_ahead : [0x17, 0x100000000017, 0].all (fun e => let d := (st (ahead e)).quiet
      d.coreLive 0 && d.regb (pgFet 0) 0x100 0 && d.regf (pgFet 0) 0x100 6 1 != 0 && aheadOf d == some 0x10000) = true := by decide +kernel
theorem witness_ahead_dram : let d := (st (ahead 0x17)).quiet
    let r := d.translate 0 0x400000 false false
    r.2.toOption = some 0 ∧ inDramOrCarve (r.1.space 0) = true ∧ r.1.reachesFrom 0 0 = true
      ∧ ((((r.1.count (pgFet 0) 0x01 1).modCtx 0 0 (fun t => t)).loadLine 0).2).isNone = true := by decide +kernel
theorem witness_ahead_dropped : ((st (ahead 0x100000000017)).quiet.translate 0 0x400000 false false).2.toOption = some 0x100000000000
    ∧ (st (ahead 0x100000000017)).quiet.dropsRunAhead ((st (ahead 0x100000000017)).quiet.space 0x100000000000) = true
    ∧ ((st (ahead 0)).quiet.translate 0 0x400000 false false).2.toOption = none := by decide +kernel
theorem witness_fet_ctrl : let d := (st (live [])).quiet
    d.mayWrite .host (pgFet 0) 0x100 = true ∧ (d.merged (pgFet 0) 0x100 (wr .host 1)).field 6 1 = 0 ∧ (d.merged (pgFet 0) 0x100 (wr .host 3)).field 6 1 ≠ 0
      ∧ (d.core 0).specs = [] ∧ d.mayWrite .host (pgFet 0) 0x5F8 = true ∧ d.mayWrite .host (pgFet 0) 0x5F0 = true := by decide +kernel
theorem test_watch_write : (ran (.watchRegionWrite 0 63 true (wr .host 0x47F)) (live [])).map (fun d =>
    (d.reg (pgFet 0) 0x5F8, d.reg (pgFet 0) 0x7F8)) = some (0x440, 1) := by decide +kernel
theorem witness_tlbi : let d := (st (live [(rk pgSys 0x410, 1)])).quiet
    (st (live [])).quiet.mayWrite .fws pgSys 0x408 = true ∧ (wrBits (wr .fws 0x8000000000000000)).bit 63 = true
      ∧ (wrBits (wr .fws 0x8000000000000000)).field 49 48 ≠ 3 ∧ (st (live [])).quiet.regb pgSys 0x410 0 = false
      ∧ d.up = true ∧ d.regb pgSys 0x410 0 = true ∧ d.collHolds (d.reg pgSys 0x408) = false := by decide +kernel
theorem witness_carve : let d := (st (live [(rk pgSys 0x420, 2), (rk pgSys 0x428, 2)])).quiet
    d.mayWrite .fws pgSys 0x420 = true ∧ d.halfPresent 0 = true ∧ d.regb pgSys 0x428 0 = false ∧ d.carve 0 = 2 ∧ d.carveInUse 0 1 2 = false := by
  decide +kernel
theorem witness_flush : let d := (st (live [(rk pgPmu 0x150, 2)])).quiet
    (st (live [])).quiet.mayWrite .fws pgPmu 0x150 = true ∧ wrHit (wr .fws 1) 0 = true ∧ (st (live [])).quiet.regb pgPmu 0x150 1 = false
      ∧ d.regb pgPmu 0x150 1 = true := by decide +kernel
theorem witness_memory : (live []).space 0x100040000000 = .sram ∧ (live []).space 0x100000000000 = .near 0 0 ∧ Memory.wf (live []).mem = true := by
  decide +kernel
theorem test_interleave : placeOf false 0x1000000 0x40 = (1, 0) ∧ offsetOf false 0x1000000 1 0 = 0x40 ∧ placeOf true 0x1000 0x7FFF = (7, 0xFFF) := by
  decide
def patrolled (n : W64) : Dev := live [(rk (pgMem 0) 0x108, 2), (rk (pgMem 0) 0x130, 1), (rk (pgMem 0) 0x138, n), (rk pgSys 0x448, 0x10002)]
theorem witness_patrol : let d := (st (patrolled 0x1FFFFF)).quiet
    d.chanLive 0 = true ∧ d.chanState 0 = 2 ∧ d.dramReady 0 = true ∧ d.regb (pgMem 0) 0x130 0 = true ∧ (d.half 0).isolated = false
      ∧ 0x1FFFFF + 1 ≥ d.halfSize 0 / 8 / 64 := by decide +kernel
theorem test_patrol_wraps : (ran (.patrolScrubLine 0 []) (patrolled 0x1FFFFF)).map (fun d => d.reg (pgMem 0) 0x138) = some 0
    ∧ (ran (.patrolScrubLine 0 []) (patrolled 0x1FFFFE)).map (fun d => d.reg (pgMem 0) 0x138) = some 0x1FFFFF := by
  decide +kernel
theorem witness_sram_scrub : let d := (st (live [])).quiet
    d.up = true ∧ d.running 1 = true ∧ d.present (pgCore 7) = true ∧ 0x2800000 / 64 - 1 < 0x2800000 / 64 ∧ d.regb pgSys 0x450 0 = true := by decide +kernel
/-- An error word with the given symbols wrong, and a line of data. -/
def wrong (l : List Nat) : List Nat := errorWord l (List.replicate 80 0x5A)
def dataLine : List Byte := (List.range 64).map (BitVec.ofNat 8)

theorem witness_line_code : symbolsIn (wrong []) = [] ∧ symbolsIn (wrong [0, 7]) = [0, 7] ∧ deviceOf [0, 7] = 0 ∧ deviceOf [7, 8, 16] = 15 ∧ deviceOf [79] = 9
    ∧ symbolsIn (wrong [0, 8, 16, 24]) = [0, 8, 16, 24] ∧ deviceOf [0, 8, 16, 24] = 15
    ∧ ([0, 8, 16, 24].filter (fun x => x / 8 != 9)).length > 3 ∧ ([0, 8, 72, 73].filter (fun x => x / 8 != 9)).length ≤ 3 := by decide +kernel
theorem test_line_code : decodeLine none dataLine (wrong [0, 1, 2, 3, 4, 5, 6, 7]) = .corrected false 0 8 dataLine
    ∧ decodeLine none dataLine (wrong [0, 8, 16, 24]) = .failed ∧ decodeLine none dataLine (wrong []) = .clean := by decide +kernel
/-- A codeword has no syndrome, and the decoder's search finds the error that a beat carries (R406, R407). -/
theorem test_code_word : (rsSyndromes (rsEncode dataLine)).all (· == 0) = true
    ∧ rsFit [rsLocator 3] (rsSyndromes (xorWord (rsEncode dataLine) (wrong [3]))) = some [0x5A] := by decide +kernel

/-! ### Time -/

/-- A running raster of three lines, at a line. -/
def raster (ctrl line : W64) : Dev := live [(rk pgFts 0x100, ctrl), (rk pgFts 0x110, 3), (rk pgFts 0x130, line), (rk pgFts 0x138, 0)]

theorem witness_raster : let d := (st (raster 0x40 1)).quiet
    d.ftsActive = true ∧ d.acquiring = false ∧ d.ftsLine + 1 < d.rasterLines ∧ (raster 0x40 2).rasterLines ≤ (raster 0x40 2).ftsLine + 1
      ∧ d.fsrc = false ∧ (live []).ftsActive = false ∧ ((raster 0x40 1).setb pgFts 0x138 5 true).acquiring = true := by decide +kernel
theorem test_raster_line : (ran .rasterLineBoundary (raster 0x40 1)).map (fun d => (d.ftsLine, d.ftsFrame)) = some (2, 0) := by
  decide +kernel
theorem witness_follower : (((live []).modHalf 1 (fun x => { x with schQueue := [(1, 2)] })).half 1).schQueue = (1, 2) :: [] := by decide +kernel
theorem witness_frame_in : let d := (st (raster 0x48 0)).quiet
    d.ftsActive = true ∧ d.fsrc = true ∧ true ≠ d.regb pgFts 0x100 5 ∧ d.fts.lost.contains 7 = false ∧ d.slewing = false ∧ d.acquiring = false
      ∧ (let due := d.fts.lastEdge + (if d.fts.edges ≥ 2 then d.fts.period else d.framePeriod)
         due ≤ due + d.lineLength ∧ (due + d.lineLength + 1) - due > d.lineLength) := by decide +kernel
theorem witness_sources : let d := (st (live [(rk pgFts 0x100, 1)])).quiet
    d.up = true ∧ d.sourceUsed 1 = true ∧ d.fts.lost.contains 1 = false ∧ d.tsrc ≠ 2 ∧ (st (live [(rk pgFts 0x100, 2)])).quiet.tsrc = 2
      ∧ d.tsrc ≠ 3 ∧ d.tsrc ≠ 4 ∧ (st (live [(rk pgFts 0x100, 3)])).quiet.tsrc = 3 ∧ (st (live [(rk pgFts 0x100, 4)])).quiet.tsrc = 4
      ∧ d.regb pgFts 0x138 1 = false := by decide +kernel
theorem witness_relock : ((live []).modFts (fun f => { f with lost := [1] })).up = true ∧ (-4 : Int) ≤ -4 ∧ (4 : Int) ≤ 4 := by decide +kernel
theorem witness_fts_write : let d := (st (live [])).quiet
    d.mayWrite .fws pgFts 0x118 = true ∧ d.mayWrite .fws pgFts 0x100 = true ∧ (d.merged pgFts 0x100 (wr .fws 5)).field 2 0 = 5
      ∧ (d.merged pgFts 0x100 (wr .fws 4)).field 2 0 = 4 ∧ (d.merged pgFts 0x100 (wr .fws 5)).bit 6 = d.ftsRun := by decide +kernel

/-! ### Update engines, keys, tables -/

/-- Engine 0 enabled and loaded, with slice 0 of 128 by 128 elements, its version word in DRAM and its areas at virtual 0. -/
def engine (f : Upd → Upd) : Dev :=
  (mapped [(rk pgSys 0x448, 0x10002), (rk (pgUpd 0) 0x010, 1), (rk (pgUpd 0) 0x100, 0x110000), (rk (pgUpd 0) 0x108, 1), (rk (pgUpd 0) 0x110, 0x111000),
      (rk (pgUpd 0) 0x120, 0x112000)]
    [(0x100040020010, 0x17), (0x100040110058, 0x400000), (0x100040110060, 0x80000080), (0x100040110068, 0x100010000)]).modUpd 0
    (fun u => f { u with loaded := true })

def job : RootJob := { slice := 0, step := 0, copy := 0, now := false }
def queuedSlice : Dev := engine (fun u => { u with arrivals := [{ slice := 0, step := 7, who := none }] })
def committing : Dev := engine (fun u => { u with current := some { slice := 0, step := 7, newRoots := false } })

theorem witness_slice : let d := (st queuedSlice).quiet
    d.canStart 0 = true
      ∧ (match (runU (d.modUpd 0 (fun u => { u with arrivals := [] })) (updateSlice 0 { slice := 0, step := 7, who := none })).1 with
         | .error (.fault 0 false 7) => true
         | _ => false) = true := by decide +kernel
theorem witness_commit : let d := (st committing).quiet
    d.updLive 0 = true ∧ (d.upd 0).loaded = true ∧ (d.upd 0).current = some { slice := 0, step := 7, newRoots := false }
      ∧ (match (runU d (commitWord 0 { slice := 0, step := 7, newRoots := false })).1 with
         | .ok x => x.2 == 1 && x.1.n == 1
         | .error _ => false) = true := by decide +kernel
theorem test_commit : (ran (.sliceCommit 0) committing).map (fun d => (d.word 0, d.word 0x100040111000, (d.upd 0).rootQueue.length))
    = some (0x70001, 0x70003, 1) := by decide +kernel
theorem witness_root : let d := (st (engine (fun u => { u with rootQueue := [job] }))).quiet
    d.updReady 0 = true ∧ (d.upd 0).rootRun = none ∧ (d.upd 0).current = none ∧ d.canStart 0 = false ∧ (d.upd 0).rootQueue = job :: []
      ∧ (match (runU (engine (fun u => { u with rootRun := some job })) (rootSlice 0 job)).1 with
         | .error (.fault 0 false 7) => true
         | _ => false) = true := by decide +kernel
theorem witness_scan : ((engine id).setb (pgUpd 0) 0x138 22 true).scanning 0 = true ∧ (engine id).updLive 0 = true := by decide +kernel
theorem witness_keys : let d := (st (live [])).quiet
    (d.mayWrite .fws pgSys 0x508 && wrHit (wr .fws 1) 0) = true ∧ (d.mayWrite .host pgSys 0x508 && wrHit (wr .host 1) 0) = false
      ∧ d.mayWrite .host (pgTbl 7) 0x100 = true ∧ (d.core 7).tableBusy = false
      ∧ ((hold { ctx (desc 4 0 0 0 0 0 0) with state := .running } (live [])).core 0).tableBusy = true := by decide +kernel

/-! ### Links and transport -/

/-- A port in a state with four lanes. -/
def linked (state ctrl : W64) : List (Nat × W64) := [(rk (pgFab 0) 0x108, state + 0x1F0), (rk (pgFab 0) 0x100, ctrl), (rk pgSys 0x600, 0x8000000000000001)]

theorem witness_links : let d := (st (live (linked 1 0))).quiet
    d.portLive 0 = true ∧ d.portState 0 = 1 ∧ (4, 15) ∈ widthList ∧ (1, 8) ∈ widthList ∧ d.minWidth 0 ≤ 1 ∧ (d.port 0).width = 0
      ∧ (live (linked 2 0)).portState 0 = 2 ∧ (live (linked 3 0)).portState 0 = 3 := by decide +kernel
theorem witness_retrain : let d := (st (live (linked 2 1))).quiet
    let w := wr .host 0x21
    d.portPresent 0 = true ∧ d.mayWrite w.agent (pgFab 0) 0x100 = true ∧ wrHit w 5 = true
      ∧ ((d.plainWrite (pgFab 0) 0x100 w).merged (pgFab 0) 0x100 w).field 1 0 = (d.plainWrite (pgFab 0) 0x100 w).regf (pgFab 0) 0x100 1 0
      ∧ (d.plainWrite (pgFab 0) 0x100 w).regf (pgFab 0) 0x100 1 0 ≠ 0 := by decide +kernel
theorem witness_mode : let d := (st (live (linked 0 0))).quiet
    let w := wr .host 1
    wrHit w 5 = false ∧ ((d.plainWrite (pgFab 0) 0x100 w).merged (pgFab 0) 0x100 w).field 1 0 = 1 ∧ d.modeEnabled 1 = true
      ∧ 1 ≠ (d.plainWrite (pgFab 0) 0x100 w).regf (pgFab 0) 0x100 1 0 ∧ (d.plainWrite (pgFab 0) 0x100 w).modeEnabled 1 = true := by decide +kernel

/-- A device with ID 1 whose port 0 is UP, with a route to device 5, and one DATA frame to it. -/
def wired (f : Ni → Ni) : Dev :=
  (mapped (linked 2 1 ++ [(rk pgSys 0x610, 0x100040250000)]) [(0x1000402500A0, 0x1000000000000), (0x1000402500A8, 1)]).modNi 0 f
def sent (n : Nat) : TxFrame :=
  { frame := { (live []).blankFrame 0 5 with src := 1, first := true, last := true, payload := [1] }, lane := 0, count := n, frames := 1, core := 0, ctx := 0, dead := false }

theorem witness_send : let d := (st (wired (fun x => { x with txq := [sent 0] }))).quiet
    (d.ni 0).txq.find? (fun t => t.frame.dst == 5 && t.frame.chan == 0 && !t.dead) = some (sent 0)
      ∧ d.niLive 0 = true ∧ d.devIdValid = true ∧ (d.peer 5).absent = false ∧ d.flowCredit 0 5 0 ≠ 0
      ∧ (let f := { (sent 0).frame with psn := (d.peer 5).txPsn, src := d.devId }
         (d.sendTo 0 (pickOf f (sent 0).lane) f).2 = true) := by decide +kernel
theorem test_send : (ran (.dataFrameSend 0 5 0) (wired (fun x => { x with txq := [sent 0] }))).map (fun d =>
    ((d.ni 0).txq.length, (d.ni 0).unacked.map (fun t => t.count), (d.peer 5).txPsn)) = some (0, [1], 1) := by decide +kernel

/-- A retransmission takes any of the route's ports: here there is one, or none. -/
theorem sendTo_one {d e : Dev} {h n : Nat} {r : Route} {f : Frame} (hr : d.route h f.dst = (e, r)) (hp : e.routePorts h r = [n]) (pick : Nat) :
    (d.sendTo h pick f).2 = true := by unfold Dev.sendTo; simp [hr, hp, Nat.mod_one]
theorem sendTo_none {d e : Dev} {h : Nat} {r : Route} {f : Frame} (hr : d.route h f.dst = (e, r)) (hp : e.routePorts h r = []) (pick : Nat) :
    (d.sendTo h pick f).2 = false := by unfold Dev.sendTo; simp [hr, hp]
theorem witness_timers : let d := (st ((wired (fun x => { x with unacked := [sent 7] })).modPeer 5 (fun p => { p with toAck := 1 }))).quiet
    (d.peer 5).toAck ≠ 0 ∧ (d.ni 0).unacked.find? (fun t => t.frame.dst == 5 && t.frame.psn == 0 && !t.dead) = some (sent 7) ∧ (sent 7).count < 8
      ∧ 8 ≤ (sent 8).count ∧ d.openWith 0 5 = true
      ∧ (let r := d.takeFree.1.route 0 (sent 7).frame.dst; r.1.routePorts 0 r.2 = [0])
      ∧ (let r := (d.setPortState 0 0 0 0).takeFree.1.route 0 (sent 7).frame.dst; r.1.routePorts 0 r.2 = []) := by decide +kernel

/-- A frame of a type from device 5, and its bytes on the link (R360). -/
def frame (type dst : Nat) : Frame := { (live []).blankFrame type dst with src := 5, payload := [1] }
def packet (type dst : Nat) : Packet := packetOf ethernet (frame type dst).aft true

theorem test_header : (frame 0 9).header.take 8 = [0x20, 0x08, 0, 5, 0, 9, 0, 0x30] ∧ (frame 0 9).header.drop 30 = [0, 1, 0, 0, 0, 0] := by decide +kernel
theorem witness_receive : let d := (st (wired id)).quiet
    [0, 1, 2, 3, 5, 6].all (fun t =>
      let r := receive d 0 (packet t 1)
      r.2 == some (frame t 1) && r.1.devIdValid && r.1.devId == 1 && !(r.1.peer 5).absent && r.1.niLive 0) = true ∧ (packet 0 1).fcsOk = true := by
  decide +kernel
/-- A frame one bit of whose header has changed fails its ICRC and is counted (R360). -/
theorem test_bad_frame : let p := { packet 0 1 with aft := patchBits (packet 0 1).aft 12 1 1 }
    ((receive (st (wired id)).quiet 0 p).2, (receive (st (wired id)).quiet 0 { p with aft := putHops (packet 0 1).aft 1 }).2.map (fun f => f.hops))
      = (none, some 1) := by decide +kernel
theorem witness_duplicate : (((frame 0 1).psn + 2 ^ 32 - 1) % 2 ^ 32 ≥ 2 ^ 31) ∧ (0 + 2 ^ 32 - 0) % 2 ^ 32 < 2 ^ 31
    ∧ 4096 ≤ (4096 + 2 ^ 32 - 0) % 2 ^ 32 ∧ (0 ∉ ((live []).peer 5).rxSet) := by decide +kernel
theorem witness_llr : let d := (((wired id).setb (pgFab 0) 0x108 9 true).modPort 0 (fun p => { p with replay := [(0, packet 0 5)] }))
    let r := receive d 0 (packet 8 0)
    r.2 = some (frame 8 0) ∧ (packet 8 0).fcsOk = true ∧ r.1.llrOn 0 = true ∧ (r.1.port 0).replay.dropWhile (fun g => g.1 != (frame 8 0).lseq) ≠ []
      ∧ (receive d 0 (packet 7 0)).2 = some (frame 7 0) ∧ d.portUp 0 = true ∧ (d.count (pgFab 0) 0x04 1).llrOn 0 = true := by decide +kernel
theorem witness_relay : let r := receive (st (wired id)).quiet 0 (packet 0 9)
    r.2 = some (frame 0 9) ∧ r.1.devIdValid = true ∧ (frame 0 9).dst ≠ r.1.devId ∧ (frame 0 9).type ≠ 6 ∧ (frame 0 9).isLlr = false := by decide +kernel
theorem witness_rate : let p : Pace := { rate := 1000, clean := 0, marks := 3, acked := 4 }
    p.marks ≤ p.acked ∧ 64 ≤ 128 ∧ p.acked ≠ 0 ∧ p.marks * 256 > 128 * p.acked
      ∧ 2 * 256 ≤ 128 * 4 ∧ 64 * 4 < 2 * 256 ∧ 1 * 256 ≤ 64 * 4 := by decide
theorem test_rate_cut : nextPace { rate := 1000, clean := 0, marks := 4, acked := 4 } 4000 128 64 1 1 = ({ rate := 500, clean := 0, marks := 0, acked := 0 }, true) := by
  decide
theorem witness_rate_window : let d := (st ((wired id).modPeer 5 (fun p => { p with pace := some { rate := 1, clean := 0, marks := 0, acked := 0 } }))).quiet
    d.niLive 0 = true ∧ (d.peer 5).pace.isSome = true := by decide +kernel
theorem witness_routes : let d := (st (live [(rk pgSys 0x618, 0x8000000000008000)])).quiet
    (st (live [])).quiet.mayWrite .fws pgSys 0x618 = true ∧ wrHit (wr .fws 0x8000000000000000) 63 = true ∧ (st (live [])).quiet.regb pgSys 0x618 63 = false
      ∧ d.up = true ∧ d.regb pgSys 0x618 63 = true ∧ d.regb pgSys 0x618 15 = true
      ∧ (live [(rk pgSys 0x618, 0x8000000000000005)]).regb pgSys 0x618 15 = false ∧ d.mayWrite .host (pgNi 1) 0x820 = true := by decide +kernel

/-! ### DRAM training, links between the dies -/

/-- Channel 0 in a state of R402 with its record of R403 at the start of a page of system-die SRAM. -/
def channel (state : W64) (f : Channel → Channel) : Dev :=
  (mems [(0x100040260000, 5), (0x100040260008, 0x17C4D58CF)] (live [(rk (pgMem 0) 0x108, state), (rk (pgMem 0) 0x118, 0x100040260000)])).modChan 0 f
def trained (kind : Nat) (ok : Bool) : TrainResult :=
  { kind := kind, size := 2, width := 4, devices := 10, ranks := if ok then 2 else 3, rated := 12800, serial := 5, spdCrc := 0, temp := 15, verified := true, trained := ok, params := [] }

theorem witness_training : let d := (st (live [])).quiet
    d.mayWrite .fws pgSys 0x440 = true ∧ wrHit (wr .fws 0x100) 8 = true ∧ wrHit (wr .fws 0) 8 = false ∧ d.regb pgSys 0x448 0 = false
      ∧ d.chanLive 15 = true ∧ d.chanOffline 15 = false ∧ (live [(rk pgSys 0x448, 1)]).regb pgSys 0x448 0 = true := by decide +kernel
theorem witness_trained : let d := (st (channel 1 id)).quiet
    d.chanLive 0 = true ∧ d.chanState 0 = 1 ∧ (trained 0 true).kind = 0 ∧ moduleFits (trained 1 false) = false
      ∧ moduleFits (trained 2 true) = true ∧ moduleRateFits (trained 2 true) (d.regf pgSys 0x440 1 0) = false
      ∧ moduleFits (trained 1 true) = true ∧ moduleRateFits (trained 1 true) (d.regf pgSys 0x440 1 0) = true ∧ (d.chan 0).restore = false := by decide +kernel
theorem witness_restore : let d := (st (channel 1 (fun c => { c with restore := true }))).quiet
    (d.chan 0).restore = true ∧ (d.setReg (pgMem 0) 0x110 (BitVec.ofNat 64 (5 % 2 ^ 32 + 0 % 2 ^ 16 * 2 ^ 32))).restoreOk 0 (trained 1 true) = true := by
  decide +kernel
theorem witness_offline : let d := (st (channel 2 (fun c => { c with retries := 8 }))).quiet
    d.chanLive 0 = true ∧ d.chanOffline 0 = false ∧ d.mayWrite .fws (pgMem 0) 0x100 = true ∧ wrHit (wr .fws 1) 0 = true ∧ 8 ≤ (d.chan 0).retries
      ∧ ((channel 2 (fun c => { c with retries := 7 })).chan 0).retries < 8 := by decide +kernel
theorem witness_flit : let d := (st { live [(rk pgDbw 0x100, 1)] with flits := [(1, { expect := 65535, fails := 1 })] }).quiet
    d.up = true ∧ d.regb pgDbw 0x100 0 = true ∧ d.regb pgDbw 0x100 1 = false ∧ (65535 : Nat) % 2 ^ 16 = 65535
      ∧ max 1 ((live [(rk pgDbw 0x108, 1)]).regf pgDbw 0x108 7 0) ≤ 1 ∧ 1 < max 1 (d.regf pgDbw 0x108 7 0) := by decide +kernel
theorem witness_ucie : (st (live [(rk (pgUci 0) 0x100, 1)])).quiet.uciUp 0 = true := by decide +kernel
theorem witness_isolation : let d := (st (live [])).quiet
    d.running 1 = true ∧ (d.half 1).isolated = false := by decide +kernel

/-! ### Mailboxes and services -/

/-- Channel 16 of the mailboxes with a message of words, on a device whose firmware serves. -/
def posted (ctrl : W64) (ws : List W64) : Dev :=
  let d := live ([(rk pgSys 0x908, 1), (rk (mbxPage 16) (mbxBase 16 + 0x60), ctrl), (rk (pgMbx 0) 0x280, 0x8010)]
    ++ ((List.range ws.length).zip ws).map (fun x => (rk (mbxPage 16) (mbxBase 16 + 8 * x.1), x.2)))
  { d with sec := { d.sec with booted := true } }

theorem witness_mailbox : let d := (st (posted 0 [])).quiet
    let e := (st (posted 0x101 [])).quiet
    d.mbxMay .host 16 (d.mbxSender 16) = true ∧ d.mbxGoBit 16 = false ∧ d.regb (pgMbx 0) (0x200 + 8 * 16) 15 = true ∧ e.mbxGoBit 16 = true
      ∧ (d.setReg (pgMbx 0) 0x280 0x10).regb (pgMbx 0) (0x200 + 8 * 16) 15 = false ∧ e.mbxMay .fwn 16 (e.mbxReceiver 16) = true
      ∧ KV.get [] e.svc.heldOut 16 = [] ∧ (12 : Nat) ≤ 12 := by decide +kernel
theorem test_mailbox_go : (ran (.mbxGo .host 16) (posted 0 [])).map (fun d =>
    (d.mbxGoBit 16, d.regf (mbxPage 16) (mbxBase 16 + 0x60) 23 16)) = some (true, 1) := by decide +kernel
theorem witness_mailbox_cfg : let d := (st (posted 0 [])).quiet
    d.mayWrite .fws (pgMbx 0) 0x280 = true ∧ (mbxNames 16 0 && mbxNames 16 12) = true ∧ (mbxNames 16 2 && mbxNames 16 0) = false
      ∧ (d.merged (pgMbx 0) 0x280 (wr .fws 0xC0)).field 3 0 = 0 ∧ (d.merged (pgMbx 0) 0x280 (wr .fws 0xC0)).field 7 4 = 12
      ∧ (d.merged (pgMbx 0) 0x280 (wr .fws 2)).field 3 0 = 2 := by decide +kernel

/-- The request is taken from channel 16. -/
def takes (service op : Nat) (rest : List W64) : Bool :=
  ((st (posted 0xC01 (BitVec.ofNat 64 (service + 256 * op) :: rest))).quiet.takeRequest (.channel 16) service op).isSome

theorem witness_requests : ([(5, 1), (5, 2), (5, 3), (5, 4), (4, 1), (4, 2), (6, 1), (1, 1), (2, 1), (3, 1)].all (fun x => takes x.1 x.2 [])) = true := by
  decide +kernel
theorem witness_route_load : let d := (live [(rk pgSys 0x448, 0x10002), (rk pgSys 0x610, 0x100040250000)])
    d.rangeOk 0 (32 * 1) inDram = true ∧ d.rangeOk 0 (32 * 1) fwReach = true ∧ d.rangeOk (d.regf pgSys 0x610 47 12 * 4096) (32 * 1) fwReach = true
      ∧ (d.load 0 (32 * 1)).2.2 = none := by decide +kernel
theorem witness_queue_map : let d := mapped [(rk pgPci 0x110, 30)] [(0x100040020010, 0x100040030001)]
    ((tableEntryOf 0x400000).run.run d).1.toOption = some 0x100040030000 ∧ 0x400000 % 65536 = 0 ∧ (d.reg pgPci 0x100).toNat ≤ 0x400000
      ∧ 0x400000 < (d.reg pgPci 0x100).toNat + 2 ^ d.regf pgPci 0x110 5 0 ∧ d.corePresent (65535 / 8192) = true := by decide +kernel
theorem witness_datagram : let d := (st { posted 0 [] with sec := { (posted 0 []).sec with sessions := [(.mgmtPort, 1)] } }).quiet
    d.up = true ∧ d.sec.booted = true ∧ d.sec.sessions.contains (.mgmtPort, 1) = true ∧ (List.replicate 12 (0 : W64)).length = 12
      ∧ d.serving = true ∧ d.svc.telemetry = false := by decide +kernel
def asked (run : Bool) : IngestReq := { words := [], via := .mgmt, run := run }
theorem witness_ingest : freeSlot (posted 0 []).svc.ingests = some 0 ∧ freeSlot ((List.range 16).map (fun i => (i, asked false))) = none
    ∧ [(3, asked true)].find? (fun x => x.1 == 3) = some (3, asked true) ∧ (posted 0 []).serving = true := by decide +kernel
theorem witness_checkpoint : let d := (st (posted 0xC01 [0x0102])).quiet
    d.svc.ckpt = none ∧ d.allPinned 0 = false
      ∧ (let e := (d.setReg (pgUpd 0) 0x130 0x8000000000000000).setReg (pgUpd 1) 0x130 0x8000000000000000
         e.allPinned 0 = true ∧ (imageBytes.run.run e).1.toOption = some 8192 ∧ ((checkpointImage 0).run.run e).1.toOption.isSome = true) := by decide +kernel
theorem witness_checkpoint_fits : 8192 ≤ (drivePlace [0, 0, 0, 16]).2.2.2 * blockSize (drivePlace [0, 0, 0, 16]).1 (drivePlace [0, 0, 0, 16]).2.1 := by
  unfold blockSize
  split <;> decide
theorem witness_restore_work : let d := (posted 0 []).setReg (pgUpd 0) 0x010 1
    (runS d (restoreWork [])).2.isSome = true ∧ d.doneReaches 0 = true := by decide +kernel

/-! ### The host interface -/

/-- BAR2 of 2^30 bytes at virtual 0 with a page in DRAM at 400000. -/
def bar2 (booted : Bool) : Dev :=
  let d := mapped [(rk pgSys 0x908, 1), (rk pgSys 0x448, 0x10002), (rk pgPci 0x110, 30)] [(0x100040020010, 0x17)]
  { d with sec := { d.sec with booted := booted } }

theorem witness_bar2 : let d := (st (bar2 true)).quiet
    d.up = true ∧ d.serving = true ∧ (st (bar2 false)).quiet.serving = false ∧ 0x400000 + 8 ≤ d.bar2Size
      ∧ (let r := bar2Parts false (pageChunks ((d.reg pgPci 0x100).toNat + 0x400000) 8) (d.count pgPci 0x01 1)
         r.2 = some [(0, 8)] ∧ r.1.reaches 0 = true ∧ (r.1.load 0 8).2.2 = none)
      ∧ (let r := bar2Parts true (pageChunks ((d.reg pgPci 0x100).toNat + 0x400000) 8) (d.count pgPci 0x02 1)
         r.2 = some [(0, 8)] ∧ r.1.reaches 0 = true)
      ∧ (bar2Parts false (pageChunks ((d.reg pgPci 0x100).toNat + 0x600000) 8) (d.count pgPci 0x01 1)).2 = none := by decide +kernel
theorem test_bar2 : (ran (.bar2Access true 0x400010 2 [1, 2]) (bar2 true)).map (fun d => (d.byte 0x10, d.byte 0x11)) = some (1, 2) := by decide +kernel
theorem witness_host_link : (st (live [])).quiet.up = true ∧ 16 ∈ linkWidths ∧ (posted 0 []).mbxReceiver 16 ≠ 4 := by decide +kernel

/-! ### Security -/

/-- A request for the security block in channel 0 of a booted device. -/
def secPosted (ws : List W64) : Dev :=
  let d := live ([(rk (mbxPage 0) (mbxBase 0 + 0x60), 0xC01)] ++ ((List.range ws.length).zip ws).map (fun x => (rk (mbxPage 0) (mbxBase 0 + 8 * x.1), x.2)))
  { d with sec := { d.sec with booted := true } }

theorem witness_boot : (st (live [])).quiet.up = true ∧ (live []).regf pgSec 0x100 3 0 = 0 ∧ (live [(rk pgSec 0x100, 3)]).regf pgSec 0x100 3 0 ≠ 0 := by
  decide +kernel
theorem witness_sec_requests : ([1, 2, 3, 4].all (fun op => ((st (secPosted [BitVec.ofNat 64 (0x20 + 256 * op)])).quiet.secRequest op).isSome)) = true := by
  decide +kernel
theorem witness_verify_load : (0x8000000000000000 : W64).bit 63 = true ∧ (0x102 : W64).field 7 0 = 2
    ∧ (loadTargets ((0x102 : W64).field 23 8)).all ((live []).targetOk 2) = true ∧ loadTargets ((0x102 : W64).field 23 8) = [0] := by decide +kernel
theorem witness_arb : (∀ n ∈ (secPosted []).runningSvns, 64 ≤ n) ∧ (st (live [])).fuses.arb < 64 ∧ (64 : Nat) ≤ 64 := by decide +kernel
theorem witness_owner : ((pread 0x100040000000 133).run.run (secPosted [])).1.toOption = some (List.replicate 133 0) := by decide +kernel
theorem test_arb : (match exec .arbAdvance (st (secPosted [0x220, 64])) with
    | .next s => (s.fuses.arb, s.dev.reg pgSec 0x108)
    | _ => (0, 0)) = (64, 64) := by decide +kernel

/-- A device whose connection on a transport is ready. -/
def connected (t : Transport) (n : Nat) (sessions : List (Transport × Nat)) (pending : List (Transport × Nat × Bool)) : Dev :=
  let d := live [(rk pgSec 0x148, 1)]
  { d with sec := { d.sec with booted := true, conns := [(t, n)], sessions := sessions, pendingKx := pending } }

theorem witness_spdm : let d := (st (connected .doe 3 [(.doe, 1)] [(.doe, 2, true)])).quiet
    let e := d.count pgSec 0x03 1
    d.up = true ∧ d.sec.booted = true ∧ e.conn .doe ≥ 3 ∧ (e.measurement (st d).fuses 1).isSome = true ∧ (e.measurement (st d).fuses 6).isSome = true
      ∧ e.sec.pendingKx.find? (fun x => x.1 == .doe) = some (.doe, 2, true) ∧ e.spdmSessions .doe < 4 ∧ e.sec.sessions.contains (.doe, 1) = true := by
  decide +kernel
theorem witness_spdm_limit : let d := (st (connected .doe 3 [(.doe, 1), (.doe, 2), (.doe, 3), (.doe, 4)] [])).quiet
    let e := d.count pgSec 0x03 1
    4 ≤ e.spdmSessions .doe ∧ e.canSign = true ∧ Transport.doe ≠ .mgmtPort := by decide +kernel

/-! ### Power and reset -/

/-- A powered device with its power controller changed. -/
def powered (f : Power → Power) : Dev := { live [] with power := f (live []).power }

theorem witness_power_on : (powered (fun p => { p with aux := false })).power.aux = false := by decide +kernel
theorem witness_good : let d := (st (powered (fun p => { p with enable := [true, false, false, false], good := [false, false, false, false], seq := .waitGood 0 }))).quiet
    d.power.aux = true ∧ d.groupPresent 0 = true ∧ d.enableOf 0 = true ∧ d.goodOf 0 = false ∧ d.power.seq = .waitGood 0 ∧ d.nextGroup.isSome = true := by
  decide +kernel
theorem witness_good_last : let d := (st (powered (fun p => { p with good := [true, true, true, false], seq := .waitGood 3 }))).quiet
    d.groupPresent 3 = true ∧ d.enableOf 3 = true ∧ d.goodOf 3 = false ∧ d.nextGroup = none ∧ d.pstate ≠ 3 := by decide +kernel
theorem witness_next_group : let d := (st (powered (fun p => { p with enable := [true, false, false, false], seq := .waitNext 0 }))).quiet
    d.power.seq = .waitNext 0 ∧ d.nextGroup.isSome = true := by decide +kernel
theorem witness_good_loss : let d := (st (live [])).quiet
    d.power.aux = true ∧ d.groupPresent 3 = true ∧ d.enableOf 3 = true ∧ d.goodOf 3 = true ∧ d.power.seq ≠ .down := by decide +kernel
theorem witness_down : let d := (st (powered (fun p => { p with enable := [true, false, false, false], seq := .down }))).quiet
    d.power.seq = .down ∧ [3, 2, 1, 0].find? d.enableOf = some 0 ∧ [3, 2, 1, 0].find? (live []).enableOf = some 3 := by decide +kernel
theorem test_power_on : (ran .powerOnReset (powered (fun p => { p with aux := false }))).map (fun d => d.power.enable) = some [true, false, false, false] := by
  decide +kernel
theorem witness_resets : let d := (st (live [])).quiet
    d.sysOn = true ∧ d.power.rstLow = false ∧ d.power.perstLow = false ∧ d.up = true ∧ d.mayWrite .fws pgPmu 0x120 = true ∧ wrHit (wr .fws 1) 0 = true
      ∧ d.dram = [] := by decide +kernel
theorem witness_release : let d := (st (powered (fun p => { p with inReset := true }))).quiet
    d.power.inReset = true ∧ d.power.rstLow = false ∧ d.power.perstLow = false ∧ d.power.hotReset = false ∧ d.sysOn = true ∧ d.noPowerFault = true
      ∧ d.power.seq = .idle ∧ d.nextGroup = none := by decide +kernel
theorem witness_half_run : let d := (st Dev.reset).quiet
    d.mayWrite .fws pgPmu 0x110 = true ∧ wrHit (wr .fws 1) 0 = true ∧ wrHit (wr .fws 1) 1 = false ∧ d.halfPresent 0 = true ∧ d.enableOf 1 = true
      ∧ d.goodOf 1 = true := by decide +kernel
theorem witness_profile : let d := (st { Dev.reset with cap := Dev.reset.cap.setField 3 2 1 }).quiet
    d.mayWrite .fws pgPmu 0x108 = true ∧ d.halvesHeld = true ∧ (live []).halvesHeld = false ∧ d.cap.field 3 2 = 1
      ∧ (d.merged pgPmu 0x108 (wr .fws 1)).bit 0 = true ∧ (d.merged pgPmu 0x108 (wr .fws 0)).bit 0 = false ∧ d.mayWrite .fws pgPmu 0x100 = true := by
  decide +kernel
theorem witness_limit : let d := (st (live [])).quiet
    d.mayWrite .fws pgPmu 0x130 = true ∧ (d.merged pgPmu 0x130 (wr .fws 300)).field 15 0 = 300
      ∧ (d.merged pgPmu 0x130 (wr .fws 700)).field 15 0 ≤ d.profileLimit := by decide +kernel
theorem witness_standby : let d := (st (live [])).quiet
    let e := d.plainWrite pgPmu 0x118 (wr .fws 1)
    d.mayWrite .fws pgPmu 0x118 = true ∧ e.pstate = 0 ∧ e.regb pgPmu 0x118 0 = false ∧ (d.merged pgPmu 0x118 (wr .fws 1)).bit 0 = true ∧ e.standbyOk = true
      ∧ (((enabled 0).plainWrite pgPmu 0x118 (wr .fws 1)).standbyOk) = false := by decide +kernel
theorem witness_standby_exit : let d := (st (live [(rk pgPmu 0x118, 0x21)])).quiet
    let e := d.plainWrite pgPmu 0x118 (wr .fws 0)
    e.pstate = 2 ∧ e.regb pgPmu 0x118 0 = true ∧ (d.merged pgPmu 0x118 (wr .fws 0)).bit 0 = false
      ∧ (live [(rk pgPmu 0x118, 0x31)]).pstate = 3 ∧ (live [(rk pgPmu 0x118, 0x31)]).regb pgPmu 0x118 0 = true
      ∧ (live [(rk pgPmu 0x118, 0x30)]).pstate = 3 ∧ (live [(rk pgPmu 0x118, 0x30)]).regb pgPmu 0x118 0 = false
      ∧ (live []).power.seq = .idle ∧ (live []).goodOf 1 = true ∧ (live []).goodOf 2 = true := by decide +kernel
theorem witness_restart : let d := (st (powered (fun p => { p with enable := [false, false, false, false] }))).quiet
    d.power.aux = true ∧ d.reg pgPmu 0x158 = 0 ∧ d.power.seq = .idle ∧ d.enableOf 0 = false := by decide +kernel
theorem witness_thm_ctrl : let d := (st (live [])).quiet
    let x := d.merged pgThm 0x100 (wr .fws 0x0A6D6C6B)
    d.mayWrite .fws pgThm 0x100 = true ∧ x.field 7 0 < x.field 15 8 ∧ x.field 15 8 < x.field 23 16 ∧ x.field 23 16 < 110 ∧ 1 ≤ x.field 31 24
      ∧ x.field 31 24 ≤ 10 ∧ ¬ (d.merged pgThm 0x100 (wr .fws 0x0A6E6C6B)).field 23 16 < 110
      ∧ ¬ (d.merged pgThm 0x100 (wr .fws 0x0A6D6B6B)).field 7 0 < (d.merged pgThm 0x100 (wr .fws 0x0A6D6B6B)).field 15 8 := by decide +kernel
theorem witness_voltage : let d := (st (live [])).quiet
    d.up = true ∧ d.halfPresent 1 = true ∧ d.goodOf 2 = true ∧ 600 ≤ 900 ∧ 599 < 600 ∧ 900 < 901 := by decide +kernel

/-! ### Trace and debug -/

/-- Debug level of a running device, eclipsed or not, with a trace ring of 1 MiB for half 0 in DRAM. -/
def debugged (lvl ecl : W64) : Dev := live [(rk pgSec 0x120, lvl), (rk pgTrc 0x300, ecl), (rk pgTrc 0x310, 9), (rk pgTrc 0x100, 0x10000)]

theorem witness_trace : let d := (st (debugged 0 0)).quiet
    d.mayWrite .fws pgTrc 0x118 = true ∧ d.up = true ∧ d.regf pgTrc 0x100 31 16 ≠ 0 ∧ d.halfPresent 1 = true := by decide +kernel
/-- Half 0's ring of 4 KiB at the start of DRAM, with HEAD at a place. -/
def ringed (head : W64) : Dev :=
  (live [(rk pgSys 0x448, 0x10002), (rk pgTrc 0x128, 1), (rk pgTrc 0x130, head)]).setRing 0
    { (live []).ringAt 0 with buf := [{ ts := 1, w1 := 2, p0 := 3, p1 := 4 }] }
theorem witness_ring : let d := (st (ringed 0)).quiet
    d.up = true ∧ d.halfPresent 0 = true ∧ d.ringOk 0 = true ∧ (d.ringAt 0).dropped = 0 ∧ (d.ringAt 0).buf ≠ [] ∧ d.ringRoom 0 ≠ 0
      ∧ (let e := ringDrain 0 d.traceBudget d
         (e.ringBytes 0 - 32 - e.ringRoom 0 * 32) * 4 ≤ (e.ringBytes 0 - 32) * 3)
      ∧ (let g := (st (ringed 3072)).quiet
         let e := ringDrain 0 g.traceBudget g
         (e.ringBytes 0 - 32) * 3 < (e.ringBytes 0 - 32 - e.ringRoom 0 * 32) * 4) := by decide +kernel
theorem test_ring : (ran (.traceBudgetWindow 0) (ringed 0)).map (fun d => (d.word 8, d.ringHead 0)) = some (2, 32) := by decide +kernel
theorem witness_eclipse : let d := (st (debugged 2 0)).quiet
    d.dbgLevel ≠ 0 ∧ d.mayWrite .fws pgTrc 0x300 = true ∧ wrHit (wr .fws 1) 0 = true ∧ wrHit (wr .fws 1) 1 = false ∧ d.agentSecure .fws = true
      ∧ d.eclipsed = false ∧ (debugged 2 4).eclipsed = true ∧ wrHit (wr .fws 2) 1 = true ∧ wrHit (wr .fws 2) 0 = false ∧ (debugged 0 0).dbgLevel = 0 := by
  decide +kernel
theorem witness_triggers : let d := (st { debugged 1 0x28 with aclkA := 9 }).quiet
    d.up = true ∧ d.dbgLevel ≠ 0 ∧ d.eclipsed = false ∧ d.regb pgTrc 0x300 3 = true ∧ d.reg pgTrc 0x310 ≠ 0 ∧ d.aclkA = d.reg pgTrc 0x310
      ∧ d.regb pgTrc 0x300 5 = true := by decide +kernel
theorem test_eclipse : (ran (.eclipseGo (wr .fws 1)) (debugged 2 0)).map (fun d => (d.eclipsed, d.regf pgTrc 0x300 15 8)) = some (true, 1) := by
  decide +kernel
theorem witness_scan_copy : let d := (st (debugged 2 4)).quiet
    let w := wr .fws 1
    d.mayWrite .fws pgTrc 0x320 = true ∧ wrHit w 0 = true ∧ (d.plainWrite pgTrc 0x320 w).eclipsed = true
      ∧ (d.plainWrite pgTrc 0x320 w).regb pgTrc 0x320 1 = false ∧ (live [(rk pgTrc 0x320, 2)]).regb pgTrc 0x320 1 = true ∧ (live []).up = true := by
  decide +kernel
theorem witness_jtag : (st (debugged 0 0)).dev.power.aux = true ∧ (st (debugged 0 0)).quiet.dbgLevel = 0 ∧ 1 ≤ (st (debugged 1 4)).quiet.dbgLevel
    ∧ (st (debugged 1 4)).quiet.eclipsed = true ∧ (st (debugged 1 4)).quiet.tap.ir ≠ 0x22 ∧ 2 ≤ (st (debugged 2 0)).quiet.dbgLevel := by decide +kernel
theorem witness_mem_access : let d := (st (debugged 2 0)).quiet
    let e := ({ d with tap := { d.tap with ir := 0x21, capture := [0, 0] } } : Dev).tapOut
    e.jtagMay 0x100040000000 = true ∧ e.space 0x100040000000 = .sram ∧ (e.load 0x100040000000 8).2.2 = none ∧ e.jtagMay 0x20000000000000 = false := by
  decide +kernel
theorem test_idcode : (ran .idcode (live [])).map (fun d => (d.out, d.tap.ir)) = some ([.word 0x1A522C7F], 2) := by decide +kernel

/-! ### Operands at hand

Pages 20 to 3F of virtual memory are pages of core 0's core store, page 40 lies in its table area, and its TLB holds them. -/

def nearLeaf (p : Nat) : Leaf := { frame := if p < 0x40 then 0x10000000 + p - 0x20 else 0x10000380 + p - 0x40, read := true, write := true, secure := false }

/-- A task whose operands lie in pages of its core's near store. -/
def handTask (t : Desc) (regs l : List (Nat × W64)) : Dev :=
  { unitTask t regs ((0x100040020010, 0x100003800017) :: l) with
    tlbs := (List.range 33).map (fun i => (tlbKey 0 ((0x20 + i) * 65536),
      { frame := (nearLeaf (0x20 + i)).frame, read := true, write := true, secure := false })) }

/-- What a command of the task of core 0, context 0 finds. -/
def atIssue (d : Dev) (t : Ctx) : Dev := (st d).quiet.issued 0 0 t
def who0 : Who := { core := 0, ctx := 0, secure := false }

def pageOk (d : Dev) (p : Nat) : Bool :=
  d.regb pgSys 0x400 63 && KV.find? d.tlbs (tlbKey 0 (p * 65536)) == some { frame := (nearLeaf p).frame, read := true, write := true, secure := false }
    && (match d.walk (p * 65536) with | .ok l => l == nearLeaf p | .error _ => false) && !d.seenStale (p * 65536)
    && (d.tableReads (p * 65536)).all (fun a => decide (a + 8 ≤ 0x100000000000) || decide (0x100020000000 ≤ a))
    && decide (0x100000000000 ≤ (nearLeaf p).frame * 65536) && decide ((nearLeaf p).frame * 65536 + 65536 ≤ 0x100004000000)

/-- The pages of a range are among some. -/
def within (ps : List Nat) (va n : Nat) : Bool := (List.range ((va + n - 1) / 65536 + 1 - va / 65536)).all (fun i => ps.contains (va / 65536 + i))

theorem page_of {d : Dev} {p : Nat} (hp : pageOk d p = true) : d.NearPage who0 p (nearLeaf p).frame := by
  unfold pageOk at hp
  simp only [Bool.and_eq_true, beq_iff_eq, Bool.not_eq_true', List.all_eq_true, Bool.or_eq_true, decide_eq_true_eq] at hp
  obtain ⟨⟨⟨⟨⟨⟨on, held⟩, walk⟩, fresh⟩, tables⟩, low⟩, high⟩ := hp
  refine ⟨on, held, ?_, fresh, tables, low, high⟩
  revert walk
  cases d.walk (p * 65536) with
  | error e => intro h; cases h
  | ok l => intro h; exact congrArg Except.ok (beq_iff_eq.1 h)

theorem page_in {d : Dev} {ps : List Nat} (h : ps.all (pageOk d) = true) {va n : Nat} (hv : within ps va n = true) {p : Nat}
    (h1 : va / 65536 ≤ p) (h2 : p * 65536 < va + n) : d.NearPage who0 p (nearLeaf p).frame := by
  have := List.all_eq_true.1 hv (p - va / 65536) (List.mem_range.2 (by omega))
  rw [show va / 65536 + (p - va / 65536) = p by omega] at this
  exact page_of (List.all_eq_true.1 h p (by simpa using this))

theorem near_of {d : Dev} {ps : List Nat} (h : ps.all (pageOk d) = true) {va n : Nat} (hv : within ps va n = true) : d.Near who0 va n :=
  fun _ h1 h2 => ⟨_, page_in h hv h1 h2⟩

/-- 64-bit words of these pages. -/
def nearWords (d : Dev) (va n : Nat) : List W64 :=
  (List.range n).map (fun i => d.word ((nearLeaf (va / 65536)).frame * 65536 + va % 65536 + 8 * i))

theorem vwords_near {d : Dev} {ps : List Nat} (h : ps.all (pageOk d) = true) {va n : Nat} (hv : within ps va (8 * n) = true)
    (hn : va % 65536 + 8 * n ≤ 65536) : d.vwords va n = nearWords d va n := by
  refine List.map_congr_left (fun i hi => ?_)
  have hi := List.mem_range.1 hi
  rw [vbytes_drop_take (by omega)]
  refine congrArg (fun l => BitVec.ofNat 64 (leNat l)) (List.map_congr_left (fun j hj => ?_))
  have hj := List.mem_range.1 hj
  have hp : (va + 8 * i + j) / 65536 = va / 65536 := by omega
  unfold Dev.vbyte
  rw [(Same.refl who0 d).nearPhys (page_in h hv (Nat.le_refl _) (by omega)) hp]
  exact congrArg d.byte (by omega)

/-- The tensor that an operand word names, whose accesses stay in some pages. -/
def named (d : Dev) (v : W64) (role : Role) : Tensor :=
  (d.tensorOf (v.field 47 0) role (nearWords d (v.field 47 0) 32)).getD (descTensor 0 [] .linear [] none)
def describesOk (d : Dev) (ps : List Nat) (v : W64) (role : Role) : Bool :=
  v.field 63 48 == 0 && (d.tensorOf (v.field 47 0) role (nearWords d (v.field 47 0) 32)).isSome && within ps (v.field 47 0) 256
    && v.field 47 0 % 65536 + 256 ≤ 65536
def elemsOk (ps : List Nat) (t : Tensor) : Bool :=
  decide (t.layout = .linear) && t.steer.isNone && t.paddedPositions.all (fun p => (t.touches p).all (fun r => within ps r.1 r.2))
def namesOk (d : Dev) (ps : List Nat) (v : W64) (role : Role) : Bool := describesOk d ps v role && elemsOk ps (named d v role)

section
variable {d : Dev} {ps : List Nat} (h : ps.all (pageOk d) = true)
include h

theorem atHand_of {t : Tensor} (ht : elemsOk ps t = true) : t.AtHand d who0 := by
  unfold elemsOk at ht
  simp only [Bool.and_eq_true, decide_eq_true_eq, Option.isNone_iff_eq_none, List.all_eq_true] at ht
  exact ⟨ht.1.1, ht.1.2, fun p hp r hr => near_of h (ht.2 p hp r hr)⟩

theorem describes_of {v : W64} {role : Role} (hv : describesOk d ps v role = true) : d.Describes who0 v role (named d v role) := by
  unfold describesOk at hv
  simp only [Bool.and_eq_true, beq_iff_eq, decide_eq_true_eq] at hv
  obtain ⟨⟨⟨h1, h2⟩, h3⟩, h4⟩ := hv
  refine ⟨h1, ?_, near_of h h3⟩
  unfold Dev.tensorAt named
  rw [vwords_near h h3 h4]
  cases hd : d.tensorOf (v.field 47 0) role (nearWords d (v.field 47 0) 32) with
  | none => rw [hd] at h2; cases h2
  | some t => rfl

theorem names_of {v : W64} {role : Role} (hv : namesOk d ps v role = true) : d.Names who0 v role (named d v role) := by
  unfold namesOk at hv
  rw [Bool.and_eq_true] at hv
  exact ⟨describes_of h hv.1, atHand_of h hv.2⟩

end

/-- The task of core 0, context 0 is plain; and it issues its command. -/
def plainDev (d : Dev) : Bool :=
  decide (d.queueOf who0 < 65536) && d.corePresent 0 && !d.tap.undef.contains 0 && (d.specOf who0).isNone && d.poison.isEmpty
def plainOk (d : Dev) (t : Ctx) (opc : Nat) : Bool :=
  issues (st d).quiet && (st d).quiet.ctx? 0 0 == some t && t.cur.opc == opc && !t.cur.w0.bit 9 && (st d).quiet.whoOf 0 0 == who0
    && plainDev (atIssue d t)

theorem plain_dev {d : Dev} (h : plainDev d = true) : d.Plain who0 := by
  unfold plainDev at h
  simp only [Bool.and_eq_true, Bool.not_eq_true', decide_eq_true_eq, Option.isNone_iff_eq_none, List.isEmpty_iff] at h
  obtain ⟨⟨⟨⟨h1, h2⟩, h3⟩, h4⟩, h5⟩ := h
  exact ⟨h1, h2, h3, rfl, rfl, h4, fun l hl => by rw [h5] at hl; cases hl⟩

theorem plain_of {d : Dev} {t : Ctx} {opc : Nat} (h : plainOk d t opc = true) :
    (st d).quiet.plainIssue 0 0 t opc ∧ (st d).quiet.whoOf 0 0 = who0 := by
  unfold plainOk at h
  simp only [Bool.and_eq_true, beq_iff_eq, Bool.not_eq_true'] at h
  obtain ⟨⟨⟨⟨⟨h1, h2⟩, h3⟩, h4⟩, h5⟩, h6⟩ := h
  refine ⟨⟨issuable_of h2 h1, h3, ?_, h4⟩, h5⟩
  rw [h5]
  exact plain_dev h6

/-- One FP32 element in one dimension at 200000, with its descriptor at 201000. -/
def hand1 : List (Nat × W64) :=
  [(0x100000000000, 0x3F800000), (0x100000001000, 0x1000000000200000), (0x100000001020, 0x707070700), (0x100000001048, 1)]

/-- An ADD of the element to itself, and its RSUM. -/
def handAdd : Desc := desc 0x100000003 0x201000 0x201000 0 0x201000 0 0
def handSum : Desc := desc 0x600000003 0x201000 0 0 0x201000 0 0

/-- The command of core 0's task issues, is plain, and finds its operands as `ready` asks. -/
def Handed (d : Dev) (t : Desc) (opc : Nat) (ready : Dev → Who → Desc → Prop) : Prop :=
  (st d).quiet.plainIssue 0 0 (ctx t) opc ∧ (st d).quiet.whoOf 0 0 = who0 ∧ ready (atIssue d (ctx t)) who0 t

theorem handed {d : Dev} {t : Desc} {opc : Nat} {ready : Dev → Who → Desc → Prop} (ps : List Nat) (p : plainOk d (ctx t) opc = true)
    (h : ps.all (pageOk (atIssue d (ctx t))) = true)
    (r : ∀ e, atIssue d (ctx t) = e → ps.all (pageOk e) = true → ready e who0 t) : Handed d t opc ready :=
  ⟨(plain_of p).1, (plain_of p).2, r _ rfl h⟩


/-- The checks of a VEC over the element. -/
def vecOk (e : Dev) (k : Desc) : Bool :=
  let a := named e k.w1 Role.source
  let o := named e k.w4 Role.destination
  vecWords k && k.w1.field 47 0 != 0 && namesOk e [0x20] k.w1 Role.source && a.inOwnStore e who0 && namesOk e [0x20] k.w4 Role.destination
    && o.inOwnStore e who0 && o.stats == 0 && o.tid == 0
    && (vecArgs k (some a) (if k.w2 = 0 then none else some a) none o).accepted e who0

theorem witness_vec_add : handAdd.arg 39 32 = 1
    ∧ Handed (handTask handAdd [] hand1) handAdd 3 (fun e w k => ∃ a dst, e.VecReady w k (some a) (some a) none dst) :=
  ⟨by decide +kernel, handed [0x20] (by decide +kernel) (by decide +kernel) (fun e he h => by
    have c : vecOk (atIssue (handTask handAdd [] hand1) (ctx handAdd)) handAdd = true := by decide +kernel
    rw [he] at c
    simp only [vecOk, Bool.and_eq_true, bne_iff_ne, beq_iff_eq] at c
    obtain ⟨⟨⟨⟨⟨⟨⟨⟨c1, c2⟩, c3⟩, c4⟩, c5⟩, c6⟩, c7⟩, c8⟩, c9⟩ := c
    exact ⟨_, _, c1, ⟨c2, names_of h c3, c4⟩, ⟨c2, names_of h c3, c4⟩, rfl, names_of h c5, c6, ⟨c7, c8⟩, c9⟩)⟩
theorem witness_vec_sum : handSum.arg 39 32 = 6
    ∧ Handed (handTask handSum [] hand1) handSum 3 (fun e w k => ∃ a dst, e.VecReady w k (some a) none none dst) :=
  ⟨by decide +kernel, handed [0x20] (by decide +kernel) (by decide +kernel) (fun e he h => by
    have c : vecOk (atIssue (handTask handSum [] hand1) (ctx handSum)) handSum = true := by decide +kernel
    rw [he] at c
    simp only [vecOk, Bool.and_eq_true, bne_iff_ne, beq_iff_eq] at c
    obtain ⟨⟨⟨⟨⟨⟨⟨⟨c1, c2⟩, c3⟩, c4⟩, c5⟩, c6⟩, c7⟩, c8⟩, c9⟩ := c
    exact ⟨_, _, c1, ⟨c2, names_of h c3, c4⟩, rfl, rfl, names_of h c5, c6, ⟨c7, c8⟩, c9⟩)⟩

/-- A COPY of the element, and a GATHER of it by a list of one entry at 202000. -/
def handCopy : Desc := desc 0x000000005 0x201000 0x201000 0 0 0 0
def handGather : Desc := desc 0x200000005 0x201000 0x201000 0x202000 0 0 0

def xferOk (e : Dev) (k : Desc) : Bool :=
  let a := named e k.w1 (xferSource k)
  let o := named e k.w2 (xferDest k)
  let x := xferArgs k a o
  xferFields k && !k.w6.bit 62 && namesOk e [0x20] k.w1 (xferSource k) && namesOk e [0x20] k.w2 (xferDest k) && o.stats == 0 && o.tid == 0
    && x.wordsOk k && !o.padWrite && x.accepted e who0
    && (decide (k.arg 34 32 ≤ 1) || (within [0x20] x.list (16 * x.listN)
      && (List.range x.listN).all (fun i =>
        match entryOf (gridOf (if x.mode = 2 then x.src else x.dst) x.blk) x.range (e.listCoords x i) with
        | .bad _ _ => false
        | _ => true)))

theorem xfer_ready {e : Dev} {k : Desc} (h : [0x20].all (pageOk e) = true) (c : xferOk e k = true) : ∃ src dst, e.XferReady who0 k src dst := by
  simp only [xferOk, Bool.and_eq_true, Bool.or_eq_true, decide_eq_true_eq, beq_iff_eq, Bool.not_eq_true', List.all_eq_true] at c
  obtain ⟨⟨⟨⟨⟨⟨⟨⟨⟨c1, c2⟩, c3⟩, c4⟩, c5⟩, c6⟩, c7⟩, c8⟩, c9⟩, c10⟩ := c
  refine ⟨_, _, c1, c2, names_of h c3, names_of h c4, ⟨c5, c6⟩, c7, fun _ hp => ?_, c9, fun hm => ?_⟩
  · rw [c8] at hp; cases hp
  · rcases c10 with c10 | ⟨c10, c11⟩
    · exact absurd c10 (by omega)
    · refine ⟨near_of h c10, fun i hi n u hb => ?_⟩
      have := c11 i (List.mem_range.2 hi)
      rw [hb] at this
      cases this

theorem witness_xfer_copy : handCopy.arg 34 32 = 0
    ∧ Handed (handTask handCopy [] hand1) handCopy 5 (fun e w k => ∃ src dst, e.XferReady w k src dst) :=
  ⟨by decide +kernel, handed [0x20] (by decide +kernel) (by decide +kernel) (fun e he h => by
    have c : xferOk (atIssue (handTask handCopy [] hand1) (ctx handCopy)) handCopy = true := by decide +kernel
    exact xfer_ready h (he ▸ c))⟩
theorem witness_xfer_gather : handGather.arg 34 32 = 2
    ∧ Handed (handTask handGather [] hand1) handGather 5 (fun e w k => ∃ src dst, e.XferReady w k src dst) :=
  ⟨by decide +kernel, handed [0x20] (by decide +kernel) (by decide +kernel) (fun e he h => by
    have c : xferOk (atIssue (handTask handGather [] hand1) (ctx handGather)) handGather = true := by decide +kernel
    exact xfer_ready h (he ▸ c))⟩

/-- A TILE_LOAD into array 0 of the tile at 230000, with its plane at 250000 (R95, R181, R592). -/
def handTile : Desc := desc 0x100000001 0x201000 0 0 0 0 0
def clockedTask (t : Desc) (l : List (Nat × W64)) : Dev := (handTask t [] l).modCore 0 (fun k => { k with ramp := .clocked })
def tileTask : Dev := clockedTask handTile [(0x100000001000, 0x1300000000230000), (0x100000001020, 0x707070700), (0x100000001048, 1)]

theorem witness_tile_load : Handed tileTask handTile 1 (fun e w k => ∃ wt, e.TileReady w k wt) :=
  handed [0x20, 0x23, 0x24, 0x25, 0x26] (by decide +kernel) (by decide +kernel) (fun e he h => by
    have c : (let a := atIssue tileTask (ctx handTile)
        let t := named a handTile.w1 Role.arrayReady
        describesOk a [0x20] handTile.w1 Role.arrayReady && decide (t.layout = .wt) && decide (handTile.arg 43 36 < (t.dim 0).g)
          && within [0x23, 0x24] (t.base + handTile.arg 43 36 * tileBytes) tileBytes
          && (taking (handTile.arg 35 32)).all (fun i => within [0x25, 0x26] (planePart t (handTile.arg 43 36) i) 131072)) = true := by decide +kernel
    rw [he] at c
    simp only [Bool.and_eq_true, decide_eq_true_eq, List.all_eq_true] at c
    obtain ⟨⟨⟨⟨c1, c2⟩, c3⟩, c4⟩, c5⟩ := c
    have sub : ∀ {ps : List Nat}, (∀ p ∈ ps, p ∈ [0x20, 0x23, 0x24, 0x25, 0x26]) → ps.all (pageOk e) = true := fun hs =>
      List.all_eq_true.2 (fun p hp => List.all_eq_true.1 h p (hs p hp))
    exact ⟨_, by decide +kernel, describes_of (sub (by decide)) c1, ⟨c2, by decide +kernel, c3⟩, near_of (sub (by decide)) c4,
      fun i hi => .inl (near_of (sub (by decide)) (c5 i hi))⟩)

/-- A STREAM of one pass over one vector with a uniform map of 4-bit panels (R89, R255). -/
def handStream : Desc := desc 2 0x201000 0x202000 0x203000 0 0 0
def streamHand : Dev := clockedTask handStream
  [(0x100000001000, 0x813), (0x100000001008, 0x2600000),
   (0x100000002000, 0x3213000000220000), (0x100000002020, 0x707070700), (0x100000002048, 128), (0x100000002068, 1), (0x100000002088, 1),
   (0x100000003000, 0x1300000000230000), (0x100000003020, 0x707070700), (0x100000003048, 1)]

def streamOk (e : Dev) (k : Desc) : Bool :=
  let ws := nearWords e 0x201000 16
  let x := streamExtOf ws
  let act := named e k.w2 Role.arrayReady
  let wt := named e k.w3 Role.arrayReady
  let s := streamArgs x act wt none (uniformMaps x)
  !e.kx1 who0 && !e.namesKept 0x201000 128 false && within [0x20] 0x201000 128 && streamReserved ws && x.out == 0 && x.pmap == 0 && x.steerTid == 0
    && s.x.chtab == 0 && !s.x.tdrEn && !(Fmt.ofCode s.x.aFmt).any Fmt.isFloat && describesOk e [0x20] k.w2 Role.arrayReady
    && describesOk e [0x20] k.w3 Role.arrayReady && x.fieldsOk act wt none && decide (x.p * max x.m 128 ≤ 65248)
    && s.accepted e who0 (uniformMaps x) && within [0x22] s.act.base (64 * s.act.actBeats) && within [0x23, 0x24] s.wt.base (s.x.p * tileBytes)
    && s.act.scaleKind == 0 && s.wt.scaleKind == 0

theorem stream_ready {e : Dev} {k : Desc} (hk : k.w5 = 0 ∧ k.w6 = 0 ∧ k.w1.field 63 48 = 0 ∧ k.w1.field 47 0 = 0x201000 ∧ k.w4 = 0)
    (h : [0x20, 0x22, 0x23, 0x24].all (pageOk e) = true) (c : streamOk e k = true) : ∃ x act wt dst, e.StreamReady who0 k x act wt dst := by
  have sub : ∀ {ps : List Nat}, (∀ p ∈ ps, p ∈ [0x20, 0x22, 0x23, 0x24]) → ps.all (pageOk e) = true := fun hs =>
    List.all_eq_true.2 (fun p hp => List.all_eq_true.1 h p (hs p hp))
  obtain ⟨k1, k2, k3, k4, k5⟩ := hk
  simp only [streamOk, Bool.and_eq_true, decide_eq_true_eq, beq_iff_eq, Bool.not_eq_true'] at c
  obtain ⟨⟨⟨⟨⟨⟨⟨⟨⟨⟨⟨⟨⟨⟨⟨⟨⟨⟨c1, c2⟩, c3⟩, c4⟩, c5⟩, c6⟩, c7⟩, c8⟩, c9⟩, c10⟩, c11⟩, c12⟩, c13⟩, c14⟩, c15⟩, c16⟩, c17⟩, c18⟩, c19⟩ := c
  have hw : e.vwords 0x201000 16 = nearWords e 0x201000 16 := vwords_near (sub (by decide)) c3 (by decide)
  have at' : e.StreamAt who0 k (streamExtOf (nearWords e 0x201000 16)) (named e k.w2 Role.arrayReady) (named e k.w3 Role.arrayReady) none :=
    { words := ⟨k1, k2⟩, word := k3, place := by rw [k4]; exact ⟨rfl, c2⟩, read := by rw [k4]; exact near_of (sub (by decide)) c3,
      bits := by rw [k4, hw]; exact c4, ext := by rw [k4, hw], source := describes_of (sub (by decide)) c11, weight := describes_of (sub (by decide)) c12,
      dest := ⟨by omega, k5⟩ }
  have data : e.StreamData who0 (streamArgs (streamExtOf (nearWords e 0x201000 16)) (named e k.w2 Role.arrayReady) (named e k.w3 Role.arrayReady) none
      (uniformMaps (streamExtOf (nearWords e 0x201000 16)))) := by
    revert c8 c9 c10 c16 c17 c18 c19
    generalize streamArgs (streamExtOf (nearWords e 0x201000 16)) _ _ _ _ = s
    intro c19 c18 c17 c16 c10 c9 c8
    exact { act := near_of (sub (by decide)) c16, tiles := near_of (sub (by decide)) c17, planes := fun hf => absurd (c10.symm.trans hf) Bool.false_ne_true,
            scaleA := fun hs => absurd c18 hs, scaleW := fun hs => absurd c19 hs, table := fun hs => absurd c8 hs,
            tender := fun ht => absurd (c9.symm.trans ht) Bool.false_ne_true }
  exact ⟨_, _, _, none, by rw [c1]; exact at', c13, c6, c7, c14, c15, data⟩

theorem witness_stream_ready : Handed streamHand handStream 2 (fun e w k => ∃ x act wt dst, e.StreamReady w k x act wt dst) :=
  handed [0x20, 0x22, 0x23, 0x24] (by decide +kernel) (by decide +kernel) (fun e he h => by
    have c : streamOk (atIssue streamHand (ctx handStream)) handStream = true := by decide +kernel
    exact stream_ready (by decide +kernel) h (he ▸ c))

/-- A TABLE of one activation and one channel with one weight plane, its table in the table area (R335, R338). -/
def handTable : Desc := desc 4 0x204000 0 0 0 0 0
def tableTask : Dev := handTask handTable [(rk (pgTbl 0) 0x100, 0x10)]
  [(0x100000004000, 0x15D0), (0x100000004008, 0x201000), (0x100000004010, 0x400000), (0x100000004018, 0x202000),
   (0x100000001000, 0x2017000000205000), (0x100000001020, 0x707070700), (0x100000001048, 1), (0x100000001060, 4), (0x100000001068, 1),
   (0x100000002000, 0x2000000000206000), (0x100000002020, 0x707070700), (0x100000002048, 1), (0x100000002060, 4), (0x100000002068, 1)]

def tableOk (e : Dev) : Bool :=
  let ws := nearWords e 0x204000 8
  let src := named e (wd ws 1) { Role.source with table := true }
  let dst := named e (wd ws 3) { Role.destination with table := true }
  let s := tableArgs ws src dst true
  !e.namesKept 0x204000 64 true && within [0x20] 0x204000 64 && tableFields e 0 ws && namesOk e [0x20] (wd ws 1) { Role.source with table := true }
    && namesOk e [0x20] (wd ws 3) { Role.destination with table := true } && (wd ws 1).field 63 48 == 0 && (wd ws 3).field 63 48 == 0
    && e.tabResident who0 s.tab s.tabBytes && s.accepted e who0 src.fmt && elemsOk [0x20] s.src && elemsOk [0x20] s.dst
    && dst.stats == 0 && dst.tid == 0 && within [0x40] s.tab s.tabBytes && !s.ascaleEn && s.chtab == 0

theorem toNat_field {v : W64} (h : v.field 63 48 = 0) : v.field 47 0 = v.toNat := by
  simp [W64.field] at h ⊢
  omega

theorem table_ready {e : Dev} {k : Desc} (hk : k.oneWord = true ∧ k.w1.field 63 48 = 0 ∧ k.w1.field 47 0 = 0x204000)
    (h : [0x20, 0x40].all (pageOk e) = true) (c : tableOk e = true) : ∃ src dst, e.TableReady who0 k src dst := by
  have sub : ∀ {ps : List Nat}, (∀ p ∈ ps, p ∈ [0x20, 0x40]) → ps.all (pageOk e) = true := fun hs =>
    List.all_eq_true.2 (fun p hp => List.all_eq_true.1 h p (hs p hp))
  obtain ⟨k1, k2, k3⟩ := hk
  simp only [tableOk, Bool.and_eq_true, beq_iff_eq, Bool.not_eq_true'] at c
  obtain ⟨⟨⟨⟨⟨⟨⟨⟨⟨⟨⟨⟨⟨⟨⟨c1, c2⟩, c3⟩, c4⟩, c5⟩, c6⟩, c7⟩, c8⟩, c9⟩, c10⟩, c11⟩, c12⟩, c13⟩, c14⟩, c15⟩, c16⟩ := c
  have hw : e.tableWords k = nearWords e 0x204000 8 := by
    unfold Dev.tableWords
    rw [k3]
    exact vwords_near (sub (by decide)) c2 (by decide)
  have n1 := (names_of (sub (by decide)) c4).toDescribes
  have n3 := (names_of (sub (by decide)) c5).toDescribes
  refine ⟨named e (wd (nearWords e 0x204000 8) 1) { Role.source with table := true },
    named e (wd (nearWords e 0x204000 8) 3) { Role.destination with table := true },
    { words := k1, word := k2, place := by rw [k3]; exact ⟨rfl, c1⟩, read := by rw [k3]; exact near_of (sub (by decide)) c2,
      fields := by rw [hw]; exact c3, source := by rw [hw, ← toNat_field c6]; exact ⟨n1.desc, n1.read⟩,
      dest := by rw [hw, ← toNat_field c7]; exact ⟨n3.desc, n3.read⟩, plain := ⟨c12, c13⟩, area := ?_, agree := ?_, input := ?_,
      output := ?_, tables := ?_, scales := ?_, chans := ?_ }⟩ <;> unfold Dev.tableAt <;> rw [hw]
  · exact c8
  · exact c9
  · exact atHand_of (sub (by decide)) c10
  · exact atHand_of (sub (by decide)) c11
  · exact near_of (sub (by decide)) c14
  · exact fun hs => absurd (c15.symm.trans hs) Bool.false_ne_true
  · exact fun hs => absurd c16 hs

theorem witness_table_ready : Handed tableTask handTable 4 (fun e w k => ∃ src dst, e.TableReady w k src dst) :=
  handed [0x20, 0x40] (by decide +kernel) (by decide +kernel) (fun e he h => by
    have c : tableOk (atIssue tableTask (ctx handTable)) = true := by decide +kernel
    exact table_ready (by decide +kernel) h (he ▸ c))

/-- The collectives, over a mesh axis of one device. -/
def handColl : Desc := desc 6 0x201000 0 0 0 0 0
def collHand (op : W64) : Dev := handTask handColl [(rk pgSys 0x700, 2), (rk pgSys 0x718, 1)]
  [(0x100000001000, op + 0x100040), (0x100000001008, 0x101000), (0x100000001010, 0x102000), (0x100000001018, 4)]

theorem coll_ready (op : Nat) (h1 : plainOk (collHand (BitVec.ofNat 64 op)) (ctx handColl) 6 = true)
    (h2 : [0x20].all (pageOk (atIssue (collHand (BitVec.ofNat 64 op)) (ctx handColl))) = true)
    (h3 : (let a := atIssue (collHand (BitVec.ofNat 64 op)) (ctx handColl)
        let ws := nearWords a 0x201000 8
        !a.kx1 who0 && !a.namesKept 0x201000 64 false && collReserved ws && collOk a (collArgsOf ws) && (collArgsOf ws).op == op) = true) :
    Handed (collHand (BitVec.ofNat 64 op)) handColl 6 (fun e w k => ∃ a, e.CollReady w k a ∧ a.op = op) :=
  handed [0x20] h1 h2 (fun e he h => by
    rw [he] at h3
    simp only [Bool.and_eq_true, beq_iff_eq, Bool.not_eq_true'] at h3
    obtain ⟨⟨⟨⟨c1, c2⟩, c3⟩, c4⟩, c5⟩ := h3
    have hw : e.vwords (handColl.w1.field 47 0) 8 = nearWords e 0x201000 8 := vwords_near h (by decide +kernel) (by decide +kernel)
    refine ⟨_, ⟨by decide +kernel, by decide +kernel, ⟨.inr (by decide +kernel), ?_⟩, ?_, rfl, .inr (hw ▸ c3), ?_⟩, ?_⟩ <;> simp only [c1]
    · exact c2
    · exact near_of h (by decide +kernel)
    · exact hw ▸ c4
    · exact hw ▸ c5)
theorem witness_coll_ready : ∀ op ∈ [0, 1, 2, 3, 4, 5], Handed (collHand (BitVec.ofNat 64 op)) handColl 6 (fun e w k => ∃ a, e.CollReady w k a ∧ a.op = op) := by
  intro op hop
  simp only [List.mem_cons, List.not_mem_nil, or_false] at hop
  rcases hop with rfl | rfl | rfl | rfl | rfl | rfl <;> exact coll_ready _ (by decide +kernel) (by decide +kernel) (by decide +kernel)

/-- The updates: a DROPOUT of the element at 200000, a CLAIM with its result there. -/
def handUpd : Desc := desc 7 0x202000 0 0 0 0 0
def updHand (ws : List (Nat × W64)) : Dev := { handTask handUpd [(rk (pgUpd 0) 0x108, 1)] (hand1 ++ ws) with keys := [(0, key0)] }
def updHands : List Dev :=
  [updHand [], updHand [(0x100000002000, 1), (0x100000002008, 7)], updHand [(0x100000002000, 2)],
   updHand [(0x100000002000, 3), (0x100000002008, 0x8000000000000003)],
   updHand [(0x100000002000, 4), (0x100000002008, 0x201000), (0x100000002010, 0x201000), (0x100000002020, 0x3F80000000000000)],
   updHand [(0x100000002000, 5), (0x100000002008, 9), (0x100000002020, 0x200000)], updHand [(0x100000002000, 6)]]

def dropOk (e : Dev) (ws : List W64) : Bool :=
  let src := named e (wd ws 1) Role.source
  let dst := named e (wd ws 2) Role.destination
  namesOk e [0x20] (wd ws 1) Role.source && namesOk e [0x20] (wd ws 2) Role.destination && src.inOwnStore e who0 && dst.inOwnStore e who0
    && (src.ndim == dst.ndim && src.gs == dst.gs && src.ls == dst.ls && src.fmt != 0x08) && decide (dst.gs.foldl (· * ·) 1 < 2 ^ 48)
    && dst.stats == 0 && dst.tid == 0
def updReadyOk (op : Nat) (e : Dev) : Bool :=
  let ws := nearWords e 0x202000 8
  let a := updArgsOf ws (e.queueOf who0)
  !e.namesKept 0x202000 64 false && within [0x20] 0x202000 64 && a.op == op && updOk e ws a false && (op != 5 || within [0x20] a.result 8)
    && (op != 4 || dropOk e ws)

theorem upd_ready {op : Nat} {e : Dev} (h : [0x20].all (pageOk e) = true) (c : updReadyOk op e = true) : e.UpdReady who0 handUpd op := by
  simp only [updReadyOk, Bool.and_eq_true, beq_iff_eq, Bool.not_eq_true', Bool.or_eq_true, bne_iff_ne] at c
  obtain ⟨⟨⟨⟨⟨c1, c2⟩, c3⟩, c4⟩, c5⟩, c6⟩ := c
  have hw : e.updWords handUpd = nearWords e 0x202000 8 := vwords_near h c2 (by decide)
  refine ⟨by decide, by decide, ⟨by decide, c1⟩, near_of h c2, by rw [hw]; exact c3, by rw [hw]; exact c4, fun h4 => ?_, fun h5 => ?_⟩
  rotate_left
  · rw [hw]
    exact near_of h (c5.resolve_left (fun n => n h5))
  rcases c6 with c6 | c6
  · exact absurd h4 c6
  · rw [hw]
    simp only [dropOk, Bool.and_eq_true, decide_eq_true_eq, beq_iff_eq] at c6
    obtain ⟨⟨⟨⟨⟨⟨⟨d1, d2⟩, d3⟩, d4⟩, d5⟩, d6⟩, d7⟩, d8⟩ := c6
    exact ⟨_, _, names_of h d1, names_of h d2, ⟨d3, d4⟩, by simpa only [Bool.and_eq_true, beq_iff_eq] using d5, d6, ⟨d7, d8⟩⟩

theorem witness_upd_ready : ∀ op < 7, Handed (updHands.getD op (updHand [])) handUpd 7 (fun e w k => e.UpdReady w k op) := by
  intro op hop
  have c : (List.range 7).all (fun op => let d := updHands.getD op (updHand [])
      plainOk d (ctx handUpd) 7 && [0x20].all (pageOk (atIssue d (ctx handUpd))) && updReadyOk op (atIssue d (ctx handUpd))) = true := by decide +kernel
  have := List.all_eq_true.1 c op (List.mem_range.2 hop)
  simp only [Bool.and_eq_true] at this
  exact handed [0x20] this.1.1 this.1.2 (fun e he h => upd_ready h (he ▸ this.2))

/-- The waits: for the word at 200000, and for a watched region's generation. -/
def handWait : Desc := desc 10 0x200000 7 0xF 0 0 0
def handGen : Desc := desc 0x30000000A 0 1 0 0 0 0
def waitOk (e : Dev) (k : Desc) : Bool :=
  unusedFrom k 3 && decide (k.arg 34 32 ≤ 4) && (decide (2 < k.arg 34 32) || k.w1 == 0x200000) && !e.namesKept 0x200000 8 false

theorem wait_ready {e : Dev} {k : Desc} (h : [0x20].all (pageOk e) = true) (c : waitOk e k = true) : e.WaitReady who0 k := by
  simp only [waitOk, Bool.and_eq_true, Bool.or_eq_true, decide_eq_true_eq, beq_iff_eq, Bool.not_eq_true'] at c
  obtain ⟨⟨⟨c1, c2⟩, c3⟩, c4⟩ := c
  refine ⟨c1, c2, fun hc => ?_⟩
  rw [c3.resolve_left (by omega)]
  exact ⟨by decide, by decide, c4, near_of h (by decide +kernel)⟩

theorem witness_wait_ready : ∀ x ∈ [(handWait, (7 : W64)), (handWait, 0), (handGen, 0)],
    Handed (handTask x.1 [] [(0x100000000000, x.2)]) x.1 10 Dev.WaitReady := by
  intro x hx
  have c : [(handWait, (7 : W64)), (handWait, 0), (handGen, 0)].all (fun x => let d := handTask x.1 [] [(0x100000000000, x.2)]
      plainOk d (ctx x.1) 10 && [0x20].all (pageOk (atIssue d (ctx x.1))) && waitOk (atIssue d (ctx x.1)) x.1) = true := by decide +kernel
  have := List.all_eq_true.1 c x hx
  simp only [Bool.and_eq_true] at this
  exact handed [0x20] this.1.1 this.1.2 (fun e he h => wait_ready h (he ▸ this.2))

/-- A task that waits for the word at 200000. -/
def pollTask : Dev := hold { ctx handWait with state := .waiting, waitFor := .condition } (handTask handWait [] [(0x100000000000, 7)])
theorem witness_poll_ready : let d := (st pollTask).quiet
    d.ctx? 0 0 = some { ctx handWait with state := .waiting, waitFor := .condition } ∧ d.coreLive 0 = true ∧ d.regb (pgDsp 0) 0x010 2 = false
      ∧ d.whoOf 0 0 = who0 ∧ d.Plain who0 ∧ d.WaitReady who0 handWait := by
  have c : (let d := (st pollTask).quiet
      d.coreLive 0 && !d.regb (pgDsp 0) 0x010 2 && d.whoOf 0 0 == who0 && plainDev d && waitOk d handWait && [0x20].all (pageOk d)) = true := by
    decide +kernel
  simp only [Bool.and_eq_true, Bool.not_eq_true', beq_iff_eq] at c
  obtain ⟨⟨⟨⟨⟨c1, c2⟩, c3⟩, c4⟩, c5⟩, c6⟩ := c
  exact ⟨by decide +kernel, c1, c2, c3, plain_dev c4, wait_ready c6 c5⟩

/-- Speculation: a task may begin it, and one that has begun comes to SPEC_COMMIT, still deciding or committed early. -/
theorem witness_spec_ready : (let d := (st beginTask).quiet
      let e := d.issued 0 0 (ctx begins)
      issues d = true ∧ begins.opc = 12 ∧ begins.w0.bit 9 = false ∧ unusedFrom begins 1 = true ∧ begins.w0.bit 8 = false ∧ begins.w1.field 63 48 = 0
        ∧ e.mayBegin (d.whoOf 0 0) (begins.w1.field 47 0) = true ∧ (e.core 0).specs.length < 64)
    ∧ commits.opc = 13 ∧ commits.w0.bit 9 = false ∧ unusedFrom commits 0 = true ∧ commits.w0.bit 8 = true
    ∧ [{ ctx commits with specOut := 1 }, { ctx commits with spec := some (spec .running false) }].all (fun t =>
        issues (st (hold t (mapped [] []))).quiet && t.began) = true := by
  decide +kernel

end Sys2Proof.Tests
end

/-! PROOFS. What the first reset release leaves (R15, R466, R469). -/

namespace Sys2Proof.Machine

/-! ### The reset state -/

/-- At reset no register word is listed, so each reads its reset value (R15). -/
theorem reg_reset (page off : Nat) : State.reset.dev.reg page off = regReset page off := rfl

/-- BLK_CTRL at reset: EN and SECURE_ONLY as the block has them (R466, R469). -/
theorem regReset_blkCtrl {b : Blk} {i page : Nat} (h : pageBlk page = some (b, i)) :
    regReset page 0x010 = BitVec.ofNat 64 ((if b = .upd then 0 else 1) + (if b = .sec ∨ (b = .mbx ∧ i = 1) then 8 else 0)) := by
  simp [regReset, h]

/-- EN and SECURE_ONLY of a BLK_CTRL word that holds nothing else. -/
theorem blkCtrl_bits (p q : Prop) [Decidable p] [Decidable q] :
    let v : W64 := BitVec.ofNat 64 ((if p then 0 else 1) + (if q then 8 else 0))
    v.bit 0 = decide (¬ p) ∧ v.bit 3 = decide q := by
  by_cases hp : p <;> by_cases hq : q <;> simp [hp, hq] <;> decide

/-- Settles O5: the fields of the reset state are literals, and its register words are those of the register map. -/
theorem resetState : Obligations.ResetState := by
  unfold Obligations.ResetState
  have fuses : Fuses.onlyBlown Fuses.standard State.reset.fuses :=
    ⟨rfl, rfl, rfl, rfl, rfl, rfl, Nat.le_refl _, Nat.zero_le _, fun _ => rfl, fun _ => rfl⟩
  have cause : State.reset.dev.reg pgPmu 0x128 = 1 := by decide
  have held : State.reset.dev.reg pgPmu 0x110 = 0 := by decide
  have running : ∀ h < 2, State.reset.dev.running h = false := by decide
  have ready : ∀ h < 2, State.reset.dev.dramReady h = false := by decide
  refine ⟨fuses, ⟨rfl, rfl, rfl, rfl, running 0 (by omega), running 1 (by omega), cause, held, fun _ => rfl,
    ready 0 (by omega), ready 1 (by omega), rfl, rfl, rfl⟩, reg_reset, fun b i h => ?_⟩
  have bits := blkCtrl_bits (b = .upd) (b = .sec ∨ (b = .mbx ∧ i = 1))
  rw [← regReset_blkCtrl h] at bits
  exact bits

end Sys2Proof.Machine

/-! PROOFS. Words of memory: their bytes lie lowest first, and a word stored in SRAM or a near store reads back (R14). -/

namespace Sys2Proof.Machine

/-! ### Little-endian words (R14) -/

/-- The i-th byte of a number is its i-th digit to base 256. -/
theorem leBytes_eq_map (n v : Nat) : leBytes n v = (List.range n).map (fun i => BitVec.ofNat 8 (v / 256 ^ i)) := by
  induction n generalizing v with
  | zero => rfl
  | succ n ih =>
    simp only [leBytes, ih, List.range_succ_eq_map, List.map_cons, List.map_map, pow_zero, Nat.div_one, Function.comp_def,
      Nat.succ_eq_add_one, pow_succ', Nat.div_div_eq_div_mul]

theorem leNat_leBytes (n v : Nat) : leNat (leBytes n v) = v % 256 ^ n := by
  induction n generalizing v with
  | zero => simp [leBytes, leNat, Nat.mod_one]
  | succ n ih =>
    have digits : v % 256 ^ (n + 1) = v % 256 + 256 * (v / 256 % 256 ^ n) := by rw [Nat.pow_succ', Nat.mod_mul]
    rw [leBytes, leNat, ih, BitVec.toNat_ofNat, digits]

/-- A word is the value whose bytes lie at its address. -/
theorem Dev.word_eq_of_bytes {d : Dev} {pa : Nat} {v : W64}
    (h : ∀ i < 8, d.byte (pa + i) = BitVec.ofNat 8 (v.toNat / 256 ^ i)) : d.word pa = v := by
  have bytes : d.bytes pa 8 = leBytes 8 v.toNat := by
    rw [leBytes_eq_map]
    exact List.map_congr_left (fun i hi => h i (List.mem_range.1 hi))
  apply BitVec.eq_of_toNat_eq
  rw [Dev.word, bytes, leNat_leBytes, BitVec.toNat_ofNat]
  have := v.isLt
  omega

/-! ### A word stored in SRAM or in a near store -/

/-- A naturally aligned word lies within one line. -/
theorem chunks_word {pa : Nat} (h : pa % 8 = 0) : chunks pa 8 = [(pa, 8)] := by
  have : 8 ≤ 64 - pa % 64 := by omega
  simp [chunks, chunksAux, this]

/-- SRAM and near stores take a word's bytes as they are: no line is poisoned or cleaned by a part of it (R14, R417). -/
theorem Dev.storeWord_eq_putMask {d : Dev} {pa : Nat} (v : W64) (h : pa % 8 = 0)
    (hs : d.space pa = .sram ∨ ∃ c o, d.space pa = .near c o) :
    d.storeWord pa v = d.putMask pa ((leBytes 8 v.toNat).map some) := by
  have part : wholeLine ((leBytes 8 v.toNat).map some) = false := by simp [wholeLine, leBytes_length]
  have line : d.storeLine pa ((leBytes 8 v.toNat).map some) false = d.putMask pa ((leBytes 8 v.toNat).map some) := by
    rcases hs with hs | ⟨c, o, hs⟩ <;> simp [Dev.storeLine, hs, part]
  have whole : (leBytes 8 v.toNat).take 8 = leBytes 8 v.toNat := List.take_of_length_le (by simp [leBytes_length])
  simp only [Dev.storeWord, Dev.store, Dev.storeGen, leBytes_length, chunks_word h, List.foldl_cons, List.foldl_nil, whole, line]

/-- Bytes put at an address as a word: they read back there, and every other byte reads as before. -/
theorem Dev.byte_putMask_word (d : Dev) (pa a : Nat) (v : W64) :
    (d.putMask pa ((leBytes 8 v.toNat).map some)).byte a =
      if pa ≤ a ∧ a < pa + 8 then BitVec.ofNat 8 (v.toNat / 256 ^ (a - pa)) else d.byte a := by
  rw [Dev.byte_putMask, leBytes_eq_map]
  by_cases h : pa ≤ a ∧ a < pa + 8
  · have : a - pa < 8 := by omega
    simp [h, this]
  · rw [if_neg h]
    split
    · have : ¬ a - pa < 8 := by omega
      simp [this]
    · rfl

/-- Settles O34: the word's bytes go to their addresses and nowhere else. -/
theorem memoryReadsBack : Obligations.MemoryReadsBack := by
  unfold Obligations.MemoryReadsBack
  intro d pa v h hs
  have byte : ∀ a, (d.storeWord pa v).byte a =
      if pa ≤ a ∧ a < pa + 8 then BitVec.ofNat 8 (v.toNat / 256 ^ (a - pa)) else d.byte a := fun a => by
    rw [Dev.storeWord_eq_putMask v h hs, Dev.byte_putMask_word]
  refine ⟨Dev.word_eq_of_bytes (fun i hi => ?_), fun a ha => ?_, Dev.wf_storeWord pa v⟩
  · rw [byte, if_pos (by omega), Nat.add_sub_cancel_left]
  · rw [byte, if_neg (by omega)]

end Sys2Proof.Machine

/-! PROOFS. Writes of registers: plain words, and the clears of error records and counter slots (R15, R35, R465, R473, R474). -/

namespace Sys2Proof.Machine

/-! ### Fields of a word -/

/-- A field replaced reads back. -/
theorem W64.field_setField (w : W64) {hi lo : Nat} (v : Nat) (h : lo ≤ hi) (hi64 : hi < 64) :
    (w.setField hi lo v).field hi lo = v % 2 ^ (hi - lo + 1) := by
  apply Nat.eq_of_testBit_eq
  intro i
  unfold W64.setField W64.field
  rw [Nat.testBit_mod_two_pow, Nat.testBit_mod_two_pow, Nat.testBit_shiftRight]
  by_cases hi' : i < hi - lo + 1
  · have h1 : lo + i < 64 := by omega
    have h2 : lo + i - lo = i := by omega
    simp only [BitVec.testBit_toNat, hi', BitVec.getLsbD_or, BitVec.getLsbD_and, BitVec.getLsbD_not, BitVec.getLsbD_ofNat, h1,
      decide_true, Bool.true_and, Nat.testBit_mul_two_pow, Nat.testBit_two_pow_sub_one, Nat.testBit_mod_two_pow, h2]
    simp
  · simp [hi']

theorem Dev.regf_setf (d : Dev) (p o v : Nat) {hi lo : Nat} (h : lo ≤ hi) (hi64 : hi < 64) :
    (d.setf p o hi lo v).regf p o hi lo = v % 2 ^ (hi - lo + 1) := by
  rw [Dev.regf, Dev.reg_setf, W64.field_setField _ _ h hi64]

theorem Dev.regf_setReg_ne {d : Dev} {p o q r : Nat} (v : W64) (hi lo : Nat) (h : regKey q r ≠ regKey p o) :
    (d.setReg p o v).regf q r hi lo = d.regf q r hi lo := by
  rw [Dev.regf, Dev.reg_setReg_ne d v h, Dev.regf]

theorem W64.field_lt (w : W64) (hi lo : Nat) : w.field hi lo < 2 ^ (hi - lo + 1) := Nat.mod_lt _ (Nat.two_pow_pos _)

/-! ### Plain writes of registers -/

/-- A plain write changes no register but its own. -/
theorem Dev.reg_plainWrite_ne (d : Dev) {p o q r : Nat} (w : Wr) (h : regKey q r ≠ regKey p o) :
    (d.plainWrite p o w).reg q r = d.reg q r := by
  unfold Dev.plainWrite
  cases regRow? p o with
  | none => rfl
  | some row => exact d.reg_setReg_ne _ h

@[simp] theorem Dev.plainWrite_mem (d : Dev) (p o : Nat) (w : Wr) : (d.plainWrite p o w).mem = d.mem := by
  unfold Dev.plainWrite
  cases regRow? p o <;> rfl

/-! ### Registers of a page cleared together -/

/-- The registers of a page at some offsets, cleared. -/
theorem Dev.reg_clearAll (d : Dev) (page : Nat) (l : List Nat) (p o : Nat) (hl : ∀ x ∈ l, x < 4096) (ho : o < 4096) :
    (l.foldl (fun d x => d.setReg page x 0) d).reg p o = if p = page ∧ o ∈ l then 0 else d.reg p o := by
  induction l generalizing d with
  | nil => simp
  | cons x l ih =>
    rw [List.foldl_cons, ih _ (fun y hy => hl y (List.mem_cons_of_mem _ hy))]
    by_cases h : p = page ∧ o = x
    · obtain ⟨rfl, rfl⟩ := h
      simp
    · have ne : regKey p o ≠ regKey page x := fun e => h ((regKey_inj ho (hl x List.mem_cons_self)).1 e)
      have mem : (p = page ∧ o ∈ x :: l) ↔ (p = page ∧ o ∈ l) := by
        rw [List.mem_cons]
        exact ⟨fun e => ⟨e.1, e.2.resolve_left (fun e' => h ⟨e.1, e'⟩)⟩, fun e => ⟨e.1, .inr e.2⟩⟩
      simp only [mem, d.reg_setReg_ne 0 ne]

theorem Dev.clearAll_mem (d : Dev) (page : Nat) (l : List Nat) : (l.foldl (fun d x => d.setReg page x 0) d).mem = d.mem :=
  foldl_field Dev.mem (fun d x => d.setReg page x 0) (fun _ _ => rfl) l d

/-! ### ERR_CTRL, CNT_CTRL and CNT_SEL (R465, R473, R474) -/

/-- ERR_CTRL.CLR written by an agent that may: the first and last records and ERR_COUNT are cleared. -/
theorem errCtrl_clear {d : Dev} {page : Nat} {w : Wr} (hm : d.mayWrite w.agent page 0x058 = true) (hc : wrHit w 0 = true) :
    errCtrl d page w = [0x030, 0x038, 0x040, 0x048, 0x050].foldl (fun d o => d.setReg page o 0) (d.plainWrite page 0x058 w) := by
  simp [errCtrl, hm, hc]

/-- The registers after ERR_CTRL.CLR: those of the page's first and last record and ERR_COUNT are cleared, other pages' are as they
were. -/
theorem reg_errCtrl {d : Dev} {page : Nat} {w : Wr} (hm : d.mayWrite w.agent page 0x058 = true) (hc : wrHit w 0 = true) {p o : Nat}
    (ho : o < 4096) (hp : p ≠ page ∨ o ∈ [0x030, 0x038, 0x040, 0x048, 0x050]) :
    (errCtrl d page w).reg p o = if p = page then 0 else d.reg p o := by
  have small : ∀ x ∈ [0x030, 0x038, 0x040, 0x048, 0x050], x < 4096 := by decide
  rw [errCtrl_clear hm hc, Dev.reg_clearAll _ _ _ _ _ small ho]
  by_cases e : p = page
  · rw [if_pos ⟨e, hp.resolve_left (fun h => h e)⟩, if_pos e]
  · rw [if_neg (fun h => e h.1), if_neg e, Dev.reg_plainWrite_ne _ _ (fun h => e ((regKey_inj ho (by decide)).1 h).1)]

/-- CNT_CTRL written by an agent that may: the slots that CLR names are cleared. -/
theorem cntCtrl_clear {d : Dev} {page : Nat} {w : Wr} (hm : d.mayWrite w.agent page 0x0E0 = true) :
    cntCtrl d page w = (((List.range 8).filter (wrHit w)).map (fun i => 0x0A0 + 8 * i)).foldl (fun d o => d.setReg page o 0)
      (d.plainWrite page 0x0E0 w) := by
  rw [List.foldl_map, List.foldl_filter]
  simp [cntCtrl, hm]

/-- The slots after CNT_CTRL is written: cleared, or as they were. -/
theorem reg_cntCtrl {d : Dev} {page : Nat} {w : Wr} (hm : d.mayWrite w.agent page 0x0E0 = true) (i : Nat) (hi : i < 8) :
    (cntCtrl d page w).reg page (0x0A0 + 8 * i) = if wrHit w i = true then 0 else d.reg page (0x0A0 + 8 * i) := by
  have small : ∀ x ∈ ((List.range 8).filter (wrHit w)).map (fun i => 0x0A0 + 8 * i), x < 4096 := by
    intro x hx
    obtain ⟨j, hj, rfl⟩ := List.mem_map.1 hx
    have := List.mem_range.1 (List.mem_filter.1 hj).1
    omega
  have picked : 0x0A0 + 8 * i ∈ ((List.range 8).filter (wrHit w)).map (fun i => 0x0A0 + 8 * i) ↔ wrHit w i = true := by
    simp [hi]
  have ne : regKey page (0x0A0 + 8 * i) ≠ regKey page 0x0E0 := by unfold regKey; omega
  rw [cntCtrl_clear hm, Dev.reg_clearAll _ _ _ _ _ small (by omega), Dev.reg_plainWrite_ne _ _ ne]
  simp only [true_and, picked]

/-- CNT_SEL of a slot written by an agent that may, with another selection: the slot's value is cleared. -/
theorem cntSel_clear {d : Dev} {page i : Nat} {w : Wr} (hi : i < 8) (hm : d.mayWrite w.agent page (0x060 + 8 * i) = true)
    (hne : (d.merged page (0x060 + 8 * i) w).field 7 0 ≠ d.regf page (0x060 + 8 * i) 7 0) :
    cntSel d page i w = ((d.plainWrite page (0x060 + 8 * i) w).setf page (0x060 + 8 * i) 7 0
      ((d.merged page (0x060 + 8 * i) w).field 7 0)).setReg page (0x0A0 + 8 * i) 0 := by
  have : ¬ i ≥ 8 := by omega
  simp [cntSel, this, hm, hne]

/-- The slot and its selection after such a write. -/
theorem reg_cntSel {d : Dev} {page i : Nat} {w : Wr} (hi : i < 8) (hm : d.mayWrite w.agent page (0x060 + 8 * i) = true)
    (hne : (d.merged page (0x060 + 8 * i) w).field 7 0 ≠ d.regf page (0x060 + 8 * i) 7 0) :
    (cntSel d page i w).reg page (0x0A0 + 8 * i) = 0
      ∧ (cntSel d page i w).regf page (0x060 + 8 * i) 7 0 = (d.merged page (0x060 + 8 * i) w).field 7 0 := by
  have ne : regKey page (0x060 + 8 * i) ≠ regKey page (0x0A0 + 8 * i) := by unfold regKey; omega
  rw [cntSel_clear hi hm hne, Dev.regf_setReg_ne _ _ _ ne, Dev.regf_setf _ _ _ _ (by decide) (by decide)]
  exact ⟨Dev.reg_setReg .., Nat.mod_eq_of_lt (W64.field_lt ..)⟩

/-! ### Writes to the register window (R35) -/

/-- An access that is not naturally aligned is ignored. -/
theorem windowWrite_misaligned {d : Dev} {off : Nat} {w : Wr} (h1 : w.lo = true → off % 8 ≠ 0)
    (h2 : w.lo = false → w.hi = true → off % 8 ≠ 4) : windowWrite d off w = d := by
  have : wrAligned w off = false := by
    unfold wrAligned
    cases hl : w.lo with
    | true => simp [h1 hl]
    | false => cases hh : w.hi <;> simp [h2 hl, hh]
  simp [windowWrite, this]

/-- An access to a page's word, whole or to one half of it, is a write of that word. -/
theorem windowWrite_page {d : Dev} {page off o : Nat} {w : Wr} (hp : page < 0x8000) (ho : off < 4096) (h8 : off % 8 = 0)
    (h : (w.lo = true ∧ o = off) ∨ (w.lo = false ∧ w.hi = true ∧ o = off + 4)) :
    windowWrite d (page * 4096 + o) w = pageWrite d page off w := by
  have aligned : wrAligned w (page * 4096 + o) = true := by
    unfold wrAligned
    rcases h with ⟨hl, rfl⟩ | ⟨hl, hh, rfl⟩
    · simp only [hl, if_true, beq_iff_eq]; omega
    · simp only [hl, hh, Bool.false_eq_true, if_false, Bool.true_and, beq_iff_eq]; omega
  have e1 : (page * 4096 + o) / 4096 = page := by omega
  have e2 : (page * 4096 + o) % 4096 / 8 * 8 = off := by omega
  have e3 : page * 4096 + o < 0x8000000 := by omega
  simp only [windowWrite, aligned, e1, e2, e3, Bool.not_true, Bool.false_eq_true, if_false, if_true]

/-- A page that has a block lies below the doorbells. -/
theorem page_lt_of_pageBlk {page : Nat} {x : Blk × Nat} (h : pageBlk page = some x) : page < 0x8000 := by
  by_contra hn
  have : pageBlk page = none := by
    unfold pageBlk
    rw [if_neg (by omega), if_neg (by omega), if_neg (by omega), if_neg (by omega), if_neg (by omega)]
  rw [this] at h
  cases h

theorem pageWrite_blk {d : Dev} {page off i : Nat} {b : Blk} {w : Wr} (hb : pageBlk page = some (b, i)) (hp : d.present page = true)
    (ho : 0x100 ≤ off) : pageWrite d page off w = blkReg d b i page off w := by
  have : ¬ off < 0x100 := by omega
  simp [pageWrite, hb, hp, this]

theorem plainReg_of_mayWrite {d : Dev} {page off : Nat} {w : Wr} (h : d.mayWrite w.agent page off = true) :
    plainReg d page off w = d.plainWrite page off w := by
  simp [plainReg, h]

/-- The governor's words without a behaviour of their own. -/
def govPlain : List Nat := [0x100, 0x118, 0x120, 0x128, 0x130, 0x138, 0x150]

theorem govPlain_range : ∀ off ∈ govPlain, 0x100 ≤ off ∧ off < 4096 ∧ off % 8 = 0 ∧ off ≠ 0x108 ∧ off ≠ 0x148 := by decide

theorem govReg_plain {d : Dev} {i off : Nat} {w : Wr} (h : off ∈ govPlain) : govReg d i off w = plainReg d (pgGov i) off w := by
  obtain ⟨-, -, -, h1, h2⟩ := govPlain_range off h
  unfold govReg
  split
  · exact absurd rfl h1
  · exact absurd rfl h2
  · rfl

theorem sysReg_plain {d : Dev} {off : Nat} {w : Wr} (h : off ∈ [0x400, 0x610]) : sysReg d off w = plainReg d pgSys off w := by
  rcases List.mem_pair.1 h with rfl | rfl <;> rfl

/-! ### The commands are their meanings, on the machine as they find it -/

theorem exec_errClear (page : Nat) (w : Wr) (s : State) : exec (.errClear page w) s = .next (s.after (errCtrl s.quiet page w)) := rfl
theorem exec_cntClear (page : Nat) (w : Wr) (s : State) : exec (.cntClear page w) s = .next (s.after (cntCtrl s.quiet page w)) := rfl
theorem exec_cntSelWrite (page i : Nat) (w : Wr) (s : State) :
    exec (.cntSelWrite page i w) s = .next (s.after (cntSel s.quiet page i w)) := rfl
theorem exec_registerWrite (off : Nat) (w : Wr) (s : State) :
    exec (.registerWrite off w) s = .next (s.after (windowWrite s.quiet off w)) := rfl

/-- Settles O27: each clear is a plain write and some registers set to zero, and a write of a page's plain word is its plain write. -/
theorem registerWrites : Obligations.RegisterWrites := by
  unfold Obligations.RegisterWrites
  refine ⟨fun s page w => ⟨fun hm hc => ?_, fun hm => ?_, fun i hi hm hne => ?_⟩,
    fun s i off w => ⟨fun h1 h2 => ?_, fun o ho => ⟨?_, ?_⟩⟩⟩
  · have small : ∀ x ∈ [0x030, 0x038, 0x040, 0x048, 0x050], x < 4096 := by decide
    refine ⟨_, exec_errClear page w s, fun o h => ?_, fun p o hp h => ?_, ?_⟩ <;> rw [State.after_dev]
    · exact (reg_errCtrl hm hc (small o h) (.inr h)).trans (if_pos rfl)
    · exact (reg_errCtrl hm hc h (.inl hp)).trans (if_neg hp)
    · rw [errCtrl_clear hm hc, Dev.clearAll_mem, Dev.plainWrite_mem]
  · refine ⟨_, exec_cntClear page w s, fun i hi h => ?_, fun i hi h => ?_, ?_⟩ <;> rw [State.after_dev]
    · rw [reg_cntCtrl hm i hi, if_pos h]
    · rw [reg_cntCtrl hm i hi, h, if_neg Bool.false_ne_true]
    · rw [cntCtrl_clear hm, Dev.clearAll_mem, Dev.plainWrite_mem]
  · obtain ⟨slot, sel⟩ := reg_cntSel hi hm hne
    exact ⟨_, exec_cntSelWrite page i w s, slot, sel, by rw [State.after_dev, cntSel_clear hi hm hne]; simp⟩
  · rw [exec_registerWrite, windowWrite_misaligned h1 h2]
  · intro hb hp h hm
    obtain ⟨lo, hi, h8, -, -⟩ := govPlain_range off h
    rw [exec_registerWrite, windowWrite_page (page_lt_of_pageBlk hb) hi h8 ho, pageWrite_blk hb hp lo, blkReg, govReg_plain h,
      plainReg_of_mayWrite hm]
  · intro h hm
    obtain ⟨lo, hi, h8⟩ : 0x100 ≤ off ∧ off < 4096 ∧ off % 8 = 0 := by rcases List.mem_pair.1 h with rfl | rfl <;> decide
    rw [exec_registerWrite, windowWrite_page (by decide) hi h8 ho, pageWrite_blk (b := .sys) (i := 0) rfl rfl lo, blkReg,
      sysReg_plain h, plainReg_of_mayWrite hm]

end Sys2Proof.Machine

/-! SUPPORT. What accesses to memory leave: they change neither the contexts of tasks nor the writes that wait for the register
window, and bytes of memory only where they are put. -/

namespace Sys2Proof.Machine

/-! ### What an access to memory leaves -/

/-- The second machine is the first after accesses to memory: outstanding writes to the register window, tasks' contexts and the
generations of the carve-outs are as they were. -/
structure Dev.Accessed (d e : Dev) : Prop where
  bus  : e.bus = d.bus
  ctx  : ∀ c x, e.ctx? c x = d.ctx? c x
  gens : ∀ h, (e.half h).carveGen = (d.half h).carveGen

namespace Dev.Accessed

theorem refl (d : Dev) : Accessed d d := ⟨rfl, fun _ _ => rfl, fun _ => rfl⟩

theorem symm {d e : Dev} (h : Accessed d e) : Accessed e d := ⟨h.bus.symm, fun c x => (h.ctx c x).symm, fun i => (h.gens i).symm⟩

theorem trans {a b c : Dev} (h : Accessed a b) (g : Accessed b c) : Accessed a c :=
  ⟨g.bus.trans h.bus, fun i x => (g.ctx i x).trans (h.ctx i x), fun i => (g.gens i).trans (h.gens i)⟩

/-- A change that reaches none of the parts. -/
theorem of_fields {d e : Dev} (bus : e.bus = d.bus) (cores : e.cores = d.cores) (halves : e.halves = d.halves) : Accessed d e :=
  ⟨bus, fun _ _ => by simp only [Dev.ctx?, Dev.core, cores], fun _ => by simp only [Dev.half, halves]⟩

theorem of_noted {p : Nat} {d e : Dev} (h : Noted p d e) : Accessed d e := by
  obtain ⟨_, _, _, rfl, _⟩ := h
  exact of_fields rfl rfl rfl

/-- Two machines whose bytes of memory and generations agree read alike everywhere. -/
theorem byte_eq {d e : Dev} (h : Accessed d e) (m : e.mem = d.mem) (a : Nat) : e.byte a = d.byte a := by
  rw [Dev.byte_eq, Dev.byte_eq, m]
  simp only [h.gens]

section
variable {a d : Dev} (h : Accessed a d)
include h

theorem count (p sel n : Nat) : Accessed a (d.count p sel n) := h.trans (of_noted (HeaderOut.count d p sel n).noted)
theorem setIsr (p b : Nat) : Accessed a (d.setIsr p b) := h.trans (of_noted (HeaderOut.setIsr d p b).noted)
theorem raise (p code qual x : Nat) : Accessed a (d.raise p code qual x) := h.trans (of_noted (Noted.raise d p code qual x))
theorem modChan (k : Nat) (f : Channel → Channel) : Accessed a (d.modChan k f) := h.trans (of_fields rfl rfl rfl)
theorem setReg (p o : Nat) (v : W64) : Accessed a (d.setReg p o v) := h.trans (of_fields rfl rfl rfl)
theorem setf (p o hi lo v : Nat) : Accessed a (d.setf p o hi lo v) := h.trans (of_fields rfl rfl rfl)
theorem setPoison (pa : Nat) : Accessed a (d.setPoison pa) := h.trans (of_fields rfl rfl rfl)
theorem clearPoison (pa : Nat) : Accessed a (d.clearPoison pa) := h.trans (of_fields rfl rfl rfl)
theorem put (pa : Nat) (bs : List Byte) : Accessed a (d.put pa bs) := h.trans (of_fields rfl rfl rfl)
theorem putMask (pa : Nat) (bs : List (Option Byte)) : Accessed a (d.putMask pa bs) := h.trans (of_fields rfl rfl rfl)
theorem takeFree : Accessed a d.takeFree.1 := h.trans (of_fields rfl rfl rfl)

/-- A change of a half that keeps the generations. -/
theorem modHalf (i : Nat) (f : Half → Half) (hf : ∀ x, (f x).carveGen = x.carveGen) : Accessed a (d.modHalf i f) := by
  refine h.trans ⟨rfl, fun _ _ => rfl, fun j => ?_⟩
  by_cases e : j = i
  · subst e
    rw [Dev.half_modHalf, hf]
  · rw [Dev.half_modHalf_ne d f e]

/-- A change of a core that keeps its contexts. -/
theorem modCore (c : Nat) (f : Core → Core) (hf : ∀ k, (f k).ctxs = k.ctxs) : Accessed a (d.modCore c f) := by
  refine h.trans ⟨rfl, fun j x => ?_, fun _ => rfl⟩
  by_cases e : j = c
  · subst e
    rw [Dev.ctx?, Dev.core_modCore, hf, ← Dev.ctx?]
  · rw [Dev.ctx?, Dev.core_modCore_ne d f e, ← Dev.ctx?]

omit h in
/-- Either of two changes. -/
theorem ite {c : Prop} [Decidable c] {e : Dev} (hd : Accessed a d) (he : Accessed a e) : Accessed a (if c then d else e) := by
  split
  · exact hd
  · exact he

/-! #### Far stores -/

theorem writeBack (i line : Nat) : Accessed a (d.writeBack i line) := by
  unfold Dev.writeBack
  extract_lets cb
  have erased : Accessed a { d with dram := KV.erase d.dram line } := h.trans (of_fields rfl rfl rfl)
  exact ite h (.count (.modChan erased ..) ..)

theorem touch (i pa : Nat) : Accessed a (d.touch i pa).1 := by
  unfold Dev.touch
  extract_lets line ls pin set same new
  split
  · dsimp only
    exact h.modHalf _ _ (fun _ => rfl)
  · split
    · split
      · exact h
      · dsimp only
        exact modHalf (ite (h.writeBack ..) h) _ _ (fun _ => rfl)
    · dsimp only
      exact h.modHalf _ _ (fun _ => rfl)

theorem memUe (i pa flags : Nat) (again : Bool) : Accessed a (d.memUe i pa flags again).1 := by
  unfold Dev.memUe
  extract_lets cb page qual e ev
  have he : Accessed a e := h.count ..
  split <;> dsimp only
  · exact he
  · exact he.raise ..

theorem noteCorrection (k device rank sub : Nat) : Accessed a (d.noteCorrection k device rank sub) := by
  unfold Dev.noteCorrection
  extract_lets page same n e thr
  have he : Accessed a e := .setf (.modChan h ..) ..
  exact ite h (ite (.setIsr (.setReg he ..) ..) he)

theorem correct (k b pa : Nat) (scrub marked : Bool) (device n : Nat) (data : List Byte) :
    Accessed a (d.correct k b pa scrub marked device n data) := by
  unfold Dev.correct
  extract_lets page qual e₁ e₂ e₃
  have h₁ : Accessed a e₁ := .count (.count (.count h ..) ..) ..
  have h₂ : Accessed a e₂ := .raise (ite (.count h₁ ..) h₁) ..
  have h₃ : Accessed a e₃ := .clearPoison (.put h₂ ..) ..
  exact .noteCorrection (.modChan h₃ ..) ..

theorem fetchLine (i pa : Nat) : Accessed a (d.fetchLine i pa).1 := by
  unfold Dev.fetchLine
  extract_lets cb again r t e blank e' r' r''
  have hr : Accessed a r.1 := h.memUe ..
  have he : Accessed a e := h.touch ..
  have he' : Accessed a e' := .count (.modChan he ..) ..
  have hr' : Accessed a r'.1 := he'.memUe ..
  have hr'' : Accessed a r''.1 := he'.memUe ..
  split
  · dsimp only
    exact hr.modChan ..
  · split
    · split <;> (dsimp only; exact he)
    · split
      · dsimp only
        exact hr'
      · split
        · dsimp only
          exact hr''.setPoison pa
        · split <;> dsimp only
          · exact he'
          · exact he'.correct ..
          · exact hr''.setPoison pa

theorem loadLine (pa : Nat) : Accessed a (d.loadLine pa).1 := by
  unfold Dev.loadLine
  cases d.space pa with
  | dram i o => exact h.fetchLine ..
  | near _ _ | carve _ _ | sram =>
    dsimp only
    split
    · exact h.raise ..
    · exact h
  | host =>
    dsimp only
    split
    · exact h.trans (of_fields rfl rfl rfl)
    · split <;> exact h
  | _ => exact h

/-! #### Writes -/

theorem bumpGen (c i : Nat) : Accessed a (d.bumpGen c i) := by
  unfold Dev.bumpGen
  extract_lets page old new e
  have he : Accessed a e := h.setReg ..
  exact ite (he.raise ..) he

theorem watchWrite (pa : Nat) : Accessed a (d.watchWrite pa) := by
  unfold Dev.watchWrite
  refine foldl_keeps (Accessed a) _ (fun e c he => ite he ?_) _ d h
  exact foldl_keeps (Accessed a) _ (fun e i he => ite (he.bumpGen ..) he) _ e he

theorem dropCopies (core line : Nat) : Accessed a (d.dropCopies core line) := by
  unfold Dev.dropCopies
  extract_lets gone
  have hm : Accessed a (d.modCore core (fun k => { k with ra := k.ra.filter (fun r => r.line != line) })) := h.modCore _ _ (fun _ => rfl)
  exact ite h (hm.count ..)

theorem dropTaskCopies (core ctx : Nat) : Accessed a (d.dropTaskCopies core ctx) := by
  unfold Dev.dropTaskCopies
  extract_lets gone
  have hm : Accessed a (d.modCore core (fun k => { k with ra := k.ra.filter (fun r => r.ctx != ctx) })) := h.modCore _ _ (fun _ => rfl)
  exact ite h (hm.count ..)

/-! #### Translation -/

theorem noteEntry (va pa : Nat) : Accessed a (d.noteEntry va pa) := by
  unfold Dev.noteEntry
  extract_lets page l
  exact ite h (h.trans (of_fields rfl rfl rfl))

theorem readEntry (i : Option Nat) (va pa : Nat) : Accessed a (d.readEntry i va pa).1 := by
  unfold Dev.readEntry
  split
  · exact h
  · extract_lets r
    have hr : Accessed a r.1 := h.loadLine pa
    cases r.2 with
    | some ev => exact hr
    | none =>
      have hn := hr.noteEntry va pa
      dsimp only
      split
      · exact hn
      · exact hn.takeFree

theorem walkThrough (i : Option Nat) (va : Nat) : Accessed a (d.walkThrough i va).1 := by
  unfold Dev.walkThrough
  extract_lets step root
  have level : ∀ (e : Dev) (pa : Nat) (k : Dev → W64 → Dev × Except XlatStop Leaf), Accessed a e →
      (∀ b v, Accessed a b → Accessed a (k b v).1) → Accessed a (step (e.readEntry i va pa) k).1 := fun e pa k he hk => by
    have hr := he.readEntry i va pa
    unfold step
    split
    · exact hr
    · split
      · exact hr
      · exact hk _ _ hr
  clear_value step
  refine level _ _ _ h (fun b e1 hb => ?_)
  split
  · exact hb
  · refine level _ _ _ hb (fun f e2 hf => ?_)
    split
    · split <;> exact hf
    · refine level _ _ _ hf (fun g e3 hg => ?_)
      split <;> exact hg

theorem fillTlb (engine va : Nat) (l : Leaf) : Accessed a (d.fillTlb engine va l) := by
  unfold Dev.fillTlb
  extract_lets key mine put f
  have hf : Accessed a f.1 := h.takeFree
  have hput : ∀ e, Accessed a e → Accessed a (put e) := fun e he => he.trans (of_fields rfl rfl rfl)
  split
  · exact hput _ h
  · split
    · exact hput _ hf
    · exact hput { f.1 with tlbs := _ } (hf.trans (of_fields rfl rfl rfl))

theorem tlbHit (engine va : Nat) : Accessed a (d.tlbHit engine va).1 := by
  unfold Dev.tlbHit
  split
  · exact h
  · split
    · exact h
    · exact h.takeFree

theorem translate (engine va : Nat) (write secure : Bool) : Accessed a (d.translate engine va write secure).1 := by
  unfold Dev.translate
  extract_lets check hit e w
  have checked : ∀ (b : Dev) (l : Leaf), (check b l).1 = b := fun b l => by unfold check; split <;> rfl
  have hh : Accessed a hit.1 := h.tlbHit ..
  have he : Accessed a e := ite (hh.count ..) hh
  have hw : Accessed a w.1 := he.walkThrough ..
  split
  · exact h
  · split
    · rw [checked]; exact hh
    · split
      · exact hw
      · rw [checked]; exact hw.fillTlb ..

end

/-! #### Stores to DRAM -/

theorem storeDram {a d : Dev} (h : Accessed a d) (i pa : Nat) (bs : List (Option Byte)) (through : Bool) :
    Accessed a (d.storeDram i pa bs through) := by
  unfold Dev.storeDram
  extract_lets k line whole blank old d₁ through' d₂ d₃ d₄ d₅ d₆ d₇
  have h₁ : Accessed a d₁ := ite (h.touch i pa) (h.fetchLine i pa)
  have h₂ : Accessed a d₂ := ite (h₁.clearPoison pa) h₁
  have h₃ : Accessed a d₃ := ite (h₂.modChan k _) h₂
  have h₄ : Accessed a d₄ := ite h₃ (h₃.trans (of_fields rfl rfl rfl))
  have h₅ : Accessed a d₅ := h₄.putMask pa bs
  have h₆ : Accessed a d₆ := ite (h₅.writeBack i line) h₅
  have h₇ : Accessed a d₇ := h₆.modHalf _ _ (fun _ => rfl)
  exact ite h (ite h (h₇.watchWrite pa))

/-- A machine that an access has left with these bytes put reads as one where they were only put. -/
theorem byte_put {d e : Dev} (h : Accessed d e) {pa : Nat} {bs : List (Option Byte)} (m : e.mem = Memory.setMask d.mem pa bs) (a : Nat) :
    e.byte a = (d.putMask pa bs).byte a :=
  (((refl d).putMask pa bs).symm.trans h).byte_eq m a

end Dev.Accessed

end Sys2Proof.Machine

/-! SUPPORT. Stores of parts of lines in order, and the places of an address and of its line (R27, R197, R399, R410). -/

namespace Sys2Proof.Machine

/-! ### Lines in order -/

theorem Dev.lineErrors_congr {d e : Dev} (h : e.channels = d.channels) (k b : Nat) : e.lineErrors k b = d.lineErrors k b := by
  simp only [Dev.lineErrors, Dev.chan, h]

/-- A change of a channel that keeps a line in order keeps it for every channel. -/
theorem Dev.lineErrors_modChan {d : Dev} {k b : Nat} (h : d.lineErrors k b = []) (j : Nat) (f : Channel → Channel)
    (hf : ∀ c : Channel, KV.get [] c.faults (b / 64) = [] → KV.get [] (f c).faults (b / 64) = []) :
    (d.modChan j f).lineErrors k b = [] := by
  unfold Dev.lineErrors at *
  by_cases e : k = j
  · subst e
    rw [Dev.chan_modChan]
    exact hf _ h
  · rw [Dev.chan_modChan_ne d f e]
    exact h

theorem KV.get_nil_erase {α : Type} {l : List (Nat × List α)} {k : Nat} (h : KV.get [] l k = []) (j : Nat) :
    KV.get [] (KV.erase l j) k = [] := by
  rw [KV.get_eq] at *
  by_cases e : k = j
  · subst e
    rw [KV.find?_erase_self]; rfl
  · rwa [KV.find?_erase_ne _ e]

theorem Dev.lineErrors_writeBack {d : Dev} {k b : Nat} (h : d.lineErrors k b = []) (i line : Nat) :
    (d.writeBack i line).lineErrors k b = [] := by
  unfold Dev.writeBack
  extract_lets cb
  split
  · exact h
  · rw [Dev.lineErrors_congr (Dev.count_channels ..)]
    exact Dev.lineErrors_modChan (d := { d with dram := KV.erase d.dram line }) h _ _ (fun c hc => KV.get_nil_erase hc _)

theorem Dev.lineErrors_touch {d : Dev} {k b : Nat} (h : d.lineErrors k b = []) (i pa : Nat) : (d.touch i pa).1.lineErrors k b = [] := by
  unfold Dev.touch
  extract_lets line ls pin set same new
  split
  · exact h
  · split
    · split
      · exact h
      · dsimp only
        rw [Dev.lineErrors_congr (Dev.modHalf_channels ..)]
        split
        · exact Dev.lineErrors_writeBack h _ _
        · exact h
    · exact h

/-- A read of a line in order writes nothing back (R410). -/
theorem Dev.fetchLine_mem_clean {d : Dev} {i pa : Nat}
    (h : d.lineErrors (d.channelOf i (pa % 2 ^ 40)).1 (d.channelOf i (pa % 2 ^ 40)).2 = []) : (d.fetchLine i pa).1.mem = d.mem := by
  unfold Dev.fetchLine
  extract_lets cb again r t e blank e' r' r''
  have order : e'.lineErrors cb.1 cb.2 = [] := by
    rw [Dev.lineErrors_congr (Dev.count_channels ..)]
    exact Dev.lineErrors_modChan (Dev.lineErrors_touch h i pa) _ _ (fun _ hc => hc)
  have decoded : e'.lineDecode cb.1 cb.2 pa = .clean := by simp [Dev.lineDecode, order]
  have me' : e'.mem = d.mem := by simp [e', e, t]
  rw [decoded]
  split
  · simp [r]
  · split
    · split <;> simp [e, t]
    · split
      · simp [r', me']
      · split
        · simp [r'', me']
        · exact me'

/-! ### Parts of lines written -/

/-- A part of a line in order is written at its far store: its bytes are put, whatever the far store does (R197). -/
theorem Dev.storeDram_mem {d : Dev} {i pa : Nat} {bs : List (Option Byte)} {through : Bool}
    (hs : (d.half i).stopped = false) (hi : (d.half i).isolated = false)
    (ho : d.chanOffline (d.channelOf i (pa % 2 ^ 40)).1 = false) (part : wholeLine bs = false)
    (h : d.lineErrors (d.channelOf i (pa % 2 ^ 40)).1 (d.channelOf i (pa % 2 ^ 40)).2 = []) :
    (d.storeDram i pa bs through).mem = Memory.setMask d.mem pa bs := by
  unfold Dev.storeDram
  extract_lets k line whole blank old d₁ through' d₂ d₃ d₄ d₅ d₆ d₇
  have hw : whole = false := part
  have m₁ : d₁.mem = d.mem := by
    unfold d₁
    rw [hw]
    exact Dev.fetchLine_mem_clean h
  have m₂ : d₂.mem = d.mem := by unfold d₂; rw [hw]; exact m₁
  have m₃ : d₃.mem = d.mem := by unfold d₃; split <;> simp [m₂]
  have m₄ : d₄.mem = d.mem := by unfold d₄; split <;> simp [m₃]
  have m₅ : d₅.mem = Memory.setMask d.mem pa bs := by rw [← m₄]; exact Dev.putMask_mem ..
  have m₆ : d₆.mem = Memory.setMask d.mem pa bs := by unfold d₆; split <;> simp [m₅]
  have m₇ : d₇.mem = Memory.setMask d.mem pa bs := m₆
  have hk : d.chanOffline k = false := ho
  rw [if_neg (by simp [hs, hi]), if_neg (by simp [hk]), Dev.watchWrite_mem]
  exact m₇

/-- The store of a half that answers stands. -/
theorem Dev.half_stands {d : Dev} {i pa : Nat} (h : (∃ o, d.space pa = .dram i o) ∨ ∃ o, d.space pa = .carve i o)
    (hr : d.reaches pa = true) :
    (d.half i).stopped = false ∧ (d.half i).isolated = false := by
  rcases h with ⟨o, h⟩ | ⟨o, h⟩ <;> simpa [Dev.reaches, h] using hr

@[simp] theorem Dev.dropCopies_mem (d : Dev) (core line : Nat) : (d.dropCopies core line).mem = d.mem := by
  unfold Dev.dropCopies
  extract_lets gone
  split <;> simp

/-! ### Where an address and its line lie (R27, R28) -/

theorem Dev.space_eq_dram_iff {d : Dev} {pa i o : Nat} : d.space pa = .dram i o ↔
    pa < 0x020000000000 ∧ i = pa / 2 ^ 40 ∧ o = pa % 2 ^ 40 ∧ d.halfPresent i = true ∧ d.dramReady i = true ∧ o < d.halfSize i := by
  unfold Dev.space
  dsimp only
  constructor
  · intro e
    split_ifs at e with h g
    cases e
    exact ⟨h, rfl, rfl, g⟩
  · rintro ⟨h, rfl, rfl, g⟩
    rw [if_pos h, if_pos g]

theorem Dev.space_eq_carve_iff {d : Dev} {pa i o : Nat} : d.space pa = .carve i o ↔
    (0x100020000000 ≤ pa ∧ pa < 0x100040000000) ∧ i = (pa - 0x100020000000) / 0x10000000 ∧ o = (pa - 0x100020000000) % 0x10000000
      ∧ d.halfPresent i = true ∧ o < d.carve i * 0x1000000 := by
  unfold Dev.space
  dsimp only
  constructor
  · intro e
    split_ifs at e
    cases e
    rename_i h1 h2 h3 h4 hp g
    exact ⟨⟨Nat.le_of_not_lt h3, h4⟩, rfl, rfl, by simpa using hp, g⟩
  · rintro ⟨h, hi, ho, hp, g⟩
    rw [if_neg (by omega), if_neg (by omega), if_neg (by omega), if_pos h.2, ← hi, ← ho, hp, Bool.not_true,
      if_neg Bool.false_ne_true, if_pos g]

/-- The line of an address of DRAM lies in the same half's DRAM. -/
theorem Dev.space_line_dram {d : Dev} {pa i o : Nat} (h : d.space pa = .dram i o) : ∃ o', d.space (pa / 64 * 64) = .dram i o' := by
  obtain ⟨h1, h2, h3, hp, hr, h4⟩ := Dev.space_eq_dram_iff.1 h
  have e1 : pa / 64 * 64 < 0x020000000000 := by omega
  have e2 : i = pa / 64 * 64 / 2 ^ 40 := by omega
  have e3 : pa / 64 * 64 % 2 ^ 40 ≤ pa % 2 ^ 40 := by omega
  have e4 := Nat.lt_of_le_of_lt (h3 ▸ e3) h4
  exact ⟨_, Dev.space_eq_dram_iff.2 ⟨e1, e2, rfl, hp, hr, e4⟩⟩

/-- The line of an address of a carve-out lies in the same carve-out. -/
theorem Dev.space_line_carve {d : Dev} {pa i o : Nat} (h : d.space pa = .carve i o) : ∃ o', d.space (pa / 64 * 64) = .carve i o' := by
  obtain ⟨⟨h0, h1⟩, h2, h3, hp, h4⟩ := Dev.space_eq_carve_iff.1 h
  obtain ⟨x, rfl⟩ := Nat.exists_eq_add_of_le h0
  have e0 : (0x100020000000 + x) / 64 * 64 = 0x100020000000 + x / 64 * 64 := by omega
  rw [Nat.add_sub_cancel_left] at h2 h3
  have e1 : 0x100020000000 + x / 64 * 64 < 0x100040000000 := by omega
  have e2 : i = x / 64 * 64 / 0x10000000 := by omega
  have e3 : x / 64 * 64 % 0x10000000 ≤ o := by omega
  rw [e0]
  refine ⟨x / 64 * 64 % 0x10000000, Dev.space_eq_carve_iff.2 ?_⟩
  rw [Nat.add_sub_cancel_left]
  exact ⟨⟨Nat.le_add_right .., e1⟩, e2, rfl, hp, Nat.lt_of_le_of_lt e3 h4⟩

end Sys2Proof.Machine

/-! SUPPORT. How a task's command issues and ends, and the steps that its run is made of (R251, R264). -/

namespace Sys2Proof.Machine

/-! ### A command issues -/

/-- A command that may be issued and whose work ends with a fault ends with its status and event (R251, R264). -/
theorem issue_failed {d : Dev} {c x : Nat} {t : Ctx} {act : Who → Desc → M (Option Bool)} {status : Nat} {ev : W64} {r : Run}
    (hi : d.issuable c x t) (hr : runCmd d c x t act = (.error (.fail status ev), r)) :
    issue d c x act = r.dev.cmdEnded c x (d.whoOf c x) status (if r.event = 0 then ev else r.event) := by
  obtain ⟨h1, h2, h3⟩ := hi
  unfold runCmd Dev.issued at hr
  unfold issue
  rw [h1]
  simp only [h2, h3, Bool.not_true, hr]
  rfl

/-- A command whose act runs whole is complete (R264). -/
theorem issue_onOpc_ok {d : Dev} {c x n : Nat} {t : Ctx} {act : Who → Desc → M Unit} {r : Run} (hi : d.issuable c x t)
    (ho : t.cur.opc = n) (hr : runCmd d c x t act = (.ok (), r)) :
    issue d c x (onOpc n act) = r.dev.cmdEnded c x (d.whoOf c x) 0 r.event := by
  have work : onOpc n act (d.whoOf c x) t.cur = (do let _ ← act (d.whoOf c x) t.cur; return some true) := by
    unfold onOpc
    rw [if_pos ho]
  rw [issue_done d c x t act () true _ hi work (by rw [hr]), if_pos rfl, Dev.finished, hr]

theorem issue_onOpc_failed {d : Dev} {c x n : Nat} {t : Ctx} {act : Who → Desc → M Unit} {status : Nat} {ev : W64} {r : Run}
    (hi : d.issuable c x t) (h9 : t.cur.w0.bit 9 = false) (ho : t.cur.opc = n) (hr : runCmd d c x t act = (.error (.fail status ev), r)) :
    issue d c x (onOpc n act) = r.dev.cmdEnded c x (d.whoOf c x) status (if r.event = 0 then ev else r.event) :=
  issue_failed hi (by
    rw [runCmd_plain h9] at hr ⊢
    unfold onOpc
    rw [if_pos ho, run_bind, hr])

/-! ### A command ends -/

theorem Dev.byte_modCtx (d : Dev) (c x : Nat) (f : Ctx → Ctx) (a : Nat) : (d.modCtx c x f).byte a = d.byte a := by
  obtain ⟨k, e⟩ := d.modCtx_eq c x f
  rw [e]
  rfl

/-- With no write to the register window outstanding a command's end is its context's. -/
theorem Dev.cmdEnded_of_noBus {d : Dev} (h : d.bus = []) (c x : Nat) (w : Who) (status : Nat) (ev : W64) :
    d.cmdEnded c x w status ev = d.modCtx c x (fun k => k.cmdEnd status ev) := by
  obtain ⟨k, e⟩ := d.modCtx_eq c x (fun k => k.cmdEnd status ev)
  have hb : (d.modCtx c x (fun k => k.cmdEnd status ev)).bus = [] := by rw [e]; exact h
  unfold Dev.cmdEnded
  generalize d.modCtx c x (fun k => k.cmdEnd status ev) = e at *
  unfold Dev.drainTask
  rw [hb, List.foldl_nil, ← hb]

/-- The end of a command of a task that does not speculate: its first fault's status stands (R251). -/
theorem Ctx.cmdEnd_actual {t : Ctx} (h : t.spec = none) (status : Nat) (ev : W64) :
    ((t.cmdEnd status ev).opDone, (t.cmdEnd status ev).status) = (true, if t.status = 0 then status else t.status) := by
  unfold Ctx.cmdEnd
  rw [if_neg (by simp [Ctx.waitsRoom, h])]

/-- Issue reaches the cores, and with its trace record registers, the trace rings and what is driven out. -/
theorem issued_eq (d : Dev) (c x : Nat) (t : Ctx) :
    ∃ k r o n, d.issued c x t = { d with cores := k, regs := r, out := o, trc := n } := by
  unfold Dev.issued Dev.traceCmd Dev.traceTask
  split
  · obtain ⟨r, o, n, e, -⟩ := Dev.Noted.trace 0 (d.setCtx c x _) ..
    exact ⟨_, r, o, n, e⟩
  · exact ⟨_, _, _, _, rfl⟩

theorem issued_bus (d : Dev) (c x : Nat) (t : Ctx) : (d.issued c x t).bus = d.bus := by
  obtain ⟨_, _, _, _, e⟩ := issued_eq d c x t
  rw [e]

theorem issued_specOf (d : Dev) (c x : Nat) (t : Ctx) : (d.issued c x t).specOf (d.whoOf c x) = t.spec := by
  unfold Dev.specOf Dev.whoOf
  dsimp only
  rw [issued_ctx]

theorem issued_netQuiet (d : Dev) (c x : Nat) (t : Ctx) : (d.issued c x t).netQuiet c x = d.netQuiet c x := by
  obtain ⟨_, _, _, _, e⟩ := issued_eq d c x t
  rw [e]
  rfl

theorem issued_arrivalsIn (d : Dev) (c x : Nat) (t : Ctx) : (d.issued c x t).arrivalsIn c x = d.arrivalsIn c x := by
  obtain ⟨_, _, _, _, e⟩ := issued_eq d c x t
  rw [e]
  rfl

theorem Dev.Accessed.specOf {d e : Dev} (h : d.Accessed e) (w : Who) : e.specOf w = d.specOf w := by
  simp only [Dev.specOf, h.ctx]

/-- A command of a task that does not speculate ends on a machine that its accesses have left. -/
theorem cmdEnded_of_accessed {d e : Dev} {c x : Nat} {t : Ctx} (h : (d.issued c x t).Accessed e) (hb : d.bus = []) (hs : t.spec = none)
    (w : Who) (status : Nat) (ev : W64) :
    (∀ a, (e.cmdEnded c x w status ev).byte a = e.byte a)
      ∧ ((e.cmdEnded c x w status ev).ctx? c x).map (fun k => (k.opDone, k.status)) =
        some (true, if t.status = 0 then status else t.status) := by
  rw [Dev.cmdEnded_of_noBus (by rw [h.bus, issued_bus, hb])]
  refine ⟨fun a => Dev.byte_modCtx .., ?_⟩
  have hc := (h.ctx c x).trans (issued_ctx d c x t)
  rw [Dev.modCtx_of e _ hc, Dev.ctx?_setCtx, Option.map_some]
  exact congrArg some (Ctx.cmdEnd_actual (t := { t with state := .running, opDone := false, tag := t.cur.w0.field 31 16 }) hs status ev)

/-! ### Steps of a command's run -/

theorem run_require {b : Bool} (h : b = true) (r : Run) : (require b).run.run r = (.ok (), r) := by
  unfold require
  rw [if_pos h]
  rfl

theorem run_addrWord {v : W64} (h : v.field 63 48 = 0) (r : Run) : (addrWord v).run.run r = (.ok (v.field 47 0), r) := by
  unfold addrWord
  rw [run_bind, run_require (by simp [h])]
  rfl

theorem run_xlat {w : Who} {va pa : Nat} {wr : Bool} {r : Run} {e : Dev} (hp : w.phys = false)
    (h : r.dev.translate w.core va wr w.secure = (e, .ok pa)) : (xlat w va wr).run.run r = (.ok pa, { r with dev := e }) := by
  unfold xlat
  rw [hp, if_neg Bool.false_ne_true, run_bind, run_getDev]
  dsimp only
  rw [h]
  rfl

theorem run_reach {w : Who} {pa : Nat} {r : Run} (hp : w.phys = false) (h : r.dev.reachesFrom (w.core / 4) pa = true) :
    (reach w pa).run.run r = (.ok (), r) := by
  unfold reach
  rw [run_bind, run_getDev]
  dsimp only
  rw [hp, h]
  rfl

/-- A FENCE with nothing to wait for drops the task's copies (R215, R222). -/
theorem run_fenceWait {w : Who} {scope : Nat} {r : Run}
    (h : scope ≠ 3 ∨ r.dev.netQuiet w.core w.ctx = true ∧ r.dev.arrivalsIn w.core w.ctx = true) :
    (fenceWait w scope).run.run r = (.ok (), { r with dev := r.dev.dropTaskCopies w.core w.ctx }) := by
  have free : ¬ (scope = 3 ∧ (!(r.dev.netQuiet w.core w.ctx && r.dev.arrivalsIn w.core w.ctx)) = true) := by
    rintro ⟨h3, hn⟩
    obtain ⟨hq, ha⟩ := h.resolve_left (fun e => e h3)
    simp [hq, ha] at hn
  unfold fenceWait
  rw [run_bind, run_getDev]
  dsimp only
  rw [if_neg free]
  rfl

end Sys2Proof.Machine

/-! PROOFS. SIGNAL with SOP 0 (R14, R200, R223, R257). -/

namespace Sys2Proof.Machine

/-! ### The word of a SIGNAL within its line -/

/-- The bytes of a line that a SIGNAL writes: the value's at the word's place, and no other. -/
def signalMask (pa : Nat) (v : W64) : List (Option Byte) :=
  emptyLine.take (pa % 64) ++ (leBytes 8 v.toNat).map some ++ emptyLine.drop (pa % 64 + 8)

/-- What the mask holds at an offset of the line. -/
theorem signalMask_getElem? {pa : Nat} (v : W64) (h : pa % 8 = 0) (j : Nat) :
    (signalMask pa v)[j]? = if pa % 64 ≤ j ∧ j < pa % 64 + 8 then some (some (BitVec.ofNat 8 (v.toNat / 256 ^ (j - pa % 64))))
      else if j < 64 then some none else none := by
  have hl : (emptyLine.take (pa % 64)).length = pa % 64 := by simp [emptyLine]; omega
  have hm : (emptyLine.take (pa % 64) ++ (leBytes 8 v.toNat).map some).length = pa % 64 + 8 := by simp [leBytes_length, hl]
  have empty : ∀ k : Nat, emptyLine[k]? = if k < 64 then some none else none := fun k => List.getElem?_replicate ..
  unfold signalMask
  rcases Nat.lt_or_ge j (pa % 64) with h1 | h1
  · rw [List.getElem?_append_left (by omega), List.getElem?_append_left (by omega), List.getElem?_take_of_lt h1, empty,
      if_neg (by omega : ¬ (pa % 64 ≤ j ∧ j < pa % 64 + 8))]
  · rcases Nat.lt_or_ge j (pa % 64 + 8) with h2 | h2
    · have : j - pa % 64 < 8 := by omega
      rw [List.getElem?_append_left (by omega), List.getElem?_append_right (by omega), hl, if_pos ⟨h1, h2⟩, leBytes_eq_map]
      simp [this]
    · rw [List.getElem?_append_right (by omega), if_neg (by omega), hm, List.getElem?_drop, Nat.add_sub_cancel' h2, empty]

/-- A SIGNAL writes a part of its line. -/
theorem signalMask_part {pa : Nat} (v : W64) (h : pa % 8 = 0) : wholeLine (signalMask pa v) = false := by
  have hole : ∃ j : Nat, (signalMask pa v)[j]? = some none := by
    by_cases h0 : pa % 64 = 0
    · exact ⟨8, by rw [signalMask_getElem? v h, if_neg (by omega), if_pos (by omega)]⟩
    · exact ⟨0, by rw [signalMask_getElem? v h, if_neg (by omega), if_pos (by omega)]⟩
  obtain ⟨j, hj⟩ := hole
  have : (signalMask pa v).all Option.isSome = false := List.all_eq_false.2 ⟨none, List.mem_of_getElem? hj, by simp⟩
  simp [wholeLine, this]

/-- The value's bytes are put at the word's address, lowest first, and no others (R14). -/
theorem Dev.byte_putMask_signal (d : Dev) {pa : Nat} (v : W64) (h : pa % 8 = 0) (a : Nat) :
    (d.putMask (pa / 64 * 64) (signalMask pa v)).byte a =
      if pa ≤ a ∧ a < pa + 8 then BitVec.ofNat 8 (v.toNat / 256 ^ (a - pa)) else d.byte a := by
  rw [Dev.byte_putMask, signalMask_getElem? v h]
  by_cases hw : pa ≤ a ∧ a < pa + 8
  · have e : a - pa / 64 * 64 - pa % 64 = a - pa := by omega
    rw [if_pos (by omega), if_pos (by omega), if_pos hw, e]
  · rw [if_neg hw]
    split
    · rw [if_neg (by omega)]
      split_ifs <;> rfl
    · rfl

/-! ### Where a SIGNAL stores -/

/-- The word lies where a SIGNAL stores it: in a carve-out, or in DRAM on a line that is in order and no entry of a queue table
(R197, R200, R244). -/
def Dev.SignalReady (d : Dev) (pa : Nat) : Prop :=
  (∃ h o, d.space pa = .carve h o)
    ∨ ∃ h o, d.space pa = .dram h o ∧ d.chanOffline (d.channelOf h (pa / 64 * 64 % 2 ^ 40)).1 = false
        ∧ d.lineErrors (d.channelOf h (pa / 64 * 64 % 2 ^ 40)).1 (d.channelOf h (pa / 64 * 64 % 2 ^ 40)).2 = []
        ∧ d.linePinned h (pa / 64) = false

/-- What the word's store answers, its line's does. -/
theorem Dev.SignalReady.reachesFrom {d : Dev} {pa : Nat} (h : d.SignalReady pa) (i : Nat) :
    d.reachesFrom i (pa / 64 * 64) = d.reachesFrom i pa := by
  rcases h with ⟨j, o, h1⟩ | ⟨j, o, h1, -⟩
  · obtain ⟨o', h2⟩ := Dev.space_line_carve h1
    simp only [Dev.reachesFrom, Dev.reaches, h1, h2, Space.half]
  · obtain ⟨o', h2⟩ := Dev.space_line_dram h1
    simp only [Dev.reachesFrom, Dev.reaches, h1, h2, Space.half]

theorem Dev.SignalReady.place {d : Dev} {pa : Nat} (h : d.SignalReady pa) : signalPlace (d.space pa) = true := by
  rcases h with ⟨j, o, h1⟩ | ⟨j, o, h1, -⟩ <;> rw [h1] <;> rfl

/-- The line is written like any line of its store: it is no part of the register window and not reserved. -/
theorem Dev.SignalReady.line {d : Dev} {pa : Nat} (h : d.SignalReady pa) :
    ∃ i o, d.space (pa / 64 * 64) = .carve i o ∨ d.space (pa / 64 * 64) = .dram i o := by
  rcases h with ⟨j, o, h1⟩ | ⟨j, o, h1, -⟩
  · obtain ⟨o', h2⟩ := Dev.space_line_carve h1
    exact ⟨j, o', .inl h2⟩
  · obtain ⟨o', h2⟩ := Dev.space_line_dram h1
    exact ⟨j, o', .inr h2⟩

/-- No bit of the word is one that its task may not write (R244). -/
theorem Dev.SignalReady.keepSecure {d : Dev} {pa : Nat} (h : d.SignalReady pa) (mask : List (Option Byte)) :
    d.keepSecure (pa / 64 * 64) mask = mask := by
  unfold Dev.keepSecure
  rcases h with ⟨j, o, h1⟩ | ⟨j, o, h1, -, -, hp⟩
  · obtain ⟨o', h2⟩ := Dev.space_line_carve h1
    rw [h2]
  · obtain ⟨o', h2⟩ := Dev.space_line_dram h1
    have hq : pa / 64 * 64 / 64 = pa / 64 := by omega
    rw [h2]
    dsimp only
    rw [hq, hp, if_neg (fun e => Bool.false_ne_true e.1)]

/-- The store of a part of the word's line puts its bytes, and leaves what tasks hold. -/
theorem Dev.SignalReady.storeLine {d : Dev} {pa : Nat} (h : d.SignalReady pa) (hr : d.reaches pa = true) {mask : List (Option Byte)}
    (part : wholeLine mask = false) :
    d.Accessed (d.storeLine (pa / 64 * 64) mask false)
      ∧ (d.storeLine (pa / 64 * 64) mask false).mem = Memory.setMask d.mem (pa / 64 * 64) mask := by
  unfold Dev.storeLine
  rcases h with ⟨j, o, h1⟩ | ⟨j, o, h1, ho, he, -⟩
  · obtain ⟨o', h2⟩ := Dev.space_line_carve h1
    obtain ⟨hs, hi⟩ := Dev.half_stands (.inr ⟨o, h1⟩) hr
    have stands : ¬ ((d.half j).stopped = true ∨ (d.half j).isolated = true) := by simp [hs, hi]
    simp only [h2, part, Bool.false_eq_true, if_false, if_neg stands]
    exact ⟨((Dev.Accessed.refl d).putMask ..).watchWrite .., by simp⟩
  · obtain ⟨o', h2⟩ := Dev.space_line_dram h1
    obtain ⟨hs, hi⟩ := Dev.half_stands (.inl ⟨o, h1⟩) hr
    simp only [h2]
    exact ⟨(Dev.Accessed.refl d).storeDram .., Dev.storeDram_mem hs hi ho part he⟩

/-- The word stored and the core's copies of its line dropped: the value's bytes, and every other byte as before. -/
theorem Dev.SignalReady.stored {d : Dev} {pa : Nat} (h : d.SignalReady pa) (hr : d.reaches pa = true) (h8 : pa % 8 = 0)
    (v : W64) (c : Nat) :
    d.Accessed ((d.storeLine (pa / 64 * 64) (signalMask pa v) false).dropCopies c (pa / 64 * 64 / 64))
      ∧ ∀ a, ((d.storeLine (pa / 64 * 64) (signalMask pa v) false).dropCopies c (pa / 64 * 64 / 64)).byte a =
        if pa ≤ a ∧ a < pa + 8 then BitVec.ofNat 8 (v.toNat / 256 ^ (a - pa)) else d.byte a := by
  obtain ⟨acc, mem⟩ := h.storeLine hr (signalMask_part v h8)
  have dropped := acc.dropCopies c (pa / 64 * 64 / 64)
  exact ⟨dropped, fun a => (dropped.byte_put ((Dev.dropCopies_mem ..).trans mem) a).trans (Dev.byte_putMask_signal d v h8 a)⟩

/-! ### The run of a SIGNAL -/

/-- The operands of a SIGNAL with SOP 0, as its checks leave them (R257). -/
theorem run_parseSignal {w : Who} {k : Desc} {r : Run} (hu : unusedFrom k 2 = true) (ha : k.w1.field 63 48 = 0)
    (h8 : k.w1.field 47 0 % 8 = 0) (hk : r.dev.namesKept (k.w1.field 47 0) 8 false = false) :
    (parseSignal w k).run.run r = (.ok { scope := k.arg 33 32, sop := k.arg 35 34, va := k.w1.field 47 0, value := k.w2 }, r) := by
  have named : (nameRange (k.w1.field 47 0) 8 false).run.run r = (.ok (), r) := by
    unfold nameRange
    rw [run_bind, run_getDev]
    exact run_require (by rw [hk]; rfl) r
  unfold parseSignal
  simp only [run_bind, run_require hu, run_addrWord ha, run_require (beq_iff_eq.2 h8), named, run_pure]

/-- A line of a carve-out or of DRAM is written at its store, and the core's copies of it are dropped (R215, R223). -/
theorem run_writeAt {w : Who} {pa : Nat} {mask : List (Option Byte)} {r : Run} (hp : w.phys = false) (h : r.dev.SignalReady pa)
    (hr : r.dev.reachesFrom (w.core / 4) pa = true) (hs : r.dev.specOf w = none) :
    (writeAt w (pa / 64 * 64) mask).run.run r =
      (.ok (), { r with dev := (r.dev.storeLine (pa / 64 * 64) mask false).dropCopies w.core (pa / 64 * 64 / 64) }) := by
  have room : r.dev.waitsRoom w = false := by simp [Dev.waitsRoom, hs]
  obtain ⟨i, o, line⟩ := h.line
  unfold writeAt
  rw [run_bind, run_reach hp (by rw [h.reachesFrom, hr])]
  dsimp only
  rw [run_bind, run_getDev]
  dsimp only
  rw [h.keepSecure, ite_self]
  have direct : ((r.dev.specOf w).isSome && !r.dev.ownNear w (pa / 64 * 64)) = false := by rw [hs]; rfl
  rcases line with line | line <;> rw [line] <;> dsimp only <;>
    rw [room, direct, if_neg Bool.false_ne_true, if_neg Bool.false_ne_true, run_setDev]

/-- What a SIGNAL does with its word, once its fence has passed and its address is translated. -/
def signalStore (w : Who) (pa : Nat) (v : W64) : M Unit := do
  if !signalPlace ((← getDev).space pa) then fail 0x08
  writeAt w (pa / 64 * 64) (signalMask pa v)

/-- A SIGNAL with SOP 0 up to its store: the fence, and the translation of its address (R223, R257). -/
theorem run_signalBody {w : Who} {a : SignalArgs} {pa : Nat} {r : Run} {e : Dev} (hp : w.phys = false) (h0 : a.sop = 0)
    (hf : a.scope ≠ 3 ∨ r.dev.netQuiet w.core w.ctx = true ∧ r.dev.arrivalsIn w.core w.ctx = true)
    (hx : (r.dev.dropTaskCopies w.core w.ctx).translate w.core a.va true w.secure = (e, .ok pa)) :
    (signalBody w a).run.run r = (signalStore w pa a.value).run.run { r with dev := e } := by
  unfold signalBody
  rw [run_bind, run_fenceWait hf]
  dsimp only
  rw [run_bind, run_xlat (r := { r with dev := r.dev.dropTaskCopies w.core w.ctx }) hp hx]
  dsimp only
  unfold signalStore
  rw [run_bind, run_bind, run_getDev]
  dsimp only
  rw [if_pos h0]
  rfl

/-- A SIGNAL to a carve-out or to DRAM writes its word. -/
theorem run_signalStore {w : Who} {pa : Nat} {v : W64} {r : Run} (hp : w.phys = false) (h : r.dev.SignalReady pa)
    (hr : r.dev.reachesFrom (w.core / 4) pa = true) (hs : r.dev.specOf w = none) :
    (signalStore w pa v).run.run r =
      (.ok (), { r with dev := (r.dev.storeLine (pa / 64 * 64) (signalMask pa v) false).dropCopies w.core (pa / 64 * 64 / 64) }) := by
  unfold signalStore
  rw [run_bind, run_getDev]
  dsimp only
  rw [h.place]
  exact run_writeAt hp h hr hs

/-- A SIGNAL elsewhere but to the register window ends with BUS_ERROR (R200). -/
theorem run_signalStore_failed {w : Who} {pa : Nat} {v : W64} {r : Run} (h : signalPlace (r.dev.space pa) = false) :
    (signalStore w pa v).run.run r = (.error (.fail 0x08 0), r) := by
  unfold signalStore
  rw [run_bind, run_getDev]
  dsimp only
  rw [h]
  rfl

/-- Of a task that does not speculate, a SIGNAL's body runs at once (R227). -/
theorem run_signalAct {w : Who} {k : Desc} {r : Run} {a : SignalArgs} (hs : r.dev.specOf w = none)
    (hp : (parseSignal w k).run.run r = (.ok a, r)) : (signalAct w k).run.run r = (signalBody w a).run.run r := by
  have free : (holds w k).run.run r = (.ok false, r) := by
    unfold holds
    rw [run_bind, run_getDev]
    dsimp only
    rw [hs]
    rfl
  unfold signalAct
  rw [run_bind, hp]
  dsimp only
  rw [run_bind, free]
  rfl

/-- The checks of an issued SIGNAL of SOP 0 and its fence pass, and its address translates: what is left is its store. -/
theorem runCmd_signal {d e : Dev} {c x pa : Nat} {t : Ctx} (h9 : t.cur.w0.bit 9 = false) (hs : t.spec = none) (h0 : t.cur.arg 35 34 = 0)
    (hf : fenceFree d c x t) (hu : unusedFrom t.cur 2 = true) (ha : t.cur.w1.field 63 48 = 0) (h8 : t.cur.w1.field 47 0 % 8 = 0)
    (hk : (d.issued c x t).namesKept (t.cur.w1.field 47 0) 8 false = false)
    (hx : ((d.issued c x t).dropTaskCopies c x).translate c (t.cur.w1.field 47 0) true (d.whoOf c x).secure = (e, .ok pa)) :
    runCmd d c x t signalAct = (signalStore (d.whoOf c x) pa t.cur.w2).run.run { Run.start (d.issued c x t) with dev := e } := by
  have fence : t.cur.arg 33 32 ≠ 3 ∨ (d.issued c x t).netQuiet c x = true ∧ (d.issued c x t).arrivalsIn c x = true := by
    rwa [issued_netQuiet, issued_arrivalsIn]
  rw [runCmd_plain h9, run_signalAct (r := Run.start (d.issued c x t)) ((issued_specOf d c x t).trans hs)
    (run_parseSignal (r := Run.start (d.issued c x t)) hu ha h8 hk)]
  exact run_signalBody rfl h0 fence hx

theorem exec_signal (c x : Nat) (s : State) : exec (.signal c x) s = .next (s.after (issue s.quiet c x (onOpc 9 signalAct))) := rfl

/-- Settles O12: up to its store a SIGNAL leaves what its task holds, and its store puts the value's bytes; elsewhere it ends at the
check of its place. -/
theorem signalStores : Obligations.SignalStores := by
  unfold Obligations.SignalStores
  intro s c x t r pa hi ho h9 hs hb h0 hf hu ha h8 hk hx hr hpa
  have run := runCmd_signal h9 hs h0 hf hu ha h8 hk hx
  have acc : (s.quiet.issued c x t).Accessed r := by
    have h := ((Dev.Accessed.refl (s.quiet.issued c x t)).dropTaskCopies c x).translate c (t.cur.w1.field 47 0) true
      (s.quiet.whoOf c x).secure
    rwa [hx] at h
  refine ⟨fun ready => ?_, fun hn => ?_⟩
  · have ready : r.SignalReady pa := ready
    have spec : r.specOf (s.quiet.whoOf c x) = none := (acc.specOf _).trans ((issued_specOf s.quiet c x t).trans hs)
    have stored := run.trans (run_signalStore (r := { Run.start (s.quiet.issued c x t) with dev := r }) rfl ready hr spec)
    obtain ⟨sacc, byte⟩ := ready.stored (Bool.and_eq_true_iff.1 hr).1 hpa t.cur.w2 c
    obtain ⟨bytes, status⟩ := cmdEnded_of_accessed (acc.trans sacc) hb hs (s.quiet.whoOf c x) 0 0
    rw [ite_eq_right_iff.2 Eq.symm] at status
    have done := (exec_signal c x s).trans (congrArg (fun e => Host.Outcome.next (s.after e)) (issue_onOpc_ok hi ho stored))
    refine ⟨_, done, fun i h => ?_, fun a h => ?_, status⟩
    · exact ((bytes _).trans (byte (pa + i))).trans (by rw [if_pos (by omega), Nat.add_sub_cancel_left])
    · exact ((bytes a).trans (byte a)).trans (if_neg (by omega))
  · have place : signalPlace (r.space pa) = false := by rcases hn with h | ⟨k, o, h⟩ <;> rw [h] <;> rfl
    have failed := run.trans (run_signalStore_failed (r := { Run.start (s.quiet.issued c x t) with dev := r }) place)
    obtain ⟨bytes, status⟩ := cmdEnded_of_accessed acc hb hs (s.quiet.whoOf c x) 0x08 0
    have done := (exec_signal c x s).trans (congrArg (fun e => Host.Outcome.next (s.after e)) (issue_onOpc_failed hi h9 ho failed))
    exact ⟨_, done, bytes, status⟩

end Sys2Proof.Machine

/-! PROOFS. What a step runs, and the clocks of an idle step (R36, R39, R270). -/

namespace Sys2Proof.Machine

theorem step_of_cons {s : State} {c : Instr} {rest : List Instr} (h : s.pending = c :: rest) :
    step s = exec c { s with pending := rest } := by
  unfold step
  rw [h]

theorem step_of_nil {s : State} (h : s.pending = []) : step s = .next (tick s) := by
  unfold step
  rw [h]

/-- Settles O1: the queue is empty or has a front, and the step's match takes that case. -/
theorem stepRunsFrontCommand : Obligations.StepRunsFrontCommand := by
  unfold Obligations.StepRunsFrontCommand
  exact ⟨fun _ _ _ => step_of_cons, fun _ => step_of_nil⟩

/-! ### Station time (R36, R270) -/

/-- The four cycles of ACLK in which TCLK makes none. -/
theorem Dev.tclkTick_between {d : Dev} (h : d.fts.tclk + 1 < 5) : d.tclkTick = d.modFts (fun f => { f with tclk := f.tclk + 1 }) :=
  if_pos h

/-- The fifth cycle of ACLK, in which TCLK makes one. -/
theorem Dev.tclkTick_fifth {d : Dev} (h : ¬ d.fts.tclk + 1 < 5) : d.tclkTick = (d.modFts (fun f => { f with tclk := 0 })).timeTick :=
  if_neg h

@[simp] theorem Dev.reg_modFts (d : Dev) (f : Fts → Fts) (p o : Nat) : (d.modFts f).reg p o = d.reg p o := rfl

/-- A TCLK cycle adds FTS_INC, in units of 2^-32 ns, to station time and to its fraction. -/
theorem Dev.reg_timeTick (d : Dev) :
    d.timeTick.reg pgFts 0x118 = BitVec.ofNat 64 (d.ftsTime + (d.fts.frac + d.regf pgFts 0x120 39 0) / 2 ^ 32) := by
  unfold Dev.timeTick
  rw [Dev.reg_modFts, Dev.reg_setReg]

/-- Settles O6: the ACLK counters are those of the tick by definition, and TCLK's tick is one of its two cases. -/
theorem idleCycleCounts : Obligations.IdleCycleCounts := by
  unfold Obligations.IdleCycleCounts
  intro d
  refine ⟨rfl, rfl, rfl, fun h => ?_, fun h => ?_⟩
  · rw [Dev.tclkTick_between h, Dev.reg_modFts]
  · rw [Dev.tclkTick_fifth h]
    exact ⟨rfl, Dev.reg_timeTick _⟩

end Sys2Proof.Machine

/-! PROOFS. What a device reset leaves, and its release (R39, R484, R514 to R518). -/

namespace Sys2Proof.Machine

/-! ### Lists filtered by key -/

/-- A list filtered by key reads as before under the keys that stay, and nothing under the others. -/
theorem KV.find?_filter {α : Type} (l : List (Nat × α)) (p : Nat → Bool) (k : Nat) :
    KV.find? (l.filter (fun x => p x.1)) k = if p k then KV.find? l k else none := by
  induction l with
  | nil => simp
  | cons x l ih =>
    obtain ⟨j, v⟩ := x
    by_cases e : j = k
    · subst e
      cases hp : p j <;> simp [hp, KV.find?, ih]
    · cases hp : p j <;> simp [hp, KV.find?, ih, e]

/-- Registers filtered by key: those that stay read as before, the others their reset values. -/
theorem Dev.reg_of_filter {d e : Dev} {p : Nat → Bool} (h : e.regs = d.regs.filter (fun r => p r.1)) (page off : Nat) :
    e.reg page off = if p (regKey page off) then d.reg page off else regReset page off := by
  unfold Dev.reg
  rw [h, KV.find?_filter]
  cases p (regKey page off) <;> rfl

/-! ### What a reset leaves (R516 to R518) -/

/-- Far stores lose what they hold to DRAM's own contents; no register shows it. -/
theorem Dev.dramAsStored_regs (d : Dev) : d.dramAsStored.regs = d.regs := by
  unfold Dev.dramAsStored
  refine foldl_field Dev.regs _ (fun e x => ?_) _ d
  extract_lets pa k e₁ e₂
  have h : e₂.regs = e.regs := by unfold e₂; split <;> rfl
  split
  · rw [Dev.modChan_regs, h]
  · exact h

theorem Dev.dramAsStored_mem_of_clean {d : Dev} (h : d.dram = []) : d.dramAsStored.mem = d.mem := by
  unfold Dev.dramAsStored
  rw [h]
  rfl

/-- The registers that a reset keeps, and the reset values of the others. -/
theorem Dev.reg_wiped (d : Dev) (b : Bool) (page off : Nat) :
    (d.wiped b).reg page off = if keptRegs.contains (regKey page off) then d.reg page off else regReset page off :=
  Dev.reg_of_filter (p := fun k => keptRegs.contains k) (congrArg (List.filter _) d.dramAsStored_regs) page off

/-- DRAM of which no far store holds a dirty line reads as before. -/
theorem Dev.byte_wiped {d : Dev} (h : d.dram = []) {a : Nat} (ha : a < 0x020000000000) : (d.wiped true).byte a = d.byte a := by
  have zero : memDefault a = some 0 := by
    unfold memDefault
    rw [if_neg (by omega), if_neg (by omega)]
  have kept : outlivesReset true a = true := by simp [outlivesReset, ha]
  have mem : (d.wiped true).mem = d.mem.filter (fun c => outlivesReset true c.1) :=
    congrArg (List.filter _) (Dev.dramAsStored_mem_of_clean h)
  unfold Dev.byte
  rw [mem, KV.find?_filter, if_pos kept, zero]

theorem Dev.up_of_inReset {d : Dev} (h : d.power.inReset = true) : d.up = false := by
  simp [Dev.up, h]

/-- A device reset, whatever its cause, leaves the device so. -/
theorem resetLeft_deviceReset (d : Dev) (cause : Nat) : resetLeft d (d.deviceReset cause) cause := by
  have held : (d.deviceReset cause).power.inReset = true := rfl
  refine ⟨held, Dev.up_of_inReset held, ?_, fun page off h => ?_, rfl, rfl, rfl, rfl, rfl, rfl, fun h a ha => ?_⟩
  · have kept : keptRegs.contains (regKey pgPmu 0x128) = true := by decide
    rw [Dev.deviceReset, Dev.reg_wiped, if_pos kept, Dev.reg_setReg]
  · rw [Dev.deviceReset, Dev.reg_wiped, if_neg (fun e => h (List.contains_iff_mem.1 e))]
  · exact Dev.byte_wiped (d := d.setReg pgPmu 0x128 (BitVec.ofNat 64 cause)) h ha

/-! ### The causes (R514 to R516) -/

theorem sysRst_low {d : Dev} (on : d.sysOn = true) (h : d.power.rstLow = false) :
    sysRst d false = { d with power := { d.power with rstLow := true } }.deviceReset 2 := by
  simp [sysRst, on, h]

theorem perst_low {d : Dev} (on : d.sysOn = true) (h : d.power.perstLow = false) :
    perst d false = { d with power := { d.power with perstLow := true } }.deviceReset 3 := by
  simp [perst, on, h]

theorem hotReset_begin {d : Dev} (h : d.up = true) :
    hotReset d false = { d with power := { d.power with hotReset := true } }.deviceReset 4 := by
  simp [hotReset, h]

theorem devRst_hit {d : Dev} {w : Wr} (hm : d.mayWrite w.agent pgPmu 0x120 = true) (hw : wrHit w 0 = true) :
    devRst d w = d.deviceReset 5 := by
  simp [devRst, hm, hw]

/-! ### The release (R39, R515) -/

/-- With every power group raised, the release of the reset does no more than start the clocks. -/
theorem resetRelease_ready {d : Dev} (inReset : d.power.inReset = true) (rst : d.power.rstLow = false)
    (perst : d.power.perstLow = false) (hot : d.power.hotReset = false) (on : d.sysOn = true) (faults : d.noPowerFault = true)
    (groups : d.nextGroup = none) :
    resetRelease d = { d with power := { d.power with inReset := false } }.startAclk := by
  have raised : ¬ d.nextGroup.isSome = true := by simp [groups]
  unfold resetRelease
  extract_lets p e
  rw [if_neg (by simp [p, inReset, rst, perst, hot, on, faults]), if_neg (fun h => raised h.2)]

/-- A device whose system die has power is up once no reset holds it. -/
theorem Dev.up_of_sysOn {d : Dev} (h : d.sysOn = true) : { d with power := { d.power with inReset := false } }.up = true := by
  simp only [Dev.sysOn, Dev.enableOf, Dev.goodOf, Bool.and_eq_true] at h
  obtain ⟨⟨⟨aux, enable⟩, good⟩, seq⟩ := h
  simp only [Dev.up, aux, seq, good, enable, Bool.not_false, Bool.and_self]

theorem exec_sysRstNAssert (r : Bool) (s : State) : exec (.sysRstNAssert r) s = .next (s.after (sysRst s.quiet r)) := rfl
theorem exec_perstNAssert (r : Bool) (s : State) : exec (.perstNAssert r) s = .next (s.after (perst s.quiet r)) := rfl
theorem exec_pcieHotReset (r : Bool) (s : State) : exec (.pcieHotReset r) s = .next (s.after (hotReset s.quiet r)) := rfl
theorem exec_devRst (w : Wr) (s : State) : exec (.devRst w) s = .next (s.after (devRst s.quiet w)) := rfl
theorem exec_resetRelease (s : State) : exec .resetRelease s = .next (s.after (resetRelease s.quiet)) := rfl

/-- Settles O54: each cause is a device reset of the machine with that input's level noted, and the release starts the clocks. -/
theorem deviceResets : Obligations.DeviceResets := by
  unfold Obligations.DeviceResets
  intro s w
  refine ⟨fun on h => ⟨_, exec_sysRstNAssert false s, ?_⟩, fun on h => ⟨_, exec_perstNAssert false s, ?_⟩,
    fun h => ⟨_, exec_pcieHotReset false s, ?_⟩, fun hm hw => ⟨_, exec_devRst w s, ?_⟩,
    fun inReset rst perst hot on faults _ groups => ⟨_, exec_resetRelease s, ?_⟩⟩ <;> rw [State.after_dev]
  · rw [sysRst_low on h]
    exact resetLeft_deviceReset _ 2
  · rw [perst_low on h]
    exact resetLeft_deviceReset _ 3
  · rw [hotReset_begin h]
    exact resetLeft_deviceReset _ 4
  · rw [devRst_hit hm hw]
    exact resetLeft_deviceReset _ 5
  · rw [resetRelease_ready inReset rst perst hot on faults groups]
    exact ⟨Dev.up_of_sysOn on, rfl, rfl, fun _ _ => rfl⟩

end Sys2Proof.Machine

/-! PROOFS. Halves, profiles, the power limit and standby (R38, R515, R526 to R528). -/

namespace Sys2Proof.Machine

/-! ### What the power states read -/

theorem Dev.up_congr {d e : Dev} (h : e.power = d.power) : e.up = d.up := by
  simp only [Dev.up, h]

theorem Dev.halfPresent_congr {d e : Dev} (h : e.cap = d.cap) (i : Nat) : e.halfPresent i = d.halfPresent i := by
  unfold Dev.halfPresent Dev.halvesN
  rw [h]

theorem Dev.lt_of_halfPresent {d : Dev} {h : Nat} (present : d.halfPresent h = true) : h < 2 :=
  of_decide_eq_true (Bool.and_eq_true_iff.1 present).2

theorem Dev.regb_of_reg {d e : Dev} {p o : Nat} (h : e.reg p o = d.reg p o) (i : Nat) : e.regb p o i = d.regb p o i :=
  congrArg (fun w => W64.bit w i) h

@[simp] theorem Dev.reg_modHalf (d : Dev) (h : Nat) (f : Half → Half) (p o : Nat) : (d.modHalf h f).reg p o = d.reg p o := rfl

/-- A number of at most 16 bits put into a word reads back from its low field. -/
theorem W64.field_ofNat_low {n : Nat} (h : n < 65536) : W64.field (BitVec.ofNat 64 n) 15 0 = n := by
  unfold W64.field
  rw [BitVec.toNat_ofNat, Nat.shiftRight_zero, Nat.mod_eq_of_lt (by omega : n < 2 ^ 64)]
  exact Nat.mod_eq_of_lt h

/-! ### Release of a half (R515) -/

theorem halfCtrl_ne_uci (h : Nat) : regKey pgPmu 0x110 ≠ regKey (pgUci h) 0x100 := fun e =>
  absurd ((regKey_inj (by decide) (by decide)).1 e).2 (by decide)

theorem halfCtrl_ne_dbw : regKey pgPmu 0x110 ≠ regKey pgDbw 0x100 := by decide

/-- A half that runs is left as it is. -/
theorem Dev.runHalf_running {d : Dev} {h : Nat} (run : d.regb pgPmu 0x110 h = true) : d.runHalf h = d := by
  simp [Dev.runHalf, run]

/-- The release of a half reaches registers and halves, and nothing else. -/
theorem Dev.runHalf_eq (d : Dev) (h : Nat) : ∃ r x, d.runHalf h = { d with regs := r, halves := x } := by
  unfold Dev.runHalf
  extract_lets d₁ d₂
  split
  · exact ⟨_, _, rfl⟩
  · split <;> exact ⟨_, _, rfl⟩

@[simp] theorem Dev.runHalf_power (d : Dev) (h : Nat) : (d.runHalf h).power = d.power := by obtain ⟨_, _, e⟩ := d.runHalf_eq h; rw [e]
@[simp] theorem Dev.runHalf_cap (d : Dev) (h : Nat) : (d.runHalf h).cap = d.cap := by obtain ⟨_, _, e⟩ := d.runHalf_eq h; rw [e]
@[simp] theorem Dev.runHalf_mem (d : Dev) (h : Nat) : (d.runHalf h).mem = d.mem := by obtain ⟨_, _, e⟩ := d.runHalf_eq h; rw [e]

/-- A held half whose rails are good is released: its bit of PMU_HALF_CTRL is set and its UCIe link is UP. -/
theorem Dev.reg_runHalf {d : Dev} {h : Nat} (present : d.halfPresent h = true) (held : d.regb pgPmu 0x110 h = false)
    (enable : d.enableOf (1 + h) = true) (good : d.goodOf (1 + h) = true) :
    (d.runHalf h).reg pgPmu 0x110 = (d.setb pgPmu 0x110 h true).reg pgPmu 0x110
      ∧ (d.runHalf h).regb (pgUci h) 0x100 0 = true := by
  have below : h < 2 := Dev.lt_of_halfPresent present
  have link : regKey (pgUci h) 0x100 ≠ regKey pgDbw 0x100 := by unfold regKey pgUci pgDbw; omega
  unfold Dev.runHalf
  extract_lets d₁ d₂
  have ctrl : d₂.reg pgPmu 0x110 = (d.setb pgPmu 0x110 h true).reg pgPmu 0x110 := by
    unfold d₂ d₁
    rw [Dev.reg_modHalf, Dev.reg_setb_ne _ 0 true (halfCtrl_ne_uci h)]
  have up : d₂.regb (pgUci h) 0x100 0 = true := by
    unfold d₂
    rw [Dev.regb_of_reg (Dev.reg_modHalf ..)]
    unfold d₁
    rw [Dev.regb_setb _ _ _ 0 true (by decide)]
  rw [if_neg (by simp [present, held, enable, good])]
  split
  · exact ⟨(d₂.reg_setReg_ne 1 halfCtrl_ne_dbw).trans ctrl, (Dev.regb_of_reg (d₂.reg_setReg_ne 1 link) 0).trans up⟩
  · exact ⟨ctrl, up⟩

/-- After the release of a half whose rails are good its bit is set, and the other's is as it was. -/
theorem Dev.regb_runHalf {d : Dev} {h : Nat} (present : d.halfPresent h = true) (enable : d.enableOf (1 + h) = true)
    (good : d.goodOf (1 + h) = true) (i : Nat) :
    (d.runHalf h).regb pgPmu 0x110 i = if i = h then true else d.regb pgPmu 0x110 i := by
  have below : h < 64 := Nat.lt_trans (Dev.lt_of_halfPresent present) (by decide)
  cases held : d.regb pgPmu 0x110 h with
  | true =>
    rw [Dev.runHalf_running held]
    split
    · next e => rw [e, held]
    · rfl
  | false =>
    rw [Dev.regb_of_reg (Dev.reg_runHalf present held enable good).1]
    split
    · next e => rw [e, Dev.regb_setb _ _ _ _ _ below]
    · next e => exact Dev.regb_setb_ne _ _ _ _ below e

/-- A half of a device runs by its bit of PMU_HALF_CTRL. -/
theorem Dev.running_runHalf {d : Dev} {h : Nat} (present : d.halfPresent h = true) (enable : d.enableOf (1 + h) = true)
    (good : d.goodOf (1 + h) = true) (i : Nat) :
    (d.runHalf h).running i = if i = h then d.up else d.running i := by
  simp only [Dev.running, Dev.up_congr (d.runHalf_power h), Dev.halfPresent_congr (d.runHalf_cap h),
    Dev.regb_runHalf present enable good]
  split
  · next e => rw [e, present, Bool.and_true, Bool.and_true]
  · rfl

theorem halfRun_first {d : Dev} {w : Wr} (hm : d.mayWrite w.agent pgPmu 0x110 = true) (h0 : wrHit w 0 = true)
    (h1 : wrHit w 1 = false) : halfRun d w = d.runHalf 0 := by
  simp [halfRun, hm, h0, h1]

/-! ### Profiles and limits (R38, R527, R528) -/

theorem profileSelect_running {d : Dev} {w : Wr} (h : d.halvesHeld = false) : profileSelect d w = d := by
  simp [profileSelect, h]

theorem sscEn_running {d : Dev} {w : Wr} (h : d.halvesHeld = false) : sscEn d w = d := by
  simp [sscEn, h]

theorem sscEn_held {d : Dev} {w : Wr} (hm : d.mayWrite w.agent pgPmu 0x100 = true) (h : d.halvesHeld = true) :
    sscEn d w = d.setb pgPmu 0x100 0 ((d.merged pgPmu 0x100 w).bit 0) := by
  simp [sscEn, hm, h]

/-- The STUDIO bit of a PMU_PROFILE word. -/
theorem profileWord_studio : ∀ sel new : Bool,
    W64.bit (BitVec.ofNat 64 ((if sel then 1 else 0) + (if new then 256 else 0))) 8 = new := by decide

/-- A profile selected while the halves are held is in force, as far as the variant has it; one that changes takes its limit. -/
theorem profileSelect_held {d : Dev} {w : Wr} {new : Bool} (hm : d.mayWrite w.agent pgPmu 0x108 = true) (h : d.halvesHeld = true)
    (sel : ((d.merged pgPmu 0x108 w).bit 0 && d.cap.field 3 2 == 1) = new) :
    (profileSelect d w).studio = new
      ∧ (new ≠ d.studio → (profileSelect d w).regf pgPmu 0x130 15 0 = if new then 1100 else 700) := by
  have apart : regKey pgPmu 0x108 ≠ regKey pgPmu 0x130 := by decide
  unfold profileSelect
  rw [if_neg (by simp [hm, h])]
  extract_lets bit old now e
  have studio : e.studio = new := by
    unfold Dev.studio Dev.regb e
    rw [Dev.reg_setReg, profileWord_studio, ← sel]
  have limit : e.profileLimit = if new then 1100 else 700 := by rw [Dev.profileLimit, studio]
  split
  · next same => exact ⟨studio, fun differ => absurd (sel.symm.trans same) differ⟩
  · refine ⟨(Dev.regb_of_reg (e.reg_setReg_ne _ apart) 8).trans studio, fun _ => ?_⟩
    rw [Dev.regf, Dev.reg_setReg, limit]
    exact W64.field_ofNat_low (by split <;> decide)

theorem Dev.profileLimit_range (d : Dev) : 300 ≤ d.profileLimit ∧ d.profileLimit ≤ 1100 := by
  unfold Dev.profileLimit
  split <;> omega

/-- PMU_PWR_LIMIT takes the written limit, brought between 300 W and the profile's. -/
theorem regf_pwrLimit {d : Dev} {w : Wr} (hm : d.mayWrite w.agent pgPmu 0x130 = true) :
    (pwrLimit d w).regf pgPmu 0x130 15 0 = max 300 (min d.profileLimit ((d.merged pgPmu 0x130 w).field 15 0)) := by
  have := d.profileLimit_range
  unfold pwrLimit
  rw [if_neg (by simp [hm]), Dev.regf, Dev.reg_setReg, W64.field_ofNat_low (by omega)]

/-! ### Entry to standby and exit (R526) -/

/-- A request for standby from the running state: refused, or the change begins. -/
theorem pstateWrite_entry {d : Dev} {w : Wr} (hm : d.mayWrite w.agent pgPmu 0x118 = true)
    (state : (d.plainWrite pgPmu 0x118 w).pstate = 0) (old : (d.plainWrite pgPmu 0x118 w).regb pgPmu 0x118 0 = false)
    (asked : (d.merged pgPmu 0x118 w).bit 0 = true) :
    pstateWrite d w = if (d.plainWrite pgPmu 0x118 w).standbyOk
      then (((d.plainWrite pgPmu 0x118 w).setb pgPmu 0x118 0 true).setf pgPmu 0x118 5 4 3).eachHalf Dev.flushStart
      else ((d.plainWrite pgPmu 0x118 w).setb pgPmu 0x118 8 true).setIsr pgPmu 2 := by
  unfold pstateWrite
  rw [if_neg (by simp [hm])]
  extract_lets v e was
  rw [if_pos (by simp [was, v, e, state, old, asked])]
  cases e.standbyOk <;> rfl

/-- A request to leave standby raises the groups again. -/
theorem pstateWrite_exit {d : Dev} {w : Wr} (hm : d.mayWrite w.agent pgPmu 0x118 = true)
    (state : (d.plainWrite pgPmu 0x118 w).pstate = 2) (old : (d.plainWrite pgPmu 0x118 w).regb pgPmu 0x118 0 = true)
    (asked : (d.merged pgPmu 0x118 w).bit 0 = false) :
    pstateWrite d w = (((d.plainWrite pgPmu 0x118 w).setb pgPmu 0x118 0 false).setf pgPmu 0x118 5 4 3).raiseNext := by
  unfold pstateWrite
  rw [if_neg (by simp [hm])]
  extract_lets v e was
  rw [if_neg (by simp [was, e, old]), if_pos (by simp [was, v, e, state, old, asked])]

/-! ### What a half loses in standby (R526) -/

theorem Dev.loseCarve_cap (d : Dev) (h a b : Nat) : (d.loseCarve h a b).cap = d.cap := by
  unfold Dev.loseCarve
  extract_lets lo hi e
  exact foldl_field Dev.cap _ (fun x i => by split <;> rfl) _ e

theorem Dev.loseCarve_regs (d : Dev) (h a b : Nat) : (d.loseCarve h a b).regs = d.regs := by
  unfold Dev.loseCarve
  extract_lets lo hi e
  exact foldl_field Dev.regs _ (fun x i => by split <;> rfl) _ e

theorem Dev.wipeHalf_cap (d : Dev) (h : Nat) : (d.wipeHalf h).cap = d.cap := by
  unfold Dev.wipeHalf
  extract_lets mine d₁ sec d₂ d₃
  exact Dev.loseCarve_cap d₂ h 0 16

/-- Of PMU_HALF_CTRL a half that goes off clears its own bit. -/
theorem Dev.regb_wipeHalf (d : Dev) {h : Nat} (below : h < 2) (i : Nat) :
    (d.wipeHalf h).regb pgPmu 0x110 i = if i = h then false else d.regb pgPmu 0x110 i := by
  have sys : regKey pgPmu 0x110 ≠ regKey pgSys 0x448 := by decide
  have page : (pageHalf (regKey pgPmu 0x110 / 4096) != some h) = true := by
    have : pageHalf (regKey pgPmu 0x110 / 4096) = none := by decide
    rw [this]
    rfl
  unfold Dev.wipeHalf
  extract_lets mine d₁ sec d₂ d₃ reset d₄
  have regs : d₃.regs = d.regs.filter (fun r => pageHalf (r.1 / 4096) != some h) := Dev.loseCarve_regs d₂ h 0 16
  have kept : d₄.reg pgPmu 0x110 = d.reg pgPmu 0x110 := by
    unfold d₄
    rw [Dev.reg_modHalf, Dev.reg_of_filter (p := fun k => pageHalf (k / 4096) != some h) regs, if_pos page]
  rw [Dev.regb, Dev.reg_setf_ne _ _ _ _ sys, Dev.reg_setReg_ne _ _ halfCtrl_ne_dbw, Dev.reg_setb_ne _ _ _ (halfCtrl_ne_uci h), ← Dev.regb]
  split
  · next e => rw [e, Dev.regb_setb _ _ _ _ _ (by omega)]
  · next e => rw [Dev.regb_setb_ne _ _ _ _ (by omega) e, Dev.regb_of_reg kept]

/-- The half is absent or held in reset. -/
def Dev.HalfOff (d : Dev) (h : Nat) : Prop := d.halfPresent h = true → d.regb pgPmu 0x110 h = false

theorem Dev.HalfOff.running {d : Dev} {h : Nat} (off : d.HalfOff h) : d.running h = false := by
  unfold Dev.running
  cases present : d.halfPresent h with
  | false => rw [Bool.and_false, Bool.false_and]
  | true => rw [off present, Bool.and_false]

theorem Dev.HalfOff.congr {d e : Dev} {h : Nat} (off : d.HalfOff h) (cap : e.cap = d.cap)
    (reg : e.reg pgPmu 0x110 = d.reg pgPmu 0x110) : e.HalfOff h := fun present => by
  rw [Dev.regb_of_reg reg]
  exact off ((Dev.halfPresent_congr cap h).symm.trans present)

/-- A half goes off where it is present, as the completion of standby has it. -/
def Dev.wipePresent (d : Dev) (h : Nat) : Dev := if d.halfPresent h then d.wipeHalf h else d

theorem Dev.wipePresent_cap (d : Dev) (h : Nat) : (d.wipePresent h).cap = d.cap := by
  unfold Dev.wipePresent
  split
  · exact d.wipeHalf_cap h
  · rfl

theorem Dev.halfOff_wipePresent (d : Dev) {h : Nat} (below : h < 2) : (d.wipePresent h).HalfOff h := by
  intro present
  rw [Dev.halfPresent_congr (d.wipePresent_cap h)] at present
  rw [Dev.wipePresent, if_pos present, Dev.regb_wipeHalf d below, if_pos rfl]

theorem Dev.HalfOff.wipePresent {d : Dev} {i h : Nat} (off : d.HalfOff i) (below : h < 2) : (d.wipePresent h).HalfOff i := by
  intro present
  rw [Dev.halfPresent_congr (d.wipePresent_cap h)] at present
  unfold Dev.wipePresent
  split
  · rw [Dev.regb_wipeHalf d below, off present, ite_self]
  · exact off present

/-! ### The end of a change of power state (R526) -/

theorem Dev.enableOf_setEnable_off (d : Dev) (g : Nat) : (d.setEnable g false).enableOf g = false := by
  have row : (d.setEnable g false).power.enable = d.power.enable.set g false := rfl
  rw [Dev.enableOf, row, List.getD_eq_getElem?_getD]
  rcases Nat.lt_or_ge g d.power.enable.length with h | h
  · rw [List.getElem?_set_self h, Option.getD_some]
  · rw [List.getElem?_eq_none (by rwa [List.length_set]), Option.getD_none]

theorem Dev.regb_setIsr (d : Dev) (p : Nat) {b : Nat} (h : b < 64) : (d.setIsr p b).regb p 0x020 b = true := by
  unfold Dev.setIsr
  extract_lets e
  have bit : e.regb p 0x020 b = true := Dev.regb_setb _ _ _ _ _ h
  split <;> exact bit

/-- The words of PMU above its header are as they were after a BLK_ISR bit is set. -/
theorem Dev.reg_setIsr_pmu (d : Dev) (b : Nat) {o : Nat} (lo : 0x100 ≤ o) (hi : o < 0x1000) :
    (d.setIsr pgPmu b).reg pgPmu o = d.reg pgPmu o :=
  (Dev.HeaderOut.setIsr d pgPmu b).reg (fun k hk => by unfold regKey; omega)

/-- The device enters standby: half 0 is off, and after it the groups fall. -/
theorem pstateDone_entry {d : Dev} (up : d.up = true) (state : d.pstate = 3) (asked : d.regb pgPmu 0x118 0 = true) :
    ∃ e : Dev, e.HalfOff 0 ∧ pstateDone d = ((e.setEnable 1 false).setf pgPmu 0x118 5 4 2).setIsr pgPmu 1 := by
  unfold pstateDone
  rw [if_neg (by simp [up, state]), if_pos asked]
  extract_lets d₁ d₂ d₃ d₄
  have off : d₂.HalfOff 0 := (d₁.halfOff_wipePresent (by decide : 0 < 2)).wipePresent (by decide : 1 < 2)
  refine ⟨d₄, ?_, rfl⟩
  unfold d₄
  split <;> exact off.congr rfl rfl

/-- The device leaves standby once the rails are good. -/
theorem pstateDone_exit {d : Dev} (up : d.up = true) (state : d.pstate = 3) (asked : d.regb pgPmu 0x118 0 = false)
    (seq : d.power.seq = .idle) (good : d.goodOf 1 = true) (both : d.halfPresent 1 = true → d.goodOf 2 = true) :
    pstateDone d = (d.setf pgPmu 0x118 5 4 0).setIsr pgPmu 1 := by
  have rails : (d.halfPresent 1 && !d.goodOf 2) = false := by
    cases present : d.halfPresent 1 with
    | false => rfl
    | true => rw [both present]; rfl
  simp [pstateDone, up, state, asked, seq, good, rails]

/-! ### The commands are their meanings, on the machine as they find it -/

theorem exec_halfRun (w : Wr) (s : State) : exec (.halfRun w) s = .next (s.after (halfRun s.quiet w)) := rfl
theorem exec_profileSelect (w : Wr) (s : State) : exec (.profileSelect w) s = .next (s.after (profileSelect s.quiet w)) := rfl
theorem exec_pwrLimitWrite (w : Wr) (s : State) : exec (.pwrLimitWrite w) s = .next (s.after (pwrLimit s.quiet w)) := rfl
theorem exec_sscEnWrite (w : Wr) (s : State) : exec (.sscEnWrite w) s = .next (s.after (sscEn s.quiet w)) := rfl
theorem exec_standbyEntry (w : Wr) (s : State) : exec (.standbyEntry w) s = .next (s.after (pstateWrite s.quiet w)) := rfl
theorem exec_standbyExit (w : Wr) (s : State) : exec (.standbyExit w) s = .next (s.after (pstateWrite s.quiet w)) := rfl
theorem exec_pstateDone (s : State) : exec .pstateDone s = .next (s.after (pstateDone s.quiet)) := rfl

/-- The standby entered: its state, the group of half A off, half 0 held, and PMU's interrupt raised. -/
theorem pstateDone_standby {d : Dev} (up : d.up = true) (state : d.pstate = 3) (asked : d.regb pgPmu 0x118 0 = true) :
    (pstateDone d).pstate = 2 ∧ (pstateDone d).enableOf 1 = false ∧ (pstateDone d).running 0 = false
      ∧ (pstateDone d).regb pgPmu 0x020 1 = true := by
  have apart : regKey pgPmu 0x110 ≠ regKey pgPmu 0x118 := by decide
  obtain ⟨e, off, h⟩ := pstateDone_entry up state asked
  rw [h]
  refine ⟨?_, ?_, (off.congr ?_ ?_).running, Dev.regb_setIsr _ _ (by decide)⟩
  · rw [Dev.pstate, Dev.regf, Dev.reg_setIsr_pmu _ _ (by decide) (by decide), ← Dev.regf]
    exact Dev.regf_setf _ _ _ _ (by decide) (by decide)
  · rw [Dev.enableOf, Dev.setIsr_power, Dev.setf_power]
    exact e.enableOf_setEnable_off 1
  · rw [Dev.setIsr_cap, Dev.setf_cap]
    rfl
  · rw [Dev.reg_setIsr_pmu _ _ (by decide) (by decide), Dev.reg_setf_ne _ _ _ _ apart]
    rfl

/-- Settles O55: each write is its case of the model's function, and the change to standby leaves half 0 off. -/
theorem powerStates : Obligations.PowerStates := by
  unfold Obligations.PowerStates
  refine ⟨fun s w => ⟨fun hm h0 h1 present enable good => ?_, fun hm => ⟨fun run => ?_, fun held cap asked => ?_, fun held asked => ?_⟩,
      fun hm => ?_, fun hm => ⟨fun run => ?_, fun held => ?_⟩⟩,
    fun s w => ⟨fun hm state old asked => ⟨fun refused => ?_, fun ok => ?_⟩, fun hm state old asked => ?_,
      fun up state => ⟨fun asked => ?_, fun asked seq good both => ?_⟩⟩⟩
  · refine ⟨_, exec_halfRun w s, ?_⟩
    rw [State.after_dev, halfRun_first hm h0 h1]
    exact ⟨Dev.running_runHalf present enable good 0, Dev.runHalf_mem .., Dev.running_runHalf present enable good 1,
      fun held => (Dev.reg_runHalf present held enable good).2⟩
  · rw [exec_profileSelect, profileSelect_running run]
  · obtain ⟨studio, limit⟩ := profileSelect_held (new := true) hm held (by rw [asked, cap]; rfl)
    exact ⟨_, exec_profileSelect w s, studio, fun old => limit (by simp [old])⟩
  · obtain ⟨studio, limit⟩ := profileSelect_held (new := false) hm held (by rw [asked]; rfl)
    exact ⟨_, exec_profileSelect w s, studio, fun old => limit (by simp [old])⟩
  · have range := s.quiet.profileLimit_range
    refine ⟨_, exec_pwrLimitWrite w s, ?_⟩
    rw [State.after_dev, regf_pwrLimit hm]
    omega
  · rw [exec_sscEnWrite, sscEn_running run]
  · rw [exec_sscEnWrite, sscEn_held hm held]
  · rw [exec_standbyEntry, pstateWrite_entry hm state old asked, refused, if_neg Bool.false_ne_true]
  · rw [exec_standbyEntry, pstateWrite_entry hm state old asked, if_pos ok]
  · rw [exec_standbyExit, pstateWrite_exit hm state old asked]
  · exact ⟨_, exec_pstateDone s, pstateDone_standby up state asked⟩
  · rw [exec_pstateDone, pstateDone_exit up state asked seq good both]

end Sys2Proof.Machine

/-! PROOFS. How the commands of the vector unit, the arrays and the table engine end (R103, R104, R256, R264). -/

namespace Sys2Proof.Machine

/-! ### Ends of commands -/

/-- Work that is whole at once and runs without a fault leaves its command finished (R264). -/
theorem issue_onOpc_finished {d : Dev} {c x n : Nat} {t : Ctx} {act : Who → Desc → M Unit} (hi : d.issuable c x t)
    (ho : t.cur.opc = n) (hr : (runCmd d c x t act).1 = .ok ()) : issue d c x (onOpc n act) = d.finished c x t act :=
  issue_onOpc_ok hi ho (Prod.ext hr rfl)

/-- A VEC command of its row's operation that runs without a fault is finished. -/
theorem issue_vecAct_finished {d : Dev} {c x vop : Nat} {t : Ctx} (hi : d.issuable c x t) (ho : t.cur.opc = 3)
    (hv : t.cur.arg 39 32 = vop) (hr : (runCmd d c x t vecCmd).1 = .ok ()) :
    issue d c x (vecAct vop) = d.finished c x t vecCmd := by
  have work : vecAct vop (d.whoOf c x) t.cur = (do let _ ← vecCmd (d.whoOf c x) t.cur; return some true) := by
    unfold vecAct
    rw [if_pos ⟨ho, hv⟩]
  exact issue_done d c x t vecCmd () true _ hi work hr

/-- A command that may be issued and whose work tells whether it is complete ends, or stays RUNNING (R264). -/
theorem issue_ran {d : Dev} {c x : Nat} {t : Ctx} {act : Who → Desc → M (Option Bool)} {b : Bool} {r : Run} (hi : d.issuable c x t)
    (hr : runCmd d c x t act = (.ok (some b), r)) :
    issue d c x act = if b then r.dev.cmdEnded c x (d.whoOf c x) 0 r.event
      else (r.dev.modCtx c x (fun k => { k with event := if k.event = 0 then r.event else k.event })).drainTask (d.whoOf c x) := by
  obtain ⟨h1, h2, h3⟩ := hi
  unfold runCmd Dev.issued at hr
  unfold issue
  rw [h1]
  simp only [h2, h3, Bool.not_true, hr]
  cases b <;> rfl

/-- A command that answers a function of another's result leaves what the other leaves. -/
theorem runCmd_map {α β : Type} {d : Dev} {c x : Nat} {t : Ctx} {act : Who → Desc → M α} {act' : Who → Desc → M β} {a : α} (g : α → β)
    (h : act' (d.whoOf c x) t.cur = (do return g (← act (d.whoOf c x) t.cur))) (hr : (runCmd d c x t act).1 = .ok a) :
    runCmd d c x t act' = (.ok (g a), (runCmd d c x t act).2) := by
  have ran : runCmd d c x t act = (.ok a, (runCmd d c x t act).2) := Prod.ext hr rfl
  generalize (runCmd d c x t act).2 = r at *
  unfold runCmd at *
  rw [h, ← bind_assoc, run_bind, ran]
  rfl

/-- A TABLE that runs without a fault is finished, or stays RUNNING with tiles left (R343). -/
theorem issue_tableAct {d : Dev} {c x : Nat} {t : Ctx} {b : Bool} (hi : d.issuable c x t) (ho : t.cur.opc = 4)
    (hr : (runCmd d c x t (fun w k => do tableBody w (← parseTable w k))).1 = .ok b) :
    issue d c x tableAct = if b then d.finished c x t (fun w k => do tableBody w (← parseTable w k))
      else d.underway c x t (fun w k => do tableBody w (← parseTable w k)) := by
  refine issue_ran hi (runCmd_map some ?_ hr)
  unfold tableAct
  rw [if_pos ho, bind_assoc]

/-! ### VEC -/

/-- The rows of the vector unit issue the work of their VOP (R256). -/
theorem exec_vecRow {r : (Nat → Nat → Instr) × Nat} (h : r ∈ vecRows) (c x : Nat) (s : State) :
    exec (r.1 c x) s = .next (s.after (issue s.quiet c x (vecAct r.2))) := by
  fin_cases h <;> rfl

/-- Up to 1,024 elements are one vector, whose reduction is its pairwise tree (R104). -/
theorem reduce_of_length_le (f : Nat → Nat → Nat) {l : List Nat} (h : l.length ≤ 1024) : reduce f l = treeResult f l := by
  cases l with
  | nil => rfl
  | cons a l =>
    have one : runsOf ((a :: l).length / 1024 + 1) (a :: l) = [a :: l] := by
      have rest : ∀ k, runsOf k ([] : List Nat) = [] := fun k => by cases k <;> rfl
      rw [runsOf, List.take_of_length_le h, List.drop_of_length_le h, rest]
      rfl
    rw [reduce, one]
    rfl

/-- Settles O7: each row issues its VOP's work, which ends as its run does, and operands at hand make it run. -/
theorem vecCommands : Obligations.VecCommands := by
  unfold Obligations.VecCommands
  refine ⟨fun r row s c x t hi ho hv hr => ?_, ⟨fun a b c => ⟨rfl, rfl, rfl, rfl, rfl⟩, fun f a b c d => ?_⟩,
    fun r row s c x t s1 s2 s3 dst hp hv ready => ?_⟩
  · rw [exec_vecRow row, issue_vecAct_finished hi ho hv hr]
  · refine ⟨?_, ?_, ?_, ?_, ?_⟩ <;> rw [reduce_of_length_le f (by simp)] <;> rfl
  · have runs := vec_runs hp.noRegs hp.plain ready
    exact ⟨runs, by rw [exec_vecRow row, issue_vecAct_finished hp.issue hp.opcode hv runs]⟩

/-! ### TILE_LOAD, STREAM and TABLE -/

theorem exec_tileLoad (c x : Nat) (s : State) : exec (.tileLoad c x) s
    = .next (s.after (issue s.quiet c x (onOpc 1 (fun w k => do tileLoadBody w (← parseTileLoad w k))))) := rfl
theorem exec_stream (c x : Nat) (s : State) : exec (.stream c x) s
    = .next (s.after (issue s.quiet c x (onOpc 2 (fun w k => do streamBody w (← parseStreamCmd w k))))) := rfl
theorem exec_table (c x : Nat) (s : State) : exec (.table c x) s = .next (s.after (issue s.quiet c x tableAct)) := rfl

/-- Settles O9: each command issues its unit's work, which ends as its run does, and operands at hand make it run. -/
theorem unitCommandsComplete : Obligations.UnitCommandsComplete := by
  unfold Obligations.UnitCommandsComplete
  refine ⟨fun s c x t hi ho hr => ?_, fun s c x t hi ho hr => ?_, fun s c x t hi ho => ⟨fun hr => ?_, fun hr => ?_⟩,
    fun s c x t wt hp ready => ?_, fun s c x t e act wt dst hp ready => ?_, fun s c x t src dst hp ready => ?_⟩
  · rw [exec_tileLoad, issue_onOpc_finished hi ho hr]
  · rw [exec_stream, issue_onOpc_finished hi ho hr]
  · rw [exec_table, issue_tableAct hi ho hr, if_pos rfl]
  · rw [exec_table, issue_tableAct hi ho hr, if_neg Bool.false_ne_true]
  · have runs := tile_runs hp.noRegs hp.plain ready
    exact ⟨runs, by rw [exec_tileLoad, issue_onOpc_finished hp.issue hp.opcode runs]⟩
  · have runs := stream_runs hp.noRegs hp.plain ready
    exact ⟨runs, by rw [exec_stream, issue_onOpc_finished hp.issue hp.opcode runs]⟩
  · obtain ⟨b, runs⟩ := table_runs hp.noRegs hp.plain ready
    exact ⟨b, runs, by rw [exec_table, issue_tableAct hp.issue hp.opcode runs]⟩

end Sys2Proof.Machine

/-! PROOFS. ARR_CTRL, the ramps of a core's arrays and their stop ramp (R105 to R107). -/

namespace Sys2Proof.Machine

/-! ### The commands are their meanings, on the machine as they find it -/

theorem exec_arrCtrlWrite (c : Nat) (w : Wr) (s : State) : exec (.arrCtrlWrite c w) s = .next (s.after (arrCtrl s.quiet c w)) := rfl
theorem exec_arrayIdleGate (c : Nat) (s : State) : exec (.arrayIdleGate c) s = .next (s.after (arrayIdle s.quiet c)) := rfl
theorem exec_arrayRampStart (c : Nat) (s : State) : exec (.arrayRampStart c) s = .next (s.after (rampStart s.quiet c)) := rfl
theorem exec_arrayRampDone (c : Nat) (s : State) : exec (.arrayRampDone c) s = .next (s.after (rampDone s.quiet c)) := rfl

section
variable {d : Dev} {c : Nat}

/-! ### ARR_CTRL -/

theorem arrCtrl_denied {w : Wr} (h : d.mayWrite w.agent (pgArr c) 0x100 = false) : arrCtrl d c w = d := by
  simp [arrCtrl, h]

/-- A write that the page takes keeps NOGATE and IDLE_GATE; NOGATE asks for a ramp (R105). -/
theorem arrCtrl_taken {w : Wr} (h : d.mayWrite w.agent (pgArr c) 0x100 = true) :
    let v := d.merged (pgArr c) 0x100 w
    let e := d.setReg (pgArr c) 0x100 (BitVec.ofNat 64 (v.field 0 0 + v.field 19 4 * 16))
    arrCtrl d c w = if v.bit 0 then e.requestRamp c else e := by
  simp [arrCtrl, h]

/-! ### Ramps -/

/-- Idle arrays without NOGATE start their stop ramp once their idle time has passed (R105). -/
theorem arrayIdle_eq (live : d.coreLive c = true) (clocked : (d.core c).ramp = .clocked) (unwanted : (d.core c).arraysWanted = false)
    (gates : d.regb (pgArr c) 0x100 0 = false) :
    arrayIdle d c = if d.idleLimit c ≤ (d.core c).idle then d.modCore c (fun k => { k with ramp := .rampDown, rampLeft := 64 }) else d := by
  simp [arrayIdle, live, clocked, unwanted, gates]

/-- The head of the half's requests starts its ramp once 256 cycles have passed since the last one's start (R107). -/
theorem rampStart_eq (live : d.coreLive c = true) (waits : (d.core c).ramp = .waitingSlot)
    (first : (d.half (c / 4)).rampQueue.head? = some c) :
    rampStart d c = if 256 ≤ (d.half (c / 4)).rampGap then
      (d.modCore c (fun k => { k with ramp := .rampUp })).modHalf (c / 4) (fun h => { h with rampQueue := h.rampQueue.drop 1, rampGap := 0 })
      else d := by
  simp [rampStart, live, waits, first]

/-- A ramp with no column group left to enable leaves the arrays clocked (R106). -/
theorem rampDone_ended (live : d.coreLive c = true) (ramps : (d.core c).ramp = .rampUp) (ended : (d.core c).rampLeft = 0) :
    rampDone d c = d.modCore c (fun k => { k with ramp := .clocked, idle := 0 }) := by
  simp [rampDone, live, ramps, ended]

/-- A cycle of a stop ramp takes one off what is left, and the last one gates the arrays (R106). -/
theorem rampTick_rampDown (h : (d.core c).ramp = .rampDown) :
    d.rampTick c = if (d.core c).rampLeft ≤ 1 then d.modCore c (fun k => { k with ramp := .gated, rampLeft := 0 })
      else d.modCore c (fun k => { k with rampLeft := k.rampLeft - 1 }) := by
  rw [Dev.rampTick, h]

end

/-- Settles O28: each command is its case of the model's function, on the two sides of its time, and each cycle of a stop ramp is
one of two. -/
theorem arrayClocks : Obligations.ArrayClocks := by
  unfold Obligations.ArrayClocks
  refine ⟨fun s c w => ⟨fun denied => ?_, fun taken off => ?_, fun taken on => ?_⟩, fun s c =>
    ⟨fun live clocked unwanted gates => ⟨fun passed => ?_, fun early => ?_⟩, fun live waits first => ⟨fun passed => ?_, fun early => ?_⟩,
      fun live ramps ended => ?_, fun down more => ?_, fun down last => ?_⟩⟩
  · rw [exec_arrCtrlWrite, arrCtrl_denied denied]
  · rw [exec_arrCtrlWrite, arrCtrl_taken taken, off, if_neg Bool.false_ne_true]
  · rw [exec_arrCtrlWrite, arrCtrl_taken taken, if_pos on]
  · rw [exec_arrayIdleGate, arrayIdle_eq live clocked unwanted gates, Dev.idleLimit, if_pos passed]
  · rw [exec_arrayIdleGate, arrayIdle_eq live clocked unwanted gates, Dev.idleLimit, if_neg (Nat.not_le.2 early)]
  · rw [exec_arrayRampStart, rampStart_eq live waits first, if_pos passed]
  · rw [exec_arrayRampStart, rampStart_eq live waits first, if_neg (Nat.not_le.2 early)]
  · rw [exec_arrayRampDone, rampDone_ended live ramps ended]
  · rw [rampTick_rampDown down, if_neg (Nat.not_le.2 more), Dev.core_modCore]
    exact ⟨down, rfl⟩
  · rw [rampTick_rampDown down, if_pos last, Dev.core_modCore]

end Sys2Proof.Machine

/-! PROOFS. The triggers and the end of a governor's epoch (R129, R130, R133), and GOV_WREC_TAIL (R142). -/

namespace Sys2Proof.Machine

/-! ### The commands are their meanings, on the machine as they find it -/

theorem exec_epochTrigger (c : Nat) (w : Wr) (s : State) : exec (.epochTrigger c w) s = .next (s.after (epochWrite s.quiet c w)) := rfl
theorem exec_epochEnd (c : Nat) (s : State) : exec (.epochEnd c) s = .next (s.after (govEnd s.quiet c)) := rfl
theorem exec_govWrecTailWrite (c : Nat) (w : Wr) (s : State) :
    exec (.govWrecTailWrite c w) s = .next (s.after (tailWrite s.quiet c w)) := rfl

/-- The machine once an epoch's end is told: GOV_DONE_ADDR holds the count of epochs, the governor is idle, and EPOCH_DONE is set
and counted (R130). -/
def epochClosed (d : Dev) (c : Nat) : Dev :=
  (((d.govWrite c (d.regf (pgGov c) 0x150 47 0) (BitVec.ofNat 64 ((d.core c).gov.epochs + 1))).modGov c
    (fun g => { g with busy := false, ended := false, epochs := (d.core c).gov.epochs + 1, idx := 0 })).setIsr (pgGov c) 0).count
    (pgGov c) 0x01 1

section
variable {d : Dev} {c : Nat}

/-! ### A trigger of any source (R133) -/

theorem govTrigger_idle (live : d.coreLive c = true) (idle : (d.core c).gov.busy = false) : govTrigger d c = govStart d c := by
  simp [govTrigger, live, idle]

theorem govTrigger_running (live : d.coreLive c = true) (busy : (d.core c).gov.busy = true) (free : (d.core c).gov.held = false) :
    govTrigger d c = d.modGov c (fun g => { g with held := true }) := by
  simp [govTrigger, live, busy, free]

theorem govTrigger_held (live : d.coreLive c = true) (busy : (d.core c).gov.busy = true) (held : (d.core c).gov.held = true) :
    govTrigger d c = d.count (pgGov c) 0x08 1 := by
  simp [govTrigger, live, busy, held]

/-! ### The end of an epoch, and the writes -/

/-- The end of an epoch takes the trigger that is held, and begins its epoch (R133). -/
theorem govEnd_eq (live : d.coreLive c = true) (busy : (d.core c).gov.busy = true) (ended : (d.core c).gov.ended = true) :
    govEnd d c = if (d.core c).gov.held then govStart ((epochClosed d c).modGov c (fun g => { g with held := false })) c
      else epochClosed d c := by
  simp [govEnd, epochClosed, live, busy, ended]

/-- A write of GO that the page takes is a trigger (R129). -/
theorem epochWrite_go {w : Wr} (taken : d.mayWrite w.agent (pgGov c) 0x108 = true) (go : wrHit w 0 = true) :
    epochWrite d c w = govTrigger d c := by
  simp [epochWrite, taken, go]

theorem tailWrite_taken {w : Wr} (h : d.mayWrite w.agent (pgGov c) 0x148 = true) :
    tailWrite d c w = govResume (d.setf (pgGov c) 0x148 31 0 ((d.merged (pgGov c) 0x148 w).field 31 0)) c := by
  simp [tailWrite, h]

end

/-- Settles O31: a write of GO is a trigger, which has its three cases; an epoch's end is told, and then looks for a held trigger;
and the tail's write resumes the governor. -/
theorem governorEpochs : Obligations.GovernorEpochs := by
  unfold Obligations.GovernorEpochs
  refine fun s c w => ⟨fun taken go live => ⟨fun idle => ?_, fun busy free => ?_, fun busy held => ?_⟩,
    fun live busy ended free => ?_, fun live busy ended held => ?_, fun taken _ => ?_,
    fun live => ⟨govTrigger_idle live, govTrigger_running live, govTrigger_held live⟩⟩
  · rw [exec_epochTrigger, epochWrite_go taken go, govTrigger_idle live idle]
  · rw [exec_epochTrigger, epochWrite_go taken go, govTrigger_running live busy free]
  · rw [exec_epochTrigger, epochWrite_go taken go, govTrigger_held live busy held]
  · rw [exec_epochEnd, govEnd_eq live busy ended, free, if_neg Bool.false_ne_true, epochClosed]
  · rw [exec_epochEnd, govEnd_eq live busy ended, if_pos held, epochClosed]
  · rw [exec_govWrecTailWrite, tailWrite_taken taken, govResume]

end Sys2Proof.Machine

/-! PROOFS. How an XFER command ends, local or to a fabric peer (R183, R253, R377). -/

namespace Sys2Proof.Machine

section
variable {α β : Type} {d : Dev} {c x : Nat} {t : Ctx} {act : Who → Desc → M α} {act' : Who → Desc → M β} {f : α → M β}

/-! ### Runs of a command in two parts -/

/-- A command goes on from where its first part has ended without a fault. -/
theorem runCmd_of_bind {a : α} {r : Run} (h : act' (d.whoOf c x) t.cur = act (d.whoOf c x) t.cur >>= f)
    (ran : runCmd d c x t act = (.ok a, r)) : runCmd d c x t act' = (f a).run.run r := by
  unfold runCmd at *
  rw [h, ← bind_assoc, run_bind, ran]

/-- A command that meets no fault meets none in its first part. -/
theorem runCmd_first_ok {b : β} (h : act' (d.whoOf c x) t.cur = act (d.whoOf c x) t.cur >>= f) (hr : (runCmd d c x t act').1 = .ok b) :
    ∃ a r, runCmd d c x t act = (.ok a, r) ∧ ((f a).run.run r).1 = .ok b := by
  rcases ran : runCmd d c x t act with ⟨e | a, r⟩
  · unfold runCmd at *
    rw [h, ← bind_assoc, run_bind, ran] at hr
    cases hr
  · exact ⟨a, r, rfl, by rw [← hr, runCmd_of_bind h ran]⟩

end

/-! ### The work of an XFER -/

/-- What an XFER does once it is validated: locally, held by speculation, or with messages to its peer (R183, R227, R377). -/
def xferWork (w : Who) (k : Desc) (a : XferArgs) : M (Option Bool) := do
  if !a.remote then
    xferLocal w a
    return some true
  else if ← holds w k then return some true
  else return some (← xferRemote w a)

section
variable {d : Dev} {c x mode : Nat} {t : Ctx} {a : XferArgs} {r r' : Run}

/-- The row of a command's MODE validates it, and does its work. -/
theorem xferAct_eq (w : Who) {k : Desc} (ho : k.opc = 5) (hm : k.arg 34 32 = mode) :
    xferAct mode w k = parseXfer w k >>= xferWork w k := by
  unfold xferAct
  rw [if_pos ⟨ho, hm⟩]
  rfl

theorem run_xferWork_local {w : Who} {k : Desc} (near : a.remote = false) (ran : (xferLocal w a).run.run r = (.ok (), r')) :
    (xferWork w k a).run.run r = (.ok (some true), r') := by
  unfold xferWork
  rw [near, Bool.not_false, if_pos rfl, run_bind, ran]
  rfl

/-- A task that does not speculate holds nothing (R227). -/
theorem run_holds_actual {w : Who} {k : Desc} (actual : (r.dev.specOf w).isSome = false) : (holds w k).run.run r = (.ok false, r) := by
  unfold holds
  rw [run_bind, run_getDev]
  dsimp only
  rw [actual]
  rfl

theorem run_xferWork_remote {w : Who} {k : Desc} {b : Bool} (far : a.remote = true) (actual : (r.dev.specOf w).isSome = false)
    (ran : (xferRemote w a).run.run r = (.ok b, r')) : (xferWork w k a).run.run r = (.ok (some b), r') := by
  unfold xferWork
  rw [far, Bool.not_true, if_neg Bool.false_ne_true, run_bind, run_holds_actual actual]
  dsimp only
  rw [if_neg Bool.false_ne_true, run_bind, ran]
  rfl

/-! ### How it ends -/

/-- A local XFER that runs without a fault is finished (R183, R253). -/
theorem issue_xferAct_local (hi : d.issuable c x t) (ho : t.cur.opc = 5) (hm : t.cur.arg 34 32 = mode)
    (near : (runCmd d c x t (fun w k => do return (← parseXfer w k).remote)).1 = .ok false)
    (ran : (runCmd d c x t (fun w k => do xferLocal w (← parseXfer w k))).1 = .ok ()) :
    issue d c x (xferAct mode) = d.finished c x t (fun w k => do xferLocal w (← parseXfer w k)) := by
  obtain ⟨a, r, parsed, here⟩ := runCmd_first_ok rfl near
  have moved := runCmd_of_bind (act' := fun w k => do xferLocal w (← parseXfer w k)) rfl parsed
  have work := run_xferWork_local (k := t.cur) (Except.ok.inj here) (moved.symm.trans (Prod.ext ran rfl))
  rw [issue_ran hi ((runCmd_of_bind (xferAct_eq _ ho hm) parsed).trans work), if_pos rfl]
  rfl

/-- An XFER to a peer, of a task that does not speculate, is finished once its frames are acknowledged, and else stays RUNNING
(R377). -/
theorem issue_xferAct_remote {b : Bool} (hi : d.issuable c x t) (ho : t.cur.opc = 5) (hm : t.cur.arg 34 32 = mode)
    (far : (runCmd d c x t (fun w k => do
      let a ← parseXfer w k
      return (a.remote, ((← getDev).specOf w).isSome))).1 = .ok (true, false))
    (ran : (runCmd d c x t (fun w k => do xferRemote w (← parseXfer w k))).1 = .ok b) :
    issue d c x (xferAct mode) = if b then d.finished c x t (fun w k => do xferRemote w (← parseXfer w k))
      else d.underway c x t (fun w k => do xferRemote w (← parseXfer w k)) := by
  obtain ⟨a, r, parsed, there⟩ := runCmd_first_ok rfl far
  obtain ⟨remote, actual⟩ := Prod.mk.inj (Except.ok.inj there)
  have sent := runCmd_of_bind (act' := fun w k => do xferRemote w (← parseXfer w k)) rfl parsed
  have work := run_xferWork_remote (k := t.cur) remote actual (sent.symm.trans (Prod.ext ran rfl))
  exact issue_ran hi ((runCmd_of_bind (xferAct_eq _ ho hm) parsed).trans work)

end

/-- The rows of XFER issue the work of their MODE (R183, R253). -/
theorem exec_xferRow {r : (Nat → Nat → Instr) × Nat} (h : r ∈ xferRows) (c x : Nat) (s : State) :
    exec (r.1 c x) s = .next (s.after (issue s.quiet c x (xferAct r.2))) := by
  fin_cases h <;> rfl

/-- Settles O8: each row issues its MODE's work, which after validation is that of a local XFER or of one to a peer and ends as its
run does; operands at hand make a local one run. -/
theorem xferCompletes : Obligations.XferCompletes := by
  unfold Obligations.XferCompletes
  refine ⟨fun r row s c x t hi ho hm => ⟨fun near ran => ?_, fun far => ⟨fun ran => ?_, fun ran => ?_⟩⟩,
    fun r row s c x t src dst hp hm ready => ?_⟩
  · rw [exec_xferRow row, issue_xferAct_local hi ho hm near ran]
  · rw [exec_xferRow row, issue_xferAct_remote hi ho hm far ran, if_pos rfl]
  · rw [exec_xferRow row, issue_xferAct_remote hi ho hm far ran, if_neg Bool.false_ne_true]
  · obtain ⟨near, ran⟩ := xfer_runs hp.noRegs hp.plain ready
    exact ⟨ran, by rw [exec_xferRow row, issue_xferAct_local hp.issue hp.opcode hm near ran]⟩

end Sys2Proof.Machine

/-! SUPPORT. What updates leave of the contexts of tasks and of the buffers of their core, and steps of runs that have ended
without a fault. -/

namespace Sys2Proof.Machine

section
variable {d e : Dev} {c x : Nat} {t : Ctx}

/-! ### Contexts -/

theorem Dev.core_congr (h : e.cores = d.cores) (c : Nat) : e.core c = d.core c := by
  rw [Dev.core, Dev.core, h]

/-- Contexts are the cores'. -/
theorem Dev.ctx?_congr (h : e.cores = d.cores) (c x : Nat) : e.ctx? c x = d.ctx? c x := by
  rw [Dev.ctx?, Dev.ctx?, Dev.core_congr h]

theorem Dev.ctx?_modCtx (f : Ctx → Ctx) (h : d.ctx? c x = some t) : (d.modCtx c x f).ctx? c x = some (f t) := by
  rw [Dev.modCtx_of d f h, Dev.ctx?_setCtx]

theorem Dev.ctx?_modCtx_ne (d : Dev) (c : Nat) {x y : Nat} (f : Ctx → Ctx) (h : y ≠ x) : (d.modCtx c x f).ctx? c y = d.ctx? c y := by
  unfold Dev.modCtx
  split
  · rfl
  · exact Dev.ctx?_setCtx_ne d c _ h

theorem issued_ctx_ne (d : Dev) (c : Nat) {x y : Nat} (t : Ctx) (h : y ≠ x) : (d.issued c x t).ctx? c y = d.ctx? c y := by
  unfold Dev.issued
  rw [Dev.ctx?_congr (traceCmd_cores ..), Dev.ctx?_setCtx_ne d c _ h]

theorem issued_byte (d : Dev) (c x : Nat) (t : Ctx) (a : Nat) : (d.issued c x t).byte a = d.byte a := by
  obtain ⟨_, _, _, _, h⟩ := issued_eq d c x t
  rw [h]
  rfl

/-! ### Run-ahead copies (R215) -/

theorem Dev.ra_setCtx (d : Dev) (c x : Nat) (t : Ctx) : ((d.setCtx c x t).core c).ra = (d.core c).ra := by
  rw [Dev.setCtx, Dev.core_modCore]

theorem Dev.ra_modCtx (d : Dev) (c x : Nat) (f : Ctx → Ctx) : ((d.modCtx c x f).core c).ra = (d.core c).ra := by
  unfold Dev.modCtx
  split
  · rfl
  · exact Dev.ra_setCtx ..

theorem issued_ra (d : Dev) (c x : Nat) (t : Ctx) : ((d.issued c x t).core c).ra = (d.core c).ra := by
  unfold Dev.issued
  rw [Dev.core_congr (traceCmd_cores ..), Dev.ra_setCtx]

/-- Once a task's copies are dropped its core holds those of the other tasks. -/
theorem Dev.ra_dropTaskCopies (d : Dev) (c x : Nat) :
    ((d.dropTaskCopies c x).core c).ra = (d.core c).ra.filter (fun r => r.ctx != x) := by
  unfold Dev.dropTaskCopies
  extract_lets gone
  by_cases free : gone.isEmpty = true
  · rw [if_pos free]
    rw [List.isEmpty_iff, List.filter_eq_nil_iff] at free
    refine (List.filter_eq_self.2 fun r held => ?_).symm
    simpa using free r held
  · rw [if_neg free, Dev.core_congr (Dev.count_cores ..), Dev.core_modCore]

theorem Dev.dropTaskCopies_mem (d : Dev) (c x : Nat) : (d.dropTaskCopies c x).mem = d.mem := by
  unfold Dev.dropTaskCopies
  extract_lets gone
  split
  · rfl
  · rw [Dev.count_mem, Dev.modCore_mem]

/-! ### Steps of a run that has ended without a fault -/

theorem run_bind_ok {α β : Type} {m : M α} {f : α → M β} {b : β} {r r' : Run} (h : (m >>= f).run.run r = (.ok b, r')) :
    ∃ a r₁, m.run.run r = (.ok a, r₁) ∧ (f a).run.run r₁ = (.ok b, r') := by
  rw [run_bind] at h
  rcases ran : m.run.run r with ⟨stop | a, r₁⟩
  · rw [ran] at h
    cases h
  · rw [ran] at h
    exact ⟨a, r₁, rfl, h⟩

theorem run_require_ok {b : Bool} {r r' : Run} (h : (require b).run.run r = (.ok (), r')) : b = true ∧ r' = r := by
  cases b with
  | false => cases h
  | true => cases h; exact ⟨rfl, rfl⟩

theorem run_addrWord_ok {v : W64} {va : Nat} {r r' : Run} (h : (addrWord v).run.run r = (.ok va, r')) :
    va = v.field 47 0 ∧ r' = r := by
  unfold addrWord at h
  obtain ⟨_, _, checked, rest⟩ := run_bind_ok h
  obtain ⟨_, rfl⟩ := run_require_ok checked
  cases rest
  exact ⟨rfl, rfl⟩

/-- A command waits where its work must wait for frames (R222). -/
theorem issue_held_fence {act : Who → Desc → M (Option Bool)} {r : Run} (hi : d.issuable c x t)
    (hr : runCmd d c x t act = (.error (.hold .fence), r)) :
    issue d c x act = d.setCtx c x { t with state := .waiting, waitFor := .fence } := by
  obtain ⟨ctx, may, ready⟩ := hi
  unfold runCmd Dev.issued at hr
  unfold issue
  rw [ctx]
  simp only [may, ready, Bool.not_true, hr]
  rfl

/-- The context of a task whose command ends with status OK, with no write waiting for room and none to the register window
outstanding (R251, R264). -/
theorem ctx_cmdEnded {w : Who} (bus : d.bus = []) (ctx : d.ctx? c x = some t) (room : t.waitsRoom = false) :
    (d.cmdEnded c x w 0 0).ctx? c x = some { t with opDone := true } := by
  have same : t.cmdEnd 0 0 = { t with opDone := true } := by
    unfold Ctx.cmdEnd
    rw [room, if_neg Bool.false_ne_true, ite_eq_right_iff.2 Eq.symm, ite_eq_right_iff.2 Eq.symm]
  rw [Dev.cmdEnded_of_noBus bus, Dev.ctx?_modCtx _ ctx, same]

end

end Sys2Proof.Machine

/-! PROOFS. NOP and FENCE (R215, R222, R253). -/

namespace Sys2Proof.Machine

theorem exec_nop (c x : Nat) (s : State) : exec (.nop c x) s = .next (s.after (issue s.quiet c x (onOpc 0 (fun _ _ => pure ())))) := rfl
theorem exec_fence (c x : Nat) (s : State) : exec (.fence c x) s = .next (s.after (issue s.quiet c x (onOpc 8 fenceAct))) := rfl

section
variable {d : Dev} {c x : Nat} {t : Ctx}

/-- A NOP ends as it was issued. -/
theorem issue_nop (hi : d.issuable c x t) (ho : t.cur.opc = 0) (h9 : t.cur.w0.bit 9 = false) :
    issue d c x (onOpc 0 (fun _ _ => pure ())) = (d.issued c x t).cmdEnded c x (d.whoOf c x) 0 0 :=
  issue_onOpc_ok (r := Run.start (d.issued c x t)) hi ho (by rw [runCmd_plain h9, run_pure])

/-- A FENCE that finds nothing to wait for drops its task's copies and ends. -/
theorem issue_fence_free (hi : d.issuable c x t) (ho : t.cur.opc = 8) (h9 : t.cur.w0.bit 9 = false) (free : fenceFree d c x t) :
    issue d c x (onOpc 8 fenceAct) = ((d.issued c x t).dropTaskCopies c x).cmdEnded c x (d.whoOf c x) 0 0 := by
  have here : t.cur.arg 33 32 ≠ 3 ∨ (d.issued c x t).netQuiet c x = true ∧ (d.issued c x t).arrivalsIn c x = true := by
    rwa [issued_netQuiet, issued_arrivalsIn]
  have ran := run_fenceWait (w := d.whoOf c x) (r := Run.start (d.issued c x t)) here
  have ended := issue_onOpc_ok hi ho ((runCmd_plain (act := fenceAct) h9).trans ran)
  exact ended

/-- A FENCE of scope SYSTEM waits while frames of its task are not acknowledged (R222). -/
theorem issue_fence_held (hi : d.issuable c x t) (ho : t.cur.opc = 8) (h9 : t.cur.w0.bit 9 = false) (waits : ¬ fenceFree d c x t) :
    issue d c x (onOpc 8 fenceAct) = d.setCtx c x { t with state := .waiting, waitFor := .fence } := by
  obtain ⟨scope, busy⟩ := not_or.1 waits
  have here : t.cur.arg 33 32 = 3 ∧ (!((d.issued c x t).netQuiet c x && (d.issued c x t).arrivalsIn c x)) = true := by
    rw [issued_netQuiet, issued_arrivalsIn]
    exact ⟨not_not.1 scope, by rwa [Bool.not_eq_true', ← Bool.not_eq_true, Bool.and_eq_true]⟩
  have ran : (fenceWait (d.whoOf c x) (t.cur.arg 33 32)).run.run (Run.start (d.issued c x t)) =
      (.error (.hold .fence), Run.start (d.issued c x t)) := by
    unfold fenceWait
    rw [run_bind, run_getDev]
    dsimp only
    exact congrArg (fun m : M Unit => m.run.run _) (if_pos here)
  refine issue_held_fence hi (r := Run.start (d.issued c x t)) ?_
  rw [runCmd_plain h9, onOpc, if_pos ho, run_bind, fenceAct, ran]

/-- Memory and the other contexts of the core are as before once a command that stores nothing has ended. -/
theorem cmdEnded_frame {e : Dev} (acc : (d.issued c x t).Accessed e) (mem : e.mem = (d.issued c x t).mem) (bus : d.bus = []) (w : Who) :
    (∀ a, (e.cmdEnded c x w 0 0).byte a = d.byte a) ∧ ∀ y, y ≠ x → (e.cmdEnded c x w 0 0).ctx? c y = d.ctx? c y := by
  rw [Dev.cmdEnded_of_noBus (by rw [acc.bus, issued_bus, bus])]
  refine ⟨fun a => ?_, fun y other => ?_⟩
  · rw [Dev.byte_modCtx, acc.byte_eq mem, issued_byte]
  · rw [Dev.ctx?_modCtx_ne _ _ _ other, acc.ctx, issued_ctx_ne _ _ _ other]

end

/-- Settles O10: a NOP ends as it was issued and a FENCE with its task's copies dropped, and neither stores anything. -/
theorem syncCommands : Obligations.SyncCommands := by
  unfold Obligations.SyncCommands
  refine ⟨fun s c x t hi ho h9 => ?_, fun s c x t hi h9 actual bus => ⟨fun ho => ?_, fun ho free => ?_⟩,
    fun s c x t hi ho h9 bus => ⟨fun free room => ?_, fun waits => ?_⟩⟩
  · rw [exec_nop, issue_nop hi ho h9]
  · have frame := cmdEnded_frame (.refl (s.quiet.issued c x t)) rfl bus (s.quiet.whoOf c x)
    refine ⟨_, exec_nop c x s, rfl, rfl, ?_⟩
    rw [State.after_dev, issue_nop hi ho h9]
    exact frame
  · have frame := cmdEnded_frame ((Dev.Accessed.refl (s.quiet.issued c x t)).dropTaskCopies c x) (Dev.dropTaskCopies_mem ..) bus
      (s.quiet.whoOf c x)
    refine ⟨_, exec_fence c x s, rfl, rfl, ?_⟩
    rw [State.after_dev, issue_fence_free hi ho h9 free]
    exact frame
  · have acc := (Dev.Accessed.refl (s.quiet.issued c x t)).dropTaskCopies c x
    have quiet : ((s.quiet.issued c x t).dropTaskCopies c x).bus = [] := by rw [acc.bus, issued_bus]; exact bus
    refine ⟨_, exec_fence c x s, ?_⟩
    rw [State.after_dev, issue_fence_free hi ho h9 free]
    refine ⟨ctx_cmdEnded quiet ((acc.ctx c x).trans (issued_ctx ..)) room, ?_⟩
    rw [Dev.cmdEnded_of_noBus quiet, Dev.ra_modCtx, Dev.ra_dropTaskCopies, issued_ra]
    rfl
  · rw [exec_fence, issue_fence_held hi ho h9 waits]

end Sys2Proof.Machine

/-! PROOFS. The beginning of speculation, its abort, its decision and the end of its write-out (R225, R228 to R231). -/

namespace Sys2Proof.Machine

theorem exec_specBegin (c x : Nat) (s : State) :
    exec (.specBegin c x) s = .next (s.after (issue s.quiet c x (onOpc 12 specBeginAct))) := rfl
theorem exec_specAbort (c x : Nat) (s : State) :
    exec (.specAbort c x) s = .next (s.after (issue s.quiet c x (onOpc 14 specAbortAct))) := rfl
theorem exec_specCommit (c x : Nat) (s : State) : exec (.specCommit c x) s = .next (s.after (issue s.quiet c x specCommitAct)) := rfl
theorem exec_specPoll (c x : Nat) (s : State) : exec (.specPoll c x) s = .next (s.after (specPoll s.quiet c x)) := rfl
theorem exec_specWriteoutDone (c x : Nat) (s : State) :
    exec (.specWriteoutDone c x) s = .next (s.after (writeoutDone s.quiet c x)) := rfl

section
variable {d : Dev} {c x : Nat} {t : Ctx} {p : Spec}

/-! ### SPEC_BEGIN (R225) -/

/-- What a task that begins to speculate holds: the decision word's address and the generations of the watched regions. -/
def Dev.specStart (d : Dev) (c va : Nat) : Spec :=
  { decision := va, gens := (List.range 64).map (fun i => (d.reg (pgFet c) (0x600 + 8 * i)).toNat), readSet := [], shadow := [],
    excess := [], late := none, heldActs := [], state := .running, atCommand := false }

/-- The machine once a task has begun to speculate, which is counted. -/
def Dev.specBegun (d : Dev) (c x va : Nat) : Dev :=
  (d.modCtx c x (fun t => { t with spec := some (d.specStart c va) })).count (pgDsp c) 0x20 1

theorem Dev.specBegun_bus (d : Dev) (c x va : Nat) : (d.specBegun c x va).bus = d.bus := by
  obtain ⟨_, h⟩ := d.modCtx_eq c x (fun t => { t with spec := some (d.specStart c va) })
  rw [Dev.specBegun, Dev.count_bus, h]

theorem Dev.ctx?_specBegun (ctx : d.ctx? c x = some t) (va : Nat) :
    (d.specBegun c x va).ctx? c x = some { t with spec := some (d.specStart c va) } :=
  (Dev.ctx?_congr (Dev.count_cores ..) c x).trans (Dev.ctx?_modCtx _ ctx)

/-- A SPEC_BEGIN that meets no fault begins its task's speculation. -/
theorem run_specBeginAct_ok {w : Who} {k : Desc} {r r' : Run} (h : (specBeginAct w k).run.run r = (.ok (), r')) :
    r' = { r with dev := r.dev.specBegun w.core w.ctx (k.w1.field 47 0) } := by
  unfold specBeginAct at h
  obtain ⟨va, r₁, parsed, rest⟩ := run_bind_ok h
  have place : va = k.w1.field 47 0 ∧ r₁ = r := by
    unfold parseSpecBegin at parsed
    obtain ⟨_, r₂, unused, parsed₂⟩ := run_bind_ok parsed
    obtain ⟨_, r₃, word, parsed₃⟩ := run_bind_ok parsed₂
    rw [run_bind, run_getDev] at parsed₃
    obtain ⟨_, r₄, may, answer⟩ := run_bind_ok parsed₃
    obtain ⟨_, e₂⟩ := run_require_ok unused
    obtain ⟨e, e₃⟩ := run_addrWord_ok word
    obtain ⟨_, e₄⟩ := run_require_ok may
    cases answer
    exact ⟨e, e₄.trans (e₃.trans e₂)⟩
  obtain ⟨rfl, rfl⟩ := place
  rw [run_bind, run_getDev] at rest
  dsimp only at rest
  split at rest
  · cases rest
  · rw [run_modDev] at rest
    exact (congrArg Prod.snd rest).symm

/-- Issue leaves the generations of the watched regions. -/
theorem issued_specStart (d : Dev) (c x : Nat) (t : Ctx) (va : Nat) : (d.issued c x t).specStart c va = d.specStart c va := by
  have gen : ∀ i ∈ List.range 64, ((d.issued c x t).reg (pgFet c) (0x600 + 8 * i)).toNat = (d.reg (pgFet c) (0x600 + 8 * i)).toNat := by
    intro i below
    have i64 := List.mem_range.1 below
    have apart : ∀ k < 0x1000, regKey (pgFet c) (0x600 + 8 * i) ≠ regKey pgTrc k := fun k hk => by
      unfold regKey pgFet pgTrc
      omega
    have traced : (d.issued c x t).reg (pgFet c) (0x600 + 8 * i) = d.reg (pgFet c) (0x600 + 8 * i) := by
      unfold Dev.issued Dev.traceCmd Dev.traceTask
      split
      · exact (Dev.Noted.trace pgTrc _ _ _ _ _ _).reg (fun k hk => apart k (by omega)) apart
      · rfl
    rw [traced]
  unfold Dev.specStart
  rw [List.map_congr_left gen]

/-- The context of a task whose SPEC_BEGIN is finished holds its speculation. -/
theorem finished_specBegin (h9 : t.cur.w0.bit 9 = false) (bus : d.bus = []) (ran : (runCmd d c x t specBeginAct).1 = .ok ()) :
    ((d.finished c x t specBeginAct).ctx? c x).bind (fun k => k.spec) = some (d.specStart c (t.cur.w1.field 47 0)) := by
  have run : runCmd d c x t specBeginAct = (.ok (), (runCmd d c x t specBeginAct).2) := Prod.ext ran rfl
  rw [Dev.finished]
  generalize (runCmd d c x t specBeginAct).2 = r at run ⊢
  rw [runCmd_plain h9] at run
  have ended := ctx_cmdEnded (w := d.whoOf c x) ((Dev.specBegun_bus ..).trans ((issued_bus d c x t).trans bus))
    (Dev.ctx?_specBegun (issued_ctx d c x t) (t.cur.w1.field 47 0)) rfl
  rw [run_specBeginAct_ok run]
  dsimp only [Run.start, Dev.whoOf] at ended ⊢
  rw [ended, Option.bind_some, issued_specStart]

/-! ### SPEC_ABORT and discard (R231) -/

/-- The context of a task whose speculation, that runs or decides, is discarded. -/
def Ctx.discarded (t : Ctx) (p : Spec) (reason : Nat) : Ctx :=
  { t with spec := some { p with shadow := [], excess := [], late := none, heldActs := [], state := .discarded }, specOut := 2,
           reason := reason, status := 7 }

theorem Dev.discard_of {reason : Nat} (ctx : d.ctx? c x = some t) (spec : t.spec = some p)
    (going : ¬ (p.state = .discarded ∨ p.state = .committed ∨ p.state = .writing)) :
    d.discard c x reason = (d.setCtx c x (t.discarded p reason)).count (pgDsp c) 0x22 1 := by
  unfold Dev.discard
  rw [ctx]
  dsimp only
  rw [spec]
  dsimp only
  rw [if_neg going]
  rfl

/-- The checks of a command that ends a speculation pass in a task that began with SPEC_BEGIN (R228). -/
theorem run_parseSpecEnd {w : Who} {k : Desc} {r : Run} (unused : unusedFrom k 0 = true) (last : k.w0.bit 8 = true)
    (ctx : r.dev.ctx? w.core w.ctx = some t) (began : t.began = true) : (parseSpecEnd w k).run.run r = (.ok (), r) := by
  unfold parseSpecEnd currentCtx
  rw [run_bind, run_require (by rw [unused, last]; rfl)]
  dsimp only
  rw [run_bind, run_bind, run_getDev]
  dsimp only
  rw [run_pure]
  dsimp only
  rw [ctx]
  exact run_require began r

/-- A SPEC_ABORT discards its task. -/
theorem issue_specAbort (hi : d.issuable c x t) (ho : t.cur.opc = 14) (h9 : t.cur.w0.bit 9 = false) (last : t.cur.w0.bit 8 = true)
    (unused : unusedFrom t.cur 0 = true) (spec : t.spec = some p) :
    issue d c x (onOpc 14 specAbortAct) = ((d.issued c x t).discard c x 1).cmdEnded c x (d.whoOf c x) 0 0 := by
  have checked := run_parseSpecEnd (w := d.whoOf c x) (r := Run.start (d.issued c x t)) unused last (issued_ctx d c x t)
    (by simp [Ctx.began, spec])
  exact issue_onOpc_ok (r := { Run.start (d.issued c x t) with dev := (d.issued c x t).discard c x 1 }) hi ho
    (by rw [runCmd_plain h9, specAbortAct, run_bind, checked]; rfl)

/-! ### The decision (R229, R230) -/

/-- A poll of a deciding task reads its decision word, and goes by it. -/
theorem specPoll_decides {v : W64} {r : Run} (live : d.coreLive c = true) (ctx : d.ctx? c x = some t) (here : t.state ≠ .suspended)
    (spec : t.spec = some p) (deciding : p.state = .deciding)
    (read : ((readWord (d.whoOf c x) p.decision).run).run (Run.start d) = (.ok v, r)) :
    specPoll d c x = r.dev.decideSpec c x v := by
  unfold specPoll Dev.pollDecision
  rw [if_pos live, ctx]
  dsimp only
  rw [spec]
  dsimp only
  rw [if_neg (by simp [deciding, here]), read]

section
variable {v : W64} (ctx : d.ctx? c x = some t) (spec : t.spec = some p)
include ctx spec

theorem Dev.decideSpec_pending (word : v.field 1 0 = 0) : d.decideSpec c x v = d := by
  simp only [Dev.decideSpec, ctx, spec, word]

/-- COMMIT with no region of the read set written since. -/
theorem Dev.decideSpec_commit (word : v.field 1 0 = 1) (fresh : d.staleRegions c p = []) (reach : d.shadowReaches c p = true) :
    d.decideSpec c x v = (d.writeShadow c p).modCtx c x (fun t => { t with spec := some { p with state := .writing } }) := by
  simp only [Dev.decideSpec, ctx, spec, word, fresh, reach, if_true]

theorem Dev.decideSpec_discard (word : 2 ≤ v.field 1 0) (command : p.atCommand = true) :
    d.decideSpec c x v = (d.discard c x 0).modCtx c x (fun t => { t with opDone := true }) := by
  unfold Dev.decideSpec
  rw [ctx]
  dsimp only
  rw [spec]
  dsimp only
  split
  · omega
  · omega
  · rw [if_pos command]

end

/-! ### The end of the write-out (R230) -/

theorem Dev.netQuiet_congr {e : Dev} (h : e.nis = d.nis) (c x : Nat) : e.netQuiet c x = d.netQuiet c x := by
  simp only [Dev.netQuiet, Dev.ni, h]

theorem Dev.arrivalsIn_congr {e : Dev} (h : e.upds = d.upds) (c x : Nat) : e.arrivalsIn c x = d.arrivalsIn c x := by
  simp only [Dev.arrivalsIn, Dev.upd, h]

theorem Dev.modCtx_nis (d : Dev) (c x : Nat) (f : Ctx → Ctx) : (d.modCtx c x f).nis = d.nis := by
  obtain ⟨_, h⟩ := d.modCtx_eq c x f
  rw [h]

theorem Dev.modCtx_upds (d : Dev) (c x : Nat) (f : Ctx → Ctx) : (d.modCtx c x f).upds = d.upds := by
  obtain ⟨_, h⟩ := d.modCtx_eq c x f
  rw [h]

/-- A write-out that is performed, of a task that reached SPEC_COMMIT and holds no action, commits it. -/
theorem ctx_writeoutDone (live : d.coreLive c = true) (ctx : d.ctx? c x = some t) (spec : t.spec = some p) (writing : p.state = .writing)
    (reach : d.pendReaches c p = true) (free : p.heldActs = []) (command : p.atCommand = true) (net : d.netQuiet c x = true)
    (upd : d.arrivalsIn c x = true) :
    (writeoutDone d c x).ctx? c x = some { t with
      specOut := 1, opDone := true, spec := some { p with shadow := [], excess := [], heldActs := [], state := .committed } } := by
  unfold writeoutDone
  rw [ctx]
  dsimp -zeta only
  rw [spec]
  dsimp -zeta only
  rw [if_neg (by simp [live, writing, reach]), free]
  extract_lets r e₀ e₁ ended e₂
  have ctx₀ : e₀.ctx? c x = some { t with spec := none } := by
    have ctx₀ := Dev.ctx?_modCtx (fun k => { k with
      status := if k.status = 0 then 0 else k.status, event := if k.event = 0 then 0 else k.event })
      (d.ctx?_setCtx c x { t with spec := none })
    rw [ite_eq_right_iff.2 Eq.symm, ite_eq_right_iff.2 Eq.symm] at ctx₀
    exact ctx₀
  have ctx₂ := Dev.ctx?_modCtx (fun k => { k with spec := some ended })
    (Dev.ctx?_modCtx (fun k => { k with specOut := 1 }) ((Dev.ctx?_congr (Dev.count_cores e₀ (pgDsp c) 0x21 1) c x).trans ctx₀))
  have quiet : (e₂.netQuiet c x && e₂.arrivalsIn c x) = true := by
    have nis : e₂.nis = d.nis := by simp only [e₂, e₁, e₀, r, heldAll, Dev.modCtx_nis, Dev.count_nis, Dev.setCtx_nis]
    have upds : e₂.upds = d.upds := by simp only [e₂, e₁, e₀, r, heldAll, Dev.modCtx_upds, Dev.count_upds, Dev.setCtx_upds]
    rw [Dev.netQuiet_congr nis, Dev.arrivalsIn_congr upds, net, upd]
    rfl
  rw [if_neg (by simp [r, heldAll]), if_pos command, if_pos quiet]
  exact Dev.ctx?_modCtx _ ctx₂

end

/-- Settles O14: a SPEC_BEGIN ends with the speculation that it begins, and a SPEC_ABORT with its task discarded. -/
theorem speculationBegins : Obligations.SpeculationBegins := by
  unfold Obligations.SpeculationBegins
  refine ⟨fun s c x t hi ho h9 bus ran => ⟨?_, finished_specBegin h9 bus ran⟩, fun s c x t hi ho h9 unused going word may room => ?_,
    fun s c x t p hi ho h9 last unused bus spec running => ?_⟩
  · rw [exec_specBegin, issue_onOpc_finished hi ho ran]
  · rw [exec_specBegin, issue_onOpc_finished hi ho (specBegin_runs h9 unused going word may room)]
  · have dropped := Dev.discard_of (reason := 1) (issued_ctx s.quiet c x t) spec (by simp [running])
    refine ⟨_, exec_specAbort c x s, ?_⟩
    rw [State.after_dev, issue_specAbort hi ho h9 last unused spec, dropped]
    refine ctx_cmdEnded ?_ ((Dev.ctx?_congr (Dev.count_cores ..) c x).trans (Dev.ctx?_setCtx ..)) rfl
    rw [Dev.count_bus, Dev.setCtx_bus, issued_bus]
    exact bus

/-- Settles O15: SPEC_COMMIT ends as its run does, a poll goes by the word that it reads, and a write-out that is performed commits. -/
theorem speculationDecides : Obligations.SpeculationDecides := by
  unfold Obligations.SpeculationDecides
  refine ⟨fun s c x t hi ho => ⟨fun ran => ?_, fun ran => ?_⟩, fun s c x t hi ho h9 unused last began => ?_,
    fun s c x t p v r live ctx here spec deciding read kept => ⟨fun word => ?_, fun word fresh reach => ?_, fun word command => ?_⟩,
    fun s c x t p live ctx spec writing reach free command net upd => ?_⟩
  · rw [exec_specCommit, issue_ran hi (Prod.ext ran rfl), if_neg Bool.false_ne_true]
    rfl
  · rw [exec_specCommit, issue_ran hi (Prod.ext ran rfl), if_pos rfl]
    rfl
  · rw [exec_specCommit, issue_ran hi (Prod.ext (specCommit_runs h9 ho unused last began) rfl)]
    rfl
  · rw [exec_specPoll, specPoll_decides live ctx here spec deciding read, Dev.decideSpec_pending kept spec word]
  · rw [exec_specPoll, specPoll_decides live ctx here spec deciding read, Dev.decideSpec_commit kept spec word fresh reach]
  · rw [exec_specPoll, specPoll_decides live ctx here spec deciding read, Dev.decideSpec_discard kept spec word command]
  · exact ⟨_, exec_specWriteoutDone c x s, ctx_writeoutDone live ctx spec writing reach free command net upd⟩

end Sys2Proof.Machine

/-! PROOFS. The completion of a task's command, and the retirement of a task (R215, R224, R228, R248 to R251, R260, R283, R523). -/

namespace Sys2Proof.Machine

theorem exec_commandComplete (c x : Nat) (s : State) :
    exec (.commandComplete c x) s = .next (s.after (completeCommand s.quiet c x)) := rfl
theorem exec_taskRetire (c x : Nat) (s : State) : exec (.taskRetire c x) s = .next (s.after (taskRetire s.quiet c x)) := rfl

section
variable {d : Dev} {c x : Nat} {t : Ctx}

/-- The machine with the completion of a command traced and, of a TABLE without a fault, counted (R264, R352). -/
def Dev.completed (d : Dev) (c x : Nat) (t : Ctx) : Dev :=
  if t.cur.opc = 4 ∧ t.status = 0 then (d.traceCmd c x 0x03 t (BitVec.ofNat 64 t.status)).count (pgTbl c) 0x01 1
  else d.traceCmd c x 0x03 t (BitVec.ofNat 64 t.status)

/-- The units of a core that is live are not isolated (R523). -/
theorem Dev.isolated_of_coreLive (live : d.coreLive c = true) : (d.half (c / 4)).isolated = false := by
  simp only [Dev.coreLive, Dev.unitLive, Bool.and_eq_true, Bool.not_eq_true'] at live
  obtain ⟨⟨_, ⟨_, joined⟩, _⟩, _⟩ := live
  exact joined

/-- A task's command has done its work, and has no tiles left. -/
structure Dev.CmdDone (d : Dev) (c x : Nat) (t : Ctx) : Prop where
  ctx     : d.ctx? c x = some t
  whole   : t.table = none
  running : t.state = .running
  done    : t.opDone = true

theorem completeCommand_whole (h : d.CmdDone c x t) : completeCommand d c x = commandComplete d c x := by
  unfold completeCommand Dev.tableRest
  rw [h.ctx]
  dsimp only
  rw [h.whole]

/-- A command of which a write waits for room is not complete (R228). -/
theorem completeCommand_waits (h : d.CmdDone c x t) (waits : t.waitsRoom = true) : completeCommand d c x = d := by
  rw [completeCommand_whole h]
  simp [commandComplete, h.ctx, waits]

/-- Where a task of a live core goes once its command is complete (R248, R251, R260, R283, R284). -/
theorem completeCommand_live (h : d.CmdDone c x t) (room : t.waitsRoom = false) (live : d.coreLive c = true) :
    completeCommand d c x = Dev.settle
      (if t.status ≠ 0 ∨ t.settled = true then (d.completed c x t).toRetiring c x
       else if ((d.completed c x t).core c).dspFinit = true then (d.completed c x t).endTask c x 6 4
       else if t.aborting = true then (d.completed c x t).abortTask c x
       else if t.cur.w0.bit 8 = true then
         (if (d.completed c x t).heldBack c t = true then (d.completed c x t).setCtx c x { t with state := .held }
          else (d.completed c x t).toRetiring c x)
       else (d.completed c x t).proceed c x) c := by
  rw [completeCommand_whole h]
  unfold commandComplete
  rw [h.ctx]
  dsimp only
  rw [if_neg (by simp [live, h.running, h.done, room]), Dev.isolated_of_coreLive live, if_neg Bool.false_ne_true]
  rfl

/-- A task of an isolated half stops at the boundary (R523). -/
theorem completeCommand_stopped (h : d.CmdDone c x t) (room : t.waitsRoom = false) (apart : (d.half (c / 4)).isolated = true)
    (stands : d.coreStands c = true) :
    completeCommand d c x = ((d.completed c x t).setCtx c x { t with state := .ready, opDone := false }).settle c := by
  rw [completeCommand_whole h]
  unfold commandComplete
  rw [h.ctx]
  dsimp only
  rw [if_neg (by simp [apart, stands, h.running, h.done, room]), apart, if_pos rfl]
  rfl

end

/-- Settles O22: by the cases of the completion, on a live core and on one whose half is isolated. -/
theorem commandsComplete : Obligations.CommandsComplete := by
  unfold Obligations.CommandsComplete
  intro s c x t d e₀ e ctx whole running done
  have h : d.CmdDone c x t := ⟨ctx, whole, running, done⟩
  have goes (ok : t.status = 0) (going : t.settled = false) : ¬ (t.status ≠ 0 ∨ t.settled = true) := by simp [ok, going]
  have machine {b : Bool} (f : (e.core c).dspFinit = b) : ((d.completed c x t).core c).dspFinit = b := f
  refine ⟨fun waits => ?_, fun room live => ⟨fun ended => ?_, fun ok going =>
    ⟨fun finit => ?_, fun free aborting => ?_, fun free on last => ?_, fun free on more => ?_⟩⟩, fun room apart stands => ?_⟩
  · rw [exec_commandComplete, completeCommand_waits h waits]
  · rw [exec_commandComplete, completeCommand_live h room live, if_pos ended]
    rfl
  · rw [exec_commandComplete, completeCommand_live h room live, if_neg (goes ok going), if_pos (machine finit)]
    rfl
  · rw [exec_commandComplete, completeCommand_live h room live, if_neg (goes ok going), machine free,
      if_neg Bool.false_ne_true, if_pos aborting]
    rfl
  · rw [exec_commandComplete, completeCommand_live h room live, if_neg (goes ok going), machine free, if_neg Bool.false_ne_true, on,
      if_neg Bool.false_ne_true, if_pos last]
    rfl
  · rw [exec_commandComplete, completeCommand_live h room live, if_neg (goes ok going), machine free, if_neg Bool.false_ne_true, on,
      if_neg Bool.false_ne_true, more, if_neg Bool.false_ne_true]
    rfl
  · rw [exec_commandComplete, completeCommand_stopped h room apart stands]
    rfl

/-- Settles O24: a task that may retire does; in time it reports no miss, and not speculative it frees no place for another. -/
theorem taskRetires : Obligations.TaskRetires := by
  unfold Obligations.TaskRetires
  intro s c x t d ctx live retiring may inTime actual
  have due : ¬ ((!d.coreLive c) = true ∨ t.state ≠ .retiring ∨ (!d.mayRetire c x t) = true) := by simp [live, retiring, may]
  rw [exec_taskRetire, taskRetire, ctx]
  dsimp only
  rw [if_neg due, inTime]
  dsimp only
  rw [if_neg (by simp [actual])]
  rfl

end Sys2Proof.Machine

/-! PROOFS. Run-ahead reads, FET_CTRL and the watched regions (R211 to R213, R219, R228, R239). -/

namespace Sys2Proof.Machine

/-! ### The commands are their meanings, on the machine as they find it -/

theorem exec_runAheadRead (c x i : Nat) (s : State) : exec (.runAheadRead c x i) s = .next (s.after (runAhead s.quiet c x i)) := rfl
theorem exec_fetCtrlWrite (c : Nat) (w : Wr) (s : State) : exec (.fetCtrlWrite c w) s = .next (s.after (fetCtrl s.quiet c w)) := rfl
theorem exec_watchRegionWrite (c i : Nat) (ext : Bool) (w : Wr) (s : State) :
    exec (.watchRegionWrite c i ext w) s = .next (s.after (watchWriteReg s.quiet c i ext w)) := rfl

/-! ### Run-ahead (R211 to R213) -/

/-- DRAM and carve-outs are no places at which run-ahead is dropped (R212). -/
theorem Dev.dropsRunAhead_dramOrCarve (d : Dev) {p : Space} (h : inDramOrCarve p = true) : d.dropsRunAhead p = false := by
  match p, h with
  | .dram _ _, _ => rfl
  | .carve _ _, _ => rfl

section
variable {d e : Dev} {c x i line pa : Nat} {t : Ctx} {r : Region}

/-- The machine once a run-ahead read of an address is counted and, of a speculative task, in the read set (R211, R220). -/
def Dev.aheadNoted (d : Dev) (c x pa : Nat) : Dev :=
  (d.count (pgFet c) 0x01 1).modCtx c x (fun t => { t with spec := t.spec.map (fun p =>
    { p with readSet := ((List.range 64).filter (fun k => (d.count (pgFet c) 0x01 1).watchHits c k pa)).foldl lineAdd p.readSet }) })

/-- The fetch engine reads this line next for a region of a task (R211). -/
structure Dev.ReadsAhead (d : Dev) (c x i line : Nat) (t : Ctx) (r : Region) : Prop where
  ctx    : d.ctx? c x = some t
  region : t.regions[i]? = some r
  live   : d.coreLive c = true
  on     : d.regb (pgFet c) 0x100 0 = true
  room   : d.regf (pgFet c) 0x100 6 1 ≠ 0
  next   : r.ahead.find? (fun l =>
    !(d.physOf (l * 64)).any (fun pa => (d.core c).ra.any (fun y => y.ctx == x && y.line == pa / 64))) = some line

variable (h : d.ReadsAhead c x i line t r)
include h

/-- A line that does not translate is dropped (R212). -/
theorem runAhead_denied {cause : Nat} (tr : d.translate c (line * 64) false (d.whoOf c x).secure = (e, .error (.cause cause))) :
    runAhead d c x i = e.dropRunAhead c x i line := by
  obtain ⟨ctx, region, live, on, room, next⟩ := h
  simp only [runAhead, ctx, region, live, on, room, next, tr, Bool.not_true, Bool.false_eq_true, or_self, if_false]

/-- So is one at a place where run-ahead is dropped (R212). -/
theorem runAhead_dropped (tr : d.translate c (line * 64) false (d.whoOf c x).secure = (e, .ok pa))
    (drops : e.dropsRunAhead (e.space pa) = true) : runAhead d c x i = e.dropRunAhead c x i line := by
  obtain ⟨ctx, region, live, on, room, next⟩ := h
  simp only [runAhead, ctx, region, live, on, room, next, tr, drops, Bool.not_true, Bool.false_eq_true, or_self, if_false, if_true]

/-- A line of DRAM or of a carve-out that is in order enters the buffer, still on its way or with its data (R213, R214). -/
theorem runAhead_read (tr : d.translate c (line * 64) false (d.whoOf c x).secure = (e, .ok pa))
    (place : inDramOrCarve (e.space pa) = true) (reach : e.reachesFrom (c / 4) pa = true)
    (whole : ((e.aheadNoted c x pa).takeFree.1.loadLine pa).2 = none) :
    runAhead d c x i =
      if (e.aheadNoted c x pa).takeFree.2.bit 0 then
        (e.aheadNoted c x pa).takeFree.1.addCopy c { ctx := x, line := pa / 64, used := false, flight := true, data := [] }
      else ((e.aheadNoted c x pa).takeFree.1.loadLine pa).1.addCopy c
        { ctx := x, line := pa / 64, used := false, flight := false,
          data := ((e.aheadNoted c x pa).takeFree.1.loadLine pa).1.value (pa / 64 * 64) 64 } := by
  obtain ⟨ctx, region, live, on, room, next⟩ := h
  unfold Dev.aheadNoted at *
  simp only [runAhead, ctx, region, live, on, room, next, tr, e.dropsRunAhead_dramOrCarve place, place, reach, whole, Bool.not_true,
    Bool.false_eq_true, or_self, if_false]

end

section
variable {d : Dev} {c i : Nat} {w : Wr}

/-! ### FET_CTRL (R228, R239) -/

theorem fetCtrl_sameSize (taken : d.mayWrite w.agent (pgFet c) 0x100 = true)
    (same : (d.merged (pgFet c) 0x100 w).field 6 1
      = (d.setb (pgFet c) 0x100 0 ((d.merged (pgFet c) 0x100 w).bit 0)).regf (pgFet c) 0x100 6 1) :
    fetCtrl d c w = d.setb (pgFet c) 0x100 0 ((d.merged (pgFet c) 0x100 w).bit 0) := by
  simp [fetCtrl, taken, ← same]

/-- With no shadow area held a change of RA_SIZE empties the buffer. -/
theorem fetCtrl_resized {e : Dev} (he : d.setb (pgFet c) 0x100 0 ((d.merged (pgFet c) 0x100 w).bit 0) = e)
    (taken : d.mayWrite w.agent (pgFet c) 0x100 = true)
    (new : (d.merged (pgFet c) 0x100 w).field 6 1 ≠ e.regf (pgFet c) 0x100 6 1) (free : (e.core c).specs = []) :
    fetCtrl d c w = (e.setf (pgFet c) 0x100 6 1 ((d.merged (pgFet c) 0x100 w).field 6 1)).dropAllCopies c := by
  subst he
  simp [fetCtrl, taken, new, free]

theorem Dev.dropAllCopies_ra (d : Dev) (c : Nat) : ((d.dropAllCopies c).core c).ra = [] := by
  unfold Dev.dropAllCopies
  rw [Dev.core_congr (Dev.count_cores ..), Dev.core_modCore]

/-! ### Watched regions (R219) -/

theorem watchWriteReg_taken {ext : Bool} (below : i < 64)
    (taken : d.mayWrite w.agent (pgFet c) ((if ext then 0x208 else 0x200) + 16 * i) = true) :
    watchWriteReg d c i ext w =
      (let off := (if ext then 0x208 else 0x200) + 16 * i
       let v := d.merged (pgFet c) off w
       let keep := if ext then v.field 39 6 * 64 else v.field 47 6 * 64 + (if v.bit 63 then 2 ^ 63 else 0)
       (d.setReg (pgFet c) off (BitVec.ofNat 64 keep)).bumpGen c i) := by
  unfold watchWriteReg
  extract_lets off
  rw [if_neg (by rw [taken]; simp; omega)]

end

/-- Settles O32: a read ahead goes by its line's translation and place; each write is its case of the model's function, and a new
RA_SIZE empties the buffer. -/
theorem fetchEngine : Obligations.FetchEngine := by
  unfold Obligations.FetchEngine
  refine ⟨fun s c x i line t r => ?_, fun s c w => ⟨fun taken same => ?_, fun taken new free => ⟨?_, Dev.dropAllCopies_ra _ c⟩,
    fun i below taken => ?_, fun i below taken => ?_⟩⟩
  · intro d w ctx region live on room next
    have ahead : d.ReadsAhead c x i line t r := ⟨ctx, region, live, on, room, next⟩
    refine ⟨fun e cause tr => ?_, fun e pa tr drops => ?_, fun e pa tr place reach => ?_⟩
    · rw [exec_runAheadRead, runAhead_denied ahead tr]
    · rw [exec_runAheadRead, runAhead_dropped ahead tr drops]
    · intro f whole
      rw [exec_runAheadRead, runAhead_read ahead tr place reach whole]
      rfl
  · rw [exec_fetCtrlWrite, fetCtrl_sameSize taken same]
  · rw [exec_fetCtrlWrite, fetCtrl_resized rfl taken new free]
  · rw [exec_watchRegionWrite, watchWriteReg_taken (ext := true) below taken]
    rfl
  · rw [exec_watchRegionWrite, watchWriteReg_taken (ext := false) below taken]
    rfl

end Sys2Proof.Machine

/-! PROOFS. Invalidation of translations, the steps of a carve-out, and flushes of the far stores (R199, R207, R520). -/

namespace Sys2Proof.Machine

/-! ### The commands are their meanings, on the machine as they find it -/

theorem exec_tlbInvalidate (w : Wr) (s : State) : exec (.tlbInvalidate w) s = .next (s.after (tlbInvalidate s.quiet w)) := rfl
theorem exec_tlbiDone (s : State) : exec .tlbiDone s = .next (s.after (tlbiDone s.quiet)) := rfl
theorem exec_carveOutChange (w : Wr) (s : State) : exec (.carveOutChange w) s = .next (s.after (carveChange s.quiet w)) := rfl
theorem exec_carveOutDone (h : Nat) (s : State) : exec (.carveOutDone h) s = .next (s.after (carveDone s.quiet h)) := rfl
theorem exec_farStoreFlush (w : Wr) (s : State) : exec (.farStoreFlush w) s = .next (s.after (fsFlush s.quiet w)) := rfl
theorem exec_flushDone (s : State) : exec .flushDone s = .next (s.after (flushDone s.quiet)) := rfl

section
variable {d : Dev} {w : Wr} {h n : Nat}

/-! ### SYS_TLBI (R207) -/

/-- A write with GO and a range of a SIZE that there is starts the invalidation. -/
theorem tlbInvalidate_go (taken : d.mayWrite w.agent pgSys 0x408 = true) (idle : d.regb pgSys 0x410 0 = false)
    (go : wrHit w 63 = true) (size : (d.merged pgSys 0x408 w).field 49 48 ≠ 3) :
    tlbInvalidate d w = (d.setReg pgSys 0x408 ((d.merged pgSys 0x408 w).setBit 63 false)).setb pgSys 0x410 0 true := by
  simp [tlbInvalidate, taken, idle, go, size]

/-- A write without GO names the range. -/
theorem tlbInvalidate_named (taken : d.mayWrite w.agent pgSys 0x408 = true) (idle : d.regb pgSys 0x410 0 = false)
    (rest : wrHit w 63 = false) : tlbInvalidate d w = d.setReg pgSys 0x408 ((d.merged pgSys 0x408 w).setBit 63 false) := by
  simp [tlbInvalidate, taken, idle, rest]

/-- The end of an invalidation that no collective holds up: the TLBs keep the translations outside the range, and BUSY clears. -/
theorem tlbiDone_ended (up : d.up = true) (busy : d.regb pgSys 0x410 0 = true) (free : d.collHolds (d.reg pgSys 0x408) = false) :
    (tlbiDone d).tlbs = d.tlbs.filter (fun t => !inTlbi (d.reg pgSys 0x408) (t.1 % 2 ^ 32))
      ∧ (tlbiDone d).regb pgSys 0x410 0 = false ∧ (tlbiDone d).mem = d.mem := by
  unfold tlbiDone
  rw [if_neg (by simp [up, busy, free])]
  exact ⟨rfl, Dev.regb_setb _ _ _ _ _ (by decide), rfl⟩

/-! ### Carve-outs (R199) -/

theorem carveChange_taken (taken : d.mayWrite w.agent pgSys 0x420 = true) :
    carveChange d w = (d.setCarve 0 ((d.merged pgSys 0x420 w).field 3 0)).setCarve 1 ((d.merged pgSys 0x420 w).field 7 4) := by
  simp [carveChange, taken]

/-- A shrink of steps that no collective holds takes effect at the write, and what they held is lost. -/
theorem Dev.setCarve_shrink (present : d.halfPresent h = true) (idle : d.regb pgSys 0x428 h = false) (less : n < d.carve h)
    (free : d.carveInUse h n (d.carve h) = false) :
    d.setCarve h n = (d.setf pgSys 0x420 (3 + 4 * h) (4 * h) n).loseCarve h n (d.carve h) := by
  unfold Dev.setCarve
  extract_lets old
  rw [if_neg (by simp [present, idle]; omega), if_pos less, free, if_neg Bool.false_ne_true]

theorem carveDone_ended (up : d.up = true) (half : h < 2) : carveDone d h = d.setb pgSys 0x428 h false := by
  simp [carveDone, up, half]

/-! ### Flushes (R520) -/

theorem fsFlush_go (taken : d.mayWrite w.agent pgPmu 0x150 = true) (go : wrHit w 0 = true) (idle : d.regb pgPmu 0x150 1 = false) :
    fsFlush d w = (d.setb pgPmu 0x150 1 true).eachHalf Dev.flushStart := by
  simp [fsFlush, taken, go, idle]

theorem flushDone_ended (up : d.up = true) (busy : d.regb pgPmu 0x150 1 = true) :
    flushDone d = (d.eachHalf Dev.flushEnd).setb pgPmu 0x150 1 false := by
  simp [flushDone, up, busy]

/-- A line that a far store's clean leaves dirty was not asked for. -/
theorem Dev.not_of_dirty_clean {p : Nat → Bool} {f : FarLine} (left : f ∈ ((d.clean h p).half h).lines) (dirty : f.dirty = true) :
    p f.line = false := by
  unfold Dev.clean at left
  rw [Dev.half_modHalf, List.mem_map] at left
  obtain ⟨g, _, rfl⟩ := left
  by_cases asked : p g.line = true
  · rw [if_pos asked] at dirty
    cases dirty
  · rw [if_neg asked]
    exact Bool.eq_false_iff.2 asked

/-- A line that the end of a flush leaves dirty was not dirty at its start. -/
theorem Dev.not_due_of_dirty_flushEnd {f : FarLine} (left : f ∈ ((d.flushEnd h).half h).lines) (dirty : f.dirty = true) :
    f.line ∉ (d.half h).flush := by
  unfold Dev.flushEnd at left
  rw [Dev.half_modHalf] at left
  have kept := Dev.not_of_dirty_clean left dirty
  intro due
  simp [due] at kept

end

/-- Settles O33: each write and each end is its case of the model's function; the end of an invalidation filters the TLBs, and the
end of a flush cleans every line that is due. -/
theorem translationAndFarStores : Obligations.TranslationAndFarStores := by
  unfold Obligations.TranslationAndFarStores
  refine ⟨fun s w => ⟨fun taken idle => ⟨fun go size => ?_, fun rest => ?_⟩, fun up busy free => ?_⟩,
    fun s w h => ⟨fun taken => ?_, fun present idle n => Dev.setCarve_shrink present idle, fun up half => ?_⟩,
    fun s w => ⟨fun taken go idle => ?_, fun up busy => ?_, fun h f => Dev.not_due_of_dirty_flushEnd⟩⟩
  · rw [exec_tlbInvalidate, tlbInvalidate_go taken idle go size]
  · rw [exec_tlbInvalidate, tlbInvalidate_named taken idle rest]
  · obtain ⟨tlbs, ended, mem⟩ := tlbiDone_ended up busy free
    refine ⟨_, exec_tlbiDone s, ended, fun e held => ?_, fun e held out => ?_, mem⟩
    · rw [State.after_dev, tlbs, List.mem_filter] at held
      simpa using held.2
    · rw [State.after_dev, tlbs, List.mem_filter]
      exact ⟨held, by rw [out]; rfl⟩
  · rw [exec_carveOutChange, carveChange_taken taken]
  · rw [exec_carveOutDone, carveDone_ended up half]
  · rw [exec_farStoreFlush, fsFlush_go taken go idle]
  · rw [exec_flushDone, flushDone_ended up busy]

end Sys2Proof.Machine

/-! SUPPORT. Fields of words, and registers that counts, interrupts, a fresh LOCKED and the issue of a command leave. -/

namespace Sys2Proof.Machine

/-! ### Fields of words -/

/-- A field of a word given by its number. -/
theorem W64.field_ofNat {n : Nat} (h : n < 2 ^ 64) (hi lo : Nat) : W64.field (BitVec.ofNat 64 n) hi lo = n / 2 ^ lo % 2 ^ (hi - lo + 1) := by
  rw [W64.field, BitVec.toNat_ofNat, Nat.mod_eq_of_lt h, Nat.shiftRight_eq_div_pow]

theorem W64.getLsbD_setField_apart (w : W64) {hi lo i : Nat} (v : Nat) (ordered : lo ≤ hi) (out : i < lo ∨ hi < i) :
    (w.setField hi lo v).getLsbD i = w.getLsbD i := by
  have unmasked : ¬ (lo ≤ i ∧ i - lo < hi - lo + 1) := by omega
  have inWord : (w.getLsbD i && decide (i < 64)) = w.getLsbD i := by
    rw [Bool.and_eq_left_iff_imp, decide_eq_true_iff]
    exact BitVec.lt_of_getLsbD
  unfold W64.setField
  simp only [BitVec.getLsbD_or, BitVec.getLsbD_and, BitVec.getLsbD_not, BitVec.getLsbD_ofNat, Nat.testBit_mul_two_pow,
    Nat.testBit_two_pow_sub_one, Nat.testBit_mod_two_pow]
  rcases not_and_or.1 unmasked with below | above
  · simp [below, inWord]
  · simp [above, inWord]

theorem W64.field_setField_apart (w : W64) {hi lo h l : Nat} (v : Nat) (ordered : lo ≤ hi) (lh : l ≤ h) (apart : h < lo ∨ hi < l) :
    (w.setField hi lo v).field h l = w.field h l := by
  apply Nat.eq_of_testBit_eq
  intro i
  unfold W64.field
  rw [Nat.testBit_mod_two_pow, Nat.testBit_mod_two_pow, Nat.testBit_shiftRight, Nat.testBit_shiftRight, BitVec.testBit_toNat,
    BitVec.testBit_toNat]
  by_cases within : i < h - l + 1
  · rw [W64.getLsbD_setField_apart w v ordered (by omega)]
  · simp [within]

theorem Dev.regf_setf_apart (d : Dev) (p o v : Nat) {hi lo h l : Nat} (ordered : lo ≤ hi) (lh : l ≤ h) (apart : h < lo ∨ hi < l) :
    (d.setf p o hi lo v).regf p o h l = d.regf p o h l := by
  rw [Dev.regf, Dev.reg_setf, W64.field_setField_apart _ _ ordered lh apart, ← Dev.regf]

section
variable {d e : Dev}

/-! ### Registers of a page above its header -/

theorem Dev.HeaderOut.reg_above {p o : Nat} (h : HeaderOut p d e) (above : 0x100 ≤ o) : e.reg p o = d.reg p o :=
  h.reg (fun k hk => by unfold regKey; omega)

theorem Dev.reg_count_above (d : Dev) (p sel n : Nat) {o : Nat} (above : 0x100 ≤ o) : (d.count p sel n).reg p o = d.reg p o :=
  (HeaderOut.count d p sel n).reg_above above

theorem Dev.reg_setIsr_above (d : Dev) (p b : Nat) {o : Nat} (above : 0x100 ≤ o) : (d.setIsr p b).reg p o = d.reg p o :=
  (HeaderOut.setIsr d p b).reg_above above

/-- A fresh LOCKED leaves every register but FTS_STAT. -/
theorem Dev.reg_freshLocked_ne {p o : Nat} (h : regKey p o ≠ regKey pgFts 0x138) : d.freshLocked.reg p o = d.reg p o :=
  d.takeFree.1.reg_setb_ne _ _ h

theorem Dev.regb_freshLocked {i : Nat} (h : i ≠ 0) : d.freshLocked.regb pgFts 0x138 i = d.regb pgFts 0x138 i :=
  d.takeFree.1.regb_setb_ne _ _ _ (by decide) h

/-! ### Registers outside TRC when a command issues -/

/-- Issue leaves the registers outside TRC. -/
theorem issued_reg (d : Dev) (c x : Nat) (t : Ctx) {p o : Nat} (apart : ∀ k < 0x1000, regKey p o ≠ regKey pgTrc k) :
    (d.issued c x t).reg p o = d.reg p o := by
  unfold Dev.issued Dev.traceCmd Dev.traceTask
  split
  · exact (Dev.Noted.trace pgTrc _ _ _ _ _ _).reg (fun k hk => apart k (by omega)) apart
  · rfl

theorem issued_posOf (d : Dev) (c x : Nat) (t : Ctx) (frame line : Nat) : (d.issued c x t).posOf frame line = d.posOf frame line := by
  have raster : (d.issued c x t).reg pgFts 0x110 = d.reg pgFts 0x110 :=
    issued_reg d c x t (fun k hk => by unfold regKey pgFts pgTrc; omega)
  rw [Dev.posOf, Dev.posOf, Dev.rasterLines, Dev.rasterLines, Dev.regf, Dev.regf, raster]

end

end Sys2Proof.Machine

/-! PROOFS. How TIME and WAIT end, and the polls of a WAIT (R258, R259, R264, R283). -/

namespace Sys2Proof.Machine

theorem exec_time (c x : Nat) (s : State) : exec (.time c x) s = .next (s.after (issue s.quiet c x (onOpc 11 timeAct))) := rfl
theorem exec_wait (c x : Nat) (s : State) : exec (.wait c x) s = .next (s.after (issue s.quiet c x waitAct)) := rfl
theorem exec_waitPoll (c x : Nat) (s : State) : exec (.waitPoll c x) s = .next (s.after (waitPoll s.quiet c x)) := rfl

section
variable {d : Dev} {c x : Nat} {t : Ctx}

/-! ### TIME (R259, R283) -/

/-- The context of a task with the release position and the deadline that a TIME names (R283). -/
def Ctx.timed (t : Ctx) (d : Dev) (k : Desc) : Ctx :=
  { t with
    release := if k.w0.bit 32 then some (d.posOf (timeFrame (t.bound.getD t.frameAt) (k.w0.bit 35) k.w1) (k.w1.field 61 48)) else t.release
    deadline := if k.w0.bit 33 then
        some { frame := timeFrame (t.bound.getD t.frameAt) (k.w0.bit 35) k.w2, line := k.w2.field 61 48, abort := k.w0.bit 34, seen := false }
      else t.deadline }

/-- The checks of a TIME pass at its place in the task (R259). -/
theorem run_parseTime {w : Who} {k : Desc} {r : Run} (unused : unusedFrom k 2 = true) (ctx : r.dev.ctx? w.core w.ctx = some t)
    (place : timePlace t = true) : (parseTime w k).run.run r = (.ok (), r) := by
  unfold parseTime currentCtx
  rw [run_bind, run_require unused]
  dsimp only
  rw [run_bind, run_bind, run_getDev]
  dsimp only
  rw [run_pure]
  dsimp only
  rw [ctx]
  exact run_require place r

theorem run_timeAct {w : Who} {k : Desc} {r : Run} (unused : unusedFrom k 2 = true) (ctx : r.dev.ctx? w.core w.ctx = some t)
    (place : timePlace t = true) :
    (timeAct w k).run.run r = (.ok (), { r with dev := r.dev.modCtx w.core w.ctx (fun t => t.timed r.dev k) }) := by
  unfold timeAct
  rw [run_bind, run_parseTime unused ctx place]
  dsimp only
  rw [run_modDev, Dev.modCtx_of _ _ ctx, Dev.modCtx_of _ _ ctx]
  cases rel : k.w0.bit 32 <;> cases dl : k.w0.bit 33 <;> simp [Ctx.timed, rel, dl]

/-- A TIME at its place sets its task's release position and deadline, and ends. -/
theorem issue_time (hi : d.issuable c x t) (ho : t.cur.opc = 11) (h9 : t.cur.w0.bit 9 = false) (unused : unusedFrom t.cur 2 = true)
    (place : timePlace t = true) :
    issue d c x (onOpc 11 timeAct) =
      ((d.issued c x t).modCtx c x (fun k => k.timed (d.issued c x t) t.cur)).cmdEnded c x (d.whoOf c x) 0 0 := by
  have ran := run_timeAct (w := d.whoOf c x) (r := Run.start (d.issued c x t)) unused (issued_ctx d c x t) place
  have ended := issue_onOpc_ok hi ho ((runCmd_plain (act := timeAct) h9).trans ran)
  exact ended

/-! ### WAIT (R258) -/

/-- A WAIT that is tested without a fault is finished where its condition holds, and else waits. -/
theorem issue_waitAct {b : Bool} (hi : d.issuable c x t) (ho : t.cur.opc = 10) (hr : (runCmd d c x t waitTest).1 = .ok b) :
    issue d c x waitAct = if b then d.finished c x t waitTest else d.underway c x t waitTest := by
  refine issue_ran hi (runCmd_map some ?_ hr)
  unfold waitAct
  rw [if_pos ho]

/-- A poll makes the command of a task whose condition holds complete and the task READY, and else leaves the task waiting
(R258, R264). -/
theorem waitPoll_tested {b : Bool} {r : Run} (ctx : d.ctx? c x = some t) (live : d.coreLive c = true)
    (on : d.regb (pgDsp c) 0x010 2 = false) (waiting : t.state = .waiting) (cond : t.waitFor = .condition)
    (ran : (waitTest (d.whoOf c x) t.cur).run.run (Run.start d) = (.ok b, r)) :
    waitPoll d c x =
      if b then r.dev.modCtx c x (fun k => { k.cmdEnd 0 0 with state := .ready, waitFor := .none }) else r.dev := by
  unfold waitPoll
  rw [ctx]
  dsimp only
  rw [if_neg (by simp [live, on, waiting, cond]), ran]
  cases b <;> rfl

end

/-- Settles O11: a TIME at its place ends with what it sets in its task's context. -/
theorem timeCompletes : Obligations.TimeCompletes := by
  unfold Obligations.TimeCompletes
  intro s c x t hi ho h9 bus room place w3 w4 w5 w6
  have unused : unusedFrom t.cur 2 = true := by simp [unusedFrom, w3, w4, w5, w6]
  have quiet : ((s.quiet.issued c x t).modCtx c x (fun k => k.timed (s.quiet.issued c x t) t.cur)).bus = [] := by
    obtain ⟨_, h⟩ := (s.quiet.issued c x t).modCtx_eq c x (fun k => k.timed (s.quiet.issued c x t) t.cur)
    rw [h, issued_bus]
    exact bus
  refine ⟨_, exec_time c x s, ?_⟩
  rw [State.after_dev, issue_time hi ho h9 unused place, ctx_cmdEnded quiet (Dev.ctx?_modCtx _ (issued_ctx s.quiet c x t)) room]
  unfold Ctx.timed timeSets
  simp only [issued_posOf]
  rfl

/-- Settles O13: a WAIT ends and a poll goes on as the test of its condition does, and a word at hand decides the test. -/
theorem waitConditions : Obligations.WaitConditions := by
  unfold Obligations.WaitConditions
  refine ⟨fun s c x t hi ho => ⟨fun holds => ?_, fun fails => ?_⟩, fun s c x t ctx live on waiting cond holds => ?_,
    fun s c x t hp ready => ?_, fun s c x t ctx live on waiting cond plain ready => ?_⟩
  · rw [exec_wait, issue_waitAct hi ho holds, if_pos rfl]
  · rw [exec_wait, issue_waitAct hi ho fails, if_neg Bool.false_ne_true]
  · rw [exec_waitPoll, waitPoll_tested ctx live on waiting cond (Prod.ext holds rfl), if_pos rfl]
  · rw [exec_wait, issue_waitAct hp.issue hp.opcode (wait_runs hp.noRegs hp.plain ready)]
  · rw [exec_waitPoll, waitPoll_tested ctx live on waiting cond (Prod.ext (poll_runs plain ready) rfl)]

end Sys2Proof.Machine

/-! PROOFS. How a faulting VEC ends, and commands out of their turn (R251, R260, R264 to R269). -/

namespace Sys2Proof.Machine

section
variable {d : Dev} {c x : Nat} {t : Ctx}

/-- A command that meets a fault in its first part has that fault. -/
theorem runCmd_of_bind_error {α β : Type} {act : Who → Desc → M α} {act' : Who → Desc → M β} {f : α → M β} {stop : Stop} {r : Run}
    (h : act' (d.whoOf c x) t.cur = act (d.whoOf c x) t.cur >>= f) (ran : runCmd d c x t act = (.error stop, r)) :
    runCmd d c x t act' = (.error stop, r) := by
  unfold runCmd at *
  rw [h, ← bind_assoc, run_bind, ran]

/-- A VEC command of its row's operation that meets a fault ends with its status and event. -/
theorem issue_vecAct_failed {vop status : Nat} {ev : W64} {r : Run} (hi : d.issuable c x t) (ho : t.cur.opc = 3)
    (hv : t.cur.arg 39 32 = vop) (ran : runCmd d c x t vecCmd = (.error (.fail status ev), r)) :
    issue d c x (vecAct vop) = r.dev.cmdEnded c x (d.whoOf c x) status (if r.event = 0 then ev else r.event) := by
  refine issue_failed hi (runCmd_of_bind_error (f := fun _ => pure (some true)) ?_ ran)
  unfold vecAct
  rw [if_pos ⟨ho, hv⟩]

/-- A command whose task the dispatcher does not pick changes nothing. -/
theorem issue_out_of_turn (act : Who → Desc → M (Option Bool)) (ctx : d.ctx? c x = some t) (waits : d.mayIssue c x t = false) :
    issue d c x act = d := by
  simp [issue, ctx, waits]

end

/-- The rows of COLL issue the work of their operation (R382). -/
theorem exec_collRow {r : (Nat → Nat → Instr) × Nat} (h : r ∈ collRows) (c x : Nat) (s : State) :
    exec (r.1 c x) s = .next (s.after (issue s.quiet c x (collAct r.2))) := by
  fin_cases h <;> rfl

/-- The rows of UPD issue the work of their operation (R320). -/
theorem exec_updRow {r : (Nat → Nat → Instr) × Nat} (h : r ∈ updRows) (c x : Nat) (s : State) :
    exec (r.1 c x) s = .next (s.after (issue s.quiet c x (updAct r.2))) := by
  fin_cases h <;> rfl

/-- Settles O18: a VEC ends with the fault that its run meets, and a command that the dispatcher does not pick is not issued. -/
theorem commandFaults : Obligations.CommandFaults := by
  unfold Obligations.CommandFaults
  refine ⟨fun r row s c x t st ev hi ho hv fails => ?_, fun s c x t ctx waits =>
    ⟨fun r row => ?_, fun r row => ?_, fun r row => ?_, fun r row => ?_⟩⟩
  · rw [exec_vecRow row, issue_vecAct_failed hi ho hv (Prod.ext fails rfl)]
  · rw [exec_vecRow row, issue_out_of_turn _ ctx waits]
  · rw [exec_xferRow row, issue_out_of_turn _ ctx waits]
  · rw [exec_collRow row, issue_out_of_turn _ ctx waits]
  · rw [exec_updRow row, issue_out_of_turn _ ctx waits]

end Sys2Proof.Machine

/-! PROOFS. Doorbells and DSP_QCMD (R34, R245 to R247). -/

namespace Sys2Proof.Machine

theorem exec_doorbellWrite (g : Agent) (q : Nat) (v : W64) (s : State) :
    exec (.doorbellWrite g q v) s = .next (s.after (doorbell s.quiet g q v)) := rfl
theorem exec_doorbellRead (g : Agent) (q : Nat) (s : State) :
    exec (.doorbellRead g q) s = .next (s.after (s.quiet.emit (.word (doorbellValue s.quiet g q)))) := rfl
theorem exec_queueEnable (c : Nat) (w : Wr) (s : State) : exec (.queueEnable c w) s = .next (s.after (qcmdWrite s.quiet c w)) := rfl
theorem exec_queueDisable (c : Nat) (w : Wr) (s : State) : exec (.queueDisable c w) s = .next (s.after (qcmdWrite s.quiet c w)) := rfl

/-! ### Sequence numbers (R246) -/

/-- A number lies below another within half of the range after it. -/
theorem seqBelow_iff (a b : Nat) :
    seqBelow a b = true ↔ 1 ≤ (b + 2 ^ 32 - a % 2 ^ 32) % 2 ^ 32 ∧ (b + 2 ^ 32 - a % 2 ^ 32) % 2 ^ 32 < 2 ^ 31 := by
  simp [seqBelow]

theorem seqBelow_self (a : Nat) : seqBelow a a = false := by
  rw [← Bool.not_eq_true, seqBelow_iff]
  omega

theorem seqBelow_asymm {a b : Nat} (ha : a < 2 ^ 32) (hb : b < 2 ^ 32) (h : seqBelow a b = true) : seqBelow b a = false := by
  rw [← Bool.not_eq_true]
  rw [seqBelow_iff] at *
  omega

theorem seqBelow_total {a b : Nat} (ha : a < 2 ^ 32) (hb : b < 2 ^ 32) (ne : a ≠ b) (apart : (a + 2 ^ 31) % 2 ^ 32 ≠ b) :
    seqBelow a b = true ∨ seqBelow b a = true := by
  rw [seqBelow_iff, seqBelow_iff]
  omega

theorem seqBelow_add {a n : Nat} (ha : a < 2 ^ 32) (pos : 0 < n) (hn : n < 2 ^ 31) : seqBelow a ((a + n) % 2 ^ 32) = true := by
  rw [seqBelow_iff]
  omega

section
variable {d : Dev} {g : Agent} {q c : Nat} {v : W64} {w : Wr} {x : QState}

/-! ### Doorbells (R34, R246) -/

theorem doorbell_closed (closed : d.doorbellOpen g q = false) : doorbell d g q v = d := by
  simp [doorbell, closed]

/-- The new tail that a doorbell brings is behind TAIL, or further from HEAD than the ring (R246). -/
def Dev.badTail (d : Dev) (q : Nat) (v : W64) : Prop :=
  (v.field 31 0 + 2 ^ 32 - d.qTail q) % 2 ^ 32 ≥ 2 ^ 31 ∨ (v.field 31 0 + 2 ^ 32 - d.qHead q) % 2 ^ 32 > d.qRing q

/-- A doorbell to a queue that is not enabled, or with a bad tail, is ignored. -/
theorem doorbell_ignored (reached : d.doorbellOpen g q = true)
    (bad : (d.queue? q).all (fun x => !x.enabled) = true ∨ d.badTail q v) :
    doorbell d g q v = (d.count (pgDsp (q / 8192)) 0x03 1).setIsr (pgDsp (q / 8192)) 0 := by
  unfold doorbell
  rw [reached, Bool.not_true, if_neg Bool.false_ne_true]
  cases queue : d.queue? q with
  | none => rfl
  | some x =>
    rw [queue, Option.all_some] at bad
    exact if_pos bad

/-- A doorbell to an enabled queue with a good tail is accepted. -/
theorem doorbell_accepted (reached : d.doorbellOpen g q = true) (queue : d.queue? q = some x) (on : x.enabled = true)
    (good : ¬ d.badTail q v) :
    doorbell d g q v =
      (let c := q / 8192
       let d := (d.setQField q 1 63 32 (v.field 31 0)).count (pgDsp c) 0x02 1
       let d := d.setQueue q { x with doorbells := x.doorbells ++ [(v.field 31 0, (d.core c).dbClock)] }
       ((d.modCore c (fun k => { k with dbClock := k.dbClock + 1 })).wakeWaiting c q).settle c) := by
  unfold doorbell
  rw [reached, Bool.not_true, if_neg Bool.false_ne_true, queue]
  exact if_neg (fun h => h.elim (by simp [on]) good)

/-! ### DSP_QCMD (R245) -/

/-- The queue that a write to DSP_QCMD names. -/
def Dev.qcmdQueue (d : Dev) (c : Nat) (w : Wr) : Nat := c * 8192 + (d.merged (pgDsp c) 0x108 w).field 12 0

/-- A write of a non-secure agent that names a secure queue changes nothing. -/
theorem qcmdWrite_denied (secure : (d.queueSecure (d.qcmdQueue c w) && !d.agentSecure w.agent) = true) : qcmdWrite d c w = d :=
  if_pos (.inr secure)

section
variable (taken : d.mayWrite w.agent (pgDsp c) 0x108 = true)
  (reaches : (d.queueSecure (d.qcmdQueue c w) && !d.agentSecure w.agent) = false)
include taken reaches

theorem qcmdWrite_enable (cmd : (wrBits w).field 14 13 = 1) :
    qcmdWrite d c w = queueEnable (d.plainWrite (pgDsp c) 0x108 w) c (d.qcmdQueue c w) := by
  unfold qcmdWrite
  rw [if_neg (fun h => h.elim (by simp [taken]) (fun h => Bool.false_ne_true (reaches.symm.trans h))), cmd]
  rfl

theorem qcmdWrite_disable (cmd : (wrBits w).field 14 13 = 2) :
    qcmdWrite d c w = queueDisable (d.plainWrite (pgDsp c) 0x108 w) (d.qcmdQueue c w) := by
  unfold qcmdWrite
  rw [if_neg (fun h => h.elim (by simp [taken]) (fun h => Bool.false_ne_true (reaches.symm.trans h))), cmd]
  rfl

end

section
variable (off : (d.queue? q).any (fun x => x.enabled) = false) (empty : (d.core c).ofQueue q = []) (free : (d.core c).dspFinit = false)
include off empty free

/-- ENABLE of a queue that is not enabled and holds no task enables an entry that passes the checks. -/
theorem queueEnable_good (good : d.entryOk q = true) :
    queueEnable d c q = ((d.storeWord (d.queueEntry q + 8) 0).storeWord (d.queueEntry q + 24) 0).setQueue q QState.start := by
  simp [queueEnable, off, empty, free, good]

theorem queueEnable_bad (bad : d.entryOk q = false) : queueEnable d c q = d.setb (pgDsp c) 0x108 62 true := by
  simp [queueEnable, off, empty, free, bad]

end

theorem queueDisable_enabled (queue : d.queue? q = some x) (on : x.enabled = true) :
    queueDisable d q = d.setQueue q { x with enabled := false, disabling := true } := by
  simp [queueDisable, queue, on]

end

/-- Settles O19: a doorbell has its three cases, its read answers its value, and sequence numbers go by their distance. -/
theorem doorbells : Obligations.Doorbells := by
  unfold Obligations.Doorbells
  refine ⟨fun s g q v => ⟨fun closed => ?_, fun reached bad => ?_, fun x reached queue on ahead near => ?_⟩, fun s g q => ?_,
    seqBelow_self, fun a b => seqBelow_asymm, fun a b => seqBelow_total, fun a n => seqBelow_add⟩
  · rw [exec_doorbellWrite, doorbell_closed closed]
  · rw [exec_doorbellWrite, doorbell_ignored reached bad]
  · have good : ¬ s.quiet.badTail q v := not_or.2 ⟨Nat.not_le.2 ahead, Nat.not_lt.2 near⟩
    rw [exec_doorbellWrite, doorbell_accepted reached queue on good]
  · rw [exec_doorbellRead, doorbellValue]

/-- Settles O20: a write that reaches its queue is an ENABLE, which checks the entry, or a DISABLE. -/
theorem queueCommands : Obligations.QueueCommands := by
  unfold Obligations.QueueCommands
  intro s c w taken q d
  refine ⟨fun secure => ⟨?_, ?_⟩, fun reaches => ?_⟩
  · rw [exec_queueEnable, qcmdWrite_denied secure]
  · rw [exec_queueDisable, qcmdWrite_denied secure]
  · have enables (cmd : (wrBits w).field 14 13 = 1) : qcmdWrite s.quiet c w = queueEnable d c q := qcmdWrite_enable taken reaches cmd
    have disables (cmd : (wrBits w).field 14 13 = 2) : qcmdWrite s.quiet c w = queueDisable d q := qcmdWrite_disable taken reaches cmd
    refine ⟨fun cmd off empty free => ⟨fun good => ?_, fun bad => ?_⟩, fun x cmd queue on => ?_⟩
    · rw [exec_queueEnable, enables cmd, queueEnable_good off empty free good]
    · rw [exec_queueEnable, enables cmd, queueEnable_bad off empty free bad]
    · rw [exec_queueDisable, disables cmd, queueDisable_enabled queue on]

end Sys2Proof.Machine

/-! PROOFS. The start of a task, and the fields of its completion record (R250, R265, R282, R284). -/

namespace Sys2Proof.Machine

theorem exec_taskStart (q x : Nat) (s : State) : exec (.taskStart q x) s = .next (s.after (taskStart s.quiet q x)) := rfl

/-- Settles O21: a queue that is first and has a context to take starts its task. -/
theorem taskStarts : Obligations.TaskStarts := by
  unfold Obligations.TaskStarts
  intro st q x s qs qs' d c live on below free next queue first kept
  have may : ¬ ((!d.coreLive c) = true ∨ (d.core c).dspFinit = true ∨ x ≥ 1024 ∨ (d.ctx? c x).isSome = true) := by
    simp [live, on, free, below]
  have starts : taskStart d q x = _ := if_neg may
  rw [exec_taskStart, starts, next, queue]
  dsimp only
  rw [first, Bool.not_true, if_neg Bool.false_ne_true, kept]
  rfl

/-- Settles O23: the fields of a word lie apart, so each reads back. -/
theorem completionRecords : Obligations.CompletionRecords := by
  unfold Obligations.CompletionRecords
  intro d c x t late tseq tag status spec reason ctx lines
  have flag : (if late.isSome then 2 ^ 56 else 0) = (if late.isSome then 1 else 0) * 2 ^ 56 := by cases late <;> simp
  have one : (if late.isSome then 1 else 0) < 2 := by split <;> omega
  refine ⟨_, _, rfl, ?_⟩
  rw [flag]
  generalize (if late.isSome then 1 else 0) = l at *
  generalize late.getD 0 = n at *
  have first : t.tseq + t.tag * 2 ^ 32 + t.status * 2 ^ 48 + l * 2 ^ 56 + t.specOut * 2 ^ 57 + t.reason * 2 ^ 59 < 2 ^ 64 := by omega
  have third : n + x * 2 ^ 32 < 2 ^ 64 := by omega
  simp only [W64.field_ofNat first, W64.field_ofNat third]
  omega

end Sys2Proof.Machine

/-! PROOFS. The raster, its frames, the followers and FRAME_IN (R273 to R277, R280). -/

namespace Sys2Proof.Machine

theorem exec_rasterLineBoundary (s : State) : exec .rasterLineBoundary s = .next (s.after (rasterBoundary s.quiet)) := rfl
theorem exec_schBoundaryApply (h : Nat) (s : State) : exec (.schBoundaryApply h) s = .next (s.after (schApply s.quiet h)) := rfl
theorem exec_frameInEdge (rising : Bool) (a : Nat) (s : State) :
    exec (.frameInEdge rising a) s = .next (s.after (frameInEdge s.quiet rising a)) := rfl

section
variable {d : Dev}

/-! ### The start of a frame (R273) -/

/-- The frame counter and the line of a frame that starts. -/
theorem Dev.startFrame_time (d : Dev) (advance : Bool) :
    (d.startFrame advance).ftsFrame = (if advance then (d.ftsFrame + 1) % 2 ^ 48 else d.ftsFrame) ∧ (d.startFrame advance).ftsLine = 0 := by
  unfold Dev.startFrame
  extract_lets e₁ e₂
  have frame : e₂.reg pgFts 0x128 = e₁.reg pgFts 0x128 := by
    rw [Dev.reg_count_above _ _ _ _ (by decide), Dev.reg_setf_ne _ _ _ _ (by decide)]
  have line : e₂.regf pgFts 0x130 13 0 = 0 := by
    rw [Dev.regf, Dev.reg_count_above _ _ _ _ (by decide), ← Dev.regf, Dev.regf_setf _ _ _ _ (by decide) (by decide), Nat.zero_mod]
  constructor
  · rw [Dev.ftsFrame, Dev.regf, Dev.reg_freshLocked_ne (by decide), Dev.reg_modFts, frame, ← Dev.regf]
    cases advance with
    | false => rfl
    | true => exact Dev.regf_setf _ _ _ _ (by decide) (by decide)
  · rw [Dev.ftsLine, Dev.regf, Dev.reg_freshLocked_ne (by decide), Dev.reg_modFts, ← Dev.regf, line]

/-! ### Boundaries (R273 to R275) -/

/-- A raster that does not run, or is in acquisition, reaches no boundary. -/
theorem rasterBoundary_still (still : d.ftsActive = false ∨ d.acquiring = true) : rasterBoundary d = d :=
  if_pos (still.imp_left (fun off => by rw [off]; rfl))

theorem rasterBoundary_line (active : d.ftsActive = true) (placed : d.acquiring = false) (more : d.ftsLine + 1 < d.rasterLines) :
    rasterBoundary d = ((d.setf pgFts 0x130 13 0 (d.ftsLine + 1)).sendBoundary).boundaryEvents := by
  simp [rasterBoundary, active, placed, more]

/-- After the last line of a frame that the raster times itself the next frame starts. -/
theorem rasterBoundary_frame (active : d.ftsActive = true) (placed : d.acquiring = false) (last : d.rasterLines ≤ d.ftsLine + 1)
    (free : d.fsrc = false) : rasterBoundary d = (((d.startFrame true).slewStep).sendBoundary).boundaryEvents := by
  have ended : ¬ d.ftsLine + 1 < d.rasterLines := Nat.not_lt.2 last
  simp [rasterBoundary, Dev.edgeDriven, active, placed, ended, free]

/-- A follower takes the oldest boundary sent to it. -/
theorem schApply_cons {h f l : Nat} {rest : List (Nat × Nat)} (queue : (d.half h).schQueue = (f, l) :: rest) :
    schApply d h = (d.modHalf h (fun x => { x with schQueue := rest })).applyBoundary h f l := by
  simp only [schApply, queue]

/-! ### FRAME_IN (R276, R277, R280) -/

/-- When the next edge of FRAME_IN is due. -/
def Dev.edgeDue (d : Dev) : Nat := d.fts.lastEdge + (if d.fts.edges ≥ 2 then d.fts.period else d.framePeriod)

/-- How far an edge is from where it is due. -/
def Dev.edgeOff (d : Dev) (a : Nat) : Nat := if a ≥ d.edgeDue then a - d.edgeDue else d.edgeDue - a

/-- The machine once an edge is accepted: its period is measured, and a slew, which the edge ends, is done. -/
def Dev.edgeTaken (d : Dev) (a : Nat) : Dev :=
  let e := d.modFts (fun f => { f with edges := f.edges + 1, period := a - f.lastEdge, lastEdge := a, missed := 0 })
  if e.slewing then ((e.setb pgFts 0x138 2 false).setReg pgFts 0x140 0).setIsr pgFts 2 else e

section
variable {rising : Bool} {a : Nat} (active : d.ftsActive = true) (selected : d.fsrc = true) (edge : rising ≠ d.regb pgFts 0x100 5)
include active selected edge

/-- The first edge in acquisition starts the frame that is loaded. -/
theorem frameInEdge_first (acquiring : d.acquiring = true) :
    frameInEdge d rising a =
      (((d.setb pgFts 0x138 5 false).modFts (fun f => { f with edges := 1, lastEdge := a, period := 0, missed := 0 })).startFrame
        false).edgeBoundary := by
  simp [frameInEdge, active, selected, edge, acquiring]

/-- Once the raster has its place, an edge further than one line from where it is due is rejected. -/
theorem frameInEdge_rejected (placed : d.acquiring = false) (off : d.edgeOff a > d.lineLength) :
    frameInEdge d rising a = d.count pgFts 0x02 1 := by
  unfold frameInEdge
  rw [if_neg (by simp [active, selected, edge]), placed, if_neg Bool.false_ne_true]
  exact if_pos off

/-- One within a line starts the next frame. -/
theorem frameInEdge_accepted (placed : d.acquiring = false) (near : d.edgeOff a ≤ d.lineLength) :
    frameInEdge d rising a = ((d.edgeTaken a).startFrame true).edgeBoundary := by
  unfold frameInEdge
  rw [if_neg (by simp [active, selected, edge]), placed, if_neg Bool.false_ne_true]
  exact if_neg (Nat.not_lt.2 near)

end

end

/-- Settles O37: each boundary and each edge is its case of the model's function, and a frame's start sets its counter and line. -/
theorem rasterTime : Obligations.RasterTime := by
  unfold Obligations.RasterTime
  refine ⟨fun s => ⟨fun active placed more => ?_, fun active placed last free => ?_, fun still => ?_⟩, fun d => ?_,
    fun s h f l rest queue => ?_, fun s rising a => ?_⟩
  · rw [exec_rasterLineBoundary, rasterBoundary_line active placed more]
  · rw [exec_rasterLineBoundary, rasterBoundary_frame active placed last free]
  · rw [exec_rasterLineBoundary, rasterBoundary_still still]
  · obtain ⟨next, top⟩ := d.startFrame_time true
    obtain ⟨same, top'⟩ := d.startFrame_time false
    exact ⟨next, top, same, top'⟩
  · rw [exec_schBoundaryApply, schApply_cons queue]
  · intro d due active selected edge
    refine ⟨fun acquiring => ?_, fun placed off => ?_, fun placed near => ?_⟩
    · rw [exec_frameInEdge, frameInEdge_first active selected edge acquiring]
    · rw [exec_frameInEdge, frameInEdge_rejected active selected edge placed off]
    · rw [exec_frameInEdge, frameInEdge_accepted active selected edge placed near]
      rfl

end Sys2Proof.Machine

/-! PROOFS. Time sources, their loss and return, and the writes of FTS_TIME and FTS_CTRL (R270 to R272, R278, R280, R582). -/

namespace Sys2Proof.Machine

theorem exec_sourceLoss (src : SourceCode) (s : State) : exec (.sourceLoss src) s = .next (s.after (sourceLoss s.quiet src)) := rfl
theorem exec_ppsInEdge (a : Nat) (s : State) : exec (.ppsInEdge a) s = .next (s.after (ppsIn s.quiet a)) := rfl
theorem exec_refInEdge (s : State) : exec .refInEdge s = .next (s.after (refIn s.quiet)) := rfl
theorem exec_ptpEventMessage (m : PtpMsg) (p : Nat) (s : State) :
    exec (.ptpEventMessage m p) s = .next (s.after (ptpEvent s.quiet m p)) := rfl
theorem exec_relockStart (src : SourceCode) (phase : Int) (same : Bool) (s : State) :
    exec (.relockStart src phase same) s = .next (s.after (relock s.quiet src phase same)) := rfl
theorem exec_ftsTimeWrite (w : Wr) (s : State) : exec (.ftsTimeWrite w) s = .next (s.after (ftsTimeWrite s.quiet w)) := rfl
theorem exec_ftsCtrlWrite (w : Wr) (s : State) : exec (.ftsCtrlWrite w) s = .next (s.after (ftsCtrlWrite s.quiet w)) := rfl

section
variable {d : Dev}

/-! ### Loss, edges and messages (R271, R272, R278, R582) -/

theorem sourceLoss_used {src : Nat} (up : d.up = true) (used : d.sourceUsed src = true) (new : d.fts.lost.contains src = false) :
    sourceLoss d src =
      (let e := d.modFts (fun f => { f with lost := lineAdd f.lost src, refOk := if src = 3 ∨ src = 4 then false else f.refOk })
       (((e.setb pgFts 0x138 1 true).count pgFts 0x03 1).raise pgFts 0x0402 (src * 2 ^ 29) 0).freshLocked) :=
  if_neg (by rw [up, used, new]; decide)

theorem ppsIn_up {a : Nat} (up : d.up = true) :
    ppsIn d a = if d.tsrc = 2 then (d.modFts (fun f => { f with ppsNs := a })).discipline else d.modFts (fun f => { f with ppsNs := a }) :=
  if_neg (by rw [up]; decide)

theorem refIn_up (up : d.up = true) :
    refIn d = if d.tsrc = 3 ∨ d.tsrc = 4 then (d.modFts (fun f => { f with refOk := true })).discipline
      else d.modFts (fun f => { f with refOk := true }) :=
  if_neg (by rw [up]; decide)

section
variable {m : PtpMsg} {p : Nat} (up : d.up = true) (port : p < 2)
include up port

/-- A PTP event message of another domain or delay mechanism is only stamped. -/
theorem ptpEvent_other (other : (d.modFts (fun f => { f with ptpStamp := d.ftsTime })).ptpTakes m = false) :
    ptpEvent d m p = d.modFts (fun f => { f with ptpStamp := d.ftsTime }) := by
  unfold ptpEvent
  rw [if_neg (by simp [up, port])]
  exact if_pos (by rw [other]; rfl)

/-- One that the client takes disciplines FTS_INC with TSRC 1. -/
theorem ptpEvent_taken {e : Dev} (he : d.modFts (fun f => { f with ptpStamp := d.ftsTime }) = e) (takes : e.ptpTakes m = true)
    (rate : m.rate = none) : ptpEvent d m p = if e.tsrc = 1 then e.discipline else e := by
  subst he
  unfold ptpEvent
  rw [if_neg (by simp [up, port])]
  simp only [takes, rate, Bool.not_true, Bool.false_eq_true, if_false]

end

/-- Out of holdover the discipline leaves FTS_INC within 200 ppm of 4 ns. -/
theorem Dev.discipline_range (on : d.regb pgFts 0x138 1 = false) :
    0x400000000 - 3435973 ≤ (d.discipline.reg pgFts 0x120).toNat ∧ (d.discipline.reg pgFts 0x120).toNat ≤ 0x400000000 + 3435973 := by
  unfold Dev.discipline
  rw [on, if_neg Bool.false_ne_true, Dev.reg_setReg, BitVec.toNat_ofNat]
  omega

/-! ### The return of a source (R280) -/

/-- Of a PTP source that returns, firmware first steps station time to the master's (log 90). -/
def Dev.steppedFor (d : Dev) (src : Nat) : Dev :=
  if src = 1 then (d.takeFree.1.setReg pgFts 0x118 d.takeFree.2).modFts (fun x => { x with frac := 0 }) else d

theorem Dev.steppedFor_lost (d : Dev) (src : Nat) : (d.steppedFor src).fts.lost = d.fts.lost := by
  unfold Dev.steppedFor
  split <;> rfl

theorem Dev.steppedFor_mem (d : Dev) (src : Nat) : (d.steppedFor src).mem = d.mem := by
  unfold Dev.steppedFor
  split <;> rfl

theorem Dev.stat_steppedFor (d : Dev) (src : Nat) : (d.steppedFor src).reg pgFts 0x138 = d.reg pgFts 0x138 := by
  unfold Dev.steppedFor
  split
  · exact d.takeFree.1.reg_setReg_ne _ (by decide)
  · rfl

/-- The machine once the only lost source has returned: out of holdover, with its phase to slew. -/
def Dev.slewBegun (d : Dev) (src : Nat) (phase : Int) : Dev :=
  ((((d.setb pgFts 0x138 1 false).steppedFor src).setb pgFts 0x138 2 true).setReg pgFts 0x140 (BitVec.ofInt 64 phase)).setIsr pgFts 1

/-- The only lost source returns, with the raster in its frame and a phase of a TCLK cycle or more. -/
theorem relock_only {src : Nat} {phase : Int} (up : d.up = true) (lost : d.fts.lost = [src]) (far : phase ≤ -4 ∨ 4 ≤ phase) :
    relock d src phase true = ((d.modFts (fun f => { f with lost := [], missed := 0 })).slewBegun src phase).freshLocked := by
  have on : ¬ ((!d.up) = true ∨ (!d.fts.lost.contains src) = true) := by simp [up, lost]
  have slews : ¬ (-4 < phase ∧ phase < 4) := by omega
  have noneLost : d.modFts (fun f => { f with lost := f.lost.filter (· != src), missed := 0 }) =
      d.modFts (fun f => { f with lost := [], missed := 0 }) := by
    simp [Dev.modFts, lost]
  unfold relock
  rw [if_neg on, noneLost]
  exact if_neg slews

/-- FTS_STAT once a slew has begun: SLEWING is set and HOLDOVER is clear. -/
theorem Dev.stat_slewBegun (d : Dev) (src : Nat) (phase : Int) (i : Nat) :
    (d.slewBegun src phase).regb pgFts 0x138 i = if i = 2 then true else if i = 1 then false else d.regb pgFts 0x138 i := by
  unfold Dev.slewBegun
  rw [Dev.regb_of_reg (Dev.reg_setIsr_above _ _ _ (by decide)), Dev.regb_of_reg (Dev.reg_setReg_ne _ _ (by decide))]
  split
  · next h => rw [h, Dev.regb_setb _ _ _ _ _ (by decide)]
  · next h =>
    rw [Dev.regb_setb_ne _ _ _ _ (by decide) h, Dev.regb_of_reg (Dev.stat_steppedFor ..)]
    split
    · next h => rw [h, Dev.regb_setb _ _ _ _ _ (by decide)]
    · next h => exact Dev.regb_setb_ne _ _ _ _ (by decide) h

/-- FTS_SLEW holds the phase. -/
theorem Dev.slew_slewBegun (d : Dev) (src : Nat) (phase : Int) : (d.slewBegun src phase).reg pgFts 0x140 = BitVec.ofInt 64 phase := by
  unfold Dev.slewBegun
  rw [Dev.reg_setIsr_above _ _ _ (by decide), Dev.reg_setReg]

theorem Dev.slewBegun_lost (d : Dev) (src : Nat) (phase : Int) : (d.slewBegun src phase).fts.lost = d.fts.lost := by
  rw [Dev.slewBegun, Dev.setIsr_fts]
  exact Dev.steppedFor_lost ..

theorem Dev.slewBegun_mem (d : Dev) (src : Nat) (phase : Int) : (d.slewBegun src phase).mem = d.mem := by
  rw [Dev.slewBegun, Dev.setIsr_mem]
  exact Dev.steppedFor_mem ..

/-! ### FTS_TIME and FTS_CTRL (R270, R271) -/

theorem ftsTimeWrite_taken {w : Wr} (h : d.mayWrite w.agent pgFts 0x118 = true) :
    ftsTimeWrite d w = (d.setReg pgFts 0x118 (d.merged pgFts 0x118 w)).modFts (fun f => { f with frac := 0 }) :=
  if_pos h

/-- The machine once TSRC is taken and the other sources' losses are forgotten; a reserved TSRC sets TSRC_BAD only (R271). -/
def Dev.takeTsrc (d : Dev) (t : Nat) : Dev :=
  if t ≤ 4 then
    let e := ((d.setf pgFts 0x100 2 0 t).setb pgFts 0x138 6 false).modFts
      (fun f => { f with lost := f.lost.filter (fun s => s == 7 || s == t) })
    if e.fts.lost.isEmpty then e.setb pgFts 0x138 1 false else e
  else d.setb pgFts 0x138 6 true

/-- TSRC and TSRC_BAD once a TSRC is written. -/
theorem Dev.takeTsrc_reads (d : Dev) (t : Nat) :
    (d.takeTsrc t).tsrc = (if t ≤ 4 then t else d.tsrc) ∧ (d.takeTsrc t).regb pgFts 0x138 6 = !decide (t ≤ 4) := by
  unfold Dev.takeTsrc
  by_cases good : t ≤ 4
  · rw [if_pos good, if_pos good]
    extract_lets e
    have tsrc : e.regf pgFts 0x100 2 0 = t := by
      rw [Dev.regf, Dev.reg_modFts, Dev.reg_setb_ne _ _ _ (by decide), ← Dev.regf, Dev.regf_setf _ _ _ _ (by decide) (by decide)]
      omega
    have bad : e.regb pgFts 0x138 6 = false := by
      rw [Dev.regb_of_reg (Dev.reg_modFts ..), Dev.regb_setb _ _ _ _ _ (by decide)]
    rw [decide_eq_true good]
    split
    · rw [Dev.tsrc, Dev.regf, Dev.reg_setb_ne _ _ _ (by decide), ← Dev.regf, Dev.regb_setb_ne _ _ _ _ (by decide) (by decide)]
      exact ⟨tsrc, bad⟩
    · exact ⟨tsrc, bad⟩
  · rw [if_neg good, if_neg good, Dev.tsrc, Dev.regf, Dev.reg_setb_ne _ _ _ (by decide), Dev.regb_setb _ _ _ _ _ (by decide),
      decide_eq_false good]
    exact ⟨rfl, rfl⟩

/-- The machine once the other fields of FTS_CTRL are taken: FSRC only while RUN is 0 (R270). -/
def Dev.takeCtrl (d : Dev) (ran : Bool) (v : W64) : Dev :=
  (if ran then d else d.setf pgFts 0x100 3 3 (v.field 3 3)).setf pgFts 0x100 6 4 (v.field 6 4)

/-- They leave TSRC and FTS_STAT. -/
theorem Dev.takeCtrl_reads (d : Dev) (ran : Bool) (v : W64) :
    (d.takeCtrl ran v).tsrc = d.tsrc ∧ (d.takeCtrl ran v).regb pgFts 0x138 6 = d.regb pgFts 0x138 6 := by
  unfold Dev.takeCtrl
  rw [Dev.tsrc, Dev.regf_setf_apart _ _ _ _ (by decide) (by decide) (by decide), Dev.regb_of_reg (Dev.reg_setf_ne _ _ _ _ (by decide))]
  cases ran with
  | true => exact ⟨rfl, rfl⟩
  | false => exact ⟨Dev.regf_setf_apart _ _ _ _ (by decide) (by decide) (by decide), Dev.regb_of_reg (Dev.reg_setf_ne _ _ _ _ (by decide)) 6⟩

/-- A write of FTS_CTRL that leaves RUN takes its fields. -/
theorem ftsCtrlWrite_sameRun {w : Wr} (taken : d.mayWrite w.agent pgFts 0x100 = true)
    (same : (d.merged pgFts 0x100 w).bit 6 = d.ftsRun) :
    ftsCtrlWrite d w = (d.takeTsrc ((d.merged pgFts 0x100 w).field 2 0)).takeCtrl d.ftsRun (d.merged pgFts 0x100 w) := by
  unfold ftsCtrlWrite
  rw [if_neg (by rw [taken]; decide)]
  extract_lets v ran t e₁ e₂ e₃ e₄ e₅
  have run : v.bit 6 = ran := same
  rw [run, if_neg (by simp), if_neg (by simp)]
  rfl

theorem ftsCtrlWrite_reads {w : Wr} (taken : d.mayWrite w.agent pgFts 0x100 = true)
    (same : (d.merged pgFts 0x100 w).bit 6 = d.ftsRun) :
    (ftsCtrlWrite d w).tsrc = (if (d.merged pgFts 0x100 w).field 2 0 ≤ 4 then (d.merged pgFts 0x100 w).field 2 0 else d.tsrc)
      ∧ (ftsCtrlWrite d w).regb pgFts 0x138 6 = !decide ((d.merged pgFts 0x100 w).field 2 0 ≤ 4) := by
  obtain ⟨tsrc, bad⟩ := d.takeTsrc_reads ((d.merged pgFts 0x100 w).field 2 0)
  obtain ⟨keeps, stat⟩ := (d.takeTsrc ((d.merged pgFts 0x100 w).field 2 0)).takeCtrl_reads d.ftsRun (d.merged pgFts 0x100 w)
  rw [ftsCtrlWrite_sameRun taken same]
  exact ⟨keeps.trans tsrc, stat.trans bad⟩

end

/-- Settles O38: each edge, message and loss is its case of the model's function; the return of the only lost source begins its slew,
and a write of FTS_CTRL goes by its TSRC. -/
theorem timeSourcesAndHoldover : Obligations.TimeSourcesAndHoldover := by
  unfold Obligations.TimeSourcesAndHoldover
  refine ⟨fun s => ⟨fun src up used new => ?_, fun a up other => ?_, fun a up pps => ?_, fun up no3 no4 => ?_, fun up ref => ?_,
      fun m p up port => ⟨fun other => ?_, fun takes rate => ?_⟩, Dev.discipline_range⟩, fun s src phase up lost far => ?_,
    fun s w => ⟨fun taken => ?_, fun taken reserved same => ?_, fun taken good same => ?_⟩⟩
  · rw [exec_sourceLoss, sourceLoss_used up used new]
  · rw [exec_ppsInEdge, ppsIn_up up, if_neg other]
  · rw [exec_ppsInEdge, ppsIn_up up, if_pos pps]
  · rw [exec_refInEdge, refIn_up up, if_neg (not_or.2 ⟨no3, no4⟩)]
  · rw [exec_refInEdge, refIn_up up, if_pos ref]
  · rw [exec_ptpEventMessage, ptpEvent_other up port other]
  · rw [exec_ptpEventMessage, ptpEvent_taken up port rfl takes rate]
  · refine ⟨_, exec_relockStart src phase true s, ?_⟩
    rw [State.after_dev, relock_only up lost far, Dev.regb_freshLocked (by decide), Dev.regb_freshLocked (by decide),
      Dev.reg_freshLocked_ne (by decide), Dev.regb_of_reg (Dev.reg_freshLocked_ne (by decide))]
    exact ⟨Dev.slewBegun_lost .., Dev.stat_slewBegun _ _ _ 1, Dev.stat_slewBegun _ _ _ 2, Dev.slew_slewBegun ..,
      Dev.regb_setIsr _ _ (by decide), Dev.slewBegun_mem ..⟩
  · refine ⟨_, exec_ftsTimeWrite w s, ?_⟩
    rw [State.after_dev, ftsTimeWrite_taken taken]
    exact ⟨Dev.reg_setReg .., rfl, s.quiet.reg_setReg_ne _ (by decide), s.quiet.reg_setReg_ne _ (by decide)⟩
  · obtain ⟨tsrc, bad⟩ := ftsCtrlWrite_reads taken same
    have no : ¬ (s.quiet.merged pgFts 0x100 w).field 2 0 ≤ 4 := Nat.not_le.2 reserved
    rw [if_neg no] at tsrc
    rw [decide_eq_false no] at bad
    exact ⟨_, exec_ftsCtrlWrite w s, tsrc, bad⟩
  · obtain ⟨tsrc, bad⟩ := ftsCtrlWrite_reads taken same
    rw [if_pos good] at tsrc
    rw [decide_eq_true good] at bad
    exact ⟨_, exec_ftsCtrlWrite w s, tsrc, bad⟩

end Sys2Proof.Machine

/-! PROOFS. How a UPD command ends, and what STEP, PIN, ROOTS and RELEASE do (R299, R308, R320, R328, R330). -/

namespace Sys2Proof.Machine

/-! ### The work of a UPD -/

/-- What a UPD does once it is validated: held by speculation, or its operation (R227, R320). -/
def updWork (w : Who) (k : Desc) (a : UpdArgs) : M (Option Bool) := do
  if ← holds w k then return some true
  else return some (← updBody w a)

section
variable {d : Dev} {c x op : Nat} {t : Ctx} {b : Bool}

/-- The row of a command's operation validates it, and does its work. -/
theorem updAct_eq (w : Who) {k : Desc} (ho : k.opc = 7) :
    updAct op w k = parseUpd w k >>= fun a => if a.op ≠ op then return none else updWork w k a := by
  unfold updAct
  rw [if_pos ho]
  rfl

theorem run_updWork_actual {w : Who} {k : Desc} {a : UpdArgs} {r r' : Run} (actual : (r.dev.specOf w).isSome = false)
    (ran : (updBody w a).run.run r = (.ok b, r')) : (updWork w k a).run.run r = (.ok (some b), r') := by
  unfold updWork
  rw [run_bind, run_holds_actual actual]
  dsimp only
  rw [if_neg Bool.false_ne_true, run_bind, ran]
  rfl

/-- A UPD of a task that does not speculate is finished where its body is complete, and else stays RUNNING (R299, R320). -/
theorem issue_updAct (hi : d.issuable c x t) (ho : t.cur.opc = 7)
    (valid : (runCmd d c x t (fun w k => do
      let a ← parseUpd w k
      return (a.op, ((← getDev).specOf w).isSome))).1 = .ok (op, false))
    (ran : (runCmd d c x t (fun w k => do updBody w (← parseUpd w k))).1 = .ok b) :
    issue d c x (updAct op) = if b then d.finished c x t (fun w k => do updBody w (← parseUpd w k))
      else d.underway c x t (fun w k => do updBody w (← parseUpd w k)) := by
  obtain ⟨a, r, parsed, named⟩ := runCmd_first_ok rfl valid
  obtain ⟨kind, actual⟩ := Prod.mk.inj (Except.ok.inj named)
  have done := runCmd_of_bind (act' := fun w k => do updBody w (← parseUpd w k)) rfl parsed
  have work := run_updWork_actual (k := t.cur) actual (done.symm.trans (Prod.ext ran rfl))
  refine issue_ran hi ((runCmd_of_bind (updAct_eq _ ho) parsed).trans ?_)
  rw [if_neg (not_not_intro kind), work]

end

/-! ### The operations -/

theorem updSetStep_dev (a : UpdArgs) (r : Run) :
    ((updSetStep a).run.run r).2.dev = r.dev.halfList.foldl (fun d h => d.setf (pgUpd h) 0x128 47 0 a.step) r.dev := rfl

theorem updSetPin_dev (a : UpdArgs) (r : Run) :
    ((updSetPin a).run.run r).2.dev
      = r.dev.halfList.foldl (fun d h => (d.setf (pgUpd h) 0x130 47 0 a.step).setb (pgUpd h) 0x130 63 a.en) r.dev := rfl

/-- A root job for each slice named joins the engine's queue (R308). -/
theorem updRoots_rootQueue (a : UpdArgs) (r : Run) :
    (((updRoots a).run.run r).2.dev.upd a.half).rootQueue = (r.dev.upd a.half).rootQueue
      ++ (List.range a.count).map (fun i => { slice := a.first + i, step := 0, copy := 0, now := true }) :=
  congrArg Upd.rootQueue (Dev.upd_modUpd r.dev a.half _)

theorem updRelease_keys (a : UpdArgs) (r : Run) : ((updRelease a).run.run r).2.dev.keys = KV.erase r.dev.keys a.handle := rfl

/-- Settles O17: each row issues its operation's work, which ends as its run does, and operands at hand make it run. -/
theorem updateCommands : Obligations.UpdateCommands := by
  unfold Obligations.UpdateCommands
  refine ⟨fun r row s c x t hi ho valid => ⟨fun ran => ?_, fun ran => ?_⟩, fun r row s c x t hp ready => ?_,
    fun a r => ⟨updSetStep_dev a r, updSetPin_dev a r, updRoots_rootQueue a r, updRelease_keys a r⟩⟩
  · rw [exec_updRow row, issue_updAct hi ho valid ran, if_pos rfl]
  · rw [exec_updRow row, issue_updAct hi ho valid ran, if_neg Bool.false_ne_true]
  · obtain ⟨valid, ran⟩ := upd_runs hp.noRegs hp.plain ready
    rw [exec_updRow row, issue_updAct hp.issue hp.opcode valid ran]

end Sys2Proof.Machine

/-! PROOFS. The start and the end of a page's re-initialisation (R315, R352, R462, R467). -/

namespace Sys2Proof.Machine

/-! ### The commands are their meanings, on the machine as they find it -/

theorem exec_dspFinit (i : Nat) (w : Wr) (s : State) : exec (.dspFinit i w) s = .next (s.after (blkCtrlOf s.quiet .dsp i w)) := rfl
theorem exec_updFinit (i : Nat) (w : Wr) (s : State) : exec (.updFinit i w) s = .next (s.after (blkCtrlOf s.quiet .upd i w)) := rfl
theorem exec_tblFinit (i : Nat) (w : Wr) (s : State) : exec (.tblFinit i w) s = .next (s.after (blkCtrlOf s.quiet .tbl i w)) := rfl
theorem exec_arrFinit (i : Nat) (w : Wr) (s : State) : exec (.arrFinit i w) s = .next (s.after (blkCtrlOf s.quiet .arr i w)) := rfl
theorem exec_coreFinit (i : Nat) (w : Wr) (s : State) : exec (.coreFinit i w) s = .next (s.after (blkCtrlOf s.quiet .core i w)) := rfl
theorem exec_fabFinit (i : Nat) (w : Wr) (s : State) : exec (.fabFinit i w) s = .next (s.after (blkCtrlOf s.quiet .fab i w)) := rfl
theorem exec_finitDone (p : Nat) (s : State) : exec (.finitDone p) s = .next (s.after (finitDone s.quiet p)) := rfl

section
variable {d : Dev} {b : Blk} {i page : Nat} {w : Wr}

/-! ### FINIT written as 1 -/

/-- A non-secure write of BLK_CTRL that leaves HALT and EN as they stand and sets FINIT starts the re-initialisation (R466 to
R468). -/
theorem blkCtrlOf_finit (owner : pageBlk (b.page i) = some (b, i)) (may : d.mayWrite w.agent (b.page i) 0x010 = true)
    (nonsecure : d.agentSecure w.agent = false) (hit : wrHit w 1 = true)
    (halt : (d.merged (b.page i) 0x010 w).bit 2 = d.regb (b.page i) 0x010 2)
    (en : (d.merged (b.page i) 0x010 w).bit 0 = d.regb (b.page i) 0x010 0) (idle : d.regb (b.page i) 0x010 1 = false)
    (haltKept : d.setb (b.page i) 0x010 2 (d.regb (b.page i) 0x010 2) = d)
    (enKept : d.setb (b.page i) 0x010 0 (d.regb (b.page i) 0x010 0) = d) (finit : hasFinit b = true) :
    blkCtrlOf d b i w = (d.setb (b.page i) 0x010 1 true).finitStart b i := by
  unfold blkCtrlOf blkCtrl
  rw [if_pos owner, if_neg (by simp [may]), owner]
  dsimp only
  simp only [nonsecure, halt, en, haltKept, enKept, hit, idle, finit, Bool.and_false, Bool.false_eq_true, if_false, ite_self,
    Bool.and_not_self, Bool.and_assoc, Bool.not_false, Bool.and_self, if_true]

/-! ### FINIT_DONE -/

section
variable (present : d.present page = true) (runs : (pageHalf page).any d.running = true) (under : d.regb page 0x010 1 = true)
include present runs under

theorem finitDone_tbl (owner : pageBlk page = some (.tbl, i)) (free : (d.core i).tableBusy = false) :
    finitDone d page = d.setb page 0x010 1 false := by
  simp [finitDone, owner, hasFinit, present, runs, under, free]

/-- The tags go with the end of the arrays' re-initialisation (R467). -/
theorem finitDone_arr (owner : pageBlk page = some (.arr, i)) (free : (d.core i).arraysBusy = false) :
    finitDone d page = (d.clearTags i).setb page 0x010 1 false := by
  simp [finitDone, owner, hasFinit, present, runs, under, free]

end

/-- No array of a core keeps a valid tag once they are cleared (R467). -/
theorem Dev.arrays_clearTags (d : Dev) (c : Nat) :
    ((d.clearTags c).core c).arrays.all (fun a => !a.cur.valid && !a.shd.valid) = true := by
  rw [Dev.clearTags, Dev.core_modCore]
  simp

end

/-- Settles O26: FINIT starts what its block's re-initialisation does first, and FINIT_DONE ends an idle TBL or ARR page's. -/
theorem reinitialisation : Obligations.Reinitialisation := by
  unfold Obligations.Reinitialisation
  refine ⟨fun s b i w owner may nonsecure hit halt en idle haltKept enKept => ?_, fun s i =>
    ⟨fun owner present runs under free => ?_, fun owner present runs under free => ⟨?_, ?_⟩⟩⟩
  · have starts := blkCtrlOf_finit owner may nonsecure hit halt en idle haltKept enKept
    refine ⟨?_, ?_, ?_, ?_, ?_, ?_⟩ <;> rintro rfl
    · rw [exec_dspFinit, starts rfl]; rfl
    · rw [exec_updFinit, starts rfl]; rfl
    · rw [exec_tblFinit, starts rfl]; rfl
    · rw [exec_arrFinit, starts rfl]; rfl
    · rw [exec_coreFinit, starts rfl]; rfl
    · intro listed
      rw [exec_fabFinit, starts rfl, Dev.finitStart, if_neg listed]
  · rw [exec_finitDone, finitDone_tbl present runs under owner free]
  · rw [exec_finitDone, finitDone_arr present runs under owner free]
  · exact Dev.arrays_clearTags s.quiet i

end Sys2Proof.Machine

/-! PROOFS. An update engine's transactions, its root jobs and the scan of its step record (R304, R307, R312, R317 to R319). -/

namespace Sys2Proof.Machine

/-! ### The commands are their meanings, on the machine as they find it -/

theorem exec_sliceUpdateStart (h : Nat) (s : State) : exec (.sliceUpdateStart h) s = .next (s.after (sliceUpdateStart s.quiet h)) := rfl
theorem exec_sliceCommit (h : Nat) (s : State) : exec (.sliceCommit h) s = .next (s.after (sliceCommit s.quiet h)) := rfl
theorem exec_rootJobStart (h : Nat) (s : State) : exec (.rootJobStart h) s = .next (s.after (rootJobStart s.quiet h)) := rfl
theorem exec_rootJobDone (h : Nat) (s : State) : exec (.rootJobDone h) s = .next (s.after (rootJobDone s.quiet h)) := rfl
theorem exec_updScanComplete (h : Nat) (s : State) : exec (.updScanComplete h) s = .next (s.after (updScanComplete s.quiet h)) := rfl

section
variable {d e : Dev} {h : Nat}

/-! ### The beginning of an update (R304, R312) -/

/-- The machine on which the engine works on the arrival that it has taken from its queue. -/
def Dev.arrivalTaken (d : Dev) (h : Nat) (rest : List Arrival) : Dev := d.modUpd h (fun u => { u with arrivals := rest })

section
variable {a : Arrival} {rest : List Arrival} (starts : d.canStart h = true) (head : (d.upd h).arrivals = a :: rest)
include starts head

/-- An update whose copy writes are done stands as the one whose commit is due. -/
theorem sliceUpdateStart_begun {n : Bool} (ran : runU (d.arrivalTaken h rest) (updateSlice h a) = (.ok n, e)) :
    sliceUpdateStart d h = e.modUpd h (fun u => { u with current := some { slice := a.slice, step := a.step, newRoots := n } }) := by
  unfold Dev.arrivalTaken at ran
  simp [sliceUpdateStart, starts, head, ran]

/-- A slice that meets a value that is not finite ends SKIPPED (R318). -/
theorem sliceUpdateStart_skipped (ran : runU (d.arrivalTaken h rest) (updateSlice h a) = (.error .nonfinite, e)) :
    sliceUpdateStart d h = (e.endSkipped h a.slice a.step).refill h := by
  unfold Dev.arrivalTaken at ran
  simp [sliceUpdateStart, starts, head, ran]

/-- One that meets a fault or poisoned control data ends FAULT (R319). -/
theorem sliceUpdateStart_faulted {stop : UStop} (ran : runU (d.arrivalTaken h rest) (updateSlice h a) = (.error stop, e))
    (answered : stop ≠ .stall) (finite : stop ≠ .nonfinite) :
    sliceUpdateStart d h = (e.endFault h a.slice a.step stop).refill h := by
  unfold Dev.arrivalTaken at ran
  cases stop with
  | fault | poison => simp [sliceUpdateStart, starts, head, ran]
  | nonfinite => exact absurd rfl finite
  | stall => exact absurd rfl answered

end

/-! ### The commit (R307, R312) -/

/-- What a commit leaves in the engine: the update is over, roots that it took are used up, and a step that is a multiple of N
has new roots under way (R307). -/
def Upd.committed (u : Upd) (c : Update) (n sel : Nat) : Upd :=
  let nr := if c.newRoots then KV.erase u.newRoots c.slice else u.newRoots
  let due := c.step % n = 0
  { u with current := none,
           newRoots := if due then KV.set nr c.slice (c.step, false) else nr,
           rootQueue := if due then u.rootQueue ++ [{ slice := c.slice, step := c.step, copy := sel, now := false }] else u.rootQueue }

theorem sliceCommit_ok {c : Update} {t : Slice} {sel : Nat} (due : (d.upd h).current = some c) (live : d.updLive h = true)
    (loaded : (d.upd h).loaded = true) (ran : runU d (commitWord h c) = (.ok (t, sel), e)) :
    sliceCommit d h = ((((e.srecWrite h c.slice 3 c.step).count (pgUpd h) 0x01 1).doneAdd h c.slice).modUpd h
      (fun u => u.committed c t.n sel)).refill h := by
  unfold sliceCommit
  simp only [due, live, loaded, ran, Bool.not_true, Bool.or_self, Bool.false_eq_true, if_false]
  rfl

/-! ### Root jobs (R307) -/

section
variable {j : RootJob}

theorem rootJobStart_idle {rest : List RootJob} (head : (d.upd h).rootQueue = j :: rest) (ready : d.updReady h = true)
    (free : (d.upd h).rootRun = none) (ended : (d.upd h).current = none) (idle : d.canStart h = false) :
    rootJobStart d h = d.modUpd h (fun u => { u with rootQueue := rest, rootRun := some j }) := by
  simp [rootJobStart, head, ready, free, ended, idle]

theorem rootJobDone_ok (runs : (d.upd h).rootRun = some j) (ready : d.updReady h = true)
    (ran : runU d (rootSlice h j) = (.ok (), e)) :
    rootJobDone d h = (e.modUpd h (fun u => { u with rootRun := none, newRoots := rootsComputed u j })).count (pgUpd h) 0x07 1 := by
  unfold rootJobDone
  simp only [runs, ready, ran, Bool.not_true, Bool.false_eq_true, if_false]
  rfl

/-- A root job that meets a fault ends its slice FAULT, and its roots are no longer expected (R319). -/
theorem rootJobDone_faulted {stop : UStop} (runs : (d.upd h).rootRun = some j) (ready : d.updReady h = true)
    (ran : runU d (rootSlice h j) = (.error stop, e)) (answered : stop ≠ .stall) :
    rootJobDone d h = (e.modUpd h (fun u =>
      { u with rootRun := none, newRoots := if j.now then u.newRoots else KV.erase u.newRoots j.slice })).endFault h j.slice j.step stop := by
  unfold rootJobDone
  cases stop with
  | fault | poison | nonfinite => simp only [runs, ready, ran, Bool.not_true, Bool.false_eq_true, if_false]
  | stall => exact absurd rfl answered

end

/-! ### The scan (R317) -/

theorem updScanComplete_scanning (scan : d.scanning h = true) (live : d.updLive h = true) :
    updScanComplete d h = (((checkAll false d h).setb (pgUpd h) 0x138 22 false).setIsr (pgUpd h) 4).refill h := by
  simp [updScanComplete, scan, live]

end

/-- Settles O39: each command of the engine, by how its accesses to memory end. -/
theorem updateEngine : Obligations.UpdateEngine := by
  unfold Obligations.UpdateEngine
  refine ⟨fun s h a rest starts head answered => ?_, fun s h c t sel due live loaded ran => ?_, fun s h =>
    ⟨fun j rest head ready free ended idle => ?_, fun j runs ready answered => ?_, fun scan live => ?_⟩⟩
  · rw [exec_sliceUpdateStart]
    rcases ran : runU (s.quiet.modUpd h (fun u => { u with arrivals := rest })) (updateSlice h a) with ⟨stop | n, e⟩
    · rw [ran] at answered
      cases stop with
      | nonfinite => rw [sliceUpdateStart_skipped starts head ran]
      | stall => exact absurd rfl answered
      | fault | poison => rw [sliceUpdateStart_faulted starts head ran UStop.noConfusion UStop.noConfusion]
    · rw [sliceUpdateStart_begun starts head ran]
  · rw [exec_sliceCommit, sliceCommit_ok due live loaded (Prod.ext ran rfl)]
    rfl
  · rw [exec_rootJobStart, rootJobStart_idle head ready free ended idle]
  · rw [exec_rootJobDone]
    rcases ran : runU s.quiet (rootSlice h j) with ⟨stop | _, e⟩
    · rw [rootJobDone_faulted runs ready ran (fun stall => answered (by rw [ran, stall]))]
    · rw [rootJobDone_ok runs ready ran]
  · rw [exec_updScanComplete, updScanComplete_scanning scan live]

end Sys2Proof.Machine

/-! PROOFS. The clear of the key registry, and TBL_CTRL (R324, R335, R354). -/

namespace Sys2Proof.Machine

/-! ### The commands are their meanings, on the machine as they find it -/

theorem exec_keyRegistryClear (w : Wr) (s : State) : exec (.keyRegistryClear w) s = .next (s.after (keyClear s.quiet w)) := rfl
theorem exec_tblCtrlWrite (c : Nat) (w : Wr) (s : State) : exec (.tblCtrlWrite c w) s = .next (s.after (tblCtrl s.quiet c w)) := rfl

section
variable {d : Dev} {c : Nat} {w : Wr}

/-! ### The key registry (R324) -/

theorem keyClear_taken (may : d.mayWrite w.agent pgSys 0x508 = true) (go : wrHit w 0 = true) : keyClear d w = { d with keys := [] } := by
  simp [keyClear, may, go]

theorem keyClear_ignored (h : (d.mayWrite w.agent pgSys 0x508 && wrHit w 0) = false) : keyClear d w = d := by
  simp [keyClear, h]

/-! ### TBL_CTRL (R335, R354) -/

/-- The formats that the table engine has planes for are INT1, INT2 and INT4 (R335). -/
theorem planesOf_ne_zero {fmt : Nat} : planesOf fmt ≠ 0 ↔ fmt = 0x10 ∨ fmt = 0x11 ∨ fmt = 0x13 := by
  unfold planesOf
  split_ifs <;> omega

theorem tblCtrl_busy (busy : (d.core c).tableBusy = true) : tblCtrl d c w = d := by
  simp [tblCtrl, busy]

/-- A write that the page takes while no TABLE runs keeps W_FMT where it names no format of the engine's. -/
theorem tblCtrl_taken (core : c < 8) (may : d.mayWrite w.agent (pgTbl c) 0x100 = true) (free : (d.core c).tableBusy = false) :
    let v := d.merged (pgTbl c) 0x100 w
    tblCtrl d c w = d.setReg (pgTbl c) 0x100 (BitVec.ofNat 64
      ((if v.field 5 0 = 0x10 ∨ v.field 5 0 = 0x11 ∨ v.field 5 0 = 0x13 then v.field 5 0 else d.regf (pgTbl c) 0x100 5 0)
        + v.field 9 6 * 64)) := by
  simp only [← planesOf_ne_zero, ite_not]
  simp [tblCtrl, core, may, free]

end

/-- Settles O40: the clear and the write are taken under their conditions, and else nothing changes. -/
theorem keysAndTables : Obligations.KeysAndTables := by
  unfold Obligations.KeysAndTables
  refine fun s w c => ⟨fun may go => ?_, fun denied => ?_, fun core may free => ?_, fun busy => ?_⟩
  · rw [exec_keyRegistryClear, keyClear_taken may go]
  · rw [exec_keyRegistryClear, keyClear_ignored denied]
  · rw [exec_tblCtrlWrite, tblCtrl_taken core may free]
  · rw [exec_tblCtrlWrite, tblCtrl_busy busy]

end Sys2Proof.Machine

/-! PROOFS. How a COLL is issued to its network interface (R378, R382, R385). -/

namespace Sys2Proof.Machine

/-- What a COLL does: it passes its checks, and is issued to the interface of its core's half. -/
def collSent (w : Who) (k : Desc) : M Unit := do
  let a ← parseColl w k
  modDev (fun d => d.issueColl w.core w.ctx a)

section
variable {d : Dev} {c x op : Nat} {t : Ctx} {a : CollArgs}

/-- The row of a command's operation validates it, and issues it. -/
theorem collAct_eq (w : Who) {k : Desc} (ho : k.opc = 6) :
    collAct op w k = parseColl w k >>= fun a => if a.op = op then do
        modDev (fun d => d.issueColl w.core w.ctx a)
        return some false
      else return none := by
  unfold collAct
  rw [if_pos ho]

/-- A COLL of its row's operation that passes its checks is issued, and its task stays RUNNING (R382, R385). -/
theorem issue_collAct (hi : d.issuable c x t) (ho : t.cur.opc = 6) (valid : (runCmd d c x t parseColl).1 = .ok a) (kind : a.op = op) :
    issue d c x (collAct op) = d.underway c x t collSent := by
  have parsed : runCmd d c x t parseColl = (.ok a, (runCmd d c x t parseColl).2) := Prod.ext valid rfl
  have sent := (runCmd_of_bind (act' := collSent) rfl parsed).trans (run_modDev ..)
  have work := runCmd_of_bind (collAct_eq (op := op) _ ho) parsed
  rw [if_pos kind, run_bind, run_modDev] at work
  rw [issue_ran hi work, if_neg Bool.false_ne_true, Dev.underway, sent]

end

/-- Settles O16: each row issues its operation's work, which after validation is the issue to the interface, and a structure at hand
passes the checks. -/
theorem collIssues : Obligations.CollIssues := by
  unfold Obligations.CollIssues
  refine ⟨fun r row s c x t a hi ho valid kind => ?_, fun r row s c x t a hp ready kind => ?_⟩
  · rw [exec_collRow row, issue_collAct hi ho valid kind]
    rfl
  · rw [exec_collRow row, issue_collAct hp.issue hp.opcode (coll_runs hp.noRegs hp.plain ready) kind]
    rfl

end Sys2Proof.Machine

/-! PROOFS. Failure, training and return of a fabric link, and writes of FAB_CTRL (R356 to R358, R392, R459). -/

namespace Sys2Proof.Machine

/-! ### The commands are their meanings, on the machine as they find it -/

theorem exec_linkFailure (n : Nat) (s : State) : exec (.linkFailure n) s = .next (s.after (linkFailure s.quiet n)) := rfl
theorem exec_linkRetryTimer (n : Nat) (s : State) : exec (.linkRetryTimer n) s = .next (s.after (linkRetry s.quiet n)) := rfl
theorem exec_linkUp (n width lanes : Nat) (s : State) :
    exec (.linkUp n width lanes) s = .next (s.after (linkUp s.quiet n width lanes)) := rfl
theorem exec_fabRetrain (n : Nat) (w : Wr) (s : State) : exec (.fabRetrain n w) s = .next (s.after (fabCtrlWrite s.quiet n w)) := rfl
theorem exec_fabModeWrite (n : Nat) (w : Wr) (s : State) :
    exec (.fabModeWrite n w) s = .next (s.after (fabCtrlWrite s.quiet n w)) := rfl

section
variable {d : Dev} {n : Nat}

/-! ### Failure and training (R356 to R358) -/

theorem linkFailure_up (live : d.portLive n = true) (up : d.portState n = 2) :
    linkFailure d n = (d.train n (widthIndex (d.regf (pgFab n) 0x108 8 5))).setIsr (pgFab n) 0 := by
  simp [linkFailure, live, up]

theorem linkRetry_down (live : d.portLive n = true) (down : d.portState n = 3) : linkRetry d n = d.train n 0 := by
  simp [linkRetry, live, down]

/-- The port is UP at a width on its lanes, and its ISR tells so. -/
def Dev.linkRaised (d : Dev) (n width lanes : Nat) : Dev :=
  ((d.modPort n (fun p => { p with width := width, attempt := widthIndex lanes, fails := 0 })).setPortState n 2 width lanes).setIsr (pgFab n) 2

/-- HELLO of a half whose unit runs, and then the frames that waited for a port (R459). -/
def Dev.greet (d : Dev) (n : Nat) : Dev := (if d.unitLive (n / 8) then d.sendHello n else d).drainCtl

/-- Training that succeeds at the width of the port's last time UP, or for the first time, tells no change of width. -/
theorem linkUp_trained {width lanes : Nat} (live : d.portLive n = true) (training : d.portState n = 1)
    (listed : (width, lanes) ∈ widthList) (wide : d.minWidth n ≤ width) (due : (d.port n).attempt ≤ widthIndex lanes)
    (kept : (d.port n).width = 0 ∨ (d.port n).width = width) :
    linkUp d n width lanes = (d.linkRaised n width lanes).greet n := by
  have same : ¬ ((d.port n).width ≠ 0 ∧ (d.port n).width ≠ width) := fun ⟨before, other⟩ => kept.elim before other
  unfold linkUp
  rw [if_pos (by simp [live, training, listed, wide, due])]
  dsimp only
  rw [if_neg same]
  rfl

/-- Success at a place of the width list before the one being tried is none. -/
theorem linkUp_early {width lanes : Nat} (early : widthIndex lanes < (d.port n).attempt) : linkUp d n width lanes = d := by
  have : ¬ widthIndex lanes ≥ (d.port n).attempt := Nat.not_le_of_lt early
  simp [linkUp, this]

/-! ### Writes of FAB_CTRL (R392) -/

variable {w : Wr}

theorem fabCtrlWrite_taken (present : d.portPresent n = true) (may : d.mayWrite w.agent (pgFab n) 0x100 = true) :
    fabCtrlWrite d n w = fabRetrain (fabMode (d.plainWrite (pgFab n) 0x100 w) n w) n w := by
  simp [fabCtrlWrite, present, may]

theorem fabMode_same (same : (d.merged (pgFab n) 0x100 w).field 1 0 = d.regf (pgFab n) 0x100 1 0) : fabMode d n w = d := by
  simp [fabMode, same]

theorem fabMode_other {m : Nat} (mode : (d.merged (pgFab n) 0x100 w).field 1 0 = m) (enabled : d.modeEnabled m = true) (on : m ≠ 0)
    (other : m ≠ d.regf (pgFab n) 0x100 1 0) : fabMode d n w = (d.setf (pgFab n) 0x100 1 0 m).train n 0 := by
  simp [fabMode, mode, enabled, on, other]

theorem fabRetrain_hit (hit : wrHit w 5 = true) (on : d.regf (pgFab n) 0x100 1 0 ≠ 0) : fabRetrain d n w = d.train n 0 := by
  simp [fabRetrain, hit, on]

theorem fabRetrain_miss (miss : wrHit w 5 = false) : fabRetrain d n w = d := by
  simp [fabRetrain, miss]

end

/-- Settles O41: each event is its case of the model's function, and a write of FAB_CTRL takes MODE and then RETRAIN. -/
theorem linkStates : Obligations.LinkStates := by
  unfold Obligations.LinkStates
  refine fun s n => ⟨fun live up => ?_, fun live down => ?_, fun wd m live training listed wide =>
    ⟨fun due kept => ?_, fun early => ?_⟩, fun w present may hit same on => ?_, fun w m present may miss mode _ on other enabled => ?_⟩
  · rw [exec_linkFailure, linkFailure_up live up]
  · rw [exec_linkRetryTimer, linkRetry_down live down]
  · rw [exec_linkUp, linkUp_trained live training listed wide due kept]
    rfl
  · rw [exec_linkUp, linkUp_early early]
  · rw [exec_fabRetrain, fabCtrlWrite_taken present may, fabMode_same same, fabRetrain_hit hit on]
  · rw [exec_fabModeWrite, fabCtrlWrite_taken present may, fabMode_other mode enabled on other, fabRetrain_miss miss]

end Sys2Proof.Machine

/-! PROOFS. The sending of DATA frames, and the timers of the transport (R369, R371, R373, R374). -/

namespace Sys2Proof.Machine

/-! ### The commands are their meanings, on the machine as they find it -/

theorem exec_dataFrameSend (h dst chan : Nat) (s : State) :
    exec (.dataFrameSend h dst chan) s = .next (s.after (dataSend s.quiet h dst chan)) := rfl
theorem exec_ackTimer (h dst : Nat) (s : State) : exec (.ackTimer h dst) s = .next (s.after (ackTimer s.quiet h dst)) := rfl
theorem exec_retransmitTimeout (h dst psn : Nat) (s : State) :
    exec (.retransmitTimeout h dst psn) s = .next (s.after (retransmit s.quiet h dst psn)) := rfl
theorem exec_peerSilenceTimeout (h dst : Nat) (s : State) :
    exec (.peerSilenceTimeout h dst) s = .next (s.after (peerSilence s.quiet h dst)) := rfl
theorem exec_keepaliveTimer (h dst : Nat) (s : State) :
    exec (.keepaliveTimer h dst) s = .next (s.after (keepalive s.quiet h dst)) := rfl

section
variable {d r : Dev} {h dst : Nat} {t : TxFrame}

/-! ### DATA frames (R369, R374) -/

/-- A queued frame as it leaves: with the next PSN of its peer and the device's ID. -/
def Dev.numbered (d : Dev) (dst : Nat) (t : TxFrame) : Frame := { t.frame with psn := (d.peer dst).txPsn, src := d.devId }

/-- What the sending of a flow's frame leaves, once a port has taken it. -/
def Dev.dataSent (d r : Dev) (h dst chan : Nat) (t : TxFrame) (f : Frame) : Dev :=
  let e := r.modNi h (fun x => { x with txq := x.txq.erase t, unacked := x.unacked ++ [{ t with frame := f, count := 1 }] })
  let e := (e.modPeer dst (fun p => { p with txPsn := (p.txPsn + 1) % 2 ^ 32 })).setCredit dst chan (d.flowCredit h dst chan - 1)
  let e := e.startPace dst
  if f.first && e.mayRecord (e.taskSecure t.core t.ctx) then e.traceAft h 0x10 f dst t.frames else e

theorem dataSend_sent {chan : Nat}
    (first : (d.ni h).txq.find? (fun t => t.frame.dst == dst && t.frame.chan == chan && !t.dead) = some t)
    (live : d.niLive h = true) (named : d.devIdValid = true) (here : (d.peer dst).absent = false) (credit : d.flowCredit h dst chan ≠ 0)
    (taken : d.sendTo h (pickOf (d.numbered dst t) t.lane) (d.numbered dst t) = (r, true)) :
    dataSend d h dst chan = d.dataSent r h dst chan t (d.numbered dst t) := by
  unfold Dev.numbered at *
  unfold dataSend
  dsimp only
  rw [first]
  dsimp only
  rw [if_neg (by simp [live, named, here, credit]), taken]
  rfl

/-! ### Timers (R369, R371, R373) -/

theorem ackTimer_due (live : d.niLive h = true) (named : d.devIdValid = true) (due : (d.peer dst).toAck ≠ 0) :
    ackTimer d h dst = d.sendAck h dst := by
  simp [ackTimer, live, named, due]

section
variable {psn : Nat} (live : d.niLive h = true)
  (unacked : (d.ni h).unacked.find? (fun t => t.frame.dst == dst && t.frame.psn == psn && !t.dead) = some t)
include live unacked

/-- The eighth transmission was the last one (R371). -/
theorem retransmit_spent (spent : 8 ≤ t.count) : retransmit d h dst psn = d.makeAbsent h dst := by
  unfold retransmit
  rw [unacked]
  dsimp only
  rw [if_neg (by simp [live]), if_pos spent]

variable (left : t.count < 8) (named : d.devIdValid = true)
include left named

/-- A frame goes out again on the port that a free value chooses, and counts; or, where no port takes it, waits. -/
theorem retransmit_again {b : Bool} (sent : d.takeFree.1.sendTo h d.takeFree.2.toNat t.frame = (r, b)) :
    retransmit d h dst psn = if b then
      (r.modNi h (fun x => { x with unacked := x.unacked.map (fun u => if u = t then { u with count := u.count + 1 } else u) })).count
        (pgNi h) 0x20 1
      else r := by
  unfold retransmit
  rw [unacked]
  dsimp only
  rw [if_neg (by simp [live]), if_neg (Nat.not_le_of_lt left), if_neg (by simp [named]), sent]
  cases b <;> rfl

end

section
variable (live : d.niLive h = true) (opened : d.openWith h dst = true) (here : (d.peer dst).absent = false)
include live opened here

theorem peerSilence_open : peerSilence d h dst = d.makeAbsent h dst := by
  simp [peerSilence, live, opened, here]

theorem keepalive_open (named : d.devIdValid = true) : keepalive d h dst = d.sendCtl h (d.blankFrame 5 dst) := by
  simp [keepalive, live, named, opened, here]

end

end

/-- Settles O42: a frame that a port takes leaves as `Dev.dataSent` says, and each timer is its case of the model's function. -/
theorem transportSends : Obligations.TransportSends := by
  unfold Obligations.TransportSends
  refine ⟨fun s h dst chan t r first live named here credit taken => ?_, fun s h dst live => ⟨fun named due => ?_,
    fun psn t unacked left named => ⟨fun e sent => ?_, fun e sent => ?_⟩, fun psn t unacked spent => ?_,
    fun opened here => ⟨?_, fun named => ?_⟩⟩⟩
  · rw [exec_dataFrameSend, dataSend_sent first live named here credit taken]
    rfl
  · rw [exec_ackTimer, ackTimer_due live named due]
  · rw [exec_retransmitTimeout, retransmit_again live unacked left named sent, if_pos rfl]
  · rw [exec_retransmitTimeout, retransmit_again live unacked left named sent, if_neg Bool.false_ne_true]
  · rw [exec_retransmitTimeout, retransmit_spent live unacked spent]
  · rw [exec_peerSilenceTimeout, peerSilence_open live opened here]
  · rw [exec_keepaliveTimer, keepalive_open live opened here named]

end Sys2Proof.Machine

/-! PROOFS. The reception of frames: for this device's interface, on their link, and for others (R359, R360, R365, R368 to R374). -/

namespace Sys2Proof.Machine

/-! ### The commands are their meanings, on the machine as they find it -/

theorem exec_aftDataReceive (n : Nat) (p : Packet) (s : State) :
    exec (.aftDataReceive n p) s = .next (s.after (aftIn s.quiet n 0 p (fun d f => dataIn d (n / 8) f))) := rfl
theorem exec_aftAckReceive (n : Nat) (p : Packet) (s : State) :
    exec (.aftAckReceive n p) s = .next (s.after (aftIn s.quiet n 1 p (fun d f => ackIn d (n / 8) f))) := rfl
theorem exec_aftNakReceive (n : Nat) (p : Packet) (s : State) :
    exec (.aftNakReceive n p) s = .next (s.after (aftIn s.quiet n 2 p nakIn)) := rfl
theorem exec_aftCreditReceive (n : Nat) (p : Packet) (s : State) :
    exec (.aftCreditReceive n p) s = .next (s.after (aftIn s.quiet n 3 p (fun d f => creditIn d (n / 8) f))) := rfl
theorem exec_aftKeepaliveReceive (n : Nat) (p : Packet) (s : State) :
    exec (.aftKeepaliveReceive n p) s = .next (s.after (aftIn s.quiet n 5 p (fun d _ => d))) := rfl
theorem exec_aftMgmtReceive (n : Nat) (p : Packet) (s : State) :
    exec (.aftMgmtReceive n p) s = .next (s.after (linkIn s.quiet n 6 p (fun d f => mgmtIn d n f))) := rfl
theorem exec_llrNakReceive (n : Nat) (p : Packet) (s : State) :
    exec (.llrNakReceive n p) s = .next (s.after (linkIn s.quiet n 8 p (fun d f => llrNak d n f))) := rfl
theorem exec_llrAckReceive (n : Nat) (p : Packet) (s : State) :
    exec (.llrAckReceive n p) s = .next (s.after (linkIn s.quiet n 7 p (fun d f => llrAck d n f))) := rfl
theorem exec_frameRelay (n : Nat) (p : Packet) (s : State) : exec (.frameRelay n p) s = .next (s.after (frameRelay s.quiet n p)) := rfl
theorem exec_pauseFrameReceive (n : Nat) (s : State) : exec (.pauseFrameReceive n) s = .next (s.after (pauseIn s.quiet n)) := rfl
theorem exec_fcsError (n : Nat) (l : LinkLoss) (s : State) : exec (.fcsError n l) s = .next (s.after (linkLoss s.quiet n l)) := rfl

section
variable {d e : Dev} {n : Nat} {p : Packet} {f : Frame}

/-! ### Frames that pass the checks of reception (R360, R372) -/

/-- The frame that reception answers is the one that the packet's bytes hold. -/
theorem frame_of_receive (passed : (receive d n p).2 = some f) : p.frame? = some f := by
  unfold receive at passed
  split at passed
  · cases passed
  · extract_lets counted at passed
    split at passed
    · cases passed
    next g held =>
      extract_lets marked turn at passed
      split at passed
      · cases passed
      · split at passed
        · cases passed
        · exact held.trans passed

section
variable (passed : receive d n p = (e, some f))
include passed

/-- A transport frame for this device, of a present peer, reaches its interface with the ECN of its packet (R360, R375). -/
theorem aftIn_taken {type : Nat} {act : Dev → Frame → Dev} (named : e.devIdValid = true) (mine : f.dst = e.devId)
    (good : p.fcsOk = true) (here : (e.peer f.src).absent = false) (live : e.niLive (n / 8) = true) (kind : f.type = type) :
    aftIn d n type p act = act e { f with ecn := p.ecn f } := by
  unfold aftIn
  rw [frame_of_receive (congrArg Prod.snd passed), passed]
  dsimp only
  rw [if_neg (not_not_intro kind), if_neg (by simp [named]), if_neg (not_not_intro mine), if_neg (by simp [good, here, live])]

/-- A frame that stays on its link, with a good FCS, has its effect there. -/
theorem linkIn_taken {type : Nat} {act : Dev → Frame → Dev} (good : p.fcsOk = true) (kind : f.type = type) :
    linkIn d n type p act = act e f := by
  unfold linkIn
  rw [frame_of_receive (congrArg Prod.snd passed), passed]
  dsimp only
  rw [if_neg (not_not_intro kind), if_pos good]

/-- A transport frame for another device is relayed (R365). -/
theorem frameRelay_other (transport : f.type ≠ 6) (leaves : f.isLlr = false) (named : e.devIdValid = true) (other : f.dst ≠ e.devId) :
    frameRelay d n p = relay e n p f := by
  unfold frameRelay
  rw [passed]
  dsimp only
  rw [if_pos (by simp [transport, leaves, named, other])]

end

/-! ### DATA out of turn (R368) -/

section
variable {h : Nat} (plain : f.coll = false)
include plain

/-- A DATA frame that was accepted already is counted, and acknowledged again. -/
theorem dataIn_duplicate
    (old : (f.psn + 2 ^ 32 - (d.peer f.src).rxNext) % 2 ^ 32 ≥ 2 ^ 31 ∨ f.psn ∈ (d.peer f.src).rxSet) :
    dataIn d h f = (d.count (pgNi h) 0x21 1).sendAck h f.src := by
  unfold dataIn
  dsimp only
  rw [if_neg (by simp [plain]), if_pos (old.imp id List.contains_iff_mem.2)]

/-- One too far ahead is dropped. -/
theorem dataIn_tooFar (later : (f.psn + 2 ^ 32 - (d.peer f.src).rxNext) % 2 ^ 32 < 2 ^ 31) (new : f.psn ∉ (d.peer f.src).rxSet)
    (far : 4096 ≤ (f.psn + 2 ^ 32 - (d.peer f.src).rxNext) % 2 ^ 32) : dataIn d h f = d := by
  have turn : ¬ ((f.psn + 2 ^ 32 - (d.peer f.src).rxNext) % 2 ^ 32 ≥ 2 ^ 31 ∨ (d.peer f.src).rxSet.contains f.psn = true) :=
    fun old => old.elim (Nat.not_le_of_lt later) (fun held => new (List.contains_iff_mem.1 held))
  unfold dataIn
  dsimp only
  rw [if_neg (by simp [plain]), if_neg turn, if_pos far]

end

/-! ### Frames of the link (R359, R372) -/

/-- The link sends again what its replay buffer holds from the expected LSEQ on (R372). -/
theorem llrNak_replays (retry : d.llrOn n = true) (held : (d.port n).replay.dropWhile (fun g => g.1 != f.lseq) ≠ []) :
    llrNak d n f =
      let rest := (d.port n).replay.dropWhile (fun g => g.1 != f.lseq)
      rest.foldl (fun d g => (d.count (pgFab n) 0x01 1).emit (.frame n g.2))
        ((d.modPort n (fun p => { p with replay := rest })).count (pgFab n) 0x05 1) := by
  unfold llrNak
  dsimp only
  rw [if_neg (by simp only [retry, List.isEmpty_iff, held]; simp)]

theorem pauseIn_up (up : d.portUp n = true) : pauseIn d n = d.count (pgFab n) 0x08 1 := if_pos up

theorem linkLoss_up {l : LinkLoss} (up : d.portUp n = true) :
    linkLoss d n l =
      let e := d.count (pgFab n) 0x04 (if l = .fec then 1 else 0)
      if e.llrOn n then e.askReplay n else e := by
  unfold linkLoss
  rw [if_neg (by simp [up])]

end

/-- Settles O43: a frame that passes the checks of reception reaches the function of its type, and a DATA frame out of turn goes
no further than its PSN. -/
theorem frameReception : Obligations.FrameReception := by
  unfold Obligations.FrameReception
  refine ⟨fun s n p f d passed named mine good here live => ⟨fun kind => ?_, fun kind => ?_, fun kind => ?_, fun kind => ?_, fun kind => ?_⟩,
    fun d h f plain => ⟨dataIn_duplicate plain, dataIn_tooFar plain⟩,
    fun s n p f d passed => ⟨fun good kind => ?_, fun good kind retry held => ?_, fun good kind => ?_,
      fun transport leaves named other => ?_⟩, fun s n up => ⟨?_, fun l => ?_⟩⟩
  · rw [exec_aftDataReceive, aftIn_taken passed named mine good here live kind]
  · rw [exec_aftAckReceive, aftIn_taken passed named mine good here live kind]
  · rw [exec_aftNakReceive, aftIn_taken passed named mine good here live kind]
  · rw [exec_aftCreditReceive, aftIn_taken passed named mine good here live kind]
    rfl
  · rw [exec_aftKeepaliveReceive, aftIn_taken passed named mine good here live kind]
  · rw [exec_aftMgmtReceive, linkIn_taken passed good kind]
  · rw [exec_llrNakReceive, linkIn_taken passed good kind, llrNak_replays retry held]
  · rw [exec_llrAckReceive, linkIn_taken passed good kind]
    rfl
  · rw [exec_frameRelay, frameRelay_other passed transport leaves named other]
  · rw [exec_pauseFrameReceive, pauseIn_up up]
  · rw [exec_fcsError, linkLoss_up up]
    rfl

end Sys2Proof.Machine

/-! PROOFS. Pacing after a window, SYS_ROUTE_INV and FAB_PEER_CLR (R363, R373, R376). -/

namespace Sys2Proof.Machine

/-! ### The commands are their meanings, on the machine as they find it -/

theorem exec_rateControlWindow (h dst : Nat) (s : State) :
    exec (.rateControlWindow h dst) s = .next (s.after (rateWindow s.quiet h dst)) := rfl
theorem exec_routeInvalidate (w : Wr) (s : State) : exec (.routeInvalidate w) s = .next (s.after (routeInv s.quiet w)) := rfl
theorem exec_routeInvDone (s : State) : exec .routeInvDone s = .next (s.after (routeInvDone s.quiet)) := rfl
theorem exec_peerClear (h : Nat) (w : Wr) (s : State) : exec (.peerClear h w) s = .next (s.after (peerClear s.quiet h w)) := rfl

/-! ### The pacing rate (R376) -/

section
variable (p : Pace) (line hi lo ai rmin : Nat)

/-- The rate ends at no more than the line rate, and the window's counts begin again. -/
theorem nextPace_window : (nextPace p line hi lo ai rmin).1.rate ≤ line
    ∧ (nextPace p line hi lo ai rmin).1.marks = 0 ∧ (nextPace p line hi lo ai rmin).1.acked = 0 := by
  unfold nextPace
  split
  · exact ⟨Nat.min_le_right .., rfl, rfl⟩
  · split
    · exact ⟨Nat.min_le_right .., rfl, rfl⟩
    · split
      · exact ⟨Nat.min_le_right .., rfl, rfl⟩
      · exact ⟨Nat.min_le_right .., rfl, rfl⟩

variable {p line hi lo ai rmin} (window : p.acked ≠ 0)
include window

/-- More than HI of the frames marked cuts the rate. -/
theorem nextPace_cut (marked : p.marks * 256 > hi * p.acked) :
    nextPace p line hi lo ai rmin =
      ({ rate := min (max (p.rate * max ((p.acked - p.marks) * 2) p.acked / (2 * p.acked)) (rmin * 256)) line,
         clean := 0, marks := 0, acked := 0 }, true) := by
  unfold nextPace
  rw [if_neg window, if_pos marked]

/-- Up to HI and more than LO holds it. -/
theorem nextPace_hold (within : p.marks * 256 ≤ hi * p.acked) (marked : lo * p.acked < p.marks * 256) :
    nextPace p line hi lo ai rmin = ({ rate := min p.rate line, clean := 0, marks := 0, acked := 0 }, false) := by
  unfold nextPace
  rw [if_neg window, if_neg (Nat.not_lt_of_le within), if_pos marked]

/-- Up to LO raises it. -/
theorem nextPace_raise (order : lo ≤ hi) (within : p.marks * 256 ≤ lo * p.acked) :
    nextPace p line hi lo ai rmin =
      ({ rate := min (p.rate + ai * 256 * min (1 + (p.clean + 1) / 4) 8) line, clean := p.clean + 1, marks := 0, acked := 0 }, false) := by
  have low : p.marks * 256 ≤ hi * p.acked := within.trans (Nat.mul_le_mul_right _ order)
  unfold nextPace
  rw [if_neg window, if_neg (Nat.not_lt_of_le low), if_neg (Nat.not_lt_of_le within)]

/-- A cut leaves at least half of the rate. -/
theorem half_le_cut : p.rate / 2 ≤ p.rate * max ((p.acked - p.marks) * 2) p.acked / (2 * p.acked) := by
  rw [Nat.le_div_iff_mul_le (by omega)]
  calc p.rate / 2 * (2 * p.acked) = p.rate / 2 * 2 * p.acked := (Nat.mul_assoc ..).symm
    _ ≤ p.rate * max ((p.acked - p.marks) * 2) p.acked := Nat.mul_le_mul (Nat.div_mul_le_self ..) (Nat.le_max_right ..)

end

section
variable {d : Dev} {h dst : Nat} {w : Wr}

theorem rateWindow_paced (live : d.niLive h = true) (paced : (d.peer dst).pace.isSome = true) :
    rateWindow d h dst =
      let f := fun (hi lo : Nat) => d.regf (pgNi h) 0x810 hi lo
      let r := nextPace (d.paceOf dst) (d.lineRate dst) (f 15 8) (f 23 16) (f 47 32) (f 63 48)
      (d.setPace dst r.1).count (pgNi h) 0x24 (if r.2 then 1 else 0) := by
  have begun : ¬ (d.peer dst).pace.isNone = true := by rwa [Option.isNone_iff_eq_none, ← ne_eq, Option.ne_none_iff_isSome]
  unfold rateWindow
  rw [if_neg (by simp only [live, begun]; decide)]

/-! ### SYS_ROUTE_INV (R363) -/

theorem routeInv_taken (may : d.mayWrite w.agent pgSys 0x618 = true) (idle : d.regb pgSys 0x618 63 = false) :
    routeInv d w =
      let e := d.setReg pgSys 0x618 (BitVec.ofNat 64 ((d.merged pgSys 0x618 w).field 13 0 + (if (d.merged pgSys 0x618 w).bit 15 then 2 ^ 15 else 0)))
      if wrHit w 63 then e.setb pgSys 0x618 63 true else e := by
  simp [routeInv, may, idle]

/-- The same change at both interfaces. -/
theorem Dev.ni_modNi_both (d : Dev) (f : Ni → Ni) (below : h < 2) : ((List.range 2).foldl (fun d h => d.modNi h f) d).ni h = f (d.ni h) := by
  change ((d.modNi 0 f).modNi 1 f).ni h = f (d.ni h)
  obtain rfl | rfl : h = 0 ∨ h = 1 := by omega
  · rw [Dev.ni_modNi_ne _ f (by decide), Dev.ni_modNi]
  · rw [Dev.ni_modNi, Dev.ni_modNi_ne _ f (by decide)]

/-- What an interface's route cache keeps of the entries that SYS_ROUTE_INV names. -/
def Dev.routesLeft (d : Dev) (x : Ni) : Ni :=
  { x with routes := if d.regb pgSys 0x618 15 then [] else KV.erase x.routes (d.regf pgSys 0x618 13 0) }

theorem routeInvDone_busy (up : d.up = true) (busy : d.regb pgSys 0x618 63 = true) :
    routeInvDone d = ((List.range 2).foldl (fun e h => e.modNi h d.routesLeft) d).setb pgSys 0x618 63 false := by
  unfold routeInvDone
  rw [up, busy]
  rfl

theorem routes_routeInvDone (up : d.up = true) (busy : d.regb pgSys 0x618 63 = true) (below : h < 2) :
    ((routeInvDone d).ni h).routes = (d.routesLeft (d.ni h)).routes := by
  rw [routeInvDone_busy up busy]
  exact congrArg Ni.routes (Dev.ni_modNi_both d d.routesLeft below)

/-! ### FAB_PEER_CLR (R373) -/

@[simp] theorem Dev.peer_modPeer (d : Dev) (i : Nat) (f : Peer → Peer) : (d.modPeer i f).peer i = f (d.peer i) := by
  simp [Dev.peer, Dev.modPeer]

theorem Dev.peer_modPeer_ne (d : Dev) {i j : Nat} (f : Peer → Peer) (h : j ≠ i) : (d.modPeer i f).peer j = d.peer j := by
  simp [Dev.peer, Dev.modPeer, KV.get_set_ne _ _ _ h]

/-- A peer present again, with the PSN state of the pair as it first was. -/
def Peer.cleared (p : Peer) : Peer := { p with absent := false, txPsn := 0, rxNext := 0, rxSet := [], toAck := 0, marks := 0 }

theorem peerClear_taken (below : h < 2) (may : d.mayWrite w.agent (pgNi h) 0x820 = true) (low : w.lo = true) :
    peerClear d h w = d.modPeer ((wrBits w).field 13 0) Peer.cleared := by
  unfold peerClear
  rw [if_pos (by simp [below, may, low])]
  rfl

end

/-- Settles O44: each range of marks is its case of the rule, and each write and its end is its case of the model's function. -/
theorem rateControl : Obligations.RateControl := by
  unfold Obligations.RateControl
  refine ⟨fun p line hi lo ai rmin _ order => ?_, fun s h dst live paced => ?_,
    fun s w => ⟨fun may idle => ?_, fun up busy => ?_, fun h below may low => ?_⟩⟩
  · obtain ⟨top, marks, acked⟩ := nextPace_window p line hi lo ai rmin
    refine ⟨top, marks, acked, fun window marked => ?_, fun window within marked => ?_, fun window within => ?_⟩
    · rw [nextPace_cut window marked]
      exact ⟨rfl, min_le_min_right _ (Nat.le_max_right ..), min_le_min_right _ ((half_le_cut window).trans (Nat.le_max_left ..))⟩
    · rw [nextPace_hold window within marked]
    · rw [nextPace_raise window order within]
      exact min_le_min_right _ (Nat.le_add_right ..)
  · rw [exec_rateControlWindow, rateWindow_paced live paced]
  · rw [exec_routeInvalidate, routeInv_taken may idle]
  · refine ⟨_, exec_routeInvDone s, ?_, fun all h below => ?_, fun one h below => ?_⟩ <;> rw [State.after_dev]
    · rw [routeInvDone_busy up busy]
      exact Dev.regb_setb _ _ _ _ _ (by decide)
    · rw [routes_routeInvDone up busy below, Dev.routesLeft, all, if_pos rfl]
    · rw [routes_routeInvDone up busy below, Dev.routesLeft, one, if_neg Bool.false_ne_true]
  · refine ⟨_, exec_peerClear h w s, ?_⟩
    rw [State.after_dev, peerClear_taken below may low]
    refine ⟨?_, ?_, ?_, fun p other => Dev.peer_modPeer_ne _ _ other, rfl, rfl⟩ <;> rw [Dev.peer_modPeer] <;> rfl

end Sys2Proof.Machine

/-! SUPPORT. Changes of one register, and the registers of memory channels. -/

namespace Sys2Proof.Machine

/-! ### Changes of one register -/

/-- The second machine is the first but for one register word. -/
def Dev.WordOnly (key : Nat) (d e : Dev) : Prop :=
  ∃ r, e = { d with regs := r } ∧ ∀ p o, regKey p o ≠ key → e.reg p o = d.reg p o

section
variable {key : Nat} {d e f : Dev}

theorem Dev.WordOnly.refl (key : Nat) (d : Dev) : WordOnly key d d := ⟨_, rfl, fun _ _ _ => rfl⟩

theorem Dev.WordOnly.trans (h : WordOnly key d e) (g : WordOnly key e f) : WordOnly key d f := by
  obtain ⟨_, rfl, h⟩ := h
  obtain ⟨_, rfl, g⟩ := g
  exact ⟨_, rfl, fun p o other => (g p o other).trans (h p o other)⟩

theorem Dev.WordOnly.setf (d : Dev) (p o hi lo v : Nat) : WordOnly (regKey p o) d (d.setf p o hi lo v) :=
  ⟨_, rfl, fun _ _ other => d.reg_setf_ne hi lo v other⟩

theorem Dev.WordOnly.setf_if (d : Dev) (p o hi lo v : Nat) (c : Prop) [Decidable c] :
    WordOnly (regKey p o) d (if c then d.setf p o hi lo v else d) := by
  split
  · exact .setf ..
  · exact .refl ..

end

/-! ### Registers of channels -/

/-- A lower part of a field that starts at bit 0. -/
theorem W64.field_prefix (w : W64) {m n : Nat} (le : m ≤ n) : w.field m 0 = w.field n 0 % 2 ^ (m + 1) :=
  (Nat.mod_mod_of_dvd _ (pow_dvd_pow 2 (Nat.succ_le_succ le))).symm

theorem mem_ne_sys (k : Nat) {o x : Nat} (small : o < 4096) (small' : x < 4096) : regKey (pgMem k) o ≠ regKey pgSys x := fun same => by
  have page := ((regKey_inj small small').1 same).1
  unfold pgMem pgSys at page
  omega

theorem memStat_ne {j k : Nat} (other : j ≠ k) : regKey (pgMem j) 0x108 ≠ regKey (pgMem k) 0x108 := by
  unfold regKey pgMem
  omega

section
variable {d e : Dev} {k : Nat}

/-- The state of a channel goes by its MEM_STAT. -/
theorem Dev.chanState_congr (h : e.reg (pgMem k) 0x108 = d.reg (pgMem k) 0x108) : e.chanState k = d.chanState k :=
  congrArg (fun v => W64.field v 2 0) h

theorem Dev.lt_of_chanLive (live : d.chanLive k = true) : k < 16 := by
  unfold Dev.chanLive Dev.memPresent at live
  simp only [Bool.and_eq_true, decide_eq_true_eq] at live
  exact live.1.1

end

end Sys2Proof.Machine

/-! PROOFS. The interleaves of a half's channels (R399, R400). -/

namespace Sys2Proof.Machine

/-! ### Line interleave (R399) -/

/-- The two groups of bits that a channel is crossed with cancel when they are crossed again. -/
theorem xor_pair_cancel (x a b : Nat) : x ^^^ a ^^^ b ^^^ a ^^^ b = x := by
  rw [Nat.xor_right_comm x a b, Nat.xor_xor_cancel_right, Nat.xor_xor_cancel_right]

theorem placeOf_line (cap o : Nat) :
    placeOf false cap o = (o / 64 % 8 ^^^ o / 32768 % 8 ^^^ o / 16777216 % 8, o / 512 * 64 + o % 64) := rfl

theorem offsetOf_line (cap k b : Nat) :
    offsetOf false cap k b = b / 64 * 512 + (k ^^^ b / 64 / 64 % 8 ^^^ b / 64 / 32768 % 8) * 64 + b % 64 := rfl

/-- The groups of bits of an offset made of a stripe, a line of it and a byte of the line. -/
theorem stripe_bits {q x r : Nat} (line : x < 8) (byte : r < 64) :
    (q * 512 + x * 64 + r) / 64 % 8 = x ∧ (q * 512 + x * 64 + r) / 32768 % 8 = q / 64 % 8
      ∧ (q * 512 + x * 64 + r) / 16777216 % 8 = q / 32768 % 8 ∧ (q * 512 + x * 64 + r) / 512 = q ∧ (q * 512 + x * 64 + r) % 64 = r := by
  omega

theorem placeOf_offsetOf_line (cap b : Nat) {k : Nat} (channel : k < 8) : placeOf false cap (offsetOf false cap k b) = (k, b) := by
  have line : k ^^^ b / 64 / 64 % 8 ^^^ b / 64 / 32768 % 8 < 2 ^ 3 :=
    Nat.xor_lt_two_pow (Nat.xor_lt_two_pow channel (Nat.mod_lt _ (by decide))) (Nat.mod_lt _ (by decide))
  obtain ⟨low, middle, high, stripe, byte⟩ := stripe_bits (q := b / 64) line (Nat.mod_lt b (by decide : 64 > 0))
  rw [placeOf_line, offsetOf_line, low, middle, high, stripe, byte, xor_pair_cancel, Nat.div_add_mod']

theorem offsetOf_placeOf_line (cap o : Nat) : offsetOf false cap (placeOf false cap o).1 (placeOf false cap o).2 = o := by
  have stripe : (o / 512 * 64 + o % 64) / 64 = o / 512 := by omega
  have byte : (o / 512 * 64 + o % 64) % 64 = o % 64 := by omega
  have middle : o / 512 / 64 = o / 32768 := Nat.div_div_eq_div_mul ..
  have high : o / 512 / 32768 = o / 16777216 := Nat.div_div_eq_div_mul ..
  rw [placeOf_line, offsetOf_line, stripe, byte, middle, high, xor_pair_cancel]
  omega

/-! ### Channel interleave (R400) -/

section
variable {cap : Nat} (capacity : 0 < cap)
include capacity

theorem placeOf_channel (o : Nat) : placeOf true cap o = (o / cap, o % cap) := by
  change (o / max 1 cap, o % max 1 cap) = _
  rw [Nat.max_eq_right capacity]

theorem placeOf_offsetOf_channel (k : Nat) {b : Nat} (byte : b < cap) : placeOf true cap (offsetOf true cap k b) = (k, b) := by
  change placeOf true cap (k * cap + b) = (k, b)
  have placed : k * cap + b = b + cap * k := by rw [Nat.mul_comm, Nat.add_comm]
  obtain ⟨channel, rest⟩ := (Nat.div_mod_unique capacity).2 ⟨placed.symm, byte⟩
  rw [placeOf_channel capacity, channel, rest]

theorem offsetOf_placeOf_channel (o : Nat) : offsetOf true cap (placeOf true cap o).1 (placeOf true cap o).2 = o := by
  rw [placeOf_channel capacity]
  exact Nat.div_add_mod' o cap

end

/-- Settles O35: under line interleave the bits of an offset come apart again and the groups that the channel is crossed with
cancel; under channel interleave the place is quotient and remainder by the capacity. -/
theorem interleaveIsOneToOne : Obligations.InterleaveIsOneToOne := by
  unfold Obligations.InterleaveIsOneToOne
  refine ⟨fun cap o capacity => ⟨placeOf_line cap o, placeOf_channel capacity o⟩, fun ilv cap k b capacity channel byte => ?_,
    fun ilv cap o capacity _ => ?_⟩
  · cases ilv with
    | false => exact placeOf_offsetOf_line cap b channel
    | true => exact placeOf_offsetOf_channel capacity k byte
  · cases ilv with
    | false => exact offsetOf_placeOf_line cap o
    | true => exact offsetOf_placeOf_channel capacity o

end Sys2Proof.Machine

/-! PROOFS. The patrol of a channel, the scrub of core stores, and the line code (R407, R408, R414, R415, R417, R419). -/

namespace Sys2Proof.Machine

/-! ### The commands are their meanings, on the machine as they find it -/

theorem exec_patrolScrubLine (k : Nat) (errs : List BitError) (s : State) :
    exec (.patrolScrubLine k errs) s = .next (s.after (patrolScrub s.quiet k errs)) := rfl
theorem exec_sramScrubWord (store inst i : Nat) (e : WordError) (s : State) :
    exec (.sramScrubWord store inst i e) s = .next (s.after (sramScrub s.quiet store inst i e)) := rfl

section
variable {d : Dev}

/-! ### The patrol (R414, R415) -/

/-- The line at a channel's patrol position is read, or written back from the far store that holds it, and counted. -/
def Dev.patrolLine (d : Dev) (k : Nat) : Dev :=
  let pa := d.chanAddr k (d.regf (pgMem k) 0x138 31 0 * 64)
  (if (d.half (k / 8)).lines.any (fun f => f.line == pa / 64)
    then (d.writeBack (k / 8) (pa / 64)).modHalf (k / 8) (fun x => { x with lines := setDirty x.lines (pa / 64) false })
    else d.patrolRead k pa).count (pgMem k) 0x07 1

/-- The position after a line, and the count of the passes at their end. -/
def Dev.patrolAdvance (d : Dev) (k line : Nat) : Dev :=
  if line + 1 ≥ d.halfSize (k / 8) / 8 / 64 then (d.setReg (pgMem k) 0x138 0).count (pgMem k) 0x09 1
  else d.setReg (pgMem k) 0x138 (BitVec.ofNat 64 (line + 1))

/-- A READY channel of a running half that is neither isolated nor eclipsed, with the patrol on, has its next line taken once the
new errors stand. -/
theorem patrolScrub_ready {k : Nat} {errs : List BitError} {e : Dev} (struck : d.strike k errs = e) (live : e.chanLive k = true)
    (state : e.chanState k = 2) (ready : e.dramReady (k / 8) = true) (on : e.regb (pgMem k) 0x130 0 = true)
    (joined : (e.half (k / 8)).isolated = false) (runs : e.eclipsed = false) :
    patrolScrub d k errs = (e.patrolLine k).patrolAdvance k (e.regf (pgMem k) 0x138 31 0) := by
  unfold patrolScrub
  rw [if_pos (Dev.lt_of_chanLive live), struck]
  exact if_neg (by simp [live, state, ready, on, joined, runs])

/-! ### The scrub of a core's near store (R417, R419) -/

/-- What the scrub finds in a near store's word is the core's to report. -/
theorem sramScrub_near {c i : Nat} (core : c < 8) (power : d.up = true) (run : d.running (c / 4) = true)
    (present : d.present (pgCore c) = true) (word : i < 0x2800000 / 64) (on : d.regb pgSys 0x450 0 = true) (e : WordError) :
    sramScrub d 0 c i e = match e with
      | .clean => d
      | .corrected => d.raise (pgCore c) 0x0603 i 0
      | .double => (d.raise (pgCore c) 0x0604 i 0).setPoison (nearBase c + i * 64) := by
  have qual : 0 * 2 ^ 28 + 0 + i = i := by omega
  have live : (!(d.up && decide (0 ≤ 7) && Option.all d.running (some (c / 4)) && d.present (pgCore c) && decide (i < 0x2800000 / 64)
      && (decide (0 ≥ 3) || decide (c < 8))) || !d.regb pgSys 0x450 0) = false := by
    simp [power, run, present, word, on, core]
  unfold sramScrub
  refine (if_neg (Bool.eq_false_iff.1 live)).trans ?_
  cases e with
  | clean => rfl
  | corrected => exact congrArg (fun n => d.raise (pgCore c) 0x0603 n 0) qual
  | double => exact congrArg (fun n => (d.raise (pgCore c) 0x0604 n 0).setPoison (nearBase c + i * 64)) qual

end

/-! ### The line code (R407, R408) -/

section
variable {line : List Byte} {e : List Nat}

theorem decodeLine_intact (intact : symbolsIn e = []) (m : Option Nat) : decodeLine m line e = .clean := by
  unfold decodeLine
  exact if_pos (by simp [intact])

variable (wrong : symbolsIn e ≠ [])
include wrong

/-- Without a mark the place of up to eight symbols in error decides. -/
theorem decodeLine_unmarked (few : (symbolsIn e).length ≤ 8) :
    decodeLine none line e = if deviceOf (symbolsIn e) ≠ 15 ∨ (symbolsIn e).length ≤ 3
      then .corrected false (deviceOf (symbolsIn e)) (symbolsIn e).length line else .failed := by
  unfold decodeLine
  exact (if_neg (by simp [wrong])).trans (if_pos few)

/-- With a mark the number of symbols in error outside the marked device decides. -/
theorem decodeLine_marked (m : Nat) :
    decodeLine (some m) line e =
      let out := (symbolsIn e).filter (fun x => x / 8 != m)
      if out.length ≤ 3 then .corrected true (if out.isEmpty then m else 15) (8 + out.length) line else .failed := by
  unfold decodeLine
  exact if_neg (by simp [wrong])

end

/-- Settles O36: the patrol and the scrub take what they find, and the line code is its three cases: no symbol in error, no mark, and
a mark. -/
theorem scrubsAndCodes : Obligations.ScrubsAndCodes := by
  unfold Obligations.ScrubsAndCodes
  refine ⟨fun s k errs live state ready on joined runs => ?_, fun s c i core power run present word on => ?_,
    fun line e => ⟨fun intact m => ?_, fun wrong few one => ?_, fun many few several => ?_, fun m wrong few => ?_, fun m many => ?_⟩⟩
  · rw [exec_patrolScrubLine, patrolScrub_ready rfl live state ready on joined runs]
    rfl
  · have scrub := sramScrub_near core power run present word on
    refine ⟨?_, ?_, ?_⟩ <;> rw [exec_sramScrubWord, scrub]
  · exact decodeLine_intact intact m
  · rw [decodeLine_unmarked wrong few, if_pos one]
  · have wrong : symbolsIn e ≠ [] := List.ne_nil_of_length_pos (Nat.zero_lt_of_lt many)
    rw [decodeLine_unmarked wrong few, if_neg (by simp only [several]; omega)]
  · exact ⟨_, (decodeLine_marked wrong m).trans (if_pos few)⟩
  · have wrong : symbolsIn e ≠ [] := fun intact => by simp [intact] at many
    exact (decodeLine_marked wrong m).trans (if_neg (Nat.not_le_of_lt many))

end Sys2Proof.Machine

/-! PROOFS. Training of memory channels, and their going offline (R396, R402 to R405, R423, R425). -/

namespace Sys2Proof.Machine

/-! ### The commands are their meanings, on the machine as they find it -/

theorem exec_memTrainingStart (w : Wr) (s : State) : exec (.memTrainingStart w) s = .next (s.after (memCtrl s.quiet w)) := rfl
theorem exec_channelTrainingDone (k : Nat) (r : TrainResult) (s : State) :
    exec (.channelTrainingDone k r) s = .next (s.after (trainingDone s.quiet k r)) := rfl
theorem exec_moduleOffline (k : Nat) (stopped : Bool) (w : Wr) (s : State) :
    exec (.moduleOffline k stopped w) s = .next (s.after (moduleOffline s.quiet k stopped w)) := rfl
theorem exec_caParityError (k : Nat) (s : State) : exec (.caParityError k) s = .next (s.after (caParity s.quiet k)) := rfl

/-! ### Going offline (R423) -/

section
variable {d : Dev} {k : Nat} (live : d.chanLive k = true) (online : d.chanOffline k = false)

theorem Dev.chanState_setOffline (d : Dev) (k : Nat) : (d.setOffline k).chanState k = 4 := by
  unfold Dev.setOffline Dev.chanState
  rw [Dev.regf, Dev.reg_setIsr_above _ _ _ (by decide), ← Dev.regf, Dev.regf_setf _ _ _ _ (by decide) (by decide)]
  rfl

include live online

theorem moduleOffline_hit {stopped : Bool} {w : Wr}
    (hit : stopped = true ∨ (d.mayWrite w.agent (pgMem k) 0x100 = true ∧ wrHit w 0 = true)) :
    moduleOffline d k stopped w = d.setOffline k := by
  unfold moduleOffline
  rw [if_neg (by simp [live, online]), if_pos (by simpa using hit)]

theorem caParity_retry (left : (d.chan k).retries < 8) :
    caParity d k = (d.modChan k (fun c => { c with retries := c.retries + 1 })).count (pgMem k) 0x0A 1 := by
  unfold caParity
  rw [if_neg (by simp [live, online]), if_neg (Nat.not_le_of_lt left)]

theorem caParity_spent (spent : 8 ≤ (d.chan k).retries) :
    caParity d k = (d.modChan k (fun c => { c with retries := 0 })).setOffline k := by
  unfold caParity
  rw [if_neg (by simp [live, online]), if_pos spent]

end

/-! ### The start of training (R402, R425) -/

section
variable {d e : Dev} {w : Wr}

/-- What a write to MEM_CTRL makes of its own word: the rate and the interleaves while they may change, RESTORE and ZERO. -/
def Dev.memModes (d : Dev) (v : W64) : Dev :=
  let rated := if !d.regb pgSys 0x448 0 && !d.dramReady 0 && !d.dramReady 1 && d.rateEnabled (v.field 1 0)
    then d.setf pgSys 0x440 1 0 (v.field 1 0) else d
  let laid := (List.range 2).foldl (fun d h =>
    if d.halfPresent h && !d.dramReady h then d.setb pgSys 0x440 (2 + h) (v.bit (2 + h)) else d) rated
  (laid.setb pgSys 0x440 4 (v.bit 4)).setb pgSys 0x440 5 (v.bit 5)

/-- The channels that GO trains. -/
def Dev.trainable (d : Dev) : List Nat := (List.range 16).filter (fun k => d.chanLive k && !d.chanOffline k)

/-- A channel begins its training. -/
def Dev.trainChan (v : W64) (d : Dev) (k : Nat) : Dev :=
  ((d.setf (pgMem k) 0x108 3 0 1).modChan k (fun c => { c with restore := v.bit 4, zero := v.bit 5 })).setf pgSys 0x448
    (1 + k / 8) (1 + k / 8) 0

theorem memCtrl_taken (may : d.mayWrite w.agent pgSys 0x440 = true) :
    memCtrl d w =
      let v := d.merged pgSys 0x440 w
      let e := d.memModes v
      if !wrHit w 8 || d.regb pgSys 0x448 0 || e.trainable.isEmpty then e
      else ((e.trainable.foldl (Dev.trainChan v) e).setf pgSys 0x448 4 3 0).setb pgSys 0x448 0 true := by
  unfold memCtrl
  exact if_neg (by simp [may])

/-- The write's own word is the only one that changes before training begins. -/
theorem Dev.memModes_word (d : Dev) (v : W64) : WordOnly (regKey pgSys 0x440) d (d.memModes v) := by
  unfold Dev.memModes
  exact (((WordOnly.setf_if ..).trans (foldl_rel (WordOnly.refl _) WordOnly.trans _ _ (fun _ _ _ => .setf_if ..) _)).trans
    (.setf ..)).trans (.setf ..)

theorem Dev.chanState_memModes (d : Dev) (v : W64) (k : Nat) : (d.memModes v).chanState k = d.chanState k := by
  obtain ⟨_, _, word⟩ := d.memModes_word v
  exact Dev.chanState_congr (word _ _ (mem_ne_sys k (by decide) (by decide)))

theorem Dev.chanLive_memModes (d : Dev) (v : W64) (k : Nat) : (d.memModes v).chanLive k = d.chanLive k := by
  obtain ⟨r, same, word⟩ := d.memModes_word v
  have power : (d.memModes v).power = d.power := by rw [same]
  have cap : (d.memModes v).cap = d.cap := by rw [same]
  have held : (d.memModes v).reg pgPmu 0x110 = d.reg pgPmu 0x110 := word _ _ (by decide)
  simp only [Dev.chanLive, Dev.memPresent, Dev.running, Dev.up_congr power, Dev.halfPresent_congr cap, cap, Dev.regb, held]

@[simp] theorem Dev.memModes_mem (d : Dev) (v : W64) : (d.memModes v).mem = d.mem := by
  obtain ⟨r, same, _⟩ := d.memModes_word v
  rw [same]

theorem Dev.mem_trainable_memModes {v : W64} {k : Nat} (live : d.chanLive k = true) (online : d.chanOffline k = false) :
    k ∈ (d.memModes v).trainable := by
  have state : (d.memModes v).chanOffline k = d.chanOffline k := congrArg (· == 4) (d.chanState_memModes v k)
  unfold Dev.trainable
  rw [List.mem_filter, List.mem_range, d.chanLive_memModes, state, live, online]
  exact ⟨Dev.lt_of_chanLive live, rfl⟩

/-- STATE of a channel that begins its training is TRAINING, and the other channels' is as it was. -/
theorem Dev.chanState_trainChan (v : W64) (d : Dev) (k j : Nat) :
    (d.trainChan v k).chanState j = if j = k then 1 else d.chanState j := by
  have started : (d.trainChan v k).reg (pgMem j) 0x108 = (d.setf (pgMem k) 0x108 3 0 1).reg (pgMem j) 0x108 :=
    Dev.reg_setf_ne _ _ _ _ (mem_ne_sys j (by decide) (by decide))
  rw [Dev.chanState_congr started]
  split
  · next same =>
    rw [same, Dev.chanState, Dev.regf, W64.field_prefix _ (by decide : 2 ≤ 3), ← Dev.regf,
      Dev.regf_setf _ _ _ _ (by decide) (by decide)]
    rfl
  · next other => exact Dev.chanState_congr (Dev.reg_setf_ne _ _ _ _ (memStat_ne other))

theorem Dev.chanState_trainChans (v : W64) (l : List Nat) (d : Dev) (j : Nat) :
    (l.foldl (Dev.trainChan v) d).chanState j = if j ∈ l then 1 else d.chanState j := by
  induction l generalizing d with
  | nil => rfl
  | cons k l ih =>
    rw [List.foldl_cons, ih, Dev.chanState_trainChan]
    by_cases here : j = k <;> simp [here]

/-- A write with GO: every channel that can be trained is in TRAINING, and BUSY is set. -/
theorem memCtrl_go {k : Nat} (may : d.mayWrite w.agent pgSys 0x440 = true) (go : wrHit w 8 = true) (idle : d.regb pgSys 0x448 0 = false)
    (live : d.chanLive k = true) (online : d.chanOffline k = false) :
    (memCtrl d w).regb pgSys 0x448 0 = true ∧ (memCtrl d w).mem = d.mem
      ∧ ∀ j, d.chanLive j = true → d.chanOffline j = false → (memCtrl d w).chanState j = 1 := by
  have nonempty : (d.memModes (d.merged pgSys 0x440 w)).trainable.isEmpty = false :=
    List.isEmpty_eq_false_iff.2 (List.ne_nil_of_mem (Dev.mem_trainable_memModes live online))
  rw [memCtrl_taken may]
  extract_lets v e
  rw [if_neg (by simp [go, idle, e, v, nonempty])]
  refine ⟨Dev.regb_setb _ _ _ _ _ (by decide), ?_, fun j live online => ?_⟩
  · exact (foldl_field Dev.mem (Dev.trainChan v) (fun _ _ => rfl) e.trainable e).trans (d.memModes_mem v)
  · have trained : (e.trainable.foldl (Dev.trainChan v) e).chanState j = 1 := by
      rw [Dev.chanState_trainChans, if_pos (Dev.mem_trainable_memModes live online)]
    refine Eq.trans ?_ trained
    refine Dev.chanState_congr ((Dev.reg_setb_ne _ _ _ ?_).trans (Dev.reg_setf_ne _ _ _ _ ?_)) <;>
      exact mem_ne_sys j (by decide) (by decide)

/-- Without GO, or while BUSY, a write reaches its own word alone. -/
theorem memCtrl_rest (may : d.mayWrite w.agent pgSys 0x440 = true) (rest : wrHit w 8 = false ∨ d.regb pgSys 0x448 0 = true) :
    memCtrl d w = d.memModes (d.merged pgSys 0x440 w) := by
  rw [memCtrl_taken may]
  exact if_pos (by rcases rest with miss | busy <;> simp [*])

end

/-! ### The bring-up of a half (R402) -/

section
variable {d e : Dev} {k : Nat}

theorem Dev.moveContents_regs (d : Dev) (h cap : Nat) (old new : Bool) : (d.moveContents h cap old new).regs = d.regs := by
  unfold Dev.moveContents
  extract_lets at' lines moved
  refine foldl_field Dev.regs _ (fun e i => ?_) (List.range 8) moved
  rfl

/-- The bring-up of a half reports in SYS_MEM_STAT and leaves the other registers. -/
theorem Dev.reg_bringUp (d : Dev) (h : Nat) {p o : Nat} (other : regKey p o ≠ regKey pgSys 0x448) :
    (d.bringUp h).reg p o = d.reg p o := by
  unfold Dev.bringUp
  extract_lets ks size new old moved laid e
  have moved_reg : moved.reg p o = d.reg p o := by
    unfold moved
    split
    · rfl
    · exact Dev.reg_congr (d.moveContents_regs ..) p o
  have e_reg : e.reg p o = d.reg p o := by
    unfold e
    split
    · rfl
    · split
      · exact (Dev.reg_setb_ne _ _ _ other).trans ((Dev.reg_setf_ne _ _ _ _ other).trans moved_reg)
      · exact Dev.reg_setb_ne _ _ _ other
  split
  · exact e_reg
  · exact (Dev.reg_setb_ne _ _ _ other).trans e_reg

/-! ### The end of a channel's training (R396, R402 to R405) -/

/-- The identity of the module that answered. -/
def Dev.identified (d : Dev) (k : Nat) (r : TrainResult) : Dev :=
  d.setReg (pgMem k) 0x110 (BitVec.ofNat 64 (r.serial % 2 ^ 32 + r.spdCrc % 2 ^ 16 * 2 ^ 32))

/-- MEM_STAT after a training, and the interrupt that tells it. -/
def Dev.report (d : Dev) (k : Nat) (r : TrainResult) (state : Nat) (restored : Bool) (bit : Nat) : Dev :=
  (d.setReg (pgMem k) 0x108 (BitVec.ofNat 64 (state + (if restored then 8 else 0) + r.kind % 4 * 16 + r.size % 4 * 64))).setIsr
    (pgMem k) bit

/-- What a report holds still stands when the half has come up or failed. -/
theorem Dev.report_bringUp (d : Dev) (k h : Nat) (r : TrainResult) {state bit : Nat} (restored : Bool) (small : state < 8)
    (word : bit < 64) :
    ((d.report k r state restored bit).bringUp h).chanState k = state
      ∧ ((d.report k r state restored bit).bringUp h).regb (pgMem k) 0x108 3 = restored
      ∧ ((d.report k r state restored bit).bringUp h).regb (pgMem k) 0x020 bit = true := by
  have told (o : Nat) (inPage : o < 4096) :
      ((d.report k r state restored bit).bringUp h).reg (pgMem k) o = (d.report k r state restored bit).reg (pgMem k) o :=
    Dev.reg_bringUp _ _ (mem_ne_sys k inPage (by decide))
  have stat := told 0x108 (by decide)
  unfold Dev.report at stat ⊢
  rw [Dev.reg_setIsr_above _ _ _ (by decide), Dev.reg_setReg] at stat
  refine ⟨?_, ?_, ?_⟩
  · rw [Dev.chanState, Dev.regf, stat, W64.field_ofNat (by split <;> omega)]
    split <;> omega
  · rw [Dev.regb, stat, W64.bit, BitVec.getLsbD_ofNat, Nat.testBit_eq_decide_div_mod_eq]
    cases restored <;> simp <;> omega
  · exact (Dev.regb_of_reg (told 0x020 (by decide)) bit).trans (Dev.regb_setIsr _ _ word)

variable {r : TrainResult} (live : d.chanLive k = true) (training : d.chanState k = 1)
include live training

/-- What the end of a channel's training reports: no module, one that does not fit, a restore, a failure, or full training. -/
theorem trainingDone_training :
    trainingDone d k r =
      let e := d.identified k r
      Dev.bringUp (
        if r.kind = 0 then e.setReg (pgMem k) 0x108 0
        else if !moduleFits r || !moduleRateFits r (d.regf pgSys 0x440 1 0) || r.size > 2 then e.report k r 3 false 5
        else if (d.chan k).restore && e.restoreOk k r then e.report k r 2 true 4
        else if !r.trained then e.report k r 3 false 4
        else ((e.loseChannel k (2 ^ r.size * 2 ^ 35) (d.chan k).zero).writeTrec k r).report k r 2 false 4) (k / 8) := by
  have rate : (d.identified k r).regf pgSys 0x440 1 0 = d.regf pgSys 0x440 1 0 :=
    Dev.regf_setReg_ne _ _ _ (mem_ne_sys k (by decide) (by decide)).symm
  unfold trainingDone
  rw [← rate]
  exact if_neg (by simp [live, training])

theorem trainingDone_empty (kind : r.kind = 0) :
    trainingDone d k r = ((d.identified k r).setReg (pgMem k) 0x108 0).bringUp (k / 8) := by
  rw [trainingDone_training live training]
  extract_lets e
  rw [if_pos kind]

variable (kind : r.kind ≠ 0)
include kind

theorem trainingDone_refused (unfit : moduleFits r = false ∨ moduleRateFits r (d.regf pgSys 0x440 1 0) = false) :
    trainingDone d k r = ((d.identified k r).report k r 3 false 5).bringUp (k / 8) := by
  rw [trainingDone_training live training]
  extract_lets e
  rw [if_neg kind, if_pos (by rcases unfit with built | rated <;> simp [*])]

variable (built : moduleFits r = true) (rated : moduleRateFits r (d.regf pgSys 0x440 1 0) = true) (size : r.size ≤ 2)
include built rated size

theorem trainingDone_fitting :
    trainingDone d k r =
      let e := d.identified k r
      Dev.bringUp (
        if (d.chan k).restore && e.restoreOk k r then e.report k r 2 true 4
        else if !r.trained then e.report k r 3 false 4
        else ((e.loseChannel k (2 ^ r.size * 2 ^ 35) (d.chan k).zero).writeTrec k r).report k r 2 false 4) (k / 8) := by
  rw [trainingDone_training live training]
  extract_lets e
  rw [if_neg kind, if_neg (by simp [built, rated, size])]

theorem trainingDone_restored (asked : (d.chan k).restore = true) (holds : (d.identified k r).restoreOk k r = true) :
    trainingDone d k r = ((d.identified k r).report k r 2 true 4).bringUp (k / 8) := by
  rw [trainingDone_fitting live training kind built rated size]
  extract_lets e
  rw [if_pos (by rw [asked, holds]; rfl)]

variable (full : (d.chan k).restore = false)
include full

theorem trainingDone_full (trained : r.trained = true) :
    trainingDone d k r =
      ((((d.identified k r).loseChannel k (2 ^ r.size * 2 ^ 35) (d.chan k).zero).writeTrec k r).report k r 2 false 4).bringUp
        (k / 8) := by
  rw [trainingDone_fitting live training kind built rated size]
  extract_lets e
  rw [if_neg (by simp [full]), if_neg (by simp [trained])]

theorem trainingDone_failed (untrained : r.trained = false) :
    trainingDone d k r = ((d.identified k r).report k r 3 false 4).bringUp (k / 8) := by
  rw [trainingDone_fitting live training kind built rated size]
  extract_lets e
  rw [if_neg (by simp [full]), if_pos (by simp [untrained])]

end

/-- Settles O45: GO puts every channel of its list in TRAINING, the end of a training leaves the state and the interrupt that it
reports, and each way of going offline is its case of the model's function. -/
theorem memoryTraining : Obligations.MemoryTraining := by
  unfold Obligations.MemoryTraining
  refine ⟨fun s w may => ⟨fun k _ go idle live online => ?_, fun rest => ?_⟩,
    fun s k r live training size _ => ⟨fun kind => ?_, fun kind unfit => ?_, fun kind built rated asked holds => ?_,
      fun kind built rated full => ⟨fun trained => ?_, fun untrained => ?_⟩⟩,
    fun s k w live online => ⟨?_, fun may hit => ?_, Dev.chanState_setOffline _ k, fun left => ?_, fun spent => ?_⟩⟩
  · obtain ⟨busy, mem, states⟩ := memCtrl_go may go idle live online
    exact ⟨_, exec_memTrainingStart w s, busy, mem, fun j _ => states j⟩
  · refine ⟨_, exec_memTrainingStart w s, ?_, fun j _ => ?_⟩ <;> rw [State.after_dev, memCtrl_rest may rest]
    · exact Dev.memModes_mem ..
    · exact Dev.chanState_memModes ..
  · refine ⟨_, exec_channelTrainingDone k r s, ?_⟩
    have told := Dev.reg_bringUp ((s.quiet.identified k r).setReg (pgMem k) 0x108 0) (k / 8) (mem_ne_sys k (o := 0x108) (by decide) (by decide))
    rw [State.after_dev, trainingDone_empty live training kind, Dev.chanState_congr told, Dev.chanState, Dev.regf, Dev.reg_setReg]
    rfl
  · obtain ⟨state, _, told⟩ := Dev.report_bringUp (s.quiet.identified k r) k (k / 8) r false (by decide : 3 < 8) (by decide : 5 < 64)
    rw [← trainingDone_refused live training kind unfit] at state told
    exact ⟨_, exec_channelTrainingDone k r s, state, told⟩
  · obtain ⟨state, restored, _⟩ := Dev.report_bringUp (s.quiet.identified k r) k (k / 8) r true (by decide : 2 < 8) (by decide : 4 < 64)
    rw [← trainingDone_restored live training kind built rated size asked holds] at state restored
    exact ⟨_, exec_channelTrainingDone k r s, state, restored⟩
  · obtain ⟨state, restored, _⟩ := Dev.report_bringUp _ k (k / 8) r false (by decide : 2 < 8) (by decide : 4 < 64)
    rw [← trainingDone_full live training kind built rated size full trained] at state restored
    exact ⟨_, exec_channelTrainingDone k r s, state, restored⟩
  · obtain ⟨state, _, told⟩ := Dev.report_bringUp (s.quiet.identified k r) k (k / 8) r false (by decide : 3 < 8) (by decide : 4 < 64)
    rw [← trainingDone_failed live training kind built rated size full untrained] at state told
    exact ⟨_, exec_channelTrainingDone k r s, state, told⟩
  · rw [exec_moduleOffline, moduleOffline_hit live online (.inl rfl)]
  · rw [exec_moduleOffline, moduleOffline_hit live online (.inr ⟨may, hit⟩)]
  · rw [exec_caParityError, caParity_retry live online left]
  · rw [exec_caParityError, caParity_spent live online spent]

end Sys2Proof.Machine

/-! PROOFS. Flits of the drawbar and of the UCIe links, and the isolation of a half (R420 to R422, R523). -/

namespace Sys2Proof.Machine

/-! ### The commands are their meanings, on the machine as they find it -/

theorem exec_drawbarFlitReceive (dir seq : Nat) (corrected crcOk : Bool) (s : State) :
    exec (.drawbarFlitReceive dir seq corrected crcOk) s = .next (s.after (drawbarFlit s.quiet dir seq corrected crcOk)) := rfl
theorem exec_ucieKeepaliveSend (h : Nat) (s : State) : exec (.ucieKeepaliveSend h) s = .next (s.after (keepaliveSend s.quiet h)) := rfl
theorem exec_ucieFlitReceive (h : Nat) (ok : Bool) (s : State) :
    exec (.ucieFlitReceive h ok) s = .next (s.after (ucieFlit s.quiet h ok)) := rfl
theorem exec_halfIsolation (h : Nat) (s : State) : exec (.halfIsolation h) s = .next (s.after (isolate s.quiet h)) := rfl

/-! ### The drawbar (R420, R421) -/

/-- Where a direction of the drawbar stands: the sequence number due, and the failures of its flit. -/
def Dev.flitsOf (d : Dev) (dir : Nat) : Flits := KV.get { expect := 0, fails := 0 } d.flits dir

def Dev.setFlits (d : Dev) (dir : Nat) (x : Flits) : Dev := { d with flits := KV.set d.flits dir x }

/-- RETRY_LIMIT, of which 0 acts as 1. -/
def Dev.retryLimit (d : Dev) : Nat := max 1 (d.regf pgDbw 0x108 7 0)

section
variable {d : Dev} {dir seq : Nat} (power : d.up = true) (direction : dir ≤ 1) (up : d.regb pgDbw 0x100 0 = true)
  (notDown : d.regb pgDbw 0x100 1 = false) (due : seq % 2 ^ 16 = (d.flitsOf dir).expect)
include power direction up notDown due

/-- A flit in order on a link that is up, with no symbol corrected, is judged by its CRC alone. -/
theorem drawbarFlit_inOrder (crcOk : Bool) :
    drawbarFlit d dir seq false crcOk =
      let x := d.flitsOf dir
      if crcOk then (d.setFlits dir { expect := (x.expect + 1) % 2 ^ 16, fails := 0 }).count pgDbw (1 + dir) 1
      else if d.retryLimit ≤ x.fails then
        (((d.setFlits dir { x with fails := 0 }).setReg pgDbw 0x100 2).raise pgDbw 0x0605 (dir * 2 ^ 31 + 2 ^ 30 + x.expect) 0).setIsr pgDbw 1
      else ((d.setFlits dir { x with fails := x.fails + 1 }).count pgDbw 0x04 1).raise pgDbw 0x0605 (dir * 2 ^ 31 + x.expect) 0 := by
  unfold drawbarFlit
  rw [if_neg (by simp [power, direction, up, notDown])]
  exact if_neg (not_not_intro due)

theorem drawbarFlit_passed : drawbarFlit d dir seq false true =
    (d.setFlits dir { expect := ((d.flitsOf dir).expect + 1) % 2 ^ 16, fails := 0 }).count pgDbw (1 + dir) 1 :=
  drawbarFlit_inOrder power direction up notDown due true

theorem drawbarFlit_retried (left : (d.flitsOf dir).fails < d.retryLimit) : drawbarFlit d dir seq false false =
    ((d.setFlits dir { d.flitsOf dir with fails := (d.flitsOf dir).fails + 1 }).count pgDbw 0x04 1).raise pgDbw 0x0605
      (dir * 2 ^ 31 + (d.flitsOf dir).expect) 0 :=
  (drawbarFlit_inOrder power direction up notDown due false).trans (if_neg (Nat.not_le_of_lt left))

theorem drawbarFlit_down (spent : d.retryLimit ≤ (d.flitsOf dir).fails) : drawbarFlit d dir seq false false =
    (((d.setFlits dir { d.flitsOf dir with fails := 0 }).setReg pgDbw 0x100 2).raise pgDbw 0x0605
      (dir * 2 ^ 31 + 2 ^ 30 + (d.flitsOf dir).expect) 0).setIsr pgDbw 1 :=
  (drawbarFlit_inOrder power direction up notDown due false).trans (if_pos spent)

end

section
variable {d : Dev} {h : Nat}

/-! ### UCIe (R422) -/

theorem keepaliveSend_up (up : d.uciUp h = true) : keepaliveSend d h = d.count (pgUci h) 0x03 1 := if_pos up

theorem ucieFlit_up (up : d.uciUp h = true) (ok : Bool) :
    ucieFlit d h ok = if ok then d.count (pgUci h) 0x04 1 else (d.count (pgUci h) 0x01 1).count (pgUci h) 0x02 1 :=
  if_neg (by simp [up])

/-! ### Isolation (R523) -/

theorem Dev.lt_of_running (run : d.running h = true) : h < 2 := by
  unfold Dev.running at run
  simp only [Bool.and_eq_true] at run
  exact Dev.lt_of_halfPresent run.1.2

/-- A clean of every line leaves none dirty. -/
theorem Dev.dirty_clean_all {f : FarLine} (left : f ∈ ((d.clean h (fun _ => true)).half h).lines) : f.dirty = false :=
  Bool.eq_false_iff.2 fun dirty => Bool.noConfusion (Dev.not_of_dirty_clean left dirty)

/-- Isolation leaves the half as a clean of every line leaves it, marked isolated, with the half's bit of PMU_FAULT set. -/
theorem isolate_running (run : d.running h = true) (joined : (d.half h).isolated = false) :
    ∃ e : Dev, (isolate d h).half h = { (e.clean h (fun _ => true)).half h with isolated := true }
      ∧ (isolate d h).regb pgPmu 0x158 (5 + h) = true := by
  have below : 5 + h < 64 := by have := Dev.lt_of_running run; omega
  unfold isolate
  rw [if_neg (by simp [run, joined])]
  extract_lets e f r
  refine ⟨e, ?_, Dev.regb_setb _ _ _ _ _ below⟩
  have left : ((r.1.setb (pgUci h) 0x100 0 (r.2.bit 0)).setb pgPmu 0x158 (5 + h) true).half h = f.half h := by
    simp only [Dev.half, Dev.setb_halves, r, Dev.takeFree_halves]
  rw [left]
  unfold f
  rw [Dev.half_modHalf]

end

/-- Settles O46: a flit in order is judged by its CRC and the count of its failures, UCIe links that are up count, and the clean of
every line that isolation makes leaves none dirty. -/
theorem dieToDieLinks : Obligations.DieToDieLinks := by
  unfold Obligations.DieToDieLinks
  refine ⟨fun s dir seq h => ⟨fun power direction up notDown due => ⟨?_, fun left => ?_, fun spent => ?_⟩, fun up => ⟨?_, ?_, ?_⟩⟩,
    fun s h run joined => ?_⟩
  · rw [exec_drawbarFlitReceive, drawbarFlit_passed power direction up notDown due]
    rfl
  · rw [exec_drawbarFlitReceive, drawbarFlit_retried power direction up notDown due left]
    rfl
  · rw [exec_drawbarFlitReceive, drawbarFlit_down power direction up notDown due spent]
    rfl
  · rw [exec_ucieKeepaliveSend, keepaliveSend_up up]
  · rw [exec_ucieFlitReceive, ucieFlit_up up true, if_pos rfl]
  · rw [exec_ucieFlitReceive, ucieFlit_up up false, if_neg Bool.false_ne_true]
  · obtain ⟨e, half, fault⟩ := isolate_running run joined
    refine ⟨_, exec_halfIsolation h s, ?_, fun f held => ?_, fault⟩
    · rw [State.after_dev, half]
    · rw [State.after_dev, half] at held
      exact Dev.dirty_clean_all held

end Sys2Proof.Machine

/-! PROOFS. Mailboxes: messages posted and taken, data words, and the configuration of channels (R443 to R448). -/

namespace Sys2Proof.Machine

/-! ### The commands are their meanings, on the machine as they find it -/

theorem exec_mbxGo (g : Agent) (c : Nat) (s : State) : exec (.mbxGo g c) s = .next (s.after (mbxGo s.quiet g c)) := rfl
theorem exec_mbxTake (g : Agent) (c : Nat) (s : State) : exec (.mbxTake g c) s = .next (s.after (mbxTake s.quiet g c)) := rfl
theorem exec_mbxDataWrite (g : Agent) (c i : Nat) (w : Wr) (s : State) :
    exec (.mbxDataWrite g c i w) s = .next (s.after (mbxData s.quiet g c i w)) := rfl
theorem exec_mbxCfgWrite (c : Nat) (w : Wr) (s : State) : exec (.mbxCfgWrite c w) s = .next (s.after (mbxCfg s.quiet c w)) := rfl

section
variable {d : Dev} {g : Agent} {c j i : Nat} {w : Wr}

/-! ### Registers of channels -/

/-- A bit of a word outside a field that is replaced. -/
theorem W64.bit_setField_apart (v : W64) {hi lo k : Nat} (n : Nat) (ordered : lo ≤ hi) (out : k < lo ∨ hi < k) :
    (v.setField hi lo n).bit k = v.bit k := W64.getLsbD_setField_apart v n ordered out

/-- The words of MBX0 lie on no channel's page. -/
theorem mbx0_ne (c x : Nat) {o : Nat} (small : o < 4096) : regKey (pgMbx 0) o ≠ regKey (mbxPage c) x := by
  unfold regKey mbxPage pgMbx
  omega

theorem mbxCtrl_ne (other : j ≠ c) : regKey (mbxPage j) (mbxBase j + 0x60) ≠ regKey (mbxPage c) (mbxBase c + 0x60) := by
  unfold regKey mbxPage mbxBase pgMbx
  omega

theorem mbxCtrl_above (c : Nat) : 0x100 ≤ mbxBase c + 0x60 := by
  unfold mbxBase
  omega

@[simp] theorem Dev.mbxGoBit_setGo (d : Dev) (c : Nat) (b : Bool) : (d.setGo c b).mbxGoBit c = b := d.regb_setb _ _ _ b (by decide)

theorem Dev.mbxGoBit_setGo_ne (d : Dev) (b : Bool) (other : j ≠ c) : (d.setGo c b).mbxGoBit j = d.mbxGoBit j :=
  congrArg (fun v => W64.bit v 0) (d.reg_setb_ne _ _ (mbxCtrl_ne other))

theorem Dev.mbxGoBit_count (d : Dev) (c sel n : Nat) : (d.count (mbxPage c) sel n).mbxGoBit c = d.mbxGoBit c :=
  congrArg (fun v => W64.bit v 0) (d.reg_count_above _ _ _ (mbxCtrl_above c))

theorem Dev.mbxReceiver_setGo (d : Dev) (c : Nat) (b : Bool) (below : j < 32) : (d.setGo c b).mbxReceiver j = d.mbxReceiver j :=
  congrArg (fun v => W64.field v 7 4) (d.reg_setb_ne _ _ (mbx0_ne c _ (by omega)))

theorem Dev.mbxReceiver_lt (d : Dev) (c : Nat) : d.mbxReceiver c < 16 := W64.field_lt ..

theorem Dev.lt_of_mbxMay {code : Nat} (may : d.mbxMay g c code = true) : c < 32 := by
  unfold Dev.mbxMay at may
  simp only [Bool.and_eq_true, decide_eq_true_eq] at may
  exact may.1.1

/-! ### GO (R445, R446) -/

/-- The machine with a message in a channel, and its receiver not told: GO reads 1 and SEQ is one more. -/
def Dev.mbxFilled (d : Dev) (c : Nat) : Dev :=
  ((d.setGo c true).setf (mbxPage c) (mbxBase c + 0x60) 23 16 (d.regf (mbxPage c) (mbxBase c + 0x60) 23 16 + 1)).count (mbxPage c) 0x01 1

/-- The word of MBX_DB that tells the receiver of a channel. -/
def Dev.mbxDb (d : Dev) (c : Nat) : Nat := 0x100 + 16 * d.mbxReceiver c

theorem Dev.mbxFilled_mem (d : Dev) (c : Nat) : (d.mbxFilled c).mem = d.mem := by
  unfold Dev.mbxFilled
  rw [Dev.count_mem]
  rfl

/-- MBX_CTRL of a channel with a message. -/
theorem Dev.reg_mbxFilled (d : Dev) (c : Nat) : (d.mbxFilled c).reg (mbxPage c) (mbxBase c + 0x60) =
    ((d.reg (mbxPage c) (mbxBase c + 0x60)).setField 0 0 1).setField 23 16 (d.regf (mbxPage c) (mbxBase c + 0x60) 23 16 + 1) := by
  rw [Dev.mbxFilled, Dev.reg_count_above _ _ _ _ (mbxCtrl_above c), Dev.reg_setf, Dev.setGo, Dev.reg_setb, if_pos rfl]

theorem Dev.reg_mbxFilled_mbx0 (d : Dev) (c : Nat) {o : Nat} (small : o < 4096) : (d.mbxFilled c).reg (pgMbx 0) o = d.reg (pgMbx 0) o := by
  rw [Dev.mbxFilled, (HeaderOut.count _ (mbxPage c) _ _).reg (fun k _ => mbx0_ne c k small), Dev.reg_setf_ne _ _ _ _ (mbx0_ne c _ small),
    Dev.setGo, Dev.reg_setb_ne _ _ _ (mbx0_ne c _ small)]

/-- The interrupt of a doorbell only drives out. -/
theorem Dev.mbxIrq_eq (d : Dev) (a : Nat) : ∃ o, d.mbxIrq a = { d with out := o } := by
  unfold Dev.mbxIrq
  split
  · exact ⟨_, rfl⟩
  · split <;> exact ⟨_, rfl⟩

@[simp] theorem Dev.mbxIrq_mem (d : Dev) (a : Nat) : (d.mbxIrq a).mem = d.mem := by
  obtain ⟨_, irq⟩ := d.mbxIrq_eq a
  rw [irq]

theorem Dev.reg_mbxIrq (d : Dev) (a p o : Nat) : (d.mbxIrq a).reg p o = d.reg p o := by
  obtain ⟨_, irq⟩ := d.mbxIrq_eq a
  rw [irq]
  rfl

/-- A message is posted: the channel is filled, the receiver's doorbell bit set, and the receiver interrupted. -/
theorem Dev.mbxPost_eq (d : Dev) (below : c < 32) : d.mbxPost c =
    ((d.mbxFilled c).setb (pgMbx 0) (d.mbxDb c) (d.regf (pgMbx 0) (0x200 + 8 * c) 12 8) true).mbxIrq (d.mbxReceiver c) := by
  rw [Dev.regf, ← d.reg_mbxFilled_mbx0 c (by omega)]
  rfl

theorem Dev.mbxPost_mem (d : Dev) (below : c < 32) : (d.mbxPost c).mem = d.mem := by
  rw [d.mbxPost_eq below, Dev.mbxIrq_mem, Dev.setb_mem, d.mbxFilled_mem]

/-- The receiver's doorbell bit is set. -/
theorem Dev.regb_mbxPost_db (d : Dev) (below : c < 32) :
    (d.mbxPost c).regb (pgMbx 0) (d.mbxDb c) (d.regf (pgMbx 0) (0x200 + 8 * c) 12 8) = true := by
  have place : d.regf (pgMbx 0) (0x200 + 8 * c) 12 8 < 32 := W64.field_lt ..
  rw [d.mbxPost_eq below, Dev.regb, Dev.reg_mbxIrq]
  exact Dev.regb_setb _ _ _ _ _ (by omega)

/-- MBX_CTRL after a message is posted. -/
theorem Dev.reg_mbxPost (d : Dev) (below : c < 32) :
    (d.mbxPost c).reg (mbxPage c) (mbxBase c + 0x60) = (d.mbxFilled c).reg (mbxPage c) (mbxBase c + 0x60) := by
  have small : d.mbxDb c < 4096 := by have := d.mbxReceiver_lt c; unfold Dev.mbxDb; omega
  rw [d.mbxPost_eq below, Dev.reg_mbxIrq, Dev.reg_setb_ne _ _ _ (mbx0_ne c _ small).symm]

theorem Dev.mbxGoBit_mbxPost (d : Dev) (below : c < 32) : (d.mbxPost c).mbxGoBit c = true := by
  rw [Dev.mbxGoBit, Dev.regb, d.reg_mbxPost below, d.reg_mbxFilled, W64.bit_setField_apart _ _ (by decide) (by decide)]
  exact (W64.bit_setField_one _ 0 0 true (by decide)).trans (if_pos rfl)

theorem Dev.seq_mbxPost (d : Dev) (below : c < 32) : (d.mbxPost c).regf (mbxPage c) (mbxBase c + 0x60) 23 16 =
    (d.regf (mbxPage c) (mbxBase c + 0x60) 23 16 + 1) % 256 := by
  rw [Dev.regf, d.reg_mbxPost below, d.reg_mbxFilled, W64.field_setField _ _ (by decide) (by decide)]
  rfl

section
variable (may : d.mbxMay g c (d.mbxSender c) = true)
include may

theorem mbxGo_posted (empty : d.mbxGoBit c = false) (enabled : d.regb (pgMbx 0) (0x200 + 8 * c) 15 = true) : mbxGo d g c = d.mbxPost c := by
  simp [mbxGo, may, empty, enabled]

theorem mbxGo_disabled (empty : d.mbxGoBit c = false) (off : d.regb (pgMbx 0) (0x200 + 8 * c) 15 = false) : mbxGo d g c = d := by
  simp [mbxGo, may, empty, off]

theorem mbxGo_full (full : d.mbxGoBit c = true) :
    mbxGo d g c = (d.count (mbxPage c) 0x04 1).raise (mbxPage c) 0x0801 (d.mbxSender c * 4096 + c) 0 := by
  simp [mbxGo, may, full]

/-! ### Data words and LEN (R444) -/

theorem mbxData_full (inRange : i ≤ 12) (full : d.mbxGoBit c = true) : mbxData d g c i w = d.count (mbxPage c) 0x03 1 := by
  simp [mbxData, may, full, inRange]

/-- A write of a word of a channel without a message takes it, of MBX_CTRL its LEN. -/
theorem mbxData_empty (inRange : i ≤ 12) (empty : d.mbxGoBit c = false) : mbxData d g c i w =
    if i = 12 then d.setf (mbxPage c) (mbxBase c + 8 * i) 11 8 ((d.merged (mbxPage c) (mbxBase c + 8 * i) w).field 11 8)
    else d.setReg (mbxPage c) (mbxBase c + 8 * i) (d.merged (mbxPage c) (mbxBase c + 8 * i) w) := by
  simp [mbxData, may, empty, inRange]

end

/-! ### TAKE (R447) -/

theorem mbxTake_full (may : d.mbxMay g c (d.mbxReceiver c) = true) (full : d.mbxGoBit c = true) : mbxTake d g c = d.mbxEnd c := by
  simp [mbxTake, may, full]

theorem Dev.fwNext_none (none : KV.get [] d.svc.heldOut c = []) : d.fwNext c = d := by
  simp [Dev.fwNext, none]

/-- With no reply held for it, a channel is empty when its message ends. -/
theorem Dev.mbxGoBit_mbxEnd (none : KV.get [] d.svc.heldOut c = []) : (d.mbxEnd c).mbxGoBit c = false := by
  have held : ((d.setGo c false).count (mbxPage c) 0x02 1).svc = d.svc := by
    rw [Dev.count_svc]
    rfl
  rw [Dev.mbxEnd, Dev.fwNext_none (by rw [held, none]), Dev.mbxGoBit_count, Dev.mbxGoBit_setGo]

/-! ### Configuration (R443) -/

/-- A write of MBX_CFG of a channel without a message is taken when it may name both its agents. -/
theorem mbxCfg_empty (below : c < 32) (may : d.mayWrite w.agent (pgMbx 0) (0x200 + 8 * c) = true) (empty : d.mbxGoBit c = false) :
    mbxCfg d c w =
      let v := d.merged (pgMbx 0) (0x200 + 8 * c) w
      if mbxNames c (v.field 3 0) && mbxNames c (v.field 7 4) then d.setReg (pgMbx 0) (0x200 + 8 * c) (v &&& 0x9FFF) else d :=
  if_neg (by simp [may, empty]; omega)

end

/-- Settles O47: each write is its case of the model's function; a message posted fills its channel and sets one bit of MBX_DB, and
neither the count nor the interrupt touches them. -/
theorem mailboxes : Obligations.Mailboxes := by
  unfold Obligations.Mailboxes
  refine ⟨fun s g c may => ⟨fun empty enabled => ?_, fun empty off => ?_, fun full => ?_⟩,
    fun s g c w => ⟨fun may full => ⟨?_, fun none => Dev.mbxGoBit_mbxEnd none⟩, fun may i inRange => ⟨fun full => ?_, fun empty word => ?_,
      fun empty ctrl => ?_⟩, fun below may empty => ⟨fun named => ?_, fun unnamed => ?_⟩⟩⟩
  · have below := Dev.lt_of_mbxMay may
    refine ⟨_, by rw [exec_mbxGo, mbxGo_posted may empty enabled], ?_, ?_, ?_, ?_⟩ <;> rw [State.after_dev]
    · exact Dev.mbxGoBit_mbxPost _ below
    · exact Dev.seq_mbxPost _ below
    · exact Dev.regb_mbxPost_db _ below
    · exact Dev.mbxPost_mem _ below
  · rw [exec_mbxGo, mbxGo_disabled may empty off]
  · rw [exec_mbxGo, mbxGo_full may full]
  · rw [exec_mbxTake, mbxTake_full may full]
    rfl
  · rw [exec_mbxDataWrite, mbxData_full may inRange full]
  · rw [exec_mbxDataWrite, mbxData_empty may inRange empty, if_neg (Nat.ne_of_lt word)]
  · subst ctrl
    rw [exec_mbxDataWrite, mbxData_empty may inRange empty, if_pos rfl]
  · rw [exec_mbxCfgWrite, mbxCfg_empty below may empty]
    exact congrArg (fun e => Host.Outcome.next (s.after e)) (if_pos named)
  · rw [exec_mbxCfgWrite, mbxCfg_empty below may empty]
    exact congrArg (fun e => Host.Outcome.next (s.after e)) (if_neg (by simp [unnamed]))

end Sys2Proof.Machine

/-! SUPPORT. Runs of the work of a request to firmware: its steps, its checks, and its reads of memory (R29, R202). -/

namespace Sys2Proof.Machine

namespace SM

section
variable {α β : Type} {x : SM α} {f : α → SM β} {d e : Dev}

theorem run_bind_ok {a : α} (h : x.run.run d = (.ok a, e)) : (x >>= f).run.run d = (f a).run.run e := by
  change (let p := x.run.run d; (ExceptT.bindCont f p.1) p.2) = _
  rw [h]
  rfl

theorem run_bind_error {r : Option (Nat × W64)} (h : x.run.run d = (.error r, e)) : (x >>= f).run.run d = (.error r, e) := by
  change (let p := x.run.run d; (ExceptT.bindCont f p.1) p.2) = _
  rw [h]
  rfl

theorem run_get (d : Dev) : (get : SM Dev).run.run d = (.ok d, d) := rfl

theorem run_needs {b : Bool} (status : Nat) (h : b = true) : (needs b status).run.run d = (.ok (), d) := by
  rw [needs, if_pos h]
  rfl

theorem run_needs_not {b : Bool} (status : Nat) (h : b = false) : (needs b status).run.run d = (.error (some (status, 0)), d) := by
  rw [needs, if_neg (by simp [h])]
  rfl

theorem run_access {pa n : Nat} (ok : d.rangeOk pa n fwReach = true) (reaches : d.rangeReaches pa n = true) :
    (access pa n).run.run d = (.ok (), d) := by
  unfold access
  rw [run_bind_ok (run_get d), run_bind_ok (run_needs 1 ok), reaches]
  rfl

theorem run_pread {pa n : Nat} {bs : List Byte} (ok : d.rangeOk pa n fwReach = true) (reaches : d.rangeReaches pa n = true)
    (load : d.load pa n = (e, bs, none)) : (pread pa n).run.run d = (.ok bs, e) := by
  unfold pread
  rw [run_bind_ok (run_access ok reaches), run_bind_ok (run_get d), load]
  rfl

theorem runS_ok {work : SM (List W64)} {ws : List W64} (h : work.run.run d = (.ok ws, e)) : runS d work = (e, some (0, ws)) := by
  rw [runS, h]

end

/-- What a run of firmware's work leaves. -/
abbrev Result (α : Type) := Except (Option (Nat × W64)) α × Dev

end SM

end Sys2Proof.Machine

/-! PROOFS. Requests to firmware for the fabric, the queues and telemetry, datagrams, and the heartbeat (R431, R449, R450, R459 to
R461). -/

namespace Sys2Proof.Machine

/-! ### The commands are their meanings, on the machine as they find it -/

theorem exec_setDeviceId (via : Via) (id : Nat) (s : State) : exec (.setDeviceId via id) s = .next (s.after (setDeviceId s.quiet via id)) := rfl
theorem exec_routeTableLoad (via : Via) (a n : Nat) (s : State) :
    exec (.routeTableLoad via a n) s = .next (s.after (routeTableLoad s.quiet via a n)) := rfl
theorem exec_meshEntrySet (via : Via) (i : Nat) (v : List W64) (s : State) :
    exec (.meshEntrySet via i v) s = .next (s.after (meshEntrySet s.quiet via i v)) := rfl
theorem exec_absentPeerClear (via : Via) (p : Nat) (s : State) :
    exec (.absentPeerClear via p) s = .next (s.after (absentPeerClear s.quiet via p)) := rfl
theorem exec_queueTableQuery (via : Via) (s : State) : exec (.queueTableQuery via) s = .next (s.after (queueTableQuery s.quiet via)) := rfl
theorem exec_queueTableMap (via : Via) (map : Bool) (va q : Nat) (s : State) :
    exec (.queueTableMap via map va q) s = .next (s.after (queueTableMap s.quiet via map va q)) := rfl
theorem exec_telemetryEnable (via : Via) (s : State) : exec (.telemetryEnable via) s = .next (s.after (telemetryEnable s.quiet via)) := rfl
theorem exec_mgmtDatagram (port session : Nat) (secured : Bool) (words : List W64) (s : State) :
    exec (.mgmtDatagram port session secured words) s = .next (s.after (mgmtDatagram s.quiet port session secured words)) := rfl
theorem exec_fwAliveTick (s : State) : exec .fwAliveTick s = .next (s.after (fwAliveTick s.quiet)) := rfl

section
variable {d₀ d e : Dev} {via : Via} {ws : List W64}

/-! ### Requests (R449, R450) -/

/-- A request that is taken and whose work answers gets a reply with the answer. -/
theorem Dev.serve_answered {service op : Nat} {work : Dev → List W64 → Dev × Answer} {status : Nat} {data : List W64}
    (taken : d₀.takeRequest via service op = some (d, ws)) (answer : work d ws = (e, some (status, data))) :
    d₀.serve via service op work = e.reply via ws status data := by
  rw [Dev.serve, taken]
  dsimp only
  rw [answer]

/-! ### The fabric (R459) -/

theorem setDeviceId_valid {id : Nat} (taken : d₀.takeRequest via 5 1 = some (d, ws)) (small : id < 2 ^ 14) :
    setDeviceId d₀ via id = (d.putDevId (BitVec.ofNat 64 (id + 2 ^ 63))).reply via ws 0 [] :=
  Dev.serve_answered taken (if_pos small)

theorem setDeviceId_invalid {id : Nat} (taken : d₀.takeRequest via 5 1 = some (d, ws)) (large : 2 ^ 14 ≤ id) :
    setDeviceId d₀ via id = d.reply via ws 1 [] :=
  Dev.serve_answered taken (if_neg (Nat.not_lt.2 large))

/-- The route table is read whole, then written to its place, and the caches of routes are invalidated. -/
theorem routeTableLoad_done {a n base : Nat} {bs : List Byte} (taken : d₀.takeRequest via 5 2 = some (d, ws))
    (place : d.regf pgSys 0x610 47 12 * 4096 = base) (fits : n ≤ 16384) (source : d.rangeOk a (32 * n) inDram = true)
    (target : d.rangeOk base (32 * n) fwReach = true) (load : (pread a (32 * n)).run.run d = (.ok bs, e))
    (access : (access base (32 * n)).run.run e = (.ok (), e)) :
    routeTableLoad d₀ via a n = (routeInv (e.store base bs) (fwWrite (BitVec.ofNat 64 (2 ^ 63 + 2 ^ 15)))).reply via ws 0 [] := by
  subst place
  refine Dev.serve_answered taken (SM.runS_ok ?_)
  have checks :
      (decide (n ≤ 16384) && d.rangeOk a (32 * n) inDram && d.rangeOk (d.regf pgSys 0x610 47 12 * 4096) (32 * n) fwReach) = true := by
    simp [fits, source, target]
  exact (SM.run_bind_ok (SM.run_needs 1 checks)).trans ((SM.run_bind_ok load).trans ((SM.run_bind_ok access).trans rfl))

theorem meshEntrySet_taken {i : Nat} {v : List W64} (taken : d₀.takeRequest via 5 3 = some (d, ws)) (entry : i < 16) (words : v.length = 4) :
    meshEntrySet d₀ via i v =
      ((List.range 4).foldl (fun d k => d.plainWrite pgSys (0x700 + 32 * i + 8 * k) (fwWrite (wd v k))) d).reply via ws 0 [] :=
  Dev.serve_answered taken (if_pos ⟨entry, words⟩)

theorem absentPeerClear_taken {p : Nat} (taken : d₀.takeRequest via 5 4 = some (d, ws)) (small : p < 2 ^ 14) :
    absentPeerClear d₀ via p = (d.engines.foldl (fun d h => peerClear d h (fwWrite (BitVec.ofNat 64 p))) d).reply via ws 0 [] :=
  Dev.serve_answered taken (if_pos small)

/-! ### Queues and telemetry (R460, R461) -/

theorem queueTableQuery_taken (taken : d₀.takeRequest via 4 1 = some (d, ws)) :
    queueTableQuery d₀ via = d.reply via ws 0 [d.reg pgSys 0x430, d.reg pgSys 0x438, d.reg pgPci 0x100] :=
  Dev.serve_answered taken rfl

theorem telemetryEnable_taken (taken : d₀.takeRequest via 6 1 = some (d, ws)) :
    telemetryEnable d₀ via = { d with svc := { d.svc with telemetry := true } }.reply via ws 0 [] :=
  Dev.serve_answered taken rfl

/-- A request to map an address of the BAR2 view to a queue's table entry may be carried out. -/
def Dev.mayMap (d : Dev) (va q : Nat) : Bool :=
  decide (va % 65536 = 0 ∧ (d.reg pgPci 0x100).toNat ≤ va ∧ va < (d.reg pgPci 0x100).toNat + 2 ^ d.regf pgPci 0x110 5 0 ∧ q < 65536)
    && d.corePresent (q / 8192)

/-- The machine with the last-level entry at `a` of a virtual address written, and the translations of its page dropped. -/
def Dev.mapPage (d : Dev) (va a : Nat) (entry : W64) : Dev :=
  let f := d.storeWord a entry
  { f with tlbs := f.tlbs.filter (fun t => t.1 % 2 ^ 32 != va / 65536), ptSeen := KV.erase f.ptSeen (va / 65536) }

theorem queueTableMap_done {map : Bool} {va q a : Nat} (taken : d₀.takeRequest via 4 2 = some (d, ws)) (may : d.mayMap va q = true)
    (table : (tableEntryOf va).run.run d = (.ok a, e)) (access : (access a 8).run.run e = (.ok (), e)) :
    queueTableMap d₀ via map va q =
      (e.mapPage va a (if map then BitVec.ofNat 64 (d.queueEntry q / 65536 * 65536 + 7) else 0)).reply via ws 0 [] :=
  Dev.serve_answered taken (SM.runS_ok
    ((SM.run_bind_ok (SM.run_needs 1 may)).trans ((SM.run_bind_ok table).trans ((SM.run_bind_ok access).trans rfl))))

/-! ### Datagrams and the heartbeat (R431, R461) -/

theorem mgmtDatagram_secured {port session : Nat} {words : List W64} (up : d.up = true) (booted : d.sec.booted = true) (there : port < 2)
    (known : d.sec.sessions.contains (.mgmtPort, session) = true) (whole : words.length = 12) :
    mgmtDatagram d port session true words = { d with svc := { d.svc with mgmtReq := d.svc.mgmtReq ++ [words] } } :=
  if_pos (by rw [up, booted, known, whole, decide_eq_true there]; rfl)

/-- Without telemetry a tick of serving firmware only advances the heartbeat. -/
theorem fwAliveTick_quiet (serving : d.serving = true) (off : d.svc.telemetry = false) :
    fwAliveTick d = d.setReg pgSys 0x900 (BitVec.ofNat 64 ((d.regf pgSys 0x900 62 0 + 1) % 2 ^ 63)) := by
  unfold fwAliveTick
  rw [if_neg (by simp [serving])]
  exact if_pos (by simp [off])

end

/-- Settles O48: each service is a request that is taken, work that answers, and a reply; firmware's accesses go through where the
ranges reach. -/
theorem firmwareServices : Obligations.FirmwareServices := by
  unfold Obligations.FirmwareServices
  refine ⟨fun s via d ws => ⟨fun taken id => ⟨fun small => ?_, fun large => ?_⟩,
    fun taken a n e bs fits source from' reaches target load target' reaches' => ?_, fun taken i v entry words => ?_, fun taken p small => ?_,
    fun taken => ?_, fun taken map va q a e aligned low high queue core table ok reaches => ?_, fun taken => ?_⟩,
    fun s => ⟨fun port session words up booted there known whole => ?_, fun serving off => ?_⟩⟩
  · rw [exec_setDeviceId, setDeviceId_valid taken small]
  · rw [exec_setDeviceId, setDeviceId_invalid taken large]
  · rw [exec_routeTableLoad,
      routeTableLoad_done taken rfl fits source target (SM.run_pread from' reaches load) (SM.run_access target' reaches')]
  · rw [exec_meshEntrySet, meshEntrySet_taken taken entry words]
  · rw [exec_absentPeerClear, absentPeerClear_taken taken small]
  · rw [exec_queueTableQuery, queueTableQuery_taken taken]
  · have may : d.mayMap va q = true := by
      unfold Dev.mayMap
      rw [core, decide_eq_true ⟨aligned, low, high, queue⟩]
      rfl
    rw [exec_queueTableMap, queueTableMap_done taken may table (SM.run_access ok reaches)]
    rfl
  · rw [exec_telemetryEnable, telemetryEnable_taken taken]
  · rw [exec_mgmtDatagram, mgmtDatagram_secured up booted there known whole]
  · rw [exec_fwAliveTick, fwAliveTick_quiet serving off]

end Sys2Proof.Machine

/-! PROOFS. Ingest, checkpoint and restore (R452 to R458). -/

namespace Sys2Proof.Machine

/-! ### The commands are their meanings, on the machine as they find it -/

theorem exec_ingest (via : Via) (s : State) : exec (.ingest via) s = .next (s.after (ingestOpen s.quiet via)) := rfl
theorem exec_ingestComplete (slot status : Nat) (s : State) :
    exec (.ingestComplete slot status) s = .next (s.after (ingestComplete s.quiet slot status)) := rfl
theorem exec_checkpoint (via : Via) (s : State) : exec (.checkpoint via) s = .next (s.after (checkpointOpen s.quiet via)) := rfl
theorem exec_checkpointComplete (s : State) : exec .checkpointComplete s = .next (s.after (checkpointDone s.quiet)) := rfl
theorem exec_restore (via : Via) (s : State) : exec (.restore via) s = .next (s.after (restoreServe s.quiet via)) := rfl

section
variable {d₀ d e : Dev} {via : Via} {ws : List W64}

/-! ### The beginning of an ingest (R452, R453) -/

/-- An ingest request that waits for a decode engine. -/
def ingestWaiting (via : Via) (ws : List W64) : IngestReq := { words := ws, via := via, run := false }

/-- A request that was parsed opens in a slot; one that fails a check gets its status. -/
def ingestParsed (via : Via) (ws : List W64) (slot : Nat) : SM.Result IngestArgs → Dev
  | (.error (some r), e) => e.reply via ws r.1 [0, r.2]
  | (.error none, e) => e
  | (.ok _, e) => { e with svc := { e.svc with ingests := e.svc.ingests ++ [(slot, ingestWaiting via ws)] } }.runIngests

theorem ingestOpen_busy (taken : d₀.takeRequest via 1 1 = some (d, ws)) (full : freeSlot d.svc.ingests = none) :
    ingestOpen d₀ via = d.reply via ws 2 [0, 0] := by
  rw [ingestOpen, taken]
  dsimp only
  rw [full]

theorem ingestOpen_slot {slot : Nat} (taken : d₀.takeRequest via 1 1 = some (d, ws)) (free : freeSlot d.svc.ingests = some slot) :
    ingestOpen d₀ via = ingestParsed via ws slot ((parseIngest ws).run.run d) := by
  rw [ingestOpen, taken]
  dsimp only
  rw [free]
  rcases (parseIngest ws).run.run d with ⟨(_ | ⟨_, _⟩) | _, _⟩ <;> rfl

/-! ### Its end (R454, R455) -/

/-- The machine with the ingest of a slot closed. -/
def Dev.ingestClosed (d : Dev) (slot : Nat) : Dev :=
  { d with svc := { d.svc with ingests := d.svc.ingests.filter (fun x => x.1 != slot) } }

/-- The reply of an ingest: DONE advances, and the next request takes the decode engine. -/
def Dev.ingestReply (d : Dev) (q : IngestReq) (status : Nat) (data : List W64) : Dev :=
  ((d.doneWord (wd q.words 10)).reply q.via q.words status data).runIngests

/-- Frames that an ingest keeps of those it reads. -/
def IngestArgs.kept (a : IngestArgs) : Nat := (a.frames + a.stride - 1) / a.stride

/-- The end of an ingest whose decoding ended OK, by its request parsed again: `d` where an access never completes. -/
def Dev.ingestOk (d : Dev) (q : IngestReq) : SM.Result IngestArgs → Dev
  | (.error none, _) => d
  | (.error (some r), f) => f.ingestReply q r.1 [0, if r.1 = 0 then 0 else r.2]
  | (.ok a, f) =>
    if !f.rangeReaches a.dst.base (a.dst.bytes (Fmt.codeWidth a.dst.fmt)) then d
    else (writeFrames a f a.kept).ingestReply q 0 [BitVec.ofNat 64 a.kept, 0]

theorem ingestComplete_ok {slot : Nat} {q : IngestReq} (found : d.svc.ingests.find? (fun x => x.1 == slot) = some (slot, q))
    (serving : d.serving = true) (run : q.run = true) (reaches : d.doneReaches (wd q.words 10) = true) :
    ingestComplete d slot 0 = d.ingestOk q ((parseIngest q.words).run.run (d.ingestClosed slot)) := by
  rw [ingestComplete, found]
  dsimp only
  rw [if_neg (by simp [serving, run]), if_neg (by simp [reaches])]
  generalize parsed : (parseIngest q.words).run.run (d.ingestClosed slot) = r
  unfold Dev.ingestClosed at parsed
  rw [parsed]
  rcases r with ⟨(_ | ⟨_, _⟩) | _, _⟩ <;> rfl

/-! ### Checkpoints (R456, R457) -/

/-- The checks of a checkpoint request. -/
def checkpointCheck (ws : List W64) : SM Unit := do
  let d ← get
  needs (d.allPinned ((wd ws 4).field 47 0)) 5
  let pl := drivePlace ws
  let n ← imageBytes
  needs (n ≤ pl.2.2.2 * blockSize pl.1 pl.2.1) 1

/-- A checkpoint request as it opens: with WINDOW set it begins once a window is open. -/
def Dev.checkpointAsked (d : Dev) (via : Via) (ws : List W64) : CkptReq :=
  { words := ws, via := via, begun := !(wd ws 5).bit 0 || d.fts.windows.any (fun w => w.checkpoint) }

/-- A request that was checked opens; one that fails a check gets its status. -/
def checkpointChecked (via : Via) (ws : List W64) : SM.Result Unit → Dev
  | (.error (some r), e) => e.reply via ws r.1 [0, r.2]
  | (.error none, e) => e
  | (.ok _, e) => { e with svc := { e.svc with ckpt := some (e.checkpointAsked via ws) } }

theorem checkpointOpen_idle (idle : d₀.svc.ckpt = none) (taken : d₀.takeRequest via 2 1 = some (d, ws)) :
    checkpointOpen d₀ via = checkpointChecked via ws ((checkpointCheck ws).run.run d) := by
  rw [checkpointOpen, if_neg (by simp [idle]), taken]
  generalize checked : (checkpointCheck ws).run.run d = r
  unfold checkpointCheck at checked
  dsimp only at checked ⊢
  rw [checked]
  rcases r with ⟨(_ | ⟨_, _⟩) | _, _⟩ <;> rfl

theorem run_checkpointCheck_notPinned (loose : d.allPinned ((wd ws 4).field 47 0) = false) :
    (checkpointCheck ws).run.run d = (.error (some (5, 0)), d) :=
  (SM.run_bind_ok (SM.run_get d)).trans (SM.run_bind_error (SM.run_needs_not 5 loose))

theorem run_checkpointCheck_fits {n : Nat} (pinned : d.allPinned ((wd ws 4).field 47 0) = true) (size : imageBytes.run.run d = (.ok n, e))
    (fits : n ≤ (drivePlace ws).2.2.2 * blockSize (drivePlace ws).1 (drivePlace ws).2.1) : (checkpointCheck ws).run.run d = (.ok (), e) :=
  (SM.run_bind_ok (SM.run_get d)).trans ((SM.run_bind_ok (SM.run_needs 5 pinned)).trans ((SM.run_bind_ok size).trans
    (SM.run_needs 1 (decide_eq_true fits))))

/-- A checkpoint's image goes to the drive, whole or, where the drive fails, in part; then DONE advances and the reply goes out. -/
def Dev.checkpointWrite (d : Dev) (k : CkptReq) (img : List Byte) : Dev :=
  let pl := drivePlace k.words
  let bs := blockSize pl.1 pl.2.1
  let f := driveFails d
  if f.2 then
    let g := f.1.takeFree
    ((g.1.driveWrite pl.1 pl.2.1 (pl.2.2.1 * bs) (img.take (g.2.toNat % (img.length + 1) / bs * bs))).doneWord (wd k.words 6)).reply
      k.via k.words 4 [0, 0]
  else ((f.1.driveWrite pl.1 pl.2.1 (pl.2.2.1 * bs) img).doneWord (wd k.words 6)).reply k.via k.words 0 []

theorem checkpointDone_written {k : CkptReq} {img : List Byte} (held : d.svc.ckpt = some k) (serving : d.serving = true)
    (begun : k.begun = true) (reaches : d.doneReaches (wd k.words 6) = true)
    (image : (checkpointImage ((wd k.words 4).field 47 0)).run.run { d with svc := { d.svc with ckpt := none } } = (.ok img, e)) :
    checkpointDone d = e.checkpointWrite k img := by
  rw [checkpointDone, held]
  dsimp only
  rw [if_neg (by simp [serving, begun]), if_neg (by simp [reaches]), image]
  rfl

/-! ### Restores (R458) -/

/-- A restore answers what its work answers; BAD_REQUEST and REFUSED advance no DONE. -/
theorem restoreServe_answered {status : Nat} {data : List W64} (taken : d₀.takeRequest via 3 1 = some (d, ws))
    (answer : runS d (restoreWork ws) = (e, some (status, data))) (reaches : e.doneReaches (wd ws 6) = true) :
    restoreServe d₀ via = (if status = 1 ∨ status = 5 then e else e.doneWord (wd ws 6)).reply via ws status data := by
  rw [restoreServe, taken]
  dsimp only
  rw [answer]
  dsimp only
  by_cases refused : status = 1 ∨ status = 5
  · rw [if_pos refused, if_pos refused]
  · rw [if_neg refused, if_neg refused, if_neg (by simp [reaches])]

end

/-- Settles O49: an ingest goes by its request as it is parsed, when it opens and again when it ends; a checkpoint goes by its checks
and its image, a restore by its work. -/
theorem driveServices : Obligations.DriveServices := by
  unfold Obligations.DriveServices
  refine ⟨fun s via d ws => ⟨fun taken => ⟨fun full => ?_, fun slot free => ?_⟩, fun slot q found serving run reaches => ?_⟩,
    fun s via d ws => ⟨fun idle taken => ⟨fun loose => ?_, fun n e pinned size fits => ?_⟩,
      fun k img e held serving begun reaches image => ?_, fun status data e taken answer reaches => ?_⟩⟩
  · rw [exec_ingest, ingestOpen_busy taken full]
  · rw [exec_ingest, ingestOpen_slot taken free]
    rfl
  · rw [exec_ingestComplete, ingestComplete_ok found serving run reaches]
    rfl
  · rw [exec_checkpoint, checkpointOpen_idle idle taken, run_checkpointCheck_notPinned loose]
    rfl
  · rw [exec_checkpoint, checkpointOpen_idle idle taken, run_checkpointCheck_fits pinned size fits]
    rfl
  · rw [exec_checkpointComplete, checkpointDone_written held serving begun reaches image]
    rfl
  · rw [exec_restore, restoreServe_answered taken answer reaches]

end Sys2Proof.Machine

/-! PROOFS. BAR2 accesses, failed requests to host memory, the link's rate and width, and a reset of the management controller's
port (R435 to R437, R440, R448, R464). -/

namespace Sys2Proof.Machine

/-! ### The commands are their meanings, on the machine as they find it -/

theorem exec_bar2Access (write : Bool) (o n : Nat) (data : List Byte) (s : State) :
    exec (.bar2Access write o n data) s = .next (s.after (bar2Access s.quiet write o n data)) := rfl
theorem exec_dmaTimeout (posted answered : Bool) (s : State) :
    exec (.dmaTimeout posted answered) s = .next (s.after (dmaTimeout s.quiet posted answered)) := rfl
theorem exec_pcieLinkChange (rate width : Nat) (flit : Bool) (s : State) :
    exec (.pcieLinkChange rate width flit) s = .next (s.after (pcieLink s.quiet rate width flit)) := rfl
theorem exec_bmcSidebandReset (s : State) : exec .bmcSidebandReset s = .next (s.after (bmcReset s.quiet)) := rfl

section
variable {d e : Dev} {o n pa : Nat} {data : List Byte}

/-! ### BAR2 while firmware does not serve (R440) -/

theorem bar2Access_read_unserved (up : d.up = true) (idle : d.serving = false) (within : o + n ≤ d.bar2Size) :
    bar2Access d false o n [] = d.emit (.bytes (List.replicate n 0xFF) false) := by
  simp [bar2Access, up, idle, within]

theorem bar2Access_write_unserved (up : d.up = true) (idle : d.serving = false) : bar2Access d true o n data = d := by
  simp [bar2Access, up, idle]

/-! ### BAR2 while firmware serves (R435, R436) -/

section
variable (up : d.up = true) (serving : d.serving = true)
include up serving

section
variable (within : o + n ≤ d.bar2Size)
include within

/-- A read of one part that completes is performed there; one that meets poison is counted and says so. -/
theorem bar2Access_read
    (parts : bar2Parts false (pageChunks ((d.reg pgPci 0x100).toNat + o) n) (d.count pgPci 0x01 1) = (e, some [(pa, n)]))
    (reaches : e.reaches pa = true) :
    bar2Access d false o n [] =
      let x := e.load pa n
      (if x.2.2.isSome then x.1.count pgPci 0x06 1 else x.1).emit (.bytes x.2.1 x.2.2.isSome) := by
  rw [← d.reg_count_above pgPci 0x01 1 (by decide)] at parts
  simp [bar2Access, up, serving, within, parts, reaches]

theorem bar2Access_read_fault
    (parts : bar2Parts false (pageChunks ((d.reg pgPci 0x100).toNat + o) n) (d.count pgPci 0x01 1) = (e, none)) :
    bar2Access d false o n [] = e.bar2Fault.emit .abort := by
  rw [← d.reg_count_above pgPci 0x01 1 (by decide)] at parts
  simp [bar2Access, up, serving, within, parts]

end

theorem bar2Access_write (within : o + data.length ≤ d.bar2Size)
    (parts : bar2Parts true (pageChunks ((d.reg pgPci 0x100).toNat + o) data.length) (d.count pgPci 0x02 1) = (e, some [(pa, data.length)]))
    (reaches : e.reaches pa = true) : bar2Access d true o n data = e.storeBy false pa data false := by
  rw [← d.reg_count_above pgPci 0x02 1 (by decide)] at parts
  simp [bar2Access, up, serving, within, parts, reaches]

end

/-! ### The host link (R434, R437, R464) -/

theorem dmaTimeout_posted (up : d.up = true) (answered : Bool) :
    dmaTimeout d true answered = { d with svc := { d.svc with dmaFail := some true } }.setIsr pgPci 1 := by
  simp [dmaTimeout, up]

theorem dmaTimeout_read (up : d.up = true) (answered : Bool) : dmaTimeout d false answered =
    { d with svc := { d.svc with dmaFail := some false } }.count pgPci (if answered then 0x05 else 0x04) 1 := by
  simp [dmaTimeout, up]

theorem pcieLink_up {rate width : Nat} (up : d.up = true) (least : 1 ≤ rate) (most : rate ≤ 5) (lanes : width ∈ linkWidths) :
    pcieLink d rate width false = (d.setReg pgPci 0x108 (BitVec.ofNat 64 (rate + width * 8))).setIsr pgPci 2 := by
  have not6 : rate ≠ 6 := by omega
  have not0 : rate ≠ 0 := by omega
  have le6 : rate ≤ 6 := by omega
  simp [pcieLink, up, not6, not0, le6, lanes]

theorem pcieLink_down (up : d.up = true) : pcieLink d 0 0 false = (d.setReg pgPci 0x108 0).setIsr pgPci 2 := by
  simp [pcieLink, up]

/-! ### Resets of a mailbox receiver (R448) -/

/-- The message of a channel ends if it is to an agent. -/
def Dev.endMessageTo (agent : Nat) (d : Dev) (c : Nat) : Dev :=
  if d.mbxReceiver c = agent ∧ d.mbxGoBit c then d.setGo c false else d

variable {agent c j : Nat}

theorem Dev.mbxReceiver_endMessageTo (d : Dev) (agent c : Nat) (below : j < 32) : (d.endMessageTo agent c).mbxReceiver j = d.mbxReceiver j := by
  unfold Dev.endMessageTo
  split
  · exact d.mbxReceiver_setGo c false below
  · rfl

theorem Dev.mbxGoBit_endMessageTo_ne (d : Dev) (agent : Nat) (other : j ≠ c) : (d.endMessageTo agent c).mbxGoBit j = d.mbxGoBit j := by
  unfold Dev.endMessageTo
  split
  · exact d.mbxGoBit_setGo_ne false other
  · rfl

theorem Dev.mbxGoBit_endMessageTo (d : Dev) (agent c : Nat) :
    (d.endMessageTo agent c).mbxGoBit c = if d.mbxReceiver c = agent then false else d.mbxGoBit c := by
  unfold Dev.endMessageTo
  by_cases mine : d.mbxReceiver c = agent
  · cases full : d.mbxGoBit c <;> simp [mine, full]
  · simp [mine]

/-- GO of a channel after messages of some channels to an agent end. -/
theorem Dev.mbxGoBit_foldl_endMessageTo (d : Dev) (agent : Nat) (below : c < 32) (l : List Nat) :
    (l.foldl (Dev.endMessageTo agent) d).mbxGoBit c = if c ∈ l ∧ d.mbxReceiver c = agent then false else d.mbxGoBit c := by
  induction l generalizing d with
  | nil => simp
  | cons x l ih =>
    rw [List.foldl_cons, ih, Dev.mbxReceiver_endMessageTo _ _ _ below]
    by_cases same : c = x
    · subst same
      rw [Dev.mbxGoBit_endMessageTo]
      by_cases mine : d.mbxReceiver c = agent <;> simp [mine]
    · simp [Dev.mbxGoBit_endMessageTo_ne _ _ same, same]

theorem Dev.clearGoFor_eq (d : Dev) (agent : Nat) : d.clearGoFor agent = (List.range 32).foldl (Dev.endMessageTo agent) d := rfl

theorem Dev.mbxGoBit_clearGoFor (d : Dev) (agent : Nat) (below : c < 32) :
    (d.clearGoFor agent).mbxGoBit c = if d.mbxReceiver c = agent then false else d.mbxGoBit c := by
  rw [d.clearGoFor_eq, d.mbxGoBit_foldl_endMessageTo agent below]
  simp only [List.mem_range.2 below, true_and]

theorem bmcReset_up (up : d.up = true) : bmcReset d = d.clearGoFor 4 := if_pos up

end

/-- Settles O50: an access of BAR2 goes by the parts that translation gives it; the reset of the management controller's port goes
through the channels, ending the messages to it. -/
theorem hostInterface : Obligations.HostInterface := by
  unfold Obligations.HostInterface
  refine ⟨fun s o n data => ⟨fun up idle within => ?_, fun up idle _ => ?_,
      fun e pa up serving within _ parts reaches => ⟨fun clean => ?_, fun poisoned => ?_⟩,
      fun e pa up serving within parts reaches => ?_, fun e up serving within parts => ?_⟩,
    fun s up => ⟨?_, fun answered => ?_, fun rate width least most lanes => ?_, ?_,
      _, exec_bmcSidebandReset s, fun c below mine => ?_, fun c below other => ?_⟩⟩
  · rw [exec_bar2Access, bar2Access_read_unserved up idle within]
  · rw [exec_bar2Access, bar2Access_write_unserved up idle]
  · rw [exec_bar2Access, bar2Access_read up serving within parts reaches]
    simp [clean]
  · rw [exec_bar2Access, bar2Access_read up serving within parts reaches]
    simp [Option.isSome_iff_ne_none.2 poisoned]
  · rw [exec_bar2Access, bar2Access_write up serving within parts reaches]
  · rw [exec_bar2Access, bar2Access_read_fault up serving within parts]
  · rw [exec_dmaTimeout, dmaTimeout_posted up]
  · rw [exec_dmaTimeout, dmaTimeout_read up]
  · rw [exec_pcieLinkChange, pcieLink_up up least most lanes]
  · rw [exec_pcieLinkChange, pcieLink_down up]
  · rw [State.after_dev, bmcReset_up up, Dev.mbxGoBit_clearGoFor _ _ below, if_pos mine]
  · rw [State.after_dev, bmcReset_up up, Dev.mbxGoBit_clearGoFor _ _ below, if_neg other]

end Sys2Proof.Machine

/-! PROOFS. What a step answers: the next state, its queue and its fuses (R484, R492, R493, R580). -/

namespace Sys2Proof.Machine

/-! ### The answer of every command -/

/-- The fuses that a command leaves: two requests to the security block may blow some (R492, R493). -/
def fusesAfter (c : Instr) (s : State) : Fuses :=
  match c with
  | .arbAdvance => (arbAdvance s.quiet s.fuses).2
  | .ownerProvision => (ownerProvision s.quiet s.fuses).2
  | _ => s.fuses

/-- Every command but SYS_REFCLK_LOSS answers a next state, with the queue as it was. -/
theorem exec_answers {c : Instr} (other : c ≠ .sysRefclkLoss) (s : State) :
    ∃ d, exec c s = .next { pending := s.pending, fuses := fusesAfter c s, dev := d } := by
  cases c with
  | sysRefclkLoss => exact absurd rfl other
  | _ => exact ⟨_, rfl⟩

theorem exec_sysRefclkLoss_on {s : State} (on : (s.dev.power.aux && s.dev.enableOf 0) = true) :
    exec .sysRefclkLoss s = .fault .refclkUndefined := if_pos on

theorem exec_sysRefclkLoss_off {s : State} (off : (s.dev.power.aux && s.dev.enableOf 0) = false) :
    exec .sysRefclkLoss s = .next (s.after s.quiet) := if_neg (by simp [off])

/-- A command that answers a next state keeps the queue and leaves the fuses so. -/
theorem exec_next {c : Instr} {s t : State} (h : exec c s = .next t) : t.pending = s.pending ∧ t.fuses = fusesAfter c s := by
  by_cases loss : c = .sysRefclkLoss
  · subst loss
    cases on : s.dev.power.aux && s.dev.enableOf 0 with
    | true =>
      rw [exec_sysRefclkLoss_on on] at h
      cases h
    | false =>
      rw [exec_sysRefclkLoss_off on] at h
      cases h
      exact ⟨rfl, rfl⟩
  · obtain ⟨d, answer⟩ := exec_answers loss s
    rw [answer] at h
    cases h
    exact ⟨rfl, rfl⟩

/-! ### The answer of a step -/

/-- Settles O2: an empty queue lets a cycle pass, and a command leaves the queue's rest as it found it. -/
theorem queueIsFirstInFirstOut : Obligations.QueueIsFirstInFirstOut := by
  unfold Obligations.QueueIsFirstInFirstOut
  intro s t h
  cases queue : s.pending with
  | nil =>
    rw [step_of_nil queue] at h
    cases h
    exact queue
  | cons c rest =>
    rw [step_of_cons queue] at h
    exact (exec_next h).1

/-- Settles O3: SYS_REFCLK_LOSS alone looks at the SYS group before it answers. -/
theorem stepsStopOnlyOnRefclkLoss : Obligations.StepsStopOnlyOnRefclkLoss := by
  unfold Obligations.StepsStopOnlyOnRefclkLoss
  refine ⟨fun s => ?_, fun s => ⟨exec_sysRefclkLoss_on, exec_sysRefclkLoss_off⟩⟩
  cases queue : s.pending with
  | nil => exact .inl ⟨_, step_of_nil queue⟩
  | cons c rest =>
    rw [step_of_cons queue]
    by_cases loss : c = .sysRefclkLoss
    · subst loss
      cases on : s.dev.power.aux && s.dev.enableOf 0 with
      | true =>
        obtain ⟨aux, enable⟩ := Bool.and_eq_true_iff.1 on
        exact .inr ⟨rest, rfl, aux, enable, exec_sysRefclkLoss_on (s := { s with pending := rest }) on⟩
      | false => exact .inl ⟨_, exec_sysRefclkLoss_off (s := { s with pending := rest }) on⟩
    · obtain ⟨d, answer⟩ := exec_answers loss { s with pending := rest }
      exact .inl ⟨_, answer⟩

/-! ### Fuses blow and never mend (R484, R492, R493) -/

/-- ARB_ADVANCE leaves the anti-rollback count, or raises it within its 64 bits. -/
theorem arbAdvance_fuses (d : Dev) (f : Fuses) :
    (arbAdvance d f).2 = f ∨ ∃ n, f.arb < n ∧ n ≤ 64 ∧ (arbAdvance d f).2 = { f with arb := n } := by
  unfold arbAdvance
  split
  · exact .inl rfl
  · extract_lets n e
    split
    · exact .inl rfl
    · next allowed =>
      simp only [Bool.or_eq_true, decide_eq_true_eq, not_or, not_lt, not_le] at allowed
      exact .inr ⟨n, allowed.1.2, allowed.2, rfl⟩

/-- OWNER_PROVISION leaves the owner's hashes, or blows one that is all zero. -/
theorem ownerProvision_fuses (d : Dev) (f : Fuses) :
    (ownerProvision d f).2 = f ∨ (∃ h, unblown f.ownerDbg = true ∧ (ownerProvision d f).2 = { f with ownerDbg := h })
      ∨ ∃ h, unblown f.ownerRoot = true ∧ (ownerProvision d f).2 = { f with ownerRoot := h } := by
  unfold ownerProvision
  split
  · exact .inl rfl
  · extract_lets which r
    split
    · exact .inl rfl
    · exact .inl rfl
    · next key _ =>
      extract_lets h
      by_cases refused : (decide (which > 1) || !Config.p521Point key) = true
      · exact .inl (congrArg Prod.snd (if_pos refused))
      · rw [if_neg refused]
        cases blank : unblown (if which = 0 then f.ownerDbg else f.ownerRoot) with
        | false => exact .inl rfl
        | true =>
          rw [Bool.not_true, if_neg Bool.false_ne_true]
          by_cases dbg : which = 0
          · rw [if_pos dbg] at blank ⊢
            exact .inr (.inl ⟨h, blank, rfl⟩)
          · rw [if_neg dbg] at blank ⊢
            exact .inr (.inr ⟨h, blank, rfl⟩)

namespace Fuses.onlyBlown

variable {f g : Fuses} (blown : Fuses.onlyBlown f g)
include blown

/-- A higher anti-rollback count within its bits keeps what is blown. -/
theorem arb {n : Nat} (rises : g.arb < n) (fits : n ≤ 64) : Fuses.onlyBlown f { g with arb := n } := by
  obtain ⟨uds, serial, root, revoke, dbg, subsys, least, _, owner⟩ := blown
  exact ⟨uds, serial, root, revoke, dbg, subsys, least.trans rises.le, fits, owner⟩

/-- An owner's hash that is all zero now was not blown before. -/
theorem ownerDbg (blank : unblown g.ownerDbg = true) (h : List Byte) : Fuses.onlyBlown f { g with ownerDbg := h } := by
  obtain ⟨uds, serial, root, revoke, dbg, subsys, least, most, ownerDbg, ownerRoot⟩ := blown
  refine ⟨uds, serial, root, revoke, dbg, subsys, least, most, fun old => ?_, ownerRoot⟩
  rw [ownerDbg old, old] at blank
  cases blank

theorem ownerRoot (blank : unblown g.ownerRoot = true) (h : List Byte) : Fuses.onlyBlown f { g with ownerRoot := h } := by
  obtain ⟨uds, serial, root, revoke, dbg, subsys, least, most, ownerDbg, ownerRoot⟩ := blown
  refine ⟨uds, serial, root, revoke, dbg, subsys, least, most, ownerDbg, fun old => ?_⟩
  rw [ownerRoot old, old] at blank
  cases blank

end Fuses.onlyBlown

/-- No command mends a fuse. -/
theorem onlyBlown_fusesAfter {f : Fuses} {s : State} (blown : Fuses.onlyBlown f s.fuses) (c : Instr) :
    Fuses.onlyBlown f (fusesAfter c s) := by
  unfold fusesAfter
  split
  · obtain same | ⟨n, rises, fits, e⟩ := arbAdvance_fuses s.quiet s.fuses
    · rw [same]
      exact blown
    · rw [e]
      exact blown.arb rises fits
  · obtain same | ⟨h, blank, e⟩ | ⟨h, blank, e⟩ := ownerProvision_fuses s.quiet s.fuses
    · rw [same]
      exact blown
    · rw [e]
      exact blown.ownerDbg blank h
    · rw [e]
      exact blown.ownerRoot blank h
  · exact blown

/-- Settles O4: a cycle blows nothing, and a command leaves the fuses as `fusesAfter` has them. -/
theorem fusesNeverMend : Obligations.FusesNeverMend := by
  unfold Obligations.FusesNeverMend
  intro f s t blown h
  cases queue : s.pending with
  | nil =>
    rw [step_of_nil queue] at h
    cases h
    exact blown
  | cons c rest =>
    rw [step_of_cons queue] at h
    rw [(exec_next h).2]
    exact onlyBlown_fusesAfter (s := { s with pending := rest }) blown c

end Sys2Proof.Machine

/-! PROOFS. Verified boot, the requests to the security block, and the entropy source (R485 to R493, R499). -/

namespace Sys2Proof.Machine

/-! ### The commands are their meanings, on the machine as they find it -/

theorem exec_secureBoot (s : State) : exec .secureBoot s = .next (s.after (secureBoot s.quiet s.fuses)) := rfl
theorem exec_verifyLoad (s : State) : exec .verifyLoad s = .next (s.after (verifyLoad s.quiet s.fuses)) := rfl
theorem exec_arbAdvance (s : State) :
    exec .arbAdvance s = .next { s with dev := (arbAdvance s.quiet s.fuses).1, fuses := (arbAdvance s.quiet s.fuses).2 } := rfl
theorem exec_ownerProvision (s : State) :
    exec .ownerProvision s = .next { s with dev := (ownerProvision s.quiet s.fuses).1, fuses := (ownerProvision s.quiet s.fuses).2 } := rfl
theorem exec_reseed (s : State) : exec .reseed s = .next (s.after (reseed s.quiet)) := rfl
theorem exec_entropyHealthFail (s : State) : exec .entropyHealthFail s = .next (s.after (entropyFail s.quiet)) := rfl
theorem exec_secRandRead (g : Agent) (s : State) : exec (.secRandRead g) s = .next (s.after (secRand s.quiet g)) := rfl

section
variable {d e : Dev} {f : Fuses} {ws : List W64}

/-! ### Verified boot (R487 to R490) -/

/-- An image of a slot of the boot flash fits in half of it. -/
def slotFits (n : Nat) : Bool := decide (512 + n ≤ 0x2000000)

/-- The boot from slot B, when the image of slot A was refused. -/
def Dev.bootFallback (d : Dev) (f : Fuses) : Dev :=
  match checkImage f (d.flashBytes 0x2000000) 1 slotFits with
  | .ok img => (d.noteVerify (.ok img)).bootWith img
  | .error y => (d.noteVerify (.error y)).setf pgSys 0x908 7 4 0xF

/-- The boot of a security block that is ready for it: slot A's image, else slot B's. -/
def Dev.bootSlots (d : Dev) (f : Fuses) : Dev :=
  match checkImage f (d.flashBytes 0) 1 slotFits with
  | .ok img => (d.noteVerify (.ok img)).bootWith img
  | .error x => ((d.noteVerify (.error x)).setb pgSec 0x100 4 true).bootFallback f

section
variable {img : Image} {x : Nat}

theorem Dev.bootFallback_ok (checked : checkImage f (d.flashBytes 0x2000000) 1 slotFits = .ok img) :
    d.bootFallback f = (d.noteVerify (.ok img)).bootWith img := by
  unfold Dev.bootFallback
  rw [checked]

theorem Dev.bootFallback_error (checked : checkImage f (d.flashBytes 0x2000000) 1 slotFits = .error x) :
    d.bootFallback f = (d.noteVerify (.error x)).setf pgSys 0x908 7 4 0xF := by
  unfold Dev.bootFallback
  rw [checked]

theorem Dev.bootSlots_ok (checked : checkImage f (d.flashBytes 0) 1 slotFits = .ok img) :
    d.bootSlots f = (d.noteVerify (.ok img)).bootWith img := by
  unfold Dev.bootSlots
  rw [checked]

theorem Dev.bootSlots_error (checked : checkImage f (d.flashBytes 0) 1 slotFits = .error x) :
    d.bootSlots f = ((d.noteVerify (.error x)).setb pgSec 0x100 4 true).bootFallback f := by
  unfold Dev.bootSlots
  rw [checked]

end

theorem secureBoot_first (up : d.up = true) (phase : d.regf pgSec 0x100 3 0 = 0) : secureBoot d f = (bootReady d f).bootSlots f := by
  unfold secureBoot Dev.bootSlots Dev.bootFallback
  rw [if_neg (by simp [up, phase])]
  extract_lets d₁ d₂ keys d₃ ready fits slotA noted fallback slotB noted'
  have same : bootReady d f = ready := rfl
  have first : checkImage f (ready.flashBytes 0) 1 slotFits = slotA := rfl
  rw [same, first]
  clear_value slotA
  cases slotA with
  | ok img => rfl
  | error x =>
    have second : checkImage f (((ready.noteVerify (.error x)).setb pgSec 0x100 4 true).flashBytes 0x2000000) 1 slotFits = slotB := rfl
    dsimp only
    rw [second]
    clear_value slotB
    cases slotB <;> rfl

theorem secureBoot_later (phase : d.regf pgSec 0x100 3 0 ≠ 0) : secureBoot d f = d := by
  unfold secureBoot
  rw [if_pos (by simp [phase])]

/-! ### Requests to the security block (R491 to R493, R499) -/

/-- What a checked image in flash is answered, and where it goes. -/
def Dev.imageChecked (d : Dev) (ws : List W64) : Except Nat Image → Dev
  | .error e => (d.noteVerify (.error e)).secReply ws 0 [BitVec.ofNat 64 e]
  | .ok img =>
    (((loadTargets ((wd ws 2).field 23 8)).foldl (fun d i => if (wd ws 2).field 7 0 = 2 then d.loadCcp img i else d.loadUpd img i)
      (d.noteVerify (.ok img))).showSvn).secReply ws 0 [0]

/-- An image in flash for destinations that all stand. -/
theorem verifyLoad_flash (asked : d.secRequest 1 = some (e, ws)) (flash : (wd ws 1).bit 63 = true)
    (type : (wd ws 2).field 7 0 = 2 ∨ (wd ws 2).field 7 0 = 3)
    (targets : (loadTargets ((wd ws 2).field 23 8)).all (e.targetOk ((wd ws 2).field 7 0)) = true) :
    verifyLoad d f = e.imageChecked ws (checkImage f (e.flashBytes ((wd ws 1).field 62 0)) ((wd ws 2).field 7 0)
      (Config.imageFits ((wd ws 2).field 7 0))) := by
  have known : ((wd ws 2).field 7 0 == 2 || (wd ws 2).field 7 0 == 3) = true := by simpa using type
  unfold verifyLoad
  rw [asked]
  dsimp only
  rw [if_neg (by simp [known, targets, flash]), if_neg (by simp [flash]), if_neg (by simp [flash])]
  simp only [flash, if_true]
  cases checkImage f (e.flashBytes ((wd ws 1).field 62 0)) ((wd ws 2).field 7 0) (Config.imageFits ((wd ws 2).field 7 0)) <;> rfl

theorem arbAdvance_raises (asked : d.secRequest 2 = some (e, ws)) (allowed : ∀ n ∈ e.runningSvns, (wd ws 1).field 6 0 ≤ n)
    (rises : f.arb < (wd ws 1).field 6 0) (fits : (wd ws 1).field 6 0 ≤ 64) :
    arbAdvance d f = (((e.setReg pgSec 0x108 (BitVec.ofNat 64 ((wd ws 1).field 6 0))).setIsr pgSec 2).secReply ws 0 [],
      { f with arb := (wd ws 1).field 6 0 }) := by
  unfold arbAdvance
  rw [asked]
  dsimp only
  rw [if_neg (by simpa [rises, fits] using allowed)]

theorem arbAdvance_refused (asked : d.secRequest 2 = some (e, ws))
    (refused : (∃ n ∈ e.runningSvns, n < (wd ws 1).field 6 0) ∨ (wd ws 1).field 6 0 ≤ f.arb ∨ 64 < (wd ws 1).field 6 0) :
    arbAdvance d f = (e.secReply ws 5 [], f) := by
  unfold arbAdvance
  rw [asked]
  dsimp only
  rw [if_pos (by simpa [or_assoc] using refused)]

/-- The outcome of an owner's key, with the machine that read it: an answer, and the fuses. -/
def Dev.provision (d : Dev) (f : Fuses) (ws : List W64) (key : List Byte) : Dev × Fuses :=
  if !Config.p521Point key then (d.secReply ws 1 [], f)
  else if !unblown (if (wd ws 1).toNat = 0 then f.ownerDbg else f.ownerRoot) then (d.secReply ws 5 [], f)
  else (d.secReply ws 0 [],
    if (wd ws 1).toNat = 0 then { f with ownerDbg := Config.sha512 key } else { f with ownerRoot := Config.sha512 key })

theorem ownerProvision_key {r : Dev} {key : List Byte} (asked : d.secRequest 3 = some (e, ws))
    (read : (pread ((wd ws 2).field 47 0) 133).run.run e = (.ok key, r)) (which : (wd ws 1).toNat ≤ 1) :
    ownerProvision d f = r.provision f ws key := by
  have known : decide ((wd ws 1).toNat > 1) = false := by simpa using which
  unfold ownerProvision Dev.provision
  rw [asked]
  dsimp only
  rw [read]
  dsimp only
  rw [known, Bool.false_or]

theorem reseed_asked (asked : d.secRequest 4 = some (e, ws)) : reseed d = e.entropyStart.secReply ws 0 [] := by
  unfold reseed
  rw [asked]

/-! ### The entropy source (R499) -/

theorem entropyFail_up (up : d.up = true) : entropyFail d = ((d.setReg pgSec 0x148 2).setIsr pgSec 1).count pgSec 0x06 1 := if_pos up

theorem secRand_up (up : d.up = true) (g : Agent) :
    secRand d g = (d.windowLoad g 0x2150 8).1.emit (.word (BitVec.ofNat 64 (leNat (d.windowLoad g 0x2150 8).2))) :=
  if_neg (by simp [up])

end

/-! ### A BLK_ISR bit stays set while its page counts (R471, R474) -/

section
variable (d : Dev) (p : Nat) {b : Nat}

theorem Dev.regb_setIsr_ne {c : Nat} (h : b ≠ c) (word : c < 64) : (d.setIsr p c).regb p 0x020 b = d.regb p 0x020 b := by
  unfold Dev.setIsr
  extract_lets e
  have kept : e.regb p 0x020 b = d.regb p 0x020 b := d.regb_setb_ne p 0x020 true word h
  split
  · exact kept
  · exact kept

theorem Dev.reg_isr_setReg {o : Nat} (v : W64) (h : o ≠ 0x020) : (d.setReg p o v).reg p 0x020 = d.reg p 0x020 :=
  d.reg_setReg_ne v (by unfold regKey; omega)

theorem Dev.regb_isr_capture (h : b ≠ 63) (ev : W64) (a : Nat) : (d.capture p ev a).regb p 0x020 b = d.regb p 0x020 b := by
  unfold Dev.capture
  extract_lets first d₁ d₂ old new d₃
  have h₁ : d₁.reg p 0x020 = d.reg p 0x020 := by
    unfold d₁
    rw [Dev.reg_isr_setReg _ _ _ (by decide), Dev.reg_isr_setReg _ _ _ (by decide)]
  have h₂ : d₂.reg p 0x020 = d.reg p 0x020 := by
    unfold d₂
    split
    · rw [Dev.reg_isr_setReg _ _ _ (by decide), Dev.reg_isr_setReg _ _ _ (by decide), h₁]
    · exact h₁
  have h₃ : d₃.regb p 0x020 b = d.regb p 0x020 b := Dev.regb_of_reg ((d₂.reg_isr_setReg p _ (by decide)).trans h₂) b
  split
  · rw [Dev.regb_setIsr_ne _ _ h (by decide), h₃]
  · exact h₃

theorem Dev.regb_isr_countSlot (h : b ≠ 63) (sel n i : Nat) : (d.countSlot p sel n i).regb p 0x020 b = d.regb p 0x020 b := by
  unfold Dev.countSlot
  extract_lets s r e
  have kept : e.regb p 0x020 b = d.regb p 0x020 b := Dev.regb_of_reg (d.reg_isr_setReg p _ (by omega)) b
  split
  · rfl
  · split
    · rw [Dev.regb_setIsr_ne _ _ h (by decide), Dev.regb_isr_capture _ _ h, kept]
    · exact kept

/-- Counting leaves every bit of BLK_ISR but the one that tells of a saturated slot. -/
theorem Dev.regb_isr_count (h : b ≠ 63) (sel n : Nat) : (d.count p sel n).regb p 0x020 b = d.regb p 0x020 b := by
  unfold Dev.count
  split
  · rfl
  · exact foldl_field (fun e : Dev => e.regb p 0x020 b) _ (fun e i => e.regb_isr_countSlot p h sel n i) _ d

end

/-- Settles O51: the boot tries the slots in turn, each request goes by its checks, and a failed health test stops the DRBG. -/
theorem securityBlock : Obligations.SecurityBlock := by
  unfold Obligations.SecurityBlock
  refine ⟨fun s => ⟨fun up phase => ?_, fun phase => ?_⟩,
    fun s d ws => ⟨fun asked flash type targets => ?_, fun asked => ⟨fun allowed rises fits => ?_, fun refused => ?_⟩,
      fun key e asked read which => ?_, fun asked => ?_⟩,
    fun s up => ⟨⟨_, exec_entropyHealthFail s, ?_⟩, fun g => ?_⟩⟩
  · rw [exec_secureBoot, secureBoot_first up phase]
    dsimp only
    split
    · next img slotA => rw [Dev.bootSlots_ok slotA]
    · next x slotA =>
      rw [Dev.bootSlots_error slotA]
      split
      · next img slotB => rw [Dev.bootFallback_ok slotB]
      · next y slotB => rw [Dev.bootFallback_error slotB]
  · rw [exec_secureBoot, secureBoot_later phase]
  · rw [exec_verifyLoad, verifyLoad_flash asked flash type targets]
    dsimp only
    split
    · next x checked =>
      rw [checked]
      rfl
    · next img checked =>
      rw [checked]
      rfl
  · rw [exec_arbAdvance, arbAdvance_raises asked allowed rises fits]
  · rw [exec_arbAdvance, arbAdvance_refused asked refused]
    rfl
  · rw [exec_ownerProvision, ownerProvision_key asked read which]
    unfold Dev.provision
    by_cases point : (!Config.p521Point key) = true
    · rw [if_pos point, if_pos point]
      rfl
    · rw [if_neg point, if_neg point]
      by_cases blown : (!unblown (if (wd ws 1).toNat = 0 then s.fuses.ownerDbg else s.fuses.ownerRoot)) = true
      · rw [if_pos blown, if_pos blown]
        rfl
      · rw [if_neg blown, if_neg blown]
  · rw [exec_reseed, reseed_asked asked]
  · rw [State.after_dev, entropyFail_up up]
    have stopped : (((s.quiet.setReg pgSec 0x148 2).setIsr pgSec 1).count pgSec 0x06 1).reg pgSec 0x148 = 2 := by
      rw [Dev.reg_count_above _ _ _ _ (by decide), Dev.reg_setIsr_above _ _ _ (by decide), Dev.reg_setReg]
    refine ⟨stopped, ?_, ?_, by simp⟩
    · rw [Dev.drbgOk, Dev.regb, stopped]
      rfl
    · rw [Dev.regb_isr_count _ _ (by decide), Dev.regb_setIsr _ _ (by decide)]
  · rw [exec_secRandRead, secRand_up up]

end Sys2Proof.Machine

/-! PROOFS. Connections, measurements and sessions of SPDM (R497 to R500). -/

namespace Sys2Proof.Machine

/-! ### The commands are their meanings, on the machine as they find it -/

theorem exec_spdmRequest (t : Transport) (n : Nat) (req : SpdmReq) (s : State) :
    exec (.spdmRequest t n req) s = .next (s.after (spdm s.quiet s.fuses t n req)) := rfl
theorem exec_spdmSessionTimeout (t : Transport) (n : Nat) (s : State) :
    exec (.spdmSessionTimeout t n) s = .next (s.after (spdmTimeout s.quiet t n)) := rfl

/-! ### Requests on a device that has booted -/

section
variable {d e : Dev} {f : Fuses} {t : Transport} {n : Nat} (up : d.up = true) (booted : d.sec.booted = true)
  (counted : d.count pgSec 0x03 1 = e)
include up booted counted

theorem spdm_getVersion : spdm d f t n .getVersion = (e.setConn t 1).spdmOk t [] := by
  subst counted
  exact if_neg (by simp [up, booted])

/-- An unsigned measurement block of a connection whose algorithms are agreed. -/
theorem spdm_getMeasurements {i : Nat} {bs : List Byte} (ready : e.conn t ≥ 3) (lo : 1 ≤ i) (hi : i ≤ 6)
    (block : e.measurement f i = some bs) : spdm d f t n (.getMeasurements i false) = e.spdmOk t bs := by
  subst counted
  have one : i ≠ 0 := by omega
  have notAll : i ≠ 0xFF := by omega
  unfold spdm
  rw [if_neg (by simp [up, booted])]
  simp [ready, one, notAll, block]

/-- A key exchange that holds is finished: its session opens. -/
theorem spdm_finish {p : Transport × Nat × Bool} (pending : e.sec.pendingKx.find? (fun x => x.1 == t) = some p) (holds : p.2.2 = true)
    (room : e.spdmSessions t < 4) :
    spdm d f t n (.finish true) =
      ({ e with sec := { e.sec with pendingKx := e.sec.pendingKx.filter (fun x => x.1 != t),
                                    sessions := e.sec.sessions ++ [(t, p.2.1)] } }.count pgSec 0x04 1).spdmOk t [] := by
  subst counted
  unfold spdm
  rw [if_neg (by simp [up, booted])]
  dsimp only
  rw [pending]
  dsimp only
  rw [holds]
  exact if_pos (by simpa [Dev.spdmSessions] using room)

/-- A fifth session of a transport is refused. -/
theorem spdm_keyExchange_full {key : List Byte} (ready : e.conn t ≥ 3) (plain : t ≠ .mgmtPort ∨ n = 0) (signs : e.canSign = true)
    (owned : t ≠ .mgmtPort ∨ unblown f.ownerRoot = false) (full : 4 ≤ e.spdmSessions t) :
    spdm d f t n (.keyExchange key) = e.spdmError spdmLimit := by
  subst counted
  have root : ¬ (t = .mgmtPort ∧ unblown f.ownerRoot = true) := fun h => owned.elim (fun o => o h.1) (fun o => by simp [o] at h)
  unfold spdm
  rw [if_neg (by simp [up, booted])]
  dsimp only
  rw [if_neg (by simpa [ready, or_iff_not_imp_left] using plain), if_neg (by simp [signs]), if_neg root, if_pos full]

theorem spdm_endSession (found : e.sec.sessions.contains (t, n) = true) :
    spdm d f t n .endSession = (e.closeSession t n).spdmOk t [] := by
  subst counted
  unfold spdm
  rw [if_neg (by simp [up, booted])]
  exact if_pos found

end

theorem spdmTimeout_up {d : Dev} (up : d.up = true) (t : Transport) (n : Nat) : spdmTimeout d t n = d.closeSession t n := if_pos up

/-- A closed session is gone. -/
theorem Dev.sessions_closeSession (d : Dev) (t : Transport) (n : Nat) : (d.closeSession t n).sec.sessions.contains (t, n) = false := by
  simp [Dev.closeSession]

/-- Settles O52: every request is one case of a booted device's answer. -/
theorem spdmConnections : Obligations.SpdmConnections := by
  unfold Obligations.SpdmConnections
  intro s t n
  refine ⟨fun up booted => ⟨?_, fun i bs ready lo hi block => ?_, fun p pending holds room => ?_,
    fun key ready plain signs owned full => ?_, fun found => ?_⟩, fun up => ⟨?_, s.quiet.sessions_closeSession t n⟩⟩
  · rw [exec_spdmRequest, spdm_getVersion up booted rfl]
  · rw [exec_spdmRequest, spdm_getMeasurements up booted rfl ready lo hi block]
  · rw [exec_spdmRequest, spdm_finish up booted rfl pending holds room]
  · rw [exec_spdmRequest, spdm_keyExchange_full up booted rfl ready plain signs owned full]
  · rw [exec_spdmRequest, spdm_endSession up booted rfl found]
  · rw [exec_spdmSessionTimeout, spdmTimeout_up up]

end Sys2Proof.Machine

/-! PROOFS. The instructions of the TAP (R504 to R506, R559 to R562). -/

namespace Sys2Proof.Machine

/-! ### The commands are their meanings, while the TAP has its supply -/

section
variable {s : State} (aux : s.quiet.power.aux = true)
include aux

theorem next_onTap (f : Dev → Dev) :
    (.next (s.after (onTap s.quiet f)) : Host.Outcome State Fault Refusal) = .next (s.after (f s.quiet)) := by
  rw [onTap, if_pos aux]

theorem exec_idcode : exec .idcode s = .next (s.after (jtagIdcode s.quiet)) := next_onTap aux _
theorem exec_bypass : exec .bypass s = .next (s.after (jtagBypass s.quiet)) := next_onTap aux _
theorem exec_secNonce : exec .secNonce s = .next (s.after (jtagNonce s.quiet)) := next_onTap aux _
theorem exec_extest : exec .extest s = .next (s.after (boundary s.quiet 0x00)) := next_onTap aux _
theorem exec_samplePreload : exec .samplePreload s = .next (s.after (boundary s.quiet 0x01)) := next_onTap aux _
theorem exec_secToken (token sig : List Byte) :
    exec (.secToken token sig) s = .next (s.after (jtagToken s.quiet s.fuses token sig)) := next_onTap aux _
theorem exec_memAccess (pa : Nat) (b : Bool) (v : W64) : exec (.memAccess pa b v) s = .next (s.after (jtagMem s.quiet pa b v)) := next_onTap aux _
theorem exec_eclCtrl (v : W64) : exec (.eclCtrl v) s = .next (s.after (jtagEcl s.quiet v)) := next_onTap aux _
theorem exec_eclScan : exec .eclScan s = .next (s.after (jtagScan s.quiet)) := next_onTap aux _
theorem exec_wrapSel (n : Nat) : exec (.wrapSel n) s = .next (s.after (jtagWrapSel s.quiet n)) := next_onTap aux _
theorem exec_wrapWir (n : Nat) : exec (.wrapWir n) s = .next (s.after (jtagWir s.quiet n)) := next_onTap aux _
theorem exec_wrapWdr (v : W64) : exec (.wrapWdr v) s = .next (s.after (jtagWdr s.quiet v)) := next_onTap aux _

end

theorem exec_tapReset (s : State) : exec .tapReset s = .next (s.after (tapReset s.quiet)) := rfl

/-! ### Shifts of the data register (R559) -/

/-- The TAP with an instruction and the data that it captured. -/
def Dev.tapped (d : Dev) (code : Nat) (capture : List W64) : Dev := { d with tap := { d.tap with ir := code, capture := capture } }

theorem foldl_emit_words (l : List W64) (d : Dev) :
    l.foldl (fun d v => d.emit (.word v)) d = { d with out := d.out ++ l.map .word } := by
  induction l generalizing d with
  | nil => simp
  | cons v l ih =>
    rw [List.foldl_cons, ih]
    simp [Dev.emit]

/-- A shift drives the captured words out, and changes nothing else. -/
theorem Dev.tapOut_eq (d : Dev) : d.tapOut = { d with out := d.out ++ d.tap.capture.map .word } := foldl_emit_words _ d

section
variable {d : Dev} {code level : Nat}

/-- An instruction of the debug level is taken. -/
theorem Dev.tapIr_within (within : level ≤ d.dbgLevel) (cap : List W64) : d.tapIr code level cap = (d.tapped code cap, true) :=
  if_neg (Nat.not_lt.2 within)

/-- One above the debug level acts as BYPASS (R504, R559). -/
theorem Dev.tapIr_above (above : d.dbgLevel < level) (cap : List W64) : d.tapIr code level cap = (d.tapped 0xFF [0], false) := if_pos above

/-! ### Instructions of every debug level (R505, R506, R559, R560) -/

theorem jtagIdcode_eq (d : Dev) : jtagIdcode d = (d.tapped 0x02 [BitVec.ofNat 64 idcodeValue]).tapOut := by
  rw [jtagIdcode, Dev.tapIr_within (Nat.zero_le _)]

theorem jtagBypass_eq (d : Dev) : jtagBypass d = (d.tapped 0xFF [0]).tapOut := by
  rw [jtagBypass, Dev.tapIr_within (Nat.zero_le _)]

theorem jtagNonce_eq (d : Dev) :
    jtagNonce d = (d.tapped 0x10 [d.reg pgSec 0x128, d.reg pgSec 0x130, d.reg pgSec 0x138, d.reg pgSec 0x140]).tapOut := by
  rw [jtagNonce, Dev.tapIr_within (Nat.zero_le _)]
  rfl

theorem boundary_eq (d : Dev) (code : Nat) : boundary d code = (d.takeFree.1.tapped code [d.takeFree.2]).tapOut := by
  rw [boundary, Dev.tapIr_within (Nat.zero_le _)]

/-! ### MEM_ACCESS (R501, R561) -/

/-- The machine after one access, whose result the next shift takes out. -/
def Dev.accessed (d : Dev) (code : Nat) (v : W64) : Dev := { d with tap := { d.tap with capture := [BitVec.ofNat 64 code, v] } }

/-- The result of the last access, which a shift takes out first. -/
def Dev.lastAccess (d : Dev) : List W64 := if d.tap.ir = 0x21 then d.tap.capture else [0, 0]

section
variable {pa : Nat} {v : W64} (within : 1 ≤ d.dbgLevel)
include within

theorem jtagMem_refused (may : (d.tapped 0x21 d.lastAccess).tapOut.jtagMay pa = false) (b : Bool) :
    jtagMem d pa b v = (d.tapped 0x21 d.lastAccess).tapOut.accessed 3 0 := by
  unfold Dev.lastAccess at *
  rw [jtagMem, Dev.tapIr_within within]
  dsimp only
  rw [if_neg (by decide), if_pos (by rw [may]; rfl)]
  rfl

section
variable (may : (d.tapped 0x21 d.lastAccess).tapOut.jtagMay pa = true)
  (memory : ∀ o, (d.tapped 0x21 d.lastAccess).tapOut.space pa ≠ .window o)
include may memory

theorem jtagMem_write : jtagMem d pa true v =
    ((d.tapped 0x21 d.lastAccess).tapOut.storeBy ((d.tapped 0x21 d.lastAccess).tapOut.agentSecure .jtag) pa (leBytes 8 v.toNat) false).accessed
      1 0 := by
  unfold Dev.lastAccess at *
  rw [jtagMem, Dev.tapIr_within within]
  dsimp only
  rw [if_neg (by decide), if_neg (by rw [may]; exact Bool.false_ne_true)]
  split
  · next o window => exact absurd window (memory o)
  · rfl

theorem jtagMem_read (sound : ((d.tapped 0x21 d.lastAccess).tapOut.load pa 8).2.2 = none) : jtagMem d pa false v =
    ((d.tapped 0x21 d.lastAccess).tapOut.load pa 8).1.accessed 1
      (BitVec.ofNat 64 (leNat ((d.tapped 0x21 d.lastAccess).tapOut.load pa 8).2.1)) := by
  unfold Dev.lastAccess at *
  rw [jtagMem, Dev.tapIr_within within]
  dsimp only
  rw [if_neg (by decide), if_neg (by rw [may]; exact Bool.false_ne_true)]
  split
  · next o window => exact absurd window (memory o)
  · rw [if_neg Bool.false_ne_true, sound]
    rfl

end

/-! ### The eclipse and its scan (R561) -/

theorem jtagEcl_up (up : d.up = true) : jtagEcl d v =
    eclCtrl (d.tapped 0x20 [d.reg pgTrc 0x300]).tapOut { agent := .jtag, hi := true, lo := true, val := v } := by
  rw [jtagEcl, Dev.tapIr_within within]
  exact if_pos up

/-- Selected anew, ECL_SCAN takes out the image's first word. -/
theorem jtagScan_first (eclipsed : d.eclipsed = true) (fresh : d.tap.ir ≠ 0x22) :
    jtagScan d = ({ d.tapped 0x22 [BitVec.ofNat 64 (leNat (d.scanImage.take 8))] with
      tap := { (d.tapped 0x22 [BitVec.ofNat 64 (leNat (d.scanImage.take 8))]).tap with scanPos := 1 } }).tapOut := by
  rw [jtagScan, Dev.tapIr_within within]
  simp [eclipsed, fresh]

/-! ### Wrappers (R562) -/

theorem jtagWrapSel_within (n : Nat) : jtagWrapSel d n = ({ d.tapped 0x30 [BitVec.ofNat 64 d.tap.wrapper] with
    tap := { (d.tapped 0x30 [BitVec.ofNat 64 d.tap.wrapper]).tap with wrapper := n % 256 } }).tapOut := by
  rw [jtagWrapSel, Dev.tapIr_within within]
  rfl

end

/-- The TAP after a wrapper's instruction: one other than WS_BYPASS leaves its unit undefined. -/
def Tap.wrapped (t : Tap) (n : Nat) : Tap :=
  { t with wir := KV.set t.wir t.wrapper n,
           undef := if n = Config.wsBypass t.wrapper ∨ t.wrapper ≥ 10 ∨ t.undef.contains t.wrapper then t.undef
                    else t.undef ++ [t.wrapper] }

theorem Tap.wrapped_undef {t : Tap} {n : Nat} (other : n ≠ Config.wsBypass t.wrapper) (unit : t.wrapper < 10) :
    t.wrapper ∈ (t.wrapped n).undef := by
  unfold Tap.wrapped
  dsimp only
  split
  · next already => simpa [other, Nat.not_le.2 unit] using already
  · simp

theorem jtagWir_full (full : 2 ≤ d.dbgLevel) (n : Nat) :
    jtagWir d n = ({ d.tapped 0x31 [BitVec.ofNat 64 d.wirOf] with
      tap := (d.tapped 0x31 [BitVec.ofNat 64 d.wirOf]).tap.wrapped n, free := d.free + 1 }).tapOut := by
  have level : (if n = Config.wsBypass d.tap.wrapper then 1 else 2) ≤ d.dbgLevel := by
    split <;> omega
  rw [jtagWir, Dev.tapIr_within level]
  rfl

/-- A wrapper's data shift takes out one word. -/
theorem jtagWdr_full (full : 2 ≤ d.dbgLevel) (v : W64) :
    ∃ (e : Dev) (w : W64), e.out = d.out ∧ e.mem = d.mem ∧ jtagWdr d v = (e.tapped 0x32 [w]).tapOut := by
  unfold jtagWdr
  extract_lets plain r
  split
  · exact ⟨d, 0, rfl, rfl, by rw [Dev.tapIr_within (by omega)]⟩
  · exact ⟨r.1, r.2, rfl, rfl, by rw [Dev.tapIr_within (show 2 ≤ r.1.dbgLevel from full)]⟩

end

/-! ### Instructions above the debug level (R504, R559) -/

/-- At debug level 0 the instructions of debugging act as BYPASS. -/
theorem exec_above {s : State} (aux : s.quiet.power.aux = true) (closed : s.quiet.dbgLevel = 0) (pa : Nat) (b : Bool) (v : W64) (n : Nat) :
    ∀ c ∈ ([.memAccess pa b v, .eclScan, .eclCtrl v, .wrapSel n, .wrapWir n] : List Instr),
      exec c s = .next (s.after (s.quiet.tapped 0xFF [0]).tapOut) := by
  have above : s.quiet.dbgLevel < 1 := by omega
  have wrapper : s.quiet.dbgLevel < if n = Config.wsBypass s.quiet.tap.wrapper then 1 else 2 := by split <;> omega
  simp only [List.forall_mem_cons, List.not_mem_nil, false_implies, implies_true, and_true]
  refine ⟨?_, ?_, ?_, ?_, ?_⟩
  · rw [exec_memAccess aux, jtagMem, Dev.tapIr_above above]
    rfl
  · rw [exec_eclScan aux, jtagScan, Dev.tapIr_above above]
    rfl
  · rw [exec_eclCtrl aux, jtagEcl, Dev.tapIr_above above]
    rfl
  · rw [exec_wrapSel aux, jtagWrapSel, Dev.tapIr_above above]
    rfl
  · rw [exec_wrapWir aux, jtagWir, Dev.tapIr_above wrapper]
    rfl

/-- Settles O59: an instruction within the debug level is taken with its data and shifted out, one above it acts as BYPASS. -/
theorem jtagInstructions : Obligations.JtagInstructions := by
  unfold Obligations.JtagInstructions
  refine ⟨fun s => ⟨fun aux => ⟨⟨_, exec_idcode aux, ?_⟩, ⟨_, exec_bypass aux, ?_⟩, ⟨_, exec_secNonce aux, ?_⟩,
      ⟨_, exec_extest aux, ?_⟩, ⟨_, exec_samplePreload aux, ?_⟩, fun token sig => ?_⟩, exec_tapReset s⟩,
    fun s pa b v n aux closed c hc => ⟨_, exec_above aux closed pa b v n c hc, ?_⟩,
    fun s pa n v aux within => ⟨⟨fun may memory => ⟨?_, fun sound => ?_⟩, fun may b => ?_⟩, fun up => ?_,
      fun eclipsed fresh => ⟨_, exec_eclScan aux, ?_⟩, ⟨_, exec_wrapSel aux n, ?_⟩, fun full => ⟨_, exec_wrapWir aux n, ?_⟩,
      fun full => ⟨_, exec_wrapWdr aux v, ?_⟩⟩⟩
  · rw [State.after_dev, jtagIdcode_eq, Dev.tapOut_eq]
    exact ⟨rfl, rfl, rfl, rfl⟩
  · rw [State.after_dev, jtagBypass_eq, Dev.tapOut_eq]
    exact ⟨rfl, rfl, rfl, rfl⟩
  · rw [State.after_dev, jtagNonce_eq, Dev.tapOut_eq]
    exact ⟨rfl, rfl, rfl, rfl⟩
  · rw [State.after_dev, boundary_eq, Dev.tapOut_eq]
    exact ⟨rfl, rfl, rfl, rfl⟩
  · rw [State.after_dev, boundary_eq, Dev.tapOut_eq]
    exact ⟨rfl, rfl, rfl, rfl⟩
  · rw [exec_secToken aux]
    rfl
  · rw [State.after_dev, Dev.tapOut_eq]
    exact ⟨rfl, rfl, rfl, rfl⟩
  · rw [exec_memAccess aux, jtagMem_write within may memory]
    rfl
  · rw [exec_memAccess aux, jtagMem_read within may memory sound]
    rfl
  · rw [exec_memAccess aux, jtagMem_refused within may]
    rfl
  · rw [exec_eclCtrl aux, jtagEcl_up within up]
    rfl
  · rw [State.after_dev, jtagScan_first within eclipsed fresh, Dev.tapOut_eq]
    exact ⟨rfl, rfl, rfl, rfl⟩
  · rw [State.after_dev, jtagWrapSel_within within, Dev.tapOut_eq]
    exact ⟨rfl, rfl, rfl, rfl⟩
  · rw [State.after_dev, jtagWir_full full, Dev.tapOut_eq]
    exact ⟨rfl, KV.find?_set_self .., Tap.wrapped_undef (t := (s.quiet.tapped 0x31 [BitVec.ofNat 64 s.quiet.wirOf]).tap), rfl⟩
  · obtain ⟨e, w, out, mem, shifted⟩ := jtagWdr_full full v
    rw [State.after_dev, shifted, Dev.tapOut_eq]
    refine ⟨rfl, ?_, mem⟩
    simp [Dev.tapped, out]

end Sys2Proof.Machine

/-! PROOFS. HALT of the pages that have it, and EN of an update engine (R466, R468). -/

namespace Sys2Proof.Machine

/-! ### The commands are their meanings, on the machine as they find it -/

theorem exec_dspHalt (i : Nat) (w : Wr) (s : State) : exec (.dspHalt i w) s = .next (s.after (blkCtrlOf s.quiet .dsp i w)) := rfl
theorem exec_tblHalt (i : Nat) (w : Wr) (s : State) : exec (.tblHalt i w) s = .next (s.after (blkCtrlOf s.quiet .tbl i w)) := rfl
theorem exec_updHalt (i : Nat) (w : Wr) (s : State) : exec (.updHalt i w) s = .next (s.after (blkCtrlOf s.quiet .upd i w)) := rfl
theorem exec_govHalt (i : Nat) (w : Wr) (s : State) : exec (.govHalt i w) s = .next (s.after (blkCtrlOf s.quiet .gov i w)) := rfl
theorem exec_updEnable (i : Nat) (w : Wr) (s : State) : exec (.updEnable i w) s = .next (s.after (blkCtrlOf s.quiet .upd i w)) := rfl

section
variable {d : Dev} {b : Blk} {i : Nat} {w : Wr}

/-- The machine with HALT of a page as a write leaves it. -/
def Dev.haltWritten (d : Dev) (b : Blk) (i : Nat) (w : Wr) : Dev :=
  d.setb (b.page i) 0x010 2 ((d.merged (b.page i) 0x010 w).bit 2)

section
variable (owner : pageBlk (b.page i) = some (b, i)) (may : d.mayWrite w.agent (b.page i) 0x010 = true)
  (nonsecure : d.agentSecure w.agent = false) (noFinit : wrHit w 1 = false) (halts : hasHalt b = true)
include owner may nonsecure noFinit halts

/-- A non-secure write of BLK_CTRL without FINIT takes HALT; only an update engine's takes EN as well, and only a governor's
resumes it when HALT falls. -/
theorem blkCtrlOf_halt (engine : b ≠ .upd) (resumes : b = .gov → (d.merged (b.page i) 0x010 w).bit 2 = true) :
    blkCtrlOf d b i w = d.haltWritten b i w := by
  have held : (decide (b = .gov) && d.regb (b.page i) 0x010 2 && !(d.merged (b.page i) 0x010 w).bit 2) = false := by
    by_cases gov : b = .gov
    · simp [resumes gov]
    · simp [gov]
  unfold blkCtrlOf blkCtrl
  rw [if_pos owner, if_neg (by simp [may]), owner]
  dsimp only
  simp only [nonsecure, halts, noFinit, engine, held, Bool.and_false, Bool.false_and, Bool.false_eq_true, if_false, if_true]
  rfl

end

/-- The same for an update engine: it takes EN, and a write that raises EN starts it. -/
theorem blkCtrlOf_upd (owner : pageBlk (pgUpd i) = some (.upd, i)) (may : d.mayWrite w.agent (pgUpd i) 0x010 = true)
    (nonsecure : d.agentSecure w.agent = false) (noFinit : wrHit w 1 = false) :
    blkCtrlOf d .upd i w =
      let e := (d.haltWritten .upd i w).setb (pgUpd i) 0x010 0 ((d.merged (pgUpd i) 0x010 w).bit 0)
      if (d.merged (pgUpd i) 0x010 w).bit 0 && !d.regb (pgUpd i) 0x010 0 then updEnableWork e i else e := by
  have page : Blk.upd.page i = pgUpd i := rfl
  have kept : (d.setb (pgUpd i) 0x010 2 ((d.merged (pgUpd i) 0x010 w).bit 2)).regb (pgUpd i) 0x010 0 = d.regb (pgUpd i) 0x010 0 :=
    d.regb_setb_ne _ _ _ (by decide) (by decide)
  have halts : hasHalt .upd = true := rfl
  have other : decide (Blk.upd = .gov) = false := rfl
  unfold blkCtrlOf blkCtrl Dev.haltWritten
  rw [page, if_pos owner, if_neg (by simp [may]), owner]
  dsimp only
  simp only [nonsecure, noFinit, halts, other, kept, Bool.and_false, Bool.false_and, Bool.false_eq_true, if_false, if_true]

end

/-- Settles O25: a non-secure write of BLK_CTRL without FINIT takes HALT, and EN on an update engine's page. -/
theorem headerControls : Obligations.HeaderControls := by
  unfold Obligations.HeaderControls
  refine ⟨fun s i w nonsecure noFinit => ⟨fun owner may => ?_, fun owner may => ?_, fun owner may on was => ?_,
    fun owner may halt => ?_⟩, fun s i w nonsecure noFinit owner may => ⟨fun was on => ?_, fun off => ?_⟩⟩
  · rw [exec_dspHalt, blkCtrlOf_halt (b := .dsp) owner may nonsecure noFinit rfl (by decide) (fun gov => nomatch gov)]
    rfl
  · rw [exec_tblHalt, blkCtrlOf_halt (b := .tbl) owner may nonsecure noFinit rfl (by decide) (fun gov => nomatch gov)]
    rfl
  · rw [exec_updHalt, blkCtrlOf_upd owner may nonsecure noFinit, on, was]
    rfl
  · rw [exec_govHalt, blkCtrlOf_halt (b := .gov) owner may nonsecure noFinit rfl (by decide) (fun _ => halt), Dev.haltWritten]
    exact congrArg (fun h => Host.Outcome.next (s.after (s.quiet.setb (pgGov i) 0x010 2 h))) halt
  · rw [Dev.regb_setb_ne _ _ _ _ (by decide) (by decide)] at was
    rw [exec_updEnable, blkCtrlOf_upd owner may nonsecure noFinit, on, was]
    rfl
  · rw [exec_updEnable, blkCtrlOf_upd owner may nonsecure noFinit, off]
    rfl

end Sys2Proof.Machine

/-! PROOFS. The comparison of power with its limit, and the duties that it moves (R530, R534). -/

namespace Sys2Proof.Machine

/-! ### One comparison (R530) -/

section
variable {p limit dmin floor st : Nat} {rsv : Nat → Bool} {cores : List Nat} {old : Nat → Nat} (c : Nat)

/-- Above the limit the duties outside the reserved slice fall first. -/
theorem stepDuty_above_free (above : p > limit)
    (free : (cores.filter (fun c => !rsv c)).any (fun c => decide (old c > dmin)) = true) :
    stepDuty p limit dmin floor st rsv cores old c = if rsv c then old c else max (old c - st) dmin := by
  rw [stepDuty, if_pos above, if_pos free]

theorem stepDuty_above_held (above : p > limit)
    (free : (cores.filter (fun c => !rsv c)).any (fun c => decide (old c > dmin)) = false) :
    stepDuty p limit dmin floor st rsv cores old c = if rsv c then max (old c - st) floor else old c := by
  rw [stepDuty, if_pos above, free, if_neg Bool.false_ne_true]

/-- Below 97 % of the limit the slice's duties rise first. -/
theorem stepDuty_below_held (below : p * 100 < limit * 97) (held : (cores.filter rsv).any (fun c => decide (old c < 64)) = true) :
    stepDuty p limit dmin floor st rsv cores old c = if rsv c then min (old c + st) 64 else old c := by
  rw [stepDuty, if_neg (by omega), if_pos below, if_pos held]

theorem stepDuty_below_free (below : p * 100 < limit * 97) (held : (cores.filter rsv).any (fun c => decide (old c < 64)) = false) :
    stepDuty p limit dmin floor st rsv cores old c = if rsv c then old c else min (old c + st) 64 := by
  rw [stepDuty, if_neg (by omega), if_pos below, held, if_neg Bool.false_ne_true]

theorem stepDuty_between (most : p ≤ limit) (least : ¬ p * 100 < limit * 97) :
    stepDuty p limit dmin floor st rsv cores old c = old c := by
  rw [stepDuty, if_neg (Nat.not_lt.2 most), if_neg least]

end

/-! ### PMU_DUTY shown (R534) -/

/-- The second machine is the first but for PMU_DUTY. -/
def Dev.DutyShown (d e : Dev) : Prop :=
  ∃ r, e = { d with regs := r } ∧ ∀ key, key ≠ regKey pgPmu 0x148 → KV.find? r key = KV.find? d.regs key

theorem Dev.DutyShown.refl (d : Dev) : DutyShown d d := ⟨_, rfl, fun _ _ => rfl⟩

theorem Dev.DutyShown.trans {a b c : Dev} (h : DutyShown a b) (g : DutyShown b c) : DutyShown a c := by
  obtain ⟨_, rfl, h⟩ := h
  obtain ⟨_, rfl, g⟩ := g
  exact ⟨_, rfl, fun key hk => (g key hk).trans (h key hk)⟩

theorem Dev.DutyShown.showDuty (d : Dev) : DutyShown d d.showDuty := by
  unfold Dev.showDuty
  refine foldl_rel DutyShown.refl DutyShown.trans _ _ (fun e c _ => ?_) d
  split
  · exact ⟨_, rfl, fun _ => find?_setReg e pgPmu 0x148 _⟩
  · exact .refl e

section
variable (d : Dev)

theorem Dev.showDuty_mem : d.showDuty.mem = d.mem := by obtain ⟨_, e, _⟩ := DutyShown.showDuty d; rw [e]
theorem Dev.showDuty_power : d.showDuty.power = d.power := by obtain ⟨_, e, _⟩ := DutyShown.showDuty d; rw [e]
theorem Dev.showDuty_cores : d.showDuty.cores = d.cores := by obtain ⟨_, e, _⟩ := DutyShown.showDuty d; rw [e]

theorem Dev.reg_showDuty {p o : Nat} (h : regKey p o ≠ regKey pgPmu 0x148) : d.showDuty.reg p o = d.reg p o := by
  obtain ⟨_, e, kept⟩ := DutyShown.showDuty d
  rw [e]
  simp [Dev.reg, kept _ h]

end

/-! ### The averages of a millisecond (R530, R534) -/

/-- The duty of some cores that it changes, set. -/
def Dev.setDuties (d : Dev) (old new : Nat → Nat) (cores : List Nat) : Dev :=
  cores.foldl (fun x c => if new c = old c then x else x.modCore c (fun k => { k with dutyPwr := new c })) d

section
variable (d : Dev) (old new : Nat → Nat) (cores : List Nat)

theorem Dev.setDuties_mem : (d.setDuties old new cores).mem = d.mem :=
  foldl_field Dev.mem _ (fun e c => by split <;> rfl) cores d

theorem Dev.setDuties_regs : (d.setDuties old new cores).regs = d.regs :=
  foldl_field Dev.regs _ (fun e c => by split <;> rfl) cores d

variable {cores} in
/-- A core that is not among them is left as it is. -/
theorem Dev.core_setDuties {j : Nat} (other : j ∉ cores) : (d.setDuties old new cores).core j = d.core j := by
  unfold Dev.setDuties
  refine foldl_rel (R := fun a b : Dev => b.core j = a.core j) (fun _ => rfl) (fun h g => g.trans h) _ _ (fun e c hc => ?_) d
  split
  · rfl
  · exact e.core_modCore_ne _ (fun same => other (same ▸ hc))

end

/-- Duties set, counted and shown: PMU_PWR, memory and the other cores are as they were. -/
theorem duties_shown {d e : Dev} {old new : Nat → Nat} {cores : List Nat} (told : Dev.HeaderOut pgPmu (d.setDuties old new cores) e) :
    e.showDuty.reg pgPmu 0x138 = d.reg pgPmu 0x138 ∧ e.showDuty.mem = d.mem ∧ ∀ c ∉ cores, e.showDuty.core c = d.core c := by
  have word : e.reg pgPmu 0x138 = d.reg pgPmu 0x138 :=
    (told.reg_above (by decide)).trans (Dev.reg_congr (d.setDuties_regs old new cores) _ _)
  have mem : e.mem = (d.setDuties old new cores).mem := by obtain ⟨_, _, rfl, -⟩ := told; rfl
  have rest : e.cores = (d.setDuties old new cores).cores := by obtain ⟨_, _, rfl, -⟩ := told; rfl
  refine ⟨?_, ?_, fun c other => ?_⟩
  · rw [Dev.reg_showDuty _ (by decide), word]
  · rw [Dev.showDuty_mem, mem, Dev.setDuties_mem]
  · rw [Dev.core_congr (e.showDuty_cores), Dev.core_congr rest, d.core_setDuties old new other]

/-- The machine with the averages of a millisecond counted, and their word in PMU_PWR. -/
def Dev.averaged (d : Dev) (v : W64) : Dev :=
  (d.takeFree.1.count pgPmu 0x02 (d.takeFree.2.field 15 0)).setReg pgPmu 0x138 v

section
variable (d : Dev) (v : W64)

theorem Dev.averaged_mem : (d.averaged v).mem = d.mem := by simp [Dev.averaged]
theorem Dev.averaged_cores : (d.averaged v).cores = d.cores := by simp [Dev.averaged]
theorem Dev.corePresent_averaged (c : Nat) : (d.averaged v).corePresent c = d.corePresent c := by
  simp [Dev.averaged, Dev.corePresent]

end

/-- The update shows the averages and sets the duties of the cores that are present. -/
theorem dutyUpdate_up {d : Dev} (up : d.up = true) (watts a b : Nat) :
    ∃ old new e v, v = BitVec.ofNat 64 (watts % 65536 + a % 65536 * 2 ^ 16 + b % 65536 * 2 ^ 32)
      ∧ dutyUpdate d watts a b = Dev.showDuty e
      ∧ Dev.HeaderOut pgPmu ((d.averaged v).setDuties old new ((List.range 8).filter (d.averaged v).corePresent)) e := by
  unfold dutyUpdate
  rw [if_neg (by simp [up])]
  generalize word : BitVec.ofNat 64 (watts % 65536 + a % 65536 * 2 ^ 16 + b % 65536 * 2 ^ 32) = v
  extract_lets energy d₁ d₂ cores ctl dmin floor st old new down rise below d₃ d₄
  have counted : Dev.HeaderOut pgPmu d₃ d₄ := (Dev.HeaderOut.count d₃ pgPmu 0x03 down).trans (.count _ _ _ _)
  refine ⟨old, new, _, v, rfl, rfl, ?_⟩
  split
  · exact counted.trans (.setIsr ..)
  · exact counted

theorem exec_powerDutyUpdate (watts a b : Nat) (s : State) :
    exec (.powerDutyUpdate watts a b) s = .next (s.after (dutyUpdate s.quiet watts a b)) := rfl

/-- Settles O29: each range of the power moves one group of duties, and the update reaches only present cores. -/
theorem issueDuty : Obligations.IssueDuty := by
  unfold Obligations.IssueDuty
  refine ⟨fun p limit dmin floor st rsv cores old c => ⟨stepDuty_above_free c, stepDuty_above_held c, stepDuty_below_held c,
    stepDuty_below_free c, stepDuty_between c⟩, fun s p a b up => ⟨_, exec_powerDutyUpdate p a b s, ?_⟩⟩
  obtain ⟨old, new, e, v, shows, update, told⟩ := dutyUpdate_up up p a b
  obtain ⟨word, mem, others⟩ := duties_shown told
  rw [State.after_dev, update]
  refine ⟨(word.trans (Dev.reg_setReg ..)).trans shows, mem.trans (s.quiet.averaged_mem v), fun c _ gone => ?_⟩
  have absent : (s.quiet.averaged v).corePresent c = false := (Dev.corePresent_averaged ..).trans gone
  rw [others c (by simp [absent]), Dev.core_congr (s.quiet.averaged_cores v)]
  rfl

end Sys2Proof.Machine

/-! PROOFS. The thermal throttle, a sample of one sensor, and the trip (R531 to R533). -/

namespace Sys2Proof.Machine

/-! ### The throttle of a half (R531, R532) -/

/-- The second machine is the first but for halves, the header and the throttle's word of the THM page, and what it drives out. -/
def Dev.Throttled (d e : Dev) : Prop :=
  ∃ r o x, e = { d with regs := r, out := o, halves := x } ∧
    ∀ key, (∀ k < 0x100, key ≠ regKey pgThm k) → key ≠ regKey pgThm 0x108 → KV.find? r key = KV.find? d.regs key

namespace Dev.Throttled

theorem refl (d : Dev) : Throttled d d := ⟨_, _, _, rfl, fun _ _ _ => rfl⟩

theorem trans {a b c : Dev} (h : Throttled a b) (g : Throttled b c) : Throttled a c := by
  obtain ⟨_, _, _, rfl, h⟩ := h
  obtain ⟨_, _, _, rfl, g⟩ := g
  exact ⟨_, _, _, rfl, fun key hk ht => (g key hk ht).trans (h key hk ht)⟩

theorem of_headerOut {d e : Dev} (h : HeaderOut pgThm d e) : Throttled d e := by
  obtain ⟨_, _, rfl, h⟩ := h
  exact ⟨_, _, _, rfl, fun key hk _ => h key hk⟩

theorem setf (d : Dev) (hi lo v : Nat) : Throttled d (d.setf pgThm 0x108 hi lo v) :=
  ⟨_, _, _, rfl, fun _ _ => find?_setReg d pgThm 0x108 _⟩

theorem modHalf (d : Dev) (h : Nat) (f : Half → Half) : Throttled d (d.modHalf h f) := ⟨_, _, _, rfl, fun _ _ _ => rfl⟩

theorem reg {d e : Dev} (h : Throttled d e) {o : Nat} (lo : 0x200 ≤ o) : e.reg pgThm o = d.reg pgThm o := by
  obtain ⟨_, _, _, rfl, kept⟩ := h
  simp [Dev.reg, kept (regKey pgThm o) (fun k hk => by unfold regKey; omega) (by unfold regKey; omega)]

end Dev.Throttled

/-- A half with its throttle step and cooling time as PMU and THM show them. -/
def Dev.putStep (d : Dev) (h step ticks : Nat) : Dev :=
  (d.modHalf h (fun y => { y with therm := step, coolTicks := ticks })).setf pgThm 0x108 (1 + 2 * h) (2 * h) step

theorem Dev.Throttled.putStep (d : Dev) (h step ticks : Nat) : Throttled d (d.putStep h step ticks) :=
  (Throttled.modHalf d h _).trans (.setf ..)

theorem Dev.Throttled.throttle (d : Dev) (l : List Reading) (h : Nat) : Throttled d (d.throttle l h) := by
  have put := Throttled.putStep d h
  have told : ∀ step ticks b, Throttled d ((d.putStep h step ticks).setIsr pgThm b) :=
    fun step ticks b => (put step ticks).trans (of_headerOut (.setIsr ..))
  unfold Dev.throttle
  extract_lets x bad mine called below raw
  split
  · exact told _ _ _
  · split
    · exact put _ _
    · split
      · exact put _ _
      · split
        · exact told _ _ _
        · exact put _ _

/-- A half rises at once to the step that its hottest valid reading calls for. -/
theorem Dev.therm_throttle {d : Dev} {l : List Reading} {h : Nat} {r : Reading}
    (sound : (l.filter (fun r => sensorHalf r.sensor == some h && !(inRange r))).length ≤ 8)
    (hot : hottest (l.filter (fun r => inRange r && (sensorHalf r.sensor == some h || sensorHalf r.sensor == none))) = some r)
    (rises : d.calledStep r.temp > (d.half h).therm) : ((d.throttle l h).half h).therm = d.calledStep r.temp := by
  unfold Dev.throttle
  extract_lets x bad mine called below put
  have step : called = d.calledStep r.temp := by
    unfold called
    rw [if_neg (Nat.not_lt.2 sound)]
    unfold mine
    rw [hot]
  rw [step, if_pos rises]
  have halves : ((put (d.calledStep r.temp) 0).setIsr pgThm 0).half h
      = (d.modHalf h (fun y => { y with therm := d.calledStep r.temp, coolTicks := 0 })).half h := by
    unfold Dev.half
    rw [Dev.setIsr_halves]
    rfl
  rw [halves, Dev.half_modHalf]

/-! ### A sample, and its verdict (R531, R533) -/

/-- The hottest reading shown. -/
def Dev.hottestShown (d : Dev) : Option Reading → Dev
  | some r => (d.setf pgThm 0x108 31 16 (r.temp % 65536).toNat).setf pgThm 0x108 39 32 r.sensor
  | none => d

/-- The machine with readings taken and the hottest shown, its halves following them. -/
def Dev.followed (d : Dev) (l : List Reading) : Dev :=
  (List.range 2).foldl (fun d h => if d.halfPresent h then d.throttle l h else d)
    ((l.foldl (fun d r => d.takeReading r) d).hottestShown (hottest (l.filter (fun r => inRange r))))

/-- The sensors that read 110 °C or more. -/
def hotSensors (l : List Reading) : List Nat := (l.filter (fun r => inRange r && (r.temp ≥ 880 : Bool))).map (fun r => r.sensor)

/-- The machine that trips: THERM_TRIP_N is low, PMU_FAULT.TRIP is set, and the device powers down. -/
def Dev.tripped (d : Dev) : Dev :=
  let e := (d.setb pgPmu 0x158 0 true).emit (.pin "THERM_TRIP_N" false)
  { e with power := { e.power with tripLow := true } }.powerDown

/-- The verdict over hot sensors: the device trips where one of them was hot at the last sample. -/
def Dev.judged (d : Dev) (hot : List Nat) : Dev :=
  let e := { d with power := { d.power with hot := hot } }
  if hot.any (fun i => d.power.hot.contains i) then e.tripped else e

section
variable {d : Dev} {r : Reading}

theorem thermalSample_up (up : d.up = true) (l : List Reading) :
    thermalSample d l = (d.followed (l.filter (fun r => d.sensorPresent r.sensor))).showDuty.judged
      (hotSensors (l.filter (fun r => d.sensorPresent r.sensor))) := by
  unfold thermalSample
  rw [if_neg (by simp [up])]
  rfl

theorem Dev.Throttled.hottestShown (d : Dev) (o : Option Reading) : Throttled d (d.hottestShown o) := by
  cases o with
  | none => exact .refl d
  | some r => exact (Throttled.setf ..).trans (.setf ..)

theorem Dev.Throttled.followed (d : Dev) (l : List Reading) :
    Throttled (l.foldl (fun d r => d.takeReading r) d) (d.followed l) := by
  refine (hottestShown _ _).trans (foldl_rel refl trans _ _ (fun e h _ => ?_) _)
  split
  · exact throttle ..
  · exact .refl e

/-- A valid reading is what its sensor's register shows. -/
theorem Dev.takeReading_valid (valid : inRange r = true) :
    d.takeReading r = d.setReg pgThm (0x200 + 8 * r.sensor) (BitVec.ofNat 64 ((r.temp % 65536).toNat + 65536)) := by
  unfold Dev.takeReading
  extract_lets off was e
  rw [if_neg (by simp [valid])]
  exact congrArg (fun n => d.setReg pgThm off (BitVec.ofNat 64 ((r.temp % 65536).toNat + n))) (if_pos valid)

/-- One reading taken: its register shows its word, and power and memory are as they were. -/
theorem Dev.followed_one {v : W64} (taken : d.takeReading r = d.setReg pgThm (0x200 + 8 * r.sensor) v) :
    (d.followed [r]).reg pgThm (0x200 + 8 * r.sensor) = v ∧ (d.followed [r]).power = d.power ∧ (d.followed [r]).mem = d.mem := by
  have follows := Throttled.followed d [r]
  rw [List.foldl_cons, List.foldl_nil, taken] at follows
  refine ⟨(follows.reg (by omega)).trans (Dev.reg_setReg ..), ?_⟩
  obtain ⟨_, _, _, e, -⟩ := follows
  rw [e]
  exact ⟨rfl, rfl⟩

theorem hotSensors_one (valid : inRange r = true) : hotSensors [r] = if r.temp ≥ 880 then [r.sensor] else [] := by
  unfold hotSensors
  by_cases hot : r.temp ≥ 880 <;> simp [valid, hot]

end

/-- Without a hot sensor nothing trips. -/
theorem Dev.judged_nil (d : Dev) : d.judged [] = { d with power := { d.power with hot := [] } } := rfl

theorem Dev.judged_again {d : Dev} {i : Nat} (again : d.power.hot.contains i = true) :
    d.judged [i] = { d with power := { d.power with hot := [i] } }.tripped := by
  unfold Dev.judged
  exact if_pos (by simpa using again)

/-- Far stores lose what they hold to DRAM's own contents; the always-on controller does not see it. -/
theorem Dev.dramAsStored_power (d : Dev) : d.dramAsStored.power = d.power := by
  unfold Dev.dramAsStored
  refine foldl_field Dev.power _ (fun e x => ?_) _ d
  extract_lets pa k e₁ e₂
  have kept : e₂.power = e.power := by
    unfold e₂
    split <;> rfl
  split
  · exact kept
  · exact kept

/-- A power-down keeps the always-on controller but for its sequence, the reset and the hot sensors (R513). -/
theorem Dev.powerDown_power (d : Dev) : d.powerDown.power = { d.power with inReset := true, hot := [], seq := .down } := by
  have wiped : (d.wiped false).power = { d.dramAsStored.power with inReset := true, hot := [] } := rfl
  unfold Dev.powerDown Dev.setSeq
  rw [wiped, d.dramAsStored_power]

/-- What a trip leaves. -/
theorem Dev.tripped_left (d : Dev) : d.tripped.power.tripLow = true ∧ d.tripped.power.seq = .down ∧ d.tripped.up = false
    ∧ d.tripped.regb pgPmu 0x158 0 = true := by
  have held : d.tripped.power.inReset = true := rfl
  have kept : d.tripped.reg pgPmu 0x158 = (d.setb pgPmu 0x158 0 true).reg pgPmu 0x158 := by
    have listed : keptRegs.contains (regKey pgPmu 0x158) = true := by decide
    exact (Dev.reg_wiped _ false pgPmu 0x158).trans (if_pos listed)
  exact ⟨congrArg Power.tripLow (Dev.powerDown_power _), rfl, Dev.up_of_inReset held, (Dev.regb_of_reg kept 0).trans (Dev.regb_setb _ _ _ _ _ (by decide))⟩

theorem exec_thermalSample (l : List Reading) (s : State) : exec (.thermalSample l) s = .next (s.after (thermalSample s.quiet l)) := rfl

/-- Settles O30: the throttle rises by its first case, and a sample of one sensor is its register, the halves' steps and the
verdict. -/
theorem thermalThrottle : Obligations.ThermalThrottle := by
  unfold Obligations.ThermalThrottle
  have one : ∀ {d : Dev} {r : Reading}, d.up = true → d.sensorPresent r.sensor = true → inRange r = true →
      thermalSample d [r] = (d.followed [r]).showDuty.judged (if r.temp ≥ 880 then [r.sensor] else []) :=
    fun {d r} up present valid => by
      have sampled : [r].filter (fun r => d.sensorPresent r.sensor) = [r] := by simp [present]
      rw [thermalSample_up up, sampled, hotSensors_one valid]
  refine ⟨fun d l h r sound hot rises => Dev.therm_throttle sound hot rises, fun s r up present cool valid => ?_,
    fun s r up present hot valid again => ?_⟩
  · obtain ⟨reading, -, mem⟩ := Dev.followed_one (d := s.quiet) (Dev.takeReading_valid valid)
    refine ⟨_, exec_thermalSample [r] s, ?_⟩
    rw [State.after_dev, one up present valid, if_neg (by omega), Dev.judged_nil]
    exact ⟨(Dev.reg_showDuty _ (by unfold regKey pgThm pgPmu; omega)).trans reading, rfl, (Dev.showDuty_mem _).trans mem⟩
  · obtain ⟨-, power, -⟩ := Dev.followed_one (d := s.quiet) (Dev.takeReading_valid valid)
    refine ⟨_, exec_thermalSample [r] s, ?_⟩
    rw [State.after_dev, one up present valid, if_pos hot, Dev.judged_again (by rw [Dev.showDuty_power, power]; exact again)]
    exact Dev.tripped_left _

end Sys2Proof.Machine

/-! PROOFS. Power-up, power-down and the loss of supplies (R511 to R513). -/

namespace Sys2Proof.Machine

section
variable {d : Dev} {g : Nat}

/-! ### The supplies (R511) -/

/-- The device as the always-on supply starts it: nothing runs, and the cause is a power-on. -/
theorem powerOn_left (off : d.power.aux = false) : (powerOn d).power.aux = true
    ∧ (powerOn d).power.enable = [true, false, false, false] ∧ (powerOn d).power.seq = .waitGood 0 ∧ (powerOn d).up = false
    ∧ (powerOn d).reg pgPmu 0x128 = 1 ∧ (powerOn d).reg pgPmu 0x158 = 0 := by
  unfold powerOn
  rw [if_neg (by simp [off])]
  extract_lets d₁ d₂ p d₃
  have next : d₃.nextGroup = some 0 := rfl
  have raised : d₃.raiseNext = (d₃.setEnable 0 true).setSeq (.waitGood 0) := by
    unfold Dev.raiseNext
    rw [next]
  have shown : ∀ o, ((d₃.setEnable 0 true).setSeq (.waitGood 0)).reg pgPmu o = d₂.reg pgPmu o := fun _ => rfl
  rw [raised, shown, shown]
  refine ⟨rfl, rfl, rfl, Dev.up_of_inReset rfl, ?_, Dev.reg_setReg ..⟩
  exact (Dev.reg_setReg_ne _ _ (by decide)).trans (Dev.reg_setReg ..)

/-- The loss of the always-on supply drops every enable. -/
theorem auxLoss_left (on : d.power.aux = true) : (auxLoss d).power.aux = false ∧ (auxLoss d).up = false
    ∧ (auxLoss d).power.enable = [false, false, false, false] ∧ (auxLoss d).power.seq = .idle := by
  unfold auxLoss
  rw [if_neg (by simp [on])]
  exact ⟨rfl, Dev.up_of_inReset rfl, rfl, rfl⟩

/-! ### The groups (R512, R513) -/

/-- A group that comes good in time lets the sequence go on, or ends it. -/
theorem goodRise_eq (on : d.power.aux = true) (present : d.groupPresent g = true) (enabled : d.enableOf g = true)
    (bad : d.goodOf g = false) (waits : d.power.seq = .waitGood g) (steady : d.nextGroup = none → d.pstate ≠ 3) :
    goodRise d g = { d with power := { d.power with good := d.power.good.set g true } }.setSeq
      (if d.nextGroup.isSome then .waitNext g else .idle) := by
  unfold goodRise
  rw [if_neg (by simp [on, present, enabled, bad])]
  extract_lets p e
  have next : e.nextGroup = d.nextGroup := rfl
  rw [if_neg (not_not.2 waits), next]
  cases h : d.nextGroup with
  | some k => rfl
  | none => exact if_neg fun changing : d.pstate = 3 ∧ _ => steady h changing.1

/-- A power-down with a bit of PMU_FAULT set. -/
theorem faulted_left {b : Nat} (small : b < 64) : ((d.setb pgPmu 0x158 b true).powerDown).power.seq = .down
    ∧ ((d.setb pgPmu 0x158 b true).powerDown).up = false ∧ ((d.setb pgPmu 0x158 b true).powerDown).regb pgPmu 0x158 b = true := by
  have listed : keptRegs.contains (regKey pgPmu 0x158) = true := by decide
  have kept : (d.setb pgPmu 0x158 b true).powerDown.reg pgPmu 0x158 = (d.setb pgPmu 0x158 b true).reg pgPmu 0x158 :=
    (Dev.reg_wiped _ false pgPmu 0x158).trans (if_pos listed)
  exact ⟨rfl, Dev.up_of_inReset rfl, (Dev.regb_of_reg kept b).trans (Dev.regb_setb _ _ _ _ _ small)⟩

theorem goodLoss_eq (on : d.power.aux = true) (present : d.groupPresent g = true) (enabled : d.enableOf g = true)
    (good : d.goodOf g = true) (works : d.power.seq ≠ .down) :
    goodLoss d g = ({ d with power := { d.power with good := d.power.good.set g false } }.setb pgPmu 0x158 (1 + g) true).powerDown := by
  unfold goodLoss
  exact if_neg (by simp [on, present, enabled, good, works])

theorem downStep_eq {k : Nat} (falls : d.power.seq = .down) (last : [3, 2, 1, 0].find? d.enableOf = some k) :
    downStep d = if k = 0 then (d.setEnable 0 false).setSeq .idle else d.setEnable k false := by
  unfold downStep
  rw [if_neg (not_not.2 falls), last]
  by_cases zero : k = 0
  · subst zero; rfl
  · simp only [if_neg zero]

end

section
variable (s : State) (g : Nat)

theorem exec_powerOnReset : exec .powerOnReset s = .next (s.after (powerOn s.quiet)) := rfl
theorem exec_pwrGoodRise : exec (.pwrGoodRise g) s = .next (s.after (goodRise s.quiet g)) := rfl
theorem exec_pwrEnableNext : exec .pwrEnableNext s = .next (s.after (enableNext s.quiet)) := rfl
theorem exec_seqTimeout : exec .seqTimeout s = .next (s.after (seqTimeout s.quiet)) := rfl
theorem exec_pwrGoodLoss : exec (.pwrGoodLoss g) s = .next (s.after (goodLoss s.quiet g)) := rfl
theorem exec_powerDownStep : exec .powerDownStep s = .next (s.after (downStep s.quiet)) := rfl
theorem exec_pwrGoodAuxLoss : exec .pwrGoodAuxLoss s = .next (s.after (auxLoss s.quiet)) := rfl

end

/-- Settles O53, one event of the sequence at a time. -/
theorem powerSequences : Obligations.PowerSequences := by
  unfold Obligations.PowerSequences
  intro s g
  refine ⟨fun off => ⟨_, exec_powerOnReset s, powerOn_left off⟩, fun on present enabled bad waits => ⟨fun k next => ?_, fun last steady => ?_⟩,
    fun k waits next => ?_, fun waits => ⟨_, exec_seqTimeout s, ?_⟩, fun on present enabled good works => ⟨_, exec_pwrGoodLoss s g, ?_⟩,
    fun k falls last => ?_, fun on => ⟨_, exec_pwrGoodAuxLoss s, auxLoss_left on⟩⟩
  · rw [exec_pwrGoodRise, goodRise_eq on present enabled bad waits (by simp [next]), next]
    rfl
  · rw [exec_pwrGoodRise, goodRise_eq on present enabled bad waits (fun _ => steady), last]
    rfl
  · rw [exec_pwrEnableNext, enableNext, waits]
    unfold Dev.raiseNext
    rw [next]
  · rw [State.after_dev, seqTimeout, waits]
    exact faulted_left (by decide)
  · have group : g < 4 := by
      simp only [Dev.groupPresent, Bool.and_eq_true, decide_eq_true_eq] at present
      exact present.1
    rw [State.after_dev, goodLoss_eq on present enabled good works]
    exact faulted_left (by omega)
  · rw [exec_powerDownStep, downStep_eq falls last]

end Sys2Proof.Machine

/-! PROOFS. The board management controller, the throttle's thresholds and the core voltages (R512, R522, R532, R535). -/

namespace Sys2Proof.Machine

section
variable {d : Dev}

/-- PMU_FAULT with its bits cleared, and THERM_TRIP_N with TRIP. -/
theorem Dev.clearFault_left (d : Dev) (v : W64) : (d.clearFault v).reg pgPmu 0x158 = d.reg pgPmu 0x158 &&& ~~~v
    ∧ (d.clearFault v).power.tripLow = (d.power.tripLow && (d.reg pgPmu 0x158 &&& ~~~v).bit 0) ∧ (d.clearFault v).mem = d.mem := by
  unfold Dev.clearFault
  extract_lets e
  have fault : e.reg pgPmu 0x158 = d.reg pgPmu 0x158 &&& ~~~v := Dev.reg_setReg ..
  have trip : e.regb pgPmu 0x158 0 = (d.reg pgPmu 0x158 &&& ~~~v).bit 0 := congrArg (fun x => W64.bit x 0) fault
  have low : e.power.tripLow = d.power.tripLow := rfl
  rw [trip, low]
  split
  next rises =>
    simp only [Bool.and_eq_true, Bool.not_eq_true'] at rises
    rw [rises.2, Bool.and_false]
    exact ⟨fault, rfl, rfl⟩
  next stays =>
    refine ⟨fault, ?_, rfl⟩
    rw [low]
    cases was : d.power.tripLow with
    | false => rfl
    | true => simpa [was] using stays

theorem restartSeq_off (aux : d.power.aux = true) (sound : d.reg pgPmu 0x158 = 0) (idle : d.power.seq = .idle) (off : d.enableOf 0 = false) :
    restartSeq d = (d.setReg pgPmu 0x128 6).raiseNext := by
  unfold restartSeq
  exact if_pos (by simp [aux, sound, idle, off])

theorem avsCommand_works {h : Nat} (mv : Nat) (up : d.up = true) (present : d.halfPresent h = true) (good : d.goodOf (1 + h) = true) :
    avsCommand d h mv = if mv < 600 ∨ 900 < mv then d else
      { d with power := if h = 0 then { d.power with mvA := mv } else { d.power with mvB := mv } }.emit (.avs h mv) := by
  simp [avsCommand, up, present, good]

theorem thmCtrl_eq {w : Wr} (may : d.mayWrite w.agent pgThm 0x100 = true) :
    thmCtrl d w =
      let x := d.merged pgThm 0x100 w
      if x.field 7 0 < x.field 15 8 ∧ x.field 15 8 < x.field 23 16 ∧ x.field 23 16 < 110 ∧ 1 ≤ x.field 31 24 ∧ x.field 31 24 ≤ 10
      then d.setReg pgThm 0x100 (BitVec.ofNat 64 (x.field 31 0)) else d := by
  unfold thmCtrl
  exact if_neg (by simp [may])

end

section
variable (s : State)

theorem exec_pmuFaultRead : exec .pmuFaultRead s = .next (s.after (faultRead s.quiet)) := rfl
theorem exec_pmuFaultClear (v : W64) : exec (.pmuFaultClear v) s = .next (s.after (faultClear s.quiet v)) := rfl
theorem exec_restart : exec .restart s = .next (s.after (restartSeq s.quiet)) := rfl
theorem exec_thmCtrlWrite (w : Wr) : exec (.thmCtrlWrite w) s = .next (s.after (thmCtrl s.quiet w)) := rfl
theorem exec_avsVoltageCommand (h mv : Nat) : exec (.avsVoltageCommand h mv) s = .next (s.after (avsCommand s.quiet h mv)) := rfl

end

/-- Settles O56, one message or register at a time. -/
theorem boardControls : Obligations.BoardControls := by
  unfold Obligations.BoardControls
  intro s w v h mv
  refine ⟨fun aux => ?_, fun aux => ⟨_, exec_pmuFaultClear s v, ?_⟩, fun aux sound idle off => ?_, fun may => ⟨fun ok => ?_, fun bad => ?_⟩,
    fun up present good => ⟨fun least most => ?_, fun out => ?_⟩⟩
  · rw [exec_pmuFaultRead, faultRead, if_pos aux]
  · rw [State.after_dev, faultClear, if_pos aux]
    exact Dev.clearFault_left _ v
  · rw [exec_restart, restartSeq_off aux sound idle off]
  · rw [exec_thmCtrlWrite, (thmCtrl_eq may).trans (if_pos ok)]
  · rw [exec_thmCtrlWrite, (thmCtrl_eq may).trans (if_neg bad)]
  · rw [exec_avsVoltageCommand, avsCommand_works mv up present good, if_neg (by omega)]
  · rw [exec_avsVoltageCommand, avsCommand_works mv up present good, if_pos out]

end Sys2Proof.Machine

/-! PROOFS. Trace records and their rings (R542 to R547). -/

namespace Sys2Proof.Machine

section
variable {d : Dev} {r : Nat}

theorem trcMark_may {w : Wr} (may : d.mayWrite w.agent pgTrc 0x118 = true) : trcMark d w = d.trace pgTrc 0x22 none (wrBits w) 0 :=
  if_pos may

theorem traceTime_on (up : d.up = true) (period : d.regf pgTrc 0x100 31 16 ≠ 0) :
    traceTime d = d.trace pgFts 0x21 none (d.reg pgFts 0x118) (BitVec.ofNat 64 (d.ftsFrame + d.ftsLine * 2 ^ 48)) :=
  if_pos (by simp [up, period])

/-- A record of the buffer goes to the ring while it has room. -/
theorem ringDrain_room {t : TraceRec} {rest : List TraceRec} (n : Nat) (next : (d.ringAt r).buf = t :: rest) (room : d.ringRoom r ≠ 0) :
    ringDrain r (n + 1) d = ringDrain r n ((d.setRing r { d.ringAt r with buf := rest }).ringPut r t) := by
  rw [ringDrain]
  simp only [next]
  exact if_pos room

/-- The ring after a window: the GAP that is owed goes first, within the budget. -/
def Dev.windowed (d : Dev) (r : Nat) : Dev :=
  if (d.ringAt r).dropped = 0 ∨ d.ringRoom r = 0 ∨ d.traceBudget = 0 then ringDrain r d.traceBudget d
  else ringDrain r (d.traceBudget - 1) (d.ringGap r)

/-- A window's records, and its word that the ring is more than three quarters full. -/
theorem traceWindow_eq (up : d.up = true) (half : r < 2) (present : d.halfPresent r = true) (ok : d.ringOk r = true) :
    traceWindow d r =
      let e := d.windowed r
      if (e.ringBytes r - 32) * 3 < (e.ringBytes r - 32 - e.ringRoom r * 32) * 4 then e.setIsr pgTrc 1 else e := by
  unfold traceWindow Dev.windowed
  rw [if_neg (by simp [up, half, present, ok])]
  by_cases none : (d.ringAt r).dropped = 0 ∨ d.ringRoom r = 0 ∨ d.traceBudget = 0
  · have owed : ¬ ((d.ringAt r).dropped ≠ 0 ∧ d.ringRoom r ≠ 0 ∧ d.traceBudget ≠ 0) := by tauto
    simp only [if_pos none, if_neg owed, gt_iff_lt]
  · have owed : (d.ringAt r).dropped ≠ 0 ∧ d.ringRoom r ≠ 0 ∧ d.traceBudget ≠ 0 := by tauto
    simp only [if_neg none, if_pos owed, gt_iff_lt]

end

section
variable (s : State)

theorem exec_trcMark (w : Wr) : exec (.trcMark w) s = .next (s.after (trcMark s.quiet w)) := rfl
theorem exec_traceTimeRecord : exec .traceTimeRecord s = .next (s.after (traceTime s.quiet)) := rfl
theorem exec_traceBudgetWindow (r : Nat) : exec (.traceBudgetWindow r) s = .next (s.after (traceWindow s.quiet r)) := rfl

end

/-- Settles O57 by the equation of each command and of the drain. -/
theorem traceRings : Obligations.TraceRings := by
  unfold Obligations.TraceRings
  intro s w r
  refine ⟨fun may => ?_, fun up period => ?_, fun up half present ok => ⟨fun calm => ?_, fun full => ?_⟩, fun e t rest n => ringDrain_room n⟩
  · rw [exec_trcMark, trcMark_may may]
  · rw [exec_traceTimeRecord, traceTime_on up period]
  · rw [exec_traceBudgetWindow, (traceWindow_eq up half present ok).trans (if_neg (Nat.not_lt.2 calm))]
    rfl
  · rw [exec_traceBudgetWindow, (traceWindow_eq up half present ok).trans (if_pos full)]
    rfl

end Sys2Proof.Machine

/-! PROOFS. The eclipse and its scan copy (R554 to R558). -/

namespace Sys2Proof.Machine

/-- A plain write leaves a bit that its register neither writes nor clears. -/
theorem Dev.regb_plainWrite_fixed (d : Dev) {p o i : Nat} {r : RegRow} (w : Wr) (row : regRow? p o = some r)
    (still : W64.bit (BitVec.ofNat 64 r.rw) i = false) (kept : W64.bit (BitVec.ofNat 64 r.w1c) i = false) (small : i < 64) :
    (d.plainWrite p o w).regb p o i = d.regb p o i := by
  unfold Dev.plainWrite
  rw [row]
  unfold Dev.regb
  rw [Dev.reg_setReg]
  unfold W64.bit at *
  simp only [BitVec.getLsbD_and, BitVec.getLsbD_or, BitVec.getLsbD_not, still, kept, small, Bool.false_and, Bool.and_false, Bool.or_false,
    Bool.not_false, Bool.and_true, decide_true]

section
variable (d : Dev) (w : Wr)

/-- STOPPED is not a written bit. -/
theorem Dev.eclipsed_plainWrite : (d.plainWrite pgTrc 0x300 w).eclipsed = d.eclipsed := by
  have row : regRow? pgTrc 0x300 = some ⟨0x300, 0, 1, ones 5 3, 0, 0, .anyone⟩ := by decide
  exact d.regb_plainWrite_fixed w row (by decide) (by decide) (by decide)

theorem Dev.dbgLevel_plainWrite : (d.plainWrite pgTrc 0x300 w).dbgLevel = d.dbgLevel :=
  congrArg (fun x => W64.field x 1 0) (d.reg_plainWrite_ne w (by decide))

theorem Dev.plainWrite_aclkA (p o : Nat) : (d.plainWrite p o w).aclkA = d.aclkA := by
  unfold Dev.plainWrite
  cases regRow? p o <;> rfl

/-- A trace record changes no register above the header. -/
theorem Dev.reg_trace_above (page kind : Nat) (ctx : Option Nat) (u v : W64) {o : Nat} (above : 0x100 ≤ o) :
    (d.trace page kind ctx u v).reg pgTrc o = d.reg pgTrc o := by
  unfold Dev.trace
  extract_lets r on ids inst type x t ring ring' trc e
  split
  · rfl
  · split
    · exact e.reg_count_above _ _ _ above
    · rfl

end

section
variable {d : Dev} {cause : Nat}

/-- An eclipse stops the device with its cause and ACLK count. -/
theorem Dev.eclipse_stops (level : d.dbgLevel ≠ 0) (runs : d.eclipsed = false) (small : cause < 256) :
    (d.eclipse cause).eclipsed = true ∧ (d.eclipse cause).regf pgTrc 0x300 15 8 = cause ∧ (d.eclipse cause).trc.ts = d.aclkA := by
  unfold Dev.eclipse
  rw [if_neg (by simp [level, runs])]
  extract_lets d₁ d₂ g d₃ d₄
  have word : d₄.reg pgTrc 0x300 = d₁.reg pgTrc 0x300 := calc
    d₄.reg pgTrc 0x300 = d₂.reg pgTrc 0x300 :=
      (Dev.reg_count_above _ _ _ _ (by decide)).trans (d₃.reg_setIsr_above _ _ (by decide))
    _ = d₁.reg pgTrc 0x300 := d₁.reg_trace_above _ _ _ _ _ (by decide)
  have stopped : d₁.eclipsed = true := by
    have apart : d₁.eclipsed = (d.setb pgTrc 0x300 2 true).regb pgTrc 0x300 2 := by
      unfold Dev.eclipsed Dev.regb d₁
      rw [Dev.reg_setf, W64.bit_setField_apart _ _ (by decide) (by decide)]
    rw [apart, Dev.regb_setb _ _ _ _ _ (by decide)]
  have told : d₁.regf pgTrc 0x300 15 8 = cause := by
    rw [Dev.regf_setf _ _ _ _ (by decide) (by decide)]
    exact Nat.mod_eq_of_lt small
  have count : d₄.trc.ts = d.aclkA := by
    rw [Dev.count_trc, Dev.setIsr_trc]
    exact Dev.trace_aclkA ..
  have left : d₄.eclipsed = true ∧ d₄.regf pgTrc 0x300 15 8 = cause ∧ d₄.trc.ts = d.aclkA :=
    ⟨(Dev.regb_of_reg word 2).trans stopped, (congrArg (fun x => W64.field x 15 8) word).trans told, count⟩
  clear_value d₄
  split
  · exact left
  · exact left

end

section
variable {d : Dev} {w : Wr}

/-- GO of a secure agent is a plain write and an eclipse. -/
theorem eclCtrl_go (level : d.dbgLevel ≠ 0) (may : d.mayWrite w.agent pgTrc 0x300 = true) (go : wrHit w 0 = true)
    (stay : wrHit w 1 = false) (secure : (d.plainWrite pgTrc 0x300 w).agentSecure w.agent = true) :
    eclCtrl d w = (d.plainWrite pgTrc 0x300 w).eclipse 1 := by
  unfold eclCtrl
  rw [if_neg (by simp [level, may]), if_neg (by simp [stay])]
  exact if_pos (by simp [go, secure])

/-- RESUME lets the device go on. -/
theorem eclCtrl_resume (level : d.dbgLevel ≠ 0) (may : d.mayWrite w.agent pgTrc 0x300 = true) (resume : wrHit w 1 = true)
    (stay : wrHit w 0 = false) (was : d.eclipsed = true) : (eclCtrl d w).eclipsed = false ∧ (eclCtrl d w).mem = d.mem := by
  unfold eclCtrl
  rw [if_neg (by simp [level, may])]
  extract_lets e low d₁ d₂ d₃
  have kept : d₂ = d₁ := if_neg (by simp [stay])
  have stood : e = true := was
  rw [if_pos (by simp [resume, stood])]
  have left : d₃.eclipsed = false ∧ d₃.mem = d.mem :=
    ⟨Dev.regb_setb _ _ _ _ _ (by decide), by
      have mem : d₃.mem = d₂.mem := rfl
      rw [mem, kept]
      exact Dev.plainWrite_mem ..⟩
  split
  · exact left
  · exact left

/-- At debug level 0 nothing stops the device. -/
theorem Dev.eclipse_level_zero (level : d.dbgLevel = 0) (cause : Nat) : d.eclipse cause = d := if_pos (.inl level)

theorem eclCtrl_level_zero (level : d.dbgLevel = 0) : eclCtrl d w = d := if_pos (by simp [level])

theorem eclTime_level_zero (level : d.dbgLevel = 0) : eclTime d = d := by
  unfold eclTime
  rw [Dev.eclipse_level_zero level, ite_self]

/-- The time trigger, when it is armed and due. -/
theorem eclTime_due (up : d.up = true) (on : d.regb pgTrc 0x300 3 = true) (armed : d.reg pgTrc 0x310 ≠ 0)
    (time : d.aclkA = d.reg pgTrc 0x310) : eclTime d = d.eclipse 3 := by
  have due : (d.reg pgTrc 0x310 != 0) = true := bne_iff_ne.2 armed
  exact if_pos (by simp only [up, on, due, time, beq_self_eq_true, Bool.and_self])

theorem eclFall_on (up : d.up = true) (on : d.regb pgTrc 0x300 5 = true) : eclFall d = d.eclipse 4 := if_pos (by simp [up, on])

theorem eclFall_level_zero (level : d.dbgLevel = 0) : eclFall d = d := by
  unfold eclFall
  rw [Dev.eclipse_level_zero level, ite_self]

/-- GO of an eclipsed device starts a scan copy. -/
theorem eclScanWrite_go (level : d.dbgLevel ≠ 0) (may : d.mayWrite w.agent pgTrc 0x320 = true) (go : wrHit w 0 = true)
    (stopped : (d.plainWrite pgTrc 0x320 w).eclipsed = true) (idle : (d.plainWrite pgTrc 0x320 w).regb pgTrc 0x320 1 = false) :
    eclScanWrite d w = ((d.plainWrite pgTrc 0x320 w).setb pgTrc 0x320 1 true).setf pgTrc 0x320 63 32 0 := by
  unfold eclScanWrite
  rw [if_neg (by simp [level, may])]
  exact if_pos (by simp [go, stopped, idle])

theorem scanDone_busy (up : d.up = true) (busy : d.regb pgTrc 0x320 1 = true) :
    scanDone d = (((d.store (d.regf pgTrc 0x318 47 12 * 4096) d.scanImage).setb pgTrc 0x320 1 false).setf pgTrc 0x320 63 32
      (d.scanImage.length / 2 ^ 20)).setIsr pgTrc 3 :=
  if_neg (by simp [up, busy])

end

section
variable (s : State) (w : Wr)

theorem exec_eclipseGo : exec (.eclipseGo w) s = .next (s.after (eclCtrl s.quiet w)) := rfl
theorem exec_eclipseResume : exec (.eclipseResume w) s = .next (s.after (eclCtrl s.quiet w)) := rfl
theorem exec_eclipseTimeTrigger : exec .eclipseTimeTrigger s = .next (s.after (eclTime s.quiet)) := rfl
theorem exec_eclipseNFall : exec .eclipseNFall s = .next (s.after (eclFall s.quiet)) := rfl
theorem exec_eclipseScan : exec (.eclipseScan w) s = .next (s.after (eclScanWrite s.quiet w)) := rfl
theorem exec_scanComplete : exec .scanComplete s = .next (s.after (scanDone s.quiet)) := rfl

end

/-- Settles O58: each trigger is one eclipse, and the copy's two commands are their equations. -/
theorem eclipseAndScan : Obligations.EclipseAndScan := by
  unfold Obligations.EclipseAndScan
  refine ⟨fun s w => ⟨fun level may => ⟨fun go stay secure runs => ⟨_, exec_eclipseGo s w, ?_⟩,
      fun resume stay was => ⟨_, exec_eclipseResume s w, ?_⟩⟩,
    fun up level runs => ⟨fun on armed time => ⟨_, exec_eclipseTimeTrigger s, ?_⟩, fun on => ⟨_, exec_eclipseNFall s, ?_⟩⟩,
    fun level => ⟨?_, ?_, ?_, ?_⟩⟩,
    fun s w => ⟨fun level may go was stopped idle => ?_, fun up busy => ?_⟩⟩
  · have secured : (s.quiet.plainWrite pgTrc 0x300 w).agentSecure w.agent = true := by
      rw [← secure]
      unfold Dev.agentSecure
      rw [Dev.dbgLevel_plainWrite]
    rw [State.after_dev, eclCtrl_go level may go stay secured]
    obtain ⟨stopped, cause, count⟩ := Dev.eclipse_stops (d := s.quiet.plainWrite pgTrc 0x300 w) (cause := 1)
      (by rwa [Dev.dbgLevel_plainWrite]) (by rwa [Dev.eclipsed_plainWrite]) (by decide)
    exact ⟨stopped, cause, count.trans (Dev.plainWrite_aclkA ..), (Dev.eclipse_mem ..).trans (Dev.plainWrite_mem ..)⟩
  · rw [State.after_dev]
    exact eclCtrl_resume level may resume stay was
  · rw [State.after_dev, eclTime_due up on armed time]
    exact Dev.eclipse_stops level runs (by decide)
  · rw [State.after_dev, eclFall_on up on]
    exact Dev.eclipse_stops level runs (by decide)
  · rw [exec_eclipseGo, eclCtrl_level_zero level]
  · rw [exec_eclipseTimeTrigger, eclTime_level_zero level]
  · rw [exec_eclipseNFall, eclFall_level_zero level]
  · rw [exec_eclipseResume, eclCtrl_level_zero level]
  · rw [exec_eclipseScan, eclScanWrite_go level may go stopped idle]
  · rw [exec_scanComplete, scanDone_busy up busy]

end Sys2Proof.Machine
